-- ==== Sys2Proof/Word.lean ====
section
/-! DEFINITION. The word types of the Veanaut 6400 (R7, R8) and their plainest arithmetic. -/

namespace Sys2Proof

/-- A lane register, an address register, a special register (R57). -/
abbrev W64 := BitVec 64

/-- A byte of memory (R8). -/
abbrev Byte := BitVec 8

/-- A bit mask over the lanes of a group, bit l for logical lane l (R34). -/
abbrev LaneMask := BitVec 64

/-- `fld x h l` is x<h:l> (R7). -/
def fld (x h l : Nat) : Nat := (x >>> l) % 2 ^ (h + 1 - l)

/-- `bit x i` is x<i> as a truth value (R7). -/
def bit (x i : Nat) : Bool := x.testBit i

/-- The unsigned number `x` of `w` bits read as two's complement (R29, SEXT). -/
def sext (w x : Nat) : Int := if x < 2 ^ (w - 1) then (x : Int) else (x : Int) - (2 : Int) ^ w

/-- An integer reduced modulo 2^w (R28, R94). -/
def wrap (w : Nat) (x : Int) : Nat := (x % (2 : Int) ^ w).toNat

/-- `x` clamped to the closed range `lo` to `hi` (R121). -/
def clampI (x lo hi : Int) : Int := if x < lo then lo else if hi < x then hi else x

end Sys2Proof
end

