-- ==== Sys2Proof/Config.lean ====
section
/-! DEFINITION. What one part fixes and the values the spec leaves open: opaque constants without a body. -/

namespace Sys2Proof.Config

/-- The open values of the spec, one for each value of the state's counter `free` (log 5). -/
opaque freeNat : Nat → Nat

/-- The address that an ARRIVE record of a collective term names, by a number for the operation and the member. The spec names no address
for a term (R363, R364; log 122). -/
opaque termAddr : Nat → Nat

/-- The part's serial number, 8 bytes at 0x3008 (R366; log 21). -/
opaque serial : Nat

/-- The part's silicon stepping, one byte at 0x3004 (R366; log 21). -/
opaque stepping : Nat

/-- The fused SHA3-512 hash of the debug authority's public key (R370; log 21). -/
opaque authorityHash : Nat

/-- What IDHASH reads as before FUSES has derived the identity key (R366, R369; log 21). -/
opaque earlyHash : Nat

/-- The fused device secret (R369; log 21). -/
opaque deviceSecret : List Nat

/-- The 32-byte seed that key generation takes, by the SHA3-512 digest of the device secret. The spec names the two functions and not
which bytes of the one the other takes (R369; log 21). -/
opaque keySeed : Nat → Nat

/-- The key pairs that the part draws for slot 0, one by each number: a data key and a tweak key (R371; log 22). -/
opaque drawnKey : Nat → Nat

/-- The digest of the boot firmware and of the supervisor image (R369; log 21). -/
opaque firmwareDigest : Nat → List Nat

end Sys2Proof.Config
end

