-- ==== Sys2Proof/Machine/Crypto.lean ====
section
/-! DEFINITION. The functions that R369 to R371 name, written from the standards that define them: SHA3-512 and SHAKE (FIPS 202),
AES-256 and XTS (FIPS 197, IEEE 1619) and ML-DSA-87 (FIPS 204). A byte string is a list of numbers below 256, its first byte first; a
polynomial is the list of its 256 coefficients modulo q. What the standards say and the spec does not is log 21's and log 22's. -/

namespace Sys2Proof.Crypto

/-- A byte string as a number, first byte least significant. -/
def leNat (bs : List Nat) : Nat := bs.foldr (fun b r => b + 256 * r) 0
/-- The n low bytes of a number, least significant first. -/
def leBytes (n v : Nat) : List Nat := (List.range n).map fun i => v / 256 ^ i % 256
/-- Element i of a list of numbers. -/
def nth (l : List Nat) (i : Nat) : Nat := (l[i]?).getD 0

/-! ### FIPS 202 -/

def rotl64 (v r : Nat) : Nat := v * 2 ^ r % 2 ^ 64 + v / 2 ^ (64 - r)

/-- Rotations of rho, lane (x, y) at x + 5y. -/
def rhoOffsets : List Nat :=
  [0, 1, 62, 28, 27, 36, 44, 6, 55, 20, 3, 10, 43, 25, 39, 41, 45, 15, 21, 8, 18, 2, 61, 56, 14]

/-- Round constants of iota. -/
def iotaConsts : List Nat :=
  [0x0000000000000001, 0x0000000000008082, 0x800000000000808A, 0x8000000080008000, 0x000000000000808B, 0x0000000080000001,
   0x8000000080008081, 0x8000000000008009, 0x000000000000008A, 0x0000000000000088, 0x0000000080008009, 0x000000008000000A] ++
  [0x000000008000808B, 0x800000000000008B, 0x8000000000008089, 0x8000000000008003, 0x8000000000008002, 0x8000000000000080,
   0x000000000000800A, 0x800000008000000A, 0x8000000080008081, 0x8000000000008080, 0x0000000080000001, 0x8000000080008008]

def theta (a : List Nat) : List Nat :=
  let c := (List.range 5).map fun x => (List.range 5).foldl (fun v y => v ^^^ nth a (x + 5 * y)) 0
  let d := (List.range 5).map fun x => nth c ((x + 4) % 5) ^^^ rotl64 (nth c ((x + 1) % 5)) 1
  (List.range 25).map fun i => nth a i ^^^ nth d (i % 5)
/-- Rho and pi: lane (X, Y) takes lane (X + 3Y, X), rotated. -/
def rhoPi (a : List Nat) : List Nat :=
  (List.range 25).map fun i =>
    let j := (i % 5 + 3 * (i / 5)) % 5 + 5 * (i % 5)
    rotl64 (nth a j) (nth rhoOffsets j)
def chi (b : List Nat) : List Nat :=
  (List.range 25).map fun i =>
    nth b i ^^^ ((2 ^ 64 - 1 - nth b ((i % 5 + 1) % 5 + 5 * (i / 5))) &&& nth b ((i % 5 + 2) % 5 + 5 * (i / 5)))
def keccakRound (a : List Nat) (rc : Nat) : List Nat :=
  match chi (rhoPi (theta a)) with
  | [] => []
  | x :: xs => (x ^^^ rc) :: xs
/-- KECCAK-f[1600] on 25 lanes. -/
def keccakF (a : List Nat) : List Nat := iotaConsts.foldl keccakRound a

/-- The message with its suffix bits and pad10*1, for a rate in bytes. -/
def padMsg (rate sfx : Nat) (m : List Nat) : List Nat :=
  let z := rate - 1 - m.length % rate
  if z = 0 then m ++ [sfx + 0x80] else m ++ sfx :: (List.replicate (z - 1) 0 ++ [0x80])
def absorbBlock (a block : List Nat) : List Nat :=
  keccakF ((List.range 25).map fun i => nth a i ^^^ leNat ((block.drop (8 * i)).take 8))
def absorb (rate : Nat) (m : List Nat) : List Nat :=
  (List.range (m.length / rate)).foldl (fun a i => absorbBlock a ((m.drop (rate * i)).take rate)) (List.replicate 25 0)
def squeeze (rate : Nat) : Nat → List Nat → List Nat
  | 0, _ => []
  | n + 1, a => ((a.flatMap (leBytes 8)).take rate) ++ squeeze rate n (keccakF a)
def sponge (rate sfx : Nat) (m : List Nat) (n : Nat) : List Nat :=
  (squeeze rate ((n + rate - 1) / rate) (absorb rate (padMsg rate sfx m))).take n

/-- SHA3-512 of a byte string: 64 bytes. -/
def sha3Bytes (m : List Nat) : List Nat := sponge 72 0x06 m 64
/-- The same as a number, first byte least significant. -/
@[irreducible] def sha3 (m : List Nat) : Nat := leNat (sha3Bytes m)
def shake128 (m : List Nat) (n : Nat) : List Nat := sponge 168 0x1F m n
def shake256 (m : List Nat) (n : Nat) : List Nat := sponge 136 0x1F m n

/-! ### FIPS 197 and XTS -/

def xtime (a : Nat) : Nat := if a < 128 then 2 * a else 2 * a % 256 ^^^ 0x1B
/-- Product in GF(2^8). -/
def gmul (a b : Nat) : Nat :=
  ((List.range 8).foldl (fun (p : Nat × Nat) i => (if b.testBit i then p.1 ^^^ p.2 else p.1, xtime p.2)) (0, a)).1
/-- The inverse in GF(2^8), 0 for 0: the power 254. -/
def ginv (a : Nat) : Nat :=
  ((List.range 7).foldl (fun (p : Nat × Nat) _ => let q := gmul p.2 p.2; (gmul p.1 q, q)) (1, a)).1
def rotl8 (v r : Nat) : Nat := v * 2 ^ r % 256 + v / 2 ^ (8 - r)
def sbox (a : Nat) : Nat :=
  let b := ginv a
  b ^^^ rotl8 b 1 ^^^ rotl8 b 2 ^^^ rotl8 b 3 ^^^ rotl8 b 4 ^^^ 0x63
def invSbox (a : Nat) : Nat := ginv (rotl8 a 1 ^^^ rotl8 a 3 ^^^ rotl8 a 6 ^^^ 0x05)

def xorBytes (a b : List Nat) : List Nat := List.zipWith (· ^^^ ·) a b

/-- The key schedule of AES-256, newest word first: the word after the first i. -/
def nextWord (i : Nat) (ws : List (List Nat)) : List Nat :=
  let prev := (ws[0]?).getD []
  let old := (ws[7]?).getD []
  let t :=
    if i % 8 = 0 then xorBytes ((prev.drop 1 ++ prev.take 1).map sbox) [2 ^ (i / 8 - 1), 0, 0, 0]
    else if i % 8 = 4 then prev.map sbox else prev
  xorBytes old t
/-- The 15 round keys of a 32-byte key. -/
def roundKeys (key : List Nat) : List (List Nat) :=
  let first := ((List.range 8).map fun i => (key.drop (4 * i)).take 4).reverse
  let all := ((List.range 52).foldl (fun ws i => nextWord (i + 8) ws :: ws) first).reverse.flatten
  (List.range 15).map fun r => (all.drop (16 * r)).take 16

def shiftRows (s : List Nat) : List Nat := (List.range 16).map fun i => nth s ((i + 4 * (i % 4)) % 16)
def invShiftRows (s : List Nat) : List Nat := (List.range 16).map fun i => nth s ((i + 12 * (i % 4)) % 16)
/-- Multiplies each column by the circulant matrix of a row. -/
def mixBy (row s : List Nat) : List Nat :=
  (List.range 16).map fun i =>
    (List.range 4).foldl (fun v j => v ^^^ gmul (nth s (i / 4 * 4 + j)) (nth row ((j + 4 - i % 4) % 4))) 0

def aesEnc (key s : List Nat) : List Nat :=
  match roundKeys key with
  | [] => s
  | k0 :: ks =>
    let t := (ks.take 13).foldl (fun s k => xorBytes (mixBy [2, 3, 1, 1] (shiftRows (s.map sbox))) k) (xorBytes s k0)
    xorBytes (shiftRows (t.map sbox)) ((ks[13]?).getD [])
def aesDec (key s : List Nat) : List Nat :=
  match (roundKeys key).reverse with
  | [] => s
  | k0 :: ks =>
    let t := (ks.take 13).foldl (fun s k => mixBy [14, 11, 13, 9] (xorBytes ((invShiftRows s).map invSbox) k)) (xorBytes s k0)
    xorBytes ((invShiftRows t).map invSbox) ((ks[13]?).getD [])

/-- Product by the primitive element of GF(2^128), as XTS numbers its bits. -/
def alpha (t : Nat) : Nat := if t < 2 ^ 127 then 2 * t else 2 * t % 2 ^ 128 ^^^ 0x87
/-- The tweak of cipher block j of a data unit. -/
def xtsTweak (key2 : List Nat) (unit j : Nat) : Nat := (List.range j).foldl (fun t _ => alpha t) (leNat (aesEnc key2 (leBytes 16 unit)))

/-- One cipher block under a 64-byte key pair: the data key, then the tweak key. -/
def xtsEnc (pair unit j p : Nat) : Nat :=
  let k := leBytes 64 pair
  let t := xtsTweak (k.drop 32) unit j
  leNat (aesEnc (k.take 32) (leBytes 16 (p ^^^ t))) ^^^ t
def xtsDec (pair unit j c : Nat) : Nat :=
  let k := leBytes 64 pair
  let t := xtsTweak (k.drop 32) unit j
  leNat (aesDec (k.take 32) (leBytes 16 (c ^^^ t))) ^^^ t

/-- The key pair that a key's number names: an odd number holds a loaded pair, an even one names a pair that the part draws (R371). -/
def keyPair (n : Nat) : Nat := if n % 2 = 1 then n / 2 % 2 ^ 512 else Config.drawnKey n % 2 ^ 512

/-- R371: the 16-byte block at address a that was stored in plain as p under one key, as another key reads it. The data unit is the
line, whose tweak is <51:7> of its address. -/
@[irreducible] def recrypt (old new a p : Nat) : Nat :=
  let unit := a / 2 ^ 7 % 2 ^ 45
  let j := a / 16 % 8
  xtsDec (keyPair new) unit j (xtsEnc (keyPair old) unit j p)

/-! ### FIPS 204: polynomials -/

abbrev Poly := List Nat
def q : Nat := 8380417
def gamma1 : Nat := 2 ^ 19
def gamma2 : Nat := 261888
def beta : Nat := 120
def omega : Nat := 75

def subq (a b : Nat) : Nat := (a + q - b) % q
def padd (a b : Poly) : Poly := List.zipWith (fun x y => (x + y) % q) a b
def psub (a b : Poly) : Poly := List.zipWith subq a b
def pmul (a b : Poly) : Poly := List.zipWith (fun x y => x * y % q) a b
def zeroPoly : Poly := List.replicate 256 0
/-- Absolute value of a coefficient. -/
def absq (a : Nat) : Nat := min a (q - a)
/-- Every coefficient lies below a bound. -/
def below (b : Nat) (ps : List Poly) : Bool := ps.all fun p => p.all fun a => decide (absq a < b)

def bitRev8 (m : Nat) : Nat := (List.range 8).foldl (fun r i => 2 * r + m / 2 ^ i % 2) 0
/-- A power of the 512th root of unity. -/
def zeta (e : Nat) : Nat := 1753 ^ e % q

/-- The number-theoretic transform of 2^l coefficients, at node k of its tree. -/
def nttAt : Nat → Nat → Poly → Poly
  | 0, _, w => w
  | l + 1, k, w =>
    let z := zeta (bitRev8 k)
    let a := w.take (2 ^ l)
    let b := (w.drop (2 ^ l)).map fun x => z * x % q
    nttAt l (2 * k) (padd a b) ++ nttAt l (2 * k + 1) (psub a b)
def ntt (w : Poly) : Poly := nttAt 8 1 w
def invNttAt : Nat → Nat → Poly → Poly
  | 0, _, w => w
  | l + 1, k, w =>
    let z := zeta (512 - bitRev8 k)
    let a := invNttAt l (2 * k) (w.take (2 ^ l))
    let b := invNttAt l (2 * k + 1) (w.drop (2 ^ l))
    padd a b ++ (psub a b).map fun x => z * x % q
/-- The inverse transform; 8347681 is the inverse of 256. -/
def invNtt (w : Poly) : Poly := (invNttAt 8 1 w).map fun x => 8347681 * x % q

/-- A matrix of transformed polynomials by a vector of them. -/
def matVec (m : List (List Poly)) (v : List Poly) : List Poly :=
  m.map fun row => (List.zipWith pmul row v).foldl padd zeroPoly
def vadd (a b : List Poly) : List Poly := List.zipWith padd a b
def vsub (a b : List Poly) : List Poly := List.zipWith psub a b

/-! ### Rounding and packing -/

/-- r1 and r0 of a coefficient, r0 modulo q (Decompose). -/
def decompose (r : Nat) : Nat × Nat :=
  let a := 2 * gamma2
  let m := r % a
  let r0 := if m ≤ gamma2 then m else (m + q - a) % q
  let d := subq r r0
  if d = q - 1 then (0, subq r0 1) else (d / a, r0)
def highBits (r : Nat) : Nat := (decompose r).1
def lowBits (r : Nat) : Nat := (decompose r).2
/-- t1 and t0, t0 modulo q (Power2Round). -/
def power2Round (r : Nat) : Nat × Nat :=
  let m := r % 2 ^ 13
  let r0 := if m ≤ 2 ^ 12 then m else (m + q - 2 ^ 13) % q
  (subq r r0 / 2 ^ 13, r0)
def makeHint (z r : Nat) : Nat := if highBits r = highBits ((r + z) % q) then 0 else 1
def useHint (h r : Nat) : Nat :=
  let d := decompose r
  if h = 0 then d.1 else if 0 < d.2 ∧ d.2 ≤ gamma2 then (d.1 + 1) % 16 else (d.1 + 15) % 16

/-- Coefficients of w bits each, as bytes, and back. -/
def packBits (w : Nat) (p : Poly) : List Nat := leBytes (32 * w) (p.foldr (fun x r => x + 2 ^ w * r) 0)
def unpackBits (w : Nat) (bs : List Nat) : Poly := let n := leNat bs; (List.range 256).map fun i => n / 2 ^ (w * i) % 2 ^ w
/-- Coefficients from -γ1 + 1 to γ1, in 20 bits each. -/
def packZ (p : Poly) : List Nat := packBits 20 (p.map fun x => subq gamma1 x)
def unpackZ (bs : List Nat) : Poly := (unpackBits 20 bs).map fun x => subq gamma1 x
/-- Part i of a byte string cut into parts of n bytes. -/
def part (n : Nat) (bs : List Nat) (i : Nat) : List Nat := (bs.drop (n * i)).take n

/-- Places of the hints of a polynomial. -/
def hintsOf (h : Poly) : List Nat := (List.range 256).filter fun j => nth h j == 1
def hintCount (hs : List Poly) : Nat := (hs.map fun h => (hintsOf h).length).foldl (· + ·) 0
def packHint (hs : List Poly) : List Nat :=
  let places := hs.flatMap hintsOf
  let ends := (List.range 8).map fun i => hintCount (hs.take (i + 1))
  (places ++ List.replicate (omega - places.length) 0) ++ ends
/-- The list rises strictly. -/
def rises : List Nat → Bool
  | a :: b :: l => decide (a < b) && rises (b :: l)
  | _ => true
/-- The hints that 83 bytes stand for; none where they are malformed. -/
def unpackHint (y : List Nat) : Option (List Poly) :=
  let ends := 0 :: y.drop omega
  let ps := (List.range 8).map fun i => (y.take (nth ends (i + 1))).drop (nth ends i)
  let okEnds := (List.range 8).all fun i => decide (nth ends i ≤ nth ends (i + 1)) && decide (nth ends (i + 1) ≤ omega)
  let rest := (y.take omega).drop (nth ends 8)
  if okEnds && ps.all rises && rest.all (· == 0) then
    some (ps.map fun p => (List.range 256).map fun j => if p.contains j then 1 else 0)
  else none

/-! ### Sampling -/

/-- The coefficients below q among triples of bytes. -/
def triples : List Nat → List Nat
  | a :: b :: c :: l =>
    let z := a + 2 ^ 8 * b + 2 ^ 16 * (c % 128)
    if z < q then z :: triples l else triples l
  | _ => []
/-- A uniform polynomial in the transform's domain. -/
def rejNtt (seed : List Nat) : Poly := (triples (shake128 seed 1344)).take 256
def expandA (rho : List Nat) : List (List Poly) :=
  (List.range 8).map fun r => (List.range 7).map fun c => rejNtt (rho ++ [c, r])
/-- A polynomial with coefficients from -2 to 2. -/
def rejBounded (seed : List Nat) : Poly :=
  let halves := (shake256 seed 544).flatMap fun b => [b % 16, b / 16]
  ((halves.filter (· < 15)).map fun b => subq 2 (b % 5)).take 256
def expandMask (seed : List Nat) (k : Nat) : List Poly :=
  (List.range 7).map fun r => unpackZ (shake256 (seed ++ leBytes 2 (k + r)) 640)
/-- The challenge: 60 coefficients of 1 or -1. -/
def sampleInBall (seed : List Nat) : Poly :=
  let bs := shake256 seed 272
  let signs := leNat (bs.take 8)
  ((List.range 60).foldl (fun (p : List Nat × Poly) n =>
    let i := n + 196
    let l := p.1.dropWhile fun b => decide (i < b)
    let j := nth l 0
    (l.drop 1, (p.2.set i (nth p.2 j)).set j (if signs.testBit n then q - 1 else 1))) (bs.drop 8, zeroPoly)).2

/-! ### ML-DSA-87 -/

/-- What key generation makes from a 32-byte seed. -/
structure Keys where
  pk : List Nat
  rho : List Nat
  k : List Nat
  tr : List Nat
  s1 : List Poly
  s2 : List Poly
  t0 : List Poly
  deriving DecidableEq, Repr

def keyGen (xi : List Nat) : Keys :=
  let h := shake256 (xi ++ [8, 7]) 128
  let rho := h.take 32
  let rho2 := (h.drop 32).take 64
  let s1 := (List.range 7).map fun r => rejBounded (rho2 ++ leBytes 2 r)
  let s2 := (List.range 8).map fun r => rejBounded (rho2 ++ leBytes 2 (r + 7))
  let t := vadd ((matVec (expandA rho) (s1.map ntt)).map invNtt) s2
  let pk := rho ++ (t.map fun p => packBits 10 (p.map fun x => (power2Round x).1)).flatten
  ⟨pk, rho, h.drop 96, shake256 pk 64, s1, s2, t.map fun p => p.map fun x => (power2Round x).2⟩

/-- The message as it is signed, with an empty context string. -/
def framed (tr m : List Nat) : List Nat := shake256 (tr ++ [0, 0] ++ m) 64
def packW1 (w : List Poly) : List Nat := (w.map (packBits 4)).flatten

/-- One attempt to sign with the mask that counter κ gives. -/
def signTry (K : Keys) (a : List (List Poly)) (mu seed : List Nat) (kappa : Nat) : Option (List Nat) :=
  let y := expandMask seed kappa
  let w := (matVec a (y.map ntt)).map invNtt
  let c := shake256 (mu ++ packW1 (w.map fun p => p.map highBits)) 64
  let ch := ntt (sampleInBall c)
  let times (v : List Poly) : List Poly := v.map fun p => invNtt (pmul ch (ntt p))
  let z := vadd y (times K.s1)
  let w0 := vsub w (times K.s2)
  let ct0 := times K.t0
  let h := List.zipWith (fun a b => List.zipWith (fun x r => makeHint (subq 0 x) ((r + x) % q)) a b) ct0 w0
  if below (gamma1 - beta) z && below (gamma2 - beta) (w0.map fun p => p.map lowBits) && below gamma2 ct0 &&
      decide (hintCount h ≤ omega) then
    some (c ++ (z.map packZ).flatten ++ packHint h)
  else none

/-- Attempts until one is good. The counter has 16 bits, so there are at most 9,362 of them. -/
def signLoop (K : Keys) (a : List (List Poly)) (mu seed : List Nat) : Nat → Nat → List Nat
  | 0, _ => List.replicate 4627 0
  | n + 1, kappa =>
    match signTry K a mu seed kappa with
    | some sig => sig
    | none => signLoop K a mu seed n (kappa + 7)

/-- The signature of a message, with 32 random bytes. -/
def signBytes (K : Keys) (m rnd : List Nat) : List Nat :=
  let mu := framed K.tr m
  signLoop K (expandA K.rho) mu (shake256 (K.k ++ rnd ++ mu) 64) 9362 0

/-- Whether a public key accepts a signature over a message. -/
@[irreducible] def verify (pk m sig : List Nat) : Bool :=
  match unpackHint (sig.drop 4544) with
  | none => false
  | some h =>
    let t1 := (List.range 8).map fun i => unpackBits 10 (part 320 (pk.drop 32) i)
    let c := sig.take 64
    let z := (List.range 7).map fun i => unpackZ (part 640 (sig.drop 64) i)
    let ch := ntt (sampleInBall c)
    let az := matVec (expandA (pk.take 32)) (z.map ntt)
    let ct := t1.map fun p => pmul ch (ntt (p.map fun x => x * 2 ^ 13 % q))
    let w := (vsub az ct).map invNtt
    let w1 := List.zipWith (fun a b => List.zipWith useHint a b) h w
    pk.length == 2592 && sig.length == 4627 && below (gamma1 - beta) z &&
      shake256 (framed (shake256 pk 64) m ++ packW1 w1) 64 == c

/-- R369: the part's key pair, by SHA3-512 and key generation from the fused device secret. -/
def identity : Keys := keyGen (leBytes 32 (Config.keySeed (sha3 Config.deviceSecret)))
@[irreducible] def identityKey : List Nat := identity.pk
/-- R369: the signature of a digest under the part's private key, with the random bytes of a number, as a number of 4,627 bytes. -/
@[irreducible] def sign (digest rnd : Nat) : Nat := leNat (signBytes identity (leBytes 64 digest) (leBytes 32 rnd))

end Sys2Proof.Crypto
end

