-- ==== Sys2Proof/Syntax.lean ====
section
/-! DEFINITION. The one instruction type: every row of spec/opcode_table.json is a constructor, instructions with
their decoded operands and the part's own events with the identifiers they act on. -/

namespace Sys2Proof

/-- What every instruction word carries besides its operands: the guard (R16, R76) and whether an extension
word follows (X). -/
structure Hd where
  en  : Bool
  p   : BitVec 4
  neg : Bool
  x   : Bool
  deriving DecidableEq, Repr

abbrev Reg := BitVec 5
abbrev Prd := BitVec 4

/-- A register source with its last-use mark (R64). -/
structure RL where
  r    : Reg
  last : Bool
  deriving DecidableEq, Repr

/-- A permutable register source of an EO word: PERM is kind<7:6>, amount<5:0> (R18, R79). -/
structure Src where
  r    : Reg
  last : Bool
  perm : BitVec 8
  deriving DecidableEq, Repr

/-- Immediate kinds 00, 01 and 10 of the EI word (R80). -/
inductive IKind where
  | sext | fp32 | rep16
  deriving DecidableEq, Repr

/-- Source b of an O/I instruction: a register, or the immediate of an EI word (R78, R80). -/
inductive BOp where
  | reg (s : Src)
  | imm (k : IKind) (v : BitVec 24)
  deriving DecidableEq, Repr

/-- Source b of a uniform ALU instruction (R85). -/
inductive UOp where
  | reg (r : Reg)
  | imm (v : BitVec 24)
  deriving DecidableEq, Repr

/-- Integer element types .b .h .w .d (R61). -/
inductive ET where
  | b | h | w | d
  deriving DecidableEq, Repr

/-- Float element types .h .bf .s (R131). -/
inductive FT where
  | h | bf | s
  deriving DecidableEq, Repr

/-- Float formats by their CVT codes .f8 .bf .h .s (R98). -/
inductive FF where
  | f8 | bf | h | s
  deriving DecidableEq, Repr

/-- Integer types of CVT (R98). -/
inductive IT where
  | i8 | u8 | i16 | i32
  deriving DecidableEq, Repr

/-- The pair of types that CVT converts (R98); a float side against an integer is .h or .s. -/
inductive CvtPair where
  | ff (dst src : FF)
  | i2f (s : Bool) (it : IT)
  | f2i (s : Bool) (it : IT)
  deriving DecidableEq, Repr

/-- Saturation of IADD and ISUB (R121). -/
inductive Sat where
  | wrap | sat | satu
  deriving DecidableEq, Repr

/-- Integer conditions (R81). -/
inductive ICond where
  | eq | ne | lt | le | ltu | leu
  deriving DecidableEq, Repr

/-- Float conditions (R81, R133). -/
inductive FCond where
  | eq | ne | lt | le | unord | ord
  deriving DecidableEq, Repr

/-- Rounding modes (R95). -/
inductive Rnd where
  | rne | rtz | rup | rdn
  deriving DecidableEq, Repr

/-- Memory access sizes .b .h .w .d .q (R214). -/
inductive MSz where
  | b | h | w | d | q
  deriving DecidableEq, Repr

/-- Types of RED: .h .s .w .d (R138). -/
inductive RT where
  | h | s | w | d
  deriving DecidableEq, Repr

/-- Pass types of MMA (R285). -/
inductive MT where
  | f8 | bf | h | i8
  deriving DecidableEq, Repr

/-- The EM word (R82). -/
structure EM where
  ord   : BitVec 2
  scope : BitVec 3
  hint  : BitVec 2
  op    : BitVec 5
  off   : BitVec 20
  deriving DecidableEq, Repr

/-- What the scrubber reads (R185): a register row of a lane, a word of SP, of a CA line or of an MX line. `mem` is the model's own: a word
of memory, whose ECC errors R304 and R347 name. -/
inductive PoolWord where
  | reg (g lane row : Nat)
  | sp (off : Nat)
  | ca (line word : Nat)
  | mx (line word : Nat)
  | mem (a : Nat)
  deriving DecidableEq, Repr

/-- What bring-up sets for the root supervisor (R339): where its RCB and its launch line stand. -/
structure RootAt where
  rcb  : Nat
  line : Nat
  deriving DecidableEq, Repr

/-- A host's fabric access (R338): the host, a load, store or atomic of `size` bytes at a system address. -/
structure HostReq where
  host  : Nat
  addr  : Nat
  size  : Nat
  ord   : Nat
  scope : Nat
  /-- none: a load. `some none`: a store. `some (some op)`: an atomic with an OP code of R83. -/
  op    : Option (Option Nat)
  data  : Nat
  cmp   : Nat
  deriving DecidableEq, Repr

/-- A flit that a port takes (R328): its header, 56 bytes of payload as a number, and whether its CRC holds;
`arrive` is the access that it carries when it completes a packet: on a torus port another device's, whose id `host` then is, and on an
edge port a host's. -/
structure Flit where
  hdr    : Nat
  body   : Nat
  crcOk  : Bool
  arrive : Option HostReq
  deriving DecidableEq, Repr

inductive Instr where
  -- lane instructions (R121–R146, R214–R221)
  | iadd (h : Hd) (t : ET) (sat : Sat) (d : Reg) (a : Src) (b : BOp)
  | isub (h : Hd) (t : ET) (sat : Sat) (d : Reg) (a : Src) (b : BOp)
  | imul (h : Hd) (t : ET) (d : Reg) (a : Src) (b : BOp)
  | imulhu (h : Hd) (d : Reg) (a : Src) (b : BOp)
  | imulhs (h : Hd) (d : Reg) (a : Src) (b : BOp)
  | imad (h : Hd) (t : ET) (d : Reg) (a : Src) (b : Src) (c : RL)
  | imin (h : Hd) (t : ET) (d : Reg) (a : Src) (b : BOp)
  | imax (h : Hd) (t : ET) (d : Reg) (a : Src) (b : BOp)
  | andV (h : Hd) (d : Reg) (a : Src) (b : BOp)
  | orV (h : Hd) (d : Reg) (a : Src) (b : BOp)
  | xorV (h : Hd) (d : Reg) (a : Src) (b : BOp)
  | shl (h : Hd) (t : ET) (d : Reg) (a : Src) (b : BOp)
  | shr (h : Hd) (t : ET) (d : Reg) (a : Src) (b : BOp)
  | sar (h : Hd) (t : ET) (d : Reg) (a : Src) (b : BOp)
  | clz (h : Hd) (d : Reg) (a : Src)
  | popc (h : Hd) (d : Reg) (a : Src)
  | sel (h : Hd) (p : Prd) (d : Reg) (a : Src) (b : Src)
  | icmp (h : Hd) (t : ET) (c : ICond) (pd : Prd) (a : Src) (b : BOp)
  | addl (h : Hd) (pq : Prd) (d : Reg) (a : Src) (b : Src)
  | subl (h : Hd) (pq : Prd) (d : Reg) (a : Src) (b : Src)
  | macl (h : Hd) (pq : Prd) (d : Reg) (a : Src) (b : Src) (c : RL)
  | shll (h : Hd) (pq : Prd) (d : Reg) (a : Src) (b : Src)
  | shrl (h : Hd) (pq : Prd) (d : Reg) (a : Src) (b : Src)
  | cmpl (h : Hd) (c : ICond) (pd : Prd) (a : Src) (b : Src)
  | negl (h : Hd) (pq : Prd) (d : Reg) (a : Src)
  | fadd (h : Hd) (t : FT) (m : Rnd) (d : Reg) (a : Src) (b : BOp)
  | fsub (h : Hd) (t : FT) (m : Rnd) (d : Reg) (a : Src) (b : BOp)
  | fmul (h : Hd) (t : FT) (m : Rnd) (d : Reg) (a : Src) (b : BOp)
  | ffma (h : Hd) (t : FT) (m : Rnd) (d : Reg) (a : Src) (b : Src) (c : RL)
  | fmin (h : Hd) (t : FT) (d : Reg) (a : Src) (b : BOp)
  | fmax (h : Hd) (t : FT) (d : Reg) (a : Src) (b : BOp)
  | fcmp (h : Hd) (t : FT) (c : FCond) (pd : Prd) (a : Src) (b : BOp)
  | frcp (h : Hd) (d : Reg) (a : Src)
  | frsq (h : Hd) (d : Reg) (a : Src)
  | fsqrt (h : Hd) (d : Reg) (a : Src)
  | fexp2 (h : Hd) (d : Reg) (a : Src)
  | flog2 (h : Hd) (d : Reg) (a : Src)
  | ftanh (h : Hd) (d : Reg) (a : Src)
  | cvt (h : Hd) (k : CvtPair) (nan : Bool) (m : Rnd) (d : Reg) (a : Src)
  | cvtef (h : Hd) (dst : FF) (nan : Bool) (m : Rnd) (d : Reg) (a : Src) (c : Reg)
  | tmacc (h : Hd) (both : Bool) (d : Reg) (a : Src)
  | tmred (h : Hd) (d : Reg) (a : Src)
  | tmfin (h : Hd) (d : Reg) (a : Src)
  | xget (h : Hd) (t : ET) (d : Reg) (a : RL) (b : Src)
  | xgetu (h : Hd) (t : ET) (d : Reg) (a : RL) (b : Src)
  | red (h : Hd) (t : RT) (op : BitVec 3) (m : Rnd) (d : Reg) (a : Src)
  | scan (h : Hd) (op : BitVec 3) (m : Rnd) (d : Reg) (a : Src)
  | xsend (h : Hd) (k : BitVec 4) (a : RL)
  | xrecv (h : Hd) (k : BitVec 4) (d : Reg)
  | ballot (h : Hd) (d : Reg) (p : Prd)
  | plog (h : Hd) (tt : BitVec 4) (pd pa pb : Prd)
  | brp (h : Hd) (p : Prd) (tgt : BitVec 12) (jn : BitVec 12)
  | join
  | ld (h : Hd) (sz : MSz) (d : Reg) (a : RL) (em : EM)
  | st (h : Hd) (sz : MSz) (a : RL) (b : RL) (em : EM)
  | atom (h : Hd) (sz : MSz) (d : Reg) (a : RL) (b : RL) (em : EM)
  | cxch (h : Hd) (d : Reg) (a : RL) (b : RL) (em : EM)
  | cldr (h : Hd) (d : Reg) (a : RL) (em : EM)
  -- uniform instructions: flow, integers, macros (R150–R160)
  | nop (h : Hd)
  | br (h : Hd) (off : BitVec 24)
  | brc (h : Hd) (c : BitVec 2) (a : Reg) (off : BitVec 24)
  | brany (h : Hd) (p : Prd) (off : BitVec 24)
  | brall (h : Hd) (p : Prd) (off : BitVec 24)
  | jmpr (h : Hd) (a : Reg)
  | call (h : Hd) (k : BitVec 3) (off : BitVec 24)
  | callr (h : Hd) (k : BitVec 3) (a : Reg)
  | ret (h : Hd)
  | loop (h : Hd) (d : Reg) (off : BitVec 24)
  | exit (h : Hd)
  | exitLanesDone (g k : Nat)
  | trap (h : Hd) (code : BitVec 24)
  | yield (h : Hd)
  | yieldHoldEnd (g k : Nat)
  | uadd (h : Hd) (d : Reg) (a : Reg) (b : UOp)
  | usub (h : Hd) (d : Reg) (a : Reg) (b : UOp)
  | umul (h : Hd) (d : Reg) (a : Reg) (b : UOp)
  | uand (h : Hd) (d : Reg) (a : Reg) (b : UOp)
  | uor (h : Hd) (d : Reg) (a : Reg) (b : UOp)
  | uxor (h : Hd) (d : Reg) (a : Reg) (b : UOp)
  | ushl (h : Hd) (d : Reg) (a : Reg) (b : UOp)
  | ushr (h : Hd) (d : Reg) (a : Reg) (b : UOp)
  | usar (h : Hd) (d : Reg) (a : Reg) (b : UOp)
  | ucmp (h : Hd) (c : ICond) (pd : Prd) (a : Reg) (b : UOp)
  | umov (h : Hd) (d : Reg) (b : UOp)
  | umin (h : Hd) (d : Reg) (a : Reg) (b : UOp)
  | umax (h : Hd) (d : Reg) (a : Reg) (b : UOp)
  | rdfl (h : Hd) (d : Reg) (a : Reg)
  | mdef (h : Hd) (slot : BitVec 6) (n : BitVec 6) (a : Reg)
  | mdefComplete (g op : Nat)
  | macroOp (h : Hd) (slot : BitVec 6) (o0 o1 o2 o3 : Reg)
  -- barriers, watches, fences (R222–R225)
  | bar (h : Hd) (k : BitVec 4)
  | barArrive (g k : Nat)
  | monitor (h : Hd) (a : Reg)
  | mwait (h : Hd) (a : Reg)
  | mwaitTimeout (g k : Nat)
  | fenceAcq (h : Hd) (scope : BitVec 3)
  | fenceRel (h : Hd) (scope : BitVec 3)
  | fenceAr (h : Hd) (scope : BitVec 3)
  | fenceSc (h : Hd) (scope : BitVec 3)
  | fenceEng (h : Hd) (scope : BitVec 3)
  -- pool, stash, handles (R226–R231)
  | pset (h : Hd) (d a : Reg)
  | poolMove (c : Nat)
  | pqry (h : Hd) (d a : Reg)
  | smap (h : Hd) (copyIn : Bool) (n : BitVec 15) (a b : Reg)
  | sunmap (h : Hd) (a : Reg)
  | hres (h : Hd) (copyIn : Bool) (pri : BitVec 3) (pin : Bool) (k : BitVec 4) (n : BitVec 15) (a b : Reg)
  | hevict (h : Hd) (k : BitVec 4)
  | hdemote (h : Hd) (k : BitVec 4)
  | handleMoveComplete (g op : Nat)
  -- copies, binning, publication, maintenance (R232–R238)
  | copy (h : Hd) (hint : BitVec 2) (d a b : Reg)
  | copyHeld (h : Hd) (hint : BitVec 2) (k : BitVec 4) (d a b : Reg)
  | copyLineLanded (e line : Nat)
  | copyComplete (e : Nat)
  | release (h : Hd) (a : Reg)
  | releaseStart (b k : Nat)
  | bin (h : Hd) (clear : Bool) (base : BitVec 6) (nb : BitVec 7) (a b : Reg)
  | binComplete (e : Nat)
  | publish (h : Hd) (scope : BitVec 3) (a : Reg)
  | publishFlip (e : Nat)
  | cwb (h : Hd) (scope : BitVec 3) (a b : Reg)
  | cinv (h : Hd) (scope : BitVec 3) (a b : Reg)
  | attrInv (h : Hd) (a b : Reg)
  | attrCc (h : Hd) (v : BitVec 2) (a b : Reg)
  | attrCpol (h : Hd) (v : BitVec 2) (a b : Reg)
  | attrLc (h : Hd) (v : BitVec 2) (a b : Reg)
  -- collectives (R239–R244, R333–R337)
  | cgrp (h : Hd) (k : BitVec 3) (a : Reg)
  | cag (h : Hd) (k : BitVec 3) (a b : Reg) (len : BitVec 24)
  | crs (h : Hd) (k : BitVec 3) (op : BitVec 4) (a b : Reg) (len : BitVec 24)
  | ca2a (h : Hd) (k : BitVec 3) (a b : Reg) (len : BitVec 24)
  | cbar (h : Hd) (k : BitVec 3)
  | cstat (h : Hd) (d : Reg) (k : BitVec 3)
  | collectiveContribution (r member : Nat) (term : List Nat)
  | collectiveTimeout (r member : Nat)
  | collectiveOutcome (e : Nat)
  -- matrix (R269–R288)
  | mxres (h : Hd) (od : BitVec 3) (rv : Bool) (rc : BitVec 2) (pk : Prd) (a b : Reg)
  | mxfree (h : Hd) (od : BitVec 3)
  | mxzero (h : Hd) (od : BitVec 3)
  | mxld (h : Hd) (od : BitVec 3) (hint : BitVec 2) (a : Reg)
  | mxst (h : Hd) (od : BitVec 3) (fmt : BitVec 2) (nan : Bool) (hint : BitVec 2) (pe : Bool) (pk : Prd) (a : Reg)
  | mma (h : Hd) (t : MT) (od oa ob : BitVec 3) (ra rb pe : Bool) (pk : Prd) (ja jb : BitVec 12)
  | matrixGrant (cl : Nat) (array : Bool)
  | matrixLevelRise (e : Nat)
  | matrixOpComplete (e : Nat)
  -- graph (R290–R320)
  | gspaceBind (h : Hd) (a b : Reg)
  | gspaceUnbind (h : Hd) (a b : Reg)
  | gload (h : Hd) (base n : BitVec 7) (a b : Reg)
  | gset (h : Hd) (prog : Bool) (ksel : BitVec 2) (m : BitVec 3) (tmsk tval : BitVec 8) (pent : BitVec 7) (a b : Reg)
  | gprop (h : Hd) (arg : BitVec 24) (a b : Reg)
  | gcoll (h : Hd) (clr : Bool) (m : BitVec 3) (cap : BitVec 24) (a b : Reg)
  | gclr (h : Hd) (fill : Bool) (m : BitVec 3) (tmsk tval : BitVec 8) (a b : Reg)
  | broadcastStart (e : Nat)
  | broadcastEnd (e : Nat)
  | hopStart (e : Nat)
  | messageReceive (e m : Nat)
  | hopEnd (e : Nat)
  | refreshStart (v u : Nat)
  | refreshEnd (v u : Nat)
  -- shapes, tables, ligatures, regions, special registers, handlers (R161–R169)
  | tmshape (h : Hd) (code : BitVec 8)
  | tmload (h : Hd) (k : BitVec 2) (a : Reg)
  | tmloadComplete (g op : Nat)
  | lig (h : Hd) (n : BitVec 7)
  | unlig (h : Hd)
  | spawn (h : Hd) (a : Reg)
  | rdsr (h : Hd) (sr : BitVec 8) (d : Reg)
  | wrsrGstat (h : Hd) (a : Reg)
  | wrsrTmshape (h : Hd) (a : Reg)
  | wrsrPoolmap (h : Hd) (a : Reg)
  | wrsrLease (h : Hd) (n : BitVec 2) (a : Reg)
  | wrsr (h : Hd) (sr : BitVec 8) (a : Reg)
  | tick (h : Hd) (d : Reg)
  | eret (h : Hd)
  | wspill (h : Hd) (m : BitVec 8)
  | wfill (h : Hd) (m : BitVec 8)
  | windowMoveComplete (g op : Nat)
  -- the core's and the memory's own steps (R72, R74, R174–R178, R205, R258–R260)
  | clauseStart (hdr : BitVec 32)
  | gangSelect (c : Nat)
  | longLatencyComplete (g op : Nat) (lanes : LaneMask)
  | stashLineFilled (c m line : Nat)
  | handlerEntry (g : Nat)
  | fillAtHome (c line : Nat) (rem : Option Nat)
  | writeAtHome (c line : Nat)
  | atomicAtHome (g op lane : Nat) (rem : Option Nat)
  | vaultAccess (g op lane : Nat) (rem : Option Nat)
  | leaseExpire (c line : Nat)
  | pageTableWalk (c root va : Nat)
  | rehomeDrain (d : Nat)
  | rebalance (bucket slice : Nat)
  | scrub (c : Nat) (w : PoolWord) (paddr : Nat) (bad : W64)
  -- regions and scheduling (R343–R357)
  | blockLoad (b c : Nat)
  | contextsInPlace (b : Nat)
  | preempt (b : Nat)
  | saveComplete (b : Nat)
  | regionAccept (sp : Nat)
  | regionResume (sp : Nat)
  | regionEnd (sp : Nat)
  | completionStore (r : Nat)
  -- fabric and hosts (R324–R340)
  | flitReceive (port : Nat) (f : Flit)
  | linkTraining (port lanes : Nat)
  | livenessTimeout (d : Nat)
  | livenessUpdate (d : Nat) (up : Bool)
  | hostAccess (r : HostReq)
  | hostWriteAck (i : Nat)
  | configRangeEntryWrite (k v : Nat)
  | configBucketEntryWrite (b v : Nat)
  | configWrite (off size v : Nat)
  -- observation and the system around the part (R358–R371)
  | blameSample (c : Nat)
  | replayGo
  | injectRecord
  | stopArm (v : Nat)
  | debugStop
  | debugRestart
  | identityRead (cmd : Nat)
  | powerOn
  | bringUpPhase (fail : Option Nat) (devid dims lanes : Nat) (root : RootAt)
  | deviceReset
  | fuseProgram
  | throttle (temp watts n : Nat)
  | overtempShutdown (temp : Nat)
  | attestationRequest (a : Nat)
  | attestationReport
  | debugUnlock (a : Nat)
  | keySlotWrite (k v : Nat)
  | encryptionRangeWrite (k v : Nat)
  | wctmaxPassed (g k : Nat)
  deriving DecidableEq, Repr

end Sys2Proof
end

