-- ==== Sys2Proof/WellFormed.lean ====
section
/-! DEFINITION. Which instructions of Syntax an instruction word can carry: the operand rules of R76–R88, R116, R117
and of each instruction's own description that the encoding decides by itself. Where a word breaks one of them the
part raises ILLEGAL. The part's own events have no words, so none of them is well formed. -/

namespace Sys2Proof

/-- The forms of extension word an opcode may take (R78). -/
inductive Ext where
  | oi | o | i | m | b | u | uOpt | none
  deriving DecidableEq, Repr

/-- R76: G = 0 leaves GP and GS zero. -/
def Hd.wf (h : Hd) : Bool := h.en || (h.p == 0 && !h.neg)

/-- R61: a pair names an even register. -/
def evenReg (r : Reg) : Bool := r.toNat % 2 == 0

/-- R117: a pair takes no permutation. -/
def Src.pairOk (a : Src) : Bool := evenReg a.r && a.perm == 0

/-- R116: immediate kinds of the integer instructions; an EI word gives source a no permutation (R80). -/
def BOp.intOk (a : Src) : BOp → Bool
  | .reg _ => true
  | .imm .sext _ => a.perm == 0
  | .imm .rep16 v => a.perm == 0 && decide (v.toNat < 2 ^ 16)
  | .imm .fp32 _ => false

/-- R116: immediate kinds of the float instructions of a type. -/
def BOp.fltOk (t : FT) (a : Src) : BOp → Bool
  | .reg _ => true
  | .imm .fp32 _ => a.perm == 0 && t == .s
  | .imm .rep16 v => a.perm == 0 && t != .s && decide (v.toNat < 2 ^ 16)
  | .imm .sext _ => false

/-- R138: MODE only with the float sum, and the float operations 0 to 2. -/
def redOk (t : RT) (op : BitVec 3) (m : Rnd) : Bool :=
  match t with
  | .h | .s => decide (op.toNat ≤ 2) && (op == 0 || m == .rne)
  | .w | .d => m == .rne

/-- R98: which CVT pairs exist. -/
def cvtOk (k : CvtPair) (nan : Bool) : Bool :=
  match k with
  | .ff d s => d != s && (!nan || d == .bf || d == .h)
  | .i2f s _ => !nan || !s
  | .f2i _ _ => !nan

/-- R82: scopes 0 to 4, and the ORD and OP values an instruction accepts. -/
def EM.ok (e : EM) (rel acq : Bool) (ops : Nat) : Bool :=
  decide (e.scope.toNat ≤ 4) && decide (e.op.toNat < ops) &&
    (e.ord == 0 || (e.ord == 1 && acq) || (e.ord == 2 && rel) || (e.ord == 3 && rel && acq))

/-- R67: special register numbers in use. -/
def srUsed (sr : BitVec 8) : Bool := decide (sr.toNat ≤ 0x1B)

/-- R67: the writable special registers that have no row of their own: SPILLBASE, ERETPC, HANDLER. -/
def srPlainWrite (sr : BitVec 8) : Bool := sr == 0x0F || sr == 0x19 || sr == 0x1A

/-- R104: TMSHAPE codes in use. -/
def tmCodeOk (c : Nat) : Bool := decide (c ≤ 0x0D) || (decide (0x10 ≤ c) && decide (c ≤ 0x13))

/-- R85: operand b of a uniform ALU instruction. -/
def UOp.isImm : UOp → Bool
  | .imm _ => true
  | .reg _ => false

/-- The operand rules of each instruction beside its header and extension word. -/
def Instr.opsOk : Instr → Bool
  | .iadd _ _ _ _ a b | .isub _ _ _ _ a b => b.intOk a
  | .imul _ t _ a b => t != .b && b.intOk a
  | .imulhu _ _ a b | .imulhs _ _ a b => b.intOk a
  | .imad _ t _ _ _ _ => t == .w || t == .d
  | .imin _ t _ a b | .imax _ t _ a b => (t == .w || t == .d) && b.intOk a
  | .andV _ _ a b | .orV _ _ a b | .xorV _ _ a b => b.intOk a
  | .shl _ t _ a b | .shr _ t _ a b | .sar _ t _ a b => (t == .w || t == .d) && b.intOk a
  | .clz _ _ _ | .popc _ _ _ => true
  | .sel _ _ _ _ _ => true
  | .icmp _ t _ _ a b => (t == .w || t == .d) && b.intOk a
  | .addl _ _ _ _ _ | .subl _ _ _ _ _ | .macl _ _ _ _ _ _ | .shll _ _ _ _ _ | .shrl _ _ _ _ _ => true
  | .cmpl _ _ _ _ _ | .negl _ _ _ _ => true
  | .fadd _ t _ _ a b | .fsub _ t _ _ a b | .fmul _ t _ _ a b => b.fltOk t a
  | .ffma _ _ _ _ _ _ _ => true
  | .fmin _ t _ a b | .fmax _ t _ a b => t != .bf && b.fltOk t a
  | .fcmp _ t _ _ a b => t != .bf && b.fltOk t a
  | .frcp _ _ _ | .frsq _ _ _ | .fsqrt _ _ _ | .fexp2 _ _ _ | .flog2 _ _ _ | .ftanh _ _ _ => true
  | .cvt _ k nan _ _ _ => cvtOk k nan
  | .cvtef _ dst nan _ d _ c => dst != .s && (!nan || dst != .f8) && d != c
  | .tmacc _ _ d _ => evenReg d
  | .tmred _ d a => evenReg d && a.pairOk
  | .tmfin _ _ a => a.pairOk
  | .xget _ _ _ _ _ | .xgetu _ _ _ _ _ => true
  | .red _ t op m _ _ => redOk t op m
  | .scan _ op m _ _ => decide (op.toNat ≤ 2) && (op == 0 || m == .rne)
  | .xsend _ _ _ | .xrecv _ _ _ | .ballot _ _ _ | .plog _ _ _ _ _ => true
  | .brp _ _ _ jn => jn != 0
  | .join => true
  | .ld _ sz d _ em => em.ok false true 1 && (sz != .q || evenReg d)
  | .st _ sz _ b em => em.ok true false 1 && (sz != .q || evenReg b.r)
  | .atom _ sz d _ b em =>
    match sz with
    | .w => em.ok true true 13
    | .d => em.ok true true 10
    | .q => em.ok true true 2 && evenReg d && evenReg b.r
    | .b | .h => false
  | .cxch _ _ _ _ em => em.ok true true 1
  | .cldr _ _ _ em => em.ok false true 12
  | .nop _ | .br _ _ | .brc _ _ _ _ | .brany _ _ _ | .brall _ _ _ | .jmpr _ _ => true
  | .call _ k _ | .callr _ k _ => decide (1 ≤ k.toNat) && decide (k.toNat ≤ 6)
  | .ret _ | .loop _ _ _ | .exit _ | .trap _ _ | .yield _ => true
  | .uadd _ _ _ _ | .usub _ _ _ _ | .umul _ _ _ _ | .uand _ _ _ _ | .uor _ _ _ _ | .uxor _ _ _ _ => true
  | .ushl _ _ _ _ | .ushr _ _ _ _ | .usar _ _ _ _ | .ucmp _ _ _ _ _ | .umov _ _ _ => true
  | .umin _ _ _ _ | .umax _ _ _ _ | .rdfl _ _ _ => true
  | .mdef _ _ n _ => decide (1 ≤ n.toNat) && decide (n.toNat ≤ 32)
  | .macroOp _ _ _ _ _ _ => true
  | .bar _ _ | .monitor _ _ | .mwait _ _ => true
  | .fenceAcq _ s | .fenceRel _ s | .fenceAr _ s | .fenceSc _ s | .fenceEng _ s => decide (s.toNat ≤ 4)
  | .pset _ _ _ | .pqry _ _ _ | .sunmap _ _ | .hevict _ _ | .hdemote _ _ => true
  | .smap _ _ n _ _ | .hres _ _ _ _ _ n _ _ => decide (1 ≤ n.toNat) && decide (n.toNat ≤ 16384)
  | .copy _ _ _ _ _ | .copyHeld _ _ _ _ _ _ | .release _ _ => true
  | .bin _ _ base nb _ _ => decide (1 ≤ nb.toNat) && decide (base.toNat + nb.toNat ≤ 64)
  | .publish _ s _ | .cwb _ s _ _ | .cinv _ s _ _ => decide (s.toNat ≤ 4)
  | .attrInv _ _ _ | .attrLc _ _ _ _ => true
  | .attrCc _ v _ _ | .attrCpol _ v _ _ => v != 3
  | .cgrp _ _ _ | .cbar _ _ | .cstat _ _ _ => true
  | .cag _ _ _ _ len | .ca2a _ _ _ _ len => decide (4 ≤ len.toNat) && len.toNat % 4 == 0
  | .crs _ _ op _ _ len => decide (op.toNat ≤ 11) && decide (1 ≤ len.toNat)
  | .mxres _ _ rv rc _ _ _ => rv || rc == 0
  | .mxfree _ _ | .mxzero _ _ | .mxld _ _ _ _ => true
  | .mxst _ _ fmt nan _ pe pk _ => fmt != 3 && (pe || pk == 0) && !(nan && fmt == 0)
  | .mma _ _ _ _ _ _ _ pe pk _ _ => pe || pk == 0
  | .gspaceBind _ _ _ | .gspaceUnbind _ _ _ | .gprop _ _ _ _ => true
  | .gload _ base n _ _ =>
    decide (base.toNat ≤ 95) && decide (1 ≤ n.toNat) && decide (n.toNat ≤ 96) && decide (base.toNat + n.toNat ≤ 96)
  | .gset _ prog ksel _ _ _ pent _ b =>
    ksel != 3 && decide (pent.toNat ≤ 95) && (prog || pent == 0) && (prog || ksel != 0 || b == 0)
  | .gcoll _ _ _ cap _ _ => decide (1 ≤ cap.toNat)
  | .gclr _ fill _ _ _ _ b => fill || b == 0
  | .tmshape _ code => tmCodeOk code.toNat
  | .tmload _ _ _ => true
  | .lig _ n => n == 2 || n == 4 || n == 8 || n == 16 || n == 32 || n == 64
  | .unlig _ | .spawn _ _ => true
  | .rdsr _ sr _ => srUsed sr
  | .wrsrGstat _ _ | .wrsrTmshape _ _ | .wrsrPoolmap _ _ | .wrsrLease _ _ _ => true
  | .wrsr _ sr _ => srPlainWrite sr
  | .tick _ _ | .eret _ => true
  | .wspill _ m | .wfill _ m => decide (4 ≤ m.toNat) && m.toNat % 4 == 0
  | _ => false

end Sys2Proof
end

