-- ==== Sys2Proof/Decode.lean ====
section
/-! DEFINITION. Instruction words (R71–R92): the field layout, the decoder, total on any bytes and rejecting by name,
and the encoder. The decoder reads the fields by opcode, then accepts the word only if laying the read instruction
out again gives the same word: so every reserved field, and every field an instruction does not use, is zero. -/

namespace Sys2Proof

/-! ### Codes of the small enumerations -/

def ET.code : ET → Nat | .b => 0 | .h => 1 | .w => 2 | .d => 3
def ET.ofCode : Nat → Option ET | 0 => some .b | 1 => some .h | 2 => some .w | 3 => some .d | _ => none
/-- .w and .d as the two-opcode families order them. -/
def ET.wd (n : Nat) : ET := if n = 0 then .w else .d
def ET.wdCode : ET → Nat | .w => 0 | .b => 0 | .h => 0 | .d => 1
/-- .h .w .d as IMUL orders them (R122). -/
def ET.hwdCode : ET → Nat | .b => 0 | .h => 0 | .w => 1 | .d => 2
def ET.hwd : Nat → ET | 0 => .h | 1 => .w | _ => .d
def FT.code : FT → Nat | .h => 0 | .bf => 1 | .s => 2
def FT.ofCode : Nat → FT | 0 => .h | 1 => .bf | _ => .s
/-- .h and .s as FMIN, FMAX and FCMP order them. -/
def FT.hsCode : FT → Nat | .h => 0 | .bf => 0 | .s => 1
def FT.hs (n : Nat) : FT := if n = 0 then .h else .s
def FF.code : FF → Nat | .f8 => 0 | .bf => 1 | .h => 2 | .s => 3
def FF.ofCode : Nat → FF | 0 => .f8 | 1 => .bf | 2 => .h | _ => .s
def IT.code : IT → Nat | .i8 => 0 | .u8 => 1 | .i16 => 2 | .i32 => 3
def IT.ofCode : Nat → IT | 0 => .i8 | 1 => .u8 | 2 => .i16 | _ => .i32
def Sat.code : Sat → Nat | .wrap => 0 | .sat => 1 | .satu => 2
def Sat.ofCode : Nat → Option Sat | 0 => some .wrap | 1 => some .sat | 2 => some .satu | _ => none
def ICond.code : ICond → Nat | .eq => 0 | .ne => 1 | .lt => 2 | .le => 3 | .ltu => 4 | .leu => 5
def ICond.ofCode : Nat → Option ICond
  | 0 => some .eq | 1 => some .ne | 2 => some .lt | 3 => some .le | 4 => some .ltu | 5 => some .leu | _ => none
def FCond.code : FCond → Nat | .eq => 0 | .ne => 1 | .lt => 2 | .le => 3 | .unord => 4 | .ord => 5
def FCond.ofCode : Nat → Option FCond
  | 0 => some .eq | 1 => some .ne | 2 => some .lt | 3 => some .le | 4 => some .unord | 5 => some .ord | _ => none
def Rnd.code : Rnd → Nat | .rne => 0 | .rtz => 1 | .rup => 2 | .rdn => 3
def Rnd.ofCode : Nat → Option Rnd | 0 => some .rne | 1 => some .rtz | 2 => some .rup | 3 => some .rdn | _ => none
def MSz.code : MSz → Nat | .b => 0 | .h => 1 | .w => 2 | .d => 3 | .q => 4
def MSz.ofCode : Nat → MSz | 0 => .b | 1 => .h | 2 => .w | 3 => .d | _ => .q
def MSz.bytes : MSz → Nat | .b => 1 | .h => 2 | .w => 4 | .d => 8 | .q => 16
def RT.code : RT → Nat | .h => 0 | .s => 1 | .w => 2 | .d => 3
def RT.ofCode : Nat → RT | 0 => .h | 1 => .s | 2 => .w | _ => .d
def MT.code : MT → Nat | .f8 => 0 | .bf => 1 | .h => 2 | .i8 => 3
def MT.ofCode : Nat → MT | 0 => .f8 | 1 => .bf | 2 => .h | _ => .i8
def IKind.code : IKind → Nat | .sext => 0 | .fp32 => 1 | .rep16 => 2
def IKind.ofCode : Nat → Option IKind | 0 => some .sext | 1 => some .fp32 | 2 => some .rep16 | _ => none
/-- SPEC<8:3> of CVT (R98), NAN included. -/
def CvtPair.spec (nan : Bool) : CvtPair → Nat
  | .ff d s => nan.toNat * 32 + d.code * 4 + s.code
  | .i2f s it => nan.toNat * 32 + 16 + s.toNat * 8 + it.code
  | .f2i s it => nan.toNat * 32 + 16 + s.toNat * 8 + 4 + it.code
def CvtPair.ofSpec (n : Nat) : CvtPair :=
  if n / 16 % 2 = 0 then .ff (.ofCode (n / 4 % 4)) (.ofCode (n % 4))
  else if n / 4 % 2 = 0 then .i2f (n / 8 % 2 == 1) (.ofCode (n % 4))
  else .f2i (n / 8 % 2 == 1) (.ofCode (n % 4))

/-! ### Laying fields out -/

/-- The instruction word of R76. -/
def iw (opc : Nat) (h : Hd) (d a : Nat) (la : Bool) (b : Nat) (lb : Bool) : Nat :=
  opc * 2 ^ 24 + h.en.toNat * 2 ^ 23 + h.p.toNat * 2 ^ 19 + h.neg.toNat * 2 ^ 18 + d * 2 ^ 13 + a * 2 ^ 8
    + la.toNat * 2 ^ 7 + b * 2 ^ 2 + lb.toNat * 2 + h.x.toNat

/-- The EO word of R79; FUNC is SPEC and MODE. -/
def eo (c : Nat) (lc : Bool) (pa pb : Nat) (spec mode : Nat) : Nat :=
  c * 2 ^ 26 + lc.toNat * 2 ^ 25 + pa * 2 ^ 17 + pb * 2 ^ 9 + spec * 2 ^ 3 + mode

/-- The EI word of R80. -/
def ei (k : Nat) (spec mode : Nat) (imm : Nat) : Nat :=
  2 ^ 31 + k * 2 ^ 29 + spec * 2 ^ 27 + mode * 2 ^ 24 + imm

/-- The EM word of R82. -/
def EM.word (e : EM) : Nat :=
  e.ord.toNat * 2 ^ 30 + e.scope.toNat * 2 ^ 27 + e.hint.toNat * 2 ^ 25 + e.op.toNat * 2 ^ 20 + e.off.toNat

/-- The EU word of R84. -/
def eu (func imm : Nat) : Nat := func * 2 ^ 24 + imm

/-- The BRP word of R86. -/
def brpw (tgt jn : Nat) : Nat := tgt * 2 ^ 12 + jn

/-- Field b of an O/I instruction. -/
def BOp.field : BOp → Nat
  | .reg s => s.r.toNat
  | .imm _ _ => 0
def BOp.last : BOp → Bool
  | .reg s => s.last
  | .imm _ _ => false
/-- The extension word of an O/I instruction: EO for a register b, EI for an immediate (R78). -/
def BOp.ext (a : Src) (b : BOp) (spec mode : Nat) : Nat :=
  match b with
  | .reg s => eo 0 false a.perm.toNat s.perm.toNat spec mode
  | .imm k v => ei k.code spec mode v.toNat

def UOp.field : UOp → Nat
  | .reg r => r.toNat
  | .imm _ => 0
/-- The EU word of a uniform ALU instruction (R85): FUNC<3> says that b is the immediate. -/
def UOp.ext (b : UOp) (cond : Nat) : Nat :=
  match b with
  | .reg _ => eu cond 0
  | .imm v => eu (8 + cond) v.toNat

/-- What an instruction's words are laid out from. -/
structure Layout where
  cls : Ext
  hd  : Hd
  w0  : Nat
  ext : Nat

/-- JOIN has no guard and no extension word (R146). -/
def joinHd : Hd := ⟨false, 0, false, false⟩

/-- The layout of every instruction word: R77–R88 and the tables of the instructions' own chapters. -/
def Instr.layout : Instr → Option Layout
  | .iadd h t s d a b => some ⟨.oi, h, iw (0x00 + t.code) h (d.toNat) (a.r.toNat) (a.last) (b.field) (b.last), b.ext a (s.code) (0)⟩
  | .isub h t s d a b => some ⟨.oi, h, iw (0x04 + t.code) h (d.toNat) (a.r.toNat) (a.last) (b.field) (b.last), b.ext a (s.code) (0)⟩
  | .imul h t d a b => some ⟨.oi, h, iw (0x08 + t.hwdCode) h (d.toNat) (a.r.toNat) (a.last) (b.field) (b.last), b.ext a (0) (0)⟩
  | .imulhu h  d a b => some ⟨.oi, h, iw (0x0B) h (d.toNat) (a.r.toNat) (a.last) (b.field) (b.last), b.ext a (0) (0)⟩
  | .imulhs h  d a b => some ⟨.oi, h, iw (0x0C) h (d.toNat) (a.r.toNat) (a.last) (b.field) (b.last), b.ext a (0) (0)⟩
  | .imad h t d a b c => some ⟨.o, h, iw (0x0D + t.wdCode) h (d.toNat) (a.r.toNat) (a.last) (b.r.toNat) (b.last), eo c.r.toNat c.last a.perm.toNat b.perm.toNat 0 0⟩
  | .imin h t d a b => some ⟨.oi, h, iw (0x0F + t.wdCode) h (d.toNat) (a.r.toNat) (a.last) (b.field) (b.last), b.ext a (0) (0)⟩
  | .imax h t d a b => some ⟨.oi, h, iw (0x11 + t.wdCode) h (d.toNat) (a.r.toNat) (a.last) (b.field) (b.last), b.ext a (0) (0)⟩
  | .andV h  d a b => some ⟨.oi, h, iw (0x13) h (d.toNat) (a.r.toNat) (a.last) (b.field) (b.last), b.ext a (0) (0)⟩
  | .orV h  d a b => some ⟨.oi, h, iw (0x14) h (d.toNat) (a.r.toNat) (a.last) (b.field) (b.last), b.ext a (0) (0)⟩
  | .xorV h  d a b => some ⟨.oi, h, iw (0x15) h (d.toNat) (a.r.toNat) (a.last) (b.field) (b.last), b.ext a (0) (0)⟩
  | .shl h t d a b => some ⟨.oi, h, iw (0x16 + t.wdCode) h (d.toNat) (a.r.toNat) (a.last) (b.field) (b.last), b.ext a (0) (0)⟩
  | .shr h t d a b => some ⟨.oi, h, iw (0x18 + t.wdCode) h (d.toNat) (a.r.toNat) (a.last) (b.field) (b.last), b.ext a (0) (0)⟩
  | .sar h t d a b => some ⟨.oi, h, iw (0x1A + t.wdCode) h (d.toNat) (a.r.toNat) (a.last) (b.field) (b.last), b.ext a (0) (0)⟩
  | .clz h d a => some ⟨.o, h, iw (0x1C) h (d.toNat) (a.r.toNat) (a.last) (0) false, eo 0 false a.perm.toNat 0 0 0⟩
  | .popc h d a => some ⟨.o, h, iw (0x1D) h (d.toNat) (a.r.toNat) (a.last) (0) false, eo 0 false a.perm.toNat 0 0 0⟩
  | .sel h p d a b => some ⟨.o, h, iw (0x1E) h (d.toNat) (a.r.toNat) (a.last) (b.r.toNat) (b.last), eo p.toNat false a.perm.toNat b.perm.toNat 0 0⟩
  | .icmp h t c pd a b => some ⟨.oi, h, iw (0x1F + t.wdCode) h (pd.toNat) (a.r.toNat) (a.last) (b.field) (b.last), b.ext a (0) (c.code)⟩
  | .addl h pq d a b => some ⟨.o, h, iw (0x21) h (d.toNat) (a.r.toNat) (a.last) (b.r.toNat) (b.last), eo 0 false a.perm.toNat b.perm.toNat pq.toNat 0⟩
  | .subl h pq d a b => some ⟨.o, h, iw (0x22) h (d.toNat) (a.r.toNat) (a.last) (b.r.toNat) (b.last), eo 0 false a.perm.toNat b.perm.toNat pq.toNat 0⟩
  | .macl h pq d a b c => some ⟨.o, h, iw (0x23) h (d.toNat) (a.r.toNat) (a.last) (b.r.toNat) (b.last), eo c.r.toNat c.last a.perm.toNat b.perm.toNat pq.toNat 0⟩
  | .shll h pq d a b => some ⟨.o, h, iw (0x24) h (d.toNat) (a.r.toNat) (a.last) (b.r.toNat) (b.last), eo 0 false a.perm.toNat b.perm.toNat pq.toNat 0⟩
  | .shrl h pq d a b => some ⟨.o, h, iw (0x25) h (d.toNat) (a.r.toNat) (a.last) (b.r.toNat) (b.last), eo 0 false a.perm.toNat b.perm.toNat pq.toNat 0⟩
  | .cmpl h c pd a b => some ⟨.o, h, iw (0x26) h (pd.toNat) (a.r.toNat) (a.last) (b.r.toNat) (b.last), eo 0 false a.perm.toNat b.perm.toNat 0 c.code⟩
  | .negl h pq d a => some ⟨.o, h, iw (0x27) h (d.toNat) (a.r.toNat) (a.last) (0) false, eo 0 false a.perm.toNat 0 pq.toNat 0⟩
  | .fadd h t m d a b => some ⟨.oi, h, iw (0x28 + t.code) h (d.toNat) (a.r.toNat) (a.last) (b.field) (b.last), b.ext a (0) (m.code)⟩
  | .fsub h t m d a b => some ⟨.oi, h, iw (0x2B + t.code) h (d.toNat) (a.r.toNat) (a.last) (b.field) (b.last), b.ext a (0) (m.code)⟩
  | .fmul h t m d a b => some ⟨.oi, h, iw (0x2E + t.code) h (d.toNat) (a.r.toNat) (a.last) (b.field) (b.last), b.ext a (0) (m.code)⟩
  | .ffma h t m d a b c => some ⟨.o, h, iw (0x31 + t.code) h (d.toNat) (a.r.toNat) (a.last) (b.r.toNat) (b.last), eo c.r.toNat c.last a.perm.toNat b.perm.toNat 0 m.code⟩
  | .fmin h t d a b => some ⟨.oi, h, iw (0x34 + t.hsCode) h (d.toNat) (a.r.toNat) (a.last) (b.field) (b.last), b.ext a (0) (0)⟩
  | .fmax h t d a b => some ⟨.oi, h, iw (0x36 + t.hsCode) h (d.toNat) (a.r.toNat) (a.last) (b.field) (b.last), b.ext a (0) (0)⟩
  | .fcmp h t c pd a b => some ⟨.oi, h, iw (0x38 + t.hsCode) h (pd.toNat) (a.r.toNat) (a.last) (b.field) (b.last), b.ext a (0) (c.code)⟩
  | .frcp h d a => some ⟨.o, h, iw (0x3a) h (d.toNat) (a.r.toNat) (a.last) (0) false, eo 0 false a.perm.toNat 0 0 0⟩
  | .frsq h d a => some ⟨.o, h, iw (0x3b) h (d.toNat) (a.r.toNat) (a.last) (0) false, eo 0 false a.perm.toNat 0 0 0⟩
  | .fsqrt h d a => some ⟨.o, h, iw (0x3c) h (d.toNat) (a.r.toNat) (a.last) (0) false, eo 0 false a.perm.toNat 0 0 0⟩
  | .fexp2 h d a => some ⟨.o, h, iw (0x3d) h (d.toNat) (a.r.toNat) (a.last) (0) false, eo 0 false a.perm.toNat 0 0 0⟩
  | .flog2 h d a => some ⟨.o, h, iw (0x3e) h (d.toNat) (a.r.toNat) (a.last) (0) false, eo 0 false a.perm.toNat 0 0 0⟩
  | .ftanh h d a => some ⟨.o, h, iw (0x3f) h (d.toNat) (a.r.toNat) (a.last) (0) false, eo 0 false a.perm.toNat 0 0 0⟩
  | .cvt h k nan m d a => some ⟨.o, h, iw (0x40) h (d.toNat) (a.r.toNat) (a.last) (0) false, eo 0 false a.perm.toNat 0 (k.spec nan) m.code⟩
  | .cvtef h dst nan m d a c => some ⟨.o, h, iw (0x41) h (d.toNat) (a.r.toNat) (a.last) (0) false, eo c.toNat false a.perm.toNat 0 ((CvtPair.ff dst .s).spec nan) m.code⟩
  | .tmacc h both d a => some ⟨.o, h, iw (0x42) h (d.toNat) (a.r.toNat) (a.last) (0) false, eo 0 false a.perm.toNat 0 both.toNat 0⟩
  | .tmred h d a => some ⟨.o, h, iw (0x43) h (d.toNat) (a.r.toNat) (a.last) (0) false, eo 0 false a.perm.toNat 0 0 0⟩
  | .tmfin h d a => some ⟨.o, h, iw (0x44) h (d.toNat) (a.r.toNat) (a.last) (0) false, eo 0 false a.perm.toNat 0 0 0⟩
  | .xget h t d a b => some ⟨.o, h, iw (0x45) h (d.toNat) (a.r.toNat) (a.last) (b.r.toNat) (b.last), eo 0 false 0 b.perm.toNat t.code 0⟩
  | .xgetu h t d a b => some ⟨.o, h, iw (0x46) h (d.toNat) (a.r.toNat) (a.last) (b.r.toNat) (b.last), eo 0 false 0 b.perm.toNat t.code 0⟩
  | .red h t op m d a => some ⟨.o, h, iw (0x47 + t.code) h (d.toNat) (a.r.toNat) (a.last) (0) false, eo 0 false a.perm.toNat 0 op.toNat m.code⟩
  | .scan h op m d a => some ⟨.o, h, iw (0x4B) h (d.toNat) (a.r.toNat) (a.last) (0) false, eo 0 false a.perm.toNat 0 op.toNat m.code⟩
  | .xsend h k a => some ⟨.i, h, iw (0x4C) h 0 (a.r.toNat) (a.last) (0) false, ei 0 0 0 k.toNat⟩
  | .xrecv h k d => some ⟨.i, h, iw (0x4D) h (d.toNat) (0) false (0) false, ei 0 0 0 k.toNat⟩
  | .ballot h d p => some ⟨.none, h, iw (0x4E) h (d.toNat) (p.toNat) false (0) false, 0⟩
  | .plog h tt pd pa pb => some ⟨.o, h, iw (0x4F) h (pd.toNat) (pa.toNat) false (pb.toNat) false, eo 0 false 0 0 tt.toNat 0⟩
  | .brp h p tgt jn => some ⟨.b, h, iw (0x50) h 0 (p.toNat) false (0) false, brpw tgt.toNat jn.toNat⟩
  | .join => some ⟨.none, joinHd, iw (0x51) joinHd 0 (0) false (0) false, 0⟩
  | .ld h sz d a em => some ⟨.m, h, iw (0x52 + sz.code) h (d.toNat) (a.r.toNat) (a.last) (0) false, em.word⟩
  | .st h sz a b em => some ⟨.m, h, iw (0x57 + sz.code) h 0 (a.r.toNat) (a.last) (b.r.toNat) (b.last), em.word⟩
  | .atom h sz d a b em => some ⟨.m, h, iw (0x5C + (sz.code - 2)) h (d.toNat) (a.r.toNat) (a.last) (b.r.toNat) (b.last), em.word⟩
  | .cxch h d a b em => some ⟨.m, h, iw (0x5F) h (d.toNat) (a.r.toNat) (a.last) (b.r.toNat) (b.last), em.word⟩
  | .cldr h d a em => some ⟨.m, h, iw (0x60) h (d.toNat) (a.r.toNat) (a.last) (0) false, em.word⟩
  | .nop h => some ⟨.none, h, iw (0x80) h 0 (0) false (0) false, 0⟩
  | .br h off => some ⟨.u, h, iw (0x81) h 0 (0) false (0) false, eu 0 off.toNat⟩
  | .brc h c a off => some ⟨.u, h, iw (0x82) h 0 (a.toNat) false (0) false, eu c.toNat off.toNat⟩
  | .brany h p off => some ⟨.u, h, iw (0x83) h 0 (p.toNat) false (0) false, eu 0 off.toNat⟩
  | .brall h p off => some ⟨.u, h, iw (0x84) h 0 (p.toNat) false (0) false, eu 0 off.toNat⟩
  | .jmpr h a => some ⟨.none, h, iw (0x85) h 0 (a.toNat) false (0) false, 0⟩
  | .call h k off => some ⟨.u, h, iw (0x86) h 0 (0) false (0) false, eu (4 * k.toNat) off.toNat⟩
  | .callr h k a => some ⟨.u, h, iw (0x87) h 0 (a.toNat) false (0) false, eu (4 * k.toNat) 0⟩
  | .ret h => some ⟨.none, h, iw (0x88) h 0 (0) false (0) false, 0⟩
  | .loop h d off => some ⟨.u, h, iw (0x89) h (d.toNat) (0) false (0) false, eu 0 off.toNat⟩
  | .exit h => some ⟨.none, h, iw (0x8A) h 0 (0) false (0) false, 0⟩
  | .trap h code => some ⟨.uOpt, h, iw (0x8B) h 0 (0) false (0) false, eu 0 code.toNat⟩
  | .yield h => some ⟨.none, h, iw (0x8C) h 0 (0) false (0) false, 0⟩
  | .uadd h d a b => some ⟨.uOpt, h, iw (0x8d) h (d.toNat) (a.toNat) false (b.field) false, b.ext 0⟩
  | .usub h d a b => some ⟨.uOpt, h, iw (0x8e) h (d.toNat) (a.toNat) false (b.field) false, b.ext 0⟩
  | .umul h d a b => some ⟨.uOpt, h, iw (0x8f) h (d.toNat) (a.toNat) false (b.field) false, b.ext 0⟩
  | .uand h d a b => some ⟨.uOpt, h, iw (0x90) h (d.toNat) (a.toNat) false (b.field) false, b.ext 0⟩
  | .uor h d a b => some ⟨.uOpt, h, iw (0x91) h (d.toNat) (a.toNat) false (b.field) false, b.ext 0⟩
  | .uxor h d a b => some ⟨.uOpt, h, iw (0x92) h (d.toNat) (a.toNat) false (b.field) false, b.ext 0⟩
  | .ushl h d a b => some ⟨.uOpt, h, iw (0x93) h (d.toNat) (a.toNat) false (b.field) false, b.ext 0⟩
  | .ushr h d a b => some ⟨.uOpt, h, iw (0x94) h (d.toNat) (a.toNat) false (b.field) false, b.ext 0⟩
  | .usar h d a b => some ⟨.uOpt, h, iw (0x95) h (d.toNat) (a.toNat) false (b.field) false, b.ext 0⟩
  | .ucmp h c pd a b => some ⟨.uOpt, h, iw (0x96) h (pd.toNat) (a.toNat) false (b.field) false, b.ext c.code⟩
  | .umov h d b => some ⟨.uOpt, h, iw (0x97) h (d.toNat) (0) false (b.field) false, b.ext 0⟩
  | .umin h d a b => some ⟨.uOpt, h, iw (0x98) h (d.toNat) (a.toNat) false (b.field) false, b.ext 0⟩
  | .umax h d a b => some ⟨.uOpt, h, iw (0x99) h (d.toNat) (a.toNat) false (b.field) false, b.ext 0⟩
  | .rdfl h d a => some ⟨.none, h, iw (0x9A) h (d.toNat) (a.toNat) false (0) false, 0⟩
  | .macroOp h s o0 o1 o2 o3 => some ⟨.u, h, iw (0x9B) h (o0.toNat) (o1.toNat) false (o2.toNat) false, eu s.toNat o3.toNat⟩
  | .mdef h s n a => some ⟨.u, h, iw (0x9C) h 0 (a.toNat) false (0) false, eu s.toNat n.toNat⟩
  | .bar h k => some ⟨.uOpt, h, iw (0x9D) h 0 (0) false (0) false, eu 0 k.toNat⟩
  | .monitor h a => some ⟨.none, h, iw (0x9E) h 0 (a.toNat) false (0) false, 0⟩
  | .mwait h a => some ⟨.none, h, iw (0x9F) h 0 (a.toNat) false (0) false, 0⟩
  | .fenceAcq h s => some ⟨.u, h, iw (0xA0) h 0 (0) false (0) false, eu 0 s.toNat⟩
  | .fenceRel h s => some ⟨.u, h, iw (0xA0) h 0 (0) false (0) false, eu 1 s.toNat⟩
  | .fenceAr h s => some ⟨.u, h, iw (0xA0) h 0 (0) false (0) false, eu 2 s.toNat⟩
  | .fenceSc h s => some ⟨.u, h, iw (0xA0) h 0 (0) false (0) false, eu 3 s.toNat⟩
  | .fenceEng h s => some ⟨.u, h, iw (0xA0) h 0 (0) false (0) false, eu 4 s.toNat⟩
  | .pset h d a => some ⟨.none, h, iw (0xA1) h (d.toNat) (a.toNat) false (0) false, 0⟩
  | .pqry h d a => some ⟨.none, h, iw (0xA2) h (d.toNat) (a.toNat) false (0) false, 0⟩
  | .smap h ci n a b => some ⟨.uOpt, h, iw (0xA3) h 0 (a.toNat) false (b.toNat) false, eu ci.toNat n.toNat⟩
  | .sunmap h a => some ⟨.none, h, iw (0xA4) h 0 (a.toNat) false (0) false, 0⟩
  | .hres h ci pri pin k n a b => some ⟨.uOpt, h, iw (0xA5) h (k.toNat) (a.toNat) false (b.toNat) false, eu (ci.toNat + 2 * pri.toNat + 16 * pin.toNat) n.toNat⟩
  | .hevict h k => some ⟨.none, h, iw (0xA6) h (k.toNat) (0) false (0) false, 0⟩
  | .hdemote h k => some ⟨.none, h, iw (0xA7) h (k.toNat) (0) false (0) false, 0⟩
  | .copy h hint d a b => some ⟨.uOpt, h, iw (0xA8) h (d.toNat) (a.toNat) false (b.toNat) false, eu (2 * hint.toNat) 0⟩
  | .copyHeld h hint k d a b => some ⟨.uOpt, h, iw (0xA8) h (d.toNat) (a.toNat) false (b.toNat) false, eu (1 + 2 * hint.toNat) k.toNat⟩
  | .publish h s a => some ⟨.u, h, iw (0xA9) h 0 (a.toNat) false (0) false, eu s.toNat 0⟩
  | .bin h cl base nb a b => some ⟨.uOpt, h, iw (0xAA) h 0 (a.toNat) false (b.toNat) false, eu cl.toNat (base.toNat + 64 * nb.toNat)⟩
  | .release h a => some ⟨.none, h, iw (0xAB) h 0 (a.toNat) false (0) false, 0⟩
  | .mxres h od rv rc pk a b => some ⟨.u, h, iw (0xAC) h (od.toNat) (a.toNat) false (b.toNat) false, eu (rc.toNat + 4 * rv.toNat + 8 * pk.toNat) 0⟩
  | .mxfree h od => some ⟨.none, h, iw (0xAD) h (od.toNat) (0) false (0) false, 0⟩
  | .mma h t od oa ob ra rb pe pk ja jb => some ⟨.u, h, iw (0xAE + t.code) h (od.toNat) (oa.toNat) false (ob.toNat) false, eu (pk.toNat + 16 * pe.toNat + 32 * ra.toNat + 64 * rb.toNat) (ja.toNat + 4096 * jb.toNat)⟩
  | .mxld h od hint a => some ⟨.uOpt, h, iw (0xB2) h (od.toNat) (a.toNat) false (0) false, eu hint.toNat 0⟩
  | .mxst h od fmt nan hint pe pk a => some ⟨.uOpt, h, iw (0xB3) h (od.toNat) (a.toNat) false (0) false, eu (fmt.toNat + 4 * nan.toNat + 8 * hint.toNat) (pk.toNat + 16 * pe.toNat)⟩
  | .mxzero h od => some ⟨.none, h, iw (0xB4) h (od.toNat) (0) false (0) false, 0⟩
  | .cgrp h k a => some ⟨.none, h, iw (0xB5) h (k.toNat) (a.toNat) false (0) false, 0⟩
  | .cag h k a b len => some ⟨.u, h, iw (0xB6) h (k.toNat) (a.toNat) false (b.toNat) false, eu 0 len.toNat⟩
  | .crs h k op a b len => some ⟨.u, h, iw (0xB7) h (k.toNat) (a.toNat) false (b.toNat) false, eu op.toNat len.toNat⟩
  | .ca2a h k a b len => some ⟨.u, h, iw (0xB8) h (k.toNat) (a.toNat) false (b.toNat) false, eu 0 len.toNat⟩
  | .cbar h k => some ⟨.none, h, iw (0xB9) h (k.toNat) (0) false (0) false, 0⟩
  | .cstat h d k => some ⟨.none, h, iw (0xBA) h (d.toNat) (k.toNat) false (0) false, 0⟩
  | .gspaceBind h a b => some ⟨.uOpt, h, iw (0xBB) h 0 (a.toNat) false (b.toNat) false, eu 0 0⟩
  | .gspaceUnbind h a b => some ⟨.uOpt, h, iw (0xBB) h 0 (a.toNat) false (b.toNat) false, eu 1 0⟩
  | .gload h base n a b => some ⟨.uOpt, h, iw (0xBC) h 0 (a.toNat) false (b.toNat) false, eu 0 (n.toNat + 128 * base.toNat)⟩
  | .gset h prog ksel m tmsk tval pent a b => some ⟨.u, h, iw (0xBD) h 0 (a.toNat) false (b.toNat) false, eu (m.toNat + 8 * ksel.toNat + 32 * prog.toNat) (tmsk.toNat + 256 * tval.toNat + 65536 * pent.toNat)⟩
  | .gprop h arg a b => some ⟨.u, h, iw (0xBE) h 0 (a.toNat) false (b.toNat) false, eu 0 arg.toNat⟩
  | .gcoll h clr m cap a b => some ⟨.u, h, iw (0xBF) h 0 (a.toNat) false (b.toNat) false, eu (m.toNat + 8 * clr.toNat) cap.toNat⟩
  | .gclr h fill m tmsk tval a b => some ⟨.u, h, iw (0xC0) h 0 (a.toNat) false (b.toNat) false, eu (m.toNat + 8 * fill.toNat) (tmsk.toNat + 256 * tval.toNat)⟩
  | .tmshape h code => some ⟨.u, h, iw (0xC1) h 0 (0) false (0) false, eu 0 code.toNat⟩
  | .tmload h k a => some ⟨.u, h, iw (0xC2) h 0 (a.toNat) false (0) false, eu 0 k.toNat⟩
  | .lig h n => some ⟨.u, h, iw (0xC3) h 0 (0) false (0) false, eu 0 n.toNat⟩
  | .unlig h => some ⟨.none, h, iw (0xC4) h 0 (0) false (0) false, 0⟩
  | .spawn h a => some ⟨.none, h, iw (0xC5) h 0 (a.toNat) false (0) false, 0⟩
  | .rdsr h sr d => some ⟨.u, h, iw (0xC6) h (d.toNat) (0) false (0) false, eu 0 sr.toNat⟩
  | .wrsrGstat h a => some ⟨.u, h, iw (0xC7) h 0 (a.toNat) false (0) false, eu 0 0x06⟩
  | .wrsrTmshape h a => some ⟨.u, h, iw (0xC7) h 0 (a.toNat) false (0) false, eu 0 0x09⟩
  | .wrsrPoolmap h a => some ⟨.u, h, iw (0xC7) h 0 (a.toNat) false (0) false, eu 0 0x08⟩
  | .wrsrLease h i a => some ⟨.u, h, iw (0xC7) h 0 (a.toNat) false (0) false, eu 0 (0x10 + i.toNat)⟩
  | .wrsr h sr a => some ⟨.u, h, iw (0xC7) h 0 (a.toNat) false (0) false, eu 0 sr.toNat⟩
  | .eret h => some ⟨.none, h, iw (0xC8) h 0 (0) false (0) false, 0⟩
  | .tick h d => some ⟨.none, h, iw (0xC9) h (d.toNat) (0) false (0) false, 0⟩
  | .wspill h m => some ⟨.u, h, iw (0xCA) h 0 (0) false (0) false, eu 0 m.toNat⟩
  | .cwb h s a b => some ⟨.u, h, iw (0xCB) h 0 (a.toNat) false (b.toNat) false, eu s.toNat 0⟩
  | .cinv h s a b => some ⟨.u, h, iw (0xCC) h 0 (a.toNat) false (b.toNat) false, eu s.toNat 0⟩
  | .attrInv h a b => some ⟨.uOpt, h, iw (0xCD) h 0 (a.toNat) false (b.toNat) false, eu 0 0⟩
  | .attrCc h v a b => some ⟨.uOpt, h, iw (0xCD) h 0 (a.toNat) false (b.toNat) false, eu 1 v.toNat⟩
  | .attrCpol h v a b => some ⟨.uOpt, h, iw (0xCD) h 0 (a.toNat) false (b.toNat) false, eu 2 v.toNat⟩
  | .attrLc h v a b => some ⟨.uOpt, h, iw (0xCD) h 0 (a.toNat) false (b.toNat) false, eu 3 v.toNat⟩
  | .wfill h m => some ⟨.u, h, iw (0xCE) h 0 (0) false (0) false, eu 0 m.toNat⟩
  | _ => none

/-- R78: with X = 0 an optional extension word reads as zero, so its fields are zero. -/
def Layout.xOk (l : Layout) : Bool :=
  match l.cls with
  | .none => !l.hd.x
  | .i | .m | .b | .u => l.hd.x
  | .oi | .o | .uOpt => l.hd.x || l.ext == 0

/-- An instruction that a word can carry. -/
def Instr.wf (i : Instr) : Bool :=
  match i.layout with
  | some l => l.hd.wf && l.xOk && i.opsOk
  | none => false

/-- The words of an instruction: one, or two when X = 1. -/
def Instr.words (i : Instr) : List Nat :=
  match i.layout with
  | some l => if l.hd.x then [l.w0, l.ext] else [l.w0]
  | none => []

/-! ### Reading fields -/

/-- The fields of an instruction word and its extension word; `e` is 0 where no word follows. -/
structure Fields where
  opc : Nat
  h   : Hd
  d   : Reg
  a   : Reg
  la  : Bool
  b   : Reg
  lb  : Bool
  e   : Nat
  deriving DecidableEq, Repr

/-- The fields of R76. -/
def Fields.ofWords (w e : Nat) : Fields where
  opc := w / 2 ^ 24 % 256
  h := ⟨w / 2 ^ 23 % 2 == 1, .ofNat 4 (w / 2 ^ 19), w / 2 ^ 18 % 2 == 1, w % 2 == 1⟩
  d := .ofNat 5 (w / 2 ^ 13)
  a := .ofNat 5 (w / 2 ^ 8)
  la := w / 2 ^ 7 % 2 == 1
  b := .ofNat 5 (w / 2 ^ 2)
  lb := w / 2 % 2 == 1
  e := if w % 2 = 1 then e % 2 ^ 32 else 0

namespace Fields
variable (f : Fields)

def isEi : Bool := decide (2 ^ 31 ≤ f.e)
def srcA : Src := ⟨f.a, f.la, .ofNat 8 (f.e / 2 ^ 17)⟩
def srcB : Src := ⟨f.b, f.lb, .ofNat 8 (f.e / 2 ^ 9)⟩
def rlA : RL := ⟨f.a, f.la⟩
def rlB : RL := ⟨f.b, f.lb⟩
def rlC : RL := ⟨.ofNat 5 (f.e / 2 ^ 26), f.e / 2 ^ 25 % 2 == 1⟩
/-- Source a of an O/I instruction: an EI word has no permutation (R80). -/
def oiA : Src := if f.isEi then ⟨f.a, f.la, 0⟩ else f.srcA
def oiB : Option BOp :=
  if f.isEi then (IKind.ofCode (f.e / 2 ^ 29 % 4)).map fun k => .imm k (.ofNat 24 f.e) else some (.reg f.srcB)
def spec : Nat := f.e / 2 ^ 3 % 64
def mode : Nat := f.e % 8
def oiSpec : Nat := if f.isEi then f.e / 2 ^ 27 % 4 else f.spec
def oiMode : Nat := if f.isEi then f.e / 2 ^ 24 % 8 else f.mode
def pd : Prd := .ofNat 4 f.d.toNat
def pa : Prd := .ofNat 4 f.a.toNat
def pb : Prd := .ofNat 4 f.b.toNat
def pq : Prd := .ofNat 4 f.spec
def func : Nat := f.e / 2 ^ 24 % 256
def imm : Nat := f.e % 2 ^ 24
def off : BitVec 24 := .ofNat 24 f.e
def uB : UOp := if f.func / 8 % 2 = 1 then .imm (.ofNat 24 f.e) else .reg f.b
def em : EM :=
  ⟨.ofNat 2 (f.e / 2 ^ 30), .ofNat 3 (f.e / 2 ^ 27), .ofNat 2 (f.e / 2 ^ 25), .ofNat 5 (f.e / 2 ^ 20), .ofNat 20 f.e⟩
def od3 (r : Reg) : BitVec 3 := .ofNat 3 r.toNat

/-- The lane integer opcodes 0x00–0x27 (R87). -/
def laneInt : Option Instr :=
  let o := f.opc
  if o < 0x04 then do some (.iadd f.h (← ET.ofCode o) (← Sat.ofCode f.oiSpec) f.d f.oiA (← f.oiB))
  else if o < 0x08 then do some (.isub f.h (← ET.ofCode (o - 0x04)) (← Sat.ofCode f.oiSpec) f.d f.oiA (← f.oiB))
  else if o < 0x0B then do some (.imul f.h (.hwd (o - 0x08)) f.d f.oiA (← f.oiB))
  else if o = 0x0B then do some (.imulhu f.h f.d f.oiA (← f.oiB))
  else if o = 0x0C then do some (.imulhs f.h f.d f.oiA (← f.oiB))
  else if o < 0x0F then some (.imad f.h (.wd (o - 0x0D)) f.d f.srcA f.srcB f.rlC)
  else if o < 0x11 then do some (.imin f.h (.wd (o - 0x0F)) f.d f.oiA (← f.oiB))
  else if o < 0x13 then do some (.imax f.h (.wd (o - 0x11)) f.d f.oiA (← f.oiB))
  else if o = 0x13 then do some (.andV f.h f.d f.oiA (← f.oiB))
  else if o = 0x14 then do some (.orV f.h f.d f.oiA (← f.oiB))
  else if o = 0x15 then do some (.xorV f.h f.d f.oiA (← f.oiB))
  else if o < 0x18 then do some (.shl f.h (.wd (o - 0x16)) f.d f.oiA (← f.oiB))
  else if o < 0x1A then do some (.shr f.h (.wd (o - 0x18)) f.d f.oiA (← f.oiB))
  else if o < 0x1C then do some (.sar f.h (.wd (o - 0x1A)) f.d f.oiA (← f.oiB))
  else if o = 0x1C then some (.clz f.h f.d f.srcA)
  else if o = 0x1D then some (.popc f.h f.d f.srcA)
  else if o = 0x1E then some (.sel f.h (.ofNat 4 (f.e / 2 ^ 26)) f.d f.srcA f.srcB)
  else if o < 0x21 then do some (.icmp f.h (.wd (o - 0x1F)) (← ICond.ofCode f.oiMode) f.pd f.oiA (← f.oiB))
  else if o = 0x21 then some (.addl f.h f.pq f.d f.srcA f.srcB)
  else if o = 0x22 then some (.subl f.h f.pq f.d f.srcA f.srcB)
  else if o = 0x23 then some (.macl f.h f.pq f.d f.srcA f.srcB f.rlC)
  else if o = 0x24 then some (.shll f.h f.pq f.d f.srcA f.srcB)
  else if o = 0x25 then some (.shrl f.h f.pq f.d f.srcA f.srcB)
  else if o = 0x26 then do some (.cmpl f.h (← ICond.ofCode f.mode) f.pd f.srcA f.srcB)
  else some (.negl f.h f.pq f.d f.srcA)

/-- The lane float, mean, cross-lane, branch and memory opcodes 0x28–0x60 (R87). -/
def laneRest : Option Instr :=
  let o := f.opc
  if o < 0x2B then do some (.fadd f.h (.ofCode (o - 0x28)) (← Rnd.ofCode f.oiMode) f.d f.oiA (← f.oiB))
  else if o < 0x2E then do some (.fsub f.h (.ofCode (o - 0x2B)) (← Rnd.ofCode f.oiMode) f.d f.oiA (← f.oiB))
  else if o < 0x31 then do some (.fmul f.h (.ofCode (o - 0x2E)) (← Rnd.ofCode f.oiMode) f.d f.oiA (← f.oiB))
  else if o < 0x34 then do some (.ffma f.h (.ofCode (o - 0x31)) (← Rnd.ofCode f.mode) f.d f.srcA f.srcB f.rlC)
  else if o < 0x36 then do some (.fmin f.h (.hs (o - 0x34)) f.d f.oiA (← f.oiB))
  else if o < 0x38 then do some (.fmax f.h (.hs (o - 0x36)) f.d f.oiA (← f.oiB))
  else if o < 0x3A then do some (.fcmp f.h (.hs (o - 0x38)) (← FCond.ofCode f.oiMode) f.pd f.oiA (← f.oiB))
  else if o = 0x3A then some (.frcp f.h f.d f.srcA)
  else if o = 0x3B then some (.frsq f.h f.d f.srcA)
  else if o = 0x3C then some (.fsqrt f.h f.d f.srcA)
  else if o = 0x3D then some (.fexp2 f.h f.d f.srcA)
  else if o = 0x3E then some (.flog2 f.h f.d f.srcA)
  else if o = 0x3F then some (.ftanh f.h f.d f.srcA)
  else if o = 0x40 then do
    some (.cvt f.h (.ofSpec f.spec) (f.spec / 32 % 2 == 1) (← Rnd.ofCode f.mode) f.d f.srcA)
  else if o = 0x41 then do
    some (.cvtef f.h (.ofCode (f.spec / 4 % 4)) (f.spec / 32 % 2 == 1) (← Rnd.ofCode f.mode) f.d f.srcA f.rlC.r)
  else if o = 0x42 then some (.tmacc f.h (f.spec % 2 == 1) f.d f.srcA)
  else if o = 0x43 then some (.tmred f.h f.d f.srcA)
  else if o = 0x44 then some (.tmfin f.h f.d f.srcA)
  else if o = 0x45 then do some (.xget f.h (← ET.ofCode (f.spec % 4)) f.d f.rlA f.srcB)
  else if o = 0x46 then do some (.xgetu f.h (← ET.ofCode (f.spec % 4)) f.d f.rlA f.srcB)
  else if o < 0x4B then do some (.red f.h (.ofCode (o - 0x47)) (.ofNat 3 f.spec) (← Rnd.ofCode f.mode) f.d f.srcA)
  else if o = 0x4B then do some (.scan f.h (.ofNat 3 f.spec) (← Rnd.ofCode f.mode) f.d f.srcA)
  else if o = 0x4C then some (.xsend f.h (.ofNat 4 f.e) f.rlA)
  else if o = 0x4D then some (.xrecv f.h (.ofNat 4 f.e) f.d)
  else if o = 0x4E then some (.ballot f.h f.d f.pa)
  else if o = 0x4F then some (.plog f.h (.ofNat 4 f.spec) f.pd f.pa f.pb)
  else if o = 0x50 then some (.brp f.h f.pa (.ofNat 12 (f.e / 2 ^ 12)) (.ofNat 12 f.e))
  else if o = 0x51 then some .join
  else if o < 0x57 then some (.ld f.h (.ofCode (o - 0x52)) f.d f.rlA f.em)
  else if o < 0x5C then some (.st f.h (.ofCode (o - 0x57)) f.rlA f.rlB f.em)
  else if o < 0x5F then some (.atom f.h (.ofCode (o - 0x5A)) f.d f.rlA f.rlB f.em)
  else if o = 0x5F then some (.cxch f.h f.d f.rlA f.rlB f.em)
  else if o = 0x60 then some (.cldr f.h f.d f.rlA f.em)
  else none

/-- The uniform opcodes 0x80–0xA7 (R88). -/
def uniA : Option Instr :=
  let o := f.opc
  if o = 0x80 then some (.nop f.h)
  else if o = 0x81 then some (.br f.h f.off)
  else if o = 0x82 then some (.brc f.h (.ofNat 2 f.func) f.a f.off)
  else if o = 0x83 then some (.brany f.h f.pa f.off)
  else if o = 0x84 then some (.brall f.h f.pa f.off)
  else if o = 0x85 then some (.jmpr f.h f.a)
  else if o = 0x86 then some (.call f.h (.ofNat 3 (f.func / 4)) f.off)
  else if o = 0x87 then some (.callr f.h (.ofNat 3 (f.func / 4)) f.a)
  else if o = 0x88 then some (.ret f.h)
  else if o = 0x89 then some (.loop f.h f.d f.off)
  else if o = 0x8A then some (.exit f.h)
  else if o = 0x8B then some (.trap f.h f.off)
  else if o = 0x8C then some (.yield f.h)
  else if o = 0x8D then some (.uadd f.h f.d f.a f.uB)
  else if o = 0x8E then some (.usub f.h f.d f.a f.uB)
  else if o = 0x8F then some (.umul f.h f.d f.a f.uB)
  else if o = 0x90 then some (.uand f.h f.d f.a f.uB)
  else if o = 0x91 then some (.uor f.h f.d f.a f.uB)
  else if o = 0x92 then some (.uxor f.h f.d f.a f.uB)
  else if o = 0x93 then some (.ushl f.h f.d f.a f.uB)
  else if o = 0x94 then some (.ushr f.h f.d f.a f.uB)
  else if o = 0x95 then some (.usar f.h f.d f.a f.uB)
  else if o = 0x96 then do some (.ucmp f.h (← ICond.ofCode (f.func % 8)) f.pd f.a f.uB)
  else if o = 0x97 then some (.umov f.h f.d f.uB)
  else if o = 0x98 then some (.umin f.h f.d f.a f.uB)
  else if o = 0x99 then some (.umax f.h f.d f.a f.uB)
  else if o = 0x9A then some (.rdfl f.h f.d f.a)
  else if o = 0x9B then some (.macroOp f.h (.ofNat 6 f.func) f.d f.a f.b (.ofNat 5 f.e))
  else if o = 0x9C then some (.mdef f.h (.ofNat 6 f.func) (.ofNat 6 f.e) f.a)
  else if o = 0x9D then some (.bar f.h (.ofNat 4 f.e))
  else if o = 0x9E then some (.monitor f.h f.a)
  else if o = 0x9F then some (.mwait f.h f.a)
  else if o = 0xA0 then
    if f.func = 0 then some (.fenceAcq f.h (.ofNat 3 f.e))
    else if f.func = 1 then some (.fenceRel f.h (.ofNat 3 f.e))
    else if f.func = 2 then some (.fenceAr f.h (.ofNat 3 f.e))
    else if f.func = 3 then some (.fenceSc f.h (.ofNat 3 f.e))
    else if f.func = 4 then some (.fenceEng f.h (.ofNat 3 f.e))
    else none
  else if o = 0xA1 then some (.pset f.h f.d f.a)
  else if o = 0xA2 then some (.pqry f.h f.d f.a)
  else if o = 0xA3 then some (.smap f.h (f.func % 2 == 1) (.ofNat 15 f.e) f.a f.b)
  else if o = 0xA4 then some (.sunmap f.h f.a)
  else if o = 0xA5 then
    some (.hres f.h (f.func % 2 == 1) (.ofNat 3 (f.func / 2)) (f.func / 16 % 2 == 1) f.pd (.ofNat 15 f.e) f.a f.b)
  else if o = 0xA6 then some (.hevict f.h f.pd)
  else if o = 0xA7 then some (.hdemote f.h f.pd)
  else none

/-- The uniform opcodes 0xA8–0xC0 (R88). -/
def uniB : Option Instr :=
  let o := f.opc
  if o = 0xA8 then
    if f.func % 2 = 0 then some (.copy f.h (.ofNat 2 (f.func / 2)) f.d f.a f.b)
    else some (.copyHeld f.h (.ofNat 2 (f.func / 2)) (.ofNat 4 f.e) f.d f.a f.b)
  else if o = 0xA9 then some (.publish f.h (.ofNat 3 f.func) f.a)
  else if o = 0xAA then some (.bin f.h (f.func % 2 == 1) (.ofNat 6 f.e) (.ofNat 7 (f.e / 64)) f.a f.b)
  else if o = 0xAB then some (.release f.h f.a)
  else if o = 0xAC then
    some (.mxres f.h (od3 f.d) (f.func / 4 % 2 == 1) (.ofNat 2 f.func) (.ofNat 4 (f.func / 8)) f.a f.b)
  else if o = 0xAD then some (.mxfree f.h (od3 f.d))
  else if o < 0xB2 then
    some (.mma f.h (.ofCode (o - 0xAE)) (od3 f.d) (od3 f.a) (od3 f.b) (f.func / 32 % 2 == 1) (f.func / 64 % 2 == 1)
      (f.func / 16 % 2 == 1) (.ofNat 4 f.func) (.ofNat 12 f.e) (.ofNat 12 (f.e / 4096)))
  else if o = 0xB2 then some (.mxld f.h (od3 f.d) (.ofNat 2 f.func) f.a)
  else if o = 0xB3 then
    some (.mxst f.h (od3 f.d) (.ofNat 2 f.func) (f.func / 4 % 2 == 1) (.ofNat 2 (f.func / 8)) (f.e / 16 % 2 == 1)
      (.ofNat 4 f.e) f.a)
  else if o = 0xB4 then some (.mxzero f.h (od3 f.d))
  else if o = 0xB5 then some (.cgrp f.h (od3 f.d) f.a)
  else if o = 0xB6 then some (.cag f.h (od3 f.d) f.a f.b f.off)
  else if o = 0xB7 then some (.crs f.h (od3 f.d) (.ofNat 4 f.func) f.a f.b f.off)
  else if o = 0xB8 then some (.ca2a f.h (od3 f.d) f.a f.b f.off)
  else if o = 0xB9 then some (.cbar f.h (od3 f.d))
  else if o = 0xBA then some (.cstat f.h f.d (od3 f.a))
  else if o = 0xBB then if f.func % 2 = 0 then some (.gspaceBind f.h f.a f.b) else some (.gspaceUnbind f.h f.a f.b)
  else if o = 0xBC then some (.gload f.h (.ofNat 7 (f.e / 128)) (.ofNat 7 f.e) f.a f.b)
  else if o = 0xBD then
    some (.gset f.h (f.func / 32 % 2 == 1) (.ofNat 2 (f.func / 8)) (.ofNat 3 f.func) (.ofNat 8 f.e)
      (.ofNat 8 (f.e / 256)) (.ofNat 7 (f.e / 65536)) f.a f.b)
  else if o = 0xBE then some (.gprop f.h f.off f.a f.b)
  else if o = 0xBF then some (.gcoll f.h (f.func / 8 % 2 == 1) (.ofNat 3 f.func) f.off f.a f.b)
  else if o = 0xC0 then
    some (.gclr f.h (f.func / 8 % 2 == 1) (.ofNat 3 f.func) (.ofNat 8 f.e) (.ofNat 8 (f.e / 256)) f.a f.b)
  else none

/-- The uniform opcodes 0xC1–0xCE (R88). -/
def uniC : Option Instr :=
  let o := f.opc
  if o = 0xC1 then some (.tmshape f.h (.ofNat 8 f.e))
  else if o = 0xC2 then some (.tmload f.h (.ofNat 2 f.e) f.a)
  else if o = 0xC3 then some (.lig f.h (.ofNat 7 f.e))
  else if o = 0xC4 then some (.unlig f.h)
  else if o = 0xC5 then some (.spawn f.h f.a)
  else if o = 0xC6 then some (.rdsr f.h (.ofNat 8 f.e) f.d)
  else if o = 0xC7 then
    if f.imm = 0x06 then some (.wrsrGstat f.h f.a)
    else if f.imm = 0x09 then some (.wrsrTmshape f.h f.a)
    else if f.imm = 0x08 then some (.wrsrPoolmap f.h f.a)
    else if f.imm / 4 = 4 then some (.wrsrLease f.h (.ofNat 2 f.e) f.a)
    else some (.wrsr f.h (.ofNat 8 f.e) f.a)
  else if o = 0xC8 then some (.eret f.h)
  else if o = 0xC9 then some (.tick f.h f.d)
  else if o = 0xCA then some (.wspill f.h (.ofNat 8 f.e))
  else if o = 0xCB then some (.cwb f.h (.ofNat 3 f.func) f.a f.b)
  else if o = 0xCC then some (.cinv f.h (.ofNat 3 f.func) f.a f.b)
  else if o = 0xCD then
    if f.func = 0 then some (.attrInv f.h f.a f.b)
    else if f.func = 1 then some (.attrCc f.h (.ofNat 2 f.e) f.a f.b)
    else if f.func = 2 then some (.attrCpol f.h (.ofNat 2 f.e) f.a f.b)
    else if f.func = 3 then some (.attrLc f.h (.ofNat 2 f.e) f.a f.b)
    else none
  else if o = 0xCE then some (.wfill f.h (.ofNat 8 f.e))
  else none

/-- The instruction that the fields name, before its rules are checked. -/
def instr : Option Instr :=
  if f.opc < 0x28 then f.laneInt
  else if f.opc < 0x61 then f.laneRest
  else if f.opc < 0x80 then none
  else if f.opc < 0xA8 then f.uniA
  else if f.opc < 0xC1 then f.uniB
  else if f.opc < 0xCF then f.uniC
  else none

end Fields

/-- R89: the assigned opcode bytes. -/
def opcAssigned (o : Nat) : Bool := decide (o < 0x61) || (decide (0x80 ≤ o) && decide (o < 0xCF))

/-! ### The decoder -/

/-- Why a word is refused; each is ILLEGAL at the instruction (R76–R90). -/
inductive DecErr where
  /-- Fewer bytes than the instruction has. -/
  | short
  /-- An unassigned opcode byte (R89). -/
  | unassigned
  /-- A field holds a value listed as unused (R77–R86). -/
  | unusedValue
  /-- A reserved field, or a field the instruction does not use, is not zero; or the wrong extension form (R76–R80). -/
  | strayBits
  /-- An operand rule of the instruction is broken (R116, R117 and its description). -/
  | badOperand
  deriving DecidableEq, Repr

/-- The instruction of a word `w` and the word `e` that follows it in memory (read only where X = 1). -/
def decodeWords (w e : Nat) : Except DecErr Instr :=
  let f := Fields.ofWords w e
  if !opcAssigned f.opc then .error .unassigned
  else match f.instr with
    | none => .error .unusedValue
    | some i =>
      match i.layout with
      | none => .error .unusedValue
      | some l =>
        if l.w0 != w % 2 ^ 32 || (l.hd.x && l.ext != e % 2 ^ 32) then .error .strayBits
        else if i.wf then .ok i
        else .error .badOperand

/-- Four bytes as a little-endian word (R8). -/
def word4 (b0 b1 b2 b3 : Byte) : Nat := b0.toNat + 2 ^ 8 * b1.toNat + 2 ^ 16 * b2.toNat + 2 ^ 24 * b3.toNat

/-- Decodes the instruction at the head of a list of bytes and answers the bytes after it. Total on any bytes. -/
def decodeBytes : List Byte → Except DecErr (Instr × List Byte)
  | b0 :: b1 :: b2 :: b3 :: rest =>
    if b0.toNat % 2 = 0 then (decodeWords (word4 b0 b1 b2 b3) 0).map fun i => (i, rest)
    else match rest with
      | c0 :: c1 :: c2 :: c3 :: rest' =>
        (decodeWords (word4 b0 b1 b2 b3) (word4 c0 c1 c2 c3)).map fun i => (i, rest')
      | _ => .error .short
  | _ => .error .short

/-- A word as its four bytes, least significant first (R8). -/
def bytes4 (w : Nat) : List Byte := [.ofNat 8 w, .ofNat 8 (w / 2 ^ 8), .ofNat 8 (w / 2 ^ 16), .ofNat 8 (w / 2 ^ 24)]

/-- What the decoder reads from the bits of an opcode-table row: the first word in bits 31..0, the next in 63..32. -/
def decodeTableWord (nbits w : Nat) : Option Instr :=
  let v := w % 2 ^ nbits
  match decodeBytes (bytes4 (v % 2 ^ 32) ++ bytes4 (v / 2 ^ 32)) with
  | .ok (i, _) => some i
  | .error _ => none

/-! ### The encoder -/

/-- The words of a well-formed instruction. -/
def encode (i : Instr) : Option (List Nat) := if i.wf then some i.words else none

/-- The bytes of a well-formed instruction as memory holds them. -/
def encodeBytes (i : Instr) : List Byte := i.words.flatMap bytes4

/-! ### Properties of opcodes that the placement checks read before a word is decoded (R73, R90) -/

/-- R31: the instructions that end their clause, by opcode byte. -/
def opcEndsClause (o : Nat) : Bool :=
  o == 0x50 || (decide (0x81 ≤ o) && decide (o ≤ 0x8A)) || o == 0xC8

/-- R87, R88: the long-latency instructions, by opcode byte. -/
def opcLong (o : Nat) : Bool :=
  o == 0x4C || o == 0x4D || (decide (0x52 ≤ o) && decide (o ≤ 0x56)) || (decide (0x5C ≤ o) && decide (o ≤ 0x60))
    || o == 0x9C || o == 0xA1 || o == 0xA6 || o == 0xA7 || o == 0xA8 || o == 0xA9 || o == 0xAA
    || (decide (0xAE ≤ o) && decide (o ≤ 0xB3)) || (decide (0xB5 ≤ o) && decide (o ≤ 0xB9))
    || (decide (0xBC ≤ o) && decide (o ≤ 0xC0)) || o == 0xC2 || o == 0xCA || o == 0xCB || o == 0xCC || o == 0xCE

/-- The header of an instruction: its guard and whether an extension word follows. -/
def Instr.hd (i : Instr) : Hd := (i.layout.map (·.hd)).getD joinHd

/-- The opcode byte of an instruction. -/
def Instr.opc (i : Instr) : Nat := ((i.layout.map (·.w0)).getD 0) / 2 ^ 24 % 256

/-- Words of an instruction, 1 or 2. -/
def Hd.len (h : Hd) : Nat := if h.x then 2 else 1

/-! ### Clause headers (R71) -/

structure Header where
  len  : Nat
  av   : Bool
  af   : Nat
  bv   : Bool
  bf   : Nat
  rsv  : Nat
  wait : Nat
  deriving DecidableEq, Repr

def Header.ofWord (w : Nat) : Header where
  len := w / 2 ^ 26 % 64
  av := w / 2 ^ 25 % 2 == 1
  af := w / 2 ^ 21 % 16
  bv := w / 2 ^ 20 % 2 == 1
  bf := w / 2 ^ 16 % 16
  rsv := w / 2 ^ 12 % 16
  wait := w % 2 ^ 12

/-- The first trap of a malformed header (R73, R90): CLAUSE 0x02 before ILLEGAL 0x01. -/
def Header.trap (h : Header) : Option Nat :=
  if h.len = 0 then some 0x02
  else if h.av && decide (12 ≤ h.af) then some 0x02
  else if h.bv && decide (12 ≤ h.bf) then some 0x02
  else if h.bv && !h.av then some 0x02
  else if h.rsv ≠ 0 then some 0x01
  else none

/-! ### Device macro body words (R30, R91) -/

/-- Which of the fields d, a, b of an opcode name v registers, for the opcodes a macro body may hold (R87, R88). -/
def opcVFields (o : Nat) : Bool × Bool × Bool :=
  if o = 0x1C || o = 0x1D || (0x3A ≤ o && o ≤ 0x44) || (0x47 ≤ o && o ≤ 0x4B) || o = 0x27 then (true, true, false)
  else if o = 0x1F || o = 0x20 || o = 0x26 || o = 0x38 || o = 0x39 then (false, true, true)
  else if o ≤ 0x46 then (true, true, true)
  else if o = 0x4E || o = 0xC9 then (true, false, false)
  else if o = 0x96 || o = 0xCD then (false, true, true)
  else if o = 0x97 then (true, false, true)
  else if 0x8D ≤ o && o ≤ 0x99 then (true, true, true)
  else if o = 0x9A || o = 0xA2 then (true, true, false)
  else if o = 0x9E then (false, true, false)
  else (false, false, false)

/-- R91: opcodes a body word may carry: class P, no extension word required, not TRAP, not in R52. -/
def opcBodyOk (o : Nat) : Bool :=
  decide (o ≤ 0x4B) || o == 0x4E || o == 0x4F || o == 0x80 || (decide (0x8D ≤ o) && decide (o ≤ 0x9A))
    || o == 0x9E || o == 0xA2 || o == 0xC9 || o == 0xCD

/-- A field of a body word after marker substitution: `none` where a marker is badly formed or names no v register. -/
def markField (isV mark : Bool) (v : Nat) (o : List Reg) : Option Nat :=
  if mark then (if isV && v < 4 then (o[v]?).map BitVec.toNat else none) else some v

/-- The instruction of a body word with the operands `o` in place of its markers, or `none` where R91 or R92 refuse it. -/
def bodyInstr (o : List Reg) (w : Nat) : Option Instr :=
  let opc := w / 2 ^ 24 % 256
  let v := opcVFields opc
  if !opcBodyOk opc then none
  else do
    let d ← markField v.1 (w % 2 == 1) (w / 2 ^ 13 % 32) o
    let a ← markField v.2.1 (w / 2 ^ 7 % 2 == 1) (w / 2 ^ 8 % 32) o
    let b ← markField v.2.2 (w / 2 % 2 == 1) (w / 2 ^ 2 % 32) o
    (decodeWords (w / 2 ^ 18 % 2 ^ 14 * 2 ^ 18 + d * 2 ^ 13 + a * 2 ^ 8 + b * 2 ^ 2) 0).toOption

end Sys2Proof
end

