-- ==== Sys2Proof/Machine/Maps.lean ====
section
/-! DEFINITION. Sparse maps as sorted lists of key and value pairs, and memory as such a map of bytes in one
canonical form: addresses strictly rising, and no entry equal to what an unlisted address reads as. -/

namespace Sys2Proof.Machine

/-- A sparse map: pairs with strictly rising keys. -/
abbrev SMap (α : Type) := List (Nat × α)

namespace SMap
variable {α : Type}

/-- The value at a key. -/
def get? : SMap α → Nat → Option α
  | [], _ => none
  | (k, v) :: m, a => if a < k then none else if a = k then some v else get? m a

/-- The value at a key, or `d` where the key is not listed. -/
def getD (m : SMap α) (a : Nat) (d : α) : α := (get? m a).getD d

/-- Lists `v` at `a`. -/
def put : SMap α → Nat → α → SMap α
  | [], a, v => [(a, v)]
  | (k, w) :: m, a, v =>
    if a < k then (a, v) :: (k, w) :: m else if a = k then (a, v) :: m else (k, w) :: put m a v

/-- Takes `a` off the list. -/
def del : SMap α → Nat → SMap α
  | [], _ => []
  | (k, w) :: m, a => if a < k then (k, w) :: m else if a = k then m else (k, w) :: del m a

/-- Changes the value at a listed key. -/
def upd (m : SMap α) (a : Nat) (f : α → α) : SMap α :=
  match get? m a with
  | some v => put m a (f v)
  | none => m

/-- The listed values, in key order. -/
def vals (m : SMap α) : List α := m.map (·.2)

/-- The keys rise strictly. -/
def sorted : SMap α → Bool
  | [] => true
  | [_] => true
  | (a, _) :: (b, w) :: m => decide (a < b) && sorted ((b, w) :: m)

end SMap

/-- Memory by canonical system physical address (R206, R330). -/
abbrev Memory := SMap Byte

namespace Memory

/-- What an unlisted address reads as (log 2). -/
def blank : Byte := 0

/-- One byte. -/
def byte (m : Memory) (a : Nat) : Byte := SMap.getD m a blank

/-- Writes one byte, keeping the canonical form. -/
def setByte (m : Memory) (a : Nat) (v : Byte) : Memory := if v = blank then SMap.del m a else SMap.put m a v

/-- No listed byte is the blank one. -/
def noBlank (m : Memory) : Bool := m.all fun e => e.2 != blank

/-- The canonical form. -/
def wf (m : Memory) : Bool := SMap.sorted m && noBlank m

/-- `n` bytes from `a` as a little-endian number (R8). -/
def readN (m : Memory) (a : Nat) : Nat → Nat
  | 0 => 0
  | n + 1 => (byte m a).toNat + 2 ^ 8 * readN m (a + 1) n

/-- Writes the low `n` bytes of `v` at `a`, little-endian. -/
def writeN (m : Memory) (a : Nat) : Nat → Nat → Memory
  | 0, _ => m
  | n + 1, v => writeN (setByte m a (.ofNat 8 v)) (a + 1) n (v / 2 ^ 8)

end Memory

/-- `n` bytes of a number, least significant first. -/
def natBytes : Nat → Nat → List Byte
  | 0, _ => []
  | n + 1, v => .ofNat 8 v :: natBytes n (v / 2 ^ 8)

/-- A list of bytes as a little-endian number. -/
def bytesNat : List Byte → Nat
  | [] => 0
  | b :: bs => b.toNat + 2 ^ 8 * bytesNat bs

/-- The numbers below `n` whose bit is set in `m`, ascending. -/
def bitsOf (m n : Nat) : List Nat := (List.range n).filter fun i => m.testBit i

/-- The mask with the listed bits set. -/
def maskOf (l : List Nat) : Nat := l.foldl (fun m i => m ||| (1 <<< i)) 0

/-- The first element of a list that passes a test, with its place. -/
def findIdx {α : Type} (p : α → Bool) (l : List α) : Option Nat :=
  (l.zipIdx.find? fun e => p e.1).map (·.2)

/-- Changes the element at a place of a list. -/
def setAt {α : Type} : List α → Nat → α → List α
  | [], _, _ => []
  | _ :: l, 0, v => v :: l
  | x :: l, n + 1, v => x :: setAt l n v

end Sys2Proof.Machine
end

