-- ==== Sys2Proof/Machine/State.lean ====
section
/-! DEFINITION. The state of one Veanaut 6400: every piece of state the spec gives the machine, as plain data, and its
value after reset. INVENTORY.md lists each field's rule. -/

namespace Sys2Proof.Machine

/-! ### Lanes, gangs, groups (R33–R51, R57–R70) -/

/-- A lane: its registers by row (v0–v7 are rows 0–7, stack position j is row 8 + j; an unlisted row is freed, R64),
its predicates and the ECC marks of its rows (R185). -/
structure Lane where
  regs  : SMap W64
  preds : BitVec 16
  bad   : SMap W64
  deriving DecidableEq, Repr

/-- An entry of a slice's divergence stack (R46). -/
structure StackEnt where
  pc   : Nat
  mask : Nat
  jn   : Nat
  deriving DecidableEq, Repr

/-- A split record (R47). -/
structure SplitRec where
  id     : Nat
  parent : Nat
  jn     : Nat
  deriving DecidableEq, Repr

/-- The state of a gang (R40); WAITJOIN names its record and join. -/
inductive GState where
  | ready
  | waitFlag
  | waitJoin (rec jn : Nat)
  | waitBar
  | sleep
  | parked
  | done
  deriving DecidableEq, Repr

/-- What a class H instruction, EXIT or a release holds its gang for (R88, R39, R150, R217, R222). -/
inductive Hold where
  | none
  | yield (till : Nat)
  | exit
  /-- BAR of `n` words at barrier k. -/
  | bar (k n : Nat)
  | wct
  deriving DecidableEq, Repr

/-- The clause context (R72): the header word, the words left, the long-latency instructions issued. -/
structure Clause where
  hdr  : Nat
  left : Nat
  nLL  : Nat
  deriving DecidableEq, Repr

/-- A gang's watch (R223): the canonical line, and whether it has triggered. -/
structure Watch where
  line : Nat
  trig : Bool
  deriving DecidableEq, Repr

/-- A gang (R40). -/
structure Gang where
  id      : Nat
  pc      : Nat
  slices  : Nat
  mask    : Nat
  depth   : Nat
  split   : Nat
  st      : GState
  clause  : Option Clause
  hold    : Hold
  watch   : Option Watch
  /-- Where the gang sleeps by MWAIT: the tick of its limit, 0 for none (R224). -/
  wake    : Option Nat
  last    : Nat
  /-- One more than the tick in which a port last took it: 0 before any (R150). -/
  offer   : Nat
  stopped : Bool
  /-- Latest time of the gang's reads since its last acquire (R260). -/
  rtime   : Nat
  deriving DecidableEq, Repr

/-- A reservation record's words and marks (R269–R271). -/
structure OdRec where
  w0      : Nat
  w1      : Nat
  rv      : Bool
  rc      : Nat
  spoiled : Bool
  deriving DecidableEq, Repr

/-- Where one lane's part of an operation stands. -/
inductive LSt where
  /-- Waits for a page-table walk (R211). -/
  | walk
  /-- Waits at the line's home: a fill for a load, the atomic itself (R218, R258). -/
  | home
  /-- Waits at the vault controller or the far device (R207, R213). -/
  | vault
  /-- Waits for an absent stash line (R197). -/
  | stash
  /-- Waits for its partner or for a uniform operation's own step. -/
  | busy
  /-- The value is bound or the access performed; the value returned, if any. -/
  | bound (v : Nat)
  /-- Parked by a lane fault: cause, FAULTADDR, tick, limb, SUBONLY (R172). -/
  | parked (cause addr tick limb : Nat) (sub : Bool)
  /-- Landed. -/
  | landed
  deriving DecidableEq, Repr

/-- One lane's part of an operation: its address, physical address, page entry, operands and the time read. -/
structure OpLane where
  lane : Nat
  va   : Nat
  pa   : Nat
  pte  : Nat
  y    : Nat
  cmp  : Nat
  st   : LSt
  time : Nat
  deriving DecidableEq, Repr

/-- The kinds of operation a group keeps: lane memory, transfers, uniform long-latency, parked lane arithmetic. -/
inductive OpKind where
  | mem | xfer | uni | alu
  deriving DecidableEq, Repr

/-- An outstanding or parked operation of a group (R75, R172). -/
structure Op where
  id      : Nat
  kind    : OpKind
  instr   : Instr
  pc      : Nat
  flag    : Option Nat
  slices  : Nat
  mask    : Nat
  depth   : Nat
  ctx     : Option Clause
  tick    : Nat
  lanes   : List OpLane
  /-- Operands of a uniform operation as read at issue. -/
  x       : Nat
  y       : Nat
  deriving DecidableEq, Repr

/-- A pending fault or trap event (R176). -/
structure FaultEv where
  tick    : Nat
  lane    : Nat
  lanes   : Nat
  pc      : Nat
  eret    : Nat
  cause   : Nat
  addr    : Nat
  limb    : Nat
  sub     : Bool
  /-- Slices of the gang that holds the event. -/
  slices  : Nat
  opc     : Nat
  /-- The parked operation, for a lane fault. -/
  op      : Option Nat
  deriving DecidableEq, Repr

/-- FAULTPC to FAULTTICK and ERETPC (R67). -/
structure FaultRegs where
  pc    : Nat
  cause : Nat
  addr  : Nat
  lanes : Nat
  tick  : Nat
  eret  : Nat
  deriving DecidableEq, Repr

/-- What a group keeps while its handler runs (R177, R179). -/
structure HandlerCtx where
  gangs  : List Gang
  dstacks : List (List StackEnt)
  recs   : List SplitRec
  /-- The gang that holds the reported event. -/
  rep    : Nat
  /-- ERETPC as written at entry. -/
  eret   : Nat
  /-- Unreported precise events (R176). -/
  evs    : List FaultEv
  /-- The model's own: operations issued in the handler have at least this number. -/
  mark   : Nat
  deriving DecidableEq, Repr

/-- A WRSR or TMSHAPE value on its way (R149): register, value, tick of issue and of effect, sticky bits set since (R65). -/
structure PendWr where
  sr     : Nat
  val    : Nat
  due    : Nat
  sticky : Nat
  deriving DecidableEq, Repr

/-- What is fixed at launch, identity and geometry of a group (R34, R67). -/
structure GGeo where
  bid       : Nat
  gi        : Nat
  core      : Nat
  w         : Nat
  comm      : Bool
  slice0    : Nat
  slots     : List Nat
  shape     : List Nat
  cap       : Nat
  slim      : Nat
  deriving DecidableEq, Repr

/-- A group. -/
structure Group where
  geo       : GGeo
  lanes     : List Lane
  gangs     : List Gang
  dstacks : List (List StackEnt)
  done      : Nat
  retired   : Nat
  recs      : List SplitRec
  flags     : List Nat
  ods       : List (Option OdRec)
  gstat     : Nat
  /-- The sticky bits of GSTAT that have been set in this tick (R65). -/
  stuck     : Nat
  tmshape   : Nat
  wctmax    : Nat
  bottom    : Nat
  spillbase : Nat
  fregs     : FaultRegs
  ops       : List Op
  evs       : List FaultEv
  handler   : Option HandlerCtx
  wr        : List PendWr
  /-- A fault that was passed to the parent region: the reported gang and ERETPC as saved (R182). -/
  passed    : Option (Nat × Nat)
  /-- One more than the latest completion tick of its engine operations whose flag has fallen (R260). -/
  engtime   : Nat
  /-- Latest write completion time of other groups' writes that happen before its next access (R253, R255). -/
  hbw       : Nat
  ended     : Bool
  deriving DecidableEq, Repr

/-! ### Blocks and regions (R33–R37, R343–R357) -/

/-- A tensor handle (R200): 0 UNBOUND, 1 STASH, 2 DEMOTED. -/
structure Handle where
  st  : Nat
  map : Nat
  pri : Nat
  pin : Bool
  deriving DecidableEq, Repr

/-- A collective slot (R239, R240, R244). -/
structure CSlot where
  live    : Bool
  status  : Nat
  rank    : Nat
  amask   : Nat
  amore   : Bool
  tag     : Nat
  decl    : Nat
  base    : Nat
  strides : List Int
  counts  : List Nat
  timeout : Nat
  nops    : Nat
  deriving DecidableEq, Repr

/-- A line of a stash mapping (R196–R198); its dirty bit is set while some byte of `dirty` is. -/
structure StLine where
  present : Bool
  dirty   : Nat
  fill    : Nat
  expiry  : Nat
  time    : Nat
  deriving DecidableEq, Repr

/-- A stash mapping (R196); a line not listed is absent in fill mode, present in copy-in mode. -/
structure Mapping where
  id     : Nat
  bid    : Nat
  off    : Nat
  n      : Nat
  base   : Nat
  copyIn : Bool
  lines  : SMap StLine
  deriving DecidableEq, Repr

/-- Residency of a block (R37). -/
inductive BState where
  | pending | loading | resident | saving | saved | done
  deriving DecidableEq, Repr

/-- A block. -/
structure Block where
  id       : Nat
  rid      : Nat
  idx      : Nat
  core     : Nat
  st       : BState
  groups   : List Nat
  handles  : List Handle
  slots    : List CSlot
  /-- Held copies: slot to engine operation (R234). -/
  held     : SMap Nat
  counters : SMap Nat
  /-- Own range of SP offsets: start and bytes (R189). -/
  own0     : Nat
  ownLen   : Nat
  /-- Window: bytes from its start (R189); a whole-SP window starts at 0. -/
  whole    : Bool
  /-- Groups that have arrived at each barrier (R38). -/
  bars     : SMap Nat
  unit     : Option Nat
  /-- Quoins in force at the save, saved window bytes, saved MX lines, saved mappings (R188, R199, R287). -/
  sq       : List Nat
  sp       : SMap Byte
  mx       : SMap Nat
  /-- ECC marks of the saved words: of a window word under its number in the window, of a word of an MX line under 2^50 + 16 × line +
  word (R185). -/
  bad      : SMap W64
  maps     : List Mapping
  loadTick : Nat
  /-- A fault was passed out of this block: its groups stop (R182, R351). -/
  faulted  : Bool
  deriving DecidableEq, Repr

/-- The resolved fields of an RCB (R343, R344). -/
structure Rcb where
  compl  : Nat
  complv : Nat
  flog   : Nat
  root   : Nat
  code   : Nat
  entry  : Nat
  prio   : Nat
  flags  : Nat
  dies   : Nat
  handler : Nat
  args   : Nat
  bucket : Nat
  spill  : Nat
  stride : Nat
  cap    : Nat
  gw     : Nat
  cw     : Nat
  shape  : List Nat
  blocks : Nat
  gpb    : Nat
  pbanks : Nat
  cores  : Nat
  spwin  : Nat
  mxlines : Nat
  core0  : Nat
  save   : Nat
  saven  : Nat
  deriving DecidableEq, Repr

/-- A region: its RCB's address, its ancestors' from the parent up, its resolved fields, and its launch (R346, R352). -/
structure Region where
  id      : Nat
  addr    : Nat
  chain   : List Nat
  rcb     : Rcb
  die     : Nat
  live    : Bool
  bounds  : List Nat
  entryPc : Nat
  nblocks : Nat
  /-- Counters of R195: PSETs accepted, refused, lines written back by moves, gangs parked. -/
  cnt     : List Nat
  /-- The region has ended and its completion store is due with this state code (R348, R349). -/
  ending  : Option Nat
  deriving DecidableEq, Repr

/-! ### Cores (R187–R202, R211) -/

/-- A line of the CA role (R201, R258): data, valid and dirty byte masks, fill tick, lease expiry, time of its copy, its
bank, the class, lease class and page of its entry, the groups whose stores are not yet at the home, the other groups that those
stores happen before (R253), and the count of the stores. -/
structure CaLine where
  data    : Nat
  valid   : Nat
  dirty   : Nat
  fill    : Nat
  expiry  : Nat
  time    : Nat
  bank    : Nat
  cc      : Nat
  lc      : Nat
  page    : Nat
  writers : List Nat
  hb      : List Nat
  stores  : Nat
  deriving DecidableEq, Repr

/-- A loaded slot of the writable control store (R159): body and tag. It is LOADING while an MDEF to it is outstanding. -/
structure Wcs where
  body    : List Nat
  tag     : Nat
  deriving DecidableEq, Repr

/-- A loaded transformed-mean pair (R106): DOM, XSIGN, P, Q and the knots as (T, K). -/
structure TmPair where
  dom   : Nat
  xsign : Nat
  p     : Nat
  q     : Int
  entry : List (Nat × Int)
  exit  : List (Nat × Int)
  deriving DecidableEq, Repr

/-- A pool move in progress (R192). -/
structure Move where
  q   : List Nat
  gid : Nat
  op  : Nat
  deriving DecidableEq, Repr

/-- A post in a transfer queue (R143). -/
structure Post where
  rid  : Nat
  slot : Nat
  gid  : Nat
  op   : Nat
  send : Bool
  deriving DecidableEq, Repr

/-- A core. -/
structure Core where
  dq    : List Nat
  q     : List Nat
  move  : Option Move
  claim : Option Nat
  ca    : SMap CaLine
  vord  : SMap (List Nat)
  sp    : SMap Byte
  maps  : List Mapping
  mx    : SMap Nat
  posts : List Post
  wcs   : SMap Wcs
  tm    : List (Option TmPair)
  /-- Cached table and leaf entries, by the address of the entry (R211). -/
  tlb   : SMap Nat
  /-- Uncorrectable words of SP, CA and MX: role × 2^32 + word (R185). -/
  poison : SMap W64
  /-- Count of errors corrected (R185). -/
  corrected : Nat
  blame : Nat
  /-- One more than the tick of the core's last blame sample (R361). -/
  blamed : Nat
  /-- Tick in which the ports were last filled, plus one (R42). -/
  sel   : Nat
  deriving DecidableEq, Repr

/-! ### The memory side (R202–R206, R258–R264) -/

/-- What a home keeps of a line that its LLC slice holds (R258, R259): LX, WT, and the hold of a demoted tensor (R202). -/
structure HomeLine where
  lx   : Nat
  wt   : Nat
  held : Option (Nat × Nat)
  deriving DecidableEq, Repr

/-- Another device's line held by this device's LLC (R258): data, dirty bytes, fill tick, expiry, time. -/
structure FarLine where
  data   : Nat
  dirty  : Nat
  fill   : Nat
  expiry : Nat
  time   : Nat
  deriving DecidableEq, Repr

/-- What a drain and flush precedes: a new bucket entry, range entry, key slot or encryption range entry, by its number (R205, R371). -/
inductive Placed where
  | bucket (b : Nat)
  | range (k : Nat)
  | key (k : Nat)
  | enc (k : Nat)
  deriving DecidableEq, Repr

/-- A change waiting for its drain (R205, R371). -/
structure Drain where
  id   : Nat
  what : Placed
  /-- New contents of the entry. -/
  val   : Nat
  deriving DecidableEq, Repr

/-- The memory side of the device. -/
structure MemSide where
  homes  : SMap HomeLine
  /-- WT of lines that the LLC does not hold. -/
  wts    : SMap Nat
  esx    : SMap Nat
  /-- Rehomings carried out, with the latest expiry that the old home had recorded (R205). -/
  moved  : List (Drain × Nat)
  far    : SMap FarLine
  cp     : SMap Nat
  ranges : SMap Nat
  buckets : SMap Nat
  rebal  : Bool
  hits   : SMap Nat
  drains : List Drain
  /-- Key under which a written line stands (R371); an unlisted line stands under the part's first drawn key. -/
  keyed  : SMap Nat
  keys   : SMap Nat
  encs   : SMap Nat
  /-- Count of slot-0 key pairs drawn (R371). -/
  boots  : Nat
  /-- Uncorrectable words of memory, by address / 8 (R304, R347). -/
  bad    : SMap W64
  deriving DecidableEq, Repr

/-! ### Engines (R232–R244, R269–R312) -/

/-- A destination proof of an engine operation: the descriptor and the backing that was inactive (R265). -/
structure Proof where
  desc : Nat
  back : Nat
  deriving DecidableEq, Repr

/-- An entry of a cluster's reservation table (R274, R275): the instruction, the address and the rows selected at issue, whether
it is granted; level and the tick since which it has waited while eligible. Descriptors are named in `instr`. -/
structure MxJob where
  instr   : Instr
  addr    : Nat
  sel     : Nat
  level   : Nat
  since   : Option Nat
  granted : Bool
  deriving DecidableEq, Repr

/-- A message of a wave (R295): source id, edge index, destination id, element values. -/
structure Msg where
  src   : Nat
  edge  : Nat
  dst   : Nat
  vals  : List Nat
  deriving DecidableEq, Repr

/-- One write of the graph engine that is still to be performed: at most 16 bytes (R303), or bits of a byte set or cleared. -/
inductive GWrite where
  | put (pa n v : Nat)
  | set (pa bits : Nat)
  | clear (pa bits : Nat)
  deriving DecidableEq, Repr

/-- What a hop's fold gives for a node (R297): its place, its new elements below NE as a pattern, the pattern that the slot held, DOMF,
SAT. -/
structure NodeFold where
  place : Nat
  pat   : Nat
  old   : Nat
  domf  : Bool
  sat   : Bool
  deriving DecidableEq, Repr

/-- The end of a hop, which the controller has broadcast (R299, R301): the units that the command has still to reach, those that have it
and have still to fold, and the folds formed. -/
structure HopFin where
  units : List Nat
  due   : List Nat
  folds : List NodeFold
  deriving DecidableEq, Repr

/-- A running wave or other broadcast of the graph engine (R294–R302). `key` and `addr` are GSET's and GCLR's operand and the
address operand of GLOAD and GCOLL; `word` is GPROP's wave word. -/
structure Bcast where
  space    : Nat
  instr    : Instr
  word     : Nat
  key      : Nat
  addr     : Nat
  started  : Bool
  /-- Hops begun, and whether the last of them has not ended. -/
  hop      : Nat
  inHop    : Bool
  /-- Nodes of the next hop's frontier, or the nodes that GCOLL.clr will clear, as places. -/
  frontier : List Nat
  sending  : List Msg
  /-- Numbers of the messages received in this hop, in order of arrival, and of those dropped. -/
  got      : List Nat
  lost     : List Nat
  /-- Frontier nodes whose units the hop's start has still to reach, with the messages that they will send (R301). -/
  unsent   : List (Nat × List Msg)
  /-- The first 16 bytes of the slots that it is reading, by address, between the two accesses of a read (R303). -/
  lows     : Option (SMap Nat)
  fin      : Option HopFin
  /-- Spill records that hold messages of this hop, by the number of the message (R300). -/
  spilled  : SMap Nat
  /-- Writes that its folds, marks and fills have still to make (R303). -/
  todo     : List GWrite
  msgs     : Nat
  drops    : Nat
  domf     : Bool
  sat      : Bool
  /-- Set once the operation has its outcome: status, underlying cause (R302). -/
  ended    : Option (Nat × Nat)
  deriving DecidableEq, Repr

/-- A member's part of a collective operation (R241, R242). -/
structure CollJob where
  anchor : Nat
  slot  : Nat
  rank  : Nat
  instr : Instr
  src   : Nat
  dst   : Nat
  tm    : Nat
  since : Nat
  deriving DecidableEq, Repr

inductive EngKind where
  /-- dst, src, length, hint, lines landed, bytes of both ranges as the copy began where they overlap. -/
  | copy (dst src len hint : Nat) (landed : List Nat) (old : Option Memory)
  /-- The descriptor, log2 of the page's size, the scope (R236). -/
  | publish (desc bits scope : Nat)
  | bin (clear : Bool) (base nb addr n : Nat)
  | mx (j : MxJob)
  | coll (j : CollJob)
  | bcast (b : Bcast)
  /-- CGRP: slot and the 32 bytes of the descriptor (R240). -/
  | cgrp (slot desc : Nat)
  deriving DecidableEq, Repr

/-- An engine operation (R232). -/
structure Eng where
  id      : Nat
  kind    : EngKind
  gid     : Nat
  bid     : Nat
  rid     : Nat
  core    : Nat
  flag    : Option Nat
  pc      : Nat
  opc     : Nat
  started : Bool
  /-- A held copy's slot until it starts (R234). -/
  heldIn  : Option Nat
  /-- Its RELEASE: whether the length is patched, from which counter, by which shift, and the BINs it waits for. -/
  rel     : Option (Bool × Nat × Nat × List Nat)
  /-- Cause and address of the fault that fails the operation. -/
  fail    : Option (Nat × Nat)
  proofs  : List Proof
  /-- Publishable buffers as the operation reads them: the backing active at its start (R265). -/
  srcs    : List Proof
  deriving DecidableEq, Repr

/-- A graph binding (R308): descriptor address, key, region, die, fields of bytes 0x00–0x2B, member pages, program store. -/
structure Space where
  desc  : Nat
  key   : Nat
  rid   : Nat
  die   : Nat
  vb    : Nat
  segoff : Nat
  seglen : Nat
  nv    : Nat
  ps    : Nat
  nmax  : Nat
  emax  : Nat
  mapn  : Nat
  pmap  : Nat
  spilln : Nat
  members : List Nat
  store : SMap Nat
  closing : Bool
  deriving DecidableEq, Repr

/-- A matched collective operation at its anchor (R335, R336). -/
structure CollRec where
  id      : Nat
  tag     : Nat
  decl    : Nat
  k       : Nat
  base    : Nat
  strides : List Int
  counts  : List Nat
  timeout : Nat
  instr   : Option Instr
  tm      : Nat
  terms   : SMap (List Nat)
  since   : SMap Nat
  bad     : Bool
  fault   : Bool
  expired : Bool
  /-- Outcome: status, AMASK, AMORE (R335). -/
  outcome : Option (Nat × Nat × Bool)
  deriving DecidableEq, Repr

/-- The engines of the device. -/
structure Engines where
  ops    : List Eng
  spaces : List Space
  colls  : List CollRec
  /-- Accepted CGRPs by core × 2^16 + TAG (R240). -/
  decls  : SMap Nat
  /-- Banks under refresh: vault × 16 + unit (R301), and the commands their catch-up queues hold: the operation, and the message or
  the start or end of the hop. -/
  refresh : List Nat
  catchup : SMap (List (Nat × Nat))
  /-- Terms of collective operations that no member here has issued yet, as the injector read them: address, bytes (R364, log 122). -/
  early   : List (Nat × List Nat)
  /-- Fences of FENCE.sc kind performed, in order, and one more than the tick of the last (R255). -/
  scs    : Nat
  scTick : Nat
  deriving DecidableEq, Repr

/-! ### Fabric, observation, system (R324–R371) -/

/-- A fabric port (R328, R332). -/
structure Port where
  lanes   : Nat
  replays : Nat
  drops   : Nat
  seq     : Nat
  credits : Nat
  /-- The SEQ of a dropped flit that the link partner has still to replay (R328). -/
  gap     : Option Nat
  deriving DecidableEq, Repr

/-- A host write waiting for its acknowledgement (R338): id, host, tick, value read by an atomic. -/
structure HostPend where
  id   : Nat
  host : Nat
  wct  : Nat
  val  : Nat
  deriving DecidableEq, Repr

/-- What the device has answered outside: 0 value to a host, 1 acknowledgement, 2 refusal, 3 SMBus data. -/
structure Answer where
  kind : Nat
  dst  : Nat
  val  : Nat
  deriving DecidableEq, Repr

structure Fabric where
  dims   : Nat
  late   : Nat
  lostw  : Nat
  live   : Nat
  ports  : List Port
  routes : SMap Nat
  hosts  : List HostPend
  out    : List Answer
  lastFlit : SMap Nat
  deriving DecidableEq, Repr

/-- The trace block, PC ranges, lane-cycle counters and the replay injector (R359–R364). -/
structure Trace where
  tbase : Nat
  tsize : Nat
  head  : Nat
  tail  : Nat
  tlost : Nat
  tctl  : Nat
  orphans : Nat
  ranges : SMap Nat
  lc    : SMap Nat
  /-- Slices of each core that have issued in this tick (R362). -/
  busy  : SMap Nat
  rbase : Nat
  rcount : Nat
  rgo   : Bool
  rdone : Nat
  deriving DecidableEq, Repr

/-- Bring-up, power, lifecycle, attestation, unlock and stop state (R358, R365–R371). -/
structure Sys where
  phase   : Nat
  failcode : Nat
  devid   : Nat
  life    : Nat
  meas    : Nat
  temp    : Nat
  watts   : Nat
  pcap    : Nat
  throttle : Nat
  stopTick : Nat
  arm     : Bool
  miss    : Bool
  stopped : Bool
  reports : Nat
  reqs    : List Nat
  unlock  : Nat
  challenge : Nat
  /-- The digest of a token that has been accepted, while the regions end (R370). -/
  unlocking : Option Nat
  deriving DecidableEq, Repr

/-- A hand-over of SPAWN to a region scheduler (R164, R346). -/
structure Spawn where
  id   : Nat
  addr : Nat
  die  : Nat
  deriving DecidableEq, Repr

/-- The whole machine. -/
structure State where
  tick    : Nat
  leases  : List Nat
  mem     : Memory
  cores   : SMap Core
  groups  : SMap Group
  blocks  : SMap Block
  regions : SMap Region
  ms      : MemSide
  eng     : Engines
  fab     : Fabric
  tr      : Trace
  sys     : Sys
  spawns  : List Spawn
  /-- Gangs selected in this tick and still to issue, as (group, gang) (R42). -/
  ports   : List (Nat × Nat)
  /-- The model's own: the steps to perform next. `some e` performs the event e; `none` lets the machine go on by itself. -/
  agenda  : List (Option Instr)
  /-- The model's own: next identifier. -/
  nextId  : Nat
  /-- The model's own: count of open values taken (log 5). -/
  free    : Nat
  deriving DecidableEq, Repr

/-- Why the machine stops. -/
inductive Fault where
  /-- Raised by `step` while every clock domain is gated (R365) and no restart or power-on is due: nothing of
  the part runs. Safe: the spec lets nothing run there. -/
  | clocksGated
  deriving DecidableEq, Repr

/-- Why an instruction has no meaning. -/
inductive Refusal where
  /-- The instruction has no meaning in this model yet: raised by `exec`. Safe: nothing is claimed of it. -/
  | notModelled (mnemonic : String)
  deriving DecidableEq, Repr

/-! ### Reset -/

def Lane.reset : Lane := ⟨[], 0, []⟩

def Core.reset : Core where
  dq := [16, 24, 48]
  q := [16, 24, 48]
  move := none
  claim := none
  ca := []
  vord := []
  sp := []
  maps := []
  mx := []
  posts := []
  wcs := []
  tm := [none, none, none, none]
  tlb := []
  poison := []
  corrected := 0
  blame := 0
  blamed := 0
  sel := 0

def Port.reset : Port := ⟨0, 0, 0, 0, 0, none⟩

def MemSide.reset : MemSide where
  homes := []
  wts := []
  esx := []
  moved := []
  far := []
  cp := []
  ranges := []
  buckets := []
  rebal := true
  hits := []
  drains := []
  keyed := []
  keys := []
  encs := []
  boots := 0
  bad := []

def Engines.reset : Engines := ⟨[], [], [], [], [], [], [], 0, 0⟩

def Fabric.reset : Fabric where
  dims := 0
  late := 0
  lostw := 0
  live := 0
  ports := List.replicate 8 Port.reset
  routes := []
  hosts := []
  out := []
  lastFlit := []

/-- BINT is 16 after reset; every other bit of TCTL is 0 (R359). -/
def Trace.reset : Trace where
  tbase := 0
  tsize := 0
  head := 0
  tail := 0
  tlost := 0
  tctl := 16 * 2 ^ 8
  orphans := 0
  ranges := []
  lc := []
  busy := []
  rbase := 0
  rcount := 0
  rgo := false
  rdone := 0

def Sys.reset : Sys where
  phase := 0
  failcode := 0
  devid := 0x1FF
  life := 2
  meas := 0
  temp := 0
  watts := 0
  pcap := 1600
  throttle := 0
  stopTick := 0
  arm := false
  miss := false
  stopped := false
  reports := 0
  reqs := []
  unlock := 0
  challenge := 0
  unlocking := none

/-- The machine right after power-on reset (R67, R69, R203, R332, R358, R359, R366, R367): no region runs, and bring-up
has yet to pass its phases. -/
def State.reset : State where
  tick := 0
  leases := [256, 2048, 16384, 131072]
  mem := []
  cores := []
  groups := []
  blocks := []
  regions := []
  ms := MemSide.reset
  eng := Engines.reset
  fab := Fabric.reset
  tr := Trace.reset
  sys := Sys.reset
  spawns := []
  ports := []
  agenda := []
  nextId := 1
  free := 0

end Sys2Proof.Machine
end

