-- ==== Sys2Proof/Machine/Mem.lean ====
section
/-! DEFINITION. Memory at its homes (R203–R211, R257–R260, R330, R371): addresses, home slices, bytes under their keys,
writes with their completion times and the watches they trigger, and page-table walks. -/

namespace Sys2Proof.Machine

/-! ### Accessors of the state's maps -/

def State.core (s : State) (c : Nat) : Core := SMap.getD s.cores c Core.reset
def State.setCore (s : State) (c : Nat) (k : Core) : State := { s with cores := SMap.put s.cores c k }
def State.group? (s : State) (g : Nat) : Option Group := SMap.get? s.groups g
def State.putGroup (s : State) (g : Nat) (x : Group) : State := { s with groups := SMap.put s.groups g x }
def State.block? (s : State) (b : Nat) : Option Block := SMap.get? s.blocks b
def State.putBlock (s : State) (b : Nat) (x : Block) : State := { s with blocks := SMap.put s.blocks b x }
def State.region? (s : State) (r : Nat) : Option Region := SMap.get? s.regions r
def State.putRegion (s : State) (r : Nat) (x : Region) : State := { s with regions := SMap.put s.regions r x }
/-- Quoin i + 1 in force (R187). -/
def Core.qAt (k : Core) (i : Nat) : Nat := (k.q[i]?).getD 0
/-- Changes a core. -/
def State.onCore (s : State) (c : Nat) (f : Core → Core) : State := s.setCore c (f (s.core c))
/-- Changes a group, where it exists. -/
def State.onGroup (s : State) (g : Nat) (f : Group → Group) : State :=
  match s.group? g with
  | some x => s.putGroup g (f x)
  | none => s
def State.onBlock (s : State) (b : Nat) (f : Block → Block) : State :=
  match s.block? b with
  | some x => s.putBlock b (f x)
  | none => s
def State.onRegion (s : State) (r : Nat) (f : Region → Region) : State :=
  match s.region? r with
  | some x => s.putRegion r (f x)
  | none => s
/-- A fresh identifier. -/
def State.fresh (s : State) : State := { s with nextId := s.nextId + 1 }
/-- The next open value, and the state that has taken it (log 5). -/
def State.open_ (s : State) : Nat × State := (Config.freeNat s.free, { s with free := s.free + 1 })

/-! ### Physical addresses (R206, R330) -/

def paSpace (a : Nat) : Nat := a / 2 ^ 49 % 8
def paDev (a : Nat) : Nat := a / 2 ^ 40 % 2 ^ 9
def paOff (a : Nat) : Nat := a % 2 ^ 40

/-- The canonical form of a system physical address: device memory in the vault-local view (R206). -/
def canon (a : Nat) : Nat :=
  if paSpace a = 0 ∧ a / 2 ^ 39 % 2 = 1 then
    let g := a / 2 ^ 12 % 2 ^ 27
    let o := a % 2 ^ 12
    let v := (g % 2 ^ 10) ^^^ (g / 2 ^ 10 % 2 ^ 10)
    a / 2 ^ 40 * 2 ^ 40 + v * 2 ^ 29 + g / 2 ^ 10 * 2 ^ 12 + o
  else a

/-- The name in the interleaved view of a canonical address of device memory: `canon` answers the address again (R206). -/
def interleaved (a : Nat) : Nat :=
  let h := a / 2 ^ 12 % 2 ^ 17
  a / 2 ^ 40 * 2 ^ 40 + 2 ^ 39 + (h * 2 ^ 10 + ((a / 2 ^ 29 % 2 ^ 10) ^^^ (h % 2 ^ 10))) * 2 ^ 12 + a % 2 ^ 12
/-- Whether a canonical address lies in the range of `n` bytes that starts at `base` in the view of `base` (R206). -/
def inView (base n a : Nat) : Bool :=
  let b := if paSpace base = 0 ∧ base / 2 ^ 39 % 2 = 1 then interleaved a else a
  decide (base ≤ b) && decide (b < base + n)

/-- The 128-byte line of a canonical address. -/
def lineOf (a : Nat) : Nat := a / 128 * 128

/-- The device's own id (R366). -/
def State.dev (s : State) : Nat := s.sys.devid

/-- Whether a device id lies inside the torus sizes (R330, R332). -/
def State.devIn (s : State) (d : Nat) : Bool :=
  decide (d / 64 % 8 < max 1 (s.fab.dims % 16)) && decide (d / 8 % 8 < max 1 (s.fab.dims / 16 % 16)) &&
    decide (d % 8 < max 1 (s.fab.dims / 256 % 16))

/-- Whether device d is UP as this device sees it (R331). -/
def State.devUp (s : State) (d : Nat) : Bool := d == s.dev || s.fab.live.testBit d

/-- Whether a system address names something that answers (R330, R331). -/
def State.addrOk (s : State) (a : Nat) : Bool :=
  match paSpace a with
  | 0 => paDev a == s.dev || (s.devIn (paDev a) && s.devUp (paDev a))
  | 2 => SMap.getD s.fab.routes (paDev a) 0 / 2 ^ 31 % 2 == 1
  | 4 => paDev a == s.dev || (s.devIn (paDev a) && s.devUp (paDev a))
  | _ => false

/-- Whether an address is memory homed on this device. -/
def State.isLocal (s : State) (a : Nat) : Bool := paSpace a == 0 && paDev a == s.dev

/-- Range entry fields (R204). -/
def rngEn (v : Nat) : Bool := v % 2 == 1
def rngBase (v : Nat) : Nat := v / 2 ^ 24 % 2 ^ 40
def rngLimit (v : Nat) : Nat := v / 2 ^ 64 % 2 ^ 40

/-- Bucket of a canonical address (R203). -/
def bucketOf (a : Nat) : Nat :=
  (a / 2 ^ 7 % 2 ^ 12) ^^^ (a / 2 ^ 19 % 2 ^ 12) ^^^ (a / 2 ^ 31 % 2 ^ 12) ^^^ (a / 2 ^ 43 % 2 ^ 9)

/-- Contents of a bucket entry: b<7:0> until written (R203). -/
def State.bucket (s : State) (b : Nat) : Nat := SMap.getD s.ms.buckets b (b % 256)

/-- The home LLC slice of a canonical address (R203). -/
def State.slice (s : State) (a : Nat) : Nat :=
  match s.ms.ranges.find? fun e => rngEn e.2 && decide (rngBase e.2 ≤ a / 4096) && decide (a / 4096 ≤ rngLimit e.2) with
  | some (_, v) => v / 2 ^ 16 % 256 + (a - rngBase v * 4096) / 2 ^ (v / 2 ^ 7 % 32) % 2 ^ (v / 2 ^ 12 % 16)
  | none => s.bucket (bucketOf a)

/-! ### Bytes under their keys (R371) -/

/-- The number of the slot-0 key pair in force: even numbers name keys the part draws, odd numbers loaded ones. -/
def State.slotKey (s : State) (k : Nat) : Nat :=
  if k = 0 then 2 * s.ms.boots else 2 * SMap.getD s.ms.keys k 0 + 1

/-- The key slot that covers a line: that of the first enabled entry that holds it, and slot 0 otherwise. -/
def State.keySlotOf (s : State) (a : Nat) : Nat :=
  match s.ms.encs.find? fun e => rngEn e.2 && decide (rngBase e.2 ≤ a / 4096) && decide (a / 4096 ≤ rngLimit e.2) with
  | some (_, v) => v / 2 ^ 104 % 64
  | none => 0
/-- The key that covers a line. -/
def State.keyOf (s : State) (a : Nat) : Nat := s.slotKey (s.keySlotOf a)

/-- The key under which a line stands. -/
def State.storedKey (s : State) (a : Nat) : Nat := SMap.getD s.ms.keyed (lineOf a) 0

/-- A byte of memory at its home, as the key in force decrypts it. Only this device's DRAM is encrypted. -/
def State.homeByte (s : State) (a : Nat) : Byte :=
  if !s.isLocal a || s.storedKey a == s.keyOf a then Memory.byte s.mem a
  else
    let b := a / 16 * 16
    .ofNat 8 (Crypto.recrypt (s.storedKey a) (s.keyOf a) b (Memory.readN s.mem b 16) / 2 ^ (8 * (a % 16)))

/-- `n` bytes at the home, little-endian (R8). -/
def State.homeRead (s : State) (a : Nat) : Nat → Nat
  | 0 => 0
  | n + 1 => (s.homeByte a).toNat + 2 ^ 8 * State.homeRead s (a + 1) n

/-- Brings a line's bytes under the key in force, before part of it is written. -/
def State.rekeyLine (s : State) (a : Nat) : State :=
  if !s.isLocal a || s.storedKey a == s.keyOf a then s
  else
    { s with
      mem := Memory.writeN s.mem (lineOf a) 128 (s.homeRead (lineOf a) 128)
      ms := { s.ms with keyed := SMap.put s.ms.keyed (lineOf a) (s.keyOf a) } }

/-- Some byte of a range lies in an uncorrectable word of memory (R304, R347). -/
def State.memBad (s : State) (a n : Nat) : Bool := s.ms.bad.any fun e => decide (8 * e.1 < a + n) && decide (a < 8 * e.1 + 8)

/-- Writes the bytes and nothing else; a word that is written is correct again. -/
def State.pokeN (s : State) (a n v : Nat) : State :=
  let s := s.rekeyLine a
  { s with
    mem := Memory.writeN s.mem a n v
    ms := { s.ms with bad := s.ms.bad.filter fun e => !(decide (8 * e.1 < a + n) && decide (a < 8 * e.1 + 8)) } }

/-! ### Pending faults (R174) -/

def LSt.isParked : LSt → Bool
  | .parked .. => true
  | _ => false
def OpLane.parkedB (o : OpLane) : Bool := o.st.isParked
def Op.anyParked (o : Op) : Bool := o.lanes.any OpLane.parkedB

/-- Operations that the program in force has issued: within the handler, the handler's own (R178). -/
def Group.ownOps (G : Group) : List Op :=
  match G.handler with
  | some h => G.ops.filter fun o => decide (h.mark ≤ o.id)
  | none => G.ops

/-- Whether a fault or trap of the group is pending: its gangs stop (R174). -/
def Group.pending (G : Group) : Bool := !G.evs.isEmpty || G.ownOps.any Op.anyParked

/-- A gang leaves WAITBAR or SLEEP. Where a fault of its group is pending it stays stopped: it waited already when it stopped (R174). -/
def Gang.wakes (k : Gang) (pend : Bool) : Gang := { k with st := .ready, stopped := k.stopped || pend }

/-! ### Watches (R223, R224) -/

/-- What a write, invalidation or move of a line does to a gang's watch: a sleeper wakes and its watch is disarmed. -/
def Gang.seeWrite (line : Nat) (pend : Bool) (k : Gang) : Gang :=
  match k.watch with
  | some w =>
    if w.line = line then
      if k.st = .sleep ∧ k.wake.isSome then { k.wakes pend with wake := none, watch := none }
      else { k with watch := some { w with trig := true } }
    else k
  | none => k

/-- What it does to a group's watches, those of the gangs that a handler keeps among them (R179). -/
def Group.seeWrite (line : Nat) (G : Group) : Group :=
  { G with
    gangs := G.gangs.map (Gang.seeWrite line G.pending)
    handler := G.handler.map fun (h : HandlerCtx) => { h with gangs := h.gangs.map (Gang.seeWrite line true) } }

/-- Triggers the watches on a line. -/
def State.trigger (s : State) (line : Nat) : State := { s with groups := s.groups.map fun e => (e.1, e.2.seeWrite line) }

/-! ### Homes (R202, R258, R259) -/


/-- The LLC set of a line: its slice and its index in it (R202). -/
def State.llcSet (s : State) (line : Nat) : Nat := s.slice line * 4096 + line / 128 % 4096

/-- Whether an enabled entry of a range table holds an address (R204, R371). -/
def rngHas (v a : Nat) : Bool := rngEn v && decide (rngBase v ≤ a / 4096) && decide (a / 4096 ≤ rngLimit v)

/-- Whether the change of an entry, of which `old` is replaced, concerns an address (R205). -/
def Drain.meets (d : Drain) (old a : Nat) : Bool :=
  match d.what with
  | .bucket b => bucketOf a == b
  | .range _ | .enc _ => rngHas d.val a || rngHas old a
  | .key _ => false
/-- The entry that a drain replaces. -/
def State.drainOld (s : State) (d : Drain) : Nat :=
  match d.what with
  | .range k => SMap.getD s.ms.ranges k 0
  | .enc k => SMap.getD s.ms.encs k 0
  | .bucket _ | .key _ => 0

/-- LX of a line: what the home keeps, or the set's ESX where the line was evicted, or the expiry that came with its
rehoming (R205, R258). -/
def State.lxOf (s : State) (line : Nat) : Nat :=
  match SMap.get? s.ms.homes line with
  | some h => h.lx
  | none =>
    let e := s.ms.moved.foldl (fun m x => if x.1.meets 0 line then max m x.2 else m) (SMap.getD s.ms.esx (s.llcSet line) 0)
    if s.tick < e then e else 0

/-- What the home knows of a line; WT outlives the line's stay in the LLC (log 40). -/
def State.homeLine (s : State) (line : Nat) : HomeLine :=
  SMap.getD s.ms.homes line ⟨s.lxOf line, SMap.getD s.ms.wts line 0, none⟩

/-- R258: a line leaves the LLC, and its LX is folded into the set's ESX. -/
def State.evict (s : State) (line : Nat) : State :=
  match SMap.get? s.ms.homes line with
  | none => s
  | some h =>
    let set := s.llcSet line
    { s with ms := { s.ms with
        homes := SMap.del s.ms.homes line
        wts := SMap.put s.ms.wts line h.wt
        esx := SMap.put s.ms.esx set (max (SMap.getD s.ms.esx set 0) h.lx) } }

/-- R202, R258: makes room in a set of the LLC that holds 16 lines: an unheld line leaves it, which one the spec leaves open. -/
def State.llcRoom (s : State) (line : Nat) : State :=
  let set := s.llcSet line
  let ls := s.ms.homes.filter fun e => s.isLocal e.1 && s.llcSet e.1 == set
  if ls.length < 16 then s
  else
    let free := ls.filter fun e => e.2.held.isNone
    let q := s.open_
    match free[q.1 % free.length]? with
    | none => s
    | some e => q.2.evict e.1

/-- Sets what a home keeps of a line, which comes into the LLC. -/
def State.setHome (s : State) (line : Nat) (h : HomeLine) : State :=
  let s := if (SMap.get? s.ms.homes line).isSome || !s.isLocal line then s else s.llcRoom line
  { s with ms := { s.ms with homes := SMap.put s.ms.homes line h } }

/-- A line of this device comes into the LLC slice that serves an access to it, whatever its class (R202). -/
def State.enterLlc (s : State) (line : Nat) : State :=
  if !s.isLocal line || (SMap.get? s.ms.homes line).isSome then s else s.setHome line (s.homeLine line)

/-- Sets the WT of a line, in the LLC or not. -/
def State.setWt (s : State) (line w : Nat) : State :=
  match SMap.get? s.ms.homes line with
  | some h => { s with ms := { s.ms with homes := SMap.put s.ms.homes line { h with wt := w } } }
  | none => { s with ms := { s.ms with wts := SMap.put s.ms.wts line w } }

/-- The completion time of a write that goes to its home now (R259): HC lines wait for every granted lease. When it arrives at a
home outside this device, and which leases that home has granted to others, is open (log 110). -/
def State.wctOf (s : State) (a : Nat) (hc : Bool) : Nat :=
  let t := if s.isLocal a then s.tick else s.tick + Config.freeNat s.free
  if hc then max t (s.lxOf (lineOf a)) else t

/-- What a write leaves at the home of its line: an HC line comes into the LLC with its WT. A copy of another device's line leaves
this device's LLC (R256). -/
def State.wrote (s : State) (line : Nat) (hc : Bool) : State :=
  let w := s.wctOf line hc
  let s1 := if hc then s.setHome line ⟨s.lxOf line, w, (s.homeLine line).held⟩ else s.setWt line w
  if s.isLocal line then s1 else { s1 with free := s1.free + 1, ms := { s1.ms with far := SMap.del s1.ms.far line } }

/-- A write of `n` bytes performed at the home: the bytes, WT, and the watches. The write lies in one line. -/
def State.homeWrite (s : State) (a n v : Nat) (hc : Bool) : State :=
  ((s.wrote (lineOf a) hc).pokeN a n v).trigger (lineOf a)

/-- The lines that `n` bytes from an address meet. -/
def linesOf (a n : Nat) : List Nat :=
  ((List.range (n / 128 + 2)).map fun i => lineOf a + 128 * i).filter fun l => decide (l < a + n)

/-- A write of any length, line by line, at the homes (R232). -/
def State.homeWriteB (s : State) (a : Nat) (bs : List Byte) (hc : Bool) : State :=
  (linesOf a bs.length).foldl (fun st l => (st.wrote l hc).trigger l)
    (bs.zipIdx.foldl (fun st e => st.pokeN (a + e.2) 1 e.1.toNat) s)
/-- A write by the part itself. -/
def State.homeWriteN (s : State) (a : Nat) (bs : List Byte) : State := s.homeWriteB a bs true

/-! ### What another device answers (R257–R260, R267)

A response carries its data in bits 1023:0, the line's WT above them, and for an atomic the WCT of its write above bit 1087. -/

def respData (r n : Nat) : Nat := r % 2 ^ (8 * n)
def respWt (r : Nat) : Nat := r / 2 ^ 1024 % 2 ^ 64
def respWct (r : Nat) : Nat := r / 2 ^ 1088

/-- Whether a drain affects an address: a key slot's, the lines that it covers (R205, R371). -/
def State.drainMeets (s : State) (d : Drain) (a : Nat) : Bool :=
  match d.what with
  | .key k => s.keySlotOf a == k
  | _ => d.meets (s.drainOld d) a
/-- No change that affects the address waits for its drain: requests to it are held meanwhile (R205). -/
def State.drained (s : State) (a : Nat) : Bool := s.ms.drains.all fun d => !s.drainMeets d a

/-- Grants a lease of class k on a line at this tick (R258): its expiry. -/
def State.leaseEnd (s : State) (lc : Nat) : Nat := s.tick + (s.leases[lc]?).getD 0

/-- Counts a request to a bucket (R205). -/
def State.countHit (s : State) (a : Nat) : State :=
  let b := bucketOf a
  { s with ms := { s.ms with hits := SMap.put s.ms.hits b (SMap.getD s.ms.hits b 0 + 1) } }

/-! ### Lines of bytes -/

/-- Byte i of a line. -/
def lineByte (d i : Nat) : Nat := d / 2 ^ (8 * i) % 256
/-- `n` bytes of a line from byte `i`. -/
def lineRead (d i n : Nat) : Nat := d / 2 ^ (8 * i) % 2 ^ (8 * n)
/-- A line with `n` bytes from byte `i` replaced. -/
def lineWrite (d i n v : Nat) : Nat :=
  d / 2 ^ (8 * (i + n)) * 2 ^ (8 * (i + n)) + (v % 2 ^ (8 * n)) * 2 ^ (8 * i) + d % 2 ^ (8 * i)
/-- The mask of `n` bytes from byte `i`. -/
def byteMask (i n : Nat) : Nat := (2 ^ n - 1) * 2 ^ i
/-- `x` with the bytes that `m` marks taken from `d`. -/
def lineMerge (x d m : Nat) : Nat := (List.range 128).foldl (fun r i => if m.testBit i then lineWrite r i 1 (lineByte d i) else r) x

/-- Every byte of a line. -/
def allBytes : Nat := 2 ^ 128 - 1

/-! ### Page-table entries and walks (R208–R211) -/

def pteV (p : Nat) : Bool := bit p 0
def pteL (p : Nat) : Bool := bit p 1
def pteR (p : Nat) : Bool := bit p 2
def pteW (p : Nat) : Bool := bit p 3
def pteX (p : Nat) : Bool := bit p 4
def pteU (p : Nat) : Bool := bit p 5
/-- 0 HC, 1 SC, 2 CP. -/
def pteCC (p : Nat) : Nat := fld p 7 6
def pteGS (p : Nat) : Bool := bit p 8
def ptePB (p : Nat) : Bool := bit p 9
def pteLC (p : Nat) : Nat := fld p 11 10
/-- GS pages and host memory read CPOL as uncached (R213, R330). -/
def pteCpol (p : Nat) : Nat := if pteGS p then 2 else fld p 13 12
def ptePA (p : Nat) : Nat := p / 2 ^ 16 % 2 ^ 36 * 2 ^ 16

/-- `n` bytes as core c's accesses and walks see them: bytes its L1 holds dirty, else the home (R186). -/
def State.coreByte (s : State) (c a : Nat) : Nat :=
  match SMap.get? (s.core c).ca (lineOf a) with
  | some l => if l.dirty.testBit (a % 128) then lineByte l.data (a % 128) else (s.homeByte a).toNat
  | none => (s.homeByte a).toNat
def State.coreRead (s : State) (c a : Nat) : Nat → Nat
  | 0 => 0
  | n + 1 => s.coreByte c a + 2 ^ 8 * State.coreRead s c (a + 1) n

/-- A leaf found by a walk: the page's first address, log2 of its size, the entry, the entry's address. -/
structure Leaf where
  page : Nat
  bits : Nat
  pte  : Nat
  slot : Nat
  deriving DecidableEq, Repr

/-- Whether a leaf entry is well formed at its level (R208, R209). -/
def leafOk (p : Nat) (bits : Nat) : Bool :=
  p / 2 ^ 52 == 0 && p / 2 ^ 14 % 4 == 0 && fld p 13 12 != 3 && (bits == 16 || p / 2 ^ 16 % 2 ^ 13 == 0)

/-- A walk from a level-1 table (R208) that reads entries by `rd`: the well-formed entries it meets, with their addresses, and the
leaf, or none for XLATE. -/
def walkBy (rd : Nat → Nat) (root va : Nat) : SMap Nat × Option Leaf :=
  let s1 := canon (root + 8 * (va / 2 ^ 42 % 2 ^ 13))
  let e1 := rd s1
  if !pteV e1 || pteL e1 || e1 / 2 ^ 52 != 0 then ([], none)
  else
    let s2 := canon (ptePA e1 + 8 * (va / 2 ^ 29 % 2 ^ 13))
    let e2 := rd s2
    if !pteV e2 then ([(s1, e1)], none)
    else if pteL e2 then
      if leafOk e2 29 then ([(s1, e1), (s2, e2)], some ⟨va / 2 ^ 29 * 2 ^ 29, 29, e2, s2⟩) else ([(s1, e1)], none)
    else if e2 / 2 ^ 52 != 0 then ([(s1, e1)], none)
    else
      let s3 := canon (ptePA e2 + 8 * (va / 2 ^ 16 % 2 ^ 13))
      let e3 := rd s3
      if pteV e3 && pteL e3 && leafOk e3 16 then
        ([(s1, e1), (s2, e2), (s3, e3)], some ⟨va / 2 ^ 16 * 2 ^ 16, 16, e3, s3⟩)
      else ([(s1, e1), (s2, e2)], none)

/-- The entries that a walk reads: their addresses, down to the one at which it ends. -/
def walkSlots (rd : Nat → Nat) (root va : Nat) : List Nat :=
  let s1 := canon (root + 8 * (va / 2 ^ 42 % 2 ^ 13))
  let e1 := rd s1
  if !pteV e1 || pteL e1 || e1 / 2 ^ 52 != 0 then [s1]
  else
    let s2 := canon (ptePA e1 + 8 * (va / 2 ^ 29 % 2 ^ 13))
    let e2 := rd s2
    if !pteV e2 || pteL e2 || e2 / 2 ^ 52 != 0 then [s1, s2] else [s1, s2, canon (ptePA e2 + 8 * (va / 2 ^ 16 % 2 ^ 13))]

/-- A walk that reads memory alone. -/
def State.walk (s : State) (c root va : Nat) : Option Leaf := (walkBy (fun a => s.coreRead c a 8) root va).2

/-- A walk of a core, which reads an entry from its cache where that holds it (R211). -/
def State.walkC (s : State) (c root va : Nat) : SMap Nat × Option Leaf :=
  walkBy (fun a => (SMap.get? (s.core c).tlb a).getD (s.coreRead c a 8)) root va

/-- A walk within a core's cache alone: an entry that is not cached reads as V = 0. -/
def Core.walkTlb (k : Core) (root va : Nat) : SMap Nat × Option Leaf := walkBy (fun a => SMap.getD k.tlb a 0) root va

/-! ### Publishable buffers (R264, R265) -/

/-- A descriptor that a PB page names: its address, both backings, the active one. -/
structure PbDesc where
  desc   : Nat
  back0  : Nat
  back1  : Nat
  active : Bool
  spoiled : Bool
  deriving DecidableEq, Repr

/-- Reads a descriptor by `rd`; none where a reserved bit is set or a backing is misaligned (R264). -/
def pbDescBy (rd : Nat → Nat → Nat) (pte bits : Nat) : Option PbDesc :=
  let d := canon (ptePA pte)
  let b0 := rd d 8
  let b1 := rd (d + 8) 8
  let st := rd (d + 16) 8
  if b0 % 2 ^ bits != 0 || b0 / 2 ^ 52 != 0 || b1 % 2 ^ bits != 0 || b1 / 2 ^ 52 != 0 || st / 4 != 0 || rd (d + 32) 32 != 0 then none
  else some ⟨d, b0, b1, bit st 0, bit st 1⟩
/-- A descriptor as it stands at its home. -/
def State.pbDesc (s : State) (pte bits : Nat) : Option PbDesc := pbDescBy s.homeRead pte bits
/-- A descriptor as core c reads it, which sees its own stores (R256, R268). -/
def State.pbDescC (s : State) (c pte bits : Nat) : Option PbDesc := pbDescBy (s.coreRead c) pte bits

/-- The physical address of an ordinary access through a leaf, where `d` is what a PB page's descriptor holds: the active backing
(R265). -/
def Leaf.paWith (l : Leaf) (d : Option PbDesc) (va : Nat) : Option Nat :=
  let o := va % 2 ^ l.bits
  if ptePB l.pte then d.map fun d => canon ((if d.active then d.back1 else d.back0) + o)
  else some (canon (ptePA l.pte / 2 ^ l.bits * 2 ^ l.bits + o))
/-- The same for an access of the part itself, and for one of core c. -/
def State.leafPA (s : State) (l : Leaf) (va : Nat) : Option Nat := l.paWith (s.pbDesc l.pte l.bits) va
def State.leafPAC (s : State) (c : Nat) (l : Leaf) (va : Nat) : Option Nat := l.paWith (s.pbDescC c l.pte l.bits) va

end Sys2Proof.Machine
end

