-- ==== Sys2Proof/Machine/Ops.lean ====
section
/-! DEFINITION. The named operations every meaning is written over: the gang that issues, advancing it, completion
flags, precise traps and uniform faults (R148, R171), operations of lanes (R43, R64, R65, R172, R173), fault logs
(R180–R183), entering the handler (R175–R178) and leaving it (R179, R182). -/

namespace Sys2Proof.Machine

/-- A meaning is a change of state: the machine goes on. -/
abbrev Meaning := State → State

/-- What a meaning answers (every instruction and event of the part completes in a next state). -/
abbrev Ans := Host.Outcome State Fault Refusal

/-! ### Gangs and groups -/

def Group.gang? (G : Group) (k : Nat) : Option Gang := G.gangs.find? fun x => x.id == k
def Group.putGang (G : Group) (K : Gang) : Group :=
  { G with gangs := G.gangs.map fun x => if x.id = K.id then K else x }
def Group.lane (G : Group) (l : Nat) : Lane := (G.lanes[l]?).getD Lane.reset
/-- The gang that issues, with its group. -/
structure Cur where
  g : Nat
  G : Group
  K : Gang
  deriving DecidableEq, Repr

/-- The gang at the head of the ports. -/
def cur (s : State) : Option Cur :=
  match s.ports with
  | [] => none
  | (g, k) :: _ =>
    match s.group? g with
    | none => none
    | some G => (G.gang? k).map fun K => ⟨g, G, K⟩

def State.popPort (s : State) : State := { s with ports := s.ports.tail }

/-- Lets the issuing gang's step be `f`; without a gang nothing happens. -/
def onCur (s : State) (f : Cur → State) : State :=
  match cur s with
  | some x => f x
  | none => s

/-- Stores the group with its gang and takes the gang off its port. -/
def State.finish (s : State) (x : Cur) (G : Group) (K : Gang) : State := (s.putGroup x.g (G.putGang K)).popPort

/-- The gang is held at issue: it tries again when it is next selected (R41, R75, R88). -/
def State.heldAtIssue (s : State) : State := s.popPort

/-- Clause context after `n` more words and `ll` more long-latency instructions (R72). -/
def Gang.clauseAdv (K : Gang) (n ll : Nat) : Option Clause :=
  match K.clause with
  | some c => if c.left ≤ n then none else some { c with left := c.left - n, nLL := c.nLL + ll }
  | none => none

/-- The gang after an instruction with header `h`, at the word that follows it. -/
def Gang.adv (K : Gang) (h : Hd) (t : Nat) : Gang :=
  { K with pc := K.pc + 4 * h.len, clause := K.clauseAdv h.len 0, last := t }

/-- The same after a long-latency instruction (R73). -/
def Gang.advLL (K : Gang) (h : Hd) (t : Nat) : Gang :=
  { K with pc := K.pc + 4 * h.len, clause := K.clauseAdv h.len 1, last := t }

/-- The gang at a clause header elsewhere (R72). -/
def Gang.jump (K : Gang) (pc t : Nat) : Gang := { K with pc := pc, clause := none, last := t }

/-- Lowest set bit below 64; FIRSTLANE of a mask (R29). -/
def lowBit (m : Nat) : Nat := ((List.range 64).find? fun i => m.testBit i).getD 0

def Gang.first (K : Gang) : Nat := lowBit K.mask

/-- The lanes of a slice as a mask (R34). -/
def sliceLanes (j : Nat) : Nat := 15 * 2 ^ (4 * j)
/-- The lanes of a set of slices. -/
def slicesLanes (m : Nat) : Nat := (bitsOf m 16).foldl (fun r j => r ||| sliceLanes j) 0
/-- Slices of a group that have not retired. -/
def Group.unretired (G : Group) : Nat := (2 ^ (G.geo.w / 4) - 1) &&& (2 ^ 16 - 1 - G.retired)
/-- Lanes of a group that are not done. -/
def Group.liveLanes (G : Group) : Nat := (2 ^ G.geo.w - 1) &&& (2 ^ 64 - 1 - G.done)

/-- Row of register r at window depth D (R58). -/
def rowOf (D : Nat) (r : Reg) : Nat := if r.toNat < 8 then r.toNat else r.toNat + D

def Lane.val (L : Lane) (row : Nat) : Nat := ((SMap.get? L.regs row).map BitVec.toNat).getD 0
def Lane.freed (L : Lane) (row : Nat) : Bool := (SMap.get? L.regs row).isNone
def Lane.set (L : Lane) (row v : Nat) : Lane :=
  { L with regs := SMap.put L.regs row (.ofNat 64 v), bad := SMap.del L.bad row }
def Lane.free (L : Lane) (row : Nat) : Lane := { L with regs := SMap.del L.regs row, bad := SMap.del L.bad row }
def Lane.pred (L : Lane) (p : Prd) : Bool := L.preds.toNat.testBit p.toNat
def Lane.setPred (L : Lane) (p : Nat) (v : Bool) : Lane :=
  { L with preds := .ofNat 16 (L.preds.toNat % 2 ^ p + v.toNat * 2 ^ p + L.preds.toNat / 2 ^ (p + 1) * 2 ^ (p + 1)) }

/-- Changes the lanes of a mask. -/
def Group.onLanes (G : Group) (m : Nat) (f : Nat → Lane → Lane) : Group :=
  { G with lanes := G.lanes.zipIdx.map fun e => if m.testBit e.2 then f e.2 e.1 else e.1 }

/-- The guard of lane l (R16, R43). -/
def guardOk (G : Group) (h : Hd) (l : Nat) : Bool := !h.en || ((G.lane l).pred h.p != h.neg)

/-- The lanes l with ACTIVE(l) (R29). -/
def actMask (G : Group) (K : Gang) (h : Hd) : Nat :=
  if h.en then maskOf ((bitsOf K.mask 64).filter fun l => guardOk G h l) else K.mask

/-- A uniform instruction's guard tests the first active lane (R44). -/
def uniGuard (G : Group) (K : Gang) (h : Hd) : Bool := guardOk G h K.first

/-- Limbs of a ligature, 1 where none is bound; a handler acts as if LIGW = 0 (R118, R128, R177). -/
def ligN (G : Group) : Nat := if G.handler.isSome then 1 else 2 ^ (G.gstat % 8)
def ligBound (G : Group) : Bool := G.handler.isNone && G.gstat % 8 != 0

/-- Whether a truth value of the active lanes differs within a ligature (R118). -/
def ligSplit (G : Group) (K : Gang) (f : Nat → Bool) : Bool :=
  ligBound G && (bitsOf K.mask 64).any fun l =>
    let b := l / ligN G * ligN G
    (List.range (ligN G)).any fun i => K.mask.testBit (b + i) && f (b + i) != f l

def ligDiv (G : Group) (K : Gang) (h : Hd) : Bool := h.en && ligSplit G K (guardOk G h)

/-- GSTAT.FTZ, TMTRAP (R68). -/
def ftzOf (G : Group) : Bool := bit G.gstat 4
def tmTrap (G : Group) : Bool := bit G.gstat 5

/-- Sets sticky bits of GSTAT, and in every WRSR of GSTAT that has not taken effect (R65, R68); a WRSR of this tick takes them from
`stuck`. -/
def Group.stick (G : Group) (bits : Nat) : Group :=
  { G with
    gstat := G.gstat ||| bits
    stuck := G.stuck ||| bits
    wr := G.wr.map fun w => if w.sr = 6 then { w with sticky := w.sticky ||| bits } else w }
def freedBit : Nat := 2 ^ 6
def domBit : Nat := 2 ^ 7
def Group.stickIf (G : Group) (c : Bool) (bits : Nat) : Group := if c then G.stick bits else G

/-! ### Completion flags (R41, R74) -/

def Group.flag (G : Group) (f : Nat) : Nat := (G.flags[f]?).getD 0
def Group.flagUp (G : Group) : Option Nat → Group
  | some f => { G with flags := setAt G.flags f (G.flag f + 1) }
  | none => G
def Group.flagDown (G : Group) : Option Nat → Group
  | some f => { G with flags := setAt G.flags f (G.flag f - 1) }
  | none => G

/-- The flag that the next long-latency instruction of the gang's clause counts against (R73, R74). -/
def Gang.llFlag (K : Gang) : Option Nat :=
  match K.clause with
  | some c =>
    let h := Header.ofWord c.hdr
    if c.nLL = 0 then (if h.av then some h.af else none)
    else if c.nLL = 1 then (if h.bv then some h.bf else none) else none
  | none => none

/-! ### Operations -/

def Group.op? (G : Group) (i : Nat) : Option Op := G.ops.find? fun o => o.id == i
def Group.addOp (G : Group) (o : Op) : Group := { G with ops := G.ops ++ [o] }
def Group.dropOp (G : Group) (i : Nat) : Group := { G with ops := G.ops.filter fun o => o.id != i }
def Group.setOp (G : Group) (o : Op) : Group := { G with ops := G.ops.map fun x => if x.id = o.id then o else x }

def LSt.isLanded : LSt → Bool
  | .landed => true
  | _ => false
def LSt.isBound : LSt → Bool
  | .bound _ => true
  | _ => false
/-- Every lane has landed or is parked: the operation has completed (R74, R175). -/
def Op.completed (o : Op) : Bool := o.lanes.all fun l => l.st.isLanded || l.st.isParked
def Op.parkedMask (o : Op) : Nat := maskOf ((o.lanes.filter OpLane.parkedB).map (·.lane))

/-- The issuing block, region, and whether the group may act as privileged (R89, R177, R345). -/
def State.regionOf (s : State) (G : Group) : Option Region := (s.block? G.geo.bid).bind fun b => s.region? b.rid
def State.privileged (s : State) (G : Group) : Bool := ((s.regionOf G).map fun r => bit r.rcb.flags 2).getD false

/-! ### Traps and uniform faults -/

/-- R171: a precise trap. The whole gang is PARKED at the instruction; nothing else is written but FREEDREAD. -/
def State.trapAt (s : State) (x : Cur) (G : Group) (K : Gang) (cause addr eret opc : Nat) (sub : Bool := false) : State :=
  let ev : FaultEv :=
    { tick := s.tick, lane := x.K.first, lanes := x.K.mask, pc := x.K.pc, eret := eret, cause := cause, addr := addr,
      limb := 0, sub := sub, slices := x.K.slices, opc := opc, op := none }
  let G' := G.putGang { K with st := .parked, hold := .none, stopped := true }
  (s.putGroup x.g { G' with evs := G'.evs ++ [ev] }).popPort

/-- A precise trap whose ERETPC is the instruction's own address. -/
def State.trap (s : State) (x : Cur) (cause : Nat) (opc : Nat) : State := s.trapAt x x.G x.K cause 0 x.K.pc opc

/-- The same after a read of a freed register (R28, R65). -/
def State.trapFreed (s : State) (x : Cur) (fr : Bool) (cause opc : Nat) : State :=
  s.trapAt x (x.G.stickIf fr freedBit) x.K cause 0 x.K.pc opc

/-- R148: a fault of a uniform instruction is recorded for the whole gang, which stays at the instruction. `sub`: the bad bits of an
uncorrectable word lie beside those that it uses (R185). -/
def State.uniFault (s : State) (x : Cur) (fr : Bool) (cause addr opc : Nat) (sub : Bool := false) : State :=
  s.trapAt x (x.G.stickIf fr freedBit) x.K cause addr x.K.pc opc sub

/-! ### Reads of lane registers -/

/-- A register as a lane reads it: value, freed (and read, so FREEDREAD), the register's number where the word is
uncorrectable, and whether only unused bits are bad. -/
structure Rd where
  v     : Nat
  freed : Bool
  bad   : Option Nat
  sub   : Bool
  deriving DecidableEq, Repr

/-- Lane l's own register r; `used` marks the bits the instruction uses (R70, R185). -/
def readReg (G : Group) (D l : Nat) (r : Reg) (used : Nat) : Rd :=
  let L := G.lane l
  let row := rowOf D r
  let b := ((SMap.get? L.bad row).map BitVec.toNat).getD 0
  ⟨L.val row, L.freed row, if b = 0 || L.freed row then none else some r.toNat, b != 0 && b &&& used == 0⟩

/-- A read that names a lane outside the gang's active mask returns zero (R45). -/
def readLane (G : Group) (K : Gang) (l : Nat) (r : Reg) (used : Nat) : Rd :=
  if K.mask.testBit l then readReg G K.depth l r used else ⟨0, false, none, false⟩

/-! ### Lane instructions (R43, R115, R120) -/

/-- What a lane instruction leaves in one lane: registers by row, predicates, DOMF, or a lane fault. -/
structure LaneRes where
  regs  : List (Nat × Nat)
  preds : List (Nat × Bool)
  domf  : Bool
  fault : Option Nat
  deriving DecidableEq, Repr

/-- A lane instruction: its permutations, the reads of an active lane, the registers it frees, and its result in an
active lane, computed from the group as it stood before (R28). -/
structure LaneOp where
  i     : Instr
  hd    : Hd
  perms : List (BitVec 8)
  reads : Group → Gang → Nat → List Rd
  frees : List Reg
  eff   : Group → Gang → Nat → Nat → LaneRes

/-- Whether a permutation's amount breaks the limits of R66 at width w. -/
def permBad (w : Nat) (p : BitVec 8) : Bool :=
  let k := p.toNat % 64
  if p.toNat / 64 = 3 then decide (w.log2 < k) else decide (w ≤ k)

/-- The lane that a permuted source of lane l reads (R66). -/
def permLane (w : Nat) (p : BitVec 8) (l : Nat) : Nat :=
  let k := p.toNat % 64
  match p.toNat / 64 with
  | 0 => (l + k) % w
  | 1 => k
  | 2 => l ^^^ k
  | _ => if k = 0 then l ^^^ (w - 1) else l ^^^ (2 ^ k - 1)

/-- Puts a lane's results in. -/
def LaneRes.apply (r : LaneRes) (L : Lane) : Lane :=
  let L := r.regs.foldl (fun L e => L.set e.1 e.2) L
  r.preds.foldl (fun L e => L.setPred e.1 e.2) L

/-- The fault a lane meets, if any: cause, address, SUBONLY (R120, R185). -/
def LaneOp.faultAt (op : LaneOp) (G : Group) (K : Gang) (act l : Nat) : Option (Nat × Nat × Bool) :=
  match (op.reads G K l).find? fun r => r.bad.isSome with
  | some r => some (0x0E, r.bad.getD 0, r.sub)
  | none => (op.eff G K act l).fault.map fun c => (c, 0, false)

/-- R173: a fault in one lane parks its whole ligature; the first faulting limb of lane l's ligature, if any. -/
def ligFault (G : Group) (act : Nat) (f : Nat → Option (Nat × Nat × Bool)) (l : Nat) : Option (Nat × Nat × Nat × Bool) :=
  let n := ligN G
  let b := l / n * n
  (List.range n).findSome? fun i => if act.testBit (b + i) then (f (b + i)).map fun e => (e.1, e.2.1, i, e.2.2) else none

/-- The effect of a lane instruction in the lanes `on`, where the lanes `act` are ACTIVE: the group after it, and the
parked lanes. `x` keeps `act` for the replay. -/
def LaneOp.applyOn (op : LaneOp) (G : Group) (K : Gang) (act on pc tick id : Nat) : Group × Nat :=
  let ls := bitsOf on 64
  let flt := ligFault G act (op.faultAt G K act)
  let pk := ls.filter fun l => (flt l).isSome
  let ok := ls.filter fun l => (flt l).isNone
  let fr := ls.any fun l => (op.reads G K l).any fun r => r.freed
  let dm := ok.any fun l => (op.eff G K act l).domf
  let G1 := G.onLanes (maskOf ok) fun l L =>
    (op.eff G K act l).apply (op.frees.foldl (fun L r => L.free (rowOf K.depth r)) L)
  let G2 := (G1.stickIf fr freedBit).stickIf dm domBit
  if pk.isEmpty then (G2, 0)
  else
    let o : Op :=
      { id := id, kind := .alu, instr := op.i, pc := pc, flag := none, slices := K.slices, mask := K.mask,
        depth := K.depth, ctx := K.clause, tick := tick, x := act, y := 0,
        lanes := pk.map fun l =>
          let e := (flt l).getD (0, 0, 0, false)
          ⟨l, 0, 0, 0, 0, 0, .parked e.1 e.2.1 tick (if ligBound G then e.2.2.1 else 0) e.2.2.2, 0⟩ }
    (G2.addOp o, maskOf pk)

def LaneOp.applyTo (op : LaneOp) (G : Group) (K : Gang) (act pc tick id : Nat) : Group × Nat :=
  op.applyOn G K act act pc tick id

/-- A lane instruction issued by the gang on its port, with the checks of R90: run-time ILLEGAL (R66), LIGDIV (R118),
then its effect; an ECC or DOMAIN fault stops the gang after it (R172). -/
def runLane (op : LaneOp) (s : State) : State :=
  onCur s fun x =>
    if op.perms.any (permBad x.G.geo.w) then s.trap x 0x01 op.i.opc
    else if ligDiv x.G x.K op.hd then s.trap x 0x0D op.i.opc
    else
      let r := op.applyTo x.G x.K (actMask x.G x.K op.hd) x.K.pc s.tick s.nextId
      let K := x.K.adv op.hd s.tick
      s.fresh.finish x r.1 { K with stopped := K.stopped || r.2 != 0 }

/-! ### Uniform instructions (R44, R147) -/

/-- A register as a uniform instruction reads it, from FIRSTLANE(). -/
def uRd (x : Cur) (r : Reg) : Rd := readReg x.G x.K.depth x.K.first r (2 ^ 64 - 1)
def uVal (x : Cur) (r : Reg) : Nat := (uRd x r).v
def uFreed (x : Cur) (r : Reg) : Bool := (uRd x r).freed

/-- Writes a value into register r of every active lane of the gang (R44). -/
def Group.uPut (G : Group) (K : Gang) (r : Reg) (v : Nat) : Group :=
  G.onLanes K.mask fun _ L => L.set (rowOf K.depth r) v

/-- Writes a predicate in every active lane of the gang. -/
def Group.uPutPred (G : Group) (K : Gang) (p : Prd) (v : Bool) : Group :=
  G.onLanes K.mask fun _ L => L.setPred p.toNat v

/-- The word that a uniform read finds uncorrectable, if any of the registers is (R172, R185). -/
def uBad (x : Cur) (rs : List Reg) : Option Nat := rs.findSome? fun r => (uRd x r).bad

/-- R52: the gang does not hold every slice of its group that has not retired. -/
def mxSplit (x : Cur) : Bool := x.K.slices != x.G.unretired

/-- What a uniform instruction checks before its guard (R90): the cause of a trap, and whether it has read its sources. -/
abbrev Pre := Cur → Option (Nat × Bool)
def noPre : Pre := fun _ => none
/-- MXSPLIT (R52). -/
def wholePre : Pre := fun x => if mxSplit x then some (0x0C, false) else none
/-- A run-time ILLEGAL of the instruction's own fields. -/
def illPre (c : Cur → Bool) : Pre := fun x => if c x then some (0x01, false) else none
/-- A run-time ILLEGAL of the operands `rs`, which have to be good, or of the state alone where `rs` is empty; the guard has to hold.
Every ILLEGAL belongs to step 2 of R90, before PRIV and MXSPLIT (log 106). -/
def opIll (h : Hd) (rs : List Reg) (c : Cur → Bool) : Pre := fun x =>
  if uniGuard x.G x.K h && (uBad x rs).isNone && c x then some (0x01, !rs.isEmpty) else none
/-- The first check that fails. -/
def Pre.and (p q : Pre) : Pre := fun x => match p x with | some e => some e | none => q x
/-- A check of steps 3 and 4 after an `opIll` of operands, which have been read then where the guard holds (R28, R90). -/
def Pre.read (h : Hd) (q : Pre) : Pre := fun x => (q x).map fun e => (e.1, e.2 || uniGuard x.G x.K h)

/-- A uniform instruction: its checks; a failed guard does nothing but advance, `ll` saying whether it still counts in
its clause (R74, R147); an uncorrectable source is an ECC fault of the gang; otherwise `f` is its effect. -/
def runU (ll : Bool) (i : Instr) (h : Hd) (pre : Pre) (rs : List Reg) (s : State) (f : Cur → State) : State :=
  onCur s fun x =>
    match pre x with
    | some (c, rd) => s.trapFreed x (rd && rs.any (uFreed x)) c i.opc
    | none =>
      if !uniGuard x.G x.K h then s.finish x x.G (if ll then x.K.advLL h s.tick else x.K.adv h s.tick)
      else match uBad x rs with
        | some n => s.uniFault x (rs.any (uFreed x)) 0x0E n i.opc
        | none => f { x with G := x.G.stickIf (rs.any (uFreed x)) freedBit }
def runUni (i : Instr) (h : Hd) (pre : Pre) (rs : List Reg) (s : State) (f : Cur → State) : State := runU false i h pre rs s f
def runUniLL (i : Instr) (h : Hd) (pre : Pre) (rs : List Reg) (s : State) (f : Cur → State) : State := runU true i h pre rs s f

/-- Ends a class P uniform instruction: the group as changed, the gang advanced. -/
def State.doneP (s : State) (x : Cur) (h : Hd) (G : Group) : State := s.finish x G (x.K.adv h s.tick)

/-- Ends a long-latency uniform instruction that completed in the pipeline. -/
def State.doneLL (s : State) (x : Cur) (h : Hd) (G : Group) : State := s.finish x G (x.K.advLL h s.tick)

/-- Issues a long-latency uniform operation kept by the group: its flag rises, it is `busy`; `rs` are parts of memory that it acts on,
each with its virtual and physical address and bytes. -/
def State.startOpOn (s : State) (x : Cur) (i : Instr) (h : Hd) (a b : Nat) (rs : List (Nat × Nat × Nat)) : State :=
  let l (r : Nat × Nat × Nat) : OpLane := ⟨x.K.first, r.1, r.2.1, 0, r.2.2, 0, .busy, 0⟩
  let o : Op :=
    { id := s.nextId, kind := .uni, instr := i, pc := x.K.pc, flag := x.K.llFlag, slices := x.K.slices,
      mask := x.K.mask, depth := x.K.depth, ctx := x.K.clause, tick := s.tick, x := a, y := b,
      lanes := l (0, 0, 0) :: rs.map l }
  s.fresh.finish x ((x.G.flagUp x.K.llFlag).addOp o) (x.K.advLL h s.tick)

def State.startOp (s : State) (x : Cur) (i : Instr) (h : Hd) (a b : Nat) : State := s.startOpOn x i h a b []

/-- The identifier of the operation that `startOp` or `startEng` makes. -/
def State.newId (s : State) : Nat := s.nextId

/-- A uniform operation's flag falls and it leaves the group (R74). -/
def Group.endOp (G : Group) (o : Op) : Group := (G.flagDown o.flag).dropOp o.id

/-- R148 for an operation that has already issued: the gang that issued it is parked at the instruction. -/
def State.lateFault (s : State) (g : Nat) (o : Op) (cause addr : Nat) (sub : Bool := false) : State :=
  s.onGroup g fun G =>
    let ev : FaultEv :=
      { tick := s.tick, lane := lowBit o.mask, lanes := o.mask, pc := o.pc, eret := o.pc, cause := cause, addr := addr,
        limb := 0, sub := sub, slices := o.slices, opc := o.instr.opc, op := none }
    let G := G.endOp o
    { G with
      evs := G.evs ++ [ev]
      gangs := G.gangs.map fun K =>
        if K.slices &&& o.slices != 0 then
          { K with pc := o.pc, clause := o.ctx, st := .parked, hold := .none, stopped := true }
        else K }

/-- The gangs that hold lanes of a mask stop (R172). -/
def Group.stopLanes (G : Group) (m : Nat) : Group :=
  { G with gangs := G.gangs.map fun K => if slicesLanes K.slices &&& m != 0 then { K with stopped := true } else K }

/-! ### Engine operations (R232) -/

def State.eng? (s : State) (e : Nat) : Option Eng := s.eng.ops.find? fun o => o.id == e
def State.setEng (s : State) (o : Eng) : State :=
  { s with eng := { s.eng with ops := s.eng.ops.map fun x => if x.id = o.id then o else x } }
def State.addEng (s : State) (o : Eng) : State := { s with eng := { s.eng with ops := s.eng.ops ++ [o] } }
def State.dropEng (s : State) (e : Nat) : State :=
  { s with eng := { s.eng with ops := s.eng.ops.filter fun o => o.id != e } }

def State.mkEng (s : State) (x : Cur) (kind : EngKind) (opc : Nat) (started : Bool) : Eng :=
  { id := s.nextId, kind := kind, gid := x.g, bid := x.G.geo.bid, rid := ((s.block? x.G.geo.bid).map (·.rid)).getD 0,
    core := x.G.geo.core, flag := x.K.llFlag, pc := x.K.pc, opc := opc, started := started, heldIn := none,
    rel := none, fail := none, proofs := [], srcs := [] }

/-- Issues an engine operation: its flag rises and the device keeps it (R56). -/
def State.startEng (s : State) (x : Cur) (h : Hd) (e : Eng) : State :=
  (s.fresh.addEng e).finish x (x.G.flagUp x.K.llFlag) (x.K.advLL h s.tick)

/-- An engine operation ends: it leaves the device, and its flag falls where its group still exists (R39, R183). -/
def State.endEng (s : State) (e : Eng) : State :=
  (s.dropEng e.id).onGroup e.gid fun G => if G.ended then G else { G.flagDown e.flag with engtime := s.tick + 1 }

/-! ### Trace records (R359, R360) -/

def State.ten (s : State) : Bool := bit s.tr.tctl 0

/-- Writes one trace record as R180 writes a log's, or counts it in TLOST. -/
def State.traceRec (s : State) (kind b9 h10 a b data : Nat) : State :=
  if !s.ten then s
  else if (s.tr.head + 2 ^ 64 - s.tr.tail) % 2 ^ 64 < 2 ^ s.tr.tsize then
    let r := s.tick % 2 ^ 64 + kind * 2 ^ 64 + b9 % 256 * 2 ^ 72 + h10 % 2 ^ 16 * 2 ^ 80 + a % 2 ^ 64 * 2 ^ 128
      + b % 2 ^ 64 * 2 ^ 192 + data % 2 ^ 256 * 2 ^ 256
    let s := s.homeWriteN (canon (s.tr.tbase + 64 * (s.tr.head % 2 ^ s.tr.tsize))) (natBytes 64 r)
    { s with tr := { s.tr with head := (s.tr.head + 1) % 2 ^ 64 } }
  else { s with tr := { s.tr with tlost := (s.tr.tlost + 1) % 2 ^ 64 } }

/-- CAPT and TEN (R363). -/
def State.capturing (s : State) : Bool := s.ten && bit s.tr.tctl 3

/-- Trace records of an access that arrives: one for each 32 bytes. -/
def State.recordData (s : State) (kind who addr ordsc n data : Nat) : State :=
  if !s.capturing then s
  else (List.range ((n + 31) / 32)).foldl (fun (t : State) i =>
    t.traceRec kind (min 32 (n - 32 * i)) who (addr + 32 * i) ordsc (data / 2 ^ (256 * i) % 2 ^ (8 * min 32 (n - 32 * i)))) s

/-! ### Lane-cycle counters (R362) -/

def State.lcen (s : State) : Bool := bit s.tr.tctl 4

/-- Adds to the counter of a class of a core: of the first enabled PC range that holds the address, or unranged. -/
def State.addLc (s : State) (c : Nat) (pc : Option Nat) (cls n : Nat) : State :=
  let r := match pc with
    | none => 16
    | some a =>
      match s.tr.ranges.find? fun e => bit e.2 64 && decide (fld e.2 54 2 ≤ a / 4) && decide (a / 4 ≤ fld e.2 118 66) with
      | some e => e.1
      | none => 16
  let k := c * 2 ^ 16 + r * 8 + cls
  if n = 0 then s else { s with tr := { s.tr with lc := SMap.put s.tr.lc k ((SMap.getD s.tr.lc k 0 + n) % 2 ^ 64) } }

/-- Counts the positions of a gang that issues an instruction with guard `h`, lane or uniform, and marks its slices. -/
def State.countLanes (s : State) (G : Group) (K : Gang) (h : Hd) (uni : Bool) : State :=
  if !s.lcen then s
  else
    let c := G.geo.core
    let ls := (bitsOf (slicesLanes K.slices) 64)
    let act (l : Nat) : Bool := if uni then uniGuard G K h else guardOk G h l
    let n (p : Nat → Bool) : Nat := (ls.filter p).length
    let a := n fun l => K.mask.testBit l && act l
    let d := n fun l => !K.mask.testBit l && !G.done.testBit l
    let f := n fun l => K.mask.testBit l && !act l
    let z := n fun l => !K.mask.testBit l && G.done.testBit l
    let s1 := (((s.addLc c (some K.pc) 0 a).addLc c (some K.pc) 1 d).addLc c (some K.pc) 2 f).addLc c (some K.pc) 3 z
    { s1 with tr := { s1.tr with busy := SMap.put s1.tr.busy c (SMap.getD s1.tr.busy c 0 ||| K.slices * 2 ^ G.geo.slice0) } }

/-! ### Fault logs (R180–R183, R361) -/

def State.regionAt (s : State) (addr : Nat) : Option Region :=
  (SMap.vals s.regions).find? fun r => r.addr == addr && r.live

/-- A field of an RCB (R343). -/
def State.rcbNum (s : State) (a off n : Nat) : Nat := s.homeRead (canon (a + off)) n

/-- The RCB of a chain that supplies group g: the root supplies every group. -/
def State.supplier (s : State) (g : Nat) : List Nat → Nat
  | [] => 0
  | [a] => a
  | a :: as => if bit (s.rcbNum a 0x18 8) g then a else State.supplier s g as

/-- The log of the nearest of a chain of regions whose log is not 0 (R182): as its launch resolved it, or as its RCB reads now where
it is not live. -/
def State.logOf (s : State) : List Nat → Option Nat
  | [] => none
  | a :: as =>
    let f := match s.regionAt a with
      | some r => r.rcb.flog
      | none => s.rcbNum (s.supplier 1 (a :: as)) 0x38 8
    if f = 0 then State.logOf s as else some f

/-- Whether a log size is usable (R180). -/
def logSizeOk (n : Nat) : Bool := n != 0 && decide (n ≤ 65536) && 2 ^ n.log2 == n

/-- Writes one 64-byte record into the log at `log`, or adds one to LOST (R180). -/
def State.logWrite (s : State) (log : Nat) (rec : Nat) : State :=
  let l := canon log
  let head := s.homeRead l 8
  let tail := s.homeRead (l + 8) 8
  let size := s.homeRead (l + 16) 4
  if logSizeOk size && decide ((head + 2 ^ 64 - tail) % 2 ^ 64 < size) then
    let s := s.homeWriteN (canon (log + 0x40 + 64 * (head % size))) (natBytes 64 rec)
    s.homeWrite l 8 (head + 1) true
  else s.homeWrite (l + 0x14) 4 (s.homeRead (l + 0x14) 4 + 1) true

/-- A record of R181. -/
def faultRec (tick rcb pc addr lanes cause sysCore blk grp kind status engine under opc eret : Nat) : Nat :=
  tick % 2 ^ 64 + rcb % 2 ^ 64 * 2 ^ 64 + pc % 2 ^ 64 * 2 ^ 128 + addr % 2 ^ 64 * 2 ^ 192 + lanes % 2 ^ 64 * 2 ^ 256
    + cause % 2 ^ 32 * 2 ^ 320 + sysCore % 2 ^ 19 * 2 ^ 352 + blk % 2 ^ 16 * 2 ^ 384 + grp % 2 ^ 8 * 2 ^ 400
    + kind * 2 ^ 408 + status % 2 ^ 8 * 2 ^ 416 + engine * 2 ^ 424 + under % 2 ^ 8 * 2 ^ 432 + opc % 2 ^ 8 * 2 ^ 440
    + eret % 2 ^ 64 * 2 ^ 448

/-- A fault that finds no log is counted in ORPHANS, with an ORPHAN trace record (R182, R361). -/
def State.orphan (s : State) (core pc rcb : Nat) : State :=
  let s := { s with tr := { s.tr with orphans := s.tr.orphans + 1 } }
  s.traceRec 3 0 core pc rcb 0

/-- R182, R183: the ENGINE record of a failed engine operation, to the issuing region's log or its nearest ancestor's. -/
def State.engineRec (s : State) (e : Eng) (engine status under addr : Nat) : State :=
  match s.region? e.rid with
  | none => s
  | some r =>
    let b := s.block? e.bid
    let rec_ := faultRec s.tick r.addr e.pc addr 0 0x12 (s.dev * 1024 + e.core) ((b.map (·.idx)).getD 0)
      (((s.group? e.gid).map (·.geo.gi)).getD 0) 2 status engine under e.opc 0
    match s.logOf (r.addr :: r.chain) with
    | some l => s.logWrite l rec_
    | none => s.orphan e.core e.pc r.addr

/-- Marks a proof spoiled by an atomic OR of the descriptor's STATE (R232, R265). -/
def State.spoil (s : State) (p : Proof) : State :=
  s.homeWrite (p.desc + 16) 8 (s.homeRead (p.desc + 16) 8 ||| 2) true
def State.spoilAll (s : State) (ps : List Proof) : State := ps.foldl State.spoil s

/-- The state word of an RCB (R348). -/
def State.rcbState (s : State) (addr : Nat) : Nat := s.homeRead (canon (addr + 0x20)) 8
def State.setRcbState (s : State) (addr code reason : Nat) : State :=
  s.homeWrite (canon (addr + 0x20)) 8 (code + 256 * reason) true

/-! ### Stopping for the handler (R174–R179) -/

/-- Whether a gang has stopped (R174). A hold before EXIT, BAR or a release has not issued its instruction yet. -/
def Gang.isStopped (K : Gang) : Bool :=
  K.stopped || (match K.hold with | .exit | .bar _ _ => true | _ => false) ||
    (match K.st with | .ready => false | _ => true)

/-- Whether an operation delays handler entry (R175): not parked, not an unpaired transfer, not an engine's. -/
def Op.delays (o : Op) : Bool := !o.completed && o.kind != .xfer

/-- R175: every gang with a live lane has stopped and every operation that must complete has. -/
def Group.entryDue (G : Group) : Bool :=
  G.pending && !G.ended && G.passed.isNone && (G.gangs.all Gang.isStopped) && !(G.ops.any Op.delays)

/-- The pending events: traps and uniform faults, and the parked lanes of operations (R176). -/
def Group.allEvents (G : Group) : List FaultEv :=
  G.evs ++ G.ownOps.flatMap fun o => o.lanes.filterMap fun l =>
    match l.st with
    | .parked c a t limb sub =>
      let k := G.gangs.find? fun K => K.slices.testBit (l.lane / 4)
      some
        { tick := t, lane := if ligBound G then l.lane / ligN G * ligN G + limb else l.lane, lanes := 2 ^ l.lane,
          pc := o.pc, eret := (k.map (·.pc)).getD 0, cause := c, addr := a, limb := limb, sub := sub,
          slices := 2 ^ (l.lane / 4), opc := if o.kind = .alu ∧ o.y ≠ 0 then o.y else o.instr.opc, op := some o.id }
    | _ => none

/-- R176: the earliest event, and on a tie the lowest lane. -/
def earliest : List FaultEv → Option FaultEv
  | [] => none
  | e :: es =>
    match earliest es with
    | none => some e
    | some f => if f.tick < e.tick ∨ (f.tick = e.tick ∧ f.lane < e.lane) then some f else some e

/-- FAULTLANES at entry (R176, R50). -/
def Group.faultLanes (G : Group) (e : FaultEv) : Nat :=
  if e.cause = 0x09 then G.liveLanes
  else
    ((G.ops.foldl (fun m o => m ||| o.parkedMask) 0) |||
      (G.gangs.foldl (fun m K => if K.st = .parked then m ||| K.mask else m) 0)) &&& G.liveLanes

/-- FAULTCAUSE (R70). -/
def causeWord (e : FaultEv) : Nat :=
  e.cause + 2 ^ 8 * (e.lane % 64) + 2 ^ 16 * (e.limb % 64) + (if e.sub then 2 ^ 31 else 0)

/-- The fault registers of a reported event (R176). -/
def Group.faultRegs (G : Group) (e : FaultEv) : FaultRegs :=
  ⟨e.pc, causeWord e, e.addr % 2 ^ 55, G.faultLanes e, e.tick, e.eret⟩

/-- The gang that holds an event. -/
def Group.holder (G : Group) (e : FaultEv) : Option Gang := G.gangs.find? fun K => K.slices &&& e.slices != 0

/-- R176, R177: taking the reported event. The fault registers are written, the stopped gangs are kept, and the handler
runs as one gang over every slice and live lane at HANDLER, at the reported gang's depth. -/
def Group.enterHandler (G : Group) (e : FaultEv) (K : Gang) (pc id tick : Nat) : Group :=
  let hk : Gang :=
    { id := id, pc := pc, slices := G.unretired, mask := G.liveLanes, depth := K.depth, split := 0, st := .ready,
      clause := none, hold := .none, watch := none, wake := none, last := tick, offer := 0, stopped := false, rtime := K.rtime }
  { G with
    fregs := G.faultRegs e
    handler := some ⟨G.gangs, G.dstacks, G.recs, K.id, e.eret, G.evs.erase e, id⟩
    gangs := [hk]
    dstacks := G.dstacks.map fun _ => []
    recs := []
    evs := [] }

/-- R179 step 1 for one gang: the reported gang takes ERETPC, keeping its clause context only where ERETPC still holds
the value written at entry (R72); a gang with a trap or fault still to be reported stays PARKED, and one that a JOINCYCLE still to be
reported names waits as it did (R176). -/
def Gang.resume (evs : List FaultEv) (rep eret eret0 : Nat) (K : Gang) : Gang :=
  let st := if evs.any fun e => e.cause != 0x09 && e.slices &&& K.slices != 0 then .parked
    else match K.st with
      | .parked => .ready
      | .waitJoin r j => if K.id = rep then .ready else .waitJoin r j
      | st => if K.id = rep ∧ eret ≠ eret0 then .ready else st
  let K := { K with st := st, stopped := decide (st = .parked), hold := .none, wake := if st = .sleep then K.wake else none }
  if K.id = rep then { K with pc := eret, clause := if eret = eret0 then K.clause else none } else K

/-- R179 step 1: leaving the handler. Every gang, stack and record returns to the state it stopped in. -/
def Group.leaveHandler (G : Group) : Group :=
  match G.handler with
  | none => G
  | some h =>
    { G with
      gangs := h.gangs.map (Gang.resume h.evs h.rep G.fregs.eret h.eret)
      dstacks := h.dstacks
      recs := h.recs
      evs := h.evs
      handler := none }

/-- A group of a resident block that has not passed a fault out (R37, R182). -/
def State.groupRuns (s : State) (G : Group) : Bool :=
  !G.ended && G.passed.isNone && ((s.block? G.geo.bid).any fun b => b.st == .resident && !b.faulted)

/-- The flags that a header's WAIT names are clear (R41). -/
def Group.clear (G : Group) (wait : Nat) : Bool := (bitsOf wait 12).all fun f => G.flag f == 0

/-- The wait mask of a gang in WAITFLAG, whose header its clause context holds. -/
def Gang.waitMask (K : Gang) : Nat := ((K.clause.map (·.hdr)).getD 0) % 2 ^ 12

/-- A gang that is READY: a gang in WAITFLAG leaves that state once its flags are clear, and no clause with a wait starts while a
fault of the group is pending (R40, R174). -/
def Gang.canIssue (G : Group) (K : Gang) : Bool :=
  K.hold == .none && !K.stopped && (K.st == .ready || (K.st == .waitFlag && !G.pending && G.clear K.waitMask))

/-- Adds to a region counter, which stops at its maximum (R195). -/
def State.count (s : State) (rid i n mx : Nat) : State :=
  s.onRegion rid fun R => { R with cnt := setAt R.cnt i (min mx (((R.cnt[i]?).getD 0) + n)) }

/-- Every divergence the handler opened is closed (R177). -/
def Group.closed (G : Group) : Bool := G.gangs.length == 1 && G.recs.isEmpty && G.dstacks.all List.isEmpty

/-- R182: resuming a group whose fault was passed to the parent: the gang that holds the recorded event takes ERETPC. A
fault passed from within the handler leaves the handler (log 33). -/
def Group.resumePassed (G : Group) : Group :=
  match G.passed with
  | none => G
  | some (rep, eret0) =>
    if G.handler.isSome then
      let H : Group := { G with handler := G.handler.map fun (h : HandlerCtx) => { h with eret := eret0 } }
      { H.leaveHandler with passed := none }
    else { G with gangs := G.gangs.map (Gang.resume G.evs rep G.fregs.eret eret0), passed := none }

/-- R178: the fault passes to the parent: the fault registers are written, the gang that holds the event is kept. -/
def Group.passOut (G : Group) (e : FaultEv) : Group :=
  { G with
    fregs := G.faultRegs e
    evs := G.evs.erase e
    passed := some ((((G.holder e).map (·.id)).getD 0), e.eret) }

end Sys2Proof.Machine
end

