-- ==== Sys2Proof/Machine/Operands.lean ====
section
/-! DEFINITION. Operand forms of the lane and uniform instructions: permuted sources, immediates, elements (R61, R64–R66,
R80, R85, R115). -/

namespace Sys2Proof.Machine

/-- Width in bits of an integer element (R61). -/
def etW : ET → Nat
  | .b => 8
  | .h => 16
  | .w => 32
  | .d => 64

/-- Every bit of a register. -/
def allBits : Nat := 2 ^ 64 - 1

/-- SRC(l, s): a permuted source of lane l (R29, R66). -/
def srcRd (G : Group) (K : Gang) (l : Nat) (s : Src) (used : Nat) : Rd :=
  readLane G K (permLane G.geo.w s.perm l) s.r used

/-- The value of a permuted source. -/
def srcV (G : Group) (K : Gang) (l : Nat) (s : Src) : Nat := (srcRd G K l s allBits).v

/-- A register of the lane itself: source c, a destination that is read, an address (R79, R136, R214). -/
def ownRd (G : Group) (K : Gang) (l : Nat) (r : Reg) (used : Nat) : Rd := readLane G K l r used
def ownV (G : Group) (K : Gang) (l : Nat) (r : Reg) : Nat := (ownRd G K l r allBits).v

/-- `n` copies of a `w`-bit pattern, side by side. -/
def replicateBits (w v : Nat) : Nat → Nat
  | 0 => 0
  | n + 1 => v + 2 ^ w * replicateBits w v n

/-- The 64-bit pattern of an EI immediate for elements of width w (R80). -/
def immV (w : Nat) (k : IKind) (v : BitVec 24) : Nat :=
  match k with
  | .sext => replicateBits w (wrap w (sext 24 v.toNat)) (64 / w)
  | .fp32 => replicateBits 32 (v.toNat * 2 ^ 8) 2
  | .rep16 => replicateBits 16 (v.toNat % 2 ^ 16) 4

/-- BSRC(l) (R115). -/
def bsrcV (G : Group) (K : Gang) (l w : Nat) (b : BOp) : Nat :=
  match b with
  | .reg s => srcV G K l s
  | .imm k v => immV w k v

/-- The register reads that BSRC makes. -/
def bsrcRd (G : Group) (K : Gang) (l : Nat) (b : BOp) (used : Nat) : List Rd :=
  match b with
  | .reg s => [srcRd G K l s used]
  | .imm _ _ => []

/-- The permutation that source b has, if any. -/
def bopPerms : BOp → List (BitVec 8)
  | .reg s => [s.perm]
  | .imm _ _ => []

/-- The register that a last-use mark frees (R64). -/
def srcFrees (s : Src) : List Reg := if s.last then [s.r] else []
def rlFrees (s : RL) : List Reg := if s.last then [s.r] else []
def bopFrees : BOp → List Reg
  | .reg s => srcFrees s
  | .imm _ _ => []
/-- A last use of a pair frees both registers (R117). -/
def srcPairFrees (s : Src) : List Reg := if s.last then [s.r, s.r + 1] else []
def rlPairFrees (s : RL) : List Reg := if s.last then [s.r, s.r + 1] else []

/-- Element i of width w of a register. -/
def elem (w x i : Nat) : Nat := x / 2 ^ (w * i) % 2 ^ w

/-- The register whose element i is `f i`, for `n` elements of width w. -/
def elems (w : Nat) (f : Nat → Nat) : Nat → Nat
  | 0 => 0
  | n + 1 => elems w f n + f n % 2 ^ w * 2 ^ (w * n)

/-- Applies a two-operand operation element by element (R115). -/
def elems2 (w : Nat) (f : Nat → Nat → Nat) (x y : Nat) : Nat := elems w (fun i => f (elem w x i) (elem w y i)) (64 / w)
def elems1 (w : Nat) (f : Nat → Nat) (x : Nat) : Nat := elems w (fun i => f (elem w x i)) (64 / w)
def elems3 (w : Nat) (f : Nat → Nat → Nat → Nat) (x y z : Nat) : Nat :=
  elems w (fun i => f (elem w x i) (elem w y i) (elem w z i)) (64 / w)

/-- A result that is one register. -/
def LaneRes.reg (row v : Nat) : LaneRes := ⟨[(row, v)], [], false, none⟩
/-- A result that is a register pair (R61). -/
def LaneRes.pair (row lo hi : Nat) : LaneRes := ⟨[(row, lo), (row + 1, hi)], [], false, none⟩
/-- A result that is one predicate. -/
def LaneRes.prd (p : Prd) (v : Bool) : LaneRes := ⟨[], [(p.toNat, v)], false, none⟩
/-- A lane fault. -/
def LaneRes.flt (cause : Nat) : LaneRes := ⟨[], [], false, some cause⟩

/-- R115 with sources a and b: `f` gets the group and both registers. -/
def laneAB (i : Instr) (h : Hd) (w used : Nat) (d : Reg) (a : Src) (b : BOp) (f : Group → Nat → Nat → Nat) : LaneOp where
  i := i
  hd := h
  perms := a.perm :: bopPerms b
  reads G K l := srcRd G K l a used :: bsrcRd G K l b used
  frees := srcFrees a ++ bopFrees b
  eff G K _ l := .reg (rowOf K.depth d) (f G (srcV G K l a) (bsrcV G K l w b))

/-- R115 with sources a, b and c, all registers. -/
def laneABC (i : Instr) (h : Hd) (d : Reg) (a b : Src) (c : RL) (f : Group → Nat → Nat → Nat → Nat) : LaneOp where
  i := i
  hd := h
  perms := [a.perm, b.perm]
  reads G K l := [srcRd G K l a allBits, srcRd G K l b allBits, ownRd G K l c.r allBits]
  frees := srcFrees a ++ srcFrees b ++ rlFrees c
  eff G K _ l := .reg (rowOf K.depth d) (f G (srcV G K l a) (srcV G K l b) (ownV G K l c.r))

/-- R115 with source a alone. -/
def laneA (i : Instr) (h : Hd) (used : Nat) (d : Reg) (a : Src) (f : Group → Nat → Nat) : LaneOp where
  i := i
  hd := h
  perms := [a.perm]
  reads G K l := [srcRd G K l a used]
  frees := srcFrees a
  eff G K _ l := .reg (rowOf K.depth d) (f G (srcV G K l a))

/-- A compare of element 0 of width w that writes a predicate (R127, R133). -/
def laneCmp (i : Instr) (h : Hd) (w : Nat) (pd : Prd) (a : Src) (b : BOp) (f : Group → Nat → Nat → Bool) : LaneOp where
  i := i
  hd := h
  perms := a.perm :: bopPerms b
  reads G K l := srcRd G K l a (2 ^ w - 1) :: bsrcRd G K l b (2 ^ w - 1)
  frees := srcFrees a ++ bopFrees b
  eff G K _ l := .prd pd (f G (srcV G K l a % 2 ^ w) (bsrcV G K l w b % 2 ^ w))

/-! ### Uniform operands (R85) -/

/-- Operand b of a uniform ALU instruction. -/
def uopV (x : Cur) : UOp → Nat
  | .reg r => uVal x r
  | .imm v => wrap 64 (sext 24 v.toNat)
/-- The register that operand b reads. -/
def uopRegs : UOp → List Reg
  | .reg r => [r]
  | .imm _ => []

/-- A target `off` words from an address, in the program space of 55 bits (R84, R208). -/
def wordTarget (pc w off : Nat) : Nat := wrap 64 ((pc : Int) + 4 * sext w off)

end Sys2Proof.Machine
end

