-- ==== Sys2Proof/Machine/Cache.lean ====
section
/-! DEFINITION. A core's L1 (R201, R257–R260), translation as an access makes it (R208–R213), SP and its windows
(R189), and stash lines (R196–R198). -/

namespace Sys2Proof.Machine

/-! ### The write of a line's bytes at its home (R259) -/

/-- Writes the bytes of a line that a mask marks. -/
def State.pokeMask (s : State) (line data mask : Nat) : State :=
  (List.range 128).foldl (fun s i => if mask.testBit i then s.pokeN (line + i) 1 (lineByte data i) else s) s

/-- A write of some bytes of a line performed at its home: WT of an HC line, watches, and the watchers' order. -/
def State.homeMerge (s : State) (line data mask : Nat) (hc : Bool) : State :=
  ((((s.wrote line hc).enterLlc line).pokeMask line data mask).trigger line).countHit line

/-- R217: the group's WCTMAX takes a write completion time. -/
def State.raiseWct (s : State) (g w : Nat) : State := s.onGroup g fun G => { G with wctmax := max G.wctmax w }

/-! ### L1 -/

/-- Ways of the CA role (R187). -/
def Core.ways (k : Core) : Nat := k.qAt 2 - k.qAt 1
/-- The set of a line (R201). -/
def caSet (line : Nat) : Nat := line / 128 % 256

/-- Whether a line's clean bytes may serve reads at a tick (R258): an HC copy only under its lease. -/
def CaLine.live (l : CaLine) (tick : Nat) : Bool := l.cc != 0 || decide (tick < l.expiry)
/-- The bytes that a read may take: dirty ones always, the others under the lease. -/
def CaLine.readable (l : CaLine) (tick : Nat) : Nat := l.dirty ||| (if l.live tick then l.valid else 0)

def Core.caLine (k : Core) (line : Nat) : Option CaLine := SMap.get? k.ca line
def Core.setCa (k : Core) (line : Nat) (l : CaLine) : Core := { k with ca := SMap.put k.ca line l }
/-- Poison keys of CA words: by canonical address (R185). -/
def caWord (pa : Nat) : Nat := 2 ^ 60 + pa / 8
/-- A line's words lose their poison marks: they are fetched again, or leave L1 (R185). -/
def Core.caClean (k : Core) (line : Nat) : Core :=
  { k with poison := k.poison.filter fun e => !(decide (caWord line ≤ e.1) && decide (e.1 < caWord line + 16)) }

/-- Takes a line out of L1. -/
def Core.caDrop (k : Core) (line : Nat) : Core :=
  { k.caClean line with ca := SMap.del k.ca line, vord := SMap.upd k.vord (caSet line) fun o => o.erase line }

/-- The role of a bank under quoins (R187): 0 RF, 1 SP, 2 CA, 3 MX. -/
def roleOf (q : List Nat) (bank : Nat) : Nat :=
  if bank < (q[0]?).getD 0 then 0 else if bank < (q[1]?).getD 0 then 1 else if bank < (q[2]?).getD 0 then 2 else 3

/-- A role surrenders a bank (R191). -/
def surrenders (q q' : List Nat) (role bank : Nat) : Bool := roleOf q bank == role && roleOf q' bank != role

/-- Whether a move involves a bank (R193). -/
def involves (q q' : List Nat) (bank : Nat) : Bool :=
  roleOf q bank != roleOf q' bank ||
    (q[0]? != q'[0]? && (decide (roleOf q bank ≤ 1) || decide (roleOf q' bank ≤ 1)))

/-- Whether a move in progress on the core involves a bank. -/
def Core.moving (k : Core) (bank : Nat) : Bool := match k.move with | some m => involves k.q m.q bank | none => false
/-- A move that changes q1 involves every register bank of its core (R193). -/
def Core.regsMove (k : Core) : Bool := match k.move with | some m => m.q[0]? != k.q[0]? | none => false
/-- Whether `n` bytes of SP at an offset meet a bank that a move involves. -/
def Core.spMoving (k : Core) (o n : Nat) : Bool :=
  (List.range 64).any fun i => k.moving i && decide (k.qAt 0 + o / 32768 ≤ i) && decide (i ≤ k.qAt 0 + (o + n - 1) / 32768)
/-- Whether an access through L1 meets such a bank: the line's, or any of the CA role where the line is not in L1. -/
def Core.caMoving (k : Core) (line : Nat) : Bool :=
  match k.caLine line with
  | some l => k.moving l.bank
  | none => (List.range 64).any fun i => k.moving i && roleOf k.q i == 2

/-- Where a hint puts a line in the victim order (R201). -/
def hintPlace (hint n : Nat) : Nat := match hint with | 1 => 0 | 2 => n | _ => n / 2

/-- A hit moves the line to the last place, unless it is a stream access. -/
def Core.caTouch (k : Core) (line hint : Nat) : Core :=
  if hint = 1 then k else { k with vord := SMap.upd k.vord (caSet line) fun o => o.erase line ++ [line] }

/-- R262: the first core whose access to a CP page is performed at the home owns it. -/
def State.takeCp (s : State) (page c : Nat) : State :=
  if (SMap.get? s.ms.cp page).isNone then { s with ms := { s.ms with cp := SMap.put s.ms.cp page c } } else s

/-- R331: stores or atomics whose home has become DOWN are lost, and LOSTW counts them. -/
def State.loseWrites (s : State) (n : Nat) : State := { s with fab := { s.fab with lostw := (s.fab.lostw + n) % 2 ^ 64 } }

/-- Whether a core is the recorded owner of a CP page (R262). -/
def State.ownsCp (s : State) (page c : Nat) : Bool := SMap.get? s.ms.cp page == some c
/-- Whether another core is the recorded owner of a CP page: an access performed at the home then raises ATTR (R210, R262). -/
def State.cpOther (s : State) (pte c : Nat) : Bool :=
  pteCC pte == 2 && (match SMap.get? s.ms.cp (ptePA pte) with | some o => o != c | none => false)

/-- The stores of a line have the WCT `w`: its writers' WCTMAX takes it, and so do the groups that they happen before (R217,
R253). -/
def State.lineWct (s : State) (l : CaLine) (w : Nat) : State :=
  l.hb.foldl (fun s g => s.onGroup g fun G => { G with hbw := max G.hbw w }) (l.writers.foldl (fun s g => s.raiseWct g w) s)

/-- A line once its stores have left it. -/
def CaLine.clean (l : CaLine) : CaLine := { l with dirty := 0, writers := [], hb := [], stores := 0 }

/-- Writes a line's dirty bytes home and keeps it clean; every writer's WCTMAX takes the WCT (R217, R259). A word that is
uncorrectable goes as it is stored, and raises nothing (log 139). -/
def State.writeBack (s : State) (c line : Nat) : State :=
  match (s.core c).caLine line with
  | none => s
  | some l =>
    if l.dirty = 0 then s
    else if !s.addrOk line then ((s.loseWrites l.stores).lineWct l s.tick).onCore c fun k => k.setCa line l.clean
    else
      let s1 := (s.homeMerge line l.data l.dirty (l.cc == 0)).lineWct l (s.wctOf line (l.cc == 0))
      let s2 := if l.cc = 2 then s1.takeCp l.page c else s1
      s2.onCore c fun k => k.setCa line l.clean

/-- Makes room for a line in its set: the next victim is written back and dropped while every way is taken. -/
def State.caRoom (s : State) (c line : Nat) : State :=
  let o := SMap.getD (s.core c).vord (caSet line) []
  if o.length < (s.core c).ways then s
  else match o with
    | v :: _ => (s.writeBack c v).onCore c fun k => k.caDrop v
    | [] => s

/-- The lowest bank of the CA role that holds no line of a set. -/
def Core.caBank (k : Core) (line : Nat) : Nat :=
  let used := k.ca.filterMap fun e => if caSet e.1 = caSet line then some e.2.bank else none
  (((List.range 64).find? fun b => decide (k.qAt 1 ≤ b) && decide (b < k.qAt 2) && !used.contains b)).getD 0

/-- Puts a line that is not in L1 into it at the place of its hint. -/
def State.caInsert (s : State) (c line hint : Nat) (l : CaLine) : State :=
  let s := s.caRoom c line
  s.onCore c fun k =>
    let k := k.setCa line { l with bank := k.caBank line }
    let o := SMap.getD k.vord (caSet line) []
    let n := hintPlace hint o.length
    { k with vord := SMap.put k.vord (caSet line) (o.take n ++ line :: o.drop n) }

/-- The bits of the word at `w` that the bytes [a, a + n) use. -/
def wordUse (w a n : Nat) : Nat :=
  (List.range 8).foldl (fun m i => if a ≤ w + i ∧ w + i < a + n then m + 255 * 2 ^ (8 * i) else m) 0
/-- The word of a line that an access finds uncorrectable: its address, and whether the bad bits lie beside the bytes used. -/
def Core.caPoison (k : Core) (pa n : Nat) : Option (Nat × Bool) :=
  ((List.range ((pa % 8 + n + 7) / 8)).map fun i => pa / 8 * 8 + 8 * i).findSome? fun a =>
    (SMap.get? k.poison (caWord a)).map fun b => (a, b.toNat &&& wordUse a pa n == 0)
/-- The pool address of a word of a line: its bank, set and place (R185, R187). -/
def Core.caPoolWord (k : Core) (a : Nat) : Nat :=
  ((k.caLine (lineOf a)).map (·.bank)).getD 0 * 4096 + caSet (lineOf a) * 16 + a % 128 / 8

/-- R257: a store written into L1, which allocates its line without a fill. -/
def State.caStore (s : State) (c g pa n v hint pte : Nat) : State :=
  let s := s.onCore c fun k => { k with poison := SMap.del (SMap.del k.poison (caWord pa)) (caWord (pa + n - 1)) }
  let line := lineOf pa
  let i := pa % 128
  match (s.core c).caLine line with
  | some l =>
    s.onCore c fun k =>
      (k.setCa line { l with
        data := lineWrite l.data i n v, valid := l.valid ||| byteMask i n, dirty := l.dirty ||| byteMask i n
        writers := if l.writers.contains g then l.writers else l.writers ++ [g], stores := l.stores + 1 }).caTouch line hint
  | none =>
    s.caInsert c line hint
      { data := lineWrite 0 i n v, valid := byteMask i n, dirty := byteMask i n, fill := s.tick, expiry := 0, time := 0,
        bank := 0, cc := pteCC pte, lc := pteLC pte, page := ptePA pte, writers := [g], hb := [], stores := 1 }

/-- A load that L1 serves: the value and the time of the copy, where every byte of it is readable. -/
def Core.caLoad (k : Core) (tick pa n : Nat) : Option (Nat × Nat) :=
  match k.caLine (lineOf pa) with
  | some l =>
    let m := byteMask (pa % 128) n
    if l.readable tick &&& m = m then some (lineRead l.data (pa % 128) n, l.time) else none
  | none => none

/-- The copy of a line that its home, or the far device, gives a fill: data, expiry, time (R258). -/
def State.serveFill (s : State) (line lc : Nat) (hc : Bool) (rem : Option Nat) : (Nat × Nat × Nat) × State :=
  let s := s.countHit line
  if s.isLocal line then
    let h := s.homeLine line
    let lx := s.lxOf line
    let e := s.leaseEnd lc
    let s1 := if hc then s.setHome line ⟨max lx e, h.wt, h.held⟩ else s.enterLlc line
    ((s.homeRead line 128, e, h.wt), s1)
  else
    match (SMap.get? s.ms.far line).filter fun f => decide (s.tick < f.expiry) || !hc with
    | some f => ((f.data, min f.expiry (s.leaseEnd lc), f.time), s)
    | none =>
      let d := match rem with | some r => respData r 128 | none => s.homeRead line 128
      let h := s.homeLine line
      let wt := match rem with | some r => respWt r | none => h.wt
      let e := s.leaseEnd lc
      let s1 := s.setHome line ⟨max (s.lxOf line) e, wt, h.held⟩
      ((d, e, wt), { s1 with ms := { s1.ms with far := SMap.put s1.ms.far line ⟨d, 0, s.tick, e, wt⟩ } })

/-- A fill of L1: the dirty bytes stay, the others are the copy's. -/
def State.caFill (s : State) (c line hint pte : Nat) (rem : Option Nat) : State :=
  let hc := pteCC pte = 0
  let r := s.serveFill line (pteLC pte) hc rem
  let s := r.2
  let s := if pteCC pte = 2 then s.takeCp (ptePA pte) c else s
  match (s.core c).caLine line with
  | some l =>
    s.onCore c fun k =>
      (if l.dirty = 0 then k.caClean line else k).setCa line { l with
        data := lineMerge r.1.1 l.data l.dirty, valid := allBytes, fill := s.tick, expiry := r.1.2.1, time := r.1.2.2
        cc := pteCC pte, lc := pteLC pte }
  | none =>
    s.caInsert c line hint
      { data := r.1.1, valid := allBytes, dirty := 0, fill := s.tick, expiry := r.1.2.1, time := r.1.2.2, bank := 0,
        cc := pteCC pte, lc := pteLC pte, page := ptePA pte, writers := [], hb := [], stores := 0 }

/-- R253, R254: the group has synchronised with other groups of its core. The stores that L1 still holds, and the writes whose
completion time is known, happen before what it does next, and a wider release of its own waits for them. -/
def State.coreJoin (s : State) (g : Nat) : State :=
  match s.group? g with
  | none => s
  | some G =>
    let w := s.groups.foldl (fun m e => if e.2.geo.core = G.geo.core then max m (max e.2.wctmax e.2.hbw) else m) 0
    (s.putGroup g { G with hbw := max G.hbw w }).onCore G.geo.core fun k =>
      { k with ca := k.ca.map fun e =>
          (e.1, if e.2.dirty = 0 || e.2.writers.contains g || e.2.hb.contains g then e.2 else { e.2 with hb := e.2.hb ++ [g] }) }

/-- R260: what an acquire at die, device or system scope drops from a core's L1 and fill-mode stash lines, and at system
scope from the device's LLC. -/
def State.selfInvalidate (s : State) (c scope time : Nat) : State :=
  if scope < 2 then s
  else
    let old := (s.core c).ca.filterMap fun e =>
      if e.2.dirty = 0 && e.2.cc == 0 && decide (e.2.fill < time) then some e.1 else none
    let s := s.onCore c fun k => old.foldl (fun k l => k.caDrop l) k
    let s := s.onCore c fun k =>
      { k with maps := k.maps.map fun m =>
          if m.copyIn then m
          else { m with lines := m.lines.map fun e =>
            if e.2.dirty = 0 && e.2.expiry != 0 && decide (e.2.fill < time) then (e.1, { e.2 with present := false }) else e } }
    if scope = 4 then { s with ms := { s.ms with far := s.ms.far.filter fun e => e.2.dirty != 0 || decide (time ≤ e.2.fill) } }
    else s

/-! ### Translation (R208–R213) -/

/-- The region whose tables translate for a group: its root. -/
def State.rootOf (s : State) (G : Group) : Nat := ((s.regionOf G).map (·.rcb.root)).getD 0

/-- The leaf of an address that a core's cache gives without a walk. -/
def State.tlbLeaf (s : State) (c root va : Nat) : Option Leaf := ((s.core c).walkTlb root va).2

/-- Caches the entries that a walk met (R211). -/
def State.tlbFill (s : State) (c : Nat) (p : SMap Nat) : State :=
  s.onCore c fun k => { k with tlb := p.foldl (fun m e => SMap.put m e.1 e.2) k.tlb }

/-- A translation from the core's cache, or else by a walk, whose entries are cached. -/
def State.translate (s : State) (c root va : Nat) : Option Leaf × State :=
  match s.tlbLeaf c root va with
  | some l => (some l, s)
  | none => ((s.walkC c root va).2, s.tlbFill c (s.walkC c root va).1)

/-- A walk would read a table whose address changes home, or dirty bytes of one in a bank of L1 that a move involves: it waits (R193, R205). -/
def State.walkHeld (s : State) (c root va : Nat) : Bool :=
  (s.tlbLeaf c root va).isNone &&
    (walkSlots (fun a => (SMap.get? (s.core c).tlb a).getD (s.coreRead c a 8)) root va).any fun a =>
      (SMap.get? (s.core c).tlb a).isNone && (!s.drained a ||
        ((s.core c).caLine (lineOf a)).any fun l => l.dirty != 0 && (s.core c).moving l.bank)

/-- Configuration space (R204). -/
def isConfig (pa : Nat) : Bool := paSpace pa == 4
def isHost (pa : Nat) : Bool := paSpace pa == 2

/-- R210: the checks of a translated access: PROT, then ATTR. `cfg` is the final physical address. -/
def State.pageFault (s : State) (c pte pa : Nat) (r w priv : Bool) : Option Nat :=
  if (r && !pteR pte) || (w && !pteW pte) || (!pteU pte && !priv) then some 0x05
  else if pteCC pte = 3 || (pteU pte && isConfig pa) || s.cpOther pte c then some 0x06
  else none

/-- How an access reaches memory: 0 through L1, 1 at the home LLC slice, 2 at the vault controller or outside the device's
memory (R201, R213, R330). The more restrictive of the hint and the page's policy applies. -/
def pathOf (pte pa hint : Nat) : Nat :=
  if paSpace pa != 0 || pteCpol pte = 2 then 2 else if pteCpol pte = 1 || hint = 3 then 1 else 0

/-- One lane's translated access: the physical address and entry, or a fault with its cause. -/
inductive Xl where
  | ok (pa pte : Nat)
  | flt (cause : Nat)
  | miss
  deriving DecidableEq, Repr

/-- What the cached translation gives an access; `miss` needs a walk. -/
def State.xlate (s : State) (c root va : Nat) (r w priv : Bool) : Xl :=
  match s.tlbLeaf c root va with
  | none => .miss
  | some l =>
    match s.pageFault c l.pte 0 r w priv with
    | some e => .flt e
    | none =>
      match s.leafPAC c l va with
      | none => .flt 0x04
      | some pa =>
        match s.pageFault c l.pte pa r w priv with
        | some e => .flt e
        | none => if s.addrOk pa then .ok pa l.pte else .flt 0x04

/-! ### SP and its windows (R187, R189) -/

/-- First address of the scratchpad aperture. -/
def apBase : Nat := 0x7FFFFFFFE00000
def inAperture (va : Nat) : Bool := decide (apBase ≤ va) && decide (va < 2 ^ 55)
/-- The peer apertures, which only COPY reaches (R214, R232). -/
def inPeer (va : Nat) : Bool := decide (0x7FFFFFFF600000 ≤ va) && decide (va < apBase)

/-- Bytes of the SP role (R187). -/
def Core.spSize (k : Core) : Nat := (k.qAt 1 - k.qAt 0) * 32768
/-- A block's window: start and bytes (R189). -/
def State.window (s : State) (b : Block) : Nat × Nat :=
  if b.whole then (0, (s.core b.core).spSize) else (b.own0, min b.ownLen ((s.core b.core).spSize - b.own0))

def Core.spByte (k : Core) (o : Nat) : Byte := SMap.getD k.sp o 0
def Core.spRead (k : Core) (o : Nat) : Nat → Nat
  | 0 => 0
  | n + 1 => (k.spByte o).toNat + 2 ^ 8 * Core.spRead k (o + 1) n
/-- A byte of SP that is written as zero leaves the list: unlisted bytes read zero. -/
def putByte (m : SMap Byte) (o : Nat) (v : Byte) : SMap Byte := if v = 0 then SMap.del m o else SMap.put m o v
def putBytes (m : SMap Byte) (o : Nat) : List Byte → SMap Byte
  | [] => m
  | b :: bs => putBytes (putByte m o b) (o + 1) bs
/-- Pool words of the SP role that a range meets, as keys of `poison` (R185). -/
def spWords (o n : Nat) : List Nat := (List.range ((o + n + 7) / 8 - o / 8)).map fun i => 2 ^ 32 + o / 8 + i
/-- Writes bytes of SP; a written word loses its poison mark (R185). -/
def Core.spWrite (k : Core) (o n v : Nat) : Core :=
  { k with sp := putBytes k.sp o (natBytes n v), poison := (spWords o n).foldl SMap.del k.poison }
/-- The pool word that a read of SP finds uncorrectable, as a pool address in words, and whether the bad bits lie beside the bytes
used (R185). -/
def Core.spPoison (k : Core) (o n : Nat) : Option (Nat × Bool) :=
  (spWords o n).findSome? fun w => (SMap.get? k.poison w).map fun b =>
    (k.qAt 0 * 4096 + (w - 2 ^ 32), b.toNat &&& wordUse (8 * (w - 2 ^ 32)) o n == 0)

/-! ### Stash lines (R196–R198) -/

/-- The mapping of a block that holds a window offset. -/
def Core.mapAt (k : Core) (bid o : Nat) : Option Mapping :=
  k.maps.find? fun m => m.bid == bid && decide (m.off ≤ o) && decide (o < m.off + 128 * m.n)
def Mapping.line (m : Mapping) (i : Nat) : StLine := SMap.getD m.lines i ⟨m.copyIn, 0, 0, 0, 0⟩
/-- Whether the bytes `mask` of a line are present to an access: in fill mode an HC lease must run for the bytes that no
store has written. A line without a lease has expiry 0. -/
def Mapping.here (m : Mapping) (i mask tick : Nat) : Bool :=
  let l := m.line i
  l.present && (m.copyIn || l.expiry == 0 || decide (tick < l.expiry) || l.dirty &&& mask == mask)
def Mapping.setLine (m : Mapping) (i : Nat) (l : StLine) : Mapping := { m with lines := SMap.put m.lines i l }
def Core.setMap (k : Core) (m : Mapping) : Core := { k with maps := k.maps.map fun x => if x.id = m.id then m else x }

/-- An SP access of a block: SPRANGE with the first offset outside the window, an absent stash line as mapping and line,
or the offset in SP. -/
inductive SpAt where
  | range (off : Nat)
  | absent (m line : Nat)
  | at (o : Nat)
  deriving DecidableEq, Repr

def State.spAt (s : State) (b : Block) (va n : Nat) : SpAt :=
  let o := va % 2 ^ 21
  let w := s.window b
  if w.2 < o + n then .range (max o w.2)
  else
    match (s.core b.core).mapAt b.id o with
    | some m => if m.here ((o - m.off) / 128) (byteMask ((o - m.off) % 128) n) s.tick then .at (w.1 + o) else .absent m.id ((o - m.off) / 128)
    | none => .at (w.1 + o)

/-- The time of a read of SP (R260): that of its copy in a fill-mode stash line, and 0 of a plain byte, which no cache copies. -/
def State.spTime (s : State) (b : Block) (va : Nat) : Nat :=
  match (s.core b.core).mapAt b.id (va % 2 ^ 21) with
  | some m => if m.copyIn then 0 else (m.line ((va % 2 ^ 21 - m.off) / 128)).time
  | none => 0

/-- Marks stored bytes of a stash line as dirty. -/
def Core.spDirty (k : Core) (bid o n : Nat) : Core :=
  match k.mapAt bid o with
  | some m =>
    let i := (o - m.off) / 128
    let l := m.line i
    k.setMap (m.setLine i { l with dirty := l.dirty ||| byteMask ((o - m.off) % 128) n })
  | none => k

/-- A store to SP by a lane of the block. -/
def State.spStore (s : State) (b : Block) (va n v : Nat) : State :=
  s.onCore b.core fun k => (k.spWrite ((s.window b).1 + va % 2 ^ 21) n v).spDirty b.id (va % 2 ^ 21) n

end Sys2Proof.Machine
end

