-- ==== Sys2Proof/Machine/Float.lean ====
section
/-! DEFINITION. Floating-point numbers (R93–R100, R131–R134): formats, exact values, rounding, arithmetic, conversions
and the special functions. Values are exact; only `encodeArith` and `encodeConv` round. -/

namespace Sys2Proof.Machine

/-- A format of R93: exponent bits, fraction bits; `e4` marks E4M3, which has no infinity. -/
structure Fmt where
  eb : Nat
  fb : Nat
  e4 : Bool
  deriving DecidableEq, Repr

def fmtE4 : Fmt := ⟨4, 3, true⟩
def fmtBf : Fmt := ⟨8, 7, false⟩
def fmtH : Fmt := ⟨5, 10, false⟩
def fmtS : Fmt := ⟨8, 23, false⟩

def FTfmt : FT → Fmt | .h => fmtH | .bf => fmtBf | .s => fmtS
def FFfmt : FF → Fmt | .f8 => fmtE4 | .bf => fmtBf | .h => fmtH | .s => fmtS

namespace Fmt
variable (f : Fmt)
def bias : Int := (2 : Int) ^ (f.eb - 1) - 1
def width : Nat := f.eb + f.fb + 1
/-- Exponent of the subnormal spacing. -/
def emin : Int := 1 - f.bias - f.fb
/-- Bits of the largest finite magnitude. -/
def maxBits : Nat := if f.e4 then 0x7E else (2 ^ f.eb - 1) * 2 ^ f.fb - 1
def infBits : Nat := (2 ^ f.eb - 1) * 2 ^ f.fb
/-- The canonical NaN (R93). -/
def nanBits : Nat := if f.e4 then 0x7F else f.infBits + 2 ^ (f.fb - 1)
def signBit : Nat := 2 ^ (f.eb + f.fb)
end Fmt

/-- An exact value: NaN, an infinity, or (−1)^neg × m × 2^e. -/
inductive FV where
  | nan
  | inf (neg : Bool)
  | fin (neg : Bool) (m : Nat) (e : Int)
  deriving DecidableEq, Repr

/-- The value of a bit pattern (R93); with `ftz`, a subnormal reads as zero of its sign (R97). -/
def decodeF (f : Fmt) (ftz : Bool) (x : Nat) : FV :=
  let neg := x / f.signBit % 2 == 1
  let ex := x / 2 ^ f.fb % 2 ^ f.eb
  let m := x % 2 ^ f.fb
  if f.e4 && x % 128 == 127 then .nan
  else if !f.e4 && ex == 2 ^ f.eb - 1 then (if m = 0 then .inf neg else .nan)
  else if ex = 0 then .fin neg (if ftz then 0 else m) f.emin
  else .fin neg (2 ^ f.fb + m) (f.emin + (ex - 1 : Nat))

/-- `m` × 2^e shifted to the exponent `q` ≥ e, rounded by the mode; the magnitude carries the sign `neg` (R95). -/
def shiftRound (mode : Rnd) (neg : Bool) (m : Nat) (sh : Nat) : Nat :=
  let lo := m / 2 ^ sh
  let rem := m % 2 ^ sh
  let up :=
    match mode with
    | .rne => decide (2 ^ sh < 2 * rem) || (2 * rem == 2 ^ sh && lo % 2 == 1)
    | .rtz => false
    | .rup => !neg && rem != 0
    | .rdn => neg && rem != 0
  if sh = 0 then m else if up then lo + 1 else lo

/-- The bits of the magnitude of m × 2^e rounded to the format with an unbounded exponent upward (R95): above
`maxBits` the value overflows. -/
def roundMag (f : Fmt) (mode : Rnd) (neg : Bool) (m : Nat) (e : Int) : Nat :=
  if m = 0 then 0
  else
    let q := max (e + (m.log2 : Int) - f.fb) f.emin
    let n := if q ≤ e then m * 2 ^ (e - q).toNat else shiftRound mode neg m (q - e).toNat
    (q - f.emin).toNat * 2 ^ f.fb + n

def signed (f : Fmt) (neg : Bool) (mag : Nat) : Nat := if neg then f.signBit + mag else mag

/-- Flushes a subnormal result to zero (R97). -/
def flush (f : Fmt) (ftz : Bool) (mag : Nat) : Nat := if ftz && decide (mag < 2 ^ f.fb) then 0 else mag

/-- An arithmetic result (R95–R97). -/
def encodeArith (f : Fmt) (mode : Rnd) (ftz : Bool) : FV → Nat
  | .nan => f.nanBits
  | .inf neg => signed f neg f.infBits
  | .fin neg m e =>
    let mag := roundMag f mode neg m e
    if f.maxBits < mag then
      let away := match mode with | .rne => true | .rtz => false | .rup => !neg | .rdn => neg
      signed f neg (if away then f.infBits else f.maxBits)
    else signed f neg (flush f ftz mag)

/-- A conversion result (R99): saturating, or with `nan` a NaN on overflow and the infinity of an infinite source. -/
def encodeConv (f : Fmt) (mode : Rnd) (nan ftz : Bool) : FV → Nat
  | .nan => f.nanBits
  | .inf neg => signed f neg (if nan && !f.e4 then f.infBits else if f = fmtS then f.infBits else f.maxBits)
  | .fin neg m e =>
    let mag := roundMag f mode neg m e
    if f.maxBits < mag then (if nan then f.nanBits else signed f neg f.maxBits)
    else signed f neg (flush f ftz mag)

/-- RNE32 (R29). -/
def rne32 (v : FV) : Nat := encodeArith fmtS .rne false v

namespace FV

def neg : FV → FV
  | .nan => .nan
  | .inf n => .inf (!n)
  | .fin n m e => .fin (!n) m e

def isNan : FV → Bool | .nan => true | _ => false
def isInf : FV → Bool | .inf _ => true | _ => false
def isNeg : FV → Bool | .nan => false | .inf n => n | .fin n _ _ => n
def isZero : FV → Bool | .fin _ 0 _ => true | _ => false

/-- A finite value's integer at exponent `q` ≤ e. -/
def toIntAt (n : Bool) (m : Nat) (e q : Int) : Int :=
  let v : Int := (m : Int) * 2 ^ (e - q).toNat
  if n then -v else v

/-- Exact sum (R96); the mode decides the sign of an exact zero of opposite signs. -/
def add (mode : Rnd) : FV → FV → FV
  | .nan, _ => .nan
  | _, .nan => .nan
  | .inf a, .inf b => if a = b then .inf a else .nan
  | .inf a, _ => .inf a
  | _, .inf b => .inf b
  | .fin a m e, .fin b n g =>
    let q := if m = 0 then g else if n = 0 then e else min e g
    let s := (if m = 0 then 0 else toIntAt a m e q) + (if n = 0 then 0 else toIntAt b n g q)
    if s = 0 then .fin (if a = b then a else mode == .rdn) 0 q
    else .fin (decide (s < 0)) s.natAbs q

/-- Exact product (R96). -/
def mul : FV → FV → FV
  | .nan, _ => .nan
  | _, .nan => .nan
  | .inf a, .inf b => .inf (a != b)
  | .inf a, .fin b n _ => if n = 0 then .nan else .inf (a != b)
  | .fin a m _, .inf b => if m = 0 then .nan else .inf (a != b)
  | .fin a m e, .fin b n g => .fin (a != b) (m * n) (e + g)

/-- Exact product by a power of two. -/
def scale (k : Int) : FV → FV
  | .fin a m e => .fin a m (e + k)
  | v => v

/-- −1, 0, 1 as a < b, a = b, a > b; neither is NaN. -/
def cmp : FV → FV → Int
  | .inf a, .inf b => if a = b then 0 else if a then -1 else 1
  | .inf a, _ => if a then -1 else 1
  | _, .inf b => if b then 1 else -1
  | .fin a m e, .fin b n g =>
    let q := if m = 0 then g else if n = 0 then e else min e g
    let d := (if m = 0 then 0 else toIntAt a m e q) - (if n = 0 then 0 else toIntAt b n g q)
    if d < 0 then -1 else if d = 0 then 0 else 1
  | _, _ => 0

end FV

/-- FADD, FSUB, FMUL and FFMA on bit patterns (R131). -/
def fAdd (f : Fmt) (mode : Rnd) (ftz : Bool) (x y : Nat) : Nat :=
  encodeArith f mode ftz ((decodeF f ftz x).add mode (decodeF f ftz y))
def fSub (f : Fmt) (mode : Rnd) (ftz : Bool) (x y : Nat) : Nat :=
  encodeArith f mode ftz ((decodeF f ftz x).add mode (decodeF f ftz y).neg)
def fMul (f : Fmt) (mode : Rnd) (ftz : Bool) (x y : Nat) : Nat :=
  encodeArith f mode ftz ((decodeF f ftz x).mul (decodeF f ftz y))
def fFma (f : Fmt) (mode : Rnd) (ftz : Bool) (x y z : Nat) : Nat :=
  encodeArith f mode ftz (((decodeF f ftz x).mul (decodeF f ftz y)).add mode (decodeF f ftz z))

/-- A pattern as a comparison reads it: under FTZ a subnormal is zero of its sign (R97). -/
def ftzBits (f : Fmt) (ftz : Bool) (x : Nat) : Nat :=
  if ftz && x / 2 ^ f.fb % 2 ^ f.eb == 0 then x / 2 ^ f.fb * 2 ^ f.fb else x

/-- a below b, with −0 below +0 (R132). -/
def fLess (f : Fmt) (x y : Nat) : Bool :=
  let a := decodeF f false x
  let b := decodeF f false y
  let c := a.cmp b
  if c = 0 then a.isNeg && !b.isNeg else decide (c < 0)

/-- FMIN and FMAX (R132). -/
def fMinMax (f : Fmt) (mx ftz : Bool) (x y : Nat) : Nat :=
  let x := ftzBits f ftz x
  let y := ftzBits f ftz y
  match (decodeF f false x).isNan, (decodeF f false y).isNan with
  | true, true => f.nanBits
  | true, false => y
  | false, true => x
  | false, false => if fLess f x y = mx then y else x

/-- FCMP (R133). -/
def fCmp (f : Fmt) (c : FCond) (ftz : Bool) (x y : Nat) : Bool :=
  let a := decodeF f ftz x
  let b := decodeF f ftz y
  let un := a.isNan || b.isNan
  let o := a.cmp b
  match c with
  | .eq => !un && o == 0
  | .ne => un || o != 0
  | .lt => !un && decide (o < 0)
  | .le => !un && decide (o ≤ 0)
  | .unord => un
  | .ord => !un

/-! ### Conversions (R98–R100) -/

def ITbits : IT → Nat | .i8 => 8 | .u8 => 8 | .i16 => 16 | .i32 => 32
def ITsgn : IT → Bool | .u8 => false | _ => true

def intMin (w : Nat) (s : Bool) : Int := if s then -(2 : Int) ^ (w - 1) else 0
def intMax (w : Nat) (s : Bool) : Int := if s then (2 : Int) ^ (w - 1) - 1 else (2 : Int) ^ w - 1

/-- The exact value of an integer. -/
def FV.ofInt (x : Int) : FV := .fin (decide (x < 0)) x.natAbs 0

/-- An exact value rounded to an integer by the mode (R95). -/
def roundInt (mode : Rnd) (neg : Bool) (m : Nat) (e : Int) : Int :=
  let n := if 0 ≤ e then m * 2 ^ e.toNat else shiftRound mode neg m (-e).toNat
  if neg then -(n : Int) else n

/-- Float to integer: rounded, clamped; NaN gives 0 (R99). -/
def fToInt (mode : Rnd) (w : Nat) (s : Bool) : FV → Nat
  | .nan => 0
  | .inf neg => wrap w (if neg then intMin w s else intMax w s)
  | .fin neg m e => wrap w (clampI (roundInt mode neg m e) (intMin w s) (intMax w s))

/-- Width of a CVT side. -/
def cvtDstW : CvtPair → Nat
  | .ff d _ => (FFfmt d).width
  | .i2f s _ => if s then 32 else 16
  | .f2i _ it => (ITbits it)
def cvtSrcW : CvtPair → Nat
  | .ff _ s => (FFfmt s).width
  | .i2f _ it => (ITbits it)
  | .f2i s _ => if s then 32 else 16

/-- One element of CVT (R99). -/
def cvtElem (k : CvtPair) (nan : Bool) (mode : Rnd) (ftz : Bool) (x : Nat) : Nat :=
  match k with
  | .ff d s => encodeConv (FFfmt d) mode nan ftz (decodeF (FFfmt s) ftz x)
  | .i2f s it =>
    encodeConv (if s then fmtS else fmtH) mode nan ftz (.ofInt (if (ITsgn it) then sext (ITbits it) x else x))
  | .f2i s it => fToInt mode (ITbits it) (ITsgn it) (decodeF (if s then fmtS else fmtH) ftz x)

/-- One element of CVTEF (R100): the narrowed element and the residue. -/
def cvtefElem (dst : FF) (nan : Bool) (mode : Rnd) (ftz : Bool) (x e : Nat) : Nat × Nat :=
  let t := fAdd fmtS .rne ftz x e
  let tv := decodeF fmtS ftz t
  let y := encodeConv (FFfmt dst) mode nan ftz tv
  let r := if tv.isNan || tv.isInf then 0
    else encodeArith fmtS .rne ftz (tv.add .rne (decodeF (FFfmt dst) ftz y).neg)
  (y, r)

/-! ### Special functions (R96, R134), correctly rounded from fixed-point values with a sticky bit -/

/-- Fraction bits of the fixed-point evaluations (log 7). -/
def fixP : Nat := 220

def irootAux (p n : Nat) : Nat → Nat → Nat
  | 0, r => r
  | k + 1, r => if (r + 2 ^ k) ^ p ≤ n then irootAux p n k (r + 2 ^ k) else irootAux p n k r

/-- floor of the p-th root of n. -/
def iroot (p n : Nat) : Nat := irootAux p n (n.log2 / p + 1) 0

/-- m with a sticky bit below it. -/
def sticky (m : Nat) (exact : Bool) : Nat := 2 * m + (!exact).toNat

/-- The exact quotient a × 2^ea / b as a value with a sticky bit, to at least 64 bits. -/
def quotient (neg : Bool) (a : Nat) (ea : Int) (b : Nat) : FV :=
  let k := b.log2 + 64
  .fin neg (sticky (a * 2 ^ k / b) (a * 2 ^ k % b == 0)) (ea - k - 1)

def ln2Aux : Nat → Nat
  | 0 => 0
  | k + 1 => ln2Aux k + 2 ^ fixP / ((k + 1) * 2 ^ (k + 1))
/-- ln 2 in fixed point. -/
def ln2Fix : Nat := ln2Aux fixP

def expAux (x : Nat) : Nat → Nat → Nat → Nat
  | 0, _, _ => 0
  | n + 1, k, t => t + expAux x n (k + 1) (t * x / 2 ^ fixP / (k + 1))
/-- e^x in fixed point for 0 ≤ x < 1. -/
def expFix (x : Nat) : Nat := expAux x 64 0 (2 ^ fixP)

def atanhAux (t2 : Nat) : Nat → Nat → Nat → Nat
  | 0, _, _ => 0
  | n + 1, k, p => p / (2 * k + 1) + atanhAux t2 n (k + 1) (p * t2 / 2 ^ fixP)
/-- ln y in fixed point for 1 ≤ y < 2. -/
def lnFix (y : Nat) : Nat :=
  let t := (y - 2 ^ fixP) * 2 ^ fixP / (y + 2 ^ fixP)
  2 * atanhAux (t * t / 2 ^ fixP) 76 0 t

/-- 2^x for a finite x with at most `fixP` fraction bits. -/
def exp2V (neg : Bool) (m : Nat) (e : Int) : FV :=
  let i := roundInt .rdn neg m e
  let x : Int := if 0 ≤ e then 0 else (if neg then -(m : Int) else m) * 2 ^ (fixP - (-e).toNat)
  let fr : Nat := if 0 ≤ e then 0 else (x - i * 2 ^ fixP).toNat
  if fr = 0 then .fin false 1 i
  else .fin false (sticky (expFix (fr * ln2Fix / 2 ^ fixP)) false) (i - fixP - 1)

/-- log2 of m × 2^e, m > 0. -/
def log2V (m : Nat) (e : Int) : FV :=
  let n := m.log2
  let i : Int := e + n
  if m = 2 ^ n then .ofInt i
  else
    let y := m * 2 ^ (fixP - n)
    let t : Int := i * 2 ^ fixP + (lnFix y * 2 ^ fixP / ln2Fix : Nat)
    .fin (decide (t < 0)) (sticky t.natAbs false) (-(fixP : Int) - 1)

/-- tanh of a finite nonzero value. -/
def tanhV (neg : Bool) (m : Nat) (e : Int) : FV :=
  let top : Int := e + m.log2
  if top < -40 then .fin neg m e
  else if 5 ≤ top then .fin neg (2 ^ 60 - 1) (-60)
  else
    let a := if 0 ≤ (fixP : Int) + 1 + e then m * 2 ^ ((fixP : Int) + 1 + e).toNat else 0
    let n := a / ln2Fix
    let ee := expFix (a - n * ln2Fix) * 2 ^ n
    .fin neg (sticky ((ee - 2 ^ fixP) * 2 ^ fixP / (ee + 2 ^ fixP)) false) (-(fixP : Int) - 1)

/-- Square root of m × 2^e. -/
def sqrtV (m : Nat) (e : Int) : FV :=
  let s := 64 + ((e - 64) % 2).toNat
  let n := m * 2 ^ s
  let r := iroot 2 n
  .fin false (sticky r (r * r == n)) ((e - s) / 2 - 1)

/-- 1 over the square root of m × 2^e. -/
def rsqrtV (m : Nat) (e : Int) : FV :=
  let o := (e % 2).toNat
  let m := m * 2 ^ o
  let k := m.log2 + 64
  let r := iroot 2 (2 ^ (2 * k) / m)
  .fin false (sticky r (r * r * m == 2 ^ (2 * k))) (-(k : Int) - (e - o) / 2 - 1)

/-- The special functions of R134. -/
inductive SpFn where
  | rcp | rsq | sqrt | exp2 | log2 | tanh
  deriving DecidableEq, Repr

/-- The exact function value (with a sticky bit) of an exact argument, with the special values of R134. -/
def spFn (fn : SpFn) (v : FV) : FV :=
  match v with
  | .nan => .nan
  | .inf neg =>
    match fn with
    | .rcp => .fin neg 0 0
    | .rsq => if neg then .nan else .fin false 0 0
    | .sqrt => if neg then .nan else .inf false
    | .exp2 => if neg then .fin false 0 0 else .inf false
    | .log2 => if neg then .nan else .inf false
    | .tanh => .fin neg 1 0
  | .fin neg 0 _ =>
    match fn with
    | .rcp => .inf neg
    | .rsq => .inf neg
    | .sqrt => .fin neg 0 0
    | .exp2 => .fin false 1 0
    | .log2 => .inf true
    | .tanh => .fin neg 0 0
  | .fin neg m e =>
    match fn with
    | .rcp => quotient neg 1 (-e) m
    | .rsq => if neg then .nan else rsqrtV m e
    | .sqrt => if neg then .nan else sqrtV m e
    | .exp2 =>
      if 10 ≤ e + (m.log2 : Int) then .fin false 1 (if neg then -1000 else 1000) else exp2V neg m e
    | .log2 => if neg then .nan else log2V m e
    | .tanh => tanhV neg m e

/-- A special function on an FP32 pattern. -/
def spFn32 (fn : SpFn) (ftz : Bool) (x : Nat) : Nat := encodeArith fmtS .rne ftz (spFn fn (decodeF fmtS ftz x))

end Sys2Proof.Machine
end

