-- ==== Sys2Proof/Machine/LaneMem.lean ====
section
/-! DEFINITION. Lane memory instructions at issue (R214–R221): operands, address checks, what an access does at once
and what waits for its home, and the order that a gang's accesses keep (R217, R251, R257). -/

namespace Sys2Proof.Machine

/-! ### What an instruction accesses -/

/-- Bytes of CLDR's element (R221). -/
def cldrSize (op : Nat) : Nat := if op = 1 then 2 else if op = 3 ∨ (8 ≤ op ∧ op ≤ 10) then 8 else 4

/-- A lane memory instruction: access size, EM word, and whether it reads and writes. -/
structure Acc where
  sz : Nat
  em : EM
  rd : Bool
  wr : Bool
  deriving DecidableEq, Repr

def accOf : Instr → Option Acc
  | .ld _ sz _ _ em => some ⟨sz.bytes, em, true, false⟩
  | .st _ sz _ _ em => some ⟨sz.bytes, em, false, true⟩
  | .atom _ sz _ _ _ em => some ⟨sz.bytes, em, true, true⟩
  | .cxch _ _ _ _ em => some ⟨8, em, true, true⟩
  | .cldr _ _ _ em => some ⟨cldrSize em.op.toNat, em, true, false⟩
  | _ => none

def Op.acc (o : Op) : Acc := (accOf o.instr).getD ⟨1, ⟨0, 0, 0, 0, 0⟩, false, false⟩
def emAcq (e : EM) : Bool := e.ord == 1 || e.ord == 3
def emRel (e : EM) : Bool := e.ord == 2 || e.ord == 3

/-- A register pair's or a register's value, 128 or 64 bits. -/
def pairV (G : Group) (K : Gang) (l : Nat) (r : Reg) (pair : Bool) : Nat :=
  ownV G K l r + (if pair then 2 ^ 64 * ownV G K l (r + 1) else 0)

/-- The bits of a data register that an access of `n` bytes uses (R185). -/
def dataBits (n : Nat) : Nat := 2 ^ (8 * min n 8) - 1
/-- The registers that an instruction reads in a lane, address first, with the bits that it uses. -/
def memUses : Instr → List (Reg × Nat)
  | .ld _ _ _ a _ => [(a.r, allBits)]
  | .st _ sz a b _ =>
    if sz = .q then [(a.r, allBits), (b.r, allBits), (b.r + 1, allBits)] else [(a.r, allBits), (b.r, dataBits sz.bytes)]
  | .atom _ sz d a b em =>
    if sz = .q then [(a.r, allBits), (b.r, allBits), (b.r + 1, allBits), (d, allBits), (d + 1, allBits)]
    else [(a.r, allBits), (b.r, dataBits sz.bytes), (d, if em.op = 1 then dataBits sz.bytes else 0)]
  | .cxch _ d a b _ => [(a.r, allBits), (b.r, allBits), (d, allBits)]
  | .cldr _ _ a _ => [(a.r, allBits)]
  | _ => []
def memReads (i : Instr) : List Reg := (memUses i).map (·.1)
/-- The reads of lane l. -/
def memRds (i : Instr) (G : Group) (K : Gang) (l : Nat) : List Rd := (memUses i).map fun r => ownRd G K l r.1 r.2

/-- The registers that its last-use marks free (R64, R117). -/
def memFrees : Instr → List Reg
  | .ld _ _ _ a _ => if a.last then [a.r] else []
  | .st _ sz a b _ => (if a.last then [a.r] else []) ++ (if b.last then (if sz = .q then [b.r, b.r + 1] else [b.r]) else [])
  | .atom _ sz _ a b _ =>
    (if a.last then [a.r] else []) ++ (if b.last then (if sz = .q then [b.r, b.r + 1] else [b.r]) else [])
  | .cxch _ _ a b _ => (if a.last then [a.r] else []) ++ (if b.last then [b.r] else [])
  | .cldr _ _ a _ => if a.last then [a.r] else []
  | _ => []

/-- The registers that it writes. -/
def memDests : Instr → List Reg
  | .ld _ sz d _ _ => if sz = .q then [d, d + 1] else [d]
  | .atom _ sz d _ _ _ => if sz = .q then [d, d + 1] else [d]
  | .cxch _ d _ _ _ => [d]
  | .cldr _ d _ _ => [d]
  | _ => []

/-- A lane's operands as read at issue or at replay: address, source b, compare or exchanged value, whether a freed register
was read, the uncorrectable register. `pa` first holds CLDR's slot. -/
def memLaneOf (i : Instr) (G : Group) (K : Gang) (l : Nat) : OpLane :=
  let ea (a : RL) (em : EM) : Nat := wrap 64 ((ownV G K l a.r : Int) + sext 20 em.off.toNat)
  match i with
  | .ld _ _ _ a em => ⟨l, ea a em, 0, 0, 0, 0, .walk, 0⟩
  | .st _ sz a b em => ⟨l, ea a em, 0, 0, pairV G K l b.r (sz == .q), 0, .walk, 0⟩
  | .atom _ sz d a b em => ⟨l, ea a em, 0, 0, pairV G K l b.r (sz == .q), pairV G K l d (sz == .q), .walk, 0⟩
  | .cxch _ d a b em => ⟨l, ea a em, 0, 0, ownV G K l b.r, ownV G K l d, .walk, 0⟩
  | .cldr _ _ a em =>
    let x := ownV G K l a.r
    ⟨l, wrap 55 ((x % 2 ^ 55 : Int) + sext 20 em.off.toNat), 0, 0, x / 2 ^ 55, 0, .walk, 0⟩
  | _ => ⟨l, 0, 0, 0, 0, 0, .landed, 0⟩

/-! ### Addresses (R214, R220, R221) -/

/-- Where a lane's access goes. -/
inductive Adr where
  | wait
  | flt (cause addr : Nat) (sub : Bool := false)
  | sp (o : Nat)
  | absent (m line : Nat)
  | mem (pa pte : Nat)
  /-- Waits for the limbs of its ligature that go to their homes (R173). -/
  | held
  deriving DecidableEq, Repr

/-- A translated access. -/
def State.adrMem (s : State) (G : Group) (a : Acc) (va : Nat) : Adr :=
  match s.xlate G.geo.core (s.rootOf G) va a.rd a.wr (s.privileged G) with
  | .miss => .wait
  | .flt c => .flt c va
  | .ok pa pte => .mem pa pte

/-- The steps of R214 for LD, ST and ATOM. -/
def State.adrPlain (s : State) (G : Group) (b : Block) (a : Acc) (va : Nat) : Adr :=
  if va / 2 ^ 55 != 0 then .flt 0x04 va
  else if va % a.sz != 0 then .flt 0x03 va
  else if inAperture va then
    match s.spAt b va a.sz with
    | .range o => .flt 0x07 o
    | .absent m l => .absent m l
    | .at o => .sp o
  else if inPeer va then .flt 0x04 va
  else s.adrMem G a va

/-- CXCH and CLDR act on device memory only (R220, R221). -/
def State.adrDev (s : State) (G : Group) (a : Acc) (va : Nat) : Adr :=
  if va / 2 ^ 55 != 0 then .flt 0x04 va
  else if va % a.sz != 0 then .flt 0x03 va
  else if inAperture va || inPeer va then .flt 0x06 va
  else
    match s.adrMem G a va with
    | .mem pa pte => if paSpace pa = 0 then .mem pa pte else .flt 0x06 va
    | r => r

/-- The address of one lane of an operation. -/
def State.laneAdr (s : State) (G : Group) (b : Block) (o : Op) (l : OpLane) : Adr :=
  match o.instr with
  | .cxch .. =>
    if l.va / 2 ^ 55 = 0 && l.va % 8 == 0 && l.y / 2 ^ 19 != 0 then .flt 0x06 l.va
    else match s.adrDev G o.acc l.va with
      | .mem pa pte =>
        if paDev pa != l.y / 2 ^ 10 % 2 ^ 9 || pa / 2 ^ 29 % 2 ^ 10 != l.y % 2 ^ 10 then .flt 0x06 l.va else .mem pa pte
      | r => r
  | .cldr .. => if 8 ≤ l.y then .flt 0x04 l.va else s.adrDev G o.acc l.va
  | _ => s.adrPlain G b o.acc l.va

/-- Whether an instruction is a load; an access that goes through L1. -/
def isLoad : Instr → Bool
  | .ld .. => true
  | _ => false
def Op.plainPath (o : Op) (pte pa : Nat) : Bool := !(o.acc.rd && o.acc.wr) && pathOf pte pa o.acc.em.hint.toNat == 0

/-- R193: whether an access through L1 or an LLC slice meets a bank of the CA role that a move in progress involves; it waits. -/
def State.lineMoves (s : State) (c pa : Nat) : Bool := (s.core c).move.isSome && (s.core c).caMoving (lineOf pa)

/-- R185: a read that meets an uncorrectable word of SP or of a dirty line of L1 faults, whether L1 serves it or writes the line back
for it. -/
def State.adrEcc (s : State) (c : Nat) (o : Op) (a : Adr) : Adr :=
  let k := s.core c
  if !o.acc.rd then a
  else match a with
    | .sp off => match k.spPoison off o.acc.sz with | some (w, sub) => .flt 0x0E w sub | none => a
    | .mem pa pte =>
      if pathOf pte pa o.acc.em.hint.toNat = 2 then a
      else match k.caPoison pa o.acc.sz with
        | some (w, sub) => if (k.caLine (lineOf pa)).any fun l => l.dirty != 0 then .flt 0x0E (k.caPoolWord w) sub else a
        | none => a
    | _ => a

/-! ### Requests and their homes (R207, R325) -/

def OpLane.atHome (l : OpLane) : Bool := match l.st with | .home => true | _ => false
def OpLane.atVault (l : OpLane) : Bool := match l.st with | .vault => true | _ => false
/-- The home that a request goes to: a vault controller, an LLC slice, or what lies outside the device's memory. -/
def State.homeId (s : State) (o : Op) (l : OpLane) : Nat :=
  if !s.isLocal l.pa then 2 ^ 40 + l.pa / 2 ^ 40
  else if pathOf l.pte l.pa o.acc.em.hint.toNat = 2 then 2 ^ 30 + l.pa / 2 ^ 29
  else s.slice l.pa
/-- Requests of a core that wait at their homes; a CLDR's are its collective unit's. -/
def State.requests (s : State) (c : Nat) : List (Op × OpLane) :=
  ((SMap.vals s.groups).filter fun G => G.geo.core == c && !G.ended).flatMap fun G =>
    (G.ops.filter fun o => match o.instr with | .cldr .. => false | _ => true).flatMap fun o =>
      (o.lanes.filter fun l => l.atHome || l.atVault).map fun l => (o, l)
/-- R207, R325: no earlier request of the core to the same home waits. -/
def State.vaultFirst (s : State) (c : Nat) (o : Op) (l : OpLane) : Bool :=
  (s.requests c).all fun q => !(decide (q.1.id < o.id) || (q.1.id == o.id && decide (q.2.lane < l.lane))) ||
    s.homeId q.1 q.2 != s.homeId o l
/-- A request of the core's operations before number `id` waits at the home slice of a line, or at its device. -/
def State.homeBusy (s : State) (c id line : Nat) : Bool :=
  (s.requests c).any fun q => decide (q.1.id < id) && s.isLocal q.2.pa == s.isLocal line &&
    (if s.isLocal line then s.slice q.2.pa == s.slice line else q.2.pa / 2 ^ 40 == line / 2 ^ 40)
/-- A write-back of the core may go to the home of a line: no rehoming holds it (R205), and the requests that the core's operations
before number `id` have sent there are served (R325). -/
def State.wbReady (s : State) (c id line : Nat) : Bool := s.drained line && !s.homeBusy c id line
/-- An access that brings a line into L1 has to wait for the write-back of the line that goes. -/
def State.roomHeld (s : State) (c id line : Nat) : Bool :=
  let o := SMap.getD (s.core c).vord (caSet line) []
  ((s.core c).caLine line).isNone && decide ((s.core c).ways ≤ o.length) && (match o with
    | v :: _ => (((s.core c).caLine v).any fun l => l.dirty != 0) && !s.wbReady c id v
    | [] => false)

/-- Whether an access waits for a move of its banks (R193), or for the line that it puts out of L1. -/
def State.adrMoves (s : State) (c : Nat) (o : Op) : Adr → Bool
  | .sp off => (s.core c).spMoving off o.acc.sz
  | .mem pa pte =>
    pathOf pte pa o.acc.em.hint.toNat != 2 && (s.lineMoves c pa || (!o.acc.rd && o.plainPath pte pa && s.roomHeld c o.id (lineOf pa)))
  | _ => false

/-! ### Atomics (R218) -/

/-- The new value of an atomic of `n` bytes. -/
def atomNew (op n old x y : Nat) : Nat :=
  let w := 8 * n
  match op with
  | 0 => y
  | 1 => if old = x then y else old
  | 2 => (old + y) % 2 ^ w
  | 3 => old &&& y
  | 4 => old ||| y
  | 5 => old ^^^ y
  | 6 => sMinN w old y
  | 7 => sMaxN w old y
  | 8 => min old y
  | 9 => max old y
  | 10 => fAdd fmtS .rne false old y
  | 11 => fMinMax fmtS true false old y
  | _ => fMinMax fmtS false false old y
where
  sMinN (w x y : Nat) : Nat := if sext w x ≤ sext w y then x else y
  sMaxN (w x y : Nat) : Nat := if sext w x ≤ sext w y then y else x

/-- What a read-modify-write of a lane leaves: ATOM's operation, or CXCH's exchange. -/
def Op.newVal (o : Op) (l : OpLane) (old : Nat) : Nat :=
  let n := o.acc.sz
  match o.instr with
  | .atom _ _ _ _ _ em => atomNew em.op.toNat n old (l.cmp % 2 ^ (8 * n)) (l.y % 2 ^ (8 * n))
  | _ => l.cmp

/-! ### The order of a gang's accesses -/

def OpLane.unbound (l : OpLane) : Bool :=
  match l.st with
  | .bound _ => false
  | .parked .. => false
  | .landed => false
  | _ => true
def OpLane.walking (l : OpLane) : Bool := match l.st with | .walk => true | _ => false
def OpLane.inStash (l : OpLane) : Bool := match l.st with | .stash => true | _ => false

/-- Long-latency uniform instructions that reach memory when they complete: whether they write it. -/
def uniMem : Instr → Option Bool
  | .mdef _ _ _ _ => some false
  | .tmload _ _ _ => some false
  | .wfill _ _ => some false
  | .wspill _ _ => some true
  | _ => none

/-- Whether an earlier operation keeps a later access of the same gang from being performed: an outstanding acquire (R217), an
unperformed store or atomic, a uniform instruction's accesses, which it performs when it completes (R268), before a store or atomic a
read that is not bound (R257), and before a read an earlier read that may still bind out of order. A CLDR reads at homes what a later
read might take from L1 (R256). -/
def Op.blocks (e : Op) (wr : Bool) : Bool :=
  (e.kind == .uni && (uniMem e.instr).isSome) ||
  e.kind == .mem &&
    ((match e.instr with | .cldr .. => e.lanes.any OpLane.unbound | _ => false) ||
      (emAcq e.acc.em && !e.completed) ||
      (e.acc.wr && e.lanes.any OpLane.unbound) ||
      (wr && e.lanes.any OpLane.unbound) ||
      (e.lanes.any fun l => l.unbound && !l.atHome))

/-- Whether an operation of the slices may be performed after the group's operations older than `id`. -/
def Group.mayAccess (G : Group) (slices id : Nat) (wr : Bool) : Bool :=
  !(G.ops.any fun e => decide (e.id < id) && e.slices &&& slices != 0 && e.blocks wr)

/-- R186: no store of the group older than `id` still waits to be performed. -/
def Group.storesDone (G : Group) (id : Nat) : Bool :=
  !(G.ops.any fun e => decide (e.id < id) && ((e.kind == .mem && e.acc.wr) || uniMem e.instr == some true) &&
      e.lanes.any OpLane.unbound)

/-! ### Performing one lane -/

/-- The rows that a lane's access writes. -/
def Lane.putDest (L : Lane) (depth : Nat) (ds : List Reg) (v : Nat) : Lane :=
  match ds with
  | [] => L
  | [d] => L.set (rowOf depth d) (v % 2 ^ 64)
  | d :: e :: _ => (L.set (rowOf depth d) (v % 2 ^ 64)).set (rowOf depth e) (v / 2 ^ 64)

/-- One lane of an operation whose address is known: performed at once, bound at once, or on its way. A clean line with an
uncorrectable word is fetched again (R185). A store to a CP page goes to the home until this core owns the page (R262). -/
def State.memLane (s : State) (g : Nat) (G : Group) (b : Block) (o : Op) (l : OpLane) (a : Adr) : OpLane × State :=
  let c := G.geo.core
  let n := o.acc.sz
  let hint := o.acc.em.hint.toNat
  match a with
  | .wait => (l, s)
  | .held => ({ l with st := .busy }, s)
  | .flt cause addr sub => ({ l with st := .parked cause addr s.tick 0 sub }, s)
  | .absent m i => ({ l with st := .stash, pa := m, pte := i }, s)
  | .sp off =>
    if o.acc.rd then
      let old := (s.core c).spRead off n
      let l := { l with st := .bound old, time := s.spTime b l.va }
      if o.acc.wr then (l, (s.spStore b l.va n (o.newVal l old)).raiseWct g s.tick) else (l, s)
    else ({ l with st := .landed }, (s.spStore b l.va n l.y).raiseWct g s.tick)
  | .mem pa pte =>
    let l := { l with pa := pa, pte := pte }
    let path := pathOf pte pa hint
    match o.instr with
    | .cldr .. => ({ l with st := .home }, s)
    | .ld .. =>
      if path != 0 then ({ l with st := .vault }, s)
      else
        match (s.core c).caPoison pa n, (s.core c).caLoad s.tick pa n with
        | some _, _ => ({ l with st := .home }, s.onCore c fun k => k.caDrop (lineOf pa))
        | none, some (v, t) => ({ l with st := .bound v, time := t }, s.onCore c fun k => k.caTouch (lineOf pa) hint)
        | none, none => ({ l with st := .home }, s)
    | .st .. =>
      if path != 0 || (pteCC pte == 2 && !s.ownsCp (ptePA pte) c) then ({ l with st := .vault }, s)
      else ({ l with st := .landed }, s.caStore c g pa n l.y hint pte)
    | _ =>
      if path = 2 then ({ l with st := .vault }, s)
      else ({ l with st := .home }, (s.writeBack c (lineOf pa)).onCore c fun k => k.caDrop (lineOf pa))

/-- The lanes in ascending order, each with its address. -/
def State.memLanes (s : State) (g : Nat) (G : Group) (b : Block) (o : Op) : List (OpLane × Adr) → List OpLane × State
  | [] => ([], s)
  | (l, a) :: ls =>
    let r := s.memLane g G b o l a
    let q := State.memLanes r.2 g G b o ls
    (r.1 :: q.1, q.2)

def Adr.isFlt : Adr → Bool
  | .flt _ _ _ => true
  | _ => false
def Adr.isAbsent : Adr → Bool
  | .absent _ _ => true
  | _ => false

/-- A store or atomic that is performed at its home, later than at its issue. -/
def State.adrLate (s : State) (c : Nat) (o : Op) : Adr → Bool
  | .mem pa pte =>
    o.acc.wr && (o.acc.rd || pathOf pte pa o.acc.em.hint.toNat != 0 || (pteCC pte == 2 && !s.ownsCp (ptePA pte) c))
  | _ => false

/-- R173: where a limb's access faults, its ligature's other limbs park with it; where one waits for a stash line, they wait too; and
where one has to go to its home, which `late` tells, the others are performed with it. -/
def ligAdr (G : Group) (late : Adr → Bool) (ls : List (OpLane × Adr)) (l : OpLane) (a : Adr) : OpLane × Adr × Nat :=
  let n := ligN G
  let mine := ls.filter fun e => e.1.lane / n == l.lane / n
  match mine.find? fun e => e.2.isFlt with
  | some (f, x) => (l, x, if ligBound G then f.lane % n else 0)
  | none =>
    if mine.any fun e => e.2.isAbsent then (l, if a.isAbsent then a else .wait, 0)
    else (l, if !late a && mine.any fun e => late e.2 then .held else a, 0)

/-- A limb of lane l's ligature waits for a stash line. -/
def Op.ligStash (o : Op) (G : Group) (l : OpLane) : Bool := o.lanes.any fun x => x.inStash && x.lane / ligN G == l.lane / ligN G

def OpLane.setLimb (l : OpLane) (limb : Nat) : OpLane :=
  match l.st with
  | .parked c a t _ sub => { l with st := .parked c a t limb sub }
  | _ => l

/-- Lane faults that are found after issue: `f` gives a lane's cause and address. The unperformed lanes of its ligature park with it,
under the lowest faulting limb (R173). -/
def Op.parkLanes (o : Op) (G : Group) (tick : Nat) (f : OpLane → Option (Nat × Nat)) : Op :=
  let n := ligN G
  { o with lanes := o.lanes.map fun l =>
      if l.parkedB || l.st.isLanded || (o.acc.wr && l.st.isBound) then l
      else match o.lanes.findSome? fun x => if x.lane / n = l.lane / n then (f x).map fun e => (e, x.lane % n) else none with
        | some (e, k) => { l with st := .parked e.1 e.2 tick (if ligBound G then k else 0) false }
        | none => l }

/-! ### Completion (R74, R217) -/

/-- The slices of some lanes. -/
def slicesOf (ls : List OpLane) : Nat := maskOf (ls.map fun l => l.lane / 4).eraseDups

/-- The gangs over some slices. -/
def Group.onSlices (G : Group) (m : Nat) (f : Gang → Gang) : Group :=
  { G with gangs := G.gangs.map fun K => if K.slices &&& m != 0 then f K else K }

/-- A gang that slept on absent stash lines wakes once none of its lanes waits for one (R197); while a fault is pending it has stopped
(R174). -/
def Group.unstash (G : Group) : Group :=
  { G with gangs := G.gangs.map fun K =>
      if K.st = .sleep ∧ K.wake.isNone ∧
          !(G.ops.any fun o => o.lanes.any fun l => l.inStash && K.slices.testBit (l.lane / 4)) then
        K.wakes G.pending else K }

/-- A collective slot of a block (R239). -/
def Block.slot (b : Block) (k : Nat) : CSlot := (b.slots[k]?).getD ⟨false, 4, 0, 0, false, 0, 0, 0, [], [], 0, 0⟩
def Block.setSlot (b : Block) (k : Nat) (c : CSlot) : Block := { b with slots := setAt b.slots k c }
/-- A slot's record after an operation (R241). -/
def State.slotDone (s : State) (bid k status amask : Nat) (amore : Bool) : State :=
  s.onBlock bid fun b => b.setSlot k { b.slot k with status := status, amask := amask, amore := amore }

/-- A CLDR keeps each lane's outcome at its slot with the lane until its flag falls (R342): status, AMASK, AMORE. -/
def cldrWord (o : Nat × Nat × Bool) : Nat := 1 + o.1 + 8 * (o.2.1 % 2 ^ 32) + 2 ^ 35 * o.2.2.toNat
/-- R342: as a CLDR's flag falls, the slots that it named record its outcomes. -/
def State.cldrRecord (s : State) (bid : Nat) (o : Op) : State :=
  match o.instr with
  | .cldr .. => o.lanes.foldl (fun s l =>
      if l.cmp = 0 then s
      else let w := l.cmp - 1; s.slotDone bid l.y (w % 8) (w / 8 % 2 ^ 32) (w.testBit 35)) s
  | _ => s

/-- The scope at which an operation acts: for accesses of SP alone none is wider than core (R250). -/
def scopeOf (scope : Nat) (lanes : List OpLane) : Nat := if lanes.all fun l => inAperture l.va then min 1 scope else scope

/-- After a lane's change: where every lane has landed or is parked the operation has completed, its flag falls, and an
acquire invalidates; only its parked lanes stay. -/
def State.afterLanes (s : State) (g : Nat) (o : Op) : State :=
  let t := o.lanes.foldl (fun m l => match l.st with | .landed => max m l.time | _ => m) 0
  if !o.completed then s.onGroup g fun G => (G.setOp o).unstash
  else
    let ps := o.lanes.filter OpLane.parkedB
    let acq := emAcq o.acc.em
    let sc := scopeOf o.acc.em.scope.toNat o.lanes
    let s1 := (s.cldrRecord (((s.group? g).map (·.geo.bid)).getD 0) o).onGroup g fun G =>
      let G := G.flagDown o.flag
      let G := if ps.isEmpty then G.dropOp o.id else G.setOp { o with lanes := ps }
      (if o.acc.rd then G.onSlices o.slices fun K => { K with rtime := if acq && decide (2 ≤ sc) then 0 else max K.rtime t } else G).unstash
    if acq then (if sc = 0 then s1 else s1.coreJoin g).selfInvalidate (((s.group? g).map (·.geo.core)).getD 0) sc t else s1

/-- R64: the last uses of lanes whose access is on its way free their registers. -/
def Group.freeLast (G : Group) (o : Op) (lanes : List OpLane) : Group :=
  let rs := memFrees o.instr
  if rs.isEmpty then G
  else
    let m := maskOf ((lanes.filter fun l => !l.parkedB && !l.walking && !l.inStash).map (·.lane))
    G.onLanes m fun _ L => rs.foldl (fun L r => L.free (rowOf o.depth r)) L

/-- Resolves the lanes of an operation that wait for translation or for a move (R193), once all of them can be; faults of their
addresses are found at once (R247). An ECC fault stops the gang (R172). `adr` gives a lane's address. The lanes are resolved in one step,
so those of one operation see one ACTIVE of a descriptor: R268 lets them use different backings, and this is the model's choice (log
145). -/
def State.resolveWith (s : State) (g : Nat) (o : Op) (adr : Group → Block → OpLane → Adr) : State :=
  match s.group? g with
  | none => s
  | some G =>
    match s.block? G.geo.bid with
    | none => s
    | some b =>
      let c := G.geo.core
      let as := (o.lanes.filter OpLane.walking).map fun l =>
        let a := adr G b l
        (l, if s.adrMoves c o a || o.ligStash G l then .wait else a)
      let ready := !(as.any fun e => e.2 == .wait) && G.mayAccess o.slices o.id o.acc.wr
      let as := if ready then as.map fun e => (e.1, s.adrEcc c o e.2) else as
      let ls := as.map fun e =>
        let r := ligAdr G (s.adrLate c o) as e.1 e.2
        if ready || r.2.1.isFlt then r else (r.1, .wait, 0)
      let r := s.memLanes g G b o (ls.map fun e => (e.1, e.2.1))
      let done := (r.1.zip ls).map fun e => e.1.setLimb e.2.2.2
      if done.all OpLane.walking then s
      else
        let o' := { o with lanes := o.lanes.map fun l => ((done.find? fun d => d.lane == l.lane)).getD l }
        let sleeps := done.any OpLane.inStash
        let s2 := r.2.onGroup g fun G => G.freeLast o done
        let s3 := s2.onGroup g fun G =>
          if sleeps then
            G.onSlices (slicesOf (done.filter OpLane.inStash)) fun K => if K.st = .ready then { K with st := .sleep, wake := none } else K
          else G
        let s4 := if sleeps then s3.count b.rid 3 1 (2 ^ 64 - 1) else s3
        let ecc := done.filter fun l => match l.st with | .parked 0x0E _ _ _ _ => true | _ => false
        let s5 := if ecc.isEmpty then s4 else s4.onGroup g fun G => G.stopLanes (maskOf (ecc.map (·.lane)))
        s5.afterLanes g o'

def State.resolveOp (s : State) (g : Nat) (o : Op) : State := s.resolveWith g o fun G b l => s.laneAdr G b o l

/-- Accesses of a core that a move held back go on, in the order of their issue. -/
def State.retryCore (s : State) (c : Nat) : State :=
  s.groups.foldl (fun s e =>
    if e.2.geo.core != c then s
    else e.2.ops.foldl (fun s o => if o.lanes.any OpLane.walking then s.resolveOp e.1 o else s) s) s

/-! ### Issue -/

/-- R257, R217: every earlier access of the gang is performed at a scope, and so are the stores of its core that happen before
them (R253). -/
def performedAt (s : State) (g : Nat) (G : Group) (slices scope : Nat) : Bool :=
  !(G.ops.any fun o => (o.kind == .mem || (uniMem o.instr).isSome) && o.slices &&& slices != 0 && o.lanes.any OpLane.unbound) &&
    (decide (scope < 2) || (s.core G.geo.core).ca.all fun e => e.2.dirty == 0 || !(e.2.writers ++ e.2.hb).contains g)

/-- Whether a release at a scope may go on (R217): performed, and for core scope or wider TICK has reached WCTMAX. -/
def releaseReady (s : State) (g : Nat) (G : Group) (slices scope : Nat) : Bool :=
  performedAt s g G slices scope && (scope == 0 || decide (max G.wctmax G.hbw ≤ s.tick))

/-- The gang waits at issue until WCTMAX_PASSED lets it try again. -/
def State.waitWct (s : State) (x : Cur) : State := (s.putGroup x.g (x.G.putGang { x.K with hold := .wct })).popPort

/-- LD, ST, ATOM, CXCH or CLDR issued by the gang on its port, with the checks of R90. -/
def memF (i : Instr) (h : Hd) (a : Acc) (ll whole : Bool) (ill : Group → Bool) (s : State) : State :=
  onCur s fun x =>
    if ill x.G then s.trap x 0x01 i.opc
    else if whole && mxSplit x then s.trap x 0x0C i.opc
    else if ligDiv x.G x.K h then s.trap x 0x0D i.opc
    else
      let act := actMask x.G x.K h
      let lanes0 := (bitsOf act 64).map (memLaneOf i x.G x.K)
      let rd (l : Nat) : List Rd := memRds i x.G x.K l
      if emRel a.em && !releaseReady s x.g x.G x.K.slices (scopeOf a.em.scope.toNat lanes0) then s.waitWct x
      else
      let bad (l : Nat) : Option (Nat × Nat × Bool) :=
        ((rd l).find? fun r => r.bad.isSome).map fun r => (0x0E, r.bad.getD 0, r.sub)
      let flt := ligFault x.G act bad
      let lanes := lanes0.map fun m =>
        match flt m.lane with
        | some (c, v, k, sub) => { m with st := .parked c v s.tick (if ligBound x.G then k else 0) sub }
        | none => m
      let G := x.G.stickIf ((bitsOf act 64).any fun l => (rd l).any fun r => r.freed) freedBit
      let K := if ll then x.K.advLL h s.tick else x.K.adv h s.tick
      let K := { K with stopped := K.stopped || lanes.any OpLane.parkedB }
      if lanes.isEmpty then s.finish x G K
      else
        let o : Op :=
          { id := s.nextId, kind := .mem, instr := i, pc := x.K.pc, flag := if ll then x.K.llFlag else none,
            slices := x.K.slices, mask := x.K.mask, depth := x.K.depth, ctx := x.K.clause, tick := s.tick,
            lanes := lanes, x := x.G.tmshape, y := 0 }
        let s1 := s.fresh.finish x ((G.flagUp o.flag).addOp o) K
        if lanes.all OpLane.parkedB then s1.afterLanes x.g o else s1.resolveOp x.g o

/-- LD (R215). -/
def execLd (h : Hd) (sz : MSz) (d : Reg) (a : RL) (em : EM) (s : State) : Ans :=
  .next (memF (.ld h sz d a em) h ⟨sz.bytes, em, true, false⟩ true false (fun _ => false) s)

/-- ST (R216). -/
def execSt (h : Hd) (sz : MSz) (a : RL) (b : RL) (em : EM) (s : State) : Ans :=
  .next (memF (.st h sz a b em) h ⟨sz.bytes, em, false, true⟩ false false (fun _ => false) s)

/-- ATOM (R218, R219). -/
def execAtom (h : Hd) (sz : MSz) (d : Reg) (a : RL) (b : RL) (em : EM) (s : State) : Ans :=
  .next (memF (.atom h sz d a b em) h ⟨sz.bytes, em, true, true⟩ true false (fun _ => false) s)

/-- CXCH (R220): the whole group. -/
def execCxch (h : Hd) (d : Reg) (a : RL) (b : RL) (em : EM) (s : State) : Ans :=
  .next (memF (.cxch h d a b em) h ⟨8, em, true, true⟩ true true (fun _ => false) s)

/-- CLDR (R221): the whole group; .tmean under a loadable pair is ILLEGAL. -/
def execCldr (h : Hd) (d : Reg) (a : RL) (em : EM) (s : State) : Ans :=
  .next (memF (.cldr h d a em) h ⟨cldrSize em.op.toNat, em, true, false⟩ true true
    (fun G => em.op == 11 && decide (0x10 ≤ G.tmshape)) s)

/-! ### Landing (R74, R75) -/

/-- A lane whose value is bound takes it: the result of LD, ATOM, CXCH or CLDR in its rows. The lanes of a ligature land together
(R173). -/
def State.landLanes (s : State) (g : Nat) (o : Op) (m : Nat) : State :=
  let n := ((s.group? g).map ligN).getD 1
  let may (l : OpLane) : Bool := l.st.isLanded || l.parkedB || (l.st.isBound && m.testBit l.lane)
  let go (l : OpLane) : Option Nat :=
    match l.st with
    | .bound v => if o.lanes.all fun x => x.lane / n != l.lane / n || may x then some v else none
    | _ => none
  let s1 := s.onGroup g fun G =>
    o.lanes.foldl (fun G l =>
      match go l with
      | some v => G.onLanes (2 ^ l.lane) fun _ L => L.putDest o.depth (memDests o.instr) v
      | none => G) G
  s1.afterLanes g { o with lanes := o.lanes.map fun l => if (go l).isSome then { l with st := .landed } else l }

end Sys2Proof.Machine
end

