-- ==== Sys2Proof/Machine/Flags.lean ====
section
/-! DEFINITION. Conditions, carries and truth tables: what the instructions that write predicates compute (R81, R127–R129,
R133, R141), and the saturating and shifting element operations (R121–R125). -/

namespace Sys2Proof.Machine

/-- An integer condition on two patterns of width w (R81, R127): lt and le signed, ltu and leu unsigned. -/
def iCond (c : ICond) (w x y : Nat) : Bool :=
  match c with
  | .eq => x == y
  | .ne => x != y
  | .lt => decide (sext w x < sext w y)
  | .le => decide (sext w x ≤ sext w y)
  | .ltu => decide (x < y)
  | .leu => decide (x ≤ y)

/-- BRC's conditions against zero (R88, R151). -/
def zCond (c : BitVec 2) (x : Nat) : Bool :=
  match c.toNat with
  | 0 => x == 0
  | 1 => x != 0
  | 2 => decide (sext 64 x < 0)
  | _ => decide (sext 64 x ≤ 0)

/-- PLOG's truth table (R141). -/
def ttBit (tt : BitVec 4) (a b : Bool) : Bool := tt.toNat.testBit (2 * a.toNat + b.toNat)

/-- IADD on one element (R121). -/
def satAdd (s : Sat) (w x y : Nat) : Nat :=
  match s with
  | .wrap => (x + y) % 2 ^ w
  | .sat => wrap w (clampI (sext w x + sext w y) (-(2 : Int) ^ (w - 1)) ((2 : Int) ^ (w - 1) - 1))
  | .satu => min (x + y) (2 ^ w - 1)

/-- ISUB on one element (R121). -/
def satSub (s : Sat) (w x y : Nat) : Nat :=
  match s with
  | .wrap => (x + 2 ^ w - y) % 2 ^ w
  | .sat => wrap w (clampI (sext w x - sext w y) (-(2 : Int) ^ (w - 1)) ((2 : Int) ^ (w - 1) - 1))
  | .satu => x - y

/-- The shifts on one element, by a count read in full (R124). -/
def shlE (w x k : Nat) : Nat := if k < w then x * 2 ^ k % 2 ^ w else 0
def shrE (w x k : Nat) : Nat := if k < w then x / 2 ^ k else 0
def sarE (w x k : Nat) : Nat := wrap w (sext w x / (2 : Int) ^ (min k w))

/-- Signed minimum and maximum (R123). -/
def sMin (w x y : Nat) : Nat := if sext w x ≤ sext w y then x else y
def sMax (w x y : Nat) : Nat := if sext w x ≤ sext w y then y else x

/-- Leading zero bits of a 64-bit value (R125). -/
def clz64 (x : Nat) : Nat := if x = 0 then 64 else 63 - x.log2
/-- One bits of a 64-bit value (R125). -/
def popc64 (x : Nat) : Nat := ((List.range 64).filter fun i => x.testBit i).length

/-- The ligature operations of R128 on integers of 64n bits: the result before reduction is reduced modulo 2^(64n),
with the carry. `m` is limb 0's b. -/
inductive LigFn where
  | add | sub | mac | shl | shr | neg
  deriving DecidableEq, Repr

def ligFn (f : LigFn) (n A B C m : Nat) : Nat × Bool :=
  let t := 2 ^ (64 * n)
  let k := min m (64 * n)
  match f with
  | .add => ((A + B) % t, decide (t ≤ A + B))
  | .sub => ((A + t - B) % t, decide (A < B))
  | .mac => ((A * m + C) % t, decide (t ≤ A * m + C))
  | .shl => (A * 2 ^ k % t, decide (t ≤ A * 2 ^ k))
  | .shr => (A / 2 ^ k % t, A % 2 ^ k != 0)
  | .neg => ((t - A) % t, A != 0)

end Sys2Proof.Machine
end

