-- ==== Sys2Proof/Machine/Uniform.lean ====
section
/-! DEFINITION. Uniform instructions that act on the gang alone: NOP, YIELD, branches, calls, the integer operations,
ligature binding, the transformed-mean shape, TICK and the special registers (R147–R157, R161, R162, R166, R167). -/

namespace Sys2Proof.Machine

/-! ### NOP and YIELD (R150) -/

def nopF (h : Hd) (s : State) : State := runUni (.nop h) h noPre [] s fun x => s.doneP x h x.G
def execNop (h : Hd) (s : State) : Ans := .next (nopF h s)

/-- YIELD holds its gang for at least 8 cycles. -/
def yieldF (h : Hd) (s : State) : State :=
  runUni (.yield h) h noPre [] s fun x => s.finish x x.G { x.K.adv h s.tick with hold := .yield (s.tick + 8) }
def execYield (h : Hd) (s : State) : Ans := .next (yieldF h s)

/-- The priority of a group's gangs: its region's, one level higher for a communication group (R36, R355). -/
def State.prioOf (s : State) (G : Group) : Nat :=
  let p := ((s.regionOf G).map (·.rcb.prio)).getD 0
  if G.geo.comm then min 7 (p + 1) else p

/-- R150: the hold of YIELD ends after 8 cycles once every other READY gang of the core of at least its priority has been
offered a slot since: a port has taken it. -/
def yieldOver (s : State) (g : Nat) (G : Group) (K : Gang) (till : Nat) : Bool :=
  decide (till ≤ s.tick) &&
    s.groups.all fun e =>
      !s.groupRuns e.2 || e.2.geo.core != G.geo.core || decide (s.prioOf e.2 < s.prioOf G) ||
        e.2.gangs.all fun D => (e.1 == g && D.id == K.id) || !Gang.canIssue e.2 D || decide (till < D.offer + 8)

/-- YIELD_HOLD_END. -/
def yieldHoldEndF (g k : Nat) (s : State) : State :=
  match s.group? g with
  | none => s
  | some G =>
    match G.gang? k with
    | none => s
    | some K =>
      match K.hold with
      | .yield till => if yieldOver s g G K till then s.putGroup g (G.putGang { K with hold := .none }) else s
      | _ => s
def execYieldHoldEnd (g k : Nat) (s : State) : Ans := .next (yieldHoldEndF g k s)

/-! ### Branches (R151) -/

/-- A branch: taken to a word offset from its own address, otherwise on to the header after it. -/
def branchF (i : Instr) (h : Hd) (rs : List Reg) (off : BitVec 24) (taken : Cur → Bool) (s : State) : State :=
  runUni i h noPre rs s fun x =>
    if taken x then s.finish x x.G (x.K.jump (wordTarget x.K.pc 24 off.toNat) s.tick) else s.doneP x h x.G

def execBr (h : Hd) (off : BitVec 24) (s : State) : Ans := .next (branchF (.br h off) h [] off (fun _ => true) s)
def execBrc (h : Hd) (c : BitVec 2) (a : Reg) (off : BitVec 24) (s : State) : Ans :=
  .next (branchF (.brc h c a off) h [a] off (fun x => zCond c (uVal x a)) s)
def execBrany (h : Hd) (p : Prd) (off : BitVec 24) (s : State) : Ans :=
  .next (branchF (.brany h p off) h [] off (fun x => (bitsOf x.K.mask 64).any fun l => (x.G.lane l).pred p) s)
def execBrall (h : Hd) (p : Prd) (off : BitVec 24) (s : State) : Ans :=
  .next (branchF (.brall h p off) h [] off (fun x => (bitsOf x.K.mask 64).all fun l => (x.G.lane l).pred p) s)

/-! ### Calls (R59, R152) and LOOP (R153) -/

/-- R152: <63:55> and <1:0> of a register target are zero. -/
def badTarget (t : Nat) : Bool := t / 2 ^ 55 != 0 || t % 4 != 0

def jmprF (h : Hd) (a : Reg) (s : State) : State :=
  runUni (.jmpr h a) h noPre [a] s fun x =>
    if badTarget (uVal x a) then s.trapFreed x (uFreed x a) 0x01 0x85 else s.finish x x.G (x.K.jump (uVal x a) s.tick)
def execJmpr (h : Hd) (a : Reg) (s : State) : Ans := .next (jmprF h a s)

/-- Row of stack position j (R58). -/
def posRow (j : Nat) : Nat := 8 + j

/-- The window slide of CALL and CALLR (R59): the link in the caller's v(7 + k), the callee's new positions freed. -/
def callSlide (G : Group) (K : Gang) (k link : Nat) : Group :=
  G.onLanes K.mask fun _ L =>
    (List.range k).foldl (fun L i => L.free (posRow (K.depth + 24 + i))) (L.set (posRow (K.depth + k - 1)) link)

/-- CALL and CALLR: `tgt` is the target. SPILL is checked first. -/
def callF (i : Instr) (h : Hd) (k : Nat) (rs : List Reg) (tgt : Cur → Option Nat) (s : State) : State :=
  runUni i h (opIll h [] fun x => x.G.handler.isSome) rs s fun x =>
    match tgt x with
    | none => s.trapFreed x (rs.any (uFreed x)) 0x01 i.opc
    | some t =>
      if x.G.bottom + x.G.geo.cap < x.K.depth + k + 24 then s.trapFreed x (rs.any (uFreed x)) 0x0A i.opc
      else
        let link := k / 4 * 2 ^ 61 + (x.K.pc + 8) % 2 ^ 55
        s.finish x (callSlide x.G x.K k link) { x.K.jump t s.tick with depth := x.K.depth + k }

def execCall (h : Hd) (k : BitVec 3) (off : BitVec 24) (s : State) : Ans :=
  .next (callF (.call h k off) h (4 * k.toNat) [] (fun x => some (wordTarget x.K.pc 24 off.toNat)) s)
def execCallr (h : Hd) (k : BitVec 3) (a : Reg) (s : State) : Ans :=
  .next (callF (.callr h k a) h (4 * k.toNat) [a]
    (fun x => if badTarget (uVal x a) then none else some (uVal x a)) s)

/-- RET (R59). The ECC fault of a bad link reports the link's row as its register's number, since no v register of the window
names it (log 108). -/
def retF (h : Hd) (s : State) : State :=
  runUni (.ret h) h noPre [] s fun x =>
    if x.K.depth ≤ x.G.bottom then s.trap x 0x0B 0x88
    else
      let row := posRow (x.K.depth - 1)
      let L := x.G.lane x.K.first
      let link := L.val row
      let k := link / 2 ^ 61 * 4
      match (SMap.get? L.bad row) with
      | some _ => s.uniFault x false 0x0E row 0x88
      | none =>
        if k = 0 ∨ k = 28 ∨ link / 2 ^ 55 % 2 ^ 6 ≠ 0 ∨ link % 4 ≠ 0 then s.trapFreed x (L.freed row) 0x01 0x88
        else if x.K.depth < x.G.bottom + k then s.trap x 0x0B 0x88
        else
          let G := x.G.onLanes x.K.mask fun _ L =>
            (List.range k).foldl (fun L i => L.free (posRow (x.K.depth + 24 - k + i))) L
          s.finish x G { x.K.jump (link % 2 ^ 55) s.tick with depth := x.K.depth - k }
def execRet (h : Hd) (s : State) : Ans := .next (retF h s)

/-- LOOP (R153). -/
def loopF (h : Hd) (d : Reg) (off : BitVec 24) (s : State) : State :=
  runUni (.loop h d off) h noPre [d] s fun x =>
    let n := uVal x d
    if n ≤ 1 then s.doneP x h (x.G.uPut x.K d 0)
    else s.finish x (x.G.uPut x.K d (n - 1)) (x.K.jump (wordTarget x.K.pc 24 off.toNat) s.tick)
def execLoop (h : Hd) (d : Reg) (off : BitVec 24) (s : State) : Ans := .next (loopF h d off s)

/-! ### TRAP (R155) -/

def trapF (h : Hd) (code : BitVec 24) (s : State) : State :=
  runUni (.trap h code) h noPre [] s fun x =>
    s.trapAt x x.G (x.K.adv h s.tick) 0x10 code.toNat (x.K.pc + 4 * h.len) 0x8B
def execTrap (h : Hd) (code : BitVec 24) (s : State) : Ans := .next (trapF h code s)

/-! ### Uniform integer operations (R156, R157) -/

/-- A uniform operation on a and b that writes a register. -/
def uniAlu (i : Instr) (h : Hd) (d a : Reg) (b : UOp) (f : Nat → Nat → Nat) (s : State) : State :=
  runUni i h noPre (a :: uopRegs b) s fun x => s.doneP x h (x.G.uPut x.K d (f (uVal x a) (uopV x b)))

def execUadd (h : Hd) (d : Reg) (a : Reg) (b : UOp) (s : State) : Ans :=
  .next (uniAlu (.uadd h d a b) h d a b (fun x y => (x + y) % 2 ^ 64) s)
def execUsub (h : Hd) (d : Reg) (a : Reg) (b : UOp) (s : State) : Ans :=
  .next (uniAlu (.usub h d a b) h d a b (fun x y => (x + 2 ^ 64 - y) % 2 ^ 64) s)
def execUmul (h : Hd) (d : Reg) (a : Reg) (b : UOp) (s : State) : Ans :=
  .next (uniAlu (.umul h d a b) h d a b (fun x y => x * y % 2 ^ 64) s)
def execUand (h : Hd) (d : Reg) (a : Reg) (b : UOp) (s : State) : Ans :=
  .next (uniAlu (.uand h d a b) h d a b (fun x y => x &&& y) s)
def execUor (h : Hd) (d : Reg) (a : Reg) (b : UOp) (s : State) : Ans :=
  .next (uniAlu (.uor h d a b) h d a b (fun x y => x ||| y) s)
def execUxor (h : Hd) (d : Reg) (a : Reg) (b : UOp) (s : State) : Ans :=
  .next (uniAlu (.uxor h d a b) h d a b (fun x y => x ^^^ y) s)
def execUshl (h : Hd) (d : Reg) (a : Reg) (b : UOp) (s : State) : Ans :=
  .next (uniAlu (.ushl h d a b) h d a b (shlE 64) s)
def execUshr (h : Hd) (d : Reg) (a : Reg) (b : UOp) (s : State) : Ans :=
  .next (uniAlu (.ushr h d a b) h d a b (shrE 64) s)
def execUsar (h : Hd) (d : Reg) (a : Reg) (b : UOp) (s : State) : Ans :=
  .next (uniAlu (.usar h d a b) h d a b (sarE 64) s)
def execUmin (h : Hd) (d : Reg) (a : Reg) (b : UOp) (s : State) : Ans :=
  .next (uniAlu (.umin h d a b) h d a b (sMin 64) s)
def execUmax (h : Hd) (d : Reg) (a : Reg) (b : UOp) (s : State) : Ans :=
  .next (uniAlu (.umax h d a b) h d a b (sMax 64) s)

/-- UMOV: b alone. -/
def umovF (h : Hd) (d : Reg) (b : UOp) (s : State) : State :=
  runUni (.umov h d b) h noPre (uopRegs b) s fun x => s.doneP x h (x.G.uPut x.K d (uopV x b))
def execUmov (h : Hd) (d : Reg) (b : UOp) (s : State) : Ans := .next (umovF h d b s)

/-- UCMP writes a predicate in every active lane. -/
def ucmpF (h : Hd) (c : ICond) (pd : Prd) (a : Reg) (b : UOp) (s : State) : State :=
  runUni (.ucmp h c pd a b) h noPre (a :: uopRegs b) s fun x =>
    s.doneP x h (x.G.uPutPred x.K pd (iCond c 64 (uVal x a) (uopV x b)))
def execUcmp (h : Hd) (c : ICond) (pd : Prd) (a : Reg) (b : UOp) (s : State) : Ans := .next (ucmpF h c pd a b s)

/-- RDFL (R157). -/
def rdflF (h : Hd) (d a : Reg) (s : State) : State :=
  runUni (.rdfl h d a) h noPre [a] s fun x => s.doneP x h (x.G.uPut x.K d (uVal x a))
def execRdfl (h : Hd) (d : Reg) (a : Reg) (s : State) : Ans := .next (rdflF h d a s)

/-! ### Ligatures (R161) -/

/-- Some run of n lanes is partly in the gang's mask, or a stack of the group is not empty. -/
def ligBlocked (G : Group) (K : Gang) (n : Nat) : Bool :=
  ((List.range (G.geo.w / n)).any fun j =>
    (List.range n).any fun i => K.mask.testBit (n * j + i) != K.mask.testBit (n * j)) ||
  G.dstacks.any fun st => !st.isEmpty

def ligF (h : Hd) (n : BitVec 7) (s : State) : State :=
  runUni (.lig h n) h (Pre.and (opIll h [] fun x => decide (x.G.geo.w < n.toNat)) wholePre) [] s fun x =>
    if ligBlocked x.G x.K n.toNat then s.trap x 0x0D 0xC3
    else s.doneP x h { x.G with gstat := x.G.gstat / 8 * 8 + n.toNat.log2 }
def execLig (h : Hd) (n : BitVec 7) (s : State) : Ans := .next (ligF h n s)

def unligF (h : Hd) (s : State) : State :=
  runUni (.unlig h) h wholePre [] s fun x => s.doneP x h { x.G with gstat := x.G.gstat / 8 * 8 }
def execUnlig (h : Hd) (s : State) : Ans := .next (unligF h s)

/-! ### Special registers (R67–R70, R149, R162, R166, R167) -/

/-- A write on its way: it takes effect for instructions that issue 2 or more cycles later (R149). An instruction of the group that
issues one cycle later reads the old value, the issuing gang's own too (log 107). The sticky bits set in the tick of issue count
(R65). -/
def Group.pendWrite (G : Group) (sr v tick : Nat) : Group := { G with wr := G.wr ++ [⟨sr, v, tick + 2, G.stuck⟩] }

def tmshapeF (h : Hd) (code : BitVec 8) (s : State) : State :=
  runUni (.tmshape h code) h noPre [] s fun x => s.doneP x h (x.G.pendWrite 0x09 code.toNat s.tick)
def execTmshape (h : Hd) (code : BitVec 8) (s : State) : Ans := .next (tmshapeF h code s)

def tickF (h : Hd) (d : Reg) (s : State) : State :=
  runUni (.tick h d) h noPre [] s fun x => s.doneP x h (x.G.uPut x.K d s.tick)
def execTick (h : Hd) (d : Reg) (s : State) : Ans := .next (tickF h d s)

/-- POOLMAP (R69). -/
def poolmapV (k : Core) : Nat :=
  k.qAt 0 + k.qAt 1 * 2 ^ 8 + k.qAt 2 * 2 ^ 16 + (if k.move.isSome then 2 ^ 24 else 0) + (k.dq[0]?).getD 0 * 2 ^ 32
    + (k.dq[1]?).getD 0 * 2 ^ 40 + (k.dq[2]?).getD 0 * 2 ^ 48

/-- The value of a special register other than LANE as the issuing gang reads it. -/
def srValue (s : State) (x : Cur) (sr : Nat) : Nat :=
  let G := x.G
  match sr with
  | 0x01 => G.geo.w
  | 0x02 => G.geo.gi
  | 0x03 => ((s.block? G.geo.bid).map (·.idx)).getD 0
  | 0x04 => G.geo.core
  | 0x05 => s.dev
  | 0x06 => G.gstat
  | 0x07 => G.wctmax
  | 0x08 => poolmapV (s.core G.geo.core)
  | 0x09 => G.tmshape
  | 0x0A => (G.geo.shape[0]?).getD 0
  | 0x0B => (G.geo.shape[1]?).getD 0
  | 0x0C => (G.geo.shape[2]?).getD 0
  | 0x0D => (G.geo.shape[3]?).getD 0
  | 0x0E => x.K.depth + G.bottom * 2 ^ 16 + G.geo.cap * 2 ^ 32 + G.geo.slim * 2 ^ 48
  | 0x0F => G.spillbase
  | 0x10 => (s.leases[0]?).getD 0
  | 0x11 => (s.leases[1]?).getD 0
  | 0x12 => (s.leases[2]?).getD 0
  | 0x13 => (s.leases[3]?).getD 0
  | 0x14 => G.fregs.pc
  | 0x15 => G.fregs.cause
  | 0x16 => G.fregs.addr
  | 0x17 => G.fregs.lanes
  | 0x18 => G.fregs.tick
  | 0x19 => G.fregs.eret
  | 0x1A => ((s.regionOf G).map (·.rcb.handler)).getD 0
  | 0x1B => ((s.regionOf G).map (·.addr)).getD 0
  | _ => 0

/-- RDSR: LANE gives each active lane its own number. -/
def rdsrF (h : Hd) (sr : BitVec 8) (d : Reg) (s : State) : State :=
  runUni (.rdsr h sr d) h noPre [] s fun x =>
    let v := srValue s x sr.toNat
    s.doneP x h (x.G.onLanes x.K.mask fun l L => L.set (rowOf x.K.depth d) (if sr = 0 then l else v))
def execRdsr (h : Hd) (sr : BitVec 8) (d : Reg) (s : State) : Ans := .next (rdsrF h sr d s)

/-- A WRSR: where some values are bad, one of those is ILLEGAL, then a privileged register needs privilege (R90, log 106). -/
def wrsrWith (i : Instr) (h : Hd) (sr : Nat) (a : Reg) (priv : Bool) (bad : Option (Nat → Bool)) (norm : Nat → Nat) (s : State) :
    State :=
  let privPre : Pre := fun x => if priv && !s.privileged x.G then some (0x11, false) else none
  let pre := match bad with
    | some c => Pre.and (opIll h [a] fun x => c (uVal x a)) (Pre.read h privPre)
    | none => privPre
  runUni i h pre [a] s fun x => s.doneP x h (x.G.pendWrite sr (norm (uVal x a)) s.tick)

/-- GSTAT (R68): LIGW is left, reserved bits are dropped. -/
def execWrsrGstat (h : Hd) (a : Reg) (s : State) : Ans :=
  .next (wrsrWith (.wrsrGstat h a) h 0x06 a false none (fun v => v / 2 ^ 4 % 2 ^ 4 * 2 ^ 4) s)
/-- TMSHAPE (R67, R104). -/
def execWrsrTmshape (h : Hd) (a : Reg) (s : State) : Ans :=
  .next (wrsrWith (.wrsrTmshape h a) h 0x09 a false (some fun v => !tmCodeOk (v % 2 ^ 8)) (fun v => v % 2 ^ 8) s)
/-- The default quoins of POOLMAP (R69). -/
def poolBad (v : Nat) : Bool :=
  let d1 := v / 2 ^ 32 % 2 ^ 7
  let d2 := v / 2 ^ 40 % 2 ^ 7
  let d3 := v / 2 ^ 48 % 2 ^ 7
  !(decide (4 ≤ d1) && decide (d1 ≤ d2) && decide (d2 + 2 ≤ d3) && decide (d3 ≤ 64))
def execWrsrPoolmap (h : Hd) (a : Reg) (s : State) : Ans :=
  .next (wrsrWith (.wrsrPoolmap h a) h 0x08 a true (some poolBad) (fun v => v) s)
/-- LEASE0 to LEASE3 (R67): 0 is refused. -/
def execWrsrLease (h : Hd) (i : BitVec 2) (a : Reg) (s : State) : Ans :=
  .next (wrsrWith (.wrsrLease h i a) h (0x10 + i.toNat) a true (some fun v => v % 2 ^ 32 == 0) (fun v => v % 2 ^ 32) s)
/-- SPILLBASE <54:9>, ERETPC <54:2>, HANDLER <54:2>. -/
def execWrsr (h : Hd) (sr : BitVec 8) (a : Reg) (s : State) : Ans :=
  .next (wrsrWith (.wrsr h sr a) h sr.toNat a (sr == 0x0F || sr == 0x1A) none
    (fun v => if sr = 0x0F then v % 2 ^ 55 / 2 ^ 9 * 2 ^ 9 else v % 2 ^ 55 / 4 * 4) s)

/-- A write takes effect (R65, R68): sticky bits set since its issue stay set. -/
def State.applyWr (s : State) (g : Nat) (w : PendWr) : State :=
  match s.group? g with
  | none => s
  | some G =>
    match w.sr with
    | 0x06 => s.putGroup g { G with gstat := G.gstat % 8 + w.val ||| w.sticky }
    | 0x09 => s.putGroup g { G with tmshape := w.val }
    | 0x0F => s.putGroup g { G with spillbase := w.val }
    | 0x19 => s.putGroup g { G with fregs := { G.fregs with eret := w.val } }
    | 0x08 => s.onCore G.geo.core fun k => { k with dq := [w.val / 2 ^ 32 % 2 ^ 7, w.val / 2 ^ 40 % 2 ^ 7, w.val / 2 ^ 48 % 2 ^ 7] }
    | 0x1A => match s.block? G.geo.bid with
      | some b => s.onRegion b.rid fun R => { R with rcb := { R.rcb with handler := w.val } }
      | none => s
    | n => if 0x10 ≤ n ∧ n ≤ 0x13 then { s with leases := setAt s.leases (n - 0x10) w.val } else s

/-- The writes of a group that are due. -/
def State.dueWrites (s : State) (g : Nat) : State :=
  match s.group? g with
  | none => s
  | some G =>
    let due := G.wr.filter fun w => decide (w.due ≤ s.tick)
    if due.isEmpty then s
    else due.foldl (fun s w => s.applyWr g w) (s.putGroup g { G with wr := G.wr.filter fun w => decide (s.tick < w.due) })

end Sys2Proof.Machine
end

