-- ==== Sys2Proof/Machine/Pool.lean ====
section
/-! DEFINITION. The pool (R187–R195), stash mappings (R196–R199) and tensor handles (R200–R202): PSET, PQRY, SMAP,
SUNMAP, HRES, HEVICT, HDEMOTE and the steps that complete them (R226–R231). -/

namespace Sys2Proof.Machine

/-! ### Writing stash lines back, removing mappings -/

/-- Groups of a block. -/
def State.groupsOf (s : State) (b : Block) : List (Nat × Group) :=
  b.groups.filterMap fun g => (s.group? g).map fun G => (g, G)

/-- The physical address and entry of a global address, as the issuing region's tables translate it now. -/
def State.globalPA (s : State) (c root va : Nat) : Option (Nat × Nat) × State :=
  match s.translate c root va with
  | (some l, s) => ((s.leafPAC c l va).map fun pa => (pa, l.pte), s)
  | (none, s) => (none, s)

/-- Root of a block's region. -/
def State.blockRoot (s : State) (b : Block) : Nat := ((s.region? b.rid).map (·.rcb.root)).getD 0

/-- Writes line i of a mapping, where dirty, to the global range: a copy-in line whole, of a line under a lease the stored bytes
(log 50). An unmapped page takes none (log 30), and a home that is DOWN loses them (R331). The WCT goes to the block's groups. The
count is that of the lines written. -/
def State.wbStashLine (s : State) (b : Block) (m : Mapping) (i : Nat) : State × Nat :=
  let l := m.line i
  if !l.present || l.dirty = 0 then (s, 0)
  else
    let r := s.globalPA b.core (s.blockRoot b) (m.base + 128 * i)
    let s1 := r.2.onCore b.core fun k => match k.maps.find? fun x => x.id == m.id with
      | some x => k.setMap (x.setLine i { l with dirty := 0 })
      | none => k
    match r.1 with
    | none => (s1, 1)
    | some (pa, pte) =>
      if !s1.addrOk pa then (b.groups.foldl (fun s g => s.raiseWct g s.tick) (s1.loseWrites 1), 1)
      else
      let data := (s1.core b.core).spRead ((s1.window b).1 + m.off + 128 * i) 128
      let hc := pteCC pte == 0 && paSpace pa == 0
      let w := s1.wctOf pa hc
      (b.groups.foldl (fun s g => s.raiseWct g w) (s1.homeMerge (lineOf pa) data (if m.copyIn then allBytes else l.dirty) hc), 1)

/-- A move in progress involves a bank of a mapping's lines (R193). -/
def State.mapMoves (s : State) (b : Block) (m : Mapping) : Bool :=
  (s.core b.core).spMoving ((s.window b).1 + m.off) (128 * m.n)
/-- Line i of a mapping is clean, or its write-back may go to its home after the core's operations before number `id` (R205, R325). -/
def State.stashReady (s : State) (b : Block) (m : Mapping) (id i : Nat) : Bool :=
  !(m.line i).present || (m.line i).dirty == 0 ||
    ((s.globalPA b.core (s.blockRoot b) (m.base + 128 * i)).1.all fun p => s.wbReady b.core id (lineOf p.1))
/-- A mapping's lines may be written back: no move involves them, and no line has to wait. -/
def State.mapReady (s : State) (b : Block) (m : Mapping) (id : Nat) : Bool :=
  !s.mapMoves b m && (List.range m.n).all (s.stashReady b m id)

/-- Writes every dirty present line of a mapping back. -/
def State.wbMap (s : State) (b : Block) (m : Mapping) : State × Nat :=
  (List.range m.n).foldl (fun r i => let q := r.1.wbStashLine b m i; (q.1, r.2 + q.2)) (s, 0)

/-- Lanes that wait for stash lines park, their ligatures with them (R173). -/
def State.parkStash (s : State) (g : Nat) (o : Op) (f : OpLane → Option (Nat × Nat)) : State :=
  match s.group? g with
  | some G => s.afterLanes g (o.parkLanes G s.tick f)
  | none => s

/-- An access parked on an absent line of a removed mapping faults with SPRANGE (R197). -/
def State.stashFault (s : State) (c mid : Nat) : State :=
  s.groups.foldl (fun s e =>
    if e.2.geo.core != c then s
    else e.2.ops.foldl (fun s o =>
      if o.lanes.any fun l => l.inStash && l.pa == mid then
        s.parkStash e.1 o fun l => if l.inStash && l.pa == mid then some (0x07, l.va % 2 ^ 21) else none
      else s) s) s

/-- Removes a mapping: its handle becomes UNBOUND (R198, R200). -/
def State.dropMap (s : State) (b : Block) (m : Mapping) : State :=
  let s1 := s.onCore b.core fun k => { k with maps := k.maps.filter fun x => x.id != m.id }
  let s2 := s1.onBlock b.id fun b => { b with handles := b.handles.map fun h => if h.st = 1 ∧ h.map = m.id then { h with st := 0 } else h }
  s2.stashFault b.core m.id

/-! ### PSET and the move (R190–R194, R226) -/

/-- Pool lines of a local record: first line and count (R270). -/
def OdRec.off (r : OdRec) : Nat := r.w0 / 2 ^ 45 % 2 ^ 14
def OdRec.len (r : OdRec) : Nat := r.w0 / 2 ^ 30 % 2 ^ 15
def Group.localOds (G : Group) : List OdRec := (G.ods.filterMap id).filter fun r => !r.rv

/-- Groups whose contexts lie on a core. -/
def State.onCoreGroups (s : State) (c : Nat) : List Group :=
  (SMap.vals s.groups).filter fun G => G.geo.core == c && !G.ended &&
    ((s.block? G.geo.bid).map fun b => b.st == .resident || b.st == .saving || b.st == .loading).getD false

/-- Whether a block lies on its core. -/
def Block.onCoreB (b : Block) : Bool := b.st == .resident || b.st == .loading || b.st == .saving
/-- A matrix operation, which EXIT and the save of a block wait for (R287, R288). -/
def Eng.isMx (e : Eng) : Bool := match e.kind with | .mx _ => true | _ => false
/-- A matrix operation of a group is outstanding. -/
def State.mxLeft (s : State) (g : Nat) : Bool := s.eng.ops.any fun e => e.gid == g && e.isMx

/-- The groups whose local records hold MX lines of a core: those on it, and the ended ones whose matrix operations run on (log 138). -/
def State.mxHolders (s : State) (c : Nat) : List Group :=
  s.onCoreGroups c ++ (SMap.vals s.groups).filter fun G => G.geo.core == c && G.ended && !G.localOds.isEmpty

/-- Live lane registers of a group: rows not freed (R191). -/
def Group.liveRegs (G : Group) : Nat := G.lanes.foldl (fun n L => n + L.regs.length) 0

/-- Pool authority (R190). -/
def State.authority (s : State) (b : Block) : Bool :=
  (((s.region? b.rid).map fun r => bit r.rcb.flags 1).getD false) ||
    !((SMap.vals s.blocks).any fun x => x.core == b.core && x.id != b.id && (x.st == .resident || x.st == .loading || x.st == .saving))

/-- Absolute SP offset of a mapping's first byte. -/
def State.mapAbs (s : State) (b : Block) (m : Mapping) : Nat := (s.window b).1 + m.off

/-- Whether a mapping meets a bank that SP surrenders. -/
def State.mapSurrendered (s : State) (b : Block) (m : Mapping) (q' : List Nat) : Bool :=
  let k := s.core b.core
  let o := s.mapAbs b m
  (List.range 64).any fun i => surrenders k.q q' 1 i &&
    decide (k.qAt 0 + o / 32768 ≤ i) && decide (i ≤ k.qAt 0 + (o + 128 * m.n - 1) / 32768)

/-- A mapping that a move removes: it meets a bank that SP surrenders, or it does not lie below the new SP size (log 93). -/
def State.mapGoes (s : State) (b : Block) (m : Mapping) (q' : List Nat) : Bool :=
  s.mapSurrendered b m q' ||
    decide (((q'[1]?).getD 0 - (q'[0]?).getD 0) * 32768 < s.mapAbs b m + 128 * m.n)

/-- The owner of a mapping. -/
def State.mapOwner (s : State) (m : Mapping) : Option Block := s.block? m.bid

/-- R191: the checks of a PSET in order; the refusal's code, or 0. -/
def psetCode (s : State) (b : Block) (q' : List Nat) : Nat :=
  let k := s.core b.core
  let a := (q'[0]?).getD 0
  let c := (q'[1]?).getD 0
  let d := (q'[2]?).getD 0
  if !s.authority b then 7
  else if k.move.isSome then 1
  else if a < 4 ∨ c < a ∨ d < c + 2 ∨ 64 < d then 5
  else if ((s.region? b.rid).map (·.rcb.pbanks)).getD 0 < (c - a) + (64 - d) then 6
  else if (s.mxHolders b.core).any fun G => G.localOds.any fun r =>
      (List.range 64).any fun i => surrenders k.q q' 3 i && decide (r.off < 256 * (i + 1)) && decide (256 * i < r.off + r.len) then 3
  else if k.maps.any fun m => match s.mapOwner m with
      | some o => s.mapSurrendered o m q' && o.handles.any fun h => h.st == 1 && h.map == m.id && h.pin
      | none => false then 4
  else if a * 4096 < (s.onCoreGroups b.core).foldl (fun n G => n + G.liveRegs) 0 then 2
  else 0

/-- PSET (R226). -/
def psetF (h : Hd) (d a : Reg) (s : State) : State :=
  let bad (r : Nat) : Bool := r / 2 ^ 23 != 0 || bit r 7 || bit r 15
  runUniLL (.pset h d a) h (Pre.and (opIll h [a] fun x => bad (uVal x a)) (Pre.read h wholePre)) [a] s fun x =>
    let r := uVal x a
    match s.block? x.G.geo.bid with
      | none => s
      | some b =>
        let q' := [r % 2 ^ 7, r / 2 ^ 8 % 2 ^ 7, r / 2 ^ 16 % 2 ^ 7]
        let c := psetCode s b q'
        if c != 0 then (s.doneLL x h (x.G.uPut x.K d c)).count b.rid 1 1 (2 ^ 32 - 1)
        else
          let s1 := (s.startOp x (.pset h d a) h r 0).count b.rid 0 1 (2 ^ 32 - 1)
          s1.onCore b.core fun k => { k with move := some ⟨q', x.g, s.newId⟩ }
def execPset (h : Hd) (d a : Reg) (s : State) : Ans := .next (psetF h d a s)

/-- The core whose SP an engine operand's aperture names: its own, or one of its cluster (R232). -/
def apCore (core va : Nat) : Nat := if inAperture va then core else core / 4 * 4 + (va - 0x7FFFFFFF600000) / 0x200000

/-- Lines of L1 that lie in surrendered banks are written back and invalidated, ahead of requests that wait for the move (log 132); the
count of dirty ones (R192, step 2). -/
def State.flushBanks (s : State) (c : Nat) (p : Nat → Bool) : State × Nat :=
  ((s.core c).ca.filter fun e => p e.2.bank).foldl
    (fun r e => (((r.1.writeBack c e.1).onCore c fun k => k.caDrop e.1), if e.2.dirty = 0 then r.2 else r.2 + 1)) (s, 0)

/-- Steps 2 to 7 of an accepted move (R192); the accesses that waited for it go on (R193). -/
def State.moveQuoins (s : State) (c : Nat) (m : Move) : State :=
  let q := (s.core c).q
  let r2 := s.flushBanks c fun b => surrenders q m.q 2 b
  let r3 := (s.core c).maps.foldl (fun r mp =>
    match r.1.mapOwner mp with
    | some b =>
      if s.mapGoes b mp m.q then
        let w := r.1.wbMap b mp
        (w.1.dropMap b mp, r.2 + w.2)
      else r
    | none => r) r2
  let s4 := r3.1.onCore c fun k =>
    let spNew := ((m.q[1]?).getD 0 - (m.q[0]?).getD 0) * 32768
    { k with
      q := m.q
      move := none
      -- step 4 keeps offsets below both sizes; step 6: gained SP reads zero, MX holds zero
      sp := k.sp.filter fun e => decide (e.1 < min spNew k.spSize)
      mx := k.mx.filter fun e => stays k.q m.q (e.1 / 256)
      poison := k.poison.filter fun e => decide (2 ^ 60 ≤ e.1) || (decide (2 ^ 50 ≤ e.1) && stays k.q m.q ((e.1 - 2 ^ 50) / 4096)) ||
        (decide (e.1 < 2 ^ 50) && decide ((e.1 - 2 ^ 32) * 8 < min spNew k.spSize)) }
  let s6 := match s4.group? m.gid with
  | none => s4
  | some G =>
    match G.op? m.op, s4.block? G.geo.bid with
    | some o, some b =>
      let G1 := match moveQuoins.destOf o with
        | some d => G.onLanes (o.mask &&& G.liveLanes) fun _ L => L.set (rowOf o.depth d) 0
        | none => G
      let s5 := (s4.putGroup m.gid (G1.endOp o)).count b.rid 2 r3.2 (2 ^ 64 - 1)
      let excl := ((s5.region? b.rid).map fun (r : Region) => bit r.rcb.flags 1).getD false
      if excl then s5 else s5.onCore c fun k => { k with claim := some ((k.claim).getD b.id) }
    | _, _ => s4
  s6.retryCore c
where
  /-- A bank that stays with MX. -/
  stays (q q' : List Nat) (bank : Nat) : Bool := roleOf q bank == 3 && roleOf q' bank == 3
  /-- The register that a PSET writes. -/
  destOf (o : Op) : Option Reg := match o.instr with | .pset _ d _ => some d | _ => none

/-- The row of R195 that a selector names, for the issuing block. -/
def pqryRow (s : State) (G : Group) (sel : Nat) : Nat :=
  let c := G.geo.core
  let k := s.core c
  let cnt (i : Nat) : Nat := ((s.regionOf G).map fun r => (r.cnt[i]?).getD 0).getD 0
  match sel with
  | 0 => k.qAt 0 + (k.qAt 1 - k.qAt 0) * 2 ^ 8 + (k.qAt 2 - k.qAt 1) * 2 ^ 16 + (64 - k.qAt 2) * 2 ^ 24
  | 1 =>
    let ms := k.maps.filter fun m => m.bid == G.geo.bid
    let lines (p : StLine → Bool) : Nat := ms.foldl (fun n m => n + ((List.range m.n).filter fun i => p (m.line i)).length) 0
    (lines fun l => l.present && l.dirty != 0) % 2 ^ 16 + (lines fun l => l.present) % 2 ^ 16 * 2 ^ 16
      + (lines fun _ => true) % 2 ^ 16 * 2 ^ 32
  | 2 => (k.ca.filter fun e => e.2.dirty != 0).length % 2 ^ 16 + k.ca.length % 2 ^ 16 * 2 ^ 16
  | 3 =>
    let held (p : Group → Bool) : Nat :=
      ((s.mxHolders c).filter p).foldl (fun n g => n + (g.localOds.foldl (fun n r => n + r.len) 0)) 0
    (256 * (64 - k.qAt 2) - held fun _ => true) % 2 ^ 16 + (held fun g => g.geo.bid == G.geo.bid) % 2 ^ 16 * 2 ^ 16
  | 4 => (s.onCoreGroups c).foldl (fun n g => n + g.liveRegs) 0
  | 5 => cnt 1 + cnt 0 * 2 ^ 32
  | 6 => cnt 2
  | _ => cnt 3

/-- PQRY (R227). -/
def pqryF (h : Hd) (d a : Reg) (s : State) : State :=
  runUni (.pqry h d a) h noPre [a] s fun x =>
    if 8 ≤ uVal x a then s.trapFreed x (uFreed x a) 0x01 0xA2 else s.doneP x h (x.G.uPut x.K d (pqryRow s x.G (uVal x a)))
def execPqry (h : Hd) (d a : Reg) (s : State) : Ans := .next (pqryF h d a s)

/-! ### SMAP and SUNMAP (R228, R229) -/

/-- Pages of a range [a, a + n): the first address of each, by the granule of 64 KiB. -/
def pagesOf (a n : Nat) : List Nat :=
  if n = 0 then [] else (List.range ((a + n - 1) / 2 ^ 16 - a / 2 ^ 16 + 1)).map fun i => max a ((a / 2 ^ 16 + i) * 2 ^ 16)

/-- A range cut at the multiples of `g`: address and bytes. -/
def piecesOf (g va n : Nat) : List (Nat × Nat) :=
  if n = 0 then []
  else (List.range ((va + n - 1) / g - va / g + 1)).map fun i =>
    let a := max va ((va / g + i) * g)
    (a, min ((a / g + 1) * g) (va + n) - a)
/-- A range cut at the 4 KiB granules in which every view of memory is contiguous (R206). -/
def granulesOf (va n : Nat) : List (Nat × Nat) := piecesOf 4096 va n

/-- The first fault of a range's pages: cause and address. -/
def State.rangeFault (s : State) (c root : Nat) (r w priv noGs : Bool) : List Nat → Option (Nat × Nat) × State
  | [] => (none, s)
  | va :: vs =>
    if va / 2 ^ 55 != 0 then (some (0x04, va), s)
    else
    match s.translate c root va with
    | (none, s) => (some (0x04, va), s)
    | (some l, s) =>
      match s.pageFault c l.pte (ptePA l.pte) r w priv with
      | some e => (some (e, va), s)
      | none => if noGs && pteGS l.pte then (some (0x06, va), s) else State.rangeFault s c root r w priv noGs vs

/-- Two ranges meet. -/
def meets (a n b m : Nat) : Bool := decide (a < b + m) && decide (b < a + n)

/-- Mappings that blocks which are LOADING on a core bring back: they have their places among the 32 (R196, R199). -/
def State.mapsComing (s : State) (c : Nat) : Nat :=
  ((SMap.vals s.blocks).filter fun b => b.core == c && b.st == .loading).foldl (fun n b => n + b.maps.length) 0

/-- R228: why a mapping is refused: the alignment, the pages, then the window. -/
def mapFault (s : State) (x : Cur) (b : Block) (o gva n : Nat) : Option (Nat × Nat) × State :=
  if o % 128 != 0 then (some (0x03, o), s)
  else if gva % 128 != 0 then (some (0x03, gva), s)
  else
    match s.rangeFault b.core (s.rootOf x.G) true true (s.privileged x.G) true (pagesOf gva (128 * n)) with
    | (some e, s) => (some e, s)
    | (none, s) =>
      let k := s.core b.core
      let w := s.window b
      let abs := w.1 + o
      if decide (w.2 < o + 128 * n) || (k.maps.any fun m => m.bid == b.id && meets m.off (128 * m.n) o (128 * n)) ||
          ((List.range 64).any fun i => k.moving i && decide (k.qAt 0 + abs / 32768 ≤ i) &&
            decide (i ≤ k.qAt 0 + (abs + 128 * n - 1) / 32768)) || decide (32 ≤ k.maps.length + s.mapsComing b.core)
      then (some (0x07, o), s)
      else (none, s)

/-- A new mapping: in copy-in mode every line is present, in fill mode none (R197). -/
def newMapping (id bid o n gva : Nat) (copyIn : Bool) : Mapping := ⟨id, bid, o, n, gva, copyIn, []⟩

/-- Whether an access of the group would have to walk while a store of the group is not performed (R186). -/
def walkWaits (G : Group) : Bool := !G.storesDone (2 ^ 64)

def smapF (h : Hd) (copyIn : Bool) (n : BitVec 15) (a b : Reg) (s : State) : State :=
  runUni (.smap h copyIn n a b) h wholePre [a, b] s fun x =>
    match s.block? x.G.geo.bid with
    | none => s
    | some blk =>
      if walkWaits x.G then s.heldAtIssue
      else
      match mapFault s x blk (uVal x a) (uVal x b) n.toNat with
      | (some (c, v), s) => s.uniFault x (uFreed x a || uFreed x b) c v 0xA3
      | (none, s) =>
        (s.fresh.onCore blk.core fun k =>
          { k with maps := k.maps ++ [newMapping s.nextId blk.id (uVal x a) n.toNat (uVal x b) copyIn] }).doneP x h x.G
def execSmap (h : Hd) (copyIn : Bool) (n : BitVec 15) (a b : Reg) (s : State) : Ans := .next (smapF h copyIn n a b s)

/-- SUNMAP: the write-back reaches its homes and the mapping goes; the gang is not held longer (log 31). It waits for what its lines have
to wait for (R193, R205, R325). -/
def sunmapF (h : Hd) (a : Reg) (s : State) : State :=
  runUni (.sunmap h a) h wholePre [a] s fun x =>
    match s.block? x.G.geo.bid with
    | none => s
    | some b =>
      match (s.core b.core).maps.find? fun m => m.bid == b.id && m.off == uVal x a with
      | none => s.doneP x h x.G
      | some m =>
        if walkWaits x.G || !s.mapReady b m s.nextId then s.heldAtIssue
        else
          let s1 := ((s.putGroup x.g x.G).wbMap b m).1.dropMap b m
          match s1.group? x.g with
          | some G => s1.doneP x h G
          | none => s1
def execSunmap (h : Hd) (a : Reg) (s : State) : Ans := .next (sunmapF h a s)

/-! ### Handles (R200, R230, R231) -/

def Block.handle (b : Block) (i : Nat) : Handle := (b.handles[i]?).getD ⟨0, 0, 0, false⟩
def Block.setHandle (b : Block) (i : Nat) (h : Handle) : Block := { b with handles := setAt b.handles i h }

/-- Releases the LLC hold of a handle (R200, R202). -/
def State.releaseHold (s : State) (bid hk : Nat) : State :=
  let f (e : Nat × HomeLine) : Nat × HomeLine :=
    if (e.2.held.map (·.1)) == some (bid * 16 + hk) then (e.1, { e.2 with held := none }) else e
  { s with ms := { s.ms with homes := s.ms.homes.map f } }

def hresF (h : Hd) (copyIn : Bool) (pri : BitVec 3) (pin : Bool) (k : BitVec 4) (n : BitVec 15) (a b : Reg) (s : State) :
    State :=
  runUni (.hres h copyIn pri pin k n a b) h
    (Pre.and (opIll h [] fun x => ((s.block? x.G.geo.bid).map fun b => (b.handle k.toNat).st == 1).getD false) wholePre)
    [a, b] s fun x =>
    match s.block? x.G.geo.bid with
    | none => s
    | some blk =>
      if walkWaits x.G then s.heldAtIssue
      else
      match mapFault s x blk (uVal x a) (uVal x b) n.toNat with
      | (some (c, v), s) => s.uniFault x (uFreed x a || uFreed x b) c v 0xA5
      | (none, s) =>
        let s1 := if (blk.handle k.toNat).st = 2 then s.releaseHold blk.id k.toNat else s
        let s2 := s1.fresh.onCore blk.core fun k =>
          { k with maps := k.maps ++ [newMapping s.nextId blk.id (uVal x a) n.toNat (uVal x b) copyIn] }
        (s2.onBlock blk.id fun b => b.setHandle k.toNat ⟨1, s.nextId, pri.toNat, pin⟩).doneP x h x.G
def execHres (h : Hd) (copyIn : Bool) (pri : BitVec 3) (pin : Bool) (k : BitVec 4) (n : BitVec 15) (a b : Reg) (s : State) :
    Ans := .next (hresF h copyIn pri pin k n a b s)

/-- HEVICT and HDEMOTE: on a STASH handle the move starts; HEVICT of a DEMOTED one releases the hold; otherwise the flag
falls within the pipeline. The walks of the move see the group's earlier stores (R186). -/
def handleF (i : Instr) (demote : Bool) (h : Hd) (k : BitVec 4) (s : State) : State :=
  runUniLL i h wholePre [] s fun x =>
    match s.block? x.G.geo.bid with
    | none => s
    | some b =>
      match (b.handle k.toNat).st with
      | 1 => if walkWaits x.G then s.heldAtIssue else s.startOp x i h k.toNat (if demote then 1 else 0)
      | 2 =>
        if demote then s.doneLL x h x.G
        else
          ((s.releaseHold b.id k.toNat).onBlock b.id fun b =>
            b.setHandle k.toNat { b.handle k.toNat with st := 0 }).doneLL x h x.G
      | _ => s.doneLL x h x.G
def execHevict (h : Hd) (k : BitVec 4) (s : State) : Ans := .next (handleF (.hevict h k) false h k s)
def execHdemote (h : Hd) (k : BitVec 4) (s : State) : Ans := .next (handleF (.hdemote h k) true h k s)

/-- R202: whether the LLC set of a line takes one more held line at a priority. -/
def holdFits (s : State) (line pri : Nat) : Bool :=
  let others := s.ms.homes.filter fun e => s.llcSet e.1 == s.llcSet line && e.2.held.isSome && e.1 != line
  decide (others.length < 8) || others.any fun e => decide ((e.2.held.map (·.2)).getD 0 < pri)

/-- Holds a line for a tensor; a full set gives up its held line of lowest priority below the tensor's. -/
def State.holdLine (s : State) (line owner pri : Nat) : State :=
  if !holdFits s line pri then s
  else
    let others := s.ms.homes.filter fun e => s.llcSet e.1 == s.llcSet line && e.2.held.isSome && e.1 != line
    let s1 :=
      if others.length < 8 then s
      else
        let low := others.foldl (fun m e => if (e.2.held.map (·.2)).getD 0 < m.2 then (e.1, (e.2.held.map (·.2)).getD 0) else m) (0, 8)
        s.setHome low.1 { s.homeLine low.1 with held := none }
    s1.setHome line ⟨s1.lxOf line, (s1.homeLine line).wt, some (owner, pri)⟩

/-- HANDLE_MOVE_COMPLETE: the write-back is performed, the mapping goes, and HDEMOTE's present lines are held; those of host memory are
never cached (R330). It waits for what its lines have to wait for (R193, R205, R325). -/
def handleMoveF (g op : Nat) (s : State) : State :=
  match s.group? g with
  | none => s
  | some G =>
    match G.op? op, s.block? G.geo.bid with
    | some o, some b =>
      let fin (s : State) : State := s.onGroup g fun G => G.endOp o
      let go (demote : Bool) : State :=
        let hd := b.handle o.x
        match (s.core b.core).maps.find? fun m => m.id == hd.map && hd.st == 1 with
        | none => fin s
        | some m =>
          if !s.mapReady b m o.id then s else
          let s1 := (s.wbMap b m).1
          let s2 := if demote then
              (List.range m.n).foldl (fun s i =>
                if !(m.line i).present then s
                else match s.globalPA b.core (s.blockRoot b) (m.base + 128 * i) with
                  | (some (pa, _), s) => if isHost pa then s else s.holdLine (lineOf pa) (b.id * 16 + o.x) hd.pri
                  | (none, s) => s) s1
            else s1
          let s3 := s2.dropMap b m
          fin (s3.onBlock b.id fun b => b.setHandle o.x { hd with st := if demote then 2 else 0 })
      if !G.storesDone o.id then s
      else match o.instr with
      | .hevict _ _ => go false
      | .hdemote _ _ => go true
      | _ => s
    | _, _ => s
def execHandleMoveComplete (g op : Nat) (s : State) : Ans := .next (handleMoveF g op s)

/-! ### Absent stash lines (R197) -/

/-- Whether an access waits for a line of a mapping. -/
def Op.waitsStash (o : Op) (mid line : Nat) : Bool := o.lanes.any fun l => l.inStash && l.pa == mid && l.pte == line

/-- Lanes that waited for a line go on with their ligatures, in the order their operations issued. -/
def State.unpark (s : State) (c mid line : Nat) : State :=
  s.groups.foldl (fun s e =>
    if e.2.geo.core != c then s
    else e.2.ops.foldl (fun s o =>
      if o.waitsStash mid line then
        s.resolveOp e.1 { o with lanes := o.lanes.map fun l =>
          if l.inStash && o.lanes.any fun x => x.inStash && x.pa == mid && x.pte == line && x.lane / ligN e.2 == l.lane / ligN e.2 then
            { l with st := .walk } else l }
      else s) s) s

/-- A lane that waits for a line whose page has gone, or is one that a stash may not hold, parks with the fault of its access (log 32),
once its group's earlier stores are performed, which the walk has to see (R186). -/
def State.stashXlate (s : State) (c mid line cause : Nat) : State :=
  s.groups.foldl (fun s e =>
    if e.2.geo.core != c then s
    else e.2.ops.foldl (fun s o =>
      if o.waitsStash mid line && e.2.storesDone o.id then
        s.parkStash e.1 o fun l => if l.inStash && l.pa == mid && l.pte == line then some (cause, l.va) else none
      else s) s) s

/-- How the fill of a stash line ends. -/
inductive StashFill where
  | filled
  | wait
  | flt (cause : Nat)
  deriving DecidableEq, Repr

/-- Fills an absent line of a mapping from its global range. A page of a graph space is never held (R213), one of host memory is never
cached (R330, log 134), and another core's CP page faults (R262); a change of the line's home holds the fill (R205), and so do a move
of its banks (R193) and, where dirty bytes of the line go home first, the core's earlier requests there (R325). -/
def State.fillStash (s : State) (b : Block) (m : Mapping) (line : Nat) : StashFill × State :=
  match s.globalPA b.core (s.blockRoot b) (m.base + 128 * line) with
  | (none, s) => (.flt 0x04, s)
  | (some (pa, pte), s) =>
    if !s.addrOk pa then (.flt 0x04, s)
    else if pteGS pte || 2 < pteCC pte || isHost pa || s.cpOther pte b.core then (.flt 0x06, s)
    else if !s.drained pa || (s.core b.core).spMoving ((s.window b).1 + m.off + 128 * line) 128 ||
        ((((s.core b.core).caLine (lineOf pa)).any fun l => l.dirty != 0) && !s.wbReady b.core s.nextId (lineOf pa)) then (.wait, s)
    else
    let hc := pteCC pte = 0
    let s := s.writeBack b.core (lineOf pa)
    let s := if pteCC pte = 2 then s.takeCp (ptePA pte) b.core else s
    let r := s.serveFill (lineOf pa) (pteLC pte) hc none
    let l := m.line line
    let o := (r.2.window b).1 + m.off + 128 * line
    let data := lineMerge r.1.1 ((r.2.core b.core).spRead o 128) l.dirty
    (.filled, r.2.onCore b.core fun k =>
      (k.spWrite o 128 data).setMap (m.setLine line
        { l with present := true, fill := s.tick, expiry := if hc then r.1.2.1 else 0, time := r.1.2.2 }))

/-- The operations of a core that wait for a line of a mapping, with their groups. -/
def State.stashWaiters (s : State) (c mid line : Nat) : List (Group × Op) :=
  ((SMap.vals s.groups).filter fun G => G.geo.core == c).flatMap fun G => (G.ops.filter fun o => o.waitsStash mid line).map fun o => (G, o)

/-- STASH_LINE_FILLED: an absent line that an access waits for arrives from its global range in a fill-mode mapping, once the stores that
one of those accesses' groups issued before it are performed: its walk sees them (R186). -/
def stashFillF (c mid line : Nat) (s : State) : State :=
  match (s.core c).maps.find? fun m => m.id == mid with
  | none => s
  | some m =>
    match s.block? m.bid with
    | none => s
    | some b =>
      let ws := s.stashWaiters c mid line
      if m.copyIn || !(ws.any fun w => w.1.storesDone w.2.id) then s
      else
        match s.fillStash b m line with
        | (.filled, s1) => s1.unpark c mid line
        | (.flt cause, s1) => s1.stashXlate c mid line cause
        | (.wait, s1) => s1
def execStashLineFilled (c m line : Nat) (s : State) : Ans := .next (stashFillF c m line s)

end Sys2Proof.Machine
end

