-- ==== Sys2Proof/Machine/Engine.lean ====
section
/-! DEFINITION. What every engine operation does (R232, R265): its accesses to memory and SP with the issuing region's tables,
the proofs it writes to, how it fails and ends (R183, R232). -/

namespace Sys2Proof.Machine

/-- What an engine access answers. -/
inductive Er (α : Type) where
  | ok (a : α)
  | flt (cause addr : Nat)
  | wait

/-- Where an engine access goes: SP of a core, the kept window of a block that is not on a core, with the place in memory that a write
of one of its mapped lines goes to as well, or memory with its entry. -/
inductive EAt where
  | sp (core off : Nat)
  | kept (bid off : Nat) (also : Option (Nat × Nat))
  | mem (pa pte : Nat)
  deriving DecidableEq, Repr

def State.engRoot (s : State) (e : Eng) : Nat := ((s.region? e.rid).map (·.rcb.root)).getD 0
def State.engPriv (s : State) (e : Eng) : Bool := ((s.region? e.rid).map fun r => bit r.rcb.flags 2).getD false

/-- The block of the issuing region whose window a peer aperture or a remote record names: on its core, and not still loading
(R232, R273). The issuing block itself, where it is DONE, counts as if it were still resident (R39). -/
def State.peerBlock (s : State) (e : Eng) (c : Nat) : Option Block :=
  (SMap.vals s.blocks).find? fun b =>
    b.rid == e.rid && b.core == c && (b.st == .resident || b.st == .saving || (b.st == .done && b.id == e.bid))

/-- The block whose window an aperture address of an engine operation names. -/
def State.apBlock (s : State) (e : Eng) (va : Nat) : Option Block :=
  if inAperture va then s.block? e.bid else if inPeer va then s.peerBlock e (apCore e.core va) else none
def apOff (va : Nat) : Nat := if inAperture va then va % 2 ^ 21 else (va - 0x7FFFFFFF600000) % 0x200000

/-- An operation's write into an SP bank that the core's move surrenders has started and not completed: the move waits for it (R192,
step 1), and it for no move. -/
def State.startedInto (s : State) (e : Eng) (c : Nat) : Bool :=
  let k := s.core c
  match k.move, e.kind with
  | some m, .copy dst _ len _ landed _ =>
    (inAperture dst || inPeer dst) && apCore e.core dst == c && !landed.isEmpty && ((s.apBlock e dst).any fun b =>
      let o := (s.window b).1 + apOff dst
      (List.range 64).any fun i => surrenders k.q m.q 1 i && decide (k.qAt 0 + o / 32768 ≤ i) &&
        decide (i ≤ k.qAt 0 + (o + len - 1) / 32768))
  | some _, .mx j => j.granted && e.core == c && inAperture j.addr && (s.block? e.bid).any Block.onCoreB && (match j.instr with | .mxst .. => true | _ => false)
  | _, _ => false

/-- SP of a block's window at an offset; the bytes have to lie in the window, and the fault names the first offset that lies outside
(R189). An access of a bank that a move involves waits (R193). -/
def State.engSp (s : State) (e : Eng) (b : Block) (o n : Nat) : Er EAt :=
  let w := s.window b
  let exempt := ((List.range 4).map fun i => e.core / 4 * 4 + i).any (s.startedInto e)
  if w.2 < o + n then .flt 0x07 (max o w.2)
  else if (s.core b.core).spMoving (w.1 + o) n && !exempt then .wait
  else .ok (.sp b.core (w.1 + o))

/-- An engine access of global memory, of bytes that lie in one granule (R206, R210, R232, R262, R265); `wr` marks a write. It waits
while a table that its walk reads changes home (R205). -/
def State.engMem (s : State) (e : Eng) (va : Nat) (wr : Bool) : Er EAt :=
    if !((walkSlots (fun a => s.coreRead e.core a 8) (s.engRoot e) va).all s.drained) then .wait
    else
    match s.walk e.core (s.engRoot e) va with
    | none => .flt 0x04 va
    | some l =>
      if (wr && !pteW l.pte) || (!wr && !pteR l.pte) || (!pteU l.pte && !s.engPriv e) then .flt 0x05 va
      else if 2 ≤ pteCC l.pte then .flt 0x06 va
      else
        let o := va % 2 ^ l.bits
        let pa : Option Nat :=
          if !ptePB l.pte then s.leafPA l va
          else
            (s.pbDesc l.pte l.bits).map fun d =>
              let known := ((if wr then e.proofs else e.srcs).find? fun p => p.desc == d.desc).map (·.back)
              canon ((known.getD (if d.active == wr then d.back0 else d.back1)) + o)
        match pa with
        | none => .flt 0x04 va
        | some pa =>
          if !s.addrOk pa then .flt 0x04 va
          else if isConfig pa then .flt 0x06 va
          else if !s.drained pa then .wait
          else .ok (.mem pa l.pte)

/-- SP of a block that has left its core, for bytes of one line: its window is kept as it was, for a DONE block as if it were still
resident (R39, R56). The mapped lines of a SAVED block have been written back and stand for their global bytes, which the access uses;
those of a DONE block are kept, and a write of them, which would leave them dirty, goes to their global bytes too (R198, R199,
log 113). -/
def State.engKept (s : State) (e : Eng) (b : Block) (o n : Nat) (wr : Bool) : Er EAt :=
  let sp := ((b.sq[1]?).getD 0 - (b.sq[0]?).getD 0) * 32768
  let len := if b.whole then sp else min b.ownLen (sp - b.own0)
  if len < o + n then .flt 0x07 (max o len)
  else
    match b.maps.find? fun m => meets m.off (128 * m.n) o n with
    | none => .ok (.kept b.id o none)
    | some m =>
      let here : Er EAt := s.engMem e (m.base + (o - m.off)) wr
      if b.st == .saved then here
      else if !wr || (m.copyIn && (match e.kind with | .copy .. => true | _ => false)) then .ok (.kept b.id o none)
      else match here with
        | .ok (.mem pa pte) => .ok (.kept b.id o (some (pa, pte)))
        | .wait => .wait
        | _ => .ok (.kept b.id o none)

/-- SP of a block's window, wherever it is now. -/
def State.engWin (s : State) (e : Eng) (b : Block) (o n : Nat) (wr : Bool) : Er EAt :=
  match b.st with
  | .resident | .saving => s.engSp e b o n
  | .saved | .done => s.engKept e b o n wr
  | _ => .wait

/-- An engine access of `n` bytes of one piece of a range; `wr` marks a write. -/
def State.engAt (s : State) (e : Eng) (va n : Nat) (wr : Bool) : Er EAt :=
  if 2 ^ 55 ≤ va then .flt 0x04 va
  else if inAperture va then
    match s.block? e.bid with
    | some b => s.engWin e b (apOff va) n wr
    | none => .flt 0x07 (apOff va)
  else if inPeer va then
    match e.kind with
    | .copy .. =>
      match s.peerBlock e (apCore e.core va) with
      | some b => s.engWin e b (apOff va) n wr
      | none => .flt 0x07 (apOff va)
    | _ => .flt 0x04 va
  else s.engMem e va wr

/-- Bytes at a place an engine reads. -/
def State.engBytes (s : State) (a : EAt) (n : Nat) : List Nat :=
  match a with
  | .sp c o => (List.range n).map fun i => ((s.core c).spByte (o + i)).toNat
  | .kept b o _ => (List.range n).map fun i => ((s.block? b).map fun B => (SMap.getD B.sp (o + i) 0).toNat).getD 0
  | .mem pa _ => (List.range n).map fun i => (s.homeByte (pa + i)).toNat

/-- A range cut at the bounds of granules, of an aperture at those of its lines: address and bytes. -/
def cutRange (va n : Nat) : List (Nat × Nat) := if inAperture va || inPeer va then piecesOf 128 va n else granulesOf va n

/-- A read of a piece meets an uncorrectable word (R185, R304). -/
def State.engBad (s : State) (a : EAt) (n : Nat) : Bool :=
  match a with
  | .sp c o => ((s.core c).spPoison o n).isSome
  | .kept b o _ => (s.block? b).any fun B => (spWords o n).any fun w => (SMap.get? B.bad (w - 2 ^ 32)).isSome
  | .mem pa _ => s.memBad pa n

/-- Reads the pieces of a range. -/
def State.engReads (s : State) (e : Eng) : List (Nat × Nat) → Er (List Nat)
  | [] => .ok []
  | (va, n) :: l =>
    match s.engAt e va n false with
    | .flt c a => .flt c a
    | .wait => .wait
    | .ok a =>
      if s.engBad a n then .flt 0x0E va
      else
        match State.engReads s e l with
        | .ok bs => .ok (s.engBytes a n ++ bs)
        | r => r

/-- An engine read of a range. -/
def State.engRead (s : State) (e : Eng) (va n : Nat) : Er (List Nat) := s.engReads e (cutRange va n)

/-- An engine write of memory raises the issuing group's WCTMAX (R266); no line of a GS or uncached page comes into the LLC (R213). -/
def State.engPutMem (s : State) (e : Eng) (pa pte : Nat) (bs : List Nat) : State :=
    let s1 := s.homeWriteB pa (bs.map (BitVec.ofNat 8)) (pteCC pte == 0 && pteCpol pte != 2)
    s1.raiseWct e.gid ((linesOf pa bs.length).foldl (fun m l => max m (s1.homeLine l).wt) 0)

/-- Writes bytes to a place. -/
def State.engPut (s : State) (e : Eng) (a : EAt) (bs : List Nat) : State :=
  match a with
  | .sp c o => s.onCore c fun k => k.spWrite o bs.length (leBytes bs)
  | .kept b o also =>
    let s1 := match also with | some (pa, pte) => s.engPutMem e pa pte bs | none => s
    s1.onBlock b fun B =>
      { B with
        sp := putBytes B.sp o (bs.map (BitVec.ofNat 8))
        bad := (spWords o bs.length).foldl (fun m w => SMap.del m (w - 2 ^ 32)) B.bad }
  | .mem pa pte => s.engPutMem e pa pte bs
where
  leBytes (bs : List Nat) : Nat := bs.foldr (fun b r => b % 256 + 256 * r) 0

/-- The places of a range's pieces for a write, all of them before any is written. -/
def State.engPlaces (s : State) (e : Eng) : List (Nat × Nat) → Er (List (EAt × Nat))
  | [] => .ok []
  | (va, n) :: l =>
    match s.engAt e va n true with
    | .flt c a => .flt c a
    | .wait => .wait
    | .ok a =>
      match State.engPlaces s e l with
      | .ok r => .ok ((a, n) :: r)
      | r => r

/-- Writes bytes to places. -/
def State.engPuts (s : State) (e : Eng) : List (EAt × Nat) → List Nat → State
  | [], _ => s
  | (a, n) :: l, bs => State.engPuts (s.engPut e a (bs.take n)) e l (bs.drop n)

/-- An engine write of a range: the state, or why nothing was written. -/
def State.engWrite (s : State) (e : Eng) (va : Nat) (bs : List Nat) : Er State :=
  match s.engPlaces e (cutRange va bs.length) with
  | .ok ps => .ok (s.engPuts e ps bs)
  | .flt c a => .flt c a
  | .wait => .wait

/-- Marks bytes that an engine wrote into lines of stash mappings as dirty (log 109). -/
def State.stashDirty (s : State) (e : Eng) (va n : Nat) : State :=
  match s.apBlock e va with
  | none => s
  | some b =>
    ((List.range (n / 128 + 2)).map fun i => (apOff va / 128 + i) * 128).foldl (fun st lo =>
      let a := max lo (apOff va)
      let z := min (lo + 128) (apOff va + n)
      if a < z then st.onCore b.core fun k => k.spDirty b.id a (z - a) else st) s

/-- The publishable buffers that a range names, with the backing an operation that starts now reads or writes (R265). -/
def State.pbOf (s : State) (e : Eng) (wr : Bool) (va n : Nat) : List Proof :=
  (pagesOf va n).filterMap fun p =>
    if inAperture p || inPeer p || decide (2 ^ 55 ≤ p) then none
    else (s.walk e.core (s.engRoot e) p).bind fun l =>
      if ptePB l.pte then (s.pbDesc l.pte l.bits).map fun d => ⟨d.desc, if d.active == wr then d.back0 else d.back1⟩ else none

/-- Whether a range's pages are all publishable (R242, R312), where they are pages at all. -/
def State.allPb (s : State) (e : Eng) (va n : Nat) : Bool :=
  (pagesOf va n).all fun p =>
    decide (2 ^ 55 ≤ p) || !inAperture p && !inPeer p && (match s.walk e.core (s.engRoot e) p with | some l => ptePB l.pte | none => true)

/-- POOL_MOVE: a move runs once engine writes that had started in the banks that SP surrenders have completed (R192). -/
def poolMoveF (c : Nat) (s : State) : State :=
  match (s.core c).move with
  | some m => if s.eng.ops.any fun e => s.startedInto e c then s else s.moveQuoins c m
  | none => s
def execPoolMove (c : Nat) (s : State) : Ans := .next (poolMoveF c s)

/-- Fails an operation that has not failed yet. -/
def Eng.failed (e : Eng) (cause addr : Nat) : Eng := { e with fail := some ((e.fail).getD (cause, addr)) }

/-- R183, R232: a failed operation spoils its proofs, writes its ENGINE record, and its flag falls. -/
def State.failEng (s : State) (e : Eng) (engine status cause addr : Nat) : State :=
  ((s.spoilAll e.proofs).engineRec e engine status cause addr).endEng e

end Sys2Proof.Machine
end

