-- ==== Sys2Proof/Machine/Uaccess.lean ====
section
/-! DEFINITION. Accesses of uniform instructions to memory (R148, R158, R163, R164, R169, R223, R240): the address checks of a
range, its bytes as the issuing core reads them, and stores to it. -/

namespace Sys2Proof.Machine

/-- A part of a range that lies in one page or in SP: address, physical address or SP offset, entry, bytes. -/
structure Piece where
  va : Nat
  pa : Nat
  pte : Nat
  n : Nat
  sp : Bool
  deriving DecidableEq, Repr

/-- What the checks of a range answer. -/
inductive UAt where
  | flt (cause addr : Nat) (sub : Bool := false)
  | wait
  | ok (ps : List Piece)
  deriving DecidableEq, Repr

/-- A translated access, walking where the core's cache does not hold the page. -/
def State.xlWalk (s : State) (c root va : Nat) (r w priv : Bool) : Xl × State :=
  let q := s.translate c root va
  match q.2.xlate c root va r w priv with
  | .miss => (.flt 0x04, q.2)
  | x => (x, q.2)

/-- The checks of one piece of a range. -/
def State.pieceAt (s : State) (G : Group) (b : Block) (va n : Nat) (r w : Bool) : UAt × State :=
  if 2 ^ 55 ≤ va then (.flt 0x04 va, s)
  else if inAperture va then
    let o := va % 2 ^ 21
    let q := s.window b
    let k := s.core b.core
    if q.2 < o + n then (.flt 0x07 (max o q.2), s)
    else if k.spMoving (q.1 + o) n then (.wait, s)
    else
      match (List.range ((o + n - 1) / 128 - o / 128 + 1)).findSome? fun i =>
          let x := max o ((o / 128 + i) * 128)
          match k.mapAt b.id x with
          | some m => if m.here ((x - m.off) / 128) allBytes s.tick then none else some (m, (x - m.off) / 128)
          | none => none with
      | some (m, i) =>
        if m.copyIn then (.wait, s)
        else match s.fillStash b m i with
          | (.flt cause, s) => (.flt cause va, s)
          | (_, s) => (.wait, s)
      | none =>
        match if r then k.spPoison (q.1 + o) n else none with
        | some (x, sub) => (.flt 0x0E x sub, s)
        | none => (.ok [⟨va, q.1 + o, 0, n, true⟩], s)
  else if inPeer va then (.flt 0x04 va, s)
  else
    if s.walkHeld b.core (s.rootOf G) va then (.wait, s)
    else
    match s.xlWalk b.core (s.rootOf G) va r w (s.privileged G) with
    | (.ok pa pte, s) =>
      if pathOf pte pa 0 != 2 && (linesOf pa n).any fun l => s.lineMoves b.core l || !s.drained l || (w && s.roomHeld b.core s.nextId l) then (.wait, s)
      else
      match if r then (s.core b.core).caPoison pa n else none with
      | some (x, sub) =>
        if ((s.core b.core).caLine (lineOf x)).any fun l => l.dirty != 0 then (.flt 0x0E ((s.core b.core).caPoolWord x) sub, s)
        else (.ok [⟨va, pa, pte, n, false⟩], s)
      | none => (.ok [⟨va, pa, pte, n, false⟩], s)
    | (.flt c, s) => (.flt c va, s)
    | (.miss, s) => (.flt 0x04 va, s)

/-- The pieces of a range, page by page; the first failing one decides. -/
def State.piecesAt (s : State) (G : Group) (b : Block) (r w : Bool) (acc : List Piece) : List (Nat × Nat) → UAt × State
  | [] => (.ok acc, s)
  | (va, n) :: l =>
    match s.pieceAt G b va n r w with
    | (.ok ps, s) => State.piecesAt s G b r w (acc ++ ps) l
    | e => e

/-- A range cut at page bounds. -/
def cutPages (va n : Nat) : List (Nat × Nat) := granulesOf va n

/-- The checks of a uniform instruction's range (R148): XLATE, ALIGN, then page by page. -/
def State.uniAt (s : State) (G : Group) (b : Block) (va n al : Nat) (r w : Bool) : UAt × State :=
  if 2 ^ 55 ≤ va then (.flt 0x04 va, s)
  else if va % al != 0 then (.flt 0x03 va, s)
  else s.piecesAt G b r w [] (cutPages va n)

/-- One byte of a piece as the core's loads see it: L1's readable bytes, else the home (R186, R258). -/
def State.pieceByte (s : State) (c : Nat) (p : Piece) (i : Nat) : Nat :=
  if p.sp then ((s.core c).spByte (p.pa + i)).toNat
  else
    match if pathOf p.pte p.pa 0 = 0 then (s.core c).caLoad s.tick (p.pa + i) 1 else none with
    | some (v, _) => v
    | none => (s.homeByte (p.pa + i)).toNat

/-- The bytes of checked pieces. -/
def State.uniBytes (s : State) (c : Nat) (ps : List Piece) : List Nat :=
  ps.flatMap fun p => (List.range p.n).map fun i => s.pieceByte c p i

/-- The little-endian number of `n` bytes of a list from byte `i`. -/
def leAt (bs : List Nat) (i n : Nat) : Nat := ((bs.drop i).take n).foldr (fun b r => b + 256 * r) 0

/-- Stores bytes to a checked piece, byte by byte: L1, SP, or the vault controller. -/
def State.pieceStore (s : State) (b : Block) (g : Nat) (p : Piece) (bs : List Nat) : State :=
  (bs.zipIdx.take p.n).foldl (fun s e =>
    if p.sp then (s.spStore b (p.va + e.2) 1 e.1).raiseWct g s.tick
    else if pathOf p.pte p.pa 0 = 0 then s.caStore b.core g (p.pa + e.2) 1 e.1 0 p.pte
    else
      let hc := pteCC p.pte == 0 && pathOf p.pte p.pa 0 == 1
      (s.homeWrite (p.pa + e.2) 1 e.1 hc).raiseWct g (s.wctOf (p.pa + e.2) hc)) s

def State.uniStore (s : State) (b : Block) (g : Nat) : List Piece → List Nat → State
  | [], _ => s
  | p :: ps, bs => State.uniStore (s.pieceStore b g p (bs.take p.n)) b g ps (bs.drop p.n)

/-- A uniform access of CP pages takes their ownership (R262). -/
def State.claimCp (s : State) (c : Nat) (ps : List Piece) : State :=
  ps.foldl (fun s p => if !p.sp && pteCC p.pte == 2 then s.takeCp (ptePA p.pte) c else s) s

/-- A uniform instruction's access at issue: held while a walk would pass stores of the group (R186) or a stash line is on its
way, refused under R148, or `f` with the checked pieces. -/
def State.uniIssue (s : State) (x : Cur) (fr : Bool) (opc va n al : Nat) (r w : Bool) (f : State → Block → List Piece → State) :
    State :=
  match s.block? x.G.geo.bid with
  | none => s
  | some b =>
    if walkWaits x.G then s.heldAtIssue
    else
      match s.uniAt x.G b va n al r w with
      | (.flt c a sub, s) => s.uniFault x fr c a opc sub
      | (.wait, s) => s.heldAtIssue
      | (.ok ps, s) => f (s.claimCp b.core ps) b ps

/-- The checks of several ranges, in order. -/
def State.uniAts (s : State) (G : Group) (b : Block) (al : Nat) (r w : Bool) (acc : List (List Piece)) :
    List (Nat × Nat) → (UAt × List (List Piece)) × State
  | [] => ((.ok [], acc), s)
  | (va, n) :: l =>
    match s.uniAt G b va n al r w with
    | (.ok ps, s) => State.uniAts s G b al r w (acc ++ [ps]) l
    | (e, s) => ((e, acc), s)

/-- The same when a long-latency uniform operation completes: nothing happens while it has to wait. -/
def State.uniLate (s : State) (g : Nat) (o : Op) (rs : List (Nat × Nat)) (r w : Bool)
    (f : State → Group → Block → List (List Piece) → State) : State :=
  match s.group? g with
  | none => s
  | some G =>
    match s.block? G.geo.bid with
    | none => s
    | some b =>
      if !G.mayAccess o.slices o.id w then s
      else
        match s.uniAts G b 1 r w [] rs with
        | ((.flt c a sub, _), s) => s.lateFault g o c a sub
        | ((.wait, _), s) => s
        | ((.ok _, ps), s) => f (s.claimCp b.core ps.flatten) G b ps

end Sys2Proof.Machine
end

