-- ==== Sys2Proof/Machine/Copy.lean ====
section
/-! DEFINITION. The copy and binning engines and PUBLISH (R197, R232–R236, R264–R266). -/

namespace Sys2Proof.Machine

/-! ### Copies (R233, R234) -/

/-- Lines of 128 bytes that a copy's destination meets. -/
def copyLines (dst len : Nat) : Nat := if len = 0 then 0 else (dst + len - 1) / 128 - dst / 128 + 1
/-- The bytes of line i of a copy: offset in the copy, and how many. -/
def copyPart (dst len i : Nat) : Nat × Nat :=
  let lo := max dst ((dst / 128 + i) * 128)
  (lo - dst, min (dst + len) ((dst / 128 + i + 1) * 128) - lo)

/-- R197: a copy-in mapping's lines that a copy writes become absent as it issues. -/
def State.clearPresence (s : State) (e : Eng) (dst len : Nat) : State :=
  match s.apBlock e dst with
  | none => s
  | some b =>
    s.onCore b.core fun k =>
      { k with maps := k.maps.map fun m =>
          if m.bid = b.id ∧ m.copyIn then
            (List.range m.n).foldl (fun m i =>
              if meets (m.off + 128 * i) 128 (apOff dst) len then m.setLine i { m.line i with present := false } else m) m
          else m }

/-- A copy starts: the buffers it reads and writes are those of now (R265), and where its ranges overlap the bytes of both are
kept (R233). -/
def State.startCopy (s : State) (e : Eng) : Eng :=
  match e.kind with
  | .copy dst src len hint landed _ =>
    let e1 := { e with started := true, heldIn := none, rel := none, proofs := s.pbOf e true dst len, srcs := s.pbOf e false src len }
    let lo := min dst src
    let old : Option Memory :=
      if meets dst len src len then
        some ((List.range (max dst src + len - lo)).foldl (fun m i =>
          match s.engRead e1 (lo + i) 1 with
          | .ok bs => SMap.put m (lo + i) (.ofNat 8 ((bs[0]?).getD 0))
          | _ => m) [])
      else none
    { e1 with kind := .copy dst src len hint landed old }
  | _ => e

/-- COPY and COPY.held: `k` is the held slot. -/
def copyF (i : Instr) (h : Hd) (hint : Nat) (k : Option Nat) (d a b : Reg) (s : State) : State :=
  let full (x : Cur) : Bool := match k with | some k => (((s.block? x.G.geo.bid).map (·.held)).bind fun m => SMap.get? m k).isSome | none => false
  runUniLL i h (Pre.and (opIll h [d, a, b] fun x => decide (2 ^ 32 < uVal x b) || full x) (Pre.read h wholePre)) [d, a, b] s fun x =>
    let dst := uVal x d
    let src := uVal x a
    let len := uVal x b
    match k with
    | none =>
      if len = 0 then s.doneLL x h x.G
      else
        let e := s.startCopy (s.mkEng x (.copy dst src len hint [] none) 0xA8 true)
        (s.clearPresence e dst len).startEng x h e
    | some k =>
      let e := s.mkEng x (.copy dst src len hint [] none) 0xA8 false
      let e := { e with heldIn := some k, proofs := s.pbOf e true dst len }
      ((s.clearPresence e dst len).startEng x h e).onBlock x.G.geo.bid fun b => { b with held := SMap.put b.held k e.id }
def execCopy (h : Hd) (hint : BitVec 2) (d a b : Reg) (s : State) : Ans :=
  .next (copyF (.copy h hint d a b) h hint.toNat none d a b s)
def execCopyHeld (h : Hd) (hint : BitVec 2) (k : BitVec 4) (d a b : Reg) (s : State) : Ans :=
  .next (copyF (.copyHeld h hint k d a b) h hint.toNat (some k.toNat) d a b s)

/-- The bytes that a copy puts at its destination from offset o: source bytes, or in an overlap an old byte of either range
(log 5). -/
def State.copyBytes (s : State) (dst src len o : Nat) (old : Option Memory) (bs : List Nat) : List Nat × State :=
  match old with
  | none => (bs, s)
  | some m =>
    let f (r : List Nat × State) (e : Nat × Nat) : List Nat × State :=
      let va := dst + o + e.2
      let was (x d : Nat) : Nat := ((SMap.get? m x).map BitVec.toNat).getD d
      if decide (src ≤ va) && decide (va < src + len) then
        let q := r.2.open_
        let j := q.1 % (2 * len)
        (r.1 ++ [was (if j < len then src + j else dst + (j - len)) e.1], q.2)
      else (r.1 ++ [was (src + o + e.2) e.1], r.2)
    bs.zipIdx.foldl f ([], s)

/-- After a line has landed in a stash mapping: a copy-in line is present, a fill-mode line keeps the bytes as dirty. -/
def State.stashLanded (s : State) (e : Eng) (va n : Nat) : State :=
  match s.apBlock e va with
  | none => s
  | some b =>
    match (s.core b.core).mapAt b.id (apOff va) with
    | none => s
    | some m =>
      let i := (apOff va - m.off) / 128
      let l := m.line i
      if m.copyIn then
        (s.onCore b.core fun k => k.setMap (m.setLine i { l with present := true })).unpark b.core m.id i
      else s.onCore b.core fun k => k.setMap (m.setLine i { l with dirty := l.dirty ||| byteMask ((apOff va - m.off) % 128) n })

/-- COPY_LINE_LANDED: the bytes of one destination line land, in any order. -/
def copyLineLandedF (e line : Nat) (s : State) : State :=
  match s.eng? e with
  | none => s
  | some e =>
    match e.kind with
    | .copy dst src len hint landed old =>
      if !e.started || e.fail.isSome || landed.contains line || decide (copyLines dst len ≤ line) then s
      else
        let p := copyPart dst len line
        match s.engRead e (src + p.1) p.2 with
        | .flt c a => s.setEng (e.failed c a)
        | .wait => s
        | .ok bs =>
          let q := s.copyBytes dst src len p.1 old bs
          match q.2.engWrite e (dst + p.1) q.1 with
          | .flt c a => s.setEng (e.failed c a)
          | .wait => s
          | .ok s1 =>
            (s1.setEng { e with kind := .copy dst src len hint (landed ++ [line]) old }).stashLanded e (dst + p.1) p.2
    | _ => s
def execCopyLineLanded (e line : Nat) (s : State) : Ans := .next (copyLineLandedF e line s)

/-- COPY_COMPLETE: every line has landed, or the copy has failed. -/
def copyCompleteF (e : Nat) (s : State) : State :=
  match s.eng? e with
  | none => s
  | some e =>
    match e.kind with
    | .copy dst _ len _ landed _ =>
      match e.fail with
      | some (c, a) => s.failEng e 1 0 c a
      | none => if e.started && (List.range (copyLines dst len)).all landed.contains then s.endEng e else s
    | _ => s
def execCopyComplete (e : Nat) (s : State) : Ans := .next (copyCompleteF e s)

/-- The BINs of a block that have not completed. -/
def State.binsOf (s : State) (bid : Nat) : List Nat :=
  s.eng.ops.filterMap fun e => match e.kind with | .bin .. => if e.bid = bid then some e.id else none | _ => none

/-- RELEASE (R234). A second one of a copy that has been released and still waits does nothing (log 135). -/
def releaseF (h : Hd) (a : Reg) (s : State) : State :=
  runUni (.release h a) h (Pre.and (opIll h [a] fun x => uVal x a / 2 ^ 16 != 0) (Pre.read h wholePre)) [a] s fun x =>
    let r := uVal x a
    let slot := r % 16
    let s1 := match ((s.block? x.G.geo.bid).bind fun b => SMap.get? b.held slot).bind s.eng? with
      | some e =>
        if e.rel.isSome then s
        else s.setEng { e with rel := some (bit r 10, r / 2 ^ 4 % 64, r / 2 ^ 11 % 32, if bit r 10 then s.binsOf x.G.geo.bid else []) }
      | none => s
    s1.doneP x h x.G
def execRelease (h : Hd) (a : Reg) (s : State) : Ans := .next (releaseF h a s)

/-- RELEASE_START: once the BINs it waits for have completed, the copy's length is patched and it starts. Its slot is empty from then on
(log 136). -/
def releaseStartF (b k : Nat) (s : State) : State :=
  match s.block? b with
  | none => s
  | some B =>
    match (SMap.get? B.held k).bind s.eng? with
    | none => s
    | some e =>
      match e.rel, e.kind with
      | some (p, c, sh, bins), .copy dst src len hint landed old =>
        if bins.any fun i => (s.eng? i).isSome then s
        else
          let n := if p then min (SMap.getD B.counters c 0 * 2 ^ sh) len else len
          (s.setEng (s.startCopy { e with kind := .copy dst src n hint landed old })).onBlock b fun B =>
            { B with held := SMap.del B.held k }
      | _, _ => s
def execReleaseStart (b k : Nat) (s : State) : Ans := .next (releaseStartF b k s)

/-! ### BIN (R235) -/

/-- BIN: b<63:32> not zero is ILLEGAL; an odd address fails the operation with ALIGN (log 37). -/
def binF (h : Hd) (clear : Bool) (base : BitVec 6) (nb : BitVec 7) (a b : Reg) (s : State) : State :=
  runUniLL (.bin h clear base nb a b) h (Pre.and (opIll h [a, b] fun x => uVal x b / 2 ^ 32 != 0) (Pre.read h wholePre)) [a, b] s fun x =>
      let e := s.mkEng x (.bin clear base.toNat nb.toNat (uVal x a) (uVal x b)) 0xAA true
      s.startEng x h { e with srcs := s.pbOf e false (uVal x a) (2 * uVal x b) }
def execBin (h : Hd) (clear : Bool) (base : BitVec 6) (nb : BitVec 7) (a b : Reg) (s : State) : Ans :=
  .next (binF h clear base nb a b s)

/-- Adds one item to its counter. -/
def binItem (base nb : Nat) (m : SMap Nat) (i : Nat) : SMap Nat :=
  if i < nb then SMap.put m (base + i) ((SMap.getD m (base + i) 0 + 1) % 2 ^ 32) else m

/-- The items in order, each one read as it is counted; the first that cannot be read ends them. -/
def State.binItems (s : State) (e : Eng) (base nb addr : Nat) : Nat → Nat → SMap Nat → SMap Nat × Er Unit
  | 0, _, m => (m, .ok ())
  | n + 1, j, m =>
    match s.engRead e (addr + 2 * j) 2 with
    | .ok bs => State.binItems s e base nb addr n (j + 1) (binItem base nb m (leAt bs 0 2))
    | .flt c a => (m, .flt c a)
    | .wait => (m, .wait)

/-- BIN_COMPLETE. -/
def binCompleteF (e : Nat) (s : State) : State :=
  match s.eng? e with
  | none => s
  | some e =>
    match e.kind with
    | .bin clear base nb addr n =>
      let m0 := ((s.block? e.bid).map (·.counters)).getD []
      let m1 := if clear then (List.range nb).foldl (fun m i => SMap.del m (base + i)) m0 else m0
      let put (m : SMap Nat) : State := s.onBlock e.bid fun b => { b with counters := m }
      if addr % 2 = 1 ∧ n ≠ 0 then (put m1).failEng e 5 0 0x03 addr
      else
        match s.binItems e base nb addr n 0 m1 with
        | (m, .ok ()) => (put m).endEng e
        | (m, .flt c a) => (put m).failEng e 5 0 c a
        | (_, .wait) => s
    | _ => s
def execBinComplete (e : Nat) (s : State) : Ans := .next (binCompleteF e s)

/-! ### PUBLISH (R236, R266) -/

/-- PUBLISH is a release at its scope, which waits at issue for the group's earlier accesses (R217, R236). -/
def publishF (h : Hd) (scope : BitVec 3) (a : Reg) (s : State) : State :=
  runUniLL (.publish h scope a) h wholePre [a] s fun x =>
    let va := uVal x a
    if walkWaits x.G then s.heldAtIssue
    else if 2 ^ 55 ≤ va then s.uniFault x (uFreed x a) 0x04 va 0xA9
    else
      match s.translate x.G.geo.core (s.rootOf x.G) va with
      | (none, s) => s.uniFault x (uFreed x a) 0x04 va 0xA9
      | (some l, s) =>
        if !ptePB l.pte then s.uniFault x (uFreed x a) 0x06 va 0xA9
        else
          match s.pbDescC x.G.geo.core l.pte l.bits with
          | none => s.uniFault x (uFreed x a) 0x04 va 0xA9
          | some d =>
            if !releaseReady s x.g x.G (2 ^ 16 - 1) scope.toNat then s.waitWct x
            else s.startEng x h (s.mkEng x (.publish d.desc l.bits scope.toNat) 0xA9 true)
def execPublish (h : Hd) (scope : BitVec 3) (a : Reg) (s : State) : Ans := .next (publishF h scope a s)

/-- The proofs that an operation writes, or will write: a GCOLL that has not started has still to take them. -/
def State.proofsOf (s : State) (o : Eng) : List Proof :=
  match o.kind with
  | .bcast b => (match b.instr with
    | .gcoll _ _ _ cap _ _ => if o.started then o.proofs else s.pbOf o true b.addr (16 + 48 * cap.toNat)
    | _ => o.proofs)
  | _ => o.proofs

/-- R236, step 1: every engine write into the proof from operations issued before has completed, and so has every earlier
PUBLISH of the buffer. -/
def State.publishDue (s : State) (e : Eng) (desc : Nat) : Bool :=
  s.eng.ops.all fun o => decide (e.id ≤ o.id) ||
    (!((s.proofsOf o).any fun p => p.desc == desc) && (match o.kind with | .publish d _ _ => d != desc | _ => true))

/-- R266: no copy of the proof's old bytes can serve any more. -/
def State.proofSettled (s : State) (e : Eng) (back bits : Nat) : Bool :=
  let old (line wt : Nat) : Bool := !inView back (2 ^ bits) line || decide (wt ≤ s.tick)
  (s.ms.homes.all fun h => old h.1 h.2.wt) && (s.ms.wts.all fun h => old h.1 h.2) &&
    decide (((s.group? e.gid).map (·.wctmax)).getD 0 ≤ s.tick)

/-- Every cached copy of a line goes from a core: its clean bytes in L1 and in the fill-mode stash lines that stand for it (R266). -/
def State.uncache (s : State) (c line : Nat) : State :=
  let s1 := s.onCore c fun k => match k.caLine line with
    | some l => if l.dirty = 0 then k.caDrop line else k.setCa line { l with valid := l.dirty }
    | none => k
  s1.onCore c fun k => { k with maps := k.maps.map fun m =>
    if m.copyIn then m
    else { m with lines := m.lines.map fun e =>
      let here := (s1.block? m.bid).any fun b =>
        ((s1.globalPA c (s1.blockRoot b) (m.base + 128 * e.1)).1.map fun p => lineOf p.1) == some line
      if here then (e.1, { e.2 with present := e.2.dirty != 0, expiry := max 1 s1.tick }) else e } }

/-- PUBLISH_FLIP: the descriptor's STATE and SEQ change by one 16-byte write, and cached copies of it go. The issuing core's own stores
to the descriptor stand before that write: its dirty line goes home first (R256, R268). -/
def publishFlipF (e : Nat) (s : State) : State :=
  match s.eng? e with
  | none => s
  | some e =>
    match e.kind with
    | .publish desc bits _ =>
      let line := lineOf desc
      if !s.drained desc || ((((s.core e.core).caLine line).any fun l => l.dirty != 0) &&
          (!s.wbReady e.core s.nextId line || s.lineMoves e.core line)) then s
      else
      let s0 := s
      let s := s0.writeBack e.core line
      let st := s.homeRead (desc + 16) 8
      let seq := s.homeRead (desc + 24) 8
      let back := s.homeRead (if bit st 0 then desc else desc + 8) 8
      if !s.publishDue e desc || !(bit st 1 || s.proofSettled e back bits) then s0
      else
        let new := if bit st 1 then st % 2 + st / 4 * 4 + 2 ^ 64 * seq
          else (if bit st 0 then st - 1 else st + 1) + 2 ^ 64 * ((seq + 1) % 2 ^ 64)
        let s1 := s.homeWrite (desc + 16) 16 new true
        let s2 := s1.cores.foldl (fun (s : State) (k : Nat × Core) => s.uncache k.1 line) s1
        (s2.raiseWct e.gid (s.wctOf desc true)).endEng e
    | _ => s
def execPublishFlip (e : Nat) (s : State) : Ans := .next (publishFlipF e s)

end Sys2Proof.Machine
end

