-- ==== Sys2Proof/Machine/Diverge.lean ====
section
/-! DEFINITION. Gangs that split and merge: divergence stacks, split records, forming gangs, merges and JOINCYCLE
(R40, R46–R51). -/

namespace Sys2Proof.Machine

/-- An address as a stack entry holds it: <54:2> (R46). -/
def stackAddr (a : Nat) : Nat := a % 2 ^ 55 / 4 * 4

/-- A group of slices with its place and its active lanes, from which a gang forms. -/
structure Part where
  pc     : Nat
  slices : Nat
  mask   : Nat
  deriving DecidableEq, Repr

/-- Adds a slice to the part at its PC. -/
def addPart (pc j m : Nat) : List Part → List Part
  | [] => [⟨pc, 2 ^ j, m⟩]
  | p :: ps => if p.pc = pc then { p with slices := p.slices ||| 2 ^ j, mask := p.mask ||| m } :: ps else p :: addPart pc j m ps

/-- R40: slices with no active lane join the part that holds the lowest-numbered slice with an active lane. -/
def addIdle (idle : Nat) (ps : List Part) : List Part :=
  let low := lowBit (ps.foldl (fun m p => m ||| p.slices) 0)
  ps.map fun p => if p.slices.testBit low then { p with slices := p.slices ||| idle } else p

/-- Gangs as they form: one part for each PC. -/
def formParts (l : List (Nat × Nat × Nat)) : List Part :=
  let busy := l.filter fun e => e.2.2 != 0
  let idle := l.foldl (fun m e => if e.2.2 = 0 then m ||| 2 ^ e.2.1 else m) 0
  addIdle idle (busy.foldl (fun ps e => addPart e.1 e.2.1 e.2.2 ps) [])

def Group.stack (G : Group) (j : Nat) : List StackEnt := (G.dstacks[j]?).getD []
def Group.setStack (G : Group) (j : Nat) (l : List StackEnt) : Group := { G with dstacks := setAt G.dstacks j l }

/-! ### Split records (R47) -/

def Group.record? (G : Group) (k : Nat) : Option SplitRec := G.recs.find? fun r => r.id == k

/-- The lowest free record number (R47). -/
def Group.freeRec (G : Group) : Nat := ((List.range 16).find? fun k => k != 0 && (G.record? k).isNone).getD 0

/-- The chain of records from split counter k upward: k, its parent, and so on. -/
def Group.chain (G : Group) : Nat → Nat → List Nat
  | 0, _ => []
  | n + 1, k =>
    match G.record? k with
    | some r => k :: Group.chain G n r.parent
    | none => []

/-- Whether a gang descends from record k. -/
def Group.descends (G : Group) (K : Gang) (k : Nat) : Bool := (G.chain 16 K.split).contains k

/-- The nearest record in a gang's chain whose join is j. -/
def Group.nearest (G : Group) (split j : Nat) : Option Nat :=
  (G.chain 16 split).find? fun k => ((G.record? k).map (·.jn)) == some j

/-- Frees a record: the gangs and records below it take its parent (R47). -/
def Group.dropRec (G : Group) (r : SplitRec) : Group :=
  { G with
    recs := (G.recs.filter fun x => x.id != r.id).map fun x => if x.parent = r.id then { x with parent := r.parent } else x
    gangs := G.gangs.map fun K => if K.split = r.id then { K with split := r.parent } else K }

/-- R47: frees every record with fewer than two descending gangs. -/
def Group.prune (G : Group) : Nat → Group
  | 0 => G
  | n + 1 =>
    match G.recs.find? fun r => decide ((G.gangs.filter fun K => G.descends K r.id).length ≤ 1) with
    | some r => Group.prune (G.dropRec r) n
    | none => G

/-! ### Merges (R48) and JOINCYCLE (R50) -/

/-- The gangs that a waiting gang would merge with, when all of them wait at its join under its record at one depth. -/
def Group.mergeable (G : Group) (K : Gang) : Option (Nat × Nat × List Gang) :=
  match K.st with
  | .waitJoin w j =>
    let ds := G.gangs.filter fun D => G.descends D w
    if !ds.isEmpty && ds.all (fun D => D.st == .waitJoin w j && D.depth == K.depth) then some (w, j, ds) else none
  | _ => none

/-- One merge: a gang over all their slices, at J + 8 with the record's parent. The JOIN ends as an instruction of its clause. What any
of them has issued comes before what the merged gang issues (R217, R251). -/
def Group.mergeOne (G : Group) (w j : Nat) (ds : List Gang) (tick : Nat) : Group :=
  match ds with
  | [] => G
  | K :: _ =>
    let M := { K.adv joinHd tick with
      slices := ds.foldl (fun m D => m ||| D.slices) 0
      mask := ds.foldl (fun m D => m ||| D.mask) 0
      split := ((G.record? w).map (·.parent)).getD 0
      rtime := ds.foldl (fun m D => max m D.rtime) 0
      st := .ready
      pc := j + 8 }
    { G with
      gangs := (G.gangs.filter fun D => !ds.contains D) ++ [M]
      ops := G.ops.map fun o => if o.slices &&& M.slices != 0 then { o with slices := o.slices ||| M.slices } else o
      recs := G.recs.filter fun r => !(G.chain 16 r.id).contains w }

/-- R47's second case and a gang that waits: when its record is freed with nothing left to wait for, the nearest record
above it that names the same join takes its place, as if the gang had reached the JOIN just after; without one the
gang goes on at J + 8 (log 103). -/
def Group.rewait (G : Group) (tick : Nat) : Group :=
  { G with gangs := G.gangs.map fun K =>
      match K.st with
      | .waitJoin w j =>
        if (G.record? w).isSome then K
        else
          match G.nearest K.split j with
          | some v => { K with st := .waitJoin v j }
          | none => { K.adv joinHd tick with st := .ready, pc := j + 8 }
      | _ => K }

/-- Records that are due to be freed, gangs that need not wait for them, then one merge, and again. -/
def Group.merges (G : Group) (tick : Nat) : Nat → Group
  | 0 => G
  | n + 1 =>
    let H := (G.prune 16).rewait tick
    match H.gangs.findSome? H.mergeable with
    | some (w, j, ds) => Group.merges (H.mergeOne w j ds tick) tick n
    | none => H

/-- R50: every live gang waits at a JOIN and none can merge. The gang that holds the lowest live lane's slice reports
(log 104). -/
def Group.joinCycle (G : Group) (tick : Nat) : Group :=
  let waits (K : Gang) : Bool := match K.st with | .waitJoin _ _ => true | _ => false
  if G.gangs.isEmpty || !(G.gangs.all waits) || G.evs.any (fun e => e.cause == 9) then G
  else
    match G.gangs.find? fun K => K.slices.testBit (lowBit G.liveLanes / 4) with
    | none => G
    | some K =>
      let ev : FaultEv :=
        { tick := tick, lane := lowBit G.liveLanes, lanes := G.liveLanes, pc := K.pc, eret := K.pc, cause := 9, addr := 0,
          limb := 0, sub := false, slices := K.slices, opc := 0x51, op := none }
      { G with evs := G.evs ++ [ev] }

/-- After any change of the gangs: records with fewer than two gangs, merges that are due, and JOINCYCLE. -/
def Group.settle (G : Group) (tick : Nat) : Group := (G.merges tick 17).joinCycle tick

/-- Whether a slice pushes at a BRP: it holds lanes of both paths. -/
def splitSlice (T N j : Nat) : Bool := (T &&& sliceLanes j) != 0 && (N &&& sliceLanes j) != 0

/-- BRP's effect on the group and gang (R48): T and N are the taken and not-taken active lanes. Where both paths hold
slices, the taken path keeps the gang's number. -/
def brpSplit (G : Group) (K : Gang) (T N tgt fall jn id tick : Nat) : Group :=
  let sl := bitsOf K.slices 16
  let G1 := sl.foldl (fun G j =>
    if splitSlice T N j then G.setStack j (⟨stackAddr fall, N &&& sliceLanes j, stackAddr jn⟩ :: G.stack j) else G) G
  let st := maskOf (sl.filter fun j => (T &&& sliceLanes j) != 0)
  let sn := maskOf (sl.filter fun j => (T &&& sliceLanes j) == 0 && (N &&& sliceLanes j) != 0)
  let nm := N &&& slicesLanes sn
  if sn = 0 then G1.putGang { K.jump tgt tick with mask := T }
  else if st = 0 then G1.putGang (K.jump fall tick)
  else
    let idle := K.slices &&& (2 ^ 16 - 1 - (st ||| sn))
    let k := G.freeRec
    let low := decide (lowBit st < lowBit sn)
    let A := { K.jump tgt tick with slices := if low then st ||| idle else st, mask := T, split := k }
    let B := { K.jump fall tick with
      id := id, slices := if low then sn else sn ||| idle, mask := nm, split := k, watch := none }
    { G1 with gangs := (G1.gangs.filter fun x => x.id != K.id) ++ [A, B], recs := G1.recs ++ [⟨k, K.split, jn⟩] }

/-- BRP (R48, R49, R145). -/
def brpF (h : Hd) (p : Prd) (tgt jn : BitVec 12) (s : State) : State :=
  onCur s fun x =>
    let act := actMask x.G x.K h
    let T := maskOf ((bitsOf act 64).filter fun l => (x.G.lane l).pred p)
    let N := x.K.mask &&& (2 ^ 64 - 1 - T)
    if ligDiv x.G x.K h || ligSplit x.G x.K (fun l => (x.G.lane l).pred p) then s.trap x 0x0D 0x50
    else if (bitsOf x.K.slices 16).any fun j => splitSlice T N j && decide (16 ≤ (x.G.stack j).length) then s.trap x 0x08 0x50
    else
      let fall := wrap 64 ((x.K.pc : Int) + 8)
      let G := brpSplit x.G x.K T N (wordTarget x.K.pc 12 tgt.toNat) fall (x.K.pc + 4 * jn.toNat) s.nextId s.tick
      (s.fresh.putGroup x.g G).popPort
def execBrp (h : Hd) (p : Prd) (tgt jn : BitVec 12) (s : State) : Ans := .next (brpF h p tgt jn s)

/-- JOIN at slice level: entries whose path is at the join unite with the slice. -/
def popJoined (j m : Nat) : List StackEnt → Nat × List StackEnt
  | [] => (m, [])
  | e :: es => if e.jn = j ∧ e.pc = j then popJoined j (m ||| e.mask) es else (m, e :: es)

/-- One slice at the join J: where it goes, with which lanes, and its stack. -/
def joinSlice (G : Group) (K : Gang) (J j : Nat) : (Nat × Nat × Nat) × List StackEnt :=
  let r := popJoined J (K.mask &&& sliceLanes j) (G.stack j)
  match r.2 with
  | e :: es => if e.jn = J then ((e.pc, j, e.mask), ⟨J, r.1, J⟩ :: es) else ((J, j, r.1), r.2)
  | [] => ((J, j, r.1), [])

/-- JOIN at J (R48). -/
def joinSplit (G : Group) (K : Gang) (J id tick : Nat) : Group :=
  let sl := bitsOf K.slices 16
  let res := sl.map fun j => joinSlice G K J j
  let G1 := (sl.zip res).foldl (fun G e => G.setStack e.1 e.2.2) G
  let parts := formParts (res.map (·.1))
  let many := decide (2 ≤ parts.length)
  let k := if many then G.freeRec else K.split
  let recs := if many then G.recs ++ [⟨k, K.split, J⟩] else G.recs
  let G2 := { G1 with recs := recs }
  let gang (p : Part) (i : Nat) : Gang :=
    let b := { K with
      id := if i = 0 then K.id else id + i, slices := p.slices, mask := p.mask, split := k
      watch := if i = 0 then K.watch else none }
    if p.pc = J then
      match G2.nearest k J with
      | some w => { b with st := .waitJoin w J, last := tick }
      | none => b.adv joinHd tick
    else b.jump p.pc tick
  { G2 with gangs := (G2.gangs.filter fun x => x.id != K.id) ++ parts.zipIdx.map fun e => gang e.1 e.2 }

/-- JOIN (R48, R146). Its clause's header is at J, the instruction at J + 4. -/
def joinF (s : State) : State :=
  onCur s fun x =>
    let G := (joinSplit x.G x.K (x.K.pc - 4) s.nextId s.tick).settle s.tick
    ({ s with nextId := s.nextId + 16 }.putGroup x.g G).popPort
def execJoin (s : State) : Ans := .next (joinF s)

end Sys2Proof.Machine
end

