-- ==== Sys2Proof/Machine/Blocks.lean ====
section
/-! DEFINITION. How groups and blocks end (R37–R39, R189, R190, R200): barriers that complete, a group's end, and what a
block returns when it is DONE. -/

namespace Sys2Proof.Machine

/-! ### Barriers (R38) -/

def Gang.unbar (pend : Bool) (K : Gang) : Gang := if K.st = .waitBar then K.wakes pend else K
/-- The gangs of a group leave a barrier that completed. -/
def Group.unbar (G : Group) : Group :=
  { G with
    gangs := G.gangs.map (Gang.unbar G.pending)
    handler := G.handler.map fun h => { h with gangs := h.gangs.map (Gang.unbar true) } }

/-- R38: each barrier of a block at which every group that has not ended has arrived completes. What the others did before happens before
what each does next (R254). -/
def State.barCheck (s : State) (bid : Nat) : State :=
  match s.block? bid with
  | none => s
  | some b =>
    b.bars.foldl (fun s e =>
      let gs := s.groupsOf b
      if e.2 != 0 && gs.all fun x => x.2.ended || e.2.testBit x.2.geo.gi then
        (gs.foldl (fun s x => if e.2.testBit x.2.geo.gi then (s.onGroup x.1 Group.unbar).coreJoin x.1 else s) s).onBlock bid fun b =>
          { b with bars := SMap.del b.bars e.1 }
      else s) s

/-! ### The block's resources -/

/-- The blocks that lie on a core. -/
def State.blocksOn (s : State) (c : Nat) : List Block := (SMap.vals s.blocks).filter fun b => b.core == c && b.onCoreB
def State.exclusive (s : State) (b : Block) : Bool := ((s.region? b.rid).map fun r => bit r.rcb.flags 1).getD false

/-- R190: a block that is again alone on its core regains authority, and its window grows to the whole SP role. Its bytes and
mappings keep their places in SP, and the offsets that it gains read zero (log 34). -/
def State.growLone (s : State) (c : Nat) : State :=
  match s.blocksOn c with
  | [b] =>
    if b.whole || b.st != .resident then s
    else
      (s.onCore c fun k =>
        { k with
          sp := k.sp.filter fun e => decide (b.own0 ≤ e.1) && decide (e.1 < b.own0 + b.ownLen)
          poison := k.poison.filter fun e => decide (2 ^ 50 ≤ e.1) ||
            (decide (b.own0 ≤ (e.1 - 2 ^ 32) * 8) && decide ((e.1 - 2 ^ 32) * 8 < b.own0 + b.ownLen))
          maps := k.maps.map fun m => if m.bid = b.id then { m with off := m.off + b.own0 } else m }).onBlock b.id
        fun b => { b with whole := true }
  | _ => s

/-- Writes back and removes every mapping of a block. -/
def State.dropMaps (s : State) (b : Block) : State :=
  ((s.core b.core).maps.filter fun m => m.bid == b.id).foldl (fun s m => (s.wbMap b m).1.dropMap b m) s

/-- The save area's directory entry of a unit (R351). -/
def State.saveBase (s : State) (b : Block) : Nat := ((s.region? b.rid).map (·.rcb.save)).getD 0
def State.freeUnit (s : State) (b : Block) : State :=
  match b.unit with
  | some u => (s.homeWrite (canon (s.saveBase b + 8 * u)) 8 0 true).onBlock b.id fun b => { b with unit := none }
  | none => s

/-- The bytes of a block's window, by window offset; `p` says which offsets are kept. -/
def State.windowBytes (s : State) (b : Block) (p : Nat → Bool) : SMap Byte :=
  let w := s.window b
  (((s.core b.core).sp.filter fun e => decide (w.1 ≤ e.1) && decide (e.1 < w.1 + w.2)).map fun e => (e.1 - w.1, e.2)).filter fun e => p e.1
/-- The ECC marks of the window's words, by word of the window; `p` says of which offsets they are kept. -/
def State.windowBad (s : State) (b : Block) (p : Nat → Bool) : SMap W64 :=
  let w := s.window b
  (((s.core b.core).poison.filter fun e => decide (2 ^ 32 + w.1 / 8 ≤ e.1) && decide (e.1 < 2 ^ 32 + (w.1 + w.2) / 8)).map fun e =>
    (e.1 - (2 ^ 32 + w.1 / 8), e.2)).filter fun e => p (8 * e.1)

/-- R37: a block becomes DONE. Its mappings are written back and removed (log 35), its handles' holds are released (R200),
held copies that no RELEASE has named are discarded (R234), its claim and save unit are returned (R190, R351). Where engine work of the
block goes on, its window is kept for it as it was, with its ECC marks and the places of its mappings (R39). -/
def State.blockDone (s : State) (bid : Nat) : State :=
  match s.block? bid with
  | none => s
  | some b =>
    let s1 := s.dropMaps b
    let gone (e : Eng) : Bool := e.bid == bid && e.heldIn.isSome && !e.started && e.rel.isNone
    let s2 := { s1 with eng := { s1.eng with ops := s1.eng.ops.filter fun e => !gone e } }
    let work := s2.eng.ops.any fun e => e.bid == bid
    let s3 := (List.range 16).foldl (fun s k => s.releaseHold bid k) s2
    let s4 := s3.freeUnit b
    let s5 := s4.onCore b.core fun k => { k with claim := if k.claim = some bid then none else k.claim }
    let s6 := s5.onBlock bid fun b =>
      { b with
        st := .done, held := b.held.filter fun e => (s2.eng? e.2).isSome, handles := List.replicate 16 ⟨0, 0, 0, false⟩
        bars := [], sp := if !work then [] else if b.onCoreB then s2.windowBytes b fun _ => true else b.sp
        bad := if !work then [] else if b.onCoreB then s2.windowBad b fun _ => true else b.bad
        sq := if b.onCoreB then (s2.core b.core).q else b.sq
        maps := if !work then [] else if b.onCoreB then (s.core b.core).maps.filter fun m => m.bid == bid else b.maps
        mx := [], faulted := false }
    s6.growLone b.core

/-- The posts of a group are withdrawn (R144). -/
def State.withdraw (s : State) (c g : Nat) : State := s.onCore c fun k => { k with posts := k.posts.filter fun p => p.gid != g }

/-- A special register whose scope outlives the group (R67): a write of it that is on its way still takes effect. -/
def srOutlives (sr : Nat) : Bool := sr == 0x08 || (decide (0x10 ≤ sr) && decide (sr ≤ 0x13)) || sr == 0x1A

/-- A group that has ended (R39): its descriptors are freed, its flags discarded, its contexts released. -/
def Group.ends (G : Group) : Group :=
  { G with
    ended := true, gangs := [], dstacks := [], recs := [], flags := List.replicate 12 0
    ods := List.replicate 8 none
    ops := [], evs := [], handler := none, wr := G.wr.filter fun w => srOutlives w.sr
    passed := none, done := 2 ^ G.geo.w - 1 }

/-- R39: a group ends; barriers that only waited for it complete, and with its last group the block is DONE. -/
def State.endGroup (s : State) (g : Nat) : State :=
  match s.group? g with
  | none => s
  | some G =>
    let s1 := ((s.putGroup g G.ends).withdraw G.geo.core g).barCheck G.geo.bid
    match s1.block? G.geo.bid with
    | none => s1
    | some b =>
      if (s1.groupsOf b).all fun x => x.2.ended then s1.blockDone b.id
      else s1

/-- R350: a block goes to DONE without running any further instruction. The matrix operations that a group has posted run on, and it
keeps its records until the last of them has completed (log 138). -/
def State.killBlock (s : State) (bid : Nat) : State :=
  match s.block? bid with
  | none => s
  | some b =>
    (b.groups.foldl (fun s g =>
      match s.group? g with
      | some G => 
        if G.ended then s
        else (s.putGroup g { G.ends with ods := if s.mxLeft g then G.ods else G.ends.ods }).withdraw G.geo.core g
      | none => s) s).blockDone bid

/-! ### Faults that pass to the parent (R178, R182, R350, R361) -/

/-- The blocks of a region. -/
def State.blocksOf (s : State) (rid : Nat) : List Block := (SMap.vals s.blocks).filter fun b => b.rid == rid

/-- FAULT_PASS_TO_PARENT: the record goes to the nearest proper ancestor's log, and the block, with a COOPERATIVE region all its
blocks, is to be saved. Where there is no log the whole region stops (R182). -/
def State.passFault (s : State) (g : Nat) (G : Group) (e : FaultEv) (kind : Nat) : State :=
  match s.block? G.geo.bid, s.regionOf G with
  | some b, some R =>
    let G' := G.passOut e
    let f := G'.fregs
    let s1 := s.putGroup g G'
    let rec_ := faultRec f.tick R.addr f.pc f.addr f.lanes f.cause (s.dev * 1024 + G.geo.core) b.idx G.geo.gi kind 0 0 0 e.opc f.eret
    let log := s1.logOf R.chain
    let s2 := match log with
      | some l => s1.logWrite l rec_
      | none => s1.orphan G.geo.core f.pc R.addr
    if bit R.rcb.flags 0 || log.isNone then
      (s2.blocksOf b.rid).foldl (fun s x => if x.st == .done then s else s.onBlock x.id fun x => { x with faulted := true }) s2
    else s2.onBlock b.id fun b => { b with faulted := true }
  | _, _ => s

end Sys2Proof.Machine
end

