-- ==== Sys2Proof/Machine/TMean.lean ====
section
/-! DEFINITION. The transformed mean (R104–R111): TX values, the built-in and loaded table pairs, interpolation, ENTRY,
ACC, MERGE and EXIT. -/

namespace Sys2Proof.Machine

/-- A TX value as a register pair holds it (R105): FP32 pattern S, exponent extension E, count n. -/
structure TX where
  s : Nat
  e : Int
  n : Nat
  deriving DecidableEq, Repr

/-- R105: a pair of registers read as a TX value; reserved bits are ignored. -/
def txOfRegs (lo hi : Nat) : TX := ⟨lo % 2 ^ 32, sext 16 (lo / 2 ^ 32 % 2 ^ 16), hi % 2 ^ 32⟩

/-- R105: the register pair of a TX value, reserved bits zero. -/
def txLo (x : TX) : Nat := x.s + wrap 16 x.e * 2 ^ 32
def txHi (x : TX) : Nat := x.n

/-- The real value S × 2^E. -/
def txVal (x : TX) : FV := (decodeF fmtS false x.s).scale x.e

/-- TXROUND (R105): the FP32 pattern and exponent of a canonical TX. -/
def txRound : FV → Nat × Int
  | .nan => (fmtS.nanBits, 0)
  | .inf neg => (signed fmtS neg fmtS.infBits, 0)
  | .fin neg m e =>
    if m = 0 then (signed fmtS neg 0, 0)
    else
      let k := m.log2
      let n := if k ≤ 23 then m * 2 ^ (23 - k) else shiftRound .rne neg m (k - 23)
      let ex : Int := e + k + (if n = 2 ^ 24 then 1 else 0)
      let fr := if n = 2 ^ 24 then 0 else n - 2 ^ 23
      if 32767 < ex then (signed fmtS neg fmtS.infBits, 0)
      else if ex < -32768 then (signed fmtS neg 0, 0)
      else (signed fmtS neg (127 * 2 ^ 23 + fr), ex)

/-- The functions that built-in tables hold (R104). -/
inductive KnotFn where
  | pow (n : Nat) | inv (n : Nat) | rsqrt | sqrt | root (n : Nat) | log2 | exp2
  deriving DecidableEq, Repr

/-- The powers of codes 0x05 to 0x0B. -/
def tmPow (code : Nat) : Nat := ([2, 4, 8, 16, 32, 48, 64][code - 5]?).getD 1

/-- Entry and exit function of a code (R104). -/
def knotFn (code : Nat) (ex : Bool) : KnotFn :=
  match code, ex with
  | 0, _ => .inv 1
  | 1, false => .rsqrt
  | 1, true => .inv 2
  | 2, false => .log2
  | 2, true => .exp2
  | 3, false => .sqrt
  | 3, true => .pow 2
  | c, false => .pow (tmPow c)
  | c, true => .root (tmPow c)

/-- The p-th root of m × 2^e with a sticky bit. -/
def rootV (p m : Nat) (e : Int) : FV :=
  let s := 40 * p + ((e - (40 * p : Nat)) % p).toNat
  let n := m * 2 ^ s
  let r := iroot p n
  .fin false (sticky r (r ^ p == n)) ((e - s) / p - 1)

/-- The exact value of a table function at m × 2^e (with a sticky bit where it is irrational); `inf` marks an
infinite, undefined or too large value (R106). -/
def knotVal (fn : KnotFn) (m : Nat) (e : Int) : FV :=
  match fn with
  | .pow n => .fin false (m ^ n) (e * n)
  | .inv n => if m = 0 then .inf false else quotient false 1 (-(e * n)) (m ^ n)
  | .rsqrt => if m = 0 then .inf false else rsqrtV m e
  | .sqrt => if m = 0 then .fin false 0 0 else sqrtV m e
  | .root n => if m = 0 then .fin false 0 0 else rootV n m e
  | .log2 => if m = 0 then .inf true else log2V m e
  | .exp2 => if m = 0 then .fin false 1 0 else if 16 ≤ e + (m.log2 : Int) then .inf false else exp2V false m e

/-- Knot k of a built-in table (R106): the point z_k, its value rounded by TXROUND, too large values clamped. -/
def builtinKnot (code : Nat) (ex : Bool) (k : Nat) : Nat × Int :=
  let h := k % 2
  let e := k / 2
  let v := if e = 0 then knotVal (knotFn code ex) h (-127) else knotVal (knotFn code ex) (2 + h) ((e : Int) - 128)
  let r := txRound v
  if r.1 % 2 ^ 31 = fmtS.infBits then (r.1 / 2 ^ 31 * 2 ^ 31 + 0x3FFFFFFF, 32767) else r

/-- A table pair: built in under a code, or loaded. -/
inductive Tab where
  | builtin (code : Nat)
  | loaded (p : TmPair)
  deriving DecidableEq, Repr

namespace Tab
def knot (t : Tab) (ex : Bool) (k : Nat) : Nat × Int :=
  match t with
  | .builtin c => builtinKnot c ex k
  | .loaded p => ((if ex then p.exit else p.entry)[k]?).getD (0, 0)
def dom : Tab → Nat
  | .builtin c => if c ≤ 2 then 0 else 1
  | .loaded p => p.dom
def xsign : Tab → Nat
  | .builtin c => if c = 2 then 2 else 0
  | .loaded p => p.xsign
def per : Tab → Nat
  | .builtin c => if c = 2 then 0 else if c ≤ 3 then 1 else tmPow c
  | .loaded p => p.p
def scale : Tab → Int
  | .builtin c => match c with | 0 => -1 | 1 => -2 | 2 => 0 | 3 => 2 | _ => 1
  | .loaded p => p.q
end Tab

/-- INTERP (R107): `z` is the pattern of a non-negative FP32 value. -/
def interp (t : Tab) (ex : Bool) (z : Nat) : Nat × Int :=
  let i := z / 2 ^ 22 % 2 ^ 9
  let w := z / 2 ^ 14 % 2 ^ 8
  let a := t.knot ex i
  let b := t.knot ex (i + 1)
  let av := decodeF fmtS false a.1
  let u := decodeF fmtS false (rne32 ((decodeF fmtS false b.1).scale (b.2 - a.2)))
  let d := rne32 (((u.add .rne av.neg).mul (.fin false w 0)).scale (-8))
  let s := rne32 (av.add .rne (decodeF fmtS false d))
  txRound ((decodeF fmtS false s).scale a.2)

/-- ENTRY (R108): the TX value of an FP32 term, and whether a domain fault arose (its value is then NaN, R110). -/
def tmEntry (code : Nat) (t : Tab) (x : Nat) : (Nat × Int) × Bool :=
  let v := decodeF fmtS false x
  let nan := (fmtS.nanBits, (0 : Int))
  if v.isNan then (nan, false)
  else if code = 4 then (txRound v, false)
  else if t.dom = 0 ∧ (v.isNeg ∨ v.isZero) then (nan, true)
  else if t.dom = 1 ∧ v.isNeg ∧ ¬v.isZero then (nan, true)
  else if t.dom = 1 ∧ v.isNeg then (interp t false 0, false)
  else if t.dom = 2 ∧ v.isNeg ∧ ¬v.isZero then
    let r := interp t false (x % 2 ^ 31)
    (((r.1 + 2 ^ 31) % 2 ^ 32, r.2), false)
  else (interp t false x, false)

def isNan32 (x : Nat) : Bool := (decodeF fmtS false x).isNan

/-- The larger or smaller FP32 pattern, −0 below +0, a NaN propagating (R111). -/
def tmExtreme (code a b : Nat) : Nat :=
  if isNan32 a || isNan32 b then fmtS.nanBits
  else if fLess fmtS a b = (code == 0x0C) then b else a

def capCount (n : Nat) : Nat := min n (2 ^ 32 - 1)

/-- ACC (R109, R111): the new pair, and whether a domain fault arose. -/
def tmAcc (code : Nat) (t : Tab) (x : TX) (term : Nat) : TX × Bool :=
  if code = 0x0C ∨ code = 0x0D then
    let z := if isNan32 term then fmtS.nanBits else term
    (⟨if x.n = 0 then z else tmExtreme code x.s z, 0, capCount (x.n + 1)⟩, false)
  else
    let r := tmEntry code t term
    let v := if x.n = 0 then r.1 else txRound ((txVal x).add .rne (txVal ⟨r.1.1, r.1.2, 0⟩))
    (⟨v.1, v.2, capCount (x.n + 1)⟩, r.2)

/-- MERGE (R109, R111). -/
def tmMerge (code : Nat) (a b : TX) : TX :=
  if a.n = 0 then b
  else if b.n = 0 then a
  else if code = 0x0C ∨ code = 0x0D then ⟨tmExtreme code a.s b.s, 0, capCount (a.n + b.n)⟩
  else
    let v := txRound ((txVal a).add .rne (txVal b))
    ⟨v.1, v.2, capCount (a.n + b.n)⟩

/-- EXIT of a non-negative mean y (R111). -/
def tmExitPos (t : Tab) (y : Nat × Int) : Nat :=
  let val (r : Nat × Int) (k : Int) : Nat := rne32 ((decodeF fmtS false r.1).scale (r.2 + k))
  if t.per = 0 then val (interp t true (val y 0 % 2 ^ 31)) 0
  else
    let k := y.2 / t.per
    let rho := y.2 % t.per
    val (interp t true (rne32 ((decodeF fmtS false y.1).scale rho) % 2 ^ 31)) (t.scale * k)

/-- EXIT (R111): the FP32 pattern of a TX value's mean. -/
def tmExit (code : Nat) (t : Tab) (x : TX) : Nat :=
  if x.n = 0 ∨ (txVal x).isNan then fmtS.nanBits
  else if code = 0x0C ∨ code = 0x0D then x.s
  else
    let y := match txVal x with
      | .fin neg m e => txRound (quotient neg m e x.n)
      | v => txRound v
    if code = 4 then rne32 ((decodeF fmtS false y.1).scale y.2)
    else
      let v := decodeF fmtS false y.1
      if v.isNeg && !v.isZero then
        if t.xsign = 0 then fmtS.nanBits
        else
          let r := tmExitPos t ((y.1 + 2 ^ 31) % 2 ^ 32, y.2)
          if t.xsign = 1 then (if isNan32 r then r else (r + 2 ^ 31) % 2 ^ 32)
          else rne32 (spFn .rcp (decodeF fmtS false r))
      else tmExitPos t y

/-- The canonical pair of a value read back (R136). Under codes 0x0C and 0x0D a pair stands for S alone and E is written 0, whatever E
was (R111; log 119). -/
def tmCanon (code : Nat) (x : TX) : TX :=
  if code = 0x0C ∨ code = 0x0D then ⟨x.s, 0, x.n⟩
  else let v := txRound (txVal x); ⟨v.1, v.2, x.n⟩

/-! ### Images of table pairs (R106, R163) -/

/-- Little-endian number of `n` bytes of an image at an offset. -/
def imgNum (img : List Byte) (off n : Nat) : Nat := bytesNat ((img.drop off).take n)

/-- A knot: T and K. -/
def imgKnot (img : List Byte) (off : Nat) : Nat × Int :=
  (imgNum img off 4, sext 16 (imgNum img (off + 4) 2))

/-- Offset of the first byte of an image that fails the checks of R163, if any. -/
def imgFail (img : List Byte) : Option Nat :=
  let b (o : Nat) : Nat := imgNum img o 1
  if 2 < b 0 then some 0
  else if 2 < b 1 then some 1
  else if 127 < b 2 then some 2
  else if 1 ≤ b 2 ∧ b 3 = 0 then some 3
  else
    match (List.range 12).find? fun i => b (4 + i) != 0 with
    | some i => some (4 + i)
    | none =>
      ((List.range 1026).flatMap fun k => [0x16 + 8 * k, 0x17 + 8 * k]).find? fun o => b o != 0

/-- The pair an image holds. -/
def imgPair (img : List Byte) : TmPair where
  dom := imgNum img 0 1
  xsign := imgNum img 1 1
  p := imgNum img 2 1
  q := sext 8 (imgNum img 3 1)
  entry := (List.range 513).map fun k => imgKnot img (0x10 + 8 * k)
  exit := (List.range 513).map fun k => imgKnot img (0x1018 + 8 * k)

end Sys2Proof.Machine
end

