-- ==== Sys2Proof/Machine/LaneCross.lean ====
section
/-! DEFINITION. Cross-lane instructions: reductions and scans under the fixed tree (R112, R113, R138, R139), the
transformed mean (R136), gathers, ballots and predicate logic (R137, R140, R141), and transfers between groups (R142–R144). -/

namespace Sys2Proof.Machine

/-! ### The reduction tree (R112, R113) -/

/-- A node: an absent input passes the other unchanged. -/
def node {α : Type} (f : α → α → α) : Option α → Option α → Option α
  | some x, some y => some (f x y)
  | some x, none => some x
  | none, y => y

/-- The tree over the 2^n terms from `lo`. -/
def tree {α : Type} (f : α → α → α) (v : Nat → Option α) (lo : Nat) : Nat → Option α
  | 0 => v lo
  | n + 1 => node f (tree f v lo n) (tree f v (lo + 2 ^ n) n)

/-- The inclusive scan result: the aligned blocks given by the digits of l + 1, the largest first, from digit `n` down. -/
def prefixAt {α : Type} (f : α → α → α) (v : Nat → Option α) (m start : Nat) (acc : Option α) : Nat → Option α
  | 0 => acc
  | n + 1 =>
    if m.testBit n then prefixAt f v m (start + 2 ^ n) (node f acc (tree f v start n)) n
    else prefixAt f v m start acc n

/-! ### RED and SCAN -/

def rtW : RT → Nat
  | .h => 16
  | .s => 32
  | .w => 32
  | .d => 64

/-- The operation of RED (R138). -/
def redFn (t : RT) (op : Nat) (m : Rnd) (ftz : Bool) (x y : Nat) : Nat :=
  let flt (f : Fmt) : Nat :=
    match op with
    | 0 => fAdd f m ftz x y
    | 1 => fMinMax f true ftz x y
    | _ => fMinMax f false ftz x y
  let int (w : Nat) : Nat :=
    match op with
    | 0 => (x + y) % 2 ^ w
    | 1 => sMax w x y
    | 2 => sMin w x y
    | 3 => x &&& y
    | 4 => x ||| y
    | 5 => x ^^^ y
    | 6 => max x y
    | _ => min x y
  match t with
  | .h => flt fmtH
  | .s => flt fmtS
  | .w => int 32
  | .d => int 64

/-- A lane's own term: its elements combined pairwise from low to high (R112). -/
def laneTerm (f : Nat → Nat → Nat) (w x : Nat) : Option Nat := tree f (fun i => some (elem w x i)) 0 (64 / w).log2

/-- RED (R138). A lane whose source has an uncorrectable error parks, and its stored bits take part in the other lanes' results, here,
in SCAN and in TMRED (log 124). -/
def laneRed (h : Hd) (t : RT) (op : BitVec 3) (m : Rnd) (d : Reg) (a : Src) : LaneOp where
  i := .red h t op m d a
  hd := h
  perms := [a.perm]
  reads G K l := [srcRd G K l a allBits]
  frees := srcFrees a
  eff G K act _ :=
    let f := redFn t op.toNat m (ftzOf G)
    let v (l : Nat) : Option Nat := if act.testBit l then laneTerm f (rtW t) (srcV G K l a) else none
    .reg (rowOf K.depth d) ((tree f v 0 G.geo.w.log2).getD 0)
def execRed (h : Hd) (t : RT) (op : BitVec 3) (m : Rnd) (d : Reg) (a : Src) (s : State) : Ans :=
  .next (runLane (laneRed h t op m d a) s)

/-- SCAN.s (R139). -/
def laneScan (h : Hd) (op : BitVec 3) (m : Rnd) (d : Reg) (a : Src) : LaneOp where
  i := .scan h op m d a
  hd := h
  perms := [a.perm]
  reads G K l := [srcRd G K l a allBits]
  frees := srcFrees a
  eff G K act l :=
    let f := redFn .s op.toNat m (ftzOf G)
    let v (k : Nat) : Option Nat := if act.testBit k then laneTerm f 32 (srcV G K k a) else none
    .reg (rowOf K.depth d) ((prefixAt f v (l + 1) 0 none 7).getD 0)
def execScan (h : Hd) (op : BitVec 3) (m : Rnd) (d : Reg) (a : Src) (s : State) : Ans := .next (runLane (laneScan h op m d a) s)

/-! ### Transformed mean (R136) -/

/-- The table pair that a code names on a core: built in, or the loadable pair, at reset the tables of codes 0 to 3 (R104). -/
def tabOf (k : Core) (code : Nat) : Tab :=
  if 0x10 ≤ code ∧ code ≤ 0x13 then
    match k.tm[code - 0x10]? with
    | some (some p) => .loaded p
    | _ => .builtin (code - 0x10)
  else .builtin code

/-- TMACC. A domain fault follows R110. -/
def laneTmacc (t : Tab) (h : Hd) (both : Bool) (d : Reg) (a : Src) : LaneOp where
  i := .tmacc h both d a
  hd := h
  perms := [a.perm]
  reads G K l :=
    [ownRd G K l d (2 ^ 48 - 1), ownRd G K l (d + 1) (2 ^ 32 - 1), srcRd G K l a (if both then allBits else 2 ^ 32 - 1)]
  frees := srcFrees a
  eff G K _ l :=
    let x := srcV G K l a
    let r1 := tmAcc G.tmshape t (txOfRegs (ownV G K l d) (ownV G K l (d + 1))) (x % 2 ^ 32)
    let r2 := if both then tmAcc G.tmshape t r1.1 (x / 2 ^ 32) else (r1.1, false)
    let dm := r1.2 || r2.2
    if dm && tmTrap G then .flt 0x0F
    else
      let y := tmCanon G.tmshape r2.1
      { LaneRes.pair (rowOf K.depth d) (txLo y) (txHi y) with domf := dm }

/-- TMRED. -/
def laneTmred (_t : Tab) (h : Hd) (d : Reg) (a : Src) : LaneOp where
  i := .tmred h d a
  hd := h
  perms := [a.perm]
  reads G K l := [ownRd G K l a.r (2 ^ 48 - 1), ownRd G K l (a.r + 1) (2 ^ 32 - 1)]
  frees := srcPairFrees a
  eff G K act _ :=
    let v (l : Nat) : Option TX :=
      if act.testBit l then some (txOfRegs (ownV G K l a.r) (ownV G K l (a.r + 1))) else none
    let y := tmCanon G.tmshape ((tree (tmMerge G.tmshape) v 0 G.geo.w.log2).getD ⟨0, 0, 0⟩)
    .pair (rowOf K.depth d) (txLo y) (txHi y)

/-- TMFIN. -/
def laneTmfin (t : Tab) (h : Hd) (d : Reg) (a : Src) : LaneOp where
  i := .tmfin h d a
  hd := h
  perms := [a.perm]
  reads G K l := [ownRd G K l a.r (2 ^ 48 - 1), ownRd G K l (a.r + 1) (2 ^ 32 - 1)]
  frees := srcPairFrees a
  eff G K _ l := .reg (rowOf K.depth d) (tmExit G.tmshape t (txOfRegs (ownV G K l a.r) (ownV G K l (a.r + 1))))

/-- Whether an operation is a TMLOAD of pair k. -/
def Op.isTmload (k : Nat) (o : Op) : Bool :=
  match o.instr with
  | .tmload _ j _ => j.toNat == k
  | _ => false

/-- R136: a TMLOAD of the pair that the code names is outstanding from a group of the core. -/
def tmBusy (s : State) (G : Group) : Bool :=
  decide (0x10 ≤ G.tmshape) && decide (G.tmshape ≤ 0x13) &&
    (SMap.vals s.groups).any fun g => g.geo.core == G.geo.core && g.ops.any (Op.isTmload (G.tmshape - 0x10))

/-- The three instructions wait at issue while their pair is being loaded. -/
def runTm (op : Tab → LaneOp) (s : State) : State :=
  onCur s fun x =>
    if tmBusy s x.G then s.heldAtIssue else runLane (op (tabOf (s.core x.G.geo.core) x.G.tmshape)) s

def execTmacc (h : Hd) (both : Bool) (d : Reg) (a : Src) (s : State) : Ans := .next (runTm (laneTmacc · h both d a) s)
def execTmred (h : Hd) (d : Reg) (a : Src) (s : State) : Ans := .next (runTm (laneTmred · h d a) s)
def execTmfin (h : Hd) (d : Reg) (a : Src) (s : State) : Ans := .next (runTm (laneTmfin · h d a) s)

/-! ### Gathers, ballots, predicate logic -/

/-- XGET and XGETU (R137): `sg` marks XGET. -/
def laneGather (i : Instr) (sg : Bool) (h : Hd) (t : ET) (d : Reg) (a : RL) (b : Src) : LaneOp where
  i := i
  hd := h
  perms := [b.perm]
  reads G K l :=
    let j := srcV G K l b % 2 ^ 16
    let n := 64 / etW t
    [srcRd G K l b (2 ^ 16 - 1), readLane G K (j / n) a.r ((2 ^ etW t - 1) * 2 ^ (etW t * (j % n)))]
  frees := rlFrees a ++ srcFrees b
  eff G K _ l :=
    let j := srcV G K l b % 2 ^ 16
    let n := 64 / etW t
    let v := elem (etW t) (ownV G K (j / n) a.r) (j % n)
    .reg (rowOf K.depth d) (if sg then wrap 64 (sext (etW t) v) else v)

def laneXget (h : Hd) (t : ET) (d : Reg) (a : RL) (b : Src) : LaneOp := laneGather (.xget h t d a b) true h t d a b
def execXget (h : Hd) (t : ET) (d : Reg) (a : RL) (b : Src) (s : State) : Ans := .next (runLane (laneXget h t d a b) s)
def laneXgetu (h : Hd) (t : ET) (d : Reg) (a : RL) (b : Src) : LaneOp := laneGather (.xgetu h t d a b) false h t d a b
def execXgetu (h : Hd) (t : ET) (d : Reg) (a : RL) (b : Src) (s : State) : Ans := .next (runLane (laneXgetu h t d a b) s)

/-- BALLOT (R140). -/
def laneBallot (h : Hd) (d : Reg) (p : Prd) : LaneOp where
  i := .ballot h d p
  hd := h
  perms := []
  reads _ _ _ := []
  frees := []
  eff G K act _ := .reg (rowOf K.depth d) (maskOf ((bitsOf act 64).filter fun l => (G.lane l).pred p))
def execBallot (h : Hd) (d : Reg) (p : Prd) (s : State) : Ans := .next (runLane (laneBallot h d p) s)

/-- PLOG (R141). -/
def lanePlog (h : Hd) (tt : BitVec 4) (pd pa pb : Prd) : LaneOp where
  i := .plog h tt pd pa pb
  hd := h
  perms := []
  reads _ _ _ := []
  frees := []
  eff G _ _ l := .prd pd (ttBit tt ((G.lane l).pred pa) ((G.lane l).pred pb))
def execPlog (h : Hd) (tt : BitVec 4) (pd pa pb : Prd) (s : State) : Ans := .next (runLane (lanePlog h tt pd pa pb) s)

/-! ### Transfers between groups of one core (R142–R144) -/

/-- Lanes of an operation that can still pair. -/
def Op.liveMask (o : Op) : Nat := maskOf ((o.lanes.filter fun l => !l.parkedB).map (·.lane))
def Op.valAt (o : Op) (l : Nat) : Nat := ((o.lanes.find? fun x => x.lane == l).map (·.y)).getD 0

/-- The register that an operation writes, as its instruction names it. -/
def Op.destReg (o : Op) : Option Reg :=
  match o.instr with
  | .xrecv _ _ d => some d
  | .ld _ _ d _ _ => some d
  | .atom _ _ d _ _ _ => some d
  | .cxch _ d _ _ _ => some d
  | .cldr _ d _ _ => some d
  | .pset _ d _ => some d
  | _ => none

/-- Lands an operation's live lanes: its parked ones stay, its flag falls, and without parked lanes it leaves the group. -/
def Group.landRest (G : Group) (o : Op) : Group :=
  let ps := o.lanes.filter OpLane.parkedB
  let G := G.flagDown o.flag
  if ps.isEmpty then G.dropOp o.id else G.setOp { o with lanes := ps }

/-- R143: the heads of a slot's two queues pair: every lane active in both takes the sender's value. -/
def State.pair (s : State) (c : Nat) (snd rcv : Post) : State :=
  let s := s.onCore c fun k => { k with posts := (k.posts.erase snd).erase rcv }
  match s.group? snd.gid, s.group? rcv.gid with
  | some Gs, some Gr =>
    match Gs.op? snd.op, Gr.op? rcv.op with
    | some os, some or_ =>
      let m := os.liveMask &&& or_.liveMask
      let row := rowOf or_.depth (or_.destReg.getD 0)
      let s := s.onGroup rcv.gid fun G => (G.onLanes m fun l L => L.set row (os.valAt l)).landRest or_
      s.onGroup snd.gid fun G => G.landRest os
    | _, _ => s
  | _, _ => s

/-- Pairs the heads of the queues of a region's slot, if both are non-empty. -/
def State.tryPair (s : State) (c rid slot : Nat) : State :=
  let q (snd : Bool) : Option Post :=
    (s.core c).posts.find? fun p => p.rid == rid && p.slot == slot && p.send == snd
  match q true, q false with
  | some a, some b => s.pair c a b
  | _, _ => s

/-- Posts a transfer for the lanes `act` of the gang: the values of lane registers are read now (R75). -/
def State.post (s : State) (x : Cur) (G : Group) (K' : Gang) (i : Instr) (slot : Nat) (snd : Bool)
    (lanes : List OpLane) : State :=
  let live := lanes.any fun l => !l.parkedB
  let o : Op :=
    { id := s.nextId, kind := .xfer, instr := i, pc := x.K.pc, flag := x.K.llFlag, slices := x.K.slices,
      mask := x.K.mask, depth := x.K.depth, ctx := x.K.clause, tick := s.tick, lanes := lanes, x := slot, y := 0 }
  if lanes.isEmpty then s.finish x G K'
  else if !live then s.fresh.finish x (G.addOp o) K'
  else
    let rid := ((s.block? G.geo.bid).map (·.rid)).getD 0
    let s1 := s.fresh.finish x ((G.flagUp o.flag).addOp o) K'
    let s2 := s1.onCore G.geo.core fun k => { k with posts := k.posts ++ [⟨rid, slot, x.g, o.id, snd⟩] }
    s2.tryPair G.geo.core rid slot

/-- The lanes of a posted transfer: an uncorrectable source parks its lane, and its whole ligature (R130, R172, R173). -/
def xferLanes (s : State) (x : Cur) (act : Nat) (rd : Nat → Option Rd) : List OpLane :=
  let flt := ligFault x.G act fun l => ((rd l).bind (·.bad)).map fun n => (0x0E, n, ((rd l).map (·.sub)).getD false)
  (bitsOf act 64).map fun l =>
    let st := match flt l with
      | some (c, a, i, sub) => LSt.parked c a s.tick (if ligBound x.G then i else 0) sub
      | none => .busy
    ⟨l, 0, 0, 0, ((rd l).map (·.v)).getD 0, 0, st, 0⟩

/-- XSEND (R142, R143). -/
def xsendF (h : Hd) (k : BitVec 4) (a : RL) (s : State) : State :=
  onCur s fun x =>
    if ligDiv x.G x.K h then s.trap x 0x0D 0x4C
    else
      let act := actMask x.G x.K h
      let rd (l : Nat) : Rd := ownRd x.G x.K l a.r allBits
      let ls := xferLanes s x act fun l => some (rd l)
      let ok := maskOf ((ls.filter fun l => !l.parkedB).map (·.lane))
      let G := (x.G.stickIf ((bitsOf act 64).any fun l => (rd l).freed) freedBit).onLanes ok fun _ L =>
        (rlFrees a).foldl (fun L r => L.free (rowOf x.K.depth r)) L
      let K := x.K.advLL h s.tick
      s.post x G { K with stopped := K.stopped || ls.any OpLane.parkedB } (.xsend h k a) k.toNat true ls
def execXsend (h : Hd) (k : BitVec 4) (a : RL) (s : State) : Ans := .next (xsendF h k a s)

/-- XRECV (R142, R143). -/
def xrecvF (h : Hd) (k : BitVec 4) (d : Reg) (s : State) : State :=
  onCur s fun x =>
    if ligDiv x.G x.K h then s.trap x 0x0D 0x4D
    else
      let act := actMask x.G x.K h
      s.post x x.G (x.K.advLL h s.tick) (.xrecv h k d) k.toNat false (xferLanes s x act fun _ => none)
def execXrecv (h : Hd) (k : BitVec 4) (d : Reg) (s : State) : Ans := .next (xrecvF h k d s)

end Sys2Proof.Machine
end

