-- ==== Sys2Proof/Machine/LaneFloat.lean ====
section
/-! DEFINITION. Floating-point lane instructions and conversions (R131–R135): for each, the lane operation and its meaning. -/

namespace Sys2Proof.Machine

/-- FADD (R131). -/
def laneFadd (h : Hd) (t : FT) (m : Rnd) (d : Reg) (a : Src) (b : BOp) : LaneOp :=
  laneAB (.fadd h t m d a b) h (FTfmt t).width allBits d a b fun G => elems2 (FTfmt t).width (fAdd (FTfmt t) m (ftzOf G))
def execFadd (h : Hd) (t : FT) (m : Rnd) (d : Reg) (a : Src) (b : BOp) (s : State) : Ans := .next (runLane (laneFadd h t m d a b) s)

/-- FSUB (R131). -/
def laneFsub (h : Hd) (t : FT) (m : Rnd) (d : Reg) (a : Src) (b : BOp) : LaneOp :=
  laneAB (.fsub h t m d a b) h (FTfmt t).width allBits d a b fun G => elems2 (FTfmt t).width (fSub (FTfmt t) m (ftzOf G))
def execFsub (h : Hd) (t : FT) (m : Rnd) (d : Reg) (a : Src) (b : BOp) (s : State) : Ans := .next (runLane (laneFsub h t m d a b) s)

/-- FMUL (R131). -/
def laneFmul (h : Hd) (t : FT) (m : Rnd) (d : Reg) (a : Src) (b : BOp) : LaneOp :=
  laneAB (.fmul h t m d a b) h (FTfmt t).width allBits d a b fun G => elems2 (FTfmt t).width (fMul (FTfmt t) m (ftzOf G))
def execFmul (h : Hd) (t : FT) (m : Rnd) (d : Reg) (a : Src) (b : BOp) (s : State) : Ans := .next (runLane (laneFmul h t m d a b) s)

/-- FFMA (R131): one rounding. -/
def laneFfma (h : Hd) (t : FT) (m : Rnd) (d : Reg) (a : Src) (b : Src) (c : RL) : LaneOp :=
  laneABC (.ffma h t m d a b c) h d a b c fun G => elems3 (FTfmt t).width (fFma (FTfmt t) m (ftzOf G))
def execFfma (h : Hd) (t : FT) (m : Rnd) (d : Reg) (a : Src) (b : Src) (c : RL) (s : State) : Ans := .next (runLane (laneFfma h t m d a b c) s)

/-- FMIN (R132). -/
def laneFmin (h : Hd) (t : FT) (d : Reg) (a : Src) (b : BOp) : LaneOp :=
  laneAB (.fmin h t d a b) h (FTfmt t).width allBits d a b fun G => elems2 (FTfmt t).width (fMinMax (FTfmt t) false (ftzOf G))
def execFmin (h : Hd) (t : FT) (d : Reg) (a : Src) (b : BOp) (s : State) : Ans := .next (runLane (laneFmin h t d a b) s)

/-- FMAX (R132). -/
def laneFmax (h : Hd) (t : FT) (d : Reg) (a : Src) (b : BOp) : LaneOp :=
  laneAB (.fmax h t d a b) h (FTfmt t).width allBits d a b fun G => elems2 (FTfmt t).width (fMinMax (FTfmt t) true (ftzOf G))
def execFmax (h : Hd) (t : FT) (d : Reg) (a : Src) (b : BOp) (s : State) : Ans := .next (runLane (laneFmax h t d a b) s)

/-- FCMP (R133): element 0 of each source. -/
def laneFcmp (h : Hd) (t : FT) (c : FCond) (pd : Prd) (a : Src) (b : BOp) : LaneOp :=
  laneCmp (.fcmp h t c pd a b) h (FTfmt t).width pd a b fun G => fCmp (FTfmt t) c (ftzOf G)
def execFcmp (h : Hd) (t : FT) (c : FCond) (pd : Prd) (a : Src) (b : BOp) (s : State) : Ans := .next (runLane (laneFcmp h t c pd a b) s)

/-- FRCP.s (R134). -/
def laneFrcp (h : Hd) (d : Reg) (a : Src) : LaneOp :=
  laneA (.frcp h d a) h allBits d a fun G => elems1 32 (spFn32 .rcp (ftzOf G))
def execFrcp (h : Hd) (d : Reg) (a : Src) (s : State) : Ans := .next (runLane (laneFrcp h d a) s)

/-- FRSQ.s (R134). -/
def laneFrsq (h : Hd) (d : Reg) (a : Src) : LaneOp :=
  laneA (.frsq h d a) h allBits d a fun G => elems1 32 (spFn32 .rsq (ftzOf G))
def execFrsq (h : Hd) (d : Reg) (a : Src) (s : State) : Ans := .next (runLane (laneFrsq h d a) s)

/-- FSQRT.s (R134). -/
def laneFsqrt (h : Hd) (d : Reg) (a : Src) : LaneOp :=
  laneA (.fsqrt h d a) h allBits d a fun G => elems1 32 (spFn32 .sqrt (ftzOf G))
def execFsqrt (h : Hd) (d : Reg) (a : Src) (s : State) : Ans := .next (runLane (laneFsqrt h d a) s)

/-- FEXP2.s (R134). -/
def laneFexp2 (h : Hd) (d : Reg) (a : Src) : LaneOp :=
  laneA (.fexp2 h d a) h allBits d a fun G => elems1 32 (spFn32 .exp2 (ftzOf G))
def execFexp2 (h : Hd) (d : Reg) (a : Src) (s : State) : Ans := .next (runLane (laneFexp2 h d a) s)

/-- FLOG2.s (R134). -/
def laneFlog2 (h : Hd) (d : Reg) (a : Src) : LaneOp :=
  laneA (.flog2 h d a) h allBits d a fun G => elems1 32 (spFn32 .log2 (ftzOf G))
def execFlog2 (h : Hd) (d : Reg) (a : Src) (s : State) : Ans := .next (runLane (laneFlog2 h d a) s)

/-- FTANH.s (R134). -/
def laneFtanh (h : Hd) (d : Reg) (a : Src) : LaneOp :=
  laneA (.ftanh h d a) h allBits d a fun G => elems1 32 (spFn32 .tanh (ftzOf G))
def execFtanh (h : Hd) (d : Reg) (a : Src) (s : State) : Ans := .next (runLane (laneFtanh h d a) s)

/-- Elements that CVT converts (R98). -/
def cvtN (k : CvtPair) : Nat := 64 / max (cvtDstW k) (cvtSrcW k)

/-- CVT (R98, R99): elements of d at n and above are zero. -/
def laneCvt (h : Hd) (k : CvtPair) (nan : Bool) (m : Rnd) (d : Reg) (a : Src) : LaneOp :=
  laneA (.cvt h k nan m d a) h (2 ^ (cvtN k * cvtSrcW k) - 1) d a fun G x =>
    elems (cvtDstW k) (fun i => cvtElem k nan m (ftzOf G) (elem (cvtSrcW k) x i)) (cvtN k)
def execCvt (h : Hd) (k : CvtPair) (nan : Bool) (m : Rnd) (d : Reg) (a : Src) (s : State) : Ans :=
  .next (runLane (laneCvt h k nan m d a) s)

/-- CVTEF (R100): the narrowed elements in d, the residues in c. -/
def laneCvtef (h : Hd) (dst : FF) (nan : Bool) (m : Rnd) (d : Reg) (a : Src) (c : Reg) : LaneOp where
  i := .cvtef h dst nan m d a c
  hd := h
  perms := [a.perm]
  reads G K l := [srcRd G K l a allBits, ownRd G K l c allBits]
  frees := srcFrees a
  eff G K _ l :=
    let r (i : Nat) : Nat × Nat := cvtefElem dst nan m (ftzOf G) (elem 32 (srcV G K l a) i) (elem 32 (ownV G K l c) i)
    ⟨[(rowOf K.depth d, elems (FFfmt dst).width (fun i => (r i).1) 2),
      (rowOf K.depth c, elems 32 (fun i => (r i).2) 2)], [], false, none⟩
def execCvtef (h : Hd) (dst : FF) (nan : Bool) (m : Rnd) (d : Reg) (a : Src) (c : Reg) (s : State) : Ans :=
  .next (runLane (laneCvtef h dst nan m d a c) s)

end Sys2Proof.Machine
end

