-- ==== Sys2Proof/Machine/LaneInt.lean ====
section
/-! DEFINITION. Integer lane instructions (R121–R127): for each, the lane operation and its meaning. -/

namespace Sys2Proof.Machine

/-- IADD (R121). -/
def laneIadd (h : Hd) (t : ET) (sm : Sat) (d : Reg) (a : Src) (b : BOp) : LaneOp :=
  laneAB (.iadd h t sm d a b) h (etW t) allBits d a b fun _ => elems2 (etW t) (satAdd sm (etW t))
def execIadd (h : Hd) (t : ET) (sm : Sat) (d : Reg) (a : Src) (b : BOp) (s : State) : Ans := .next (runLane (laneIadd h t sm d a b) s)

/-- ISUB (R121). -/
def laneIsub (h : Hd) (t : ET) (sm : Sat) (d : Reg) (a : Src) (b : BOp) : LaneOp :=
  laneAB (.isub h t sm d a b) h (etW t) allBits d a b fun _ => elems2 (etW t) (satSub sm (etW t))
def execIsub (h : Hd) (t : ET) (sm : Sat) (d : Reg) (a : Src) (b : BOp) (s : State) : Ans := .next (runLane (laneIsub h t sm d a b) s)

/-- IMUL (R122). -/
def laneImul (h : Hd) (t : ET) (d : Reg) (a : Src) (b : BOp) : LaneOp :=
  laneAB (.imul h t d a b) h (etW t) allBits d a b fun _ => elems2 (etW t) fun x y => x * y % 2 ^ etW t
def execImul (h : Hd) (t : ET) (d : Reg) (a : Src) (b : BOp) (s : State) : Ans := .next (runLane (laneImul h t d a b) s)

/-- IMULHU.d (R122). -/
def laneImulhu (h : Hd) (d : Reg) (a : Src) (b : BOp) : LaneOp :=
  laneAB (.imulhu h d a b) h 64 allBits d a b fun _ x y => x * y / 2 ^ 64
def execImulhu (h : Hd) (d : Reg) (a : Src) (b : BOp) (s : State) : Ans := .next (runLane (laneImulhu h d a b) s)

/-- IMULHS.d (R122). -/
def laneImulhs (h : Hd) (d : Reg) (a : Src) (b : BOp) : LaneOp :=
  laneAB (.imulhs h d a b) h 64 allBits d a b fun _ x y => wrap 64 (sext 64 x * sext 64 y / (2 : Int) ^ 64)
def execImulhs (h : Hd) (d : Reg) (a : Src) (b : BOp) (s : State) : Ans := .next (runLane (laneImulhs h d a b) s)

/-- IMAD (R122): the product is not reduced before the addition. -/
def laneImad (h : Hd) (t : ET) (d : Reg) (a : Src) (b : Src) (c : RL) : LaneOp :=
  laneABC (.imad h t d a b c) h d a b c fun _ => elems3 (etW t) fun x y z => (x * y + z) % 2 ^ etW t
def execImad (h : Hd) (t : ET) (d : Reg) (a : Src) (b : Src) (c : RL) (s : State) : Ans := .next (runLane (laneImad h t d a b c) s)

/-- IMIN (R123). -/
def laneImin (h : Hd) (t : ET) (d : Reg) (a : Src) (b : BOp) : LaneOp :=
  laneAB (.imin h t d a b) h (etW t) allBits d a b fun _ => elems2 (etW t) (sMin (etW t))
def execImin (h : Hd) (t : ET) (d : Reg) (a : Src) (b : BOp) (s : State) : Ans := .next (runLane (laneImin h t d a b) s)

/-- IMAX (R123). -/
def laneImax (h : Hd) (t : ET) (d : Reg) (a : Src) (b : BOp) : LaneOp :=
  laneAB (.imax h t d a b) h (etW t) allBits d a b fun _ => elems2 (etW t) (sMax (etW t))
def execImax (h : Hd) (t : ET) (d : Reg) (a : Src) (b : BOp) (s : State) : Ans := .next (runLane (laneImax h t d a b) s)

/-- AND (R123). -/
def laneAndV (h : Hd) (d : Reg) (a : Src) (b : BOp) : LaneOp :=
  laneAB (.andV h d a b) h 64 allBits d a b fun _ x y => x &&& y
def execAndV (h : Hd) (d : Reg) (a : Src) (b : BOp) (s : State) : Ans := .next (runLane (laneAndV h d a b) s)

/-- OR (R123). -/
def laneOrV (h : Hd) (d : Reg) (a : Src) (b : BOp) : LaneOp :=
  laneAB (.orV h d a b) h 64 allBits d a b fun _ x y => x ||| y
def execOrV (h : Hd) (d : Reg) (a : Src) (b : BOp) (s : State) : Ans := .next (runLane (laneOrV h d a b) s)

/-- XOR (R123). -/
def laneXorV (h : Hd) (d : Reg) (a : Src) (b : BOp) : LaneOp :=
  laneAB (.xorV h d a b) h 64 allBits d a b fun _ x y => x ^^^ y
def execXorV (h : Hd) (d : Reg) (a : Src) (b : BOp) (s : State) : Ans := .next (runLane (laneXorV h d a b) s)

/-- SHL (R124). -/
def laneShl (h : Hd) (t : ET) (d : Reg) (a : Src) (b : BOp) : LaneOp :=
  laneAB (.shl h t d a b) h (etW t) allBits d a b fun _ => elems2 (etW t) (shlE (etW t))
def execShl (h : Hd) (t : ET) (d : Reg) (a : Src) (b : BOp) (s : State) : Ans := .next (runLane (laneShl h t d a b) s)

/-- SHR (R124). -/
def laneShr (h : Hd) (t : ET) (d : Reg) (a : Src) (b : BOp) : LaneOp :=
  laneAB (.shr h t d a b) h (etW t) allBits d a b fun _ => elems2 (etW t) (shrE (etW t))
def execShr (h : Hd) (t : ET) (d : Reg) (a : Src) (b : BOp) (s : State) : Ans := .next (runLane (laneShr h t d a b) s)

/-- SAR (R124). -/
def laneSar (h : Hd) (t : ET) (d : Reg) (a : Src) (b : BOp) : LaneOp :=
  laneAB (.sar h t d a b) h (etW t) allBits d a b fun _ => elems2 (etW t) (sarE (etW t))
def execSar (h : Hd) (t : ET) (d : Reg) (a : Src) (b : BOp) (s : State) : Ans := .next (runLane (laneSar h t d a b) s)

/-- CLZ.d (R125). -/
def laneClz (h : Hd) (d : Reg) (a : Src) : LaneOp :=
  laneA (.clz h d a) h allBits d a fun _ => clz64
def execClz (h : Hd) (d : Reg) (a : Src) (s : State) : Ans := .next (runLane (laneClz h d a) s)

/-- POPC.d (R125). -/
def lanePopc (h : Hd) (d : Reg) (a : Src) : LaneOp :=
  laneA (.popc h d a) h allBits d a fun _ => popc64
def execPopc (h : Hd) (d : Reg) (a : Src) (s : State) : Ans := .next (runLane (lanePopc h d a) s)

/-- SEL (R126): both sources are read in every active lane. -/
def laneSel (h : Hd) (p : Prd) (d : Reg) (a : Src) (b : Src) : LaneOp where
  i := .sel h p d a b
  hd := h
  perms := [a.perm, b.perm]
  reads G K l := [srcRd G K l a allBits, srcRd G K l b allBits]
  frees := srcFrees a ++ srcFrees b
  eff G K _ l := .reg (rowOf K.depth d) (if (G.lane l).pred p then srcV G K l a else srcV G K l b)
def execSel (h : Hd) (p : Prd) (d : Reg) (a : Src) (b : Src) (s : State) : Ans := .next (runLane (laneSel h p d a b) s)

/-- ICMP (R127): element 0 of each source. -/
def laneIcmp (h : Hd) (t : ET) (c : ICond) (pd : Prd) (a : Src) (b : BOp) : LaneOp :=
  laneCmp (.icmp h t c pd a b) h (etW t) pd a b fun _ => iCond c (etW t)
def execIcmp (h : Hd) (t : ET) (c : ICond) (pd : Prd) (a : Src) (b : BOp) (s : State) : Ans := .next (runLane (laneIcmp h t c pd a b) s)

end Sys2Proof.Machine
end

