-- ==== Sys2Proof/Machine/LaneLig.lean ====
section
/-! DEFINITION. Ligature arithmetic (R128–R130): the lanes of a ligature hold the limbs of one integer of 64n bits. -/

namespace Sys2Proof.Machine

/-- Limb 0's lane of the ligature of lane l (R118). -/
def ligBase (G : Group) (l : Nat) : Nat := l / ligN G * ligN G

/-- The integer that a ligature's lanes hold in a source: lane `lo + i` gives limb i (R128). -/
def limbs (f : Nat → Nat) (lo : Nat) : Nat → Nat
  | 0 => 0
  | n + 1 => limbs f lo n + f (lo + n) % 2 ^ 64 * 2 ^ (64 * n)

/-- Limb i of an integer. -/
def limb (x i : Nat) : Nat := x / 2 ^ (64 * i) % 2 ^ 64

/-- A ligature instruction with sources a, b (or none) and c (or none). `bOne` marks those that read only limb 0's b. -/
def laneLig (i : Instr) (h : Hd) (f : LigFn) (pq : Prd) (d : Reg) (a : Src) (b : Option Src) (bOne : Bool)
    (c : Option RL) : LaneOp where
  i := i
  hd := h
  perms := a.perm :: (b.map (·.perm)).toList
  reads G K l :=
    srcRd G K l a allBits ::
      (match b with
        | some b => if bOne && l != ligBase G l then [] else [srcRd G K l b allBits]
        | none => []) ++
      (match c with
        | some c => [ownRd G K l c.r allBits]
        | none => [])
  frees := srcFrees a ++ (match b with | some b => srcFrees b | none => []) ++ (match c with | some c => rlFrees c | none => [])
  eff G K _ l :=
    let n := ligN G
    let lo := ligBase G l
    let bv (k : Nat) : Nat := match b with | some b => srcV G K k b | none => 0
    let cv (k : Nat) : Nat := match c with | some c => ownV G K k c.r | none => 0
    let r := ligFn f n (limbs (fun k => srcV G K k a) lo n) (if bOne then 0 else limbs bv lo n) (limbs cv lo n) (bv lo)
    ⟨[(rowOf K.depth d, limb r.1 (l - lo))], [(pq.toNat, r.2)], false, none⟩

/-- ADDL (R128). -/
def laneAddl (h : Hd) (pq : Prd) (d : Reg) (a : Src) (b : Src) : LaneOp :=
  laneLig (.addl h pq d a b) h .add pq d a (some b) false none
def execAddl (h : Hd) (pq : Prd) (d : Reg) (a : Src) (b : Src) (s : State) : Ans := .next (runLane (laneAddl h pq d a b) s)

/-- SUBL (R128): the predicate receives the borrow. -/
def laneSubl (h : Hd) (pq : Prd) (d : Reg) (a : Src) (b : Src) : LaneOp :=
  laneLig (.subl h pq d a b) h .sub pq d a (some b) false none
def execSubl (h : Hd) (pq : Prd) (d : Reg) (a : Src) (b : Src) (s : State) : Ans := .next (runLane (laneSubl h pq d a b) s)

/-- MACL (R128): limb 0's b multiplies. -/
def laneMacl (h : Hd) (pq : Prd) (d : Reg) (a : Src) (b : Src) (c : RL) : LaneOp :=
  laneLig (.macl h pq d a b c) h .mac pq d a (some b) true (some c)
def execMacl (h : Hd) (pq : Prd) (d : Reg) (a : Src) (b : Src) (c : RL) (s : State) : Ans :=
  .next (runLane (laneMacl h pq d a b c) s)

/-- SHLL (R128): limb 0's b is the count. -/
def laneShll (h : Hd) (pq : Prd) (d : Reg) (a : Src) (b : Src) : LaneOp :=
  laneLig (.shll h pq d a b) h .shl pq d a (some b) true none
def execShll (h : Hd) (pq : Prd) (d : Reg) (a : Src) (b : Src) (s : State) : Ans := .next (runLane (laneShll h pq d a b) s)

/-- SHRL (R128): limb 0's b is the count. -/
def laneShrl (h : Hd) (pq : Prd) (d : Reg) (a : Src) (b : Src) : LaneOp :=
  laneLig (.shrl h pq d a b) h .shr pq d a (some b) true none
def execShrl (h : Hd) (pq : Prd) (d : Reg) (a : Src) (b : Src) (s : State) : Ans := .next (runLane (laneShrl h pq d a b) s)

/-- NEGL (R128). -/
def laneNegl (h : Hd) (pq : Prd) (d : Reg) (a : Src) : LaneOp :=
  laneLig (.negl h pq d a) h .neg pq d a none false none
def execNegl (h : Hd) (pq : Prd) (d : Reg) (a : Src) (s : State) : Ans := .next (runLane (laneNegl h pq d a) s)

/-- CMPL (R129): both ligature values, unsigned or as two's complement of 64n bits. -/
def laneCmpl (h : Hd) (c : ICond) (pd : Prd) (a : Src) (b : Src) : LaneOp where
  i := .cmpl h c pd a b
  hd := h
  perms := [a.perm, b.perm]
  reads G K l := [srcRd G K l a allBits, srcRd G K l b allBits]
  frees := srcFrees a ++ srcFrees b
  eff G K _ l :=
    let n := ligN G
    let lo := ligBase G l
    .prd pd (iCond c (64 * n) (limbs (fun k => srcV G K k a) lo n) (limbs (fun k => srcV G K k b) lo n))
def execCmpl (h : Hd) (c : ICond) (pd : Prd) (a : Src) (b : Src) (s : State) : Ans := .next (runLane (laneCmpl h c pd a b) s)

end Sys2Proof.Machine
end

