-- ==== Sys2Proof/Machine/Replay.lean ====
section
/-! DEFINITION. Performing parked operations again after ERET (R179, step 2), and the one map from a lane arithmetic
instruction to its lane operation, for the replay and for macro bodies (R92). -/

namespace Sys2Proof.Machine

/-- The lane operation of a lane instruction of class P. -/
def laneOpOf (k : Core) (G : Group) : Instr → Option LaneOp
  | .iadd h t sm d a b => some (laneIadd h t sm d a b)
  | .isub h t sm d a b => some (laneIsub h t sm d a b)
  | .imul h t d a b => some (laneImul h t d a b)
  | .imulhu h d a b => some (laneImulhu h d a b)
  | .imulhs h d a b => some (laneImulhs h d a b)
  | .imad h t d a b c => some (laneImad h t d a b c)
  | .imin h t d a b => some (laneImin h t d a b)
  | .imax h t d a b => some (laneImax h t d a b)
  | .andV h d a b => some (laneAndV h d a b)
  | .orV h d a b => some (laneOrV h d a b)
  | .xorV h d a b => some (laneXorV h d a b)
  | .shl h t d a b => some (laneShl h t d a b)
  | .shr h t d a b => some (laneShr h t d a b)
  | .sar h t d a b => some (laneSar h t d a b)
  | .clz h d a => some (laneClz h d a)
  | .popc h d a => some (lanePopc h d a)
  | .sel h p d a b => some (laneSel h p d a b)
  | .icmp h t c pd a b => some (laneIcmp h t c pd a b)
  | .addl h pq d a b => some (laneAddl h pq d a b)
  | .subl h pq d a b => some (laneSubl h pq d a b)
  | .macl h pq d a b c => some (laneMacl h pq d a b c)
  | .shll h pq d a b => some (laneShll h pq d a b)
  | .shrl h pq d a b => some (laneShrl h pq d a b)
  | .cmpl h c pd a b => some (laneCmpl h c pd a b)
  | .negl h pq d a => some (laneNegl h pq d a)
  | .fadd h t m d a b => some (laneFadd h t m d a b)
  | .fsub h t m d a b => some (laneFsub h t m d a b)
  | .fmul h t m d a b => some (laneFmul h t m d a b)
  | .ffma h t m d a b c => some (laneFfma h t m d a b c)
  | .fmin h t d a b => some (laneFmin h t d a b)
  | .fmax h t d a b => some (laneFmax h t d a b)
  | .fcmp h t c pd a b => some (laneFcmp h t c pd a b)
  | .frcp h d a => some (laneFrcp h d a)
  | .frsq h d a => some (laneFrsq h d a)
  | .fsqrt h d a => some (laneFsqrt h d a)
  | .fexp2 h d a => some (laneFexp2 h d a)
  | .flog2 h d a => some (laneFlog2 h d a)
  | .ftanh h d a => some (laneFtanh h d a)
  | .cvt h k nan m d a => some (laneCvt h k nan m d a)
  | .cvtef h dst nan m d a c => some (laneCvtef h dst nan m d a c)
  | .tmacc h both d a => some (laneTmacc (tabOf k G.tmshape) h both d a)
  | .tmred h d a => some (laneTmred (tabOf k G.tmshape) h d a)
  | .tmfin h d a => some (laneTmfin (tabOf k G.tmshape) h d a)
  | .xget h t d a b => some (laneXget h t d a b)
  | .xgetu h t d a b => some (laneXgetu h t d a b)
  | .red h t op m d a => some (laneRed h t op m d a)
  | .scan h op m d a => some (laneScan h op m d a)
  | .ballot h d p => some (laneBallot h d p)
  | .plog h tt pd pa pb => some (lanePlog h tt pd pa pb)
  | _ => none

/-- The gang that issued an operation, as it was then: its lanes, depth and clause (R45, R179). Its lanes may since have gone to other
gangs or to a stack; it takes the place of the gang that holds the first parked lane now. -/
def Group.replayGang (G : Group) (o : Op) : Option Gang :=
  let l := lowBit o.parkedMask
  (G.gangs.find? fun K => K.slices.testBit (l / 4)).map fun K =>
    { K with depth := o.depth, mask := o.mask, slices := o.slices, clause := o.ctx }

/-- A parked lane arithmetic operation in its own lanes. -/
def State.replayAlu (s : State) (g : Nat) (G : Group) (K : Gang) (o : Op) : State :=
  match laneOpOf (s.core G.geo.core) G o.instr with
  | some op =>
    let r := op.applyOn (G.dropOp o.id) K o.x (o.parkedMask &&& G.liveLanes) o.pc s.tick s.nextId
    s.fresh.putGroup g (r.1.stopLanes r.2)
  | none => s.putGroup g (G.dropOp o.id)

/-- The lanes of an operation that are parked again: an uncorrectable register stops their gangs (R172). -/
def parkedLanes (ls : List OpLane) : Nat := maskOf ((ls.filter OpLane.parkedB).map (·.lane))

/-- A parked access: its sources are read as they now stand, and it is issued again. -/
def State.replayMem (s : State) (g : Nat) (G : Group) (K : Gang) (o : Op) : State :=
  let act := o.parkedMask &&& G.liveLanes
  let rd (l : Nat) : List Rd := memRds o.instr G K l
  let bad (l : Nat) : Option (Nat × Nat × Bool) := (rd l).findSome? fun x => x.bad.map fun n => (0x0E, n, x.sub)
  let flt := ligFault G act bad
  let lanes := (bitsOf act 64).map fun l =>
    let m := memLaneOf o.instr G K l
    match flt l with
    | some (c, v, i, sub) => { m with st := .parked c v s.tick (if ligBound G then i else 0) sub }
    | none => m
  let fr := (bitsOf act 64).any fun l => (rd l).any fun r => r.freed
  let G := (G.dropOp o.id).stickIf fr freedBit
  if lanes.isEmpty then s.putGroup g G
  else
    let o' := { o with id := s.nextId, lanes := lanes, tick := s.tick }
    let s1 := s.fresh.putGroup g (((G.flagUp o.flag).addOp o').stopLanes (parkedLanes lanes))
    if lanes.all OpLane.parkedB then s1.afterLanes g o' else s1.resolveOp g o'

/-- A parked transfer posts again for its own lanes. -/
def State.replayXfer (s : State) (g : Nat) (G : Group) (K : Gang) (o : Op) : State :=
  let act := o.parkedMask &&& G.liveLanes
  let rest := o.lanes.filter fun l => !l.parkedB
  let G0 := if rest.isEmpty then G.dropOp o.id else G.setOp { o with lanes := rest }
  let src : Option Reg := match o.instr with | .xsend _ _ a => some a.r | _ => none
  let rd (l : Nat) : Option Rd := src.map fun r => ownRd G K l r allBits
  let ls := xferLanes s ⟨g, G, K⟩ act rd
  let o' := { o with id := s.nextId, lanes := ls, tick := s.tick }
  let rid := ((s.block? G.geo.bid).map (·.rid)).getD 0
  if ls.isEmpty then s.putGroup g G0
  else if ls.all OpLane.parkedB then s.fresh.putGroup g ((G0.addOp o').stopLanes (parkedLanes ls))
  else
    let s1 := s.fresh.putGroup g (((G0.flagUp o.flag).addOp o').stopLanes (parkedLanes ls))
    let s2 := s1.onCore G.geo.core fun k => { k with posts := k.posts ++ [⟨rid, o.x, g, o'.id, src.isSome⟩] }
    s2.tryPair G.geo.core rid o.x

/-- R179, step 2: every parked operation of the group is performed again, in issue order. -/
def State.replayAll (s : State) (g : Nat) : State :=
  match s.group? g with
  | none => s
  | some G0 =>
    (G0.ops.filter Op.anyParked).foldl (fun s o =>
      match s.group? g with
      | none => s
      | some G =>
        match G.replayGang o with
        | none => s.putGroup g (G.dropOp o.id)
        | some K =>
          match o.kind with
          | .alu => s.replayAlu g G K o
          | .mem => s.replayMem g G K o
          | .xfer => s.replayXfer g G K o
          | .uni => s) s

/-- A release among the parked operations may not yet be performed (R217). -/
def Group.replayWaits (s : State) (g : Nat) (G : Group) : Bool :=
  G.ops.any fun o => o.kind == .mem && o.anyParked && emRel o.acc.em &&
    !releaseReady s g G (2 ^ 16 - 1) (scopeOf o.acc.em.scope.toNat o.lanes)

end Sys2Proof.Machine
end

