-- ==== Sys2Proof/Machine/Flow.lean ====
section
/-! DEFINITION. EXIT and the end of groups (R39, R154), barriers (R222), watches (R223, R224), fences (R225), waits for WCTMAX
(R217), entering the handler and ERET (R168, R175–R182). -/

namespace Sys2Proof.Machine

/-! ### EXIT -/

/-- EXIT holds its gang until the group's operations have completed (R39, step 1). -/
def exitF (h : Hd) (s : State) : State :=
  runUni (.exit h) h noPre [] s fun x => s.finish x x.G { x.K with hold := .exit }
def execExit (h : Hd) (s : State) : Ans := .next (exitF h s)

/-- R39, step 1: no operation of the group is outstanding but those that run on. In the handler the unpaired posts are withdrawn
(R144). -/
def exitDue (s : State) (g : Nat) (G : Group) : Bool :=
  (G.ops.all fun o => o.completed || (G.handler.isSome && o.kind == .xfer)) && !(s.eng.ops.any fun e => e.gid == g && e.isMx)

/-- R39, steps 2 and 3: the gang's lanes are done; its slices pop their stacks or retire. -/
def exitLanes (G : Group) (K : Gang) (id tick : Nat) : Group :=
  let sl := bitsOf K.slices 16
  let pops : List (Nat × StackEnt × List StackEnt) :=
    sl.filterMap fun j => match G.stack j with | e :: es => some (j, e, es) | [] => none
  let G1 : Group := pops.foldl (fun (G : Group) p => G.setStack p.1 p.2.2) G
  let gone := maskOf (sl.filter fun j => (G.stack j).isEmpty)
  let gang (p : Part) (i : Nat) : Gang :=
    { K.jump p.pc tick with
      id := if i = 0 then K.id else id + i, slices := p.slices, mask := p.mask, hold := .none
      watch := if i = 0 then K.watch else none }
  let parts : List Part := formParts (pops.map fun (p : Nat × StackEnt × List StackEnt) => (p.2.1.pc, p.1, p.2.1.mask))
  let G2 := { G1 with
    done := G.done ||| K.mask
    retired := G.retired ||| gone
    gangs := (G1.gangs.filter fun (x : Gang) => x.id != K.id) ++
      parts.zipIdx.map fun (e : Part × Nat) => gang e.1 e.2 }
  G2.settle tick

/-- EXIT_LANES_DONE, in a block that runs (R37). In the handler every live lane is done (R177). -/
def exitLanesDoneF (g k : Nat) (s : State) : State :=
  match s.group? g with
  | none => s
  | some G =>
    match G.gang? k with
    | none => s
    | some K =>
      if K.hold != .exit || G.pending || !s.groupRuns G || !exitDue s g G then s
      else if G.handler.isSome then s.endGroup g
      else
        let G' := exitLanes G K s.nextId s.tick
        let s1 := { s with nextId := s.nextId + 16 }.putGroup g G'
        if G'.liveLanes = 0 then s1.endGroup g else s1
def execExitLanesDone (g k : Nat) (s : State) : Ans := .next (exitLanesDoneF g k s)

/-! ### Barriers -/

/-- BAR waits at the instruction until its group's accesses are performed (R222, step 1). -/
def barF (h : Hd) (k : BitVec 4) (s : State) : State :=
  runUni (.bar h k) h wholePre [] s fun x => s.finish x x.G { x.K with hold := .bar k.toNat h.len }
def execBar (h : Hd) (k : BitVec 4) (s : State) : Ans := .next (barF h k s)

/-- BAR_ARRIVE: the group arrives and waits (R222, step 2), in a block that runs. -/
def barArriveF (g k : Nat) (s : State) : State :=
  match s.group? g with
  | none => s
  | some G =>
    match G.gang? k with
    | none => s
    | some K =>
      match K.hold with
      | .bar i n =>
        if G.pending || !s.groupRuns G || !releaseReady s g G (2 ^ 16 - 1) 1 then s
        else
          let K' := { K with pc := K.pc + 4 * n, clause := K.clauseAdv n 0, hold := .none, st := .waitBar, last := s.tick }
          let s1 := (s.putGroup g (G.putGang K')).onBlock G.geo.bid fun b =>
            { b with bars := SMap.put b.bars i (SMap.getD b.bars i 0 ||| 2 ^ G.geo.gi) }
          s1.barCheck G.geo.bid
      | _ => s
def execBarArrive (g k : Nat) (s : State) : Ans := .next (barArriveF g k s)

/-! ### Watches -/

/-- MONITOR (R223). -/
def monitorF (h : Hd) (a : Reg) (s : State) : State :=
  runUni (.monitor h a) h noPre [a] s fun x =>
    let va := uVal x a
    if inAperture va || inPeer va then s.uniFault x (uFreed x a) 0x06 va 0x9E
    else s.uniIssue x (uFreed x a) 0x9E va 1 1 true false fun s _ ps =>
      match ps with
      | p :: _ => s.finish x x.G { x.K.adv h s.tick with watch := some ⟨lineOf p.pa, false⟩ }
      | [] => s
def execMonitor (h : Hd) (a : Reg) (s : State) : Ans := .next (monitorF h a s)

/-- MWAIT (R224). A limit of 0 never passes: the gang's wake time is then 0. -/
def mwaitF (h : Hd) (a : Reg) (s : State) : State :=
  runUni (.mwait h a) h noPre [a] s fun x =>
    let K := x.K.adv h s.tick
    let t := uVal x a
    match x.K.watch with
    | none => s.finish x x.G K
    | some w =>
      if w.trig then s.finish x x.G { K with watch := none }
      else s.finish x x.G { K with st := .sleep, wake := some (if t = 0 then 0 else s.tick + t) }
def execMwait (h : Hd) (a : Reg) (s : State) : Ans := .next (mwaitF h a s)

/-- MWAIT_TIMEOUT. While a fault is pending, the gang stays stopped (R174, log 131). -/
def mwaitTimeoutF (g k : Nat) (s : State) : State :=
  match s.group? g with
  | none => s
  | some G =>
    match G.gang? k with
    | none => s
    | some K =>
      match K.wake with
      | some t =>
        if K.st = .sleep ∧ t ≠ 0 ∧ t ≤ s.tick then s.putGroup g (G.putGang { K.wakes G.pending with wake := none, watch := none }) else s
      | none => s
def execMwaitTimeout (g k : Nat) (s : State) : Ans := .next (mwaitTimeoutF g k s)

/-! ### Fences (R225) and WCTMAX -/

/-- Every earlier load and atomic of the gang has completed. -/
def readsDone (G : Group) (slices : Nat) : Bool :=
  !(G.ops.any fun o => o.kind == .mem && o.slices &&& slices != 0 && o.acc.rd && !o.completed)

/-- The fence ends: with an acquire its gang's core drops the lines of R260 that are older than `time`. -/
def fenceEnd (s : State) (x : Cur) (h : Hd) (acq : Bool) (scope time : Nat) : State :=
  if acq then
    let s1 := s.finish x x.G { x.K.adv h s.tick with rtime := if 2 ≤ scope then 0 else x.K.rtime }
    (if scope = 0 then s1 else s1.coreJoin x.g).selfInvalidate x.G.geo.core scope time
  else s.doneP x h x.G

/-- FENCE of the kinds that release, acquire, or both. -/
def fenceF (i : Instr) (h : Hd) (scope : BitVec 3) (rel acq : Bool) (s : State) : State :=
  runUni i h noPre [] s fun x =>
    if rel && !releaseReady s x.g x.G x.K.slices scope.toNat then s.waitWct x
    else if acq && !readsDone x.G x.K.slices then s.heldAtIssue
    else fenceEnd s x h acq scope.toNat x.K.rtime
def execFenceAcq (h : Hd) (scope : BitVec 3) (s : State) : Ans := .next (fenceF (.fenceAcq h scope) h scope false true s)
def execFenceRel (h : Hd) (scope : BitVec 3) (s : State) : Ans := .next (fenceF (.fenceRel h scope) h scope true false s)
def execFenceAr (h : Hd) (scope : BitVec 3) (s : State) : Ans := .next (fenceF (.fenceAr h scope) h scope true true s)

/-- FENCE.sc also takes its place in the one order of sc fences (R255): the order in which they are performed. What came before an
earlier one happens before what follows it, so that its core drops every line that was filled before that fence. -/
def fenceScF (h : Hd) (scope : BitVec 3) (s : State) : State :=
  runUni (.fenceSc h scope) h noPre [] s fun x =>
    if !releaseReady s x.g x.G x.K.slices scope.toNat then s.waitWct x
    else if !readsDone x.G x.K.slices then s.heldAtIssue
    else
      fenceEnd { s with eng := { s.eng with scs := s.eng.scs + 1, scTick := s.tick + 1 } } x h true scope.toNat
        (max x.K.rtime s.eng.scTick)
def execFenceSc (h : Hd) (scope : BitVec 3) (s : State) : Ans := .next (fenceScF h scope s)

/-- FENCE.eng: engine accesses reach homes only, so that it waits at every scope until the stores are there (R254), and the invalidation
comes at every scope (R225, R260). -/
def fenceEngF (h : Hd) (scope : BitVec 3) (s : State) : State :=
  runUni (.fenceEng h scope) h noPre [] s fun x =>
    if !performedAt s x.g x.G x.K.slices (max 2 scope.toNat) then s.waitWct x
    else (s.doneP x h x.G).selfInvalidate x.G.geo.core (max 2 scope.toNat) x.G.engtime
def execFenceEng (h : Hd) (scope : BitVec 3) (s : State) : Ans := .next (fenceEngF h scope s)

/-- WCTMAX_PASSED (R217): a gang held for WCTMAX may try again. -/
def wctmaxPassedF (g k : Nat) (s : State) : State :=
  match s.group? g with
  | none => s
  | some G =>
    match G.gang? k with
    | none => s
    | some K => if K.hold = .wct ∧ max G.wctmax G.hbw ≤ s.tick then s.putGroup g (G.putGang { K with hold := .none }) else s
def execWctmaxPassed (g k : Nat) (s : State) : Ans := .next (wctmaxPassedF g k s)

/-! ### The handler -/

/-- HANDLER_ENTRY (R175–R178, R182), in a block that runs: in another the group stays as it stopped (R184). -/
def handlerEntryF (g : Nat) (s : State) : State :=
  match s.group? g with
  | none => s
  | some G =>
    if !G.entryDue || !s.groupRuns G then s
    else
      match earliest G.allEvents with
      | none => s
      | some e =>
        let hpc := ((s.regionOf G).map (·.rcb.handler)).getD 0
        match G.holder e with
        | none => s
        | some K =>
          if G.handler.isSome then s.passFault g G e 1
          else if hpc = 0 then s.passFault g G e 0
          else if G.bottom + G.geo.cap < K.depth + 24 then s.passFault g G e 1
          else s.fresh.putGroup g (G.enterHandler e K hpc s.nextId s.tick)
def execHandlerEntry (g : Nat) (s : State) : Ans := .next (handlerEntryF g s)

/-- Steps 2 and 3 of R179 for a group whose gangs have returned. -/
def State.resumeGroup (s : State) (g : Nat) (G : Group) : State :=
  (s.putGroup g (G.settle s.tick)).replayAll g

/-- ERET (R168, R179). The handler holds its privilege (R177), and outside it ERET is ILLEGAL. -/
def eretF (h : Hd) (s : State) : State :=
  runUni (.eret h) h (opIll h [] fun x => x.G.handler.isNone) [] s fun x =>
    if !x.G.closed then s.trap x 0x01 0xC8
    else if x.G.replayWaits s x.g then s.waitWct x
    else s.popPort.resumeGroup x.g x.G.leaveHandler
def execEret (h : Hd) (s : State) : Ans := .next (eretF h s)

end Sys2Proof.Machine
end

