-- ==== Sys2Proof/Machine/NodeProg.lean ====
section
/-! DEFINITION. The bank-unit machine: its words, the checks of a load, and node programs (R309, R314–R320). -/

namespace Sys2Proof.Machine

/-! ### The bank-unit word (R316) -/

/-- The fields of a bank-unit word. -/
structure Np where
  op : Nat
  t  : Nat
  me : Bool
  msk : Nat
  qd : Nat
  qa : Nat
  qb : Nat
  xf : Nat
  deriving DecidableEq, Repr

def npOf (w : Nat) : Np where
  op := fld w 31 27
  t := fld w 26 24
  me := bit w 23
  msk := fld w 22 21
  qd := fld w 20 16
  qa := fld w 15 11
  qb := fld w 10 6
  xf := fld w 5 0

/-- NMOVI's immediate and NLOOP's count. -/
def Np.imm (n : Np) : Nat := n.qa * 2 ^ 11 + n.qb * 2 ^ 6 + n.xf
def Np.count (n : Np) : Nat := n.qa * 2 ^ 5 + n.qb

/-- Whether a word is one that R316 allows. -/
def Np.ok (n : Np) : Bool :=
  let q (r : Nat) : Bool := decide (r < 24)
  let regs := q n.qd && q n.qa && q n.qb
  let any := decide (n.t ≤ 4)
  let int := n.t == 1 || n.t == 4
  let ctl := n.t == 0 && !n.me && n.msk == 0
  match n.op with
  | 0x00 | 0x01 | 0x02 | 0x03 | 0x04 | 0x05 | 0x0F => any && regs && n.xf == 0
  | 0x06 | 0x07 | 0x08 => int && regs && n.xf == 0
  | 0x09 | 0x0A => int && q n.qd && q n.qa && (if bit n.xf 5 then n.qb == 0 else q n.qb && n.xf == 0)
  | 0x0B => any && decide (n.qd < 4) && q n.qa && q n.qb && decide (n.xf ≤ 5)
  | 0x0C => any && regs && decide (n.xf < 4)
  | 0x0D => any && q n.qd && q n.qa && n.qb == 0 && decide (n.xf < 16) && decide (n.xf % 8 ≤ 4) && n.xf % 8 != n.t
  | 0x0E => any && q n.qd
  | 0x10 => any && q n.qd && q n.qa && n.qb == 0 && decide (n.xf ≤ 2)
  | 0x11 => ctl && decide (n.qd < 2) && n.xf == 0 && n.count != 0
  | 0x12 | 0x18 => ctl && n.qd == 0 && n.qa == 0 && n.qb == 0 && n.xf == 0
  | 0x13 => ctl && q n.qd && n.qa == 0 && n.qb == 0 && (decide (n.xf < 8) || n.xf == 8)
  | 0x14 => ctl && n.qd == 0 && q n.qa && n.qb == 0 && n.xf == 0
  | 0x15 => ctl && q n.qd && n.qa == 0 && n.qb == 0 && n.xf == 0
  | 0x16 => ctl && decide (n.qd < 4) && n.qa == 0 && n.qb == 0 && n.xf == 0
  | 0x17 => ctl && n.qd == 0 && q n.qa && n.qa % 2 == 0 && n.qb == 0 && n.xf == 0
  | _ => false

/-- R309: the scan of a range, with the loop depth. -/
def npScan : Nat → List Nat → Bool
  | _, [] => false
  | d, w :: ws =>
    let n := npOf w
    n.ok &&
      (if n.op = 0x11 then decide (d < 2) && n.qd == d && npScan (d + 1) ws
       else if n.op = 0x12 then decide (0 < d) && npScan (d - 1) ws
       else if n.op = 0x18 then d == 0 && (ws.isEmpty || npScan d ws)
       else npScan d ws)

/-! ### Element arithmetic (R315, R317) -/

/-- Bits of an element, and elements of a register. -/
def npW (t : Nat) : Nat := if t ≤ 1 then 32 else 16
def npN (t : Nat) : Nat := if t ≤ 1 then 8 else 16
/-- The float format of a type, none for an integer. -/
def npFmt (t : Nat) : Option Fmt := match t with | 0 => some fmtS | 2 => some fmtH | 3 => some fmtBf | _ => none

def npBin (op t x y d : Nat) : Nat :=
  let w := npW t
  match npFmt t with
  | some f =>
    match op with
    | 0 => fAdd f .rne false x y
    | 1 => fSub f .rne false x y
    | 2 => fMul f .rne false x y
    | 3 => fFma f .rne false x y d
    | 4 => fMinMax f false false x y
    | _ => fMinMax f true false x y
  | none =>
    match op with
    | 0 => (x + y) % 2 ^ w
    | 1 => (x + 2 ^ w - y) % 2 ^ w
    | 2 => x * y % 2 ^ w
    | 3 => (x * y + d) % 2 ^ w
    | 4 => sMin w x y
    | _ => sMax w x y

def npLogic (op x y : Nat) : Nat := match op with | 6 => x &&& y | 7 => x ||| y | _ => x ^^^ y

/-- NCMP's condition (R81). -/
def npCmp (t c x y : Nat) : Bool :=
  match npFmt t with
  | some f => fCmp f (match c with | 0 => .eq | 1 => .ne | 2 => .lt | 3 => .le | 4 => .unord | _ => .ord) false x y
  | none => iCond (match c with | 0 => .eq | 1 => .ne | 2 => .lt | 3 => .le | 4 => .ltu | _ => .leu) (npW t) x y

/-- NCVT of one element from type s to type t. -/
def npCvt (t s x : Nat) : Nat :=
  match npFmt t, npFmt s with
  | some f, some g => encodeConv f .rne false false (decodeF g false x)
  | some f, none => encodeConv f .rne false false (.ofInt (sext (npW s) x))
  | none, some g => fToInt .rne (npW t) true (decodeF g false x)
  | none, none => wrap (npW t) (clampI (sext (npW s) x) (intMin (npW t) true) (intMax (npW t) true))

/-! ### The machine (R314, R318, R319) -/

/-- One invocation's state: registers, masks, counters, program counter, open loops as (counter, first entry of the body), and what
the last NEMIT, NMATCH and NSTF left. -/
structure NpSt where
  q     : SMap Nat
  m     : List Nat
  lc    : List Nat
  pc    : Nat
  loops : List (Nat × Nat)
  emit  : Option (Nat × Nat)
  mat   : Option Bool
  stf   : Option Nat
  deriving DecidableEq, Repr

/-- What a context binds: its kind (0 XFORM, 1 COMB, 2 GSET), the slots and record that NLDF reads, NEDGE's value. -/
structure NpCtx where
  kind : Nat
  slot : Nat → Nat
  recd : Nat
  edge : Nat

def NpSt.get (s : NpSt) (r : Nat) : Nat := SMap.getD s.q r 0
def NpSt.mask (s : NpSt) (k : Nat) : Nat := (s.m[k]?).getD 0

/-- Writes the elements of a register that the mask governs. -/
def NpSt.put (s : NpSt) (n : Np) (f : Nat → Nat) : NpSt :=
  let w := npW n.t
  let old := s.get n.qd
  let on (i : Nat) : Bool := !n.me || (s.mask n.msk).testBit i
  { s with q := SMap.put s.q n.qd (elems w (fun i => if on i then f i else elem w old i) (npN n.t)), pc := s.pc + 1 }

/-- One step: none where the invocation fails, `inr` at NEND. -/
def npStep (c : NpCtx) (n : Np) (s : NpSt) : Option (NpSt ⊕ NpSt) :=
  let w := npW n.t
  let a (i : Nat) : Nat := elem w (s.get n.qa) i
  let b (i : Nat) : Nat := elem w (s.get n.qb) i
  let d (i : Nat) : Nat := elem w (s.get n.qd) i
  let on (i : Nat) : Bool := !n.me || (s.mask n.msk).testBit i
  match n.op with
  | 0x06 | 0x07 | 0x08 => some (.inl (s.put n fun i => npLogic n.op (a i) (b i)))
  | 0x09 => some (.inl (s.put n fun i => shlE w (a i) (if bit n.xf 5 then n.xf % 32 else b i)))
  | 0x0A => some (.inl (s.put n fun i => shrE w (a i) (if bit n.xf 5 then n.xf % 32 else b i)))
  | 0x0B =>
    let old := s.mask n.qd
    let v := maskOf ((List.range (npN n.t)).filter fun i => if on i then npCmp n.t n.xf (a i) (b i) else old.testBit i)
    some (.inl { s with m := setAt s.m n.qd v, pc := s.pc + 1 })
  | 0x0C => some (.inl (s.put n fun i => if (s.mask n.xf).testBit i then a i else b i))
  | 0x0D =>
    let src := n.xf % 8
    let hi := n.xf / 8
    let x (i : Nat) : Nat := elem (npW src) (s.get n.qa) i
    some (.inl (s.put n fun i =>
      if npN src = npN n.t then npCvt n.t src (x i)
      else if npN n.t < npN src then npCvt n.t src (x (8 * hi + i))
      else if i / 8 = hi then npCvt n.t src (x (i % 8)) else d i))
  | 0x0E => some (.inl (s.put n fun _ =>
      if n.t = 1 then wrap 32 (sext 16 n.imm) else if n.t = 0 then n.imm * 2 ^ 16 else n.imm))
  | 0x0F => some (.inl (s.put n fun i => a (b i % npN n.t)))
  | 0x10 =>
    let f := npBin (match n.xf with | 0 => 0 | 1 => 5 | _ => 4) n.t
    let r := tree (fun x y => f x y 0) (fun i => if on i then some (a i) else none) 0 (npN n.t).log2
    some (.inl { s with q := SMap.put s.q n.qd (r.getD 0), pc := s.pc + 1 })
  | 0x11 =>
    if 2 ≤ s.loops.length then none
    else some (.inl { s with lc := setAt s.lc n.qd n.count, loops := (n.qd, s.pc + 1) :: s.loops, pc := s.pc + 1 })
  | 0x12 =>
    match s.loops with
    | [] => none
    | (k, e) :: ls =>
      let v := (s.lc[k]?).getD 0 - 1
      some (.inl { s with lc := setAt s.lc k v, loops := if v = 0 then ls else s.loops, pc := if v = 0 then s.pc + 1 else e })
  | 0x13 => some (.inl { s with q := SMap.put s.q n.qd (if n.xf = 8 then c.recd else c.slot n.xf), pc := s.pc + 1 })
  | 0x14 => if c.kind = 2 then some (.inl { s with stf := some (s.get n.qa), pc := s.pc + 1 }) else none
  | 0x15 => some (.inl { s with q := SMap.put s.q n.qd c.edge, pc := s.pc + 1 })
  | 0x16 => if c.kind = 2 then some (.inl { s with mat := some (bit (s.mask n.qd) 0), pc := s.pc + 1 }) else none
  | 0x17 =>
    if c.kind = 0 ∧ n.qa % 2 = 0 then some (.inl { s with emit := some (s.get n.qa, s.get (n.qa + 1)), pc := s.pc + 1 }) else none
  | 0x18 => some (.inr s)
  | op => some (.inl (s.put n fun i => npBin (if op ≤ 5 then op else 0) n.t (a i) (b i) (d i)))

/-- An invocation to its NEND; none where it fails (R320). A loop nest ends within the fuel. -/
def npRun (store : SMap Nat) (c : NpCtx) : Nat → NpSt → Option NpSt
  | 0, _ => none
  | n + 1, s =>
    if 96 ≤ s.pc then none
    else
      match SMap.get? store s.pc with
      | none => none
      | some w =>
        match npStep c (npOf w) s with
        | none => none
        | some (.inr s) => some s
        | some (.inl s) => npRun store c n s

/-- An invocation from its entry with q0–q4 bound (R314, R319). -/
def npInvoke (store : SMap Nat) (c : NpCtx) (entry q0 q1 q2 q3 q4 : Nat) : Option NpSt :=
  npRun store c (2 ^ 27)
    ⟨[(0, q0), (1, q1), (2, q2), (3, q3), (4, q4)], [0xFFFF, 0xFFFF, 0xFFFF, 0xFFFF], [0, 0], entry, [], none, none, none⟩

end Sys2Proof.Machine
end

