-- ==== Sys2Proof/Machine/Graph.lean ====
section
/-! DEFINITION. The graph engine: spaces and their bindings (R290–R293, R306–R308), broadcasts and their order (R303), waves
(R294–R302, R304, R305, R313, R323), marking, clearing, collecting and loading programs (R309–R312). -/

namespace Sys2Proof.Machine

/-! ### Spaces -/

/-- The space bound at a canonical address that broadcasts may still name. -/
def State.space? (s : State) (desc : Nat) : Option Space := s.eng.spaces.find? fun p => p.desc == desc && !p.closing
/-- The same for broadcasts that have been accepted. -/
def State.spaceOf (s : State) (desc : Nat) : Option Space := s.eng.spaces.find? fun p => p.desc == desc
def State.setSpace (s : State) (p : Space) : State :=
  { s with eng := { s.eng with spaces := s.eng.spaces.map fun x => if x.desc = p.desc then p else x } }

/-- Broadcasts that the controller has accepted for a space and that have not ended. -/
def State.bcasts (s : State) (desc : Nat) : List (Eng × Bcast) :=
  s.eng.ops.filterMap fun e => match e.kind with | .bcast b => if b.space = desc then some (e, b) else none | _ => none

/-- R308: a binding whose region has ended is released once its broadcasts have ended. -/
def State.sweepSpaces (s : State) : State :=
  { s with eng := { s.eng with spaces := s.eng.spaces.filter fun p => !p.closing || !(s.bcasts p.desc).isEmpty } }

/-- End of the spill area: offset of the spill area and bytes up to its end (R291). -/
def spillOff (nmax emax : Nat) : Nat := (320 * nmax + 8 * emax + 63) / 64 * 64
def areaEnd (nmax emax spilln : Nat) : Nat := spillOff nmax emax + 64 * spilln

/-- First address of a member's segment in its vault. The vaults are those of the bind (log 142). -/
def State.segAddr (s : State) (p : Space) (i : Nat) : Nat := s.dev * 2 ^ 40 + (p.members[i]?).getD 0 * 2 ^ 29 + p.segoff
/-- A node's place: member × 2^32 + record. -/
def place (i r : Nat) : Nat := i * 2 ^ 32 + r
def State.recAddr (s : State) (p : Space) (pl : Nat) : Nat := s.segAddr p (pl / 2 ^ 32) + 64 * (pl % 2 ^ 32)
def State.slotAddr (s : State) (p : Space) (pl m : Nat) : Nat :=
  s.segAddr p (pl / 2 ^ 32) + 64 * p.nmax + 256 * (pl % 2 ^ 32) + 32 * m
def State.edgeAddr (s : State) (p : Space) (pl g : Nat) : Nat := s.segAddr p (pl / 2 ^ 32) + 320 * p.nmax + 8 * g

/-- Record fields (R292). -/
def State.recNum (s : State) (p : Space) (pl off n : Nat) : Nat := s.homeRead (s.recAddr p pl + off) n
def State.recValid (s : State) (p : Space) (pl : Nat) : Bool := bit (s.recNum p pl 6 1) 0
def State.recMark (s : State) (p : Space) (pl m : Nat) : Bool := bit (s.recNum p pl 7 1) m

/-- Every valid node of a space. -/
def State.validNodes (s : State) (p : Space) : List Nat :=
  ((List.range p.nv).flatMap fun i => (List.range p.nmax).map fun r => place i r).filter (s.recValid p)

/-- A write of the graph engine within one line, at its home: of a segment, whose pages are GS, or of the descriptor, which lies in
ordinary memory (R259, R291). -/
def State.gWrite (s : State) (e : Eng) (pa n v : Nat) : State := (s.homeWrite pa n v false).raiseWct e.gid (s.wctOf pa false)
def State.gDesc (s : State) (e : Eng) (pa n v : Nat) : State := (s.homeWrite pa n v true).raiseWct e.gid (s.wctOf pa true)
/-- Sets or clears bit m of the descriptor's SPOIL byte (R305). -/
def State.gSpoil (s : State) (e : Eng) (desc m : Nat) (on : Bool) : State :=
  let v := s.homeRead (desc + 0xC0) 1
  s.gDesc e (desc + 0xC0) 1 (if on then v ||| 2 ^ m else v &&& (255 - 2 ^ m))
def State.gMark (s : State) (e : Eng) (p : Space) (pl m : Nat) (on : Bool) : State :=
  let v := s.recNum p pl 7 1
  s.gWrite e (s.recAddr p pl + 7) 1 (if on then v ||| 2 ^ m else v &&& (255 - 2 ^ m))

/-! ### Issue (R306, R307) -/

/-- The checks of R306 in order; `op2` is an address operand with its alignment. `f` gets the descriptor's piece. -/
def State.gCheck (s : State) (x : Cur) (fr : Bool) (opc va : Nat) (op2 : Option (Nat × Nat)) (f : State → List Piece → Nat → State) :
    State :=
  if 2 ^ 55 ≤ va || inAperture va then s.uniFault x fr 0x04 va opc
  else if va % 256 != 0 then s.uniFault x fr 0x03 va opc
  else
    match op2.bind fun o => if o.1 % o.2 != 0 then some o.1 else none with
    | some a => s.uniFault x fr 0x03 a opc
    | none => s.uniIssue x fr opc va 256 256 true true fun s _ ps =>
        match ps with
        | p :: _ => f s ps p.pa
        | [] => s

/-- The issuing region is the binding region or its descendant. -/
def State.mayName (s : State) (G : Group) (p : Space) : Bool :=
  match s.regionOf G, s.region? p.rid with
  | some R, some B => R.id == p.rid || R.chain.contains B.addr
  | _, _ => false

/-- A broadcast or an unbind: the space that it names, or ATTR. -/
def State.gNamed (s : State) (x : Cur) (fr : Bool) (opc va desc : Nat) (f : Space → State) : State :=
  match s.space? desc with
  | some p => if s.mayName x.G p then f p else s.uniFault x fr 0x06 va opc
  | none => s.uniFault x fr 0x06 va opc

/-- Accepts a broadcast. -/
def State.gAccept (s : State) (x : Cur) (h : Hd) (i : Instr) (desc word key addr : Nat) : State :=
  s.startEng x h
    (s.mkEng x (.bcast ⟨desc, i, word, key, addr, false, 0, false, [], [], [], [], [], none, none, [], [], 0, 0, false, false, none⟩) i.opc false)

/-! ### GSPACE (R308) -/

/-- A field of the descriptor that breaks its rule: its offset. -/
def descBad (d : Nat → Nat → Nat) : Option Nat :=
  let vb := d 0 8
  let so := d 8 4
  let sl := d 12 4
  let nv := d 16 2
  if vb % 2 ^ 29 != 0 || vb / 2 ^ 55 != 0 then some 0
  else if d 0x13 1 != 0 then some 0x13
  else if d 0x2C 20 != 0 then some 0x2C
  else if d 0xC1 63 != 0 then some 0xC1
  else if so % 65536 != 0 then some 8
  else if sl % 65536 != 0 || sl == 0 || decide (2 ^ 29 < so + sl) then some 12
  else if nv == 0 || decide (1024 < nv) then some 16
  else if 16 < d 0x12 1 then some 0x12
  else if d 0x14 4 == 0 then some 0x14
  else if d 0x1C 4 == 0 then some 0x1C
  else if d 0x20 8 % 4 != 0 then some 0x20
  else if sl < areaEnd (d 0x14 4) (d 0x18 4) (d 0x28 4) then some 12
  else none

/-- The member vaults of a space, or the first member page that is refused. -/
def State.memberVaults (s : State) (c root vb segoff seglen : Nat) (acc : List Nat) : List Nat → Nat ⊕ List Nat
  | [] => .inr acc
  | i :: is =>
    let va := vb + i * 2 ^ 29
    match if 2 ^ 55 ≤ va then none else s.walk c root va with
    | none => .inl va
    | some l =>
      let pa := ptePA l.pte
      let v := pa / 2 ^ 29 % 2 ^ 10
      let clash := s.eng.spaces.any fun q => q.members.contains v && decide (q.segoff < segoff + seglen) && decide (segoff < q.segoff + q.seglen)
      if l.bits != 29 || !pteR l.pte || !pteW l.pte || !pteGS l.pte || paSpace pa != 0 || paDev pa != s.dev || pa / 2 ^ 39 % 2 != 0
          || acc.contains v || clash then .inl va
      else State.memberVaults s c root vb segoff seglen (acc ++ [v]) is

/-- GSPACE.bind. -/
def gspaceBindF (h : Hd) (a b : Reg) (s : State) : State :=
  runUni (.gspaceBind h a b) h wholePre [a, b] s fun x =>
    let va := uVal x a
    let fr := uFreed x a || uFreed x b
    s.gCheck x fr 0xBB va none fun s ps desc =>
      let bs := s.uniBytes x.G.geo.core ps
      let d (o n : Nat) : Nat := leAt bs o n
      let die := x.G.geo.core / 256
      match descBad d with
      | some o => s.uniFault x fr 0x06 (va + o) 0xBB
      | none =>
        if 16 ≤ (s.eng.spaces.filter fun p => p.die == die).length || (s.spaceOf desc).isSome then s.uniFault x fr 0x06 va 0xBB
        else
          match s.memberVaults x.G.geo.core (s.rootOf x.G) (d 0 8) (d 8 4) (d 12 4) [] (List.range (d 16 2)) with
          | .inl page => s.uniFault x fr 0x06 page 0xBB
          | .inr ms =>
            let p : Space :=
              { desc := desc, key := uVal x b, rid := ((s.regionOf x.G).map (·.id)).getD 0, die := die, vb := d 0 8, segoff := d 8 4,
                seglen := d 12 4, nv := d 16 2, ps := d 0x12 1, nmax := d 0x14 4, emax := d 0x18 4, mapn := d 0x1C 4,
                pmap := d 0x20 8, spilln := d 0x28 4, members := ms, store := [], closing := false }
            let s1 := (s.homeWriteN (desc + 0x40) (List.replicate 129 0)).raiseWct x.g
              (max (s.wctOf (desc + 0x40) true) (s.wctOf (desc + 0x80) true))
            let s2 := { s1 with eng := { s1.eng with spaces := s1.eng.spaces ++ [p] } }
            match s2.group? x.g with
            | some G => s2.doneP x h (G.stickIf fr freedBit)
            | none => s2
def execGspaceBind (h : Hd) (a b : Reg) (s : State) : Ans := .next (gspaceBindF h a b s)

/-- GSPACE.unbind: held until every accepted broadcast of the space has ended. -/
def gspaceUnbindF (h : Hd) (a b : Reg) (s : State) : State :=
  runUni (.gspaceUnbind h a b) h wholePre [a, b] s fun x =>
    let va := uVal x a
    let fr := uFreed x a || uFreed x b
    s.gCheck x fr 0xBB va none fun s _ desc =>
      s.gNamed x fr 0xBB va desc fun p =>
        if p.key != uVal x b then s.uniFault x fr 0x06 va 0xBB
        else if !(s.bcasts desc).isEmpty then s.heldAtIssue
        else
          let s1 := { s with eng := { s.eng with spaces := s.eng.spaces.filter fun q => q.desc != desc } }
          s1.doneP x h x.G
def execGspaceUnbind (h : Hd) (a b : Reg) (s : State) : Ans := .next (gspaceUnbindF h a b s)

/-! ### Broadcasts at issue -/

def gloadF (h : Hd) (base n : BitVec 7) (a b : Reg) (s : State) : State :=
  runUniLL (.gload h base n a b) h wholePre [a, b] s fun x =>
    let fr := uFreed x a || uFreed x b
    s.gCheck x fr 0xBC (uVal x a) (some (uVal x b, 4)) fun s _ desc =>
      s.gNamed x fr 0xBC (uVal x a) desc fun _ => s.gAccept x h (.gload h base n a b) desc 0 0 (uVal x b)
def execGload (h : Hd) (base n : BitVec 7) (a b : Reg) (s : State) : Ans := .next (gloadF h base n a b s)

/-- Whether GSET and GCLR read b (R307). -/
def gReads : Instr → List Reg
  | .gset _ prog ksel _ _ _ _ a b => if prog || ksel != 0 then [a, b] else [a]
  | .gclr _ fill _ _ _ a b => if fill then [a, b] else [a]
  | _ => []

def gsetF (h : Hd) (prog : Bool) (ksel : BitVec 2) (m : BitVec 3) (tmsk tval : BitVec 8) (pent : BitVec 7) (a b : Reg) (s : State) :
    State :=
  let i : Instr := .gset h prog ksel m tmsk tval pent a b
  runUniLL i h wholePre (gReads i) s fun x =>
    let fr := (gReads i).any (uFreed x)
    s.gCheck x fr 0xBD (uVal x a) none fun s _ desc =>
      s.gNamed x fr 0xBD (uVal x a) desc fun _ => s.gAccept x h i desc 0 (if prog || ksel != 0 then uVal x b else 0) 0
def execGset (h : Hd) (prog : Bool) (ksel : BitVec 2) (m : BitVec 3) (tmsk tval : BitVec 8) (pent : BitVec 7) (a b : Reg)
    (s : State) : Ans := .next (gsetF h prog ksel m tmsk tval pent a b s)

def gclrF (h : Hd) (fill : Bool) (m : BitVec 3) (tmsk tval : BitVec 8) (a b : Reg) (s : State) : State :=
  let i : Instr := .gclr h fill m tmsk tval a b
  runUniLL i h wholePre (gReads i) s fun x =>
    let fr := (gReads i).any (uFreed x)
    s.gCheck x fr 0xC0 (uVal x a) none fun s _ desc =>
      s.gNamed x fr 0xC0 (uVal x a) desc fun _ => s.gAccept x h i desc 0 (if fill then uVal x b else 0) 0
def execGclr (h : Hd) (fill : Bool) (m : BitVec 3) (tmsk tval : BitVec 8) (a b : Reg) (s : State) : Ans :=
  .next (gclrF h fill m tmsk tval a b s)

def gcollF (h : Hd) (clr : Bool) (m : BitVec 3) (cap : BitVec 24) (a b : Reg) (s : State) : State :=
  runUniLL (.gcoll h clr m cap a b) h wholePre [a, b] s fun x =>
    let fr := uFreed x a || uFreed x b
    s.gCheck x fr 0xBF (uVal x a) (some (uVal x b, 64)) fun s _ desc =>
      s.gNamed x fr 0xBF (uVal x a) desc fun _ => s.gAccept x h (.gcoll h clr m cap a b) desc 0 0 (uVal x b)
def execGcoll (h : Hd) (clr : Bool) (m : BitVec 3) (cap : BitVec 24) (a b : Reg) (s : State) : Ans :=
  .next (gcollF h clr m cap a b s)

/-! ### The wave word (R294, R313) -/

def wTmc (w : Nat) : Nat := fld w 63 56
def wPent (w : Nat) : Nat := fld w 55 48
def wTmsk (w : Nat) : Nat := fld w 47 40
def wTval (w : Nat) : Nat := fld w 39 32
def wNe (w : Nat) : Nat := fld w 30 26
def wPf (w : Nat) : Nat := fld w 25 24
def wHops (w : Nat) : Nat := fld w 23 16
def wChanged (w : Nat) : Bool := bit w 15
def wOver (w : Nat) : Bool := bit w 14
def wComb (w : Nat) : Nat := fld w 13 11
def wXform (w : Nat) : Nat := fld w 10 8
def wWave (w : Nat) : Nat := fld w 7 6
def wMd (w : Nat) : Nat := fld w 5 3
def wMs (w : Nat) : Nat := fld w 2 0

/-- R313: the wave words that GPROP refuses. -/
def waveBad (w : Nat) : Bool :=
  decide (0x0D < wTmc w) || decide (95 < wPent w) || bit w 31 || wNe w == 0 || decide ((if 2 ≤ wPf w then 8 else 16) < wNe w)
    || decide (5 < wComb w) || decide (2 < wXform w) || wMs w == wMd w || (wXform w != 0 && wComb w == 0)
    || (wPf w == 3 && (wXform w == 1 || wComb w == 4)) || (wPent w != 0 && wXform w != 2 && wComb w != 5)

def gpropF (h : Hd) (arg : BitVec 24) (a b : Reg) (s : State) : State :=
  runUniLL (.gprop h arg a b) h (Pre.and (opIll h [b] fun x => waveBad (uVal x b)) (Pre.read h wholePre)) [a, b] s fun x =>
    let w := uVal x b
    let fr := uFreed x a || uFreed x b
    s.gCheck x fr 0xBE (uVal x a) none fun s _ desc =>
      s.gNamed x fr 0xBE (uVal x a) desc fun _ => s.gAccept x h (.gprop h arg a b) desc w 0 0
def execGprop (h : Hd) (arg : BitVec 24) (a b : Reg) (s : State) : Ans := .next (gpropF h arg a b s)

/-! ### Order of broadcasts (R303) -/

/-- Slots that a broadcast touches, as a mask. -/
def Bcast.touches (b : Bcast) : Nat :=
  match b.instr with
  | .gprop .. => 2 ^ wMs b.word ||| 2 ^ wMd b.word
  | .gset _ _ _ m _ _ _ _ _ => 2 ^ m.toNat
  | .gclr _ _ m _ _ _ _ => 2 ^ m.toNat
  | .gcoll _ _ m _ _ _ => 2 ^ m.toNat
  | _ => 255
def Bcast.isWave (b : Bcast) : Bool := match b.instr with | .gprop .. => true | _ => false

/-- Whether a broadcast still has to wait for an earlier-accepted one. -/
def State.bcastHeld (s : State) (e : Eng) (b : Bcast) : Bool :=
  (s.bcasts b.space).any fun x => decide (x.1.id < e.id) &&
    (x.2.touches &&& b.touches != 0 || (b.isWave && x.2.isWave && wWave b.word == wWave x.2.word))

def State.setBcast (s : State) (e : Eng) (b : Bcast) : State := s.setEng { e with kind := .bcast b }
/-- An operation has its outcome. -/
def Bcast.ends (b : Bcast) (st cause : Nat) : Bcast := { b with ended := some ((b.ended).getD (st, cause)) }

/-! ### GSET, GCLR, GCOLL (R310–R312) -/

/-- A slot, read as two accesses of 16 bytes: the first half as the first of them found it, the second as it is now (R303). -/
def State.slotVal (s : State) (lo : SMap Nat) (a : Nat) : Nat := (SMap.get? lo a).getD (s.homeRead a 16) + 2 ^ 128 * s.homeRead (a + 16) 16
/-- The first accesses to listed slots of listed nodes. -/
def State.slotLows (s : State) (p : Space) (pls ms : List Nat) : SMap Nat :=
  pls.foldl (fun (r : SMap Nat) pl => ms.foldl (fun r m => SMap.put r (s.slotAddr p pl m) (s.homeRead (s.slotAddr p pl m) 16)) r) []
/-- The slots of a node, or its first 32 bytes, meet an uncorrectable word (R304). -/
def State.nodeBad (s : State) (p : Space) (ms : List Nat) (pl : Nat) : Bool :=
  s.memBad (s.recAddr p pl) 32 || ms.any fun m => s.memBad (s.slotAddr p pl m) 32
/-- A record of some member does. -/
def State.recsBad (s : State) (p : Space) : Bool := (List.range p.nv).any fun i => s.memBad (s.segAddr p i) (64 * p.nmax)

/-- What NLDF and NLDF.rec read of a node. -/
def State.npCtx (s : State) (p : Space) (lo : SMap Nat) (pl kind edge : Nat) : NpCtx :=
  ⟨kind, fun m => s.slotVal lo (s.slotAddr p pl m), s.recNum p pl 0 32, edge⟩

/-- A slot is written as two accesses of 16 bytes (R303): `n` bytes of a value. -/
def slotPuts (pa n v : Nat) : List GWrite :=
  .put pa (min n 16) (v % 2 ^ 128) :: if n ≤ 16 then [] else [.put (pa + 16) (n - 16) (v / 2 ^ 128)]
/-- Sets a node's mark. -/
def State.markSet (s : State) (p : Space) (pl m : Nat) : GWrite := .set (s.recAddr p pl + 7) (2 ^ m)

/-- Other broadcasts of a space that are between the accesses of their reads make both again: a slot that a program names by NLDF is as at
one moment (R319). -/
def State.readAgain (s : State) (e : Eng) : State :=
  match e.kind with
  | .bcast b => { s with eng := { s.eng with ops := s.eng.ops.map fun o =>
      match o.kind with
      | .bcast c => if c.space = b.space ∧ o.id ≠ e.id then { o with kind := .bcast { c with lows := none } } else o
      | _ => o } }
  | _ => s

/-- A write that was still to be made. -/
def State.gDo (s : State) (e : Eng) (w : GWrite) : State :=
  (match w with
  | .put pa n v => s.gWrite e pa n v
  | .set pa bits => s.gWrite e pa 1 (s.homeRead pa 1 ||| bits)
  | .clear pa bits => s.gWrite e pa 1 (s.homeRead pa 1 &&& (255 - bits))).readAgain e

/-- GSET over the nodes, with the first halves of their slots, each of which depends on its own record and slot: the first failing program ends it. -/
def State.gsetNodes (s : State) (p : Space) (b : Bcast) (lo : SMap Nat) (prog : Bool) (ksel m pent : Nat) : List Nat → Bool × List GWrite
  | [] => (true, [])
  | pl :: pls =>
    let rest := State.gsetNodes s p b lo prog ksel m pent pls
    let pass := ksel == 0 || s.recNum p pl (if ksel = 1 then 8 else 16) 8 == b.key
    if !pass then rest
    else if !prog then (rest.1, s.markSet p pl m :: rest.2)
    else
      match npInvoke p.store (s.npCtx p lo pl 2 0) pent b.key 0 0 0 0 with
      | none => (false, [])
      | some r =>
        let w1 := match r.stf with | some v => slotPuts (s.slotAddr p pl m) 32 v | none => []
        let w2 := if r.mat = some true then [s.markSet p pl m] else []
        (rest.1, w1 ++ w2 ++ rest.2)

/-- Valid nodes of a type. -/
def State.typed (s : State) (p : Space) (tmsk tval : Nat) : List Nat :=
  (s.validNodes p).filter fun pl => s.recNum p pl 5 1 &&& tmsk == tval

def State.gsetRun (s : State) (e : Eng) (p : Space) (b : Bcast) (prog : Bool) (ksel m tmsk tval pent : Nat) : State :=
  let ns := s.typed p tmsk tval
  let r := s.gsetNodes p b ((b.lows).getD []) prog ksel m pent ns
  let bad := prog && ns.any (s.nodeBad p (List.range 8))
  (s.gSpoil e p.desc m false).setBcast e
    { (if bad then b.ends 3 0x0E else if r.1 then b.ends 0 0 else b.ends 3 1) with todo := if bad then [] else r.2, lows := none }

def State.gclrRun (s : State) (e : Eng) (p : Space) (b : Bcast) (fill : Bool) (m tmsk tval : Nat) : State :=
  let ws := (s.typed p tmsk tval).flatMap fun pl =>
    GWrite.clear (s.recAddr p pl + 7) (2 ^ m) ::
      if fill then slotPuts (s.slotAddr p pl m) 32 (replicateBits 64 b.key 4) else []
  (s.gSpoil e p.desc m false).setBcast e { b.ends 0 0 with todo := ws }

/-- The buffer of GCOLL: N, E, then the entries (R312). -/
def State.gcollBytes (s : State) (p : Space) (lo : SMap Nat) (m cap : Nat) (ns : List Nat) : List Nat :=
  let es := ns.take cap
  let nat (n v : Nat) : List Nat := (natBytes n v).map BitVec.toNat
  nat 8 ns.length ++ nat 8 es.length ++ es.flatMap fun pl =>
    nat 8 (s.recNum p pl 0 6) ++ nat 8 (s.recNum p pl 8 8) ++ nat 32 (s.slotVal lo (s.slotAddr p pl m))

def State.gcollRun (s : State) (e : Eng) (p : Space) (b : Bcast) (clr : Bool) (m cap : Nat) : State :=
  let ns : SMap Nat := ((s.validNodes p).filter fun pl => s.recMark p pl m).foldl
    (fun (r : SMap Nat) pl => SMap.put r (s.recNum p pl 0 5 * 2 ^ 48 + pl) pl) []
  let bs := s.gcollBytes p ((b.lows).getD []) m cap ns.vals
  let e := { e with proofs := s.pbOf e true b.addr bs.length }
  let b := { b with started := true }
  if bit (s.homeRead (p.desc + 0xC0) 1) m then s.setBcast e (b.ends 3 0)
  else if !s.allPb e b.addr bs.length then s.setBcast (e.failed 6 b.addr) (b.ends 3 6)
  else if (ns.vals.take cap).any (s.nodeBad p [m]) then s.setBcast e (b.ends 3 0x0E)
  else
    match s.engWrite e b.addr bs with
    | .ok s1 => s1.setBcast e { b.ends 0 0 with frontier := if clr then ns.vals.take cap else [] }
    | .flt c a => s.setBcast (e.failed c a) (b.ends 3 c)
    | .wait => s

/-! ### Waves -/

/-- The first accesses to the slots that a broadcast reads as it starts: GSET's programs may read all, GCOLL reads its own. -/
def State.startLows (s : State) (p : Space) (b : Bcast) : SMap Nat :=
  match b.instr with
  | .gset _ true _ _ tmsk tval _ _ _ => s.slotLows p (s.typed p tmsk.toNat tval.toNat) (List.range 8)
  | .gcoll _ _ m _ _ _ => s.slotLows p ((s.validNodes p).filter fun pl => s.recMark p pl m.toNat) [m.toNat]
  | _ => []
def Bcast.readsSlots (b : Bcast) : Bool := match b.instr with | .gset _ true _ _ _ _ _ _ _ => true | .gcoll .. => true | _ => false
def Bcast.readsRecs (b : Bcast) : Bool := match b.instr with | .gload .. => false | _ => true

/-- BROADCAST_START: the operation starts once no earlier one of the space holds it, and the backings that it reads are those of now
(R265). One that reads slots makes the first accesses to them before (R303). -/
def broadcastStartF (e : Nat) (s : State) : State :=
  match s.eng? e with
  | none => s
  | some e =>
    match e.kind with
    | .bcast b =>
      match s.spaceOf b.space with
      | none => s
      | some p =>
        if b.started || s.bcastHeld e b then s
        else if b.readsSlots && b.lows.isNone then s.setBcast e { b with lows := some (s.startLows p b) }
        else
          let reads := match b.instr with
            | .gprop .. => s.pbOf e false p.pmap (4 * p.mapn)
            | .gload _ _ n _ _ => s.pbOf e false b.addr (4 * n.toNat)
            | _ => []
          let e := { e with started := true, srcs := reads }
          let b := { b with started := true }
          if b.readsRecs && s.recsBad p then s.setBcast e (b.ends 3 0x0E) else
          match b.instr with
          | .gprop .. =>
            let w := wWave b.word
            let s1 := s.gDesc e (p.desc + 0x40 + 32 * w) 32 0xFF
            s1.setBcast e { b with frontier := (s.validNodes p).filter fun pl => s.recMark p pl (wMs b.word) }
          | .gset _ prog ksel m tmsk tval pent _ _ => s.gsetRun e p b prog ksel.toNat m.toNat tmsk.toNat tval.toNat pent.toNat
          | .gclr _ fill m tmsk tval _ _ => s.gclrRun e p b fill m.toNat tmsk.toNat tval.toNat
          | .gcoll _ clr m cap _ _ => s.gcollRun e p b clr m.toNat cap.toNat
          | _ => s.setBcast e b
    | _ => s
def execBroadcastStart (e : Nat) (s : State) : Ans := .next (broadcastStartF e s)

/-- Bits of an element of a payload format, its float format, and its exact widening (R294, R296). -/
def pfW (pf : Nat) : Nat := if 2 ≤ pf then 32 else 16
def pfFmt (pf : Nat) : Fmt := match pf with | 0 => fmtH | 1 => fmtBf | _ => fmtS
def pfWiden (pf x : Nat) : Nat := if 2 ≤ pf then x else rne32 (decodeF (pfFmt pf) false x)
/-- The elements below NE of a slot, as patterns of the format for OR and widened otherwise. -/
def waveVals (w slot : Nat) : List Nat :=
  (List.range (wNe w)).map fun i =>
    let x := elem (pfW (wPf w)) slot i
    if wComb w = 0 then x else pfWiden (wPf w) x
/-- Elements in a pair of registers: 0–7 in the first, 8–15 in the second (R319). -/
def pairOf (vs : List Nat) : Nat × Nat :=
  (elems 32 (fun i => (vs[i]?).getD 0) 8, elems 32 (fun i => (vs[8 + i]?).getD 0) 8)
def ofPair (ne q0 q1 : Nat) : List Nat := (List.range ne).map fun i => if i < 8 then elem 32 q0 i else elem 32 q1 (i - 8)

/-- Slot that hop h sends from (R295). -/
def Bcast.fromSlot (b : Bcast) : Nat := if b.hop ≤ 1 then wMs b.word else wMd b.word
def Bcast.arg (b : Bcast) : Nat := match b.instr with | .gprop _ arg _ _ => arg.toNat | _ => 0

/-- The message of one edge: none where it is not used or not sent, `some none` where its program fails (R296, R319). -/
def State.edgeMsg (s : State) (p : Space) (b : Bcast) (lo : SMap Nat) (pl n : Nat) : Option (Option Msg) :=
  let w := b.word
  let e := s.homeRead (s.edgeAddr p pl (s.recNum p pl 0x18 4 + n)) 8
  let et := fld e 47 40
  let wt := rne32 (decodeF fmtH false (fld e 63 48))
  let src := s.recNum p pl 0 5
  let dst := fld e 39 0
  let v := waveVals w (s.slotVal lo (s.slotAddr p pl b.fromSlot))
  if et &&& wTmsk w != wTval w then none
  else
    match wXform w with
    | 0 => some (some ⟨src, n, dst, v⟩)
    | 1 => some (some ⟨src, n, dst, v.map fun x => fMul fmtS .rne false x wt⟩)
    | _ =>
      let edge := elems 32 (fun i => match i with
        | 0 => wt | 1 => et | 2 => dst % 2 ^ 32 | 3 => dst / 2 ^ 32 | 4 => n | 5 => b.hop | _ => 0) 8
      let q := pairOf v
      match npInvoke p.store (s.npCtx p lo pl 0 edge) (wPent w) q.1 q.2 0 0 (b.arg + 2 ^ 32 * b.hop) with
      | none => some none
      | some r => r.emit.map fun o => some ⟨src, n, dst, ofPair (wNe w) o.1 o.2⟩

/-- The slots that a hop's messages read: the one they carry, and with a program any. -/
def Bcast.sendSlots (b : Bcast) : List Nat := if wXform b.word = 2 then List.range 8 else [b.fromSlot]
/-- The messages of the frontier's nodes, in order, read with the first halves of their slots: none where a node's edges are malformed, a
word is uncorrectable or a program fails, with the cause (R304). -/
def State.sendAll (s : State) (p : Space) (b : Bcast) (lo : SMap Nat) : List Nat → List (Nat × List Msg) ⊕ Nat
  | [] => .inl []
  | pl :: pls =>
    let n := s.recNum p pl 0x1C 4
    let g := s.recNum p pl 0x18 4
    if p.emax < g + n then .inr 0x04
    else if s.nodeBad p b.sendSlots pl || s.memBad (s.edgeAddr p pl g) (8 * n) then .inr 0x0E
    else
      let ms := (List.range n).filterMap (s.edgeMsg p b lo pl)
      if ms.contains none then .inr 0x01
      else match State.sendAll s p b lo pls with
        | .inl r => .inl ((pl, ms.filterMap id) :: r)
        | .inr c => .inr c

/-- The bank units of a space, as vault × 16 + unit, and the unit of a place. -/
def Space.units (p : Space) : List Nat := p.members.flatMap fun v => (List.range 16).map fun u => v * 16 + u
def Space.unitOf (p : Space) (pl : Nat) : Nat := (p.members[pl / 2 ^ 32]?).getD 0 * 16 + pl % 2 ^ 32 % 16
/-- A command to a unit enters its catch-up queue: its bank is under refresh, or earlier commands are queued (R301). -/
def State.queues (s : State) (u : Nat) : Bool := s.eng.refresh.contains u || !(SMap.getD s.eng.catchup u []).isEmpty
/-- Queued commands other than messages: the start and the end of a hop. -/
def cmdStart : Nat := 2 ^ 40
def cmdEnd : Nat := 2 ^ 41
/-- Puts a command into the queue of every unit of a list that has not got it and has room: the vault controller holds it back from the
others. -/
def State.queueCmd (s : State) (us : List Nat) (e cmd : Nat) : State :=
  let put (m : SMap (List (Nat × Nat))) (u : Nat) : SMap (List (Nat × Nat)) :=
    let q := SMap.getD m u []
    if q.contains (e, cmd) || decide (64 ≤ q.length) then m else SMap.put m u (q ++ [(e, cmd)])
  { s with eng := { s.eng with catchup := us.foldl put s.eng.catchup } }

/-- The messages of nodes whose units take the start of a hop now. -/
def Bcast.sends (b : Bcast) (p : Bcast → Nat × List Msg → Bool) : Bcast :=
  { b with sending := b.sending ++ (b.unsent.filter (p b)).flatMap (·.2), unsent := b.unsent.filter fun x => !p b x }

/-- HOP_START: first the slots of the frontier are read, by two accesses each (R303): the messages are those of the slots as they are
then (R295, R319). Every unit then sends those of its nodes, a lagging one when its queue comes to the command; a unit whose queue is
full takes the command later (R301). -/
def hopStartF (e : Nat) (s : State) : State :=
  match s.eng? e with
  | none => s
  | some e =>
    match e.kind with
    | .bcast b =>
      match s.spaceOf b.space with
      | none => s
      | some p =>
        let runs (_ : Bcast) (x : Nat × List Msg) : Bool := !s.queues (p.unitOf x.1)
        if !b.isWave || !b.started || b.ended.isSome || !b.todo.isEmpty then s
        else if b.inHop then
          if b.unsent.isEmpty then s
          else (s.queueCmd ((b.unsent.map fun x => p.unitOf x.1).filter s.queues) e.id cmdStart).setBcast e (b.sends runs)
        else
          let b' := { b with hop := b.hop + 1, inHop := true, sending := [], got := [], lost := [], spilled := [], lows := none }
          match b.lows with
          | none => s.setBcast e { b with lows := some (s.slotLows p b.frontier b'.sendSlots) }
          | some lo =>
            match s.sendAll p b' lo b.frontier with
            | .inl ms => (s.queueCmd (p.units.filter s.queues) e.id cmdStart).setBcast e ({ b' with unsent := ms }.sends runs)
            | .inr c => s.setBcast e (b'.ends 3 c)
    | _ => s
def execHopStart (e : Nat) (s : State) : Ans := .next (hopStartF e s)

/-- A lagging unit comes to the end of a hop: it has its nodes to fold. -/
def State.endLate (s : State) (e u : Nat) : State :=
  match s.eng? e with
  | none => s
  | some e =>
    match e.kind with
    | .bcast b =>
      match b.fin with
      | some f =>
        if f.units.contains u then s.setBcast e { b with fin := some { f with units := f.units.filter (· != u), due := f.due ++ [u] } } else s
      | none => s
    | _ => s

/-- A lagging unit comes to the start of a hop: its frontier nodes send. -/
def State.sendLate (s : State) (e u : Nat) : State :=
  match s.eng? e with
  | none => s
  | some e =>
    match e.kind with
    | .bcast b =>
      match s.spaceOf b.space with
      | none => s
      | some p => s.setBcast e (b.sends fun _ x => p.unitOf x.1 == u)
    | _ => s

/-- The place that an id names (R293): none where the map has none. -/
def State.locate (s : State) (e : Eng) (p : Space) (x : Nat) : Er (Option Nat) :=
  let i := x / 2 ^ p.ps
  if p.mapn ≤ i then .ok none
  else
    match s.engRead e (p.pmap + 4 * i) 4 with
    | .flt c a => .flt c a
    | .wait => .wait
    | .ok bs =>
      let m := leAt bs 0 4
      let mv := m % 2 ^ 10
      let r := m / 2 ^ 10 * 2 ^ p.ps + x % 2 ^ p.ps
      if m = 0xFFFFFFFF then .ok none
      else if p.nv ≤ mv ∨ p.nmax ≤ r then .flt 0x04 (p.pmap + 4 * i)
      else .ok (some (place mv r))
/-- The record at a place is the valid record of node x. -/
def State.nodeIs (s : State) (p : Space) (pl x : Nat) : Bool := s.recValid p pl && s.recNum p pl 0 5 == x

/-- Messages of a wave that the buffer of a unit holds: taken, and not in a spill record. -/
def Bcast.buffered (b : Bcast) (p : Space) (u : Nat) : Nat :=
  (b.got.filter fun m => !b.lost.contains m && (SMap.get? b.spilled m).isNone &&
    (b.sending[m]?).any fun g => p.unitOf g.dst == u).length
/-- Messages of every wave that the buffer of a unit holds (R300). -/
def State.buffered (s : State) (u : Nat) : Nat :=
  s.eng.ops.foldl (fun n e => match e.kind with
    | .bcast b => if b.inHop then n + ((s.spaceOf b.space).map fun p => b.buffered p u).getD 0 else n
    | _ => n) 0
/-- Spill records in use in member i of a space (R300). -/
def State.spills (s : State) (desc i : Nat) : List Nat :=
  ((s.bcasts desc).filter fun x => x.2.inHop).flatMap fun x =>
    x.2.spilled.filterMap fun y => if ((x.2.sending[y.1]?).any fun g => g.dst / 2 ^ 32 == i) then some y.2 else none

/-- A bank unit takes message m, whose node is at a place: the buffer, a spill record (whose bytes the spec leaves open), or
overflow. -/
def State.msgTake (s : State) (e : Eng) (b : Bcast) (p : Space) (m pl : Nat) : State :=
  let taken : Bcast :=
    { b with
      got := b.got ++ [m], msgs := b.msgs + 1
      sending := b.sending.zipIdx.map fun (x : Msg × Nat) => if x.2 = m then { x.1 with dst := pl } else x.1 }
  if s.buffered (p.unitOf pl) < 256 then s.setBcast e taken
  else
    let i := pl / 2 ^ 32
    let used := s.spills b.space i
    let k := ((List.range (used.length + 1)).find? fun k => !used.contains k).getD 0
    if k < p.spilln then
      let q := s.open_
      (q.2.gWrite e (q.2.segAddr p i + spillOff p.nmax p.emax + 64 * k) 64 (q.1 % 2 ^ 512)).setBcast e
        { taken with spilled := SMap.put b.spilled m k }
    else s.setBcast e (b.ends 2 0)

/-- A message reaches its bank unit. -/
def State.msgArrive (s : State) (e m : Nat) (queued : Bool) : State :=
  match s.eng? e with
  | none => s
  | some e =>
    match e.kind with
    | .bcast b =>
      match s.spaceOf b.space, b.sending[m]? with
      | some p, some g =>
        if !b.inHop || b.ended.isSome || b.got.contains m then s
        else
          let drop := s.setBcast e { b with got := b.got ++ [m], lost := b.lost ++ [m], msgs := b.msgs + 1, drops := b.drops + 1 }
          match s.locate e p g.dst with
          | .wait => s
          | .flt c a => s.setBcast (e.failed c a) (b.ends 3 c)
          | .ok none => drop
          | .ok (some pl) =>
            if !queued && s.queues (p.unitOf pl) then s.queueCmd [p.unitOf pl] e.id m
            else if s.memBad (s.recAddr p pl) 32 then s.setBcast e (b.ends 3 0x0E)
            else if s.nodeIs p pl g.dst then s.msgTake e b p m pl
            else drop
      | _, _ => s
    | _ => s

/-- MESSAGE_RECEIVE: into the buffer or spill area, the catch-up queue, or dropped (R293, R300, R301). -/
def messageReceiveF (e m : Nat) (s : State) : State := s.msgArrive e m false
def execMessageReceive (e m : Nat) (s : State) : Ans := .next (messageReceiveF e m s)

/-- REFRESH_START: the unit's bank is refreshed, and commands to it queue. -/
def refreshStartF (v u : Nat) (s : State) : State :=
  if 16 ≤ u ∨ 1024 ≤ v ∨ s.eng.refresh.contains (v * 16 + u) then s
  else { s with eng := { s.eng with refresh := s.eng.refresh ++ [v * 16 + u] } }
def execRefreshStart (v u : Nat) (s : State) : Ans := .next (refreshStartF v u s)

/-- REFRESH_END: the unit replays its queue in arrival order. -/
def refreshEndF (v u : Nat) (s : State) : State :=
  let k := v * 16 + u
  let q := SMap.getD s.eng.catchup k []
  let s1 := { s with eng := { s.eng with
    refresh := s.eng.refresh.filter fun x => x != k
    catchup := SMap.del s.eng.catchup k } }
  if s.eng.refresh.contains k then
    q.foldl (fun (s : State) x =>
      if x.2 = cmdStart then s.sendLate x.1 k else if x.2 = cmdEnd then s.endLate x.1 k else s.msgArrive x.1 x.2 true) s1
  else s
def execRefreshEnd (v u : Nat) (s : State) : Ans := .next (refreshEndF v u s)

/-! ### The fold at hop end (R297, R298) -/

/-- What a node's fold gives: the elements below NE, DOMF, SAT. -/
structure Folded where
  vals : List Nat
  domf : Bool
  sat  : Bool
  deriving DecidableEq, Repr

/-- Rounds an element to the payload format, and says whether it saturated. -/
def pfRound (pf x : Nat) : Nat × Bool :=
  if 2 ≤ pf then (if pf = 2 && (decodeF fmtS false x).isNan then fmtS.nanBits else x, false)
  else
    let v := decodeF fmtS false x
    let f := pfFmt pf
    (encodeConv f .rne false false v, !v.isNan && encodeArith f .rne false v % f.signBit == f.infBits)

/-- One element of a fold but TMEAN and PROG. -/
def combFn (comb pf x y : Nat) : Nat :=
  match comb with
  | 0 => x ||| y
  | 1 => if pf = 3 then (x + y) % 2 ^ 32 else fAdd fmtS .rne false x y
  | 2 => if pf = 3 then sMax 32 x y else fMinMax fmtS true false x y
  | _ => if pf = 3 then sMin 32 x y else fMinMax fmtS false false x y

/-- TMEAN of one element's terms: EXIT, and whether a domain fault arose. -/
def tmeanOf (code : Nat) (ts : List Nat) : Nat × Bool :=
  let r := ts.foldl (fun (r : TX × Bool) t => let q := tmAcc code (Tab.builtin code) r.1 t; (q.1, r.2 || q.2)) (⟨0, 0, 0⟩, false)
  (tmExit code (Tab.builtin code) r.1, r.2)

/-- The fold of a node's messages in order; none where a program fails. A program finds the elements at and above NE zero at every
run (R319). -/
def State.foldNode (s : State) (p : Space) (b : Bcast) (lo : SMap Nat) (pl : Nat) (ms : List Msg) : Option Folded :=
  let w := b.word
  let cur := waveVals w (s.slotVal lo (s.slotAddr p pl (wMd w)))
  let terms : List (List Nat) := if wOver w then ms.map (·.vals) else cur :: ms.map (·.vals)
  let elemsOf (i : Nat) : List Nat := terms.map fun t => (t[i]?).getD 0
  let fin (vs : List (Nat × Bool)) : Folded :=
    let rs := vs.map fun v => if wComb w = 0 then (v.1, false) else pfRound (wPf w) v.1
    ⟨rs.map (·.1), vs.any (·.2), rs.any (·.2)⟩
  match wComb w with
  | 4 => some (fin ((List.range (wNe w)).map fun i => tmeanOf (wTmc w) (elemsOf i)))
  | 5 =>
    let start : List Nat := if wOver w then ((ms[0]?).map (·.vals)).getD [] else cur
    let rest := if wOver w then ms.drop 1 else ms
    let r := rest.foldl (fun (acc : Option (Nat × Nat)) (m : Msg) =>
      match acc with
      | none => none
      | some q =>
        let v := pairOf m.vals
        let edge := elems 32 (fun i => match i with
          | 0 => m.src % 2 ^ 32 | 1 => m.src / 2 ^ 32 | 2 => m.edge | 3 => b.hop | _ => 0) 8
        (npInvoke p.store (s.npCtx p lo pl 1 edge) (wPent w) q.1 q.2 v.1 v.2 (b.arg + 2 ^ 32 * b.hop)).map fun r =>
          pairOf (ofPair (wNe w) (r.get 0) (r.get 1))) (some (pairOf start))
    r.map fun q => fin ((ofPair (wNe w) q.1 q.2).map fun v => (v, false))
  | c => some (fin ((List.range (wNe w)).map fun i =>
      match elemsOf i with
      | [] => (0, false)
      | t :: ts => (ts.foldl (combFn c (wPf w)) t, false)))

/-- The messages of a hop by node, each in (source, edge) order. -/
def Bcast.byNode (b : Bcast) : SMap (SMap Msg) :=
  b.got.foldl (fun (r : SMap (SMap Msg)) m =>
    if b.lost.contains m then r
    else match b.sending[m]? with
      | some g => SMap.put r g.dst (SMap.put (SMap.getD r g.dst []) ((g.src * 2 ^ 32 + g.edge) * 2 ^ 40 + m) g)
      | none => r) []

/-- The bits of a slot that a wave's elements below NE take. -/
def waveBits (w : Nat) : Nat := wNe w * pfW (wPf w)
/-- What the fold of a node gives. -/
def State.nodeFold (s : State) (p : Space) (b : Bcast) (lo : SMap Nat) (x : Nat × SMap Msg) : Option NodeFold :=
  let w := b.word
  (s.foldNode p b lo x.1 x.2.vals).map fun f =>
    { place := x.1, pat := elems (pfW (wPf w)) (fun i => (f.vals[i]?).getD 0) (wNe w),
      old := s.slotVal lo (s.slotAddr p x.1 (wMd w)) % 2 ^ waveBits w, domf := f.domf, sat := f.sat }
/-- The nodes of a unit that have received messages, with these. -/
def Bcast.unitNodes (b : Bcast) (p : Space) (u : Nat) : List (Nat × SMap Msg) := b.byNode.filter fun x => p.unitOf x.1 == u
/-- The slots that the folds of a hop read: the destination, and with a program any. -/
def Bcast.foldSlots (b : Bcast) : List Nat := if wComb b.word = 5 then List.range 8 else [wMd b.word]

/-- The end of a hop goes to units: those that run and have nodes to fold have it now, the others' queues take it, or it is held back. -/
def State.hopEndCast (s : State) (e : Eng) (b : Bcast) (p : Space) (units : List Nat) (folds : List NodeFold) : State :=
  let due := units.filter fun u => !s.queues u && !(b.unitNodes p u).isEmpty
  let lag := units.filter s.queues
  (s.queueCmd lag e.id cmdEnd).setBcast e { b with fin := some ⟨lag, due, folds⟩ }

/-- A unit folds: it reads its nodes' slots by two accesses (R303), and forms the folds. -/
def State.foldUnit (s : State) (e : Eng) (b : Bcast) (p : Space) (f : HopFin) (u : Nat) (us : List Nat) : State :=
  let ns := b.unitNodes p u
  match b.lows with
  | none => s.setBcast e { b with lows := some (s.slotLows p (ns.map (·.1)) b.foldSlots) }
  | some lo =>
    let spilt := b.spilled.any fun x => (ns.any fun y => ((b.sending[x.1]?).map (·.dst)) == some y.1) &&
      s.memBad (s.segAddr p ((((b.sending[x.1]?).map (·.dst)).getD 0) / 2 ^ 32) + spillOff p.nmax p.emax + 64 * x.2) 64
    if spilt || (ns.any fun x => s.nodeBad p b.foldSlots x.1) then s.setBcast e { b.ends 3 0x0E with lows := none }
    else
      match ns.mapM (s.nodeFold p b lo) with
      | none => s.setBcast e { b.ends 3 1 with lows := none }
      | some fs => s.setBcast e { b with lows := none, fin := some { f with due := us, folds := f.folds ++ fs } }

/-- Every unit has folded: the writes to make, the next frontier, and whether the wave has its outcome (R297, R298). -/
def State.hopApply (s : State) (e : Eng) (b : Bcast) (p : Space) (fs : List NodeFold) : State :=
  let w := b.word
  let next := (fs.filter fun x => !wChanged w || x.old != x.pat).map (·.place)
  let ws := fs.flatMap fun x => slotPuts (s.slotAddr p x.place (wMd w)) (waveBits w / 8) x.pat ++ [s.markSet p x.place (wMd w)]
  let b1 : Bcast :=
    { b with
      inHop := false, sending := [], got := [], lost := [], spilled := [], todo := ws, frontier := next, fin := none
      domf := b.domf || fs.any (·.domf), sat := b.sat || fs.any (·.sat) }
  s.setBcast e (
    if next.isEmpty then b1.ends 1 0
    else if b.hop = wHops w ∨ (wHops w = 0 ∧ b.hop = 65535) then b1.ends 0 0 else b1)

/-- HOP_END: once every message is received the end of the hop goes to every unit; each folds when it has come to it (R301), and with the
last fold the hop is applied. Its writes follow, one access at a time (R303). -/
def hopEndF (e : Nat) (s : State) : State :=
  match s.eng? e with
  | none => s
  | some e =>
    match e.kind with
    | .bcast b =>
      match s.spaceOf b.space with
      | none => s
      | some p =>
        match b.todo with
        | w :: ws => if b.isWave then (s.gDo e w).setBcast e { b with todo := ws } else s
        | [] =>
        if !b.inHop || b.ended.isSome || !b.unsent.isEmpty || b.got.length != b.sending.length then s
        else
          match b.fin with
          | none => s.hopEndCast e b p p.units []
          | some f =>
            match f.due, f.units with
            | u :: us, _ => s.foldUnit e b p f u us
            | [], [] => s.hopApply e b p f.folds
            | [], us => s.hopEndCast e b p us f.folds
    | _ => s
def execHopEnd (e : Nat) (s : State) : Ans := .next (hopEndF e s)

/-! ### The end of a broadcast (R302, R304–R306, R323) -/

/-- A wave's status record. -/
def Bcast.status (b : Bcast) (st cause tick : Nat) : Nat :=
  st + cause * 2 ^ 8 + b.domf.toNat * 2 ^ 16 + b.sat.toNat * 2 ^ 17 + b.hop % 2 ^ 32 * 2 ^ 32 + b.msgs % 2 ^ 64 * 2 ^ 64
    + b.drops % 2 ^ 64 * 2 ^ 128 + tick % 2 ^ 64 * 2 ^ 192

/-- Zero in a wave's state word of every record (R323). -/
def State.clearWave (s : State) (e : Eng) (p : Space) (w : Nat) : State :=
  (List.range p.nv).foldl (fun s i => (List.range p.nmax).foldl (fun (s : State) r =>
    s.gWrite e (s.recAddr p (place i r) + 0x20 + 8 * w) 8 0) s) s

/-- A broadcast ends with its outcome, in whatever state it is. A hop that has ended stays applied (R304). A wave that overflowed writes an
ENGINE record too (log 140), and the record of one whose edges or program failed has FAULTADDR 0 (log 141). -/
def State.bcastFin (s : State) (e : Eng) (b : Bcast) (p : Space) (st cause : Nat) : State :=
  let fail := decide (2 ≤ st)
  let s1 :=
    match b.instr with
    | .gprop .. =>
      let w := wWave b.word
      let s := (b.todo.foldl (fun (s : State) w => s.gDo e w) s).clearWave e p w
      let s := if fail then s.gSpoil e p.desc (wMd b.word) true else s
      s.gDesc e (p.desc + 0x40 + 32 * w) 32 (b.status st (if st = 3 then cause else 0) s.tick)
    | .gset _ _ _ m _ _ _ _ _ => if fail then s.gSpoil e p.desc m.toNat true else s
    | .gclr _ _ m _ _ _ _ => if fail then s.gSpoil e p.desc m.toNat true else s
    | .gcoll _ _ m cap _ _ =>
      if fail then s.spoilAll (if b.started then e.proofs else s.pbOf e true b.addr (16 + 48 * cap.toNat))
      else b.frontier.foldl (fun (s : State) pl => s.gMark e p pl m.toNat false) s
    | _ => s
  let s2 := if fail then s1.engineRec e 3 st cause ((e.fail.map (·.2)).getD 0) else s1
  let s3 := (s2.endEng e).sweepSpaces
  { s3 with eng := { s3.eng with catchup := s3.eng.catchup.map fun (x : Nat × List (Nat × Nat)) => (x.1, x.2.filter fun y => y.1 != e.id) } }

/-- BROADCAST_END, after the writes of GSET and GCLR. GLOAD reads and checks its words here, and the store changes in one step (R309). -/
def broadcastEndF (e : Nat) (s : State) : State :=
  match s.eng? e with
  | none => s
  | some e =>
    match e.kind with
    | .bcast b =>
      match s.spaceOf b.space with
      | none => s
      | some p =>
        if !b.started then s
        else match b.todo with
        | w :: ws => if b.isWave then s else (s.gDo e w).setBcast e { b with todo := ws }
        | [] =>
          match b.ended with
          | some (st, c) => s.bcastFin e b p st c
          | none =>
            match b.instr with
            | .gload _ base n _ _ =>
              match s.engRead e b.addr (4 * n.toNat) with
              | .wait => s
              | .flt c a => s.bcastFin (e.failed c a) b p 3 c
              | .ok bs =>
                let ws := (List.range n.toNat).map fun i => leAt bs (4 * i) 4
                if npScan 0 ws then
                  (s.setSpace { p with store := ws.zipIdx.foldl (fun (m : SMap Nat) x => SMap.put m (base.toNat + x.2) x.1) p.store }).bcastFin e b p 0 0
                else s.bcastFin e b p 3 1
            | _ => s
    | _ => s
def execBroadcastEnd (e : Nat) (s : State) : Ans := .next (broadcastEndF e s)

/-- R350: the end of the issuing region aborts a broadcast. -/
def State.bcastAbort (s : State) (e : Eng) (b : Bcast) : State :=
  match s.spaceOf b.space with
  | none => s.endEng e
  | some p => s.bcastFin e b p 4 0

end Sys2Proof.Machine
end

