-- ==== Sys2Proof/Machine/Matrix.lean ====
section
/-! DEFINITION. The matrix engine (R101–R103, R269–R288): reservation records, the reservation table of a cluster, passes,
loads and stores of records. -/

namespace Sys2Proof.Machine

/-! ### Records (R269–R272) -/

def OdRec.role (r : OdRec) : Nat := r.w0 / 2 ^ 62
def OdRec.fmt (r : OdRec) : Nat := r.w0 / 2 ^ 59 % 8
def OdRec.sc (r : OdRec) : Bool := bit r.w1 31
def OdRec.soff (r : OdRec) : Nat := r.w1 / 2 ^ 16 % 2 ^ 15
def OdRec.nf (r : OdRec) : Nat := r.w1 % 2 ^ 8
def Group.od (G : Group) (k : Nat) : Option OdRec := (G.ods[k]?).bind id
def Group.setOd (G : Group) (k : Nat) (r : Option OdRec) : Group := { G with ods := setAt G.ods k r }

/-- Data lines of a record of a group of width w (R272). -/
def OdRec.dLines (r : OdRec) (w : Nat) : Nat :=
  match r.role with | 0 => r.nf * w | 1 => r.nf * 128 | _ => 4 * w
/-- Scale lines (R272). -/
def OdRec.sLines (r : OdRec) (w : Nat) : Nat :=
  if !r.sc then 0 else match r.role with | 0 => (r.nf * w + 31) / 32 | 1 => (r.nf + 31) / 32 | _ => 0

/-- The ILLEGAL conditions of R279, in the words and against the core's number. -/
def odIllegal (r : OdRec) (w core : Nat) : Bool :=
  r.w0 % 2 ^ 30 != 0 || r.w1 / 2 ^ 32 != 0 || r.w1 / 2 ^ 8 % 2 ^ 8 != 0 || r.role == 3 || decide (6 ≤ r.fmt) || r.len == 0 ||
    decide (16384 < r.off + r.len) || r.nf == 0 || ((r.role == 2) != (r.fmt == 4 || r.fmt == 5)) ||
    (r.role == 2 && (r.nf != 1 || r.sc)) || (r.sc && r.fmt != 0) ||
    (if r.sc then decide (r.soff < r.dLines w) || decide (r.len < r.soff + r.sLines w) else decide (r.len < r.dLines w)) ||
    (r.rv && (r.role == 2 || r.rc == core % 4))

/-- The refusals of R280. -/
def odRefused (s : State) (G : Group) (r : OdRec) : Bool :=
  let k := s.core G.geo.core
  let held := (s.mxHolders G.geo.core).flatMap fun g => g.localOds.map fun x => (g.geo.bid, x)
  let allow := ((s.regionOf G).map (·.rcb.mxlines)).getD 0
  decide (r.off < k.qAt 2 * 256) ||
    (held.any fun e => meets e.2.off e.2.len r.off r.len) ||
    ((List.range 64).any fun i => k.moving i && decide (i * 256 < r.off + r.len) && decide (r.off < (i + 1) * 256)) ||
    decide (allow < (held.filter fun e => e.1 == G.geo.bid).foldl (fun n e => n + e.2.len) 0 + r.len)

/-- MX lines that are dropped: they read zero, and their words lose their poison marks (R185, R279). -/
def Core.mxZero (k : Core) (off len : Nat) : Core :=
  { k with
    mx := k.mx.filter fun e => !(decide (off ≤ e.1) && decide (e.1 < off + len))
    poison := k.poison.filter fun e => !(decide (2 ^ 50 + off * 16 ≤ e.1) && decide (e.1 < 2 ^ 50 + (off + len) * 16)) }

/-- MXRES (R279, R280). -/
def mxresF (h : Hd) (od : BitVec 3) (rv : Bool) (rc : BitVec 2) (pk : Prd) (a b : Reg) (s : State) : State :=
  let rec_ (x : Cur) : OdRec := ⟨uVal x a, uVal x b, rv, rc.toNat, false⟩
  let ill (x : Cur) : Bool := odIllegal (rec_ x) x.G.geo.w x.G.geo.core || (x.G.od od.toNat).isSome
  runUni (.mxres h od rv rc pk a b) h (Pre.and (opIll h [a, b] ill) (Pre.read h wholePre)) [a, b] s fun x =>
    let r := rec_ x
    if !rv && odRefused s x.G r then s.doneP x h (x.G.uPutPred x.K pk false)
    else
      let s1 := if rv then s else s.onCore x.G.geo.core fun k => k.mxZero r.off r.len
      s1.doneP x h ((x.G.setOd od.toNat (some r)).uPutPred x.K pk true)
def execMxres (h : Hd) (od : BitVec 3) (rv : Bool) (rc : BitVec 2) (pk : Prd) (a b : Reg) (s : State) : Ans :=
  .next (mxresF h od rv rc pk a b s)

/-! ### The reservation table (R274–R276) -/

/-- The descriptors that a matrix instruction names. -/
def odNames : Instr → List Nat
  | .mxld _ od _ _ => [od.toNat]
  | .mxst _ od _ _ _ _ _ _ => [od.toNat]
  | .mma _ _ oc oa ob _ _ _ _ _ _ => [oc.toNat, oa.toNat, ob.toNat]
  | _ => []

/-- The table entries of a cluster, in posting order. -/
def State.mxTable (s : State) (cl : Nat) : List (Eng × MxJob) :=
  s.eng.ops.filterMap fun e => match e.kind with | .mx j => if e.core / 4 = cl then some (e, j) else none | _ => none

/-- A matrix operation of the group that names a descriptor is outstanding (R281). -/
def State.mxNamed (s : State) (g k : Nat) : Bool :=
  s.eng.ops.any fun e => match e.kind with | .mx j => e.gid == g && (odNames j.instr).contains k | _ => false

/-- Whether an operation passes data through the port: MXLD and MXST. -/
def mxPort : Instr → Bool
  | .mma .. => false
  | _ => true

/-- R276: no earlier operation of the group names a common local record. -/
def State.mxEligible (s : State) (e : Eng) (j : MxJob) : Bool :=
  match s.group? e.gid with
  | none => true
  | some G =>
    let names := (odNames j.instr).filter fun k => ((G.od k).map fun r => !r.rv).getD false
    !(s.eng.ops.any fun o => decide (o.id < e.id) && o.gid == e.gid &&
        (match o.kind with | .mx i => names.any (odNames i.instr).contains | _ => false))

/-- The current level of an entry (R275). -/
def mxLevel (s : State) (j : MxJob) : Nat :=
  match j.since with
  | some t => min 7 (j.level + (s.tick - t) / 4096)
  | none => j.level

/-- Entries whose waiting while eligible begins now. -/
def State.mxAge (s : State) : State :=
  { s with eng := { s.eng with ops := s.eng.ops.map fun e =>
      match e.kind with
      | .mx j => if j.since.isNone && !j.granted && s.mxEligible e j then { e with kind := .mx { j with since := some s.tick } } else e
      | _ => e } }

/-- Posts an operation into the table, or waits while it is full (R274). -/
def State.mxPost (s : State) (x : Cur) (h : Hd) (i : Instr) (addr sel : Nat) (proofs : Eng → List Proof) : State :=
  if 16 ≤ (s.mxTable (x.G.geo.core / 4)).length then s.heldAtIssue
  else
    let j : MxJob := ⟨i, addr, sel, ((s.regionOf x.G).map (·.rcb.prio)).getD 0, none, false⟩
    let e := s.mkEng x (.mx j) i.opc true
    (s.startEng x h { e with proofs := proofs e }).mxAge

/-- Rows selected at issue: the gang's active lanes, with a row predicate those where it holds. -/
def mxSel (x : Cur) (pe : Bool) (pk : Prd) : Nat :=
  if pe then maskOf ((bitsOf x.K.mask 64).filter fun l => (x.G.lane l).pred pk) else x.K.mask

/-- MXFREE (R281). -/
def mxfreeF (h : Hd) (od : BitVec 3) (s : State) : State :=
  runUni (.mxfree h od) h wholePre [] s fun x =>
    if s.mxNamed x.g od.toNat then s.heldAtIssue
    else
      match x.G.od od.toNat with
      | none => s.doneP x h x.G
      | some r =>
        let s1 := if r.rv then s else s.onCore x.G.geo.core fun k => k.mxZero r.off r.len
        s1.doneP x h (x.G.setOd od.toNat none)
def execMxfree (h : Hd) (od : BitVec 3) (s : State) : Ans := .next (mxfreeF h od s)

/-- A pool move involves a line of a local record (R193, R288). -/
def State.odMoving (s : State) (c : Nat) (r : OdRec) : Bool :=
  !r.rv && (List.range 64).any fun i => (s.core c).moving i && decide (i * 256 < r.off + r.len) && decide (r.off < (i + 1) * 256)

/-- MXZERO (R282). -/
def mxzeroF (h : Hd) (od : BitVec 3) (s : State) : State :=
  runUni (.mxzero h od) h
    (Pre.and (opIll h [] fun x => ((x.G.od od.toNat).map (·.rv)).getD false) wholePre) [] s fun x =>
    if s.mxNamed x.g od.toNat then s.heldAtIssue
    else
      match x.G.od od.toNat with
      | none => s.doneP x h x.G
      | some r =>
        if s.odMoving x.G.geo.core r then s.heldAtIssue
        else (s.onCore x.G.geo.core fun k => k.mxZero r.off r.len).doneP x h (x.G.setOd od.toNat (some { r with spoiled := false }))
def execMxzero (h : Hd) (od : BitVec 3) (s : State) : Ans := .next (mxzeroF h od s)

/-- MXLD (R283): the address has to be a multiple of 128. -/
def mxldF (h : Hd) (od : BitVec 3) (hint : BitVec 2) (a : Reg) (s : State) : State :=
  runUniLL (.mxld h od hint a) h
    (Pre.and (opIll h [] fun x => match x.G.od od.toNat with | none => true | some r => r.rv) wholePre) [a] s fun x =>
    let t := uVal x a
    if t % 128 != 0 then s.uniFault x (uFreed x a) 0x03 t 0xB2
    else s.mxPost x h (.mxld h od hint a) t 0 fun _ => []
def execMxld (h : Hd) (od : BitVec 3) (hint : BitVec 2) (a : Reg) (s : State) : Ans := .next (mxldF h od hint a s)

/-- Bytes of an element that MXST stores. -/
def mxstSize (fmt : BitVec 2) : Nat := if fmt = 0 then 4 else 2

/-- MXST (R284). -/
def mxstF (h : Hd) (od : BitVec 3) (fmt : BitVec 2) (nan : Bool) (hint : BitVec 2) (pe : Bool) (pk : Prd) (a : Reg) (s : State) :
    State :=
  runUniLL (.mxst h od fmt nan hint pe pk a) h
    (Pre.and (opIll h [] fun x => match x.G.od od.toNat with
      | none => true
      | some r => r.role != 2 || (r.fmt == 5 && fmt != 0)) wholePre) [a] s fun x =>
    let t := uVal x a
    let sel := mxSel x pe pk
    if t % 128 != 0 then s.uniFault x (uFreed x a) 0x03 t 0xB3
    else s.mxPost x h (.mxst h od fmt nan hint pe pk a) t sel fun e =>
      ((bitsOf sel x.G.geo.w).flatMap fun l => s.pbOf e true (t + l * 128 * mxstSize fmt) (128 * mxstSize fmt)).eraseDups
def execMxst (h : Hd) (od : BitVec 3) (fmt : BitVec 2) (nan : Bool) (hint : BitVec 2) (pe : Bool) (pk : Prd) (a : Reg)
    (s : State) : Ans := .next (mxstF h od fmt nan hint pe pk a s)

/-- A and B format code of a pass type, and its K (R285). -/
def mtFmt : MT → Nat | .f8 => 0 | .bf => 1 | .h => 2 | .i8 => 3
def mtK : MT → Nat | .f8 => 128 | .i8 => 128 | _ => 64

/-- The ILLEGAL conditions of a pass on its records (R285). -/
def mmaIllegal (t : MT) (c a b : Option OdRec) (ja jb : Nat) : Bool :=
  match c, a, b with
  | some c, some a, some b =>
    c.role != 2 || a.role != 0 || b.role != 1 || a.fmt != mtFmt t || b.fmt != mtFmt t || c.fmt != (if t = .i8 then 5 else 4) ||
      decide (a.nf ≤ ja) || decide (b.nf ≤ jb)
  | _, _, _ => true

/-- MMA (R285). -/
def mmaF (i : Instr) (h : Hd) (t : MT) (oc oa ob : BitVec 3) (pe : Bool) (pk : Prd) (ja jb : BitVec 12) (s : State) : State :=
  runUniLL i h
    (Pre.and (opIll h [] fun x => mmaIllegal t (x.G.od oc.toNat) (x.G.od oa.toNat) (x.G.od ob.toNat) ja.toNat jb.toNat) wholePre)
    [] s fun x => s.mxPost x h i 0 (mxSel x pe pk) fun _ => []
def execMma (h : Hd) (t : MT) (oc oa ob : BitVec 3) (ra rb pe : Bool) (pk : Prd) (ja jb : BitVec 12) (s : State) : Ans :=
  .next (mmaF (.mma h t oc oa ob ra rb pe pk ja jb) h t oc oa ob pe pk ja jb s)

/-! ### Granting (R275) -/

/-- Of two entries, the one that is granted first. -/
def mxBetter (s : State) (a b : Eng × MxJob) : Eng × MxJob := if mxLevel s a.2 < mxLevel s b.2 then b else a

/-- The buffers that a granted operation reads and writes are those of now (R265). -/
def mxCapture (s : State) (e : Eng) (j : MxJob) : Eng :=
  let w := ((s.group? e.gid).map (·.geo.w)).getD 0
  let len := (((s.group? e.gid).bind fun G => G.od ((odNames j.instr).headD 0)).map OdRec.len).getD 0
  match j.instr with
  | .mxld _ _ _ _ => { e with srcs := s.pbOf e false j.addr (128 * len) }
  | .mxst _ _ fmt _ _ _ _ _ =>
    { e with proofs := ((bitsOf j.sel w).flatMap fun l =>
        s.pbOf e true (j.addr + l * 128 * mxstSize fmt) (128 * mxstSize fmt)).eraseDups }
  | _ => e

/-- No engine write into SP banks that a move involves starts while it runs (R192, R193, R288): an MXST into them waits for its
grant. -/
def State.mxHeld (s : State) (e : Eng) (j : MxJob) : Bool :=
  match j.instr, s.block? e.bid with
  | .mxst _ _ fmt _ _ _ _ _, some b => inAperture j.addr && b.onCoreB &&
      (bitsOf j.sel 64).any fun l =>
        (s.core b.core).spMoving ((s.window b).1 + apOff j.addr + l * 128 * mxstSize fmt) (128 * mxstSize fmt)
  | _, _ => false

/-- MATRIX_GRANT: the free array or port of a cluster takes the eligible entry that comes first. -/
def matrixGrantF (cl : Nat) (array : Bool) (s : State) : State :=
  let t := (s.mxTable cl).filter fun e => mxPort e.2.instr != array
  if t.any fun e => e.2.granted then s
  else
    match t.filter fun e => s.mxEligible e.1 e.2 && !s.mxHeld e.1 e.2 with
    | [] => s
    | e :: es =>
      let w := es.foldl (mxBetter s) e
      s.setEng { mxCapture s w.1 w.2 with kind := .mx { w.2 with granted := true } }
def execMatrixGrant (cl : Nat) (array : Bool) (s : State) : Ans := .next (matrixGrantF cl array s)

/-- MATRIX_LEVEL_RISE: an entry that has waited 4,096 full cycles while eligible stands one level higher. -/
def matrixLevelRiseF (e : Nat) (s : State) : State :=
  match s.eng? e with
  | none => s
  | some e =>
    match e.kind with
    | .mx j =>
      match j.since with
      | some t =>
        if j.granted || decide (s.tick < t + 4096) || decide (7 ≤ j.level) then s
        else s.setEng { e with kind := .mx { j with level := j.level + 1, since := some (t + 4096) } }
      | none => s
    | _ => s
def execMatrixLevelRise (e : Nat) (s : State) : Ans := .next (matrixLevelRiseF e s)

/-! ### Reading records -/

/-- Where a record's line lies: an MX line of the core, or 128 bytes of SP of a core of the cluster. -/
def State.odLine (s : State) (e : Eng) (r : OdRec) (q : Nat) : Er Nat :=
  if !r.rv then
    match (List.range 16).find? fun w => (SMap.get? (s.core e.core).poison (2 ^ 50 + (r.off + q) * 16 + w)).isSome with
    | some w => .flt 0x0E ((r.off + q) * 16 + w)
    | none => .ok (SMap.getD (s.core e.core).mx (r.off + q) 0)
  else
    match s.peerBlock e (e.core / 4 * 4 + r.rc) with
    | none => .flt 0x07 (128 * (r.off + q))
    | some b =>
      match s.engSp e b (128 * (r.off + q)) 128 with
      | .flt c a => .flt c a
      | .wait => .wait
      | .ok (.sp c o) =>
        match (s.core c).spPoison o 128 with
        | some _ => .flt 0x0E (128 * (r.off + q))
        | none => .ok ((s.core c).spRead o 128)
      | .ok _ => .flt 0x07 (128 * (r.off + q))

/-- Lines `from` to `from + n − 1` of a record. -/
def State.odLines (s : State) (e : Eng) (r : OdRec) : Nat → Nat → Er (List Nat)
  | 0, _ => .ok []
  | n + 1, q =>
    match s.odLine e r q with
    | .ok v =>
      match State.odLines s e r n (q + 1) with
      | .ok vs => .ok (v :: vs)
      | x => x
    | .flt c a => .flt c a
    | .wait => .wait

/-- A fragment's lines and the line that holds its scales from. -/
def fragLines (r : OdRec) (w j : Nat) : Nat × Nat :=
  match r.role with
  | 0 => (j * w, w)
  | 1 => (128 * j, 128)
  | _ => (0, 4 * w)

/-- The lines of a record of C that hold the rows of `sel`: lines of other rows are not read. -/
def State.odRows (s : State) (e : Eng) (r : OdRec) : List Nat → Er Unit
  | [] => .ok ()
  | l :: ls =>
    match s.odLines e r 4 (4 * l) with
    | .ok _ => State.odRows s e r ls
    | .flt c a => .flt c a
    | .wait => .wait

/-- The scale lines that hold `n` scales of a record from scale `i`, placed as `scaleOf` reads them: lines of other scales are not
read (R285). -/
def State.odScales (s : State) (e : Eng) (r : OdRec) (i n : Nat) : Er (List Nat) :=
  if !r.sc then .ok []
  else
    match s.odLines e r ((i + n - 1) / 32 - i / 32 + 1) (r.soff + i / 32) with
    | .ok ls => .ok (List.replicate (i / 32) 0 ++ ls)
    | x => x

/-- Element of `n` bytes at byte `i` of a line. -/
def lineElem (ls : List Nat) (q i n : Nat) : Nat := lineRead ((ls[q]?).getD 0) i n

/-- A fragment of A as A[l][k], of B as B[k][n] (R272). -/
def fragA (t : MT) (ls : List Nat) (l k : Nat) : Nat :=
  match t with
  | .f8 | .i8 => lineElem ls l k 1
  | _ => lineElem ls l (2 * k) 2
def fragB (t : MT) (ls : List Nat) (k n : Nat) : Nat :=
  match t with
  | .f8 | .i8 => lineElem ls k n 1
  | _ => lineElem ls (2 * k + n / 64) (2 * (n % 64)) 2

/-- A scale of a fragment: 1.0 where the record has none. -/
def scaleOf (r : OdRec) (sc : List Nat) (i : Nat) : Nat :=
  if r.sc then lineRead ((sc[i / 32]?).getD 0) (4 * (i % 32)) 4 else 0x3F800000

/-! ### A pass (R101–R103, R285) -/

/-- The exact sum of the products of a row and a column; NaN as R101 and R103 state. The spec gives the sum as a real number: a zero
sum is +0 whatever its terms' signs, so that an accumulator of −0 becomes +0 (log 116). -/
def dotExact (f : Fmt) (a b : Nat → Nat) : Nat → FV
  | 0 => .fin false 0 0
  | n + 1 => FV.add .rne (dotExact f a b n) (FV.mul (decodeF f false (a n)) (decodeF f false (b n)))
def dotInt (a b : Nat → Nat) : Nat → Int
  | 0 => 0
  | n + 1 => dotInt a b n + sext 8 (a n) * sext 8 (b n)

/-- One element of C after a pass. -/
def mmaElem (t : MT) (acc : Nat) (a b : Nat → Nat) (sa sb : Nat) : Nat :=
  let d32 (x : Nat) : FV := decodeF fmtS false x
  match t with
  | .f8 =>
    let p := dotExact fmtE4 a b 128
    if p.isNan then fmtS.nanBits
    else
      let sc := rne32 (FV.mul (d32 sa) (d32 sb))
      rne32 (FV.add .rne (d32 acc) (d32 (rne32 (FV.mul (d32 sc) p))))
  | .bf => rne32 (FV.add .rne (d32 acc) (dotExact fmtBf a b 64))
  | .h => rne32 (FV.add .rne (d32 acc) (dotExact fmtH a b 64))
  | .i8 => wrap 32 ((acc : Int) + dotInt a b 128)

/-- C[l][n] in a core's MX lines of a record (R272). -/
def Core.cElem (k : Core) (r : OdRec) (l n : Nat) : Nat := lineRead (SMap.getD k.mx (r.off + 4 * l + n / 32) 0) (4 * (n % 32)) 4

/-- Writes the row l of C. -/
def Core.setRow (k : Core) (r : OdRec) (l : Nat) (row : Nat → Nat) : Core :=
  { k with mx := (List.range 4).foldl (fun m q =>
      SMap.put m (r.off + 4 * l + q) ((List.range 32).foldl (fun v i => v + row (32 * q + i) % 2 ^ 32 * 2 ^ (32 * i)) 0)) k.mx }

/-- Writes the selected rows of a pass. -/
def Core.pass (k : Core) (t : MT) (w sel : Nat) (c a b : OdRec) (la lb sca scb : List Nat) (ja jb : Nat) : Core :=
  (bitsOf sel w).foldl (fun k l => k.setRow c l fun n =>
    mmaElem t (k.cElem c l n) (fragA t la l) (fun i => fragB t lb i n) (scaleOf a sca (ja * w + l)) (scaleOf b scb jb)) k

/-- Spoils a descriptor of a group (R286). -/
def State.spoilOd (s : State) (g od : Nat) : State :=
  s.onGroup g fun G => match G.od od with | some r => G.setOd od (some { r with spoiled := true }) | none => G

/-- A pass as it completes. -/
def mmaDone (s : State) (e : Eng) (G : Group) (t : MT) (oc oa ob sel ja jb : Nat) : State :=
  match G.od oc, G.od oa, G.od ob with
  | some c, some a, some b =>
    if a.spoiled || b.spoiled then (s.spoilOd e.gid oc).endEng e
    else
      let w := G.geo.w
      let fa := fragLines a w ja
      let fb := fragLines b w jb
      let bad (c' v : Nat) : State := (s.spoilOd e.gid oc).failEng e 2 0 c' v
      if s.odMoving e.core c || s.odMoving e.core a || s.odMoving e.core b then s
      else
      match s.odLines e a fa.2 fa.1, s.odLines e b fb.2 fb.1, s.odScales e a (ja * w) w, s.odScales e b jb 1,
          s.odRows e c (bitsOf sel w) with
      | .ok la, .ok lb, .ok sca, .ok scb, .ok () =>
        (s.onCore e.core fun k => k.pass t w sel c a b la lb sca scb ja jb).endEng e
      | .wait, _, _, _, _ => s
      | _, .wait, _, _, _ => s
      | _, _, .wait, _, _ => s
      | _, _, _, .wait, _ => s
      | _, _, _, _, .wait => s
      | .flt x v, _, _, _, _ => bad x v
      | _, .flt x v, _, _, _ => bad x v
      | _, _, .flt x v, _, _ => bad x v
      | _, _, _, .flt x v, _ => bad x v
      | _, _, _, _, .flt x v => bad x v
  | _, _, _ => s.endEng e

/-- MXLD as it completes. A failed load leaves lines of open values (R286, log 5). -/
def mxldDone (s : State) (e : Eng) (G : Group) (od addr : Nat) : State :=
  match G.od od with
  | none => s.endEng e
  | some r =>
    if s.odMoving e.core r then s
    else
      match s.engRead e addr (128 * r.len) with
      | .wait => s
      | .flt c a =>
        let junk (st : State) (q : Nat) : State :=
          let o := st.open_
          o.2.onCore e.core fun k => { k with mx := SMap.put k.mx (r.off + q) (o.1 % 2 ^ 1024) }
        (((List.range r.len).foldl junk s).spoilOd e.gid od).failEng e 2 0 c a
      | .ok bs =>
        let line (q : Nat) : Nat := leAt bs (128 * q) 128
        let s1 := s.onCore e.core fun k =>
          { k with
            mx := (List.range r.len).foldl (fun m q => SMap.put m (r.off + q) (line q)) k.mx
            poison := (k.mxZero r.off r.len).poison }
        (s1.onGroup e.gid fun G => G.setOd od (some { r with spoiled := false })).endEng e

/-- One element that MXST stores. -/
def mxstElem (ifmt : Nat) (fmt : BitVec 2) (nan : Bool) (x : Nat) : Nat :=
  if fmt = 0 ∨ ifmt = 5 then x
  else encodeConv (if fmt = 1 then fmtBf else fmtH) .rne nan false (decodeF fmtS false x)

/-- The rows of an MXST in order: each row is written, and the first that cannot be ends the operation. -/
def mxstRows (s : State) (e : Eng) (r : OdRec) (fmt : BitVec 2) (nan : Bool) (addr : Nat) : List Nat → Er Unit × State
  | [] => (.ok (), s)
  | l :: ls =>
    let n := mxstSize fmt
    let bs := (List.range 128).flatMap fun c =>
      (natBytes n (mxstElem r.fmt fmt nan ((s.core e.core).cElem r l c))).map BitVec.toNat
    match s.odLines e r 4 (4 * l) with
    | .flt c a => (.flt c a, s)
    | .wait => (.wait, s)
    | .ok _ =>
      match s.engWrite e (addr + l * 128 * n) bs with
      | .ok s1 => mxstRows (s1.stashDirty e (addr + l * 128 * n) bs.length) e r fmt nan addr ls
      | .flt c a => (.flt c a, s)
      | .wait => (.wait, s)

/-- MXST as it completes. -/
def mxstDone (s : State) (e : Eng) (G : Group) (od : Nat) (fmt : BitVec 2) (nan : Bool) (addr sel : Nat) : State :=
  match G.od od with
  | none => s.endEng e
  | some r =>
    if r.spoiled then s.failEng e 2 0 0 0
    else if s.odMoving e.core r then s
    else
      match mxstRows s e r fmt nan addr (bitsOf sel G.geo.w) with
      | (.ok (), s1) => s1.endEng e
      | (.flt c a, s1) => s1.failEng e 2 0 c a
      | (.wait, _) => s

/-- The last matrix operation of a group that END ended has completed: its records are free (R350, log 138). -/
def State.freeOds (s : State) (g : Nat) : State :=
  if s.mxLeft g then s else s.onGroup g fun G => { G with ods := List.replicate 8 none }

/-- MATRIX_OP_COMPLETE: a granted operation has its effect whole, and its entry is free. -/
def matrixOpCompleteF (e : Nat) (s : State) : State :=
  match s.eng? e with
  | none => s
  | some e =>
    match e.kind, s.group? e.gid with
    | .mx j, some G =>
      if !j.granted then s
      else
        let t := State.mxAge (match j.instr with
        | .mma _ t oc oa ob _ _ _ _ ja jb => mmaDone s e G t oc.toNat oa.toNat ob.toNat j.sel ja.toNat jb.toNat
        | .mxld _ od _ _ => mxldDone s e G od.toNat j.addr
        | .mxst _ od fmt nan _ _ _ _ => mxstDone s e G od.toNat fmt nan j.addr j.sel
        | _ => s)
        if G.ended then t.freeOds e.gid else t
    | .mx _, none => s.endEng e
    | _, _ => s
def execMatrixOpComplete (e : Nat) (s : State) : Ans := .next (matrixOpCompleteF e s)

end Sys2Proof.Machine
end

