-- ==== Sys2Proof/Machine/Coll.lean ====
section
/-! DEFINITION. Collectives: declaring a group (R239, R240), the one order of every reduction (R333, R334), matched operations and
how they end (R241–R244, R335–R337). -/

namespace Sys2Proof.Machine

/-! ### Members (R239) -/

def collSize (counts : List Nat) : Nat := counts.foldl (· * ·) 1
/-- The core of member i, as an integer. -/
def collCore (base : Nat) (strides : List Int) (counts : List Nat) (i : Nat) : Int :=
  let c0 := (counts[0]?).getD 1
  let c1 := (counts[1]?).getD 1
  (base : Int) + (i % c0 : Nat) * (strides[0]?).getD 0 + (i / c0 % c1 : Nat) * (strides[1]?).getD 0
    + (i / (c0 * c1) : Nat) * (strides[2]?).getD 0
def collMembers (base : Nat) (strides : List Int) (counts : List Nat) : List Nat :=
  (List.range (collSize counts)).map fun i => (collCore base strides counts i).toNat

/-! ### The order of every collective (R333) -/

/-- A member's place in the order: z, y, x, die, core. -/
def foldKey (core : Nat) : Nat :=
  let d := core / 1024
  d % 8 * 2 ^ 16 + d / 8 % 8 * 2 ^ 13 + d / 64 % 8 * 2 ^ 10 + core % 1024

/-- FOLD over the entries whose keys agree above bit `sh`, for lists in key order. -/
def foldLevel {α : Type} (f : α → α → α) (sh : Nat) (m : SMap α) : SMap α :=
  (m.foldl (fun acc e =>
    match acc with
    | (k, v) :: r => if k / 2 ^ sh = e.1 / 2 ^ sh then (k, f v e.2) :: r else e :: acc
    | [] => [e]) []).reverse

/-- The value of R333 over members' terms listed by `foldKey`: dies, devices, x, y, z. -/
def foldAll {α : Type} (f : α → α → α) (m : SMap α) : Option α :=
  ((foldLevel f 20 (foldLevel f 16 (foldLevel f 13 (foldLevel f 10 (foldLevel f 8 m)))))[0]?).map (·.2)

/-- The combine of an operation on result patterns (R221), for every operation but .tmean. -/
def collFn (op x y : Nat) : Nat :=
  match op with
  | 0 => fAdd fmtS .rne false x y
  | 1 => fAdd fmtS .rne false x y
  | 2 => (x + y) % 2 ^ 32
  | 3 => (x + y) % 2 ^ 64
  | 4 => fMinMax fmtS true false x y
  | 5 => fMinMax fmtS false false x y
  | 6 => sMax 32 x y
  | 7 => sMin 32 x y
  | 8 => x &&& y
  | 9 => x ||| y
  | _ => x ^^^ y

/-- Bytes of a result (R221). -/
def collRes (op : Nat) : Nat := if op = 1 then 4 else cldrSize op
/-- An element as the operation takes it: BF16 is widened exactly. -/
def collIn (op x : Nat) : Nat := if op = 1 then x * 2 ^ 16 else x

/-- Reduces one element of every member, listed by `foldKey`: the result. .tmean merges TX values and ends with EXIT (R334). -/
def collReduce (op code : Nat) (m : SMap Nat) : Nat :=
  if op = 11 then
    let t := Tab.builtin code
    match foldAll (tmMerge code) (m.map fun (e : Nat × Nat) => (e.1, (tmAcc code t ⟨0, 0, 0⟩ e.2).1)) with
    | some x => tmExit code t x
    | none => 0
  else (foldAll (collFn op) (m.map fun (e : Nat × Nat) => (e.1, collIn op e.2))).getD 0
/-- Whether a term has a domain fault. -/
def collDom (op code x : Nat) : Bool := op == 11 && (tmAcc code (Tab.builtin code) ⟨0, 0, 0⟩ x).2

/-! ### CGRP (R239, R240) and CSTAT (R244) -/

/-- An operation of a block's slot that has not ended; a CLDR has not until it records its outcome as its flag falls (R342). -/
def State.slotBusy (s : State) (b : Block) (k : Nat) : Bool :=
  (s.eng.ops.any fun e => e.bid == b.id && (match e.kind with | .coll j => j.slot == k | .cgrp j _ => j == k | _ => false)) ||
    (s.groupsOf b).any fun x => x.2.ops.any fun o =>
      match o.instr with | .cldr .. => !o.completed && o.lanes.any fun l => !l.parkedB && l.y == k | _ => false

def cgrpF (h : Hd) (k : BitVec 3) (a : Reg) (s : State) : State :=
  runUniLL (.cgrp h k a) h wholePre [a] s fun x =>
    if ((s.block? x.G.geo.bid).map fun b => s.slotBusy b k.toNat).getD false then s.heldAtIssue
    else s.uniIssue x (uFreed x a) 0xB5 (uVal x a) 32 32 true false fun s _ ps =>
      s.startEng x h (s.mkEng x (.cgrp k.toNat (leAt (s.uniBytes x.G.geo.core ps) 0 32)) 0xB5 true)
def execCgrp (h : Hd) (k : BitVec 3) (a : Reg) (s : State) : Ans := .next (cgrpF h k a s)

/-- A descriptor as a slot (R239), before it is declared. -/
def descSlot (d : Nat) : CSlot where
  live := true
  status := 0
  rank := 0
  amask := 0
  amore := false
  tag := d / 2 ^ 32 % 2 ^ 16
  decl := 0
  base := d % 2 ^ 19
  strides := [sext 32 (d / 2 ^ 96 % 2 ^ 32), sext 32 (d / 2 ^ 128 % 2 ^ 32), sext 32 (d / 2 ^ 160 % 2 ^ 32)]
  counts := [d / 2 ^ 192 % 2 ^ 16, d / 2 ^ 208 % 2 ^ 16, d / 2 ^ 224 % 2 ^ 16]
  timeout := 1024 * (if d / 2 ^ 64 % 2 ^ 32 = 0 then 65536 else d / 2 ^ 64 % 2 ^ 32)
  nops := 0

/-- R240: the descriptor is accepted on core `me` (a system core id). -/
def descOk (d me : Nat) (c : CSlot) : Bool :=
  d / 2 ^ 19 % 2 ^ 13 == 0 && d / 2 ^ 48 % 2 ^ 16 == 0 && d / 2 ^ 240 == 0 && !c.counts.contains 0 &&
    decide (collSize c.counts ≤ 524288) &&
    ((List.range (collSize c.counts)).all fun i =>
      decide (0 ≤ collCore c.base c.strides c.counts i) && decide (collCore c.base c.strides c.counts i < 2 ^ 19)) &&
    decide (collMembers c.base c.strides c.counts).Nodup && (collMembers c.base c.strides c.counts).contains me

/-- CGRP ends: the slot is declared, or its status becomes GROUPBAD. -/
def State.cgrpEnd (s : State) (e : Eng) (k d : Nat) : State :=
  let c := descSlot d
  let me := s.dev * 1024 + e.core
  let taken := (s.blocksOn e.core).any fun b =>
    b.slots.zipIdx.any fun (x : CSlot × Nat) => x.1.live && x.1.tag == c.tag && !(b.id == e.bid && x.2 == k)
  if descOk d me c && !taken then
    let key := e.core * 2 ^ 16 + c.tag
    let n := (SMap.getD s.eng.decls key 0 + 1) % 2 ^ 16
    let rank := (findIdx (· == me) (collMembers c.base c.strides c.counts)).getD 0
    (({ s with eng := { s.eng with decls := SMap.put s.eng.decls key n } }).onBlock e.bid fun b =>
      b.setSlot k { c with decl := n, rank := rank }).endEng e
  else (s.onBlock e.bid fun b => b.setSlot k ⟨false, 4, 0, 0, false, 0, 0, 0, [], [], 0, 0⟩).endEng e

/-- The record that CSTAT returns (R244). -/
def CSlot.word (c : CSlot) : Nat :=
  c.status % 8 + c.rank % 2 ^ 20 * 2 ^ 8 + c.amore.toNat * 2 ^ 31 + c.amask % 2 ^ 32 * 2 ^ 32
def cstatF (h : Hd) (d : Reg) (k : BitVec 3) (s : State) : State :=
  runUni (.cstat h d k) h wholePre [] s fun x =>
    let v := ((s.block? x.G.geo.bid).map fun b => (b.slot k.toNat).word).getD 4
    s.doneP x h (x.G.uPut x.K d v)
def execCstat (h : Hd) (d : Reg) (k : BitVec 3) (s : State) : Ans := .next (cstatF h d k s)

/-! ### Matched operations (R241, R335, R336) -/

def State.coll? (s : State) (r : Nat) : Option CollRec := s.eng.colls.find? fun c => c.id == r
def State.setColl (s : State) (c : CollRec) : State :=
  { s with eng := { s.eng with colls := s.eng.colls.map fun x => if x.id = c.id then c else x } }
def CollRec.members (c : CollRec) : List Nat := collMembers c.base c.strides c.counts

/-- What two members' operations have to agree in: instruction, FUNC and IMM (R241). -/
def collShape : Instr → Nat × Nat × Nat
  | .cag _ _ _ _ l => (1, 0, l.toNat)
  | .crs _ _ op _ _ l => (2, op.toNat, l.toNat)
  | .ca2a _ _ _ _ l => (3, 0, l.toNat)
  | _ => (4, 0, 0)
/-- Bytes that a member reads at src and writes at dst, in a group of n. -/
def collBytes (i : Instr) (n : Nat) : Nat × Nat :=
  match i with
  | .cag _ _ _ _ l => (l.toNat, n * l.toNat)
  | .crs _ _ op _ _ l => (n * l.toNat * cldrSize op.toNat, l.toNat * collRes op.toNat)
  | .ca2a _ _ _ _ l => (n * l.toNat, n * l.toNat)
  | _ => (0, 0)

/-- AMASK and AMORE: members whose device is DOWN (R244, R335). -/
def State.absent (s : State) (ms : List Nat) : Nat × Bool :=
  let gone := (ms.zipIdx.filter fun (x : Nat × Nat) => !s.devUp (x.1 / 1024)).map fun (x : Nat × Nat) => x.2
  (maskOf (gone.filter fun i => decide (i < 32)), gone.any fun i => decide (32 ≤ i))

/-- The device of an operation's anchor: that of member 0 (R335). -/
def CollRec.anchorDev (c : CollRec) : Nat := (c.members[0]?).getD 0 / 1024
/-- Every member's term is here, whole. -/
def CollRec.full (c : CollRec) : Bool :=
  c.terms.length == c.members.length &&
    c.terms.all fun t => t.2.length == (collBytes ((c.instr).getD .powerOn) c.members.length).1

/-- The anchor decides an undecided operation where an outcome holds: FAULT, ABSENT, TIMEOUT, a mismatch, OK (R335). Where the anchor
lies on another device, which has become DOWN, the members here decide ABSENT for themselves. -/
def State.collDecide (s : State) (r : Nat) : State :=
  match s.coll? r with
  | none => s
  | some c =>
    let ms := c.members
    let ab := s.absent ms
    if c.outcome.isSome then s
    else if c.anchorDev != s.dev then (if s.devUp c.anchorDev then s else s.setColl { c with outcome := some (1, ab.1, ab.2) })
    else if c.fault then s.setColl { c with outcome := some (3, 0, false) }
    else if ab.1 != 0 || ab.2 then s.setColl { c with outcome := some (1, ab.1, ab.2) }
    else if c.expired then s.setColl { c with outcome := some (2, 0, false) }
    else if c.bad then s.setColl { c with outcome := some (4, 0, false) }
    else if c.full then s.setColl { c with outcome := some (0, 0, false) }
    else s

/-- The liveness table has changed: every undecided operation is looked at again. -/
def State.collsDecide (s : State) : State := s.eng.colls.foldl (fun s c => s.collDecide c.id) s

def State.lateUp (s : State) : State := { s with fab := { s.fab with late := (s.fab.late + 1) % 2 ^ 64 } }

/-- Records of one declaration. -/
def CollRec.sameDecl (c : CollRec) (d : CSlot) : Bool :=
  c.tag == d.tag && c.base == d.base && c.strides == d.strides && c.counts == d.counts && c.decl == d.decl
/-- R240: the anchor has seen an operation of a later declaration. R336: operation k lies more than 64 behind. -/
def State.collStale (s : State) (d : CSlot) : Bool :=
  s.eng.colls.any fun c =>
    (c.tag == d.tag && c.base == d.base && decide (0 < (c.decl + 2 ^ 16 - d.decl) % 2 ^ 16) &&
      decide ((c.decl + 2 ^ 16 - d.decl) % 2 ^ 16 < 2 ^ 15)) ||
    (c.sameDecl d && c.outcome.isSome && decide (d.nops + 64 ≤ c.k))

/-- Outcomes older than the last 64 of a declaration are dropped once no member waits for them. -/
def State.collPrune (s : State) (d : CSlot) : State :=
  let top := s.eng.colls.foldl (fun m c => if c.sameDecl d && c.outcome.isSome then max m c.k else m) 0
  let used (c : CollRec) : Bool := s.eng.ops.any fun e => match e.kind with | .coll j => j.anchor == c.id | _ => false
  { s with eng := { s.eng with colls := s.eng.colls.filter fun c => !(c.sameDecl d && c.outcome.isSome && decide (c.k + 64 ≤ top)) || used c } }

/-- The address of a member's term in its ARRIVE records, which names no memory: an open value of the operation and the member (R363,
R364; log 122). -/
def termAddr (c : CollRec) (member : Nat) : Nat :=
  5 * 2 ^ 49 + Config.termAddr (member + 2 ^ 19 * (c.base + 2 ^ 19 * (c.decl + 2 ^ 16 * (c.tag + 2 ^ 16 * c.k)))) % 2 ^ 49

/-- A new operation, with the terms that the injector has read for it (R364). -/
def State.newColl (s : State) (c : CollRec) : CollRec × State :=
  let far := c.members.zipIdx.filter fun x => x.1 / 1024 != s.dev
  let of (x : Nat × Nat) : List (Nat × List Nat) := s.eng.early.filter fun e => e.1 == termAddr c x.2
  let c := { c with terms := far.foldl (fun m x => if (of x).isEmpty then m else SMap.put m x.2 ((of x).flatMap (·.2))) c.terms }
  (c, { s.fresh with eng := { s.eng with
    colls := s.eng.colls ++ [c], early := s.eng.early.filter fun e => !(far.any fun x => e.1 == termAddr c x.2) } })

/-- The record of operation k, with the member that issues now: its shape and code have to be those of the others. -/
def State.collJoin (s : State) (d : CSlot) (i : Instr) (tm : Nat) : CollRec × State :=
  match s.eng.colls.find? fun c => c.sameDecl d && c.k == d.nops with
  | some c =>
    let i0 := (c.instr).getD i
    let c' := { c with
      instr := some i0
      bad := c.bad || collShape i0 != collShape i || (c.instr.isSome && c.tm != tm)
      tm := if c.instr.isSome then c.tm else tm
      since := SMap.put c.since d.rank s.tick }
    (c', s.setColl c')
  | none =>
    s.newColl
      { id := s.nextId, tag := d.tag, decl := d.decl, k := d.nops, base := d.base, strides := d.strides, counts := d.counts,
        timeout := d.timeout, instr := some i, tm := tm, terms := [], since := [(d.rank, s.tick)], bad := false, fault := false,
        expired := false, outcome := none }

/-- CAG, CRS, CA2A and CBAR as a member issues them: `src` and `dst` are its ranges, `tm` its TMSHAPE where the code matters. The
backings are those of now (R265). An anchor on another device tells the member itself that its operation is stale. -/
def State.collIssue (s : State) (x : Cur) (h : Hd) (i : Instr) (k src dst tm : Nat) : State :=
  match s.block? x.G.geo.bid with
  | none => s
  | some b =>
    let d := b.slot k
    if !d.live then s.doneLL x h x.G
    else
      let n := (collBytes i (collSize d.counts)).2
      let e0 := s.mkEng x (.coll ⟨0, k, d.rank, i, src, dst, tm, s.tick⟩) i.opc true
      let here := (collCore d.base d.strides d.counts 0).toNat / 1024 == s.dev
      let up (s : State) : State := s.onBlock x.G.geo.bid fun b => b.setSlot k { b.slot k with nops := d.nops + 1 }
      if here && s.collStale d then
        ((up (s.spoilAll (s.pbOf e0 true dst n))).slotDone x.G.geo.bid k 4 0 false).doneLL x h x.G
      else
        let q := (up s).collJoin d i tm
        let e := q.2.mkEng x (.coll ⟨q.1.id, k, d.rank, i, src, dst, tm, s.tick⟩) i.opc true
        (q.2.startEng x h { e with
          proofs := s.pbOf e true dst n, srcs := s.pbOf e false src (collBytes i (collSize d.counts)).1 }).collPrune d

def cagF (h : Hd) (k : BitVec 3) (a b : Reg) (len : BitVec 24) (s : State) : State :=
  runUniLL (.cag h k a b len) h wholePre [a, b] s fun x => s.collIssue x h (.cag h k a b len) k.toNat (uVal x a) (uVal x b) 0
def execCag (h : Hd) (k : BitVec 3) (a b : Reg) (len : BitVec 24) (s : State) : Ans := .next (cagF h k a b len s)

/-- CRS (R242, R334): .tmean under a loadable pair is ILLEGAL. -/
def crsF (h : Hd) (k : BitVec 3) (op : BitVec 4) (a b : Reg) (len : BitVec 24) (s : State) : State :=
  runUniLL (.crs h k op a b len) h (Pre.and (opIll h [] fun x => op == 11 && decide (0x10 ≤ x.G.tmshape)) wholePre) [a, b] s fun x =>
    s.collIssue x h (.crs h k op a b len) k.toNat (uVal x a) (uVal x b) (if op = 11 then x.G.tmshape else 0)
def execCrs (h : Hd) (k : BitVec 3) (op : BitVec 4) (a b : Reg) (len : BitVec 24) (s : State) : Ans :=
  .next (crsF h k op a b len s)

def ca2aF (h : Hd) (k : BitVec 3) (a b : Reg) (len : BitVec 24) (s : State) : State :=
  runUniLL (.ca2a h k a b len) h wholePre [a, b] s fun x => s.collIssue x h (.ca2a h k a b len) k.toNat (uVal x a) (uVal x b) 0
def execCa2a (h : Hd) (k : BitVec 3) (a b : Reg) (len : BitVec 24) (s : State) : Ans := .next (ca2aF h k a b len s)

/-- Every member of a group lies on one device. -/
def oneDevice (ms : List Nat) : Bool := ms.all fun m => m / 1024 == (ms[0]?).getD 0 / 1024

/-- CBAR (R243): before arriving it waits like a release, at device or system scope. -/
def cbarF (h : Hd) (k : BitVec 3) (s : State) : State :=
  runUniLL (.cbar h k) h wholePre [] s fun x =>
    let d := ((s.block? x.G.geo.bid).map fun b => b.slot k.toNat).getD ⟨false, 4, 0, 0, false, 0, 0, 0, [], [], 0, 0⟩
    let sc := if oneDevice (collMembers d.base d.strides d.counts) then 3 else 4
    if d.live && !releaseReady s x.g x.G (2 ^ 16 - 1) sc then s.waitWct x
    else s.collIssue x h (.cbar h k) k.toNat 0 0 0
def execCbar (h : Hd) (k : BitVec 3) (s : State) : Ans := .next (cbarF h k s)

/-! ### Contributions, timeouts, outcomes -/

/-- The engine operation of a member of this device. -/
def State.collEng (s : State) (r member : Nat) : Option (Eng × CollJob) :=
  s.eng.ops.findSome? fun e => match e.kind with
    | .coll j => if j.anchor = r ∧ j.rank = member then some (e, j) else none
    | _ => none

/-- What a member's unit reads, or the fault that it reports: the destination has to be publishable and writable (R242). -/
def State.collTerm (s : State) (e : Eng) (j : CollJob) (n : Nat) : Er (List Nat) :=
  let z := collBytes j.instr n
  if !s.allPb e j.dst z.2 then .flt 0x06 j.dst
  else
    match s.engPlaces e (cutRange j.dst z.2) with
    | .flt c a => .flt c a
    | .wait => .wait
    | .ok _ => s.engRead e j.src z.1

/-- Whether some element of a CRS term has a domain fault (R334). -/
def collTermDom (i : Instr) (tm : Nat) (bs : List Nat) : Bool :=
  match i with
  | .crs _ _ op _ _ _ => op == 11 && (List.range (bs.length / 4)).any fun j => collDom 11 tm (leAt bs (4 * j) 4)
  | _ => false

/-- Takes a term of a member, or a further part of it, into its operation. -/
def State.collTake (s : State) (c : CollRec) (member : Nat) (bs : List Nat) : State :=
  (s.setColl { c with terms := SMap.put c.terms member (SMap.getD c.terms member [] ++ bs) }).collDecide c.id

/-- The anchor's decision reaches the members of another device (R335): an OK with the terms that give its result. -/
def State.collTold (s : State) (c : CollRec) (o : Nat × Nat × Bool) : State :=
  if c.anchorDev != s.dev && c.outcome.isNone && (o.1 != 0 || c.full) then s.setColl { c with outcome := some o } else s

/-- ARRIVE records of a term, one for each 32 bytes and one at least (R363). The spec names no address, ORD or SCOPE for them: they are open,
within their ranges (R360; log 5, log 122). -/
def State.recordTerm (s : State) (dev a : Nat) (bs : List Nat) : State :=
  if !s.capturing then s
  else
    let q := s.open_
    (List.range (max 1 ((bs.length + 31) / 32))).foldl (fun t i =>
      t.traceRec 7 (min 32 (bs.length - 32 * i)) dev a (q.1 % 4 * 8 + q.1 / 4 % 5) (leAt bs (32 * i) (min 32 (bs.length - 32 * i)))) q.2

/-- What comes from a member of another device. Its term is a list of bytes, before which 256 + a code names its TMSHAPE (R334); 512
reports an engine fault, 513 that it has issued another operation (R241), and 520 + a status is the anchor's outcome with AMASK and
AMORE. A contribution to a failed operation is dropped and counted in LATE (R336). -/
def State.collRemote (s : State) (c : CollRec) (member m : Nat) (term : List Nat) : State :=
  match term with
  | 512 :: _ => (s.setColl { c with fault := true }).collDecide c.id
  | 513 :: _ => (s.setColl { c with bad := true }).collDecide c.id
  | 520 :: _ => if member = 0 then s.collTold c (0, 0, false) else s
  | 521 :: am :: more => if member = 0 then s.collTold c (1, am, more != [0]) else s
  | 522 :: _ => if member = 0 then s.collTold c (2, 0, false) else s
  | 523 :: _ => if member = 0 then s.collTold c (3, 0, false) else s
  | 524 :: _ => if member = 0 then s.collTold c (4, 0, false) else s
  | _ =>
    let code := (term.head?).bind fun b => if b < 256 then none else some (b - 256)
    let bs := term.filter fun b => decide (b < 256)
    let differs := match c.instr, code with | some (.crs _ _ 11 _ _ _), some k => k != c.tm | _, _ => false
    let s := s.recordTerm (m / 1024) (termAddr c member) bs
    match c.outcome with
    | some (0, _, _) => s
    | some _ => s.lateUp
    | none => s.collTake { c with bad := c.bad || differs } member bs

/-- What comes from a member of another device for operation `d.nops` of a declaration, which the contribution itself names: for an
operation that no member here has issued its record begins with it, and where that operation lies behind those that the anchor keeps it
is dropped and counted in LATE (R336). -/
def State.collNamed (s : State) (d : CSlot) (member : Nat) (term : List Nat) : State :=
  match (collMembers d.base d.strides d.counts)[member]? with
  | none => s
  | some m =>
    if m / 1024 == s.dev || s.tr.rgo then s
    else
      match s.eng.colls.find? fun c => c.sameDecl d && c.k == d.nops with
      | some c => if (SMap.get? c.terms member).isSome && term.all (fun b => decide (b < 512)) then s else s.collRemote c member m term
      | none =>
        if s.collStale d then s.lateUp
        else
          let q := s.newColl
            { id := s.nextId, tag := d.tag, decl := d.decl, k := d.nops, base := d.base, strides := d.strides, counts := d.counts,
              timeout := d.timeout, instr := none, tm := 0, terms := [], since := [], bad := false, fault := false, expired := false,
              outcome := none }
          q.2.collRemote q.1 member m term

/-- COLLECTIVE_CONTRIBUTION: a member of this device contributes what it reads; what another device's member sends comes with the
event, unless the injector runs (R364). A contribution for an operation that has no record here begins with 530 and names it by tag,
declaration, number, TIMEOUT in ticks, base, strides as 32-bit words and counts. -/
def collContribF (r member : Nat) (term : List Nat) (s : State) : State :=
  match s.coll? r with
  | none =>
    match term with
    | 530 :: tag :: decl :: k :: timeout :: base :: s0 :: s1 :: s2 :: c0 :: c1 :: c2 :: bs =>
      s.collNamed { descSlot 0 with
        tag := tag, decl := decl, nops := k, timeout := timeout, base := base, strides := [sext 32 s0, sext 32 s1, sext 32 s2],
        counts := [c0, c1, c2] } member bs
    | _ => s
  | some c =>
    if (SMap.get? c.terms member).isSome && term.all fun b => decide (b < 512) then s
    else
      match s.collEng r member with
      | some (e, j) =>
        if c.outcome.isSome || (SMap.get? c.terms member).isSome then s
        else
          match s.collTerm e j (collSize c.counts) with
          | .wait => s
          | .flt cs a => ((s.setEng (e.failed cs a)).setColl { c with fault := true }).collDecide r
          | .ok bs =>
            (s.onGroup e.gid fun G => if G.ended then G else G.stickIf (collTermDom j.instr j.tm bs) domBit).collTake c member bs
      | none =>
        match c.members[member]? with
        | none => s
        | some m =>
          if m / 1024 == s.dev || s.tr.rgo then s else s.collRemote c member m term
def execCollectiveContribution (r member : Nat) (term : List Nat) (s : State) : Ans := .next (collContribF r member term s)

/-- COLLECTIVE_TIMEOUT: a member's unit finds that TIMEOUT has passed since it issued. -/
def collTimeoutF (r member : Nat) (s : State) : State :=
  match s.coll? r with
  | none => s
  | some c =>
    let due := match SMap.get? c.since member with
      | some t => decide (t + c.timeout ≤ s.tick)
      | none => (c.members[member]?).any fun m => m / 1024 != s.dev
    if due && c.outcome.isNone then (s.setColl { c with expired := true }).collDecide r else s
def execCollectiveTimeout (r member : Nat) (s : State) : Ans := .next (collTimeoutF r member s)

/-- The bytes that member `rank` receives. -/
def CollRec.result (c : CollRec) (i : Instr) (rank : Nat) : List Nat :=
  let ms := c.members
  let term (m : Nat) : List Nat := SMap.getD c.terms m []
  match i with
  | .cag .. => (List.range ms.length).flatMap term
  | .ca2a _ _ _ _ l => (List.range ms.length).flatMap fun m => ((term m).drop (rank * l.toNat)).take l.toNat
  | .crs _ _ op _ _ l =>
    let n := cldrSize op.toNat
    (List.range l.toNat).flatMap fun e =>
      let xs : SMap Nat := ms.zipIdx.foldl (fun (m : SMap Nat) x => SMap.put m (foldKey x.1) (leAt (term x.2) (n * (rank * l.toNat + e)) n)) []
      (natBytes (collRes op.toNat) (collReduce op.toNat c.tm xs)).map BitVec.toNat
  | _ => []

/-- R335: a member records an outcome, writes its destination's proof where it is OK, and its flag falls. An ENGINE record is
written for TIMEOUT and FAULT (R183; log 38). Where the destination of an OK can no longer be written, the engine fault is this
member's: its slot reads FAULT, its proof is spoiled and a record written (R183, log 117). -/
def State.collDeliver (s : State) (e : Eng) (j : CollJob) (c : CollRec) (o : Nat × Nat × Bool) : State :=
  let late := o.1 != 0 && (SMap.get? c.terms j.rank).isNone && e.fail.isNone
  let s := if late then s.lateUp else s
  let fin (s : State) (st : Nat) (cs a : Nat) : State :=
    let s1 := s.slotDone e.bid j.slot st o.2.1 o.2.2
    if st = 0 then
      let s2 := s1.endEng e
      match j.instr with
      | .cbar .. => s2.selfInvalidate e.core 4 (s.tick + 1)
      | _ => s2
    else
      let s2 := s1.spoilAll e.proofs
      (if st = 2 ∨ st = 3 then s2.engineRec e 4 st cs a else s2).endEng e
  if o.1 = 0 then
    match s.engWrite e j.dst (c.result j.instr j.rank) with
    | .ok s => fin s 0 0 0
    | .flt cs a => fin s 3 cs a
    | .wait => s
  else fin s o.1 ((e.fail.map (·.1)).getD 0) ((e.fail.map (·.2)).getD 0)

/-- COLLECTIVE_OUTCOME: a member receives its operation's outcome, or CGRP ends. -/
def collOutcomeF (e : Nat) (s : State) : State :=
  match s.eng? e with
  | none => s
  | some e =>
    match e.kind with
    | .cgrp k d => s.cgrpEnd e k d
    | .coll j =>
      match s.coll? j.anchor with
      | none => s
      | some c => match c.outcome with | some o => s.collDeliver e j c o | none => s
    | _ => s
def execCollectiveOutcome (e : Nat) (s : State) : Ans := .next (collOutcomeF e s)

/-- R350: an operation that its region's end aborts reports an engine fault, and its member ends with FAULT, whatever the others
learn. -/
def State.collAbort (s : State) (e : Eng) (j : CollJob) : State :=
  match s.coll? j.anchor with
  | none => (s.spoilAll e.proofs).endEng e
  | some c =>
    ((s.setColl { c with fault := true }).collDecide c.id).collDeliver { e with fail := some (0, 0) } j c (3, 0, false)

end Sys2Proof.Machine
end

