-- ==== Sys2Proof/Machine/Sched.lean ====
section
/-! DEFINITION. Regions and scheduling (R34–R37, R164, R165, R184, R188, R189, R199, R287, R340, R343–R357): SPAWN, acceptance,
placement, pre-emption, resumption and the end of a region. -/

namespace Sys2Proof.Machine

/-! ### RCBs (R343, R344) -/

def State.rcbParent (s : State) (a : Nat) : Nat := s.rcbNum a 0 8

/-- The ancestors of an RCB from the parent up, within a number of links, and whether a parent of 0 was reached. -/
def State.rcbChain (s : State) : Nat → Nat → List Nat × Bool
  | 0, a => ([], s.addrOk (canon a) && s.rcbParent a == 0)
  | n + 1, a =>
    let p := s.rcbParent a
    if !s.addrOk (canon a) then ([], false)
    else if p = 0 then ([], true) else let r := State.rcbChain s n p; (p :: r.1, r.2)

/-- Whether the walk of R164 from an RCB, which reads it and its ancestors in turn, meets the RCB `own` (log 114). -/
def State.rcbReach (s : State) (own : Nat) : Nat → Nat → Er Bool
  | 0, a => .ok (a == own)
  | n + 1, a =>
    if a = own then .ok true
    else if !s.addrOk (canon a) then .flt 0x04 a
    else if s.rcbParent a = 0 then .ok false else State.rcbReach s own n (s.rcbParent a)

/-- The RCB of the issuing region. -/
def State.ownRcb (s : State) (x : Cur) : Nat := ((s.regionOf x.G).map (·.addr)).getD 0

/-- An unprivileged SPAWN of an RCB that can be read and lies outside the issuer's subtree. -/
def State.spawnOutside (s : State) (x : Cur) (h : Hd) (a : Reg) : Bool :=
  uniGuard x.G x.K h && (uBad x [a]).isNone && !s.privileged x.G && decide (uVal x a < 2 ^ 55) && !inAperture (uVal x a) &&
    ((s.block? x.G.geo.bid).any fun b =>
      match (s.uniAt x.G b (uVal x a) 1 512 true false).1 with
      | .ok (p :: _) => (match s.rcbReach (s.ownRcb x) 16 p.pa with | .ok r => !r | _ => false)
      | _ => false)

/-- SPAWN (R164). An RCB of the issuer's own tree is one whose parent links reach the issuer's RCB, its own among them (log 114).
An address in the scratchpad has no physical address and faults with XLATE (log 130). PRIV comes before MXSPLIT (R90). -/
def spawnF (h : Hd) (a : Reg) (s : State) : State :=
  runUni (.spawn h a) h
    (fun x => if !mxSplit x then none else if s.spawnOutside x h a then some (0x11, true)
      else some (0x0C, uniGuard x.G x.K h && !s.privileged x.G)) [a] s fun x =>
    let r := uVal x a
    let fr := uFreed x a
    if 2 ^ 55 ≤ r then s.uniFault x fr 0x04 r 0xC5
    else if r % 512 != 0 then s.uniFault x fr 0x03 r 0xC5
    else if inAperture r then s.uniFault x fr 0x04 r 0xC5
    else s.uniIssue x fr 0xC5 r 1 512 true false fun s _ ps =>
      match ps with
      | [] => s
      | p :: _ =>
        if !releaseReady s x.g x.G (2 ^ 16 - 1) 3 then s.waitWct x
        else
          match s.rcbReach (s.ownRcb x) 16 p.pa with
          | .flt c v => s.uniFault x fr c v 0xC5
          | .wait => s.heldAtIssue
          | .ok r =>
            if !r && !s.privileged x.G then s.trapFreed x fr 0x11 0xC5
            else
              let s1 := { s with spawns := s.spawns ++ [(⟨s.nextId, p.pa, x.G.geo.core / 256⟩ : Spawn)] }
              s1.fresh.doneP x h x.G
def execSpawn (h : Hd) (a : Reg) (s : State) : Ans := .next (spawnF h a s)

/-- The resolved fields of the RCB at the head of a chain. -/
def State.resolveRcb (s : State) (as : List Nat) : Rcb :=
  let a := (as[0]?).getD 0
  let f (g off n : Nat) : Nat := s.rcbNum (s.supplier g as) off n
  { compl := s.rcbNum a 0x28 8, complv := s.rcbNum a 0x30 8, flog := f 1 0x38 8, root := f 0 0x40 8, code := f 3 0x48 8,
    entry := f 3 0x50 4, prio := f 4 0x54 1, flags := f 6 0x55 1, dies := f 6 0x56 1, handler := f 2 0x58 8 % 2 ^ 55, args := f 9 0x60 8,
    bucket := f 3 0x68 8, spill := f 8 0x70 8, stride := f 8 0x78 4, cap := f 7 0x7C 2, gw := f 7 0x7E 1, cw := f 7 0x7F 1,
    shape := (List.range 4).map fun i => f 7 (0x80 + 4 * i) 4, blocks := f 7 0x90 4, gpb := f 7 0x94 1, pbanks := f 5 0x95 1,
    cores := f 5 0x96 2, spwin := f 5 0x98 4, mxlines := f 5 0x9C 2, core0 := f 7 0x9E 2, save := f 10 0xA0 8, saven := f 10 0xA8 2 }

def Rcb.coop (r : Rcb) : Bool := bit r.flags 0
def Rcb.excl (r : Rcb) : Bool := bit r.flags 1
def Rcb.priv (r : Rcb) : Bool := bit r.flags 2
def Rcb.fixed (r : Rcb) : Bool := bit r.flags 3
/-- 1 where the block has a communication group. -/
def Rcb.comm (r : Rcb) : Nat := if r.cw = 0 then 0 else 1
/-- Width of group i of a block (R36). -/
def Rcb.width (r : Rcb) (i : Nat) : Nat := if i = 0 ∧ r.cw ≠ 0 then r.cw else r.gw
def Rcb.allowed (r : Rcb) (die c : Nat) : Bool := if r.dies = 0 then c / 256 == die else bit r.dies (c / 256)

/-! ### Room on a core (R34, R35, R188, R189) -/

/-- Slots in use in each slice of a core. -/
def State.slotsUsed (s : State) (c : Nat) : List (List Nat) :=
  (s.onCoreGroups c).foldl (fun (u : List (List Nat)) G =>
    u.zipIdx.map fun (x : List Nat × Nat) =>
      if G.geo.slice0 ≤ x.2 then match G.geo.slots[x.2 - G.geo.slice0]? with | some k => k :: x.1 | none => x.1 else x.1)
    (List.replicate 16 [])

/-- An aligned run of `n` slices with a free slot in each: its first slice, the slots, and the slots then in use. -/
def takeRun (u : List (List Nat)) (n : Nat) : Option (Nat × List Nat × List (List Nat)) :=
  ((List.range (16 / n)).find? fun k => ((u.drop (k * n)).take n).all fun l => decide (l.length < 4)).map fun k =>
    let free (l : List Nat) : Nat := ((List.range 4).find? fun i => !l.contains i).getD 0
    (k * n, ((u.drop (k * n)).take n).map free,
      u.zipIdx.map fun (x : List Nat × Nat) => if k * n ≤ x.2 ∧ x.2 < k * n + n then free x.1 :: x.1 else x.1)

/-- Runs for groups of the listed widths: the wider ones first. -/
def takeRuns (u : List (List Nat)) : List (Nat × Nat) → Option (SMap (Nat × List Nat))
  | [] => some []
  | (g, w) :: l =>
    match takeRun u (w / 4) with
    | none => none
    | some (k, sl, u') => (takeRuns u' l).map fun m => SMap.put m g (k, sl)

/-- Groups of a block by falling width. -/
def Rcb.groupOrder (r : Rcb) : List (Nat × Nat) :=
  let all := (List.range r.gpb).map fun i => (i, r.width i)
  let first := match all with | x :: xs => if r.gw ≤ x.2 then x :: xs else xs ++ [x] | [] => []
  first

/-- Own ranges of the other blocks on a core; one with the whole SP by right takes all of it. -/
def State.ownRanges (s : State) (c bid : Nat) : List (Nat × Nat) :=
  ((s.blocksOn c).filter fun b => b.id != bid).map fun b => if s.exclusive b then (0, (s.core c).spSize) else (b.own0, b.ownLen)

/-- The lowest run of n bytes of SP that meets no listed range. -/
def lowestRun (rs : List (Nat × Nat)) (n size : Nat) : Option Nat :=
  let ok (a : Nat) : Bool := decide (a + n ≤ size) && rs.all fun r => !meets a n r.1 r.2
  ((0 :: rs.map fun (r : Nat × Nat) => r.1 + r.2).filter ok).foldl (fun (m : Option Nat) a => match m with | some x => some (min x a) | none => some a) none

/-- Room for a block on a core under its quoins: the slots and the start of its own range (R35, R188, R287). The mappings of a saved
block need room among the core's 32 (R196, log 111). -/
def State.roomFor (s : State) (R : Rcb) (bid c : Nat) (saved : Option Block) : Option (SMap (Nat × List Nat) × Nat) :=
  let k := s.core c
  let regs := ((s.onCoreGroups c).foldl (fun n G => n + G.geo.w * G.geo.cap) 0) +
    (List.range R.gpb).foldl (fun n i => n + R.width i * R.cap) 0
  let held := (s.mxHolders c).flatMap Group.localOds
  let freeBanks := ((List.range 64).filter fun i => decide (k.qAt 2 ≤ i) && !(held.any fun r => meets r.off r.len (256 * i) 256)).length
  let mxBack := match saved with
    | none => true
    | some b => (s.groupsOf b).all fun x => x.2.localOds.all fun r =>
        decide (k.qAt 2 * 256 ≤ r.off) && !(held.any fun q => meets q.off q.len r.off r.len)
  let maps := match saved with | none => true | some b => decide (k.maps.length + b.maps.length ≤ 32)
  let n := if R.excl then k.spSize else R.spwin
  if k.qAt 0 * 4096 < regs || 256 * freeBanks < R.mxlines || !mxBack || !maps then none
  else
    match takeRuns (s.slotsUsed c) R.groupOrder, lowestRun (s.ownRanges c bid) n k.spSize with
    | some m, some o => some (m, o)
    | _, _ => none

/-- The quoins of a core whose last block has gone change to those of the next load (R188): every CA line is written back and
invalidated (R246). -/
def State.setQuoins (s : State) (c : Nat) (q : List Nat) : State :=
  let s1 := (s.flushBanks c fun _ => true).1
  s1.onCore c fun k =>
    { k with
      q := q
      sp := []
      mx := k.mx.filter fun e => roleOf k.q (e.1 / 256) == 3 && roleOf q (e.1 / 256) == 3
      poison := k.poison.filter fun e => decide (2 ^ 50 ≤ e.1) }

/-- The lone block of a core beside which block `n` is loaded. -/
def State.loneBeside (s : State) (c n : Nat) : Option Block := (s.blocksOn c).find? fun b => b.id != n && b.whole && !s.exclusive b

/-- An engine write beyond a lone block's own range has started and not completed (R189). -/
def State.loneWrites (s : State) (b : Block) : Bool :=
  s.eng.ops.any fun e =>
    match e.kind with
    | .copy dst _ len _ _ _ =>
      e.started && ((s.apBlock e dst).map (·.id)) == some b.id && !(decide (b.own0 ≤ apOff dst) && decide (apOff dst + len ≤ b.own0 + b.ownLen))
    | .mx j => e.bid == b.id && j.granted && inAperture j.addr
    | _ => false

/-- R189: a lone block's window shrinks to its own range as another is loaded: mappings beyond it are written back and removed, and
the bytes beyond it are discarded. -/
def State.shrinkLone (s : State) (c n : Nat) : State :=
  match s.loneBeside c n with
  | some b =>
      let inside (m : Mapping) : Bool := decide (b.own0 ≤ m.off) && decide (m.off + 128 * m.n ≤ b.own0 + b.ownLen)
      let s1 := ((s.core c).maps.filter fun m => m.bid == b.id && !inside m).foldl (fun (s : State) m => (s.wbMap b m).1.dropMap b m) s
      (s1.onCore c fun k =>
        { k with
          maps := k.maps.map fun m => if m.bid = b.id then { m with off := m.off - b.own0 } else m
          sp := k.sp.filter fun e => decide (b.own0 ≤ e.1) && decide (e.1 < b.own0 + b.ownLen) }).onBlock b.id
        fun b => { b with whole := false }
  | none => s

/-! ### Launching a group (R57, R62, R67, R352) -/

/-- Coordinate of a linear index in dimension k, over the used dimensions. -/
def coordOf (shape bounds : List Nat) (n k : Nat) : Nat :=
  let below := (List.range k).foldl (fun p j => if (shape[j]?).getD 0 = 0 then p else p * (bounds[j]?).getD 1) 1
  n / below % (bounds[k]?).getD 1
/-- Lanes that the bounds need. -/
def boundsSize (shape bounds : List Nat) : Nat :=
  (List.range 4).foldl (fun p j => if (shape[j]?).getD 0 = 0 then p else p * (bounds[j]?).getD 1) 1
/-- p15 of the lane with linear index n. -/
def p15Of (shape bounds : List Nat) (n : Nat) : Bool :=
  decide (n < boundsSize shape bounds) &&
    (List.range 4).all fun k => (shape[k]?).getD 0 == 0 || decide (coordOf shape bounds n k < (shape[k]?).getD 0)

/-- R58: positions that the backing store can hold. -/
def slimOf (stride w cap : Nat) : Nat := min (stride / (8 * (w + 1))) (65532 - cap) / 4 * 4

/-- Group `gi` of a block as it is launched. -/
def launchGroup (R : Rcb) (bounds : List Nat) (entry bid idx core gi slice0 : Nat) (slots : List Nat) (gang tick : Nat) : Group :=
  let w := R.width gi
  let comm := gi == 0 && R.cw != 0
  let lane (l : Nat) : Lane :=
    let n := (idx * (R.gpb - R.comm) + gi - R.comm) * R.gw + l
    ⟨[], .ofNat 16 (if comm || p15Of R.shape bounds n then 2 ^ 15 else 0), []⟩
  { geo := ⟨bid, gi, core, w, comm, slice0, slots, R.shape, R.cap, slimOf R.stride w R.cap⟩
    lanes := (List.range w).map lane
    gangs := [⟨gang, entry, 2 ^ (w / 4) - 1, 2 ^ w - 1, 0, 0, .ready, none, .none, none, none, tick, 0, false, 0⟩]
    dstacks := List.replicate (w / 4) []
    done := 0
    retired := 0
    recs := []
    flags := List.replicate 12 0
    ods := List.replicate 8 none
    gstat := 0
    stuck := 0
    tmshape := 4
    wctmax := 0
    bottom := 0
    spillbase := (R.spill + (idx * R.gpb + gi) * R.stride) % 2 ^ 55 / 2 ^ 9 * 2 ^ 9
    fregs := ⟨0, 0, 0, 0, 0, 0⟩
    ops := []
    evs := []
    handler := none
    wr := []
    passed := none
    engtime := 0
    hbw := 0
    ended := false }

/-- Makes the groups of a block that is loaded for the first time. Every access before the SPAWN happens before theirs: the core drops
the leased lines that it has (R254). -/
def State.launchBlock (s : State) (b : Block) (R : Region) (c : Nat) (runs : SMap (Nat × List Nat)) : State :=
  (fun (s : State) => s.selfInvalidate c 3 (s.tick + 1)) <| (List.range R.rcb.gpb).foldl (fun (s : State) gi =>
    let r := SMap.getD runs gi (0, [])
    let g := s.nextId
    ({ s with nextId := s.nextId + 2 }.putGroup g
      (launchGroup R.rcb R.bounds R.entryPc b.id b.idx c gi r.1 r.2 (g + 1) s.tick)).onBlock b.id
        fun b => { b with groups := b.groups ++ [g] }) s

/-- A block is put on a core: quoins, which stay while ended groups' records hold MX lines (log 138), its own range, slots; it is then
LOADING. -/
def State.putOn (s : State) (b : Block) (R : Region) (c : Nat) : Option State :=
  let empty := (s.blocksOn c).isEmpty
  let back := b.st == .saved
  let q := if !(s.mxHolders c).isEmpty then (s.core c).q else if back then b.sq else (s.core c).dq
  let s1 := if empty then s.setQuoins c q else s
  match s1.roomFor R.rcb b.id c (if back then some b else none) with
  | none => none
  | some (runs, o) =>
    let whole := empty || R.rcb.excl
    let n := if R.rcb.excl then (s1.core c).spSize else R.rcb.spwin
    let s4 := s1.onBlock b.id fun b => { b with st := .loading, core := c, own0 := o, ownLen := n, whole := whole, loadTick := s.tick }
    if back then
      some (b.groups.foldl (fun (s : State) g => s.onGroup g fun G =>
        let r := SMap.getD runs G.geo.gi (G.geo.slice0, G.geo.slots)
        { G with geo := { G.geo with slice0 := r.1, slots := r.2 } }) s4)
    else some (s4.launchBlock b R c runs)

/-- R353: the rules of placement beside the room. -/
def State.coreOk (s : State) (b : Block) (R : Region) (c : Nat) : Bool :=
  let k := s.core c
  let mine := ((s.blocksOf R.id).filter Block.onCoreB).map (·.core)
  decide (c < 1024) &&
    (match k.claim with | some x => x == b.id | none => true) &&
    (mine.contains c || decide ((mine.eraseDups).length < R.rcb.cores)) && k.move.isNone &&
    (if b.st == .saved then c == b.core
     else if R.rcb.fixed then c == (R.rcb.core0 + b.idx) % 1024 else R.rcb.allowed R.die c)

/-- Where a block may load now. -/
def State.tryLoad (s : State) (bid c : Nat) : Option State :=
  match s.block? bid with
  | none => none
  | some b =>
    match s.region? b.rid with
    | none => none
    | some R =>
      if R.live && R.ending.isNone && !b.faulted && (b.st == .pending || b.st == .saved) && s.coreOk b R c then s.putOn b R c else none

/-- Priority of a block. -/
def State.blockPrio (s : State) (b : Block) : Nat := ((s.region? b.rid).map (·.rcb.prio)).getD 0

/-- A SAVED block of the core goes before a PENDING one of no higher priority that would take the same room (R353): the PENDING one takes
none of it while the SAVED one, which may itself still wait for more room, would not fit beside it. -/
def State.savedFirst (s : State) (b : Block) (c : Nat) : Bool :=
  b.st == .pending && (SMap.vals s.blocks).any fun x =>
    x.st == .saved && !x.faulted && x.core == c && ((s.region? x.rid).any fun R => R.live && R.ending.isNone) &&
      decide (s.blockPrio b ≤ s.blockPrio x) && ((s.tryLoad b.id c).bind fun t => t.tryLoad x.id c).isNone

/-- Every lower block of the region has been placed. -/
def State.inOrder (s : State) (b : Block) : Bool :=
  b.st != .pending || !((s.blocksOf b.rid).any fun x => x.st == .pending && decide (x.idx < b.idx))

/-- A block that waits for room. -/
def Block.waits (x : Block) : Bool := !x.faulted && (x.st == .pending || x.st == .saved)

/-- Whether block b may take room on core c. -/
def State.mayLoad (s : State) (b : Block) (c : Nat) : Option State := if s.savedFirst b c then none else s.tryLoad b.id c

/-- The core that R353 gives a block now, by a question `may` about each core: its only one, or the lowest-numbered one that takes it. -/
def State.placeBy (may : State → Block → Nat → Option State) (s : State) (b : Block) : Option (Nat × State) :=
  match s.region? b.rid with
  | none => none
  | some R =>
    if b.st == .saved then (may s b b.core).map fun t => (b.core, t)
    else if R.rcb.fixed then (may s b ((R.rcb.core0 + b.idx) % 1024)).map fun t => ((R.rcb.core0 + b.idx) % 1024, t)
    else (List.range 1024).findSome? fun c => (may s b c).map fun t => (c, t)
/-- The core that a block takes now. -/
def State.placeOf (s : State) (b : Block) : Option (Nat × State) := s.placeBy State.mayLoad b

/-- Loads the listed blocks, all of them or none. -/
def State.loadBy (may : State → Block → Nat → Option State) (s : State) : List Nat → Option State
  | [] => some s
  | b :: bs =>
    match s.block? b with
    | none => none
    | some B =>
      match s.placeBy may B with
      | none => none
      | some (_, t) => State.loadBy may t bs
def State.loadAll (s : State) (bs : List Nat) : Option State := s.loadBy State.mayLoad bs

/-! ### The save area (R181, R184, R351) -/

def unitAddr (save u : Nat) : Nat := save + 0x10000 + u * 0x210000
/-- The 64 bytes of a group's fault image. KIND, the engine fields and the opcode byte are 0 in it (log 125). -/
def imageOf (s : State) (R : Region) (b : Block) (G : Group) : Nat :=
  let f := G.fregs
  faultRec f.tick R.addr f.pc f.addr f.lanes f.cause (s.dev * 1024 + G.geo.core) b.idx G.geo.gi 0 0 0 0 0 f.eret
/-- A save unit of a region's area that no block holds or has been given. -/
def State.unitFree (s : State) (R : Region) (u : Nat) : Bool :=
  !((SMap.vals s.blocks).any fun b => b.unit == some u && s.saveBase b == R.rcb.save)
/-- The lowest such unit. -/
def State.freeSaveUnit (s : State) (R : Region) : Option Nat := (List.range R.rcb.saven).find? (s.unitFree R)
def State.freeUnits (s : State) (R : Region) : Nat := ((List.range R.rcb.saven).filter (s.unitFree R)).length

/-! ### CONTEXTS_IN_PLACE -/

/-- Pool lines that the block's local records hold. -/
def State.heldLine (s : State) (b : Block) (l : Nat) : Bool :=
  (s.groupsOf b).any fun x => x.2.localOds.any fun r => decide (r.off ≤ l) && decide (l < r.off + r.len)

/-- A saved window returns: the bytes that lie in it, its mappings in fill mode with nothing present (R199), and the lines of its
records (R287), all with their ECC marks (log 77). What lies beyond a window that has become smaller does not return (log 115). -/
def State.restoreWindow (s : State) (b : Block) : State :=
  let w := s.window b
  let keep := b.maps.filter fun m => decide (m.off + 128 * m.n ≤ w.2)
  let gone (id : Nat) : Bool := !(keep.any fun m => m.id == id)
  (s.onCore b.core fun k =>
    { k with
      sp := b.sp.foldl (fun (m : SMap Byte) e => if e.1 < w.2 then putByte m (w.1 + e.1) e.2 else m) k.sp
      maps := k.maps ++ keep.map fun m => { m with copyIn := false, lines := [] }
      mx := b.mx.foldl (fun (m : SMap Nat) e => SMap.put m e.1 e.2) (k.mx.filter fun e => !s.heldLine b e.1)
      poison := b.bad.foldl (fun (m : SMap W64) e =>
          if 2 ^ 50 ≤ e.1 then SMap.put m e.1 e.2 else if 8 * e.1 < w.2 then SMap.put m (2 ^ 32 + w.1 / 8 + e.1) e.2 else m)
        (k.poison.filter fun e => !(decide (2 ^ 50 ≤ e.1) && decide (e.1 < 2 ^ 60) && s.heldLine b ((e.1 - 2 ^ 50) / 16))) }).onBlock
    b.id fun b =>
    { b with
      sp := [], mx := [], bad := [], maps := []
      handles := b.handles.map fun h => if h.st = 1 ∧ gone h.map then { h with st := 0 } else h }

/-- Puts a post into its place by the number of its operation. -/
def Post.insert (p : Post) : List Post → List Post
  | [] => [p]
  | q :: qs => if p.op ≤ q.op then p :: q :: qs else q :: Post.insert p qs

/-- The block's unpaired posts go to the back of their queues in their original order (R144). -/
def State.repost (s : State) (b : Block) : State :=
  let post (e : Nat × Group) (o : Op) : Post := ⟨b.rid, o.x, e.1, o.id, match o.instr with | .xsend .. => true | _ => false⟩
  let ps := (s.groupsOf b).flatMap fun e => (e.2.ops.filter fun o => o.kind == .xfer && !o.completed).map (post e)
  (ps.foldr Post.insert []).foldl (fun (s : State) p =>
    (s.onCore b.core fun k => { k with posts := k.posts ++ [p] }).tryPair b.core b.rid p.slot) s

/-- Accesses that waited for absent stash lines are issued again (R184, R197). -/
def State.reissue (s : State) (g : Nat) (G : Group) : State :=
  (G.ops.filter fun o => o.lanes.any OpLane.inStash).foldl (fun (s : State) o =>
    s.resolveOp g { o with lanes := o.lanes.map fun l => if l.inStash then { l with st := .walk } else l }) s

/-- A group of a block that returns: a fault that was passed resumes at the image's ERETPC (R182). -/
def State.returnGroup (s : State) (b : Block) (R : Region) (g : Nat) : State :=
  match s.group? g with
  | none => s
  | some G =>
    if G.ended then s
    else
      let s1 :=
        if G.passed.isSome then
          let u := (b.unit).getD 0
          let e := s.homeRead (canon (unitAddr R.rcb.save u + 64 * G.geo.gi + 0x38)) 8
          let G := { G with fregs := { G.fregs with eret := stackAddr e } }
          s.resumeGroup g G.resumePassed
        else s
      match s1.group? g with
      | none => s1
      | some G1 => s1.reissue g G1

/-- CONTEXTS_IN_PLACE: LOADING to RESIDENT. A resumed group whose parked release has to wait delays it, and so do engine writes beyond
the own range of a lone block beside which this one is loaded (R189). The block's own range reads zero, its saved bytes apart. -/
def contextsInPlaceF (b : Nat) (s : State) : State :=
  match s.block? b with
  | none => s
  | some B =>
    match s.region? B.rid with
    | none => s
    | some R =>
      if B.st != .loading then s
      else if R.ending.isSome then s.killBlock b
      else if (s.groupsOf B).any (fun x => x.2.passed.isSome && x.2.replayWaits s x.1) || (s.loneBeside B.core b).any s.loneWrites then s
      else
        let s0 := (s.shrinkLone B.core b).onCore B.core fun k =>
          { k with
            sp := k.sp.filter fun e => decide (e.1 < B.own0) || decide (B.own0 + B.ownLen ≤ e.1)
            poison := (spWords B.own0 B.ownLen).foldl SMap.del k.poison }
        let s1 := ((s0.onBlock b fun b => { b with st := .resident }).restoreWindow { B with st := .resident }).repost B
        let s2 := B.groups.foldl (fun (s : State) g => s.returnGroup B R g) s1
        (match s2.block? b with
        | some B2 => s2.freeUnit B2
        | none => s2).growLone B.core
def execContextsInPlace (b : Nat) (s : State) : Ans := .next (contextsInPlaceF b s)

/-! ### Pre-emption (R184, R356) -/

/-- A block that may be chosen as a victim for a priority. -/
def State.victimOk (s : State) (prio : Nat) (b : Block) : Bool :=
  match s.region? b.rid with
  | none => false
  | some R =>
    b.st == .resident && decide (R.rcb.prio < prio) && !R.rcb.excl && (s.core b.core).claim != some b.id &&
      (!R.rcb.coop || (s.blocksOf R.id).all fun x => (s.core x.core).claim != some x.id)

/-- The blocks that leave their cores with some victims: with a block of a COOPERATIVE region all of its region (R54). -/
def State.goers (s : State) (vs : List Block) : List Block :=
  (SMap.vals s.blocks).filter fun y => (y.st == .resident || y.st == .loading) &&
    vs.any fun x => x.id == y.id || (x.rid == y.rid && ((s.region? y.rid).map (·.rcb.coop)).getD false)

/-- Whether the save units of block b's area suffice for some victims (R351, R356). -/
def State.unitsFor (s : State) (vs : List Block) (b : Block) : Bool :=
  (s.region? b.rid).any fun R => decide (((s.goers vs).filter fun y => s.saveBase y == s.saveBase b).length ≤ s.freeUnits R)

/-- Whether block a is taken before block b: lower priority, then loaded later. -/
def State.takenBefore (s : State) (a b : Block) : Bool :=
  let p := s.blockPrio a
  let q := s.blockPrio b
  decide (p < q) || (p == q && (decide (b.loadTick < a.loadTick) || (a.loadTick == b.loadTick && decide (b.id ≤ a.id))))

/-- Puts a block into its place among the victims. -/
def State.insertVictim (s : State) (b : Block) : List Block → List Block
  | [] => [b]
  | x :: xs => if s.takenBefore b x then b :: x :: xs else x :: State.insertVictim s b xs

/-- The machine as if some blocks had been saved, for the question of room. -/
def State.asIfSaved (s : State) (bs : List Block) : State :=
  bs.foldl (fun (s : State) b => s.onBlock b.id fun b => { b with st := .done }) s

/-- The victims on a core that make room for a block: the shortest prefix of the candidates in order. -/
def State.victimsOn (s : State) (n : Block) (c : Nat) : Option (List Block) :=
  let going := (s.blocksOn c).filter fun b => b.st == .saving
  let all := ((s.blocksOn c).filter (s.victimOk (s.blockPrio n))).foldl (fun l b => s.insertVictim b l) []
  let vs := all.foldl (fun l b => if s.unitsFor (l ++ [b]) b then l ++ [b] else l) []
  ((List.range (vs.length + 1)).find? fun k => ((s.asIfSaved (going ++ s.goers (vs.take k))).tryLoad n.id c).isSome).map fun k => vs.take k

/-- The victims for a block that finds no room: those of the allowed core that needs the fewest. -/
def State.victimsFor (s : State) (n : Block) : List Block :=
  let best := (List.range 1024).foldl (fun (m : Option (List Block)) c =>
    match s.victimsOn n c, m with
    | some v, some w => if v.length < w.length then some v else some w
    | some v, none => some v
    | none, m => m) none
  best.getD []

/-- The victims for blocks that are to load one after another: for each that finds no place, those of R356. -/
def State.needs (s : State) : List Nat → List Block
  | [] => []
  | n :: ns =>
    match s.block? n with
    | none => []
    | some N =>
      match s.placeOf N with
      | some (_, t) => State.needs t ns
      | none =>
        let vs := s.goers (s.victimsFor N)
        match (s.asIfSaved vs).placeOf N with
        | some (_, t) => vs ++ State.needs t ns
        | none => vs

/-- The blocks that load together with one: with a block of a COOPERATIVE region all that wait (R354). -/
def State.loadsWith (s : State) (n : Block) : List Nat :=
  if ((s.region? n.rid).map (·.rcb.coop)).getD false then ((s.blocksOf n.rid).filter Block.waits).map (·.id) else [n.id]

/-- Blocks that would load, leaving the state t, wait while they would be victims once they are RESIDENT and their save units are free
again: R356 makes, or has made, their room for a block of higher priority (log 52). -/
def State.keepsClear (s t : State) (bs : List Nat) : Bool :=
  let u := bs.foldl (fun (u : State) b => u.onBlock b fun B => { B with st := .resident, unit := none }) t
  (SMap.vals s.blocks).any fun n =>
    n.waits && s.inOrder n && !bs.contains n.id &&
      (bs.any fun b => (s.block? b).any fun B => decide (s.blockPrio B < s.blockPrio n)) &&
      (u.needs (u.loadsWith n)).any fun v => bs.contains v.id

/-- BLOCK_LOAD: R37's step to LOADING. A COOPERATIVE region's blocks load together (R354). -/
def blockLoadF (b c : Nat) (s : State) : State :=
  match s.block? b with
  | none => s
  | some B =>
    match s.region? B.rid with
    | none => s
    | some R =>
      if R.rcb.coop then
        let bs := ((s.blocksOf R.id).filter fun x => x.st == .pending || x.st == .saved).map (·.id)
        if bs.contains b && ((s.placeOf B).map (·.1)) == some c then
          match s.loadAll bs with
          | some t => if s.keepsClear t bs then s else t
          | none => s
        else s
      else if !s.inOrder B then s
      else match s.placeOf B with
        | some (c', t) => if c' = c ∧ !s.keepsClear t [b] then t else s
        | none => s
def execBlockLoad (b c : Nat) (s : State) : Ans := .next (blockLoadF b c s)

/-- Gangs of a block that is pre-empted: sleeps of MWAIT end, and no watch is kept (R224). -/
def Gang.preempted (K : Gang) : Gang :=
  let K := { K with watch := none }
  if K.st = .sleep ∧ K.wake.isSome then { K with st := .ready, wake := none } else K
def Group.preempted (G : Group) : Group :=
  { G with gangs := G.gangs.map Gang.preempted, handler := G.handler.map fun h => { h with gangs := h.gangs.map Gang.preempted } }

/-- Issue of a block stops: it is SAVING, and has the lowest free save unit (R351). -/
def State.startSave (s : State) (b : Block) : State :=
  match (s.region? b.rid).bind s.freeSaveUnit with
  | none => s
  | some u =>
    b.groups.foldl (fun (s : State) g => (s.onGroup g Group.preempted).withdraw b.core g)
      (s.onBlock b.id fun b => { b with st := .saving, unit := some u })

/-- PREEMPT: a block that passed a fault leaves RESIDENT (R182, R350), or one that R356 chooses for a block of higher priority. The
blocks of a COOPERATIVE region leave together, once none of them is still loading (R37, R54). -/
def preemptF (b : Nat) (s : State) : State :=
  match s.block? b with
  | none => s
  | some B =>
    match s.region? B.rid with
    | none => s
    | some R =>
      if B.st != .resident then s
      else if B.faulted then s.startSave B
      else if (SMap.vals s.blocks).any fun n =>
          n.waits && s.inOrder n && decide (R.rcb.prio < s.blockPrio n) && (s.needs (s.loadsWith n)).any fun v => v.id == b then
        if !R.rcb.coop then s.startSave B
        else if (s.blocksOf R.id).any fun x => x.st == .loading then s
        else ((s.blocksOf R.id).filter fun x => x.st == .resident).foldl State.startSave s
      else s
def execPreempt (b : Nat) (s : State) : Ans := .next (preemptF b s)

/-- Every lane of an operation has landed, is parked, or waits for a stash line. -/
def Op.saveable (o : Op) : Bool :=
  o.kind == .xfer || o.lanes.all fun l => l.st.isLanded || l.st.isParked || l.inStash

/-- R184, steps 1 and 2; R199: engine writes into the window have completed. -/
def State.saveDue (s : State) (b : Block) : Bool :=
  ((s.groupsOf b).all fun x => x.2.ops.all Op.saveable) &&
    !(s.eng.ops.any fun e => (e.bid == b.id && e.isMx) ||
      (match e.kind with | .copy dst _ _ _ _ _ => e.started && (inAperture dst || inPeer dst) && apCore e.core dst == b.core | _ => false))

/-- The write-backs of a save may go to their homes (R193, R205, R325). -/
def State.saveReady (s : State) (b : Block) : Bool :=
  ((s.core b.core).maps.all fun m => m.bid != b.id || s.mapReady b m s.nextId) &&
    (s.core b.core).ca.all fun l => l.2.dirty == 0 || (s.wbReady b.core s.nextId l.1 && !s.lineMoves b.core l.1)

/-- SAVE_COMPLETE: the images and the directory entry are written, the window, mappings and reserved MX lines are kept, and the
block is SAVED; with a fault that was passed the state reads FAULTED (R350). -/
def saveCompleteF (b : Nat) (s : State) : State :=
  match s.block? b with
  | none => s
  | some B =>
    match s.region? B.rid with
    | none => s
    | some R =>
      if B.st != .saving || !s.saveDue B || !s.saveReady B then s
      else
        match B.unit with
        | none => s
        | some u =>
          let c := B.core
          let w := s.window B
          let ms := (s.core c).maps.filter fun m => m.bid == b
          let s1 := ms.foldl (fun (s : State) m => (s.wbMap B m).1) s
          let s2 := ((s1.core c).ca.map (·.1)).foldl (fun (s : State) l => (s.writeBack c l).onCore c fun k => k.caDrop l) s1
          let gs := s2.groupsOf B
          let s3 := gs.foldl (fun (s : State) x =>
            s.homeWriteN (canon (unitAddr R.rcb.save u + 64 * x.2.geo.gi)) (natBytes 64 (imageOf s R B x.2))) s2
          let s4 := s3.homeWrite (canon (R.rcb.save + 8 * u)) 8 (2 ^ 63 + B.idx) true
          let k := s4.core c
          let mapped (o : Nat) : Bool := ms.any fun m => decide (m.off ≤ o) && decide (o < m.off + 128 * m.n)
          let mine (e : Nat × Byte) : Bool := decide (w.1 ≤ e.1) && decide (e.1 < w.1 + w.2)
          let held : Nat → Bool := s4.heldLine B
          let sp := s4.windowBytes B fun o => !mapped o
          let bad := (s4.windowBad B fun o => !mapped o) ++
            k.poison.filter fun e => decide (2 ^ 50 ≤ e.1) && decide (e.1 < 2 ^ 60) && held ((e.1 - 2 ^ 50) / 16)
          let s5 := s4.onBlock b fun b =>
            { b with st := .saved, sq := k.q, sp := sp, mx := k.mx.filter fun e => held e.1, bad := bad, maps := ms }
          let s6 := s5.onCore c fun k =>
            { k with
              sp := k.sp.filter fun e => !mine e
              mx := k.mx.filter fun e => !held e.1
              maps := k.maps.filter fun m => m.bid != b }
          let s7 := if B.faulted && R.ending.isNone && R.live then s6.setRcbState R.addr 4 0 else s6
          let s8 := s7.growLone c
          if R.ending.isSome then s8.killBlock b else s8
def execSaveComplete (b : Nat) (s : State) : Ans := .next (saveCompleteF b s)

/-! ### Acceptance (R344–R347, R352, R354) -/

/-- Bytes that the scheduler reads through a region's tables, at their homes; none where a translation, protection or ECC error meets one
(R347). -/
def State.schedRead (s : State) (root : Nat) (priv : Bool) (va : Nat) : Nat → Option (List Nat)
  | 0 => some []
  | n + 1 =>
    if 2 ^ 55 ≤ va then none
    else
      match s.walk 1024 root va with
      | none => none
      | some l =>
        if !pteR l.pte || (!pteU l.pte && !priv) || 2 ≤ pteCC l.pte then none
        else
          match s.leafPA l va with
          | none => none
          | some pa =>
            if !s.addrOk pa || (pteU l.pte && isConfig pa) || s.memBad pa 1 then none
            else (State.schedRead s root priv (va + 1) n).map fun bs => (s.homeByte pa).toNat :: bs

/-- R165: whether a bucket entry takes the shape. -/
def entryTakes (bs shape : List Nat) : Bool :=
  (List.range 4).all fun i => decide (leAt bs (4 * i) 4 ≤ (shape[i]?).getD 0) && decide ((shape[i]?).getD 0 ≤ leAt bs (16 + 4 * i) 4)

/-- The first entry that matches, from entry k on. -/
def State.bucketFrom (s : State) (r : Rcb) : Nat → Nat → Option (List Nat)
  | 0, _ => none
  | n + 1, k =>
    match s.schedRead r.root r.priv (r.bucket + 0x40 + 64 * k) 64 with
    | none => none
    | some bs => if entryTakes bs r.shape then some bs else State.bucketFrom s r n (k + 1)

/-- Entry PC and bounds (R165, R352), or none for NOBUCKET. -/
def State.entryOf (s : State) (r : Rcb) : Option (Nat × List Nat) :=
  let bound (f : Nat → Nat) : List Nat := (List.range 4).map fun i =>
    if (r.shape[i]?).getD 0 = 0 then 1 else max (f i) ((r.shape[i]?).getD 0)
  if r.bucket = 0 then some (r.code + 4 * r.entry, bound fun _ => 0)
  else
    match s.schedRead r.root r.priv r.bucket 64 with
    | none => none
    | some hd =>
      let n := leAt hd 0 4
      if n = 0 ∨ 256 < n then none
      else (s.bucketFrom r n 0).map fun bs => (r.code + 4 * leAt bs 0x30 4, bound fun i => leAt bs (0x20 + 4 * i) 4)

def inDevMem (a : Nat) : Bool := decide (a < 2 ^ 52) && paSpace a == 0

/-- R343: the fields that break their range or alignment, and the reserved bytes of the RCB itself. -/
def State.fieldBad (s : State) (a : Nat) (r : Rcb) (die : Nat) : Bool :=
  let w8 (x : Nat) : Bool := x == 8 || x == 16 || x == 32 || x == 64
  let parent := s.rcbParent a
  let empty (c : Nat) : Bool :=
    r.allowed die c || r.fixed
  let fits (c : Nat) : Bool :=
    let q := (s.core c).dq
    let q1 := (q[0]?).getD 0
    let q2 := (q[1]?).getD 0
    let q3 := (q[2]?).getD 0
    decide ((List.range r.gpb).foldl (fun n i => n + r.width i * r.cap) 0 ≤ q1 * 4096) &&
      decide (r.spwin ≤ (q2 - q1) * 32768) && decide (r.mxlines ≤ 256 * (64 - q3)) &&
      (takeRuns (List.replicate 16 []) r.groupOrder).isSome
  s.rcbNum a 0x57 1 != 0 || s.rcbNum a 0xAA 6 != 0 || s.rcbNum a 0xB0 0x150 != 0 || s.rcbNum a 0x18 8 / 2 ^ 11 != 0 ||
    !inDevMem parent || parent % 512 != 0 || !inDevMem r.flog ||
    (r.compl != 0 && (r.compl % 8 != 0 || decide (2 ^ 52 ≤ r.compl) || !(paSpace r.compl == 0 || paSpace r.compl == 2))) ||
    r.root % 2 ^ 16 != 0 || r.root / 2 ^ 52 != 0 || r.code % 4 != 0 || decide (7 < r.prio) || r.flags / 16 != 0 || r.dies / 16 != 0 ||
    r.handler % 4 != 0 || r.bucket % 64 != 0 || r.spill % 512 != 0 || r.stride % 512 != 0 ||
    r.cap % 4 != 0 || decide (r.cap < 24) || decide (4092 < r.cap) || !w8 r.gw || !(r.cw == 0 || w8 r.cw) ||
    decide (r.stride < 8 * max r.gw r.cw * r.cap) || decide (2 ^ 24 < r.blocks) || r.gpb == 0 || decide (32 < r.gpb) ||
    (r.cw != 0 && decide (r.gpb < 2)) || decide (60 < r.pbanks) || r.cores == 0 || decide (1024 < r.cores) ||
    r.spwin % 128 != 0 || r.core0 / 2 ^ 10 != 0 || r.save % 65536 != 0 || !inDevMem r.save || paDev r.save != s.dev ||
    r.saven == 0 || decide (8192 < r.saven) || (r.coop && r.fixed && r.blocks == 0) ||
    !((List.range 1024).any fun c => empty c && fits c)

/-- R345: a budget or flag that exceeds the parent's. -/
def overBudget (r p : Rcb) : Bool :=
  decide (p.prio < r.prio) || decide (p.pbanks < r.pbanks) || decide (p.cores < r.cores) || decide (p.spwin < r.spwin) ||
    decide (p.mxlines < r.mxlines) || (r.coop && !p.coop) || (r.excl && !p.excl) || (r.priv && !p.priv)

/-- The completion store of an RCB (R340, R349); one whose home is DOWN is lost (R331). -/
def State.complStore (s : State) (compl v : Nat) : State :=
  if compl = 0 || !(paSpace compl == 0 || paSpace compl == 2) || compl % 8 != 0 then s
  else if !s.addrOk (canon compl) then s.loseWrites 1
  else s.homeWrite (canon compl) 8 v true

/-- A refused launch: the reason, then the completion store. -/
def State.refuse (s : State) (a reason : Nat) : State :=
  (s.setRcbState a 2 reason).complStore (s.rcbNum a 0x28 8) (s.rcbNum a 0x30 8)

def State.dropSpawn (s : State) (sp : Nat) : State := { s with spawns := s.spawns.filter fun x => x.id != sp }

/-- The blocks of a launch. -/
def Rcb.count (r : Rcb) (bounds : List Nat) : Nat :=
  let per := (r.gpb - r.comm) * r.gw
  if r.blocks = 0 then (boundsSize r.shape bounds + per - 1) / per else r.blocks

/-- The region and its PENDING blocks. -/
def State.launch (s : State) (a : Nat) (chain : List Nat) (r : Rcb) (die entry : Nat) (bounds : List Nat) : State :=
  let rid := s.nextId
  let n := r.count bounds
  let R : Region :=
    { id := rid, addr := a, chain := chain, rcb := r, die := die, live := true, bounds := bounds, entryPc := entry, nblocks := n,
      cnt := [0, 0, 0, 0], ending := none }
  let slot : CSlot := ⟨false, 4, 0, 0, false, 0, 0, 0, [], [], 0, 0⟩
  let blk (i : Nat) : Block :=
    { id := rid + 1 + i, rid := rid, idx := i, core := 0, st := .pending, groups := [], handles := List.replicate 16 ⟨0, 0, 0, false⟩,
      slots := List.replicate 8 slot, held := [], counters := [], own0 := 0, ownLen := 0, whole := false, bars := [], unit := none,
      sq := [], sp := [], mx := [], bad := [], maps := [], loadTick := 0, faulted := false }
  let s1 := { s with nextId := rid + 1 + n }.putRegion rid R
  (List.range n).foldl (fun (s : State) i => s.putBlock (rid + 1 + i) (blk i)) s1

/-- The inheritance group of each inherited field: first byte, bytes, group (R343). -/
def rcbFields : List (Nat × Nat × Nat) :=
  [(0x38, 8, 1), (0x40, 8, 0), (0x48, 12, 3), (0x54, 1, 4), (0x55, 2, 6), (0x58, 8, 2), (0x60, 8, 9), (0x68, 8, 3), (0x70, 12, 8),
    (0x7C, 25, 7), (0x95, 9, 5), (0x9E, 2, 7), (0xA0, 10, 10)]
/-- Byte i of an RCB as resolved (R344). -/
def State.rcbByte (s : State) (as : List Nat) (i : Nat) : Nat :=
  match rcbFields.find? fun f => decide (f.1 ≤ i) && decide (i < f.1 + f.2.1) with
  | some f => s.rcbNum (s.supplier f.2.2 as) i 1
  | none => s.rcbNum ((as[0]?).getD 0) i 1

/-- R363: the SPAWN record of an accepted SPAWN and the 16 RCBDATA records of its RCB as resolved. -/
def State.recordSpawn (s : State) (as : List Nat) : State :=
  if !s.capturing then s
  else
    let a := (as[0]?).getD 0
    let part (p : Nat) : Nat := ((List.range 32).map fun i => s.rcbByte as (32 * p + i)).foldr (fun b r => b + 256 * r) 0
    (List.range 16).foldl (fun (t : State) p => t.traceRec 5 p 0 a 0 (part p)) (s.traceRec 4 0 0 a 1 0)

/-- R354: the blocks of a COOPERATIVE region fit at once beside the room that blocks of equal or higher priority hold: a PENDING or SAVED
block holds none, and quoins that are moving are no reason to refuse. -/
def State.coopFits (s : State) (rid : Nat) : Bool :=
  let bs := (s.blocksOf rid).map (·.id)
  let p := ((s.region? rid).map (·.rcb.prio)).getD 0
  let low := (SMap.vals s.blocks).filter fun b => b.onCoreB && decide (s.blockPrio b < p)
  let still (s : State) (c : Nat) : State := s.onCore c fun k => { k with move := none }
  ((s.asIfSaved low).loadBy (fun s b c => (still s c).tryLoad b.id c) bs).isSome

/-- REGION_ACCEPT: the scheduler takes a SPAWN that found IDLE, a RESUME or END of a region that is not live, or a state on which
nothing happens (R346, R347). -/
def regionAcceptF (sp : Nat) (s : State) : State :=
  match s.spawns.find? fun x => x.id == sp with
  | none => s
  | some x =>
    let s0 := s.dropSpawn sp
    let code := s.rcbState x.addr % 256
    let live := (s.regionAt x.addr).isSome
    if code = 0 then
      let ch := s.rcbChain 16 x.addr
      let as := x.addr :: ch.1
      let top := (as.getLast?).getD 0
      let r := s.resolveRcb as
      let parent := (ch.1[0]?).getD 0
      let p := match s.regionAt parent with | some P => P.rcb | none => s.resolveRcb ch.1
      if !ch.2 || !((s.regionAt top).any fun R => R.chain.isEmpty) then s0.refuse x.addr 5
      else if s.fieldBad x.addr r x.die then s0.refuse x.addr 1
      else if overBudget r p then s0.refuse x.addr 3
      else
        match s.entryOf r with
        | none => s0.refuse x.addr 2
        | some (pc, bounds) =>
          let s1 := (s0.setRcbState x.addr 1 0).launch x.addr ch.1 r x.die pc bounds
          if r.coop && !s1.coopFits s0.nextId then s0.refuse x.addr 4 else s1.recordSpawn as
    else if code = 5 ∨ code = 6 then (if live then s else s0.refuse x.addr 6)
    else s0
def execRegionAccept (sp : Nat) (s : State) : Ans := .next (regionAcceptF sp s)

/-- REGION_RESUME: the SAVED blocks of a live region may load again (R346), and the blocks that stopped with it go on. -/
def regionResumeF (sp : Nat) (s : State) : State :=
  match s.spawns.find? fun x => x.id == sp with
  | none => s
  | some x =>
    match s.regionAt x.addr with
    | none => s
    | some R =>
      if s.rcbState x.addr % 256 != 5 then s
      else
        let s1 := (s.dropSpawn sp).setRcbState x.addr 1 0
        (s1.blocksOf R.id).foldl (fun (s : State) b =>
          if b.st == .saved || (s.groupsOf b).all (fun x => x.2.passed.isNone) then s.onBlock b.id fun b => { b with faulted := false }
          else s) s1
def execRegionResume (sp : Nat) (s : State) : Ans := .next (regionResumeF sp s)

/-! ### The end of a region (R308, R340, R349, R350) -/

/-- R350: one aborted engine operation. Matrix operations run on; CGRP declares nothing, and a PUBLISH flips nothing (log 112). -/
def State.abortEng (s : State) (e : Eng) : State :=
  match e.kind with
  | .copy dst _ len .. =>
    let e := if e.proofs.isEmpty then { e with proofs := s.pbOf e true dst len } else e
    s.failEng e 1 0 0 0
  | .bin .. => s.failEng e 5 0 0 0
  | .coll j => s.collAbort e j
  | .cgrp _ _ => s.failEng e 4 3 0 0
  | .bcast b => s.bcastAbort e b
  | .publish .. => s.failEng e 0 0 0 0
  | .mx _ => s

/-- Held copies of a region's blocks leave their slots. -/
def State.clearHeld (s : State) (rid : Nat) : State :=
  (s.blocksOf rid).foldl (fun (s : State) b => s.onBlock b.id fun b => { b with held := [] }) s

/-- R350: a region is ended: engine work is aborted, and every block goes to DONE at once or after the step in progress. -/
def State.endRegion (s : State) (R : Region) : State :=
  let s1 := s.onRegion R.id fun R => { R with ending := some 7 }
  let s2 := (s1.eng.ops.filter fun e => e.rid == R.id).foldl (fun (s : State) e =>
    match s.eng? e.id with | some e => s.abortEng e | none => s) s1
  ((s2.clearHeld R.id).blocksOf R.id).foldl (fun (s : State) b =>
    if b.st == .loading || b.st == .saving || b.st == .done then s else s.killBlock b.id) (s2.clearHeld R.id)

/-- REGION_END. -/
def regionEndF (sp : Nat) (s : State) : State :=
  match s.spawns.find? fun x => x.id == sp with
  | none => s
  | some x =>
    match s.regionAt x.addr with
    | none => s
    | some R =>
      if s.rcbState x.addr % 256 != 6 then s
      else (s.dropSpawn sp).endRegion R
def execRegionEnd (sp : Nat) (s : State) : Ans := .next (regionEndF sp s)

/-- R340: every access of a region's groups is performed, and so are the accesses that happen before them, as a system release waits for
them (R217); their engine work has ended. -/
def State.regionQuiet (s : State) (R : Region) : Bool :=
  let bs := s.blocksOf R.id
  let gs := bs.flatMap (·.groups)
  (bs.all fun b => b.st == .done) && !(s.eng.ops.any fun e => e.rid == R.id) &&
    (gs.all fun g => (s.group? g).all fun G => decide (max G.wctmax G.hbw ≤ s.tick)) &&
    (SMap.vals s.cores).all fun k => k.ca.all fun l => l.2.dirty == 0 || !((l.2.writers ++ l.2.hb).any fun g => gs.contains g)

/-- COMPLETION_STORE: the state becomes DONE or ENDED, then the completion store is made. The region's bindings close. -/
def completionStoreF (r : Nat) (s : State) : State :=
  match s.region? r with
  | none => s
  | some R =>
    if !R.live || !s.regionQuiet R then s
    else
      let s1 := (s.setRcbState R.addr ((R.ending).getD 3) 0).complStore R.rcb.compl R.rcb.complv
      let s2 := s1.onRegion r fun R => { R with live := false }
      let close (p : Space) : Space := if p.rid = r then { p with closing := true } else p
      ({ s2 with eng := { s2.eng with spaces := s2.eng.spaces.map close } }).sweepSpaces
def execCompletionStore (r : Nat) (s : State) : Ans := .next (completionStoreF r s)

end Sys2Proof.Machine
end

