-- ==== Sys2Proof/Machine/Secure.lean ====
section
/-! DEFINITION. Power, bring-up and reset (R358, R366, R367), lifecycle, attestation and debug unlock (R368–R370), tenant memory
encryption (R371). -/

namespace Sys2Proof.Machine

/-- Bytes of memory as numbers; in the interleaved view consecutive granules lie apart (R206). -/
def State.homeBytes (s : State) (a n : Nat) : List Nat := (List.range n).map fun i => (s.homeByte (canon (a + i))).toNat

/-- A range cut at the granules of the interleaved view: address and bytes (R206). -/
def granules (a n : Nat) : List (Nat × Nat) :=
  (List.range ((a % 4096 + n + 4095) / 4096)).map fun i =>
    let g := (a / 4096 + i) * 4096
    (max a g, min (g + 4096) (a + n) - max a g)

/-- Writes bytes of memory, granule by granule. -/
def State.homePuts (s : State) (a : Nat) (bs : List Byte) : State :=
  (granules a bs.length).foldl (fun s p => s.homeWriteN (canon p.1) ((bs.drop (p.1 - a)).take p.2)) s

/-- Whether configuration space takes writes: boot firmware's from FIRMWARE on, software's at READY (R366). -/
def State.cfgOpen (s : State) : Bool := s.sys.phase == 5 || s.sys.phase == 6

/-- A digest as 64 bytes. -/
def digestBytes (d : Nat) : List Nat := (natBytes 64 d).map BitVec.toNat

/-! ### Measurement and the phases of bring-up -/

/-- MEAS := SHA3-512(MEAS ‖ E) (R369). -/
def State.measure (s : State) (e : List Nat) : State :=
  { s with sys := { s.sys with meas := Crypto.sha3 (digestBytes s.sys.meas ++ e) % 2 ^ 512 } }

/-- The device across port p of device d, where the dimension is used (R326). -/
def State.neighbourOf (s : State) (d p : Nat) : Option Nat :=
  let sz (i : Nat) : Nat := max 1 (s.fab.dims / 16 ^ i % 16)
  let step (x n : Nat) (up : Bool) : Nat := if up then (x + 1) % n else (x + n - 1) % n
  let x := d / 64 % 8
  let y := d / 8 % 8
  let z := d % 8
  match p with
  | 0 => if sz 0 = 1 then none else some (step x (sz 0) true * 64 + y * 8 + z)
  | 1 => if sz 0 = 1 then none else some (step x (sz 0) false * 64 + y * 8 + z)
  | 2 => if sz 1 = 1 then none else some (x * 64 + step y (sz 1) true * 8 + z)
  | 3 => if sz 1 = 1 then none else some (x * 64 + step y (sz 1) false * 8 + z)
  | 4 => if sz 2 = 1 then none else some (x * 64 + y * 8 + step z (sz 2) true)
  | 5 => if sz 2 = 1 then none else some (x * 64 + y * 8 + step z (sz 2) false)
  | _ => none

/-- The same for this device. -/
def State.neighbour (s : State) (p : Nat) : Option Nat := s.neighbourOf s.dev p

def State.port (s : State) (p : Nat) : Port := (s.fab.ports[p]?).getD Port.reset
def State.setPort (s : State) (p : Nat) (q : Port) : State := { s with fab := { s.fab with ports := setAt s.fab.ports p q } }

/-- Sets the liveness bit of a device; every undecided collective is looked at again (R331, R335). -/
def State.setLive (s : State) (d : Nat) (up : Bool) : State :=
  let l := s.fab.live
  let l' := if l.testBit d = up then l else l ^^^ (1 <<< d)
  ({ s with fab := { s.fab with live := l' } }).collsDecide

/-- Every port that joins device d is one of this device's, and is down. Of ports of other devices this one learns by LIVENESS_UPDATE. -/
def State.cutOff (s : State) (d : Nat) : Bool :=
  ((List.range 6).all fun q => s.neighbour q != some d || (s.port q).lanes == 0) &&
    (List.range 6).all fun q => (s.neighbourOf d q).all (· == s.dev)
/-- R331: a device is DOWN when every port that joins it is down. -/
def State.linksDown (s : State) : State :=
  (List.range 6).foldl (fun (s : State) p =>
    match s.neighbour p with
    | some d => if d != s.dev && s.cutOff d then s.setLive d false else s
    | none => s) s

/-- Lanes that a port runs on when `n` of them work (R327). -/
def lanesOf (n : Nat) : Nat := if 12 ≤ n then 12 else if 8 ≤ n then 8 else if 4 ≤ n then 4 else 0

/-- R339, R366: boot firmware starts the root supervisor region, whose RCB stands at an address that bring-up sets (log 41). -/
def State.startRoot (s : State) (a : Nat) : State :=
  let r := { s.resolveRcb [a] with flags := s.rcbNum a 0x55 1 ||| 4 }
  match s.entryOf r with
  | some (pc, bounds) => (s.setRcbState a 1 0).launch a [] r 0 pc bounds
  | none => s

/-- The torus sizes of a DIMS word are each 1 to 8 (R326). -/
def dimsOk (dims : Nat) : Bool := [dims % 16, dims / 16 % 16, dims / 256 % 16].all fun n => decide (1 ≤ n) && decide (n ≤ 8)

/-- BRING_UP_PHASE: a phase ends, or fails with a cause. LINKS sets the device's place and its ports; FIRMWARE ends with the launch
line zero and the root supervisor started (R339); a RETIRED part fails at FUSES (R368). -/
def bringUpF (fail : Option Nat) (devid dims lanes : Nat) (root : RootAt) (s : State) : State :=
  let p := s.sys.phase
  let failed (c : Nat) (s : State) : State := { s with sys := { s.sys with phase := 7, failcode := c % 2 ^ 16 } }
  if 6 ≤ p || p == 4 && fail.isNone && !dimsOk dims then s
  else match fail with
  | some c => failed c s
  | none =>
    if p = 1 ∧ s.sys.life = 4 then let q := s.open_; failed q.1 q.2
    else
      let s1 := { s with sys := { s.sys with phase := p + 1 } }
      if p = 4 then
        let ports := (List.range 8).map fun (i : Nat) => { Port.reset with lanes := lanesOf (lanes / 16 ^ i % 16) }
        ({ s1 with
            sys := { s1.sys with devid := devid % 512 }
            fab := { s1.fab with dims := dims % 2 ^ 12, ports := ports } }).measure (Config.firmwareDigest 0)
      else if p = 5 then
        (((s1.measure (Config.firmwareDigest 1)).setLive s1.dev true).homePuts (lineOf root.line) (natBytes 128 0)).startRoot root.rcb
      else s1
def execBringUpPhase (fail : Option Nat) (devid dims lanes : Nat) (root : RootAt) (s : State) : Ans :=
  .next (bringUpF fail devid dims lanes root s)

/-- LIFE as fuses hold it (R368): DEBUG is not. -/
def fuseLife (l : Nat) : Nat := if l = 3 then 2 else l

/-- R366, R368, R371: what a reset leaves: the fuses, the bytes of DRAM under the keys they were written with, the tick, and a new
slot 0 key. -/
def State.resetDevice (s : State) : State :=
  { State.reset with
    tick := s.tick
    mem := s.mem
    ms := { MemSide.reset with keyed := s.ms.keyed, bad := s.ms.bad, boots := s.ms.boots + 1 }
    sys := { Sys.reset with life := fuseLife s.sys.life }
    agenda := s.agenda
    nextId := s.nextId
    free := s.free }
def deviceResetF (s : State) : State := s.resetDevice
def execDeviceReset (s : State) : Ans := .next (deviceResetF s)

/-- POWER_ON: the tick starts at 0, and DRAM holds what an unlisted address reads as (log 2). -/
def powerOnF (s : State) : State :=
  let t := s.resetDevice
  { t with tick := 0, mem := [], ms := { t.ms with bad := [] } }
def execPowerOn (s : State) : Ans := .next (powerOnF s)

/-- FUSE_PROGRAM (R368): MANUFACTURE to PROVISIONED to SECURED to RETIRED. -/
def fuseF (s : State) : State :=
  let l := s.sys.life
  let l' := if l = 0 then 1 else if l = 1 then 2 else if l = 2 then 4 else l
  { s with sys := { s.sys with life := l' } }
def execFuseProgram (s : State) : Ans := .next (fuseF s)

/-! ### Power (R367) -/

/-- Cores withhold n of every 16 ticks, from 1 to 12, while a limit is passed. -/
def Sys.throttled (y : Sys) (n : Nat) : Sys :=
  { y with throttle := if decide (y.pcap * 1000 < y.watts) || decide (105 * 16 < y.temp) then max 1 (min 12 n) else 0 }

/-- OVERTEMP_SHUTDOWN. -/
def overtempF (temp : Nat) (s : State) : State :=
  if temp ≤ 115 * 16 then s
  else
    let ps := s.fab.ports.map fun (p : Port) => { p with lanes := 0 }
    let y := { s.sys with temp := temp % 2 ^ 16, phase := 7, failcode := 0x0115 }
    ({ s with sys := y, fab := { s.fab with ports := ps } }).linksDown
/-- THROTTLE: the monitors' readings, and n of every 16 ticks withheld; above 115 °C the device shuts down. -/
def throttleF (temp watts n : Nat) (s : State) : State :=
  overtempF (temp % 2 ^ 16) { s with sys := ({ s.sys with temp := temp % 2 ^ 16, watts := watts % 2 ^ 32 }).throttled n }
def execThrottle (temp watts n : Nat) (s : State) : Ans := .next (throttleF temp watts n s)

def execOvertempShutdown (temp : Nat) (s : State) : Ans := .next (overtempF temp s)

/-! ### Attestation (R369) -/

/-- ATTESTATION_REQUEST: further requests are held until a report is written. -/
def State.askReport (s : State) (a : Nat) : State :=
  if a % 64 != 0 then s else { s with sys := { s.sys with reqs := s.sys.reqs ++ [a] } }
def execAttestationRequest (a : Nat) (s : State) : Ans := .next (if s.cfgOpen then s.askReport a else s)

/-- The signed bytes of a report, whose nonce software supplied. Bit 8 of the doubleword at 0x40 is DEVID's (log 42). -/
def State.reportHead (s : State) (nonce : List Nat) : List Nat :=
  nonce ++ (natBytes 8 (s.dev % 2 ^ 9 ||| s.sys.life % 2 ^ 8 * 2 ^ 8)).map BitVec.toNat ++ digestBytes s.sys.meas ++
    (natBytes 8 (s.sys.reports + 1)).map BitVec.toNat

/-- ATTESTATION_REPORT: the report, then DONE. Between an accepted token and LIFE := DEBUG none is written (R370). -/
def reportF (s : State) : State :=
  match s.sys.reqs with
  | [] => s
  | a :: rest =>
    if s.sys.unlocking.isSome then s else
    let head := s.reportHead (s.homeBytes a 64)
    let q := s.open_
    let sig := natBytes 4627 (Crypto.sign (Crypto.sha3 head) q.1)
    let s1 := q.2.homePuts a (head.map (BitVec.ofNat 8) ++ sig ++ natBytes 5 0)
    ({ s1 with sys := { s1.sys with reqs := rest, reports := s.sys.reports + 1 } }).homePuts (a + 0x12A8) (natBytes 8 1)
def execAttestationReport (s : State) : Ans := .next (reportF s)

/-! ### Debug unlock (R370) -/

/-- Whether a token opens the part. -/
def State.tokenOk (s : State) (t : List Nat) : Bool :=
  let f (i n : Nat) : Nat := leAt t i n
  let key := (t.drop 0x58).take 2592
  Crypto.sha3 key == Config.authorityHash && Crypto.verify key (t.take 0x0A78) ((t.drop 0x0A78).take 4627) &&
    f 0 8 == s.dev && f 8 8 == Config.serial && f 16 8 == s.sys.life && f 24 64 == s.sys.challenge &&
    (s.sys.life == 2 || s.sys.life == 3)

/-- Every tenant key slot, pool word, LLC line and register is zero, with no write-back. The lines read zero under the keys then in
force. A key that still waits for its drain is not taken either. -/
def State.wipe (s : State) : State :=
  let core (k : Core) : Core := { k with ca := [], vord := [], sp := [], maps := [], mx := [], poison := [] }
  let keyed (d : Drain) : Bool := match d.what with | .key _ => true | _ => false
  let s0 := { s with ms := { s.ms with keys := [], far := [], drains := s.ms.drains.filter fun d => !keyed d } }
  let s1 := s0.ms.homes.foldl (fun (s : State) e => if s.isLocal e.1 then s.pokeN e.1 128 0 else s) s0
  { s1 with
    cores := s1.cores.map fun e => (e.1, core e.2)
    groups := s1.groups.map fun e => (e.1, { e.2 with lanes := e.2.lanes.map fun _ => Lane.reset }) }

/-- The attempt is over: its result, and a new challenge. -/
def State.unlockEnd (s : State) (r : Nat) : State :=
  let q := s.open_
  { q.2 with sys := { q.2.sys with unlock := r, challenge := q.1 % 2 ^ 512, unlocking := none } }

/-- Steps 2 to 4 of R370, once every region has ended. -/
def State.unlockGo (s : State) : State :=
  match s.sys.unlocking with
  | none => s
  | some d =>
    if (SMap.vals s.regions).any fun R => R.live then s
    else
      let s1 := s.wipe.measure ([0x55, 0x4E, 0x4C, 0x4B] ++ digestBytes d)
      ({ s1 with sys := { s1.sys with life := 3 } }).unlockEnd 1

/-- DEBUG_UNLOCK: the token at a is refused, or the steps of R370 run: every region ends, and when all have ended the part goes on. -/
def State.unlockWith (s : State) (a : Nat) : State :=
  let t := s.homeBytes a 0x2000
  if s.sys.unlocking.isSome then s.unlockGo
  else if a % 64 != 0 then s
  else if !s.tokenOk t then s.unlockEnd 2
  else
    let s1 := (SMap.vals s.regions).foldl (fun (s : State) R => if R.live then s.endRegion R else s) { s with spawns := [] }
    ({ s1 with sys := { s1.sys with unlocking := some (Crypto.sha3 t) } }).unlockGo
def execDebugUnlock (a : Nat) (s : State) : Ans := .next (if s.cfgOpen then s.unlockWith a else s)

/-! ### Tenant memory encryption (R371) -/

/-- A change of a bucket, a range entry, a key slot or an encryption range entry waits for its drain (R205, R371). -/
def State.addDrain (s : State) (what : Placed) (val : Nat) : State :=
  let d : Drain := ⟨s.nextId, what, val⟩
  { s.fresh with ms := { s.ms with drains := s.ms.drains ++ [d] } }

/-- KEY_SLOT_WRITE: slots 1 to 63. The lines under the old key are drained and flushed first (R371). -/
def State.setKey (s : State) (k v : Nat) : State := if k = 0 ∨ 64 ≤ k then s else s.addDrain (.key k) (v % 2 ^ 512)

/-- Reserved bits of an encryption range entry. -/
def encBad (v : Nat) : Bool := v / 2 ^ 110 != 0 || fld v 23 1 != 0
/-- ENCRYPTION_RANGE_WRITE: the lines that the old or the new entry holds are drained and flushed first (R371). -/
def State.setEnc (s : State) (k v : Nat) : State := if 64 ≤ k ∨ encBad v then s else s.addDrain (.enc k) v

def execKeySlotWrite (k v : Nat) (s : State) : Ans := .next (if s.cfgOpen then s.setKey k v else s)

def execEncryptionRangeWrite (k v : Nat) (s : State) : Ans := .next (if s.cfgOpen then s.setEnc k v else s)

end Sys2Proof.Machine
end

