-- ==== Sys2Proof/Machine/ConfigSpace.lean ====
section
/-! DEFINITION. Configuration space (R204, R332, R358, R359, R362, R364–R371): what each register reads, what a write does, and
the drain and flush of the placement tables (R205). -/

namespace Sys2Proof.Machine

/-! ### Reads -/

/-- A byte of the identity window (R366). -/
def State.idByte (s : State) (o : Nat) : Nat :=
  let f (v base : Nat) : Nat := v / 256 ^ (o - base) % 256
  if o < 2 then f 0x5D1E 0
  else if o < 4 then f 0x6400 2
  else if o = 4 then Config.stepping % 256
  else if o < 8 then 0
  else if o < 0x10 then f Config.serial 8
  else if o = 0x10 then s.sys.phase
  else if o = 0x11 then s.sys.life
  else if o < 0x14 then f s.sys.failcode 0x12
  else if o < 0x16 then f s.sys.devid 0x14
  else if o < 0x40 then 0
  else if o < 0x80 then f (if s.sys.phase ≤ 1 then Config.earlyHash else Crypto.sha3 Crypto.identityKey) 0x40
  else if o < 0xC0 then f s.sys.meas 0x80
  else if o < 0xC8 then f (s.sys.temp % 2 ^ 16) 0xC0
  else if o < 0xD0 then f (s.sys.watts % 2 ^ 32) 0xC8
  else 0

/-- Key of a lane-cycle counter at an offset of its block: core, range or 16, class; bytes that hold none have no key (R362). -/
def lcKey (off : Nat) : Option Nat :=
  let c := (off - 0x100000) / 0x800
  let o := (off - 0x100000) % 0x800
  if o < 0x428 ∧ o % 0x40 < 0x28 then some (c * 2 ^ 16 + o / 0x40 * 8 + o % 0x40 / 8) else none

/-- The register that holds a configuration offset: first byte and bytes. -/
def cfgUnit (o : Nat) : Nat × Nat :=
  let al (n : Nat) : Nat × Nat := (o / n * n, n)
  if o < 0x400 then al 16
  else if o < 0x2000 then al 1
  else if o < 0x2008 then al 8
  else if o < 0x4000 then al 1
  else if o < 0x4040 then al 8
  else if o < 0x4080 then al 64
  else if o < 0x4100 then al 16
  else if 0x4800 ≤ o ∧ o < 0x5000 then al 4
  else if 0x5000 ≤ o ∧ o < 0x5040 then al 8
  else if 0x5100 ≤ o ∧ o < 0x5200 then al 16
  else if 0x5300 ≤ o ∧ o < 0x5340 then al 8
  else if 0x5340 ≤ o ∧ o < 0x5350 then al 16
  else if o = 0x6000 ∨ (0x6000 ≤ o ∧ o < 0x6008) then al 8
  else if 0x7000 ≤ o ∧ o < 0x7100 then al 8
  else if 0x7100 ≤ o ∧ o < 0x7140 then al 64
  else if 0x8000 ≤ o ∧ o < 0x8400 then al 16
  else if 0x9000 ≤ o ∧ o < 0xA000 then al 64
  else if 0x100000 ≤ o ∧ o < 0x300000 then al 8
  else al 1

/-- What the register at its first byte reads; offsets that name none read zero (log 43). -/
def State.cfgVal (s : State) (b : Nat) : Nat :=
  if b < 0x400 then SMap.getD s.ms.ranges (b / 16) 0
  else if b < 0x1000 then 0
  else if b < 0x2000 then s.bucket (b - 0x1000)
  else if b = 0x2000 then s.ms.rebal.toNat
  else if 0x3000 ≤ b ∧ b < 0x3200 then s.idByte (b - 0x3000)
  else if b = 0x4000 then s.fab.dims
  else if b = 0x4008 then s.fab.late
  else if b = 0x4010 then s.fab.lostw
  else if b = 0x4040 then s.fab.live
  else if 0x4080 ≤ b ∧ b < 0x4100 then
    let p := s.port ((b - 0x4080) / 16)
    p.lanes % 16 + p.replays % 2 ^ 32 * 2 ^ 32 + p.drops % 2 ^ 32 * 2 ^ 64
  else if 0x4800 ≤ b ∧ b < 0x5000 then SMap.getD s.fab.routes ((b - 0x4800) / 4) 0
  else if b = 0x5000 then s.tr.tbase
  else if b = 0x5008 then s.tr.tsize
  else if b = 0x5010 then s.tr.head
  else if b = 0x5018 then s.tr.tail
  else if b = 0x5020 then s.tr.tlost
  else if b = 0x5028 then s.tr.tctl
  else if b = 0x5030 then s.tr.orphans
  else if b = 0x5038 then s.tick
  else if 0x5100 ≤ b ∧ b < 0x5200 then SMap.getD s.tr.ranges ((b - 0x5100) / 16) 0
  else if b = 0x5300 then s.tr.rbase
  else if b = 0x5308 then s.tr.rcount
  else if b = 0x5310 then s.tr.rgo.toNat
  else if b = 0x5318 then s.tr.rdone
  else if b = 0x5340 then s.sys.stopTick + s.sys.arm.toNat * 2 ^ 64 + s.sys.miss.toNat * 2 ^ 65
  else if b = 0x6000 then s.sys.pcap
  else if b = 0x7088 then s.sys.unlock
  else if b = 0x7100 then s.sys.challenge
  else if 0x8000 ≤ b ∧ b < 0x8400 then SMap.getD s.ms.encs ((b - 0x8000) / 16) 0
  else if 0x100000 ≤ b ∧ b < 0x300000 then ((lcKey b).map fun k => SMap.getD s.tr.lc k 0).getD 0
  else 0

/-- `n` bytes of configuration space. -/
def State.cfgRead (s : State) (o : Nat) : Nat → Nat
  | 0 => 0
  | n + 1 =>
    let u := cfgUnit o
    s.cfgVal u.1 / 256 ^ (o - u.1) % 256 + 256 * State.cfgRead s (o + 1) n

/-! ### Writes -/

/-- An unused value or a reserved bit of a range entry (R204), in a field that a write sets some byte of. -/
def rangeBadIn (sets : Nat → Bool) (v : Nat) : Bool :=
  ((sets 13 || sets 14 || sets 15) && v / 2 ^ 104 != 0) || (sets 0 && fld v 6 1 != 0) || (sets 1 && decide (8 < fld v 15 12)) ||
    ((sets 0 || sets 1) && (decide (fld v 11 7 < 7) || decide (30 < fld v 11 7))) ||
    ((sets 1 || sets 2) && fld v 23 16 % 2 ^ fld v 15 12 != 0)
def rangeBad (v : Nat) : Bool := rangeBadIn (fun _ => true) v


/-- CONFIG_RANGE_ENTRY_WRITE. -/
def State.setRange (s : State) (k v : Nat) : Option State :=
  if 64 ≤ k ∨ rangeBad v then none else some (s.addDrain (.range k) v)
/-- CONFIG_BUCKET_ENTRY_WRITE. -/
def State.setBucket (s : State) (b v : Nat) : Option State :=
  if 4096 ≤ b ∨ 256 ≤ v then none else some (s.addDrain (.bucket b) v)

/-- REPLAY_GO (R364): software writes 1 to start. -/
def State.setGo (s : State) (v : Nat) : Option State :=
  if v = 1 ∧ !s.tr.rgo then some { s with tr := { s.tr with rgo := true, rdone := 0 } } else none

/-- STOP_ARM (R365): only in DEBUG. -/
def State.setStop (s : State) (v : Nat) : Option State :=
  if s.sys.life != 3 || v / 2 ^ 66 != 0 then none
  else
    let t := v % 2 ^ 64
    let late := bit v 64 && decide (t ≤ s.tick)
    some { s with sys := { s.sys with stopTick := t, arm := bit v 64 && !late, miss := (s.sys.miss && bit v 65) || late } }

/-- The reserved bits and the interval of TCTL (R359). -/
def tctlBad (v : Nat) : Bool :=
  v / 2 ^ 16 != 0 || fld v 7 5 != 0 || bit v 1 || decide (fld v 15 8 < 8) || decide (24 < fld v 15 8)

/-- A write of a whole register; none where it is dropped: a read-only register, an unused value or a reserved bit. -/
def State.cfgSet (s : State) (b v : Nat) : Option State :=
  if b < 0x400 then s.setRange (b / 16) v
  else if 0x1000 ≤ b ∧ b < 0x2000 then s.setBucket (b - 0x1000) v
  else if b = 0x2000 then (if 2 ≤ v then none else some { s with ms := { s.ms with rebal := v == 1 } })
  else if 0x4800 ≤ b ∧ b < 0x5000 then
    (if fld v 30 10 != 0 then none else some { s with fab := { s.fab with routes := SMap.put s.fab.routes ((b - 0x4800) / 4) v } })
  else if b = 0x5000 then (if v % 4096 != 0 then none else some { s with tr := { s.tr with tbase := v } })
  else if b = 0x5008 then (if v < 6 ∨ 24 < v then none else some { s with tr := { s.tr with tsize := v } })
  else if b = 0x5018 then some { s with tr := { s.tr with tail := v } }
  else if b = 0x5028 then (if tctlBad v then none else some { s with tr := { s.tr with tctl := v } })
  else if 0x5100 ≤ b ∧ b < 0x5200 then
    (if v / 2 ^ 119 != 0 || bit v 65 || fld v 63 55 != 0 || fld v 1 0 != 0 then none
      else some { s with tr := { s.tr with ranges := SMap.put s.tr.ranges ((b - 0x5100) / 16) v } })
  else if b = 0x5300 then (if s.tr.rgo then none else some { s with tr := { s.tr with rbase := v } })
  else if b = 0x5308 then (if s.tr.rgo then none else some { s with tr := { s.tr with rcount := v } })
  else if b = 0x5310 then s.setGo v
  else if b = 0x5340 then s.setStop v
  else if b = 0x6000 then (if v < 400 ∨ 2000 < v then none else some { s with sys := ({ s.sys with pcap := v }).throttled s.sys.throttle })
  else if b = 0x7000 then some (s.askReport v)
  else if b = 0x7080 then some (s.unlockWith v)
  else if 0x8000 ≤ b ∧ b < 0x8400 then (if encBad v then none else some (s.setEnc ((b - 0x8000) / 16) v))
  else if 0x9040 ≤ b ∧ b < 0xA000 then some (s.setKey ((b - 0x9000) / 64) v)
  else if 0x100000 ≤ b ∧ b < 0x300000 then
    (match lcKey b with
      | some k => if v = 0 then some { s with tr := { s.tr with lc := SMap.del s.tr.lc k } } else none
      | none => none)
  else none

/-- What a write to part of a register starts from: a key slot keeps the bytes it holds, which read as zero, and a range entry those of
a write that has still to drain. -/
def State.cfgOld (s : State) (b : Nat) : Nat :=
  let last (w : Placed) (v : Nat) : Nat := ((s.ms.drains.filter fun d => d.what == w).getLast?.map (·.val)).getD v
  if b < 0x400 then last (.range (b / 16)) (s.cfgVal b)
  else if 0x8000 ≤ b ∧ b < 0x8400 then last (.enc ((b - 0x8000) / 16)) (s.cfgVal b)
  else if 0x9040 ≤ b ∧ b < 0xA000 then last (.key ((b - 0x9000) / 64)) (SMap.getD s.ms.keys ((b - 0x9000) / 64) 0)
  else s.cfgVal b

/-- The registers that `n` bytes at an offset meet, in order. -/
def cfgUnits (o : Nat) : Nat → List (Nat × Nat)
  | 0 => []
  | n + 1 =>
    let u := cfgUnit o
    let r := cfgUnits (o + 1) n
    if r.contains u then r else u :: r

/-- The bytes of `v`, which stands at o, that fall into the register at b of m bytes, put into its old value. -/
def cfgMerge (b m o n v old : Nat) : Nat :=
  (List.range m).foldl (fun r i =>
    let a := b + i
    let x := if o ≤ a ∧ a < o + n then v / 256 ^ (a - o) % 256 else old / 256 ^ i % 256
    r + x * 256 ^ i) 0

/-- A write of `n` bytes at `o`, as the register at `u` takes it. A write to part of a range entry is dropped for what it sets itself:
fields that it does not touch may still hold their reset value (R204). -/
def State.cfgPart (s : State) (u : Nat × Nat) (o n v : Nat) : Option State :=
  let x := cfgMerge u.1 u.2 o n v (s.cfgOld u.1)
  if u.1 < 0x400 then
    if rangeBadIn (fun i => decide (o ≤ u.1 + i) && decide (u.1 + i < o + n)) x then none else some (s.addDrain (.range (u.1 / 16)) x)
  else s.cfgSet u.1 x

/-- A write of `n` bytes to configuration space, dropped as a whole where a register drops it (R204). -/
def State.cfgWrite (s : State) (o n v : Nat) : State :=
  ((cfgUnits o n).foldl (fun (t : Option State) u => t.bind fun t => t.cfgPart u o n v) (some s)).getD s

def configRangeF (k v : Nat) (s : State) : State := if s.cfgOpen then (s.setRange k v).getD s else s
def execConfigRangeEntryWrite (k v : Nat) (s : State) : Ans := .next (configRangeF k v s)
def configBucketF (b v : Nat) (s : State) : State := if s.cfgOpen then (s.setBucket b v).getD s else s
def execConfigBucketEntryWrite (b v : Nat) (s : State) : Ans := .next (configBucketF b v s)
/-- CONFIG_WRITE: 1, 2, 4, 8 or 16 bytes, aligned. -/
def configWriteF (off size v : Nat) (s : State) : State :=
  if s.cfgOpen && [1, 2, 4, 8, 16].contains size && off % size == 0 then s.cfgWrite off size v else s
def execConfigWrite (off size v : Nat) (s : State) : Ans := .next (configWriteF off size v s)
def execReplayGo (s : State) : Ans := .next (if s.cfgOpen then (s.setGo 1).getD s else s)
def execStopArm (v : Nat) (s : State) : Ans := .next (if s.cfgOpen then (s.setStop v).getD s else s)

/-- IDENTITY_READ: an SMBus block read of 8 bytes of the window (R366). -/
def identityReadF (cmd : Nat) (s : State) : State :=
  if 64 ≤ cmd then s
  else { s with fab := { s.fab with out := s.fab.out ++ [(⟨3, cmd, s.cfgRead (0x3000 + 8 * cmd) 8⟩ : Answer)] } }
def execIdentityRead (cmd : Nat) (s : State) : Ans := .next (identityReadF cmd s)

/-! ### Drain and flush (R205) -/

/-- The latest expiry that the old home recorded for the lines of a drain: those its LLC holds, and the ESX of its sets. -/
def State.drainLx (s : State) (d : Drain) (old : Nat) : Nat :=
  let inSlice (sl : Nat) : Bool :=
    match d.what with
    | .bucket b => sl == s.bucket b
    | .range _ => !rngEn old || (decide (fld old 23 16 ≤ sl) && decide (sl < fld old 23 16 + 2 ^ fld old 15 12))
    | .key _ | .enc _ => false
  let a := s.ms.homes.foldl (fun m e => if s.isLocal e.1 && d.meets old e.1 then max m e.2.lx else m) 0
  let b := s.ms.esx.foldl (fun m e => if inSlice (e.1 / 4096) then max m e.2 else m) a
  s.ms.moved.foldl (fun m x => max m x.2) b

/-- The lines that gangs watch. -/
def State.watched (s : State) : List Nat :=
  (SMap.vals s.groups).flatMap fun G =>
    (G.gangs ++ ((G.handler.map (·.gangs)).getD [])).filterMap fun K => K.watch.map (·.line)

/-- The flush of an address range under its old key: the LLC writes its lines back and drops them, which their watchers see (R223,
R371). Its sets keep the latest lease expiry. -/
def State.flushLlc (s : State) (p : Nat → Bool) : State :=
  let s1 := s.ms.homes.foldl (fun (s : State) e => if s.isLocal e.1 && p e.1 then s.evict e.1 else s) s
  (s1.watched.filter fun l => s1.isLocal l && p l).foldl State.trigger s1

/-- REHOME_DRAIN: the old home's lines leave it, which their watchers see (R223), the new home treats every line as leased until the
latest expiry of any of them, and the entry changes. A key slot and an encryption range entry take effect after the flush of the lines
under the old key (R371). -/
def rehomeDrainF (i : Nat) (s : State) : State :=
  match s.ms.drains with
  | [] => s
  | d :: rest =>
    if d.id != i then s
    else
      let old := s.drainOld d
      let lx := s.drainLx d old
      let s1 := s.ms.homes.foldl (fun (s : State) e =>
        if s.isLocal e.1 && d.meets old e.1 then
          { s with ms := { s.ms with homes := SMap.del s.ms.homes e.1, wts := SMap.put s.ms.wts e.1 e.2.wt } }
        else s) s
      let s1 := (s.watched.filter fun l => s.isLocal l && d.meets old l).foldl State.trigger s1
      let mv := s.ms.moved.filter fun x => decide (s.tick < x.2)
      let add : List (Drain × Nat) := if s.tick < lx then [(d, lx), ({ d with val := old }, lx)] else []
      let m := { s1.ms with drains := rest, moved := mv ++ add }
      match d.what with
      | .bucket b => { s1 with ms := { m with buckets := SMap.put m.buckets b d.val } }
      | .range k => { s1 with ms := { m with ranges := SMap.put m.ranges k d.val } }
      | .key k =>
        let u := s.flushLlc fun l => s.drainMeets d l
        { u with ms := { u.ms with drains := rest, keys := SMap.put u.ms.keys k d.val } }
      | .enc k =>
        let u := s.flushLlc fun l => s.drainMeets d l
        { u with ms := { u.ms with drains := rest, encs := SMap.put u.ms.encs k d.val } }
def execRehomeDrain (i : Nat) (s : State) : Ans := .next (rehomeDrainF i s)

/-- Requests counted to a slice. -/
def State.sliceHits (s : State) (sl : Nat) : Nat := s.ms.hits.foldl (fun n e => if s.bucket e.1 = sl then n + e.2 else n) 0

/-- REBALANCE: every 2^20 ticks, while it is enabled, the busiest bucket of the busiest slice may move to the least busy slice of
its die. -/
def rebalanceF (b sl : Nat) (s : State) : State :=
  let from_ := s.bucket b
  let die := (List.range 64).map fun i => from_ / 64 * 64 + i
  let hit (x : Nat) : Nat := SMap.getD s.ms.hits x 0
  if s.ms.rebal && s.tick % 2 ^ 20 == 0 && decide (b < 4096) && decide (sl < 256) && sl / 64 == from_ / 64 && sl != from_ &&
      ((List.range 256).all fun x => decide (s.sliceHits x ≤ s.sliceHits from_)) && (die.all fun x => decide (s.sliceHits sl ≤ s.sliceHits x)) &&
      (s.ms.hits.all fun e => s.bucket e.1 != from_ || decide (e.2 ≤ hit b)) then
    (({ s with ms := { s.ms with hits := [] } }).addDrain (.bucket b) sl)
  else s
def execRebalance (b sl : Nat) (s : State) : Ans := .next (rebalanceF b sl s)

end Sys2Proof.Machine
end

