-- ==== Sys2Proof/Machine/MemEvents.lean ====
section
/-! DEFINITION. The memory's own steps (R207, R211, R218–R221, R257–R259, R331): page-table walks, fills, write-backs, atomics at
their homes, accesses at the vault controllers and outside the device, leases. -/

namespace Sys2Proof.Machine

/-! ### Page-table walks (R186, R208–R211) -/

/-- The 64 KiB page of an address. -/
def pageOf (va : Nat) : Nat := va / 2 ^ 16

/-- An operation has a lane that waits for the translation of a page. -/
def Op.walksPage (o : Op) (va : Nat) : Bool := o.lanes.any fun l => l.walking && pageOf l.va == pageOf va

/-- Operations of a core's groups under one root that wait for a page, and may walk: group, operation. -/
def State.walkers (s : State) (c root va : Nat) : List (Nat × Nat) :=
  (s.groups.filter fun e => e.2.geo.core == c && !e.2.ended && s.rootOf e.2 == root).flatMap fun e =>
    (e.2.ops.filter fun o => o.walksPage va && e.2.storesDone o.id).map fun o => (e.1, o.id)

/-- PAGE_TABLE_WALK: the entries are cached and the accesses that waited for them go on; where the walk finds no leaf, they fault with
XLATE. An access whose page is cached already goes on as well. The walk waits while a table's address changes home (R205). -/
def pageWalkF (c root va : Nat) (s : State) : State :=
  let ws := s.walkers c root va
  let plain := inAperture va || inPeer va || (s.tlbLeaf c root va).isSome || decide (2 ^ 55 ≤ va)
  let w := s.walkC c root va
  let leaf := w.2
  if !plain && s.walkHeld c root va then s
  else
  let s1 := if plain || ws.isEmpty then s else s.tlbFill c w.1
  ws.foldl (fun (s : State) w =>
    match (s.group? w.1).bind fun G => G.op? w.2 with
    | none => s
    | some o =>
      if plain || leaf.isSome then s.resolveOp w.1 o
      else s.resolveWith w.1 o fun G b l => if pageOf l.va = pageOf va then .flt 0x04 l.va else s.laneAdr G b o l) s1
def execPageTableWalk (c root va : Nat) (s : State) : Ans := .next (pageWalkF c root va s)

/-! ### Fills (R258) -/

/-- Whether a lane is a load that waits for a line's fill. -/
def OpLane.fillsFrom (l : OpLane) (line : Nat) : Bool := l.atHome && lineOf l.pa == line

/-- A load that waits for the fill: its hint and page entry. -/
def State.fillWaiter (s : State) (c line : Nat) : Option (Op × OpLane) :=
  s.groups.findSome? fun e =>
    if e.2.geo.core = c && !e.2.ended then
      e.2.ops.findSome? fun o => if isLoad o.instr then (o.lanes.find? fun l => l.fillsFrom line).map fun l => (o, l) else none
    else none

/-- One of those loads comes first at its home. -/
def State.fillFirst (s : State) (c line : Nat) : Bool :=
  (s.requests c).any fun q => isLoad q.1.instr && q.2.fillsFrom line && s.vaultFirst c q.1 q.2

/-- Changes the loads of a core that wait for a line. -/
def State.onWaiters (s : State) (c line : Nat) (f : State → Group → Op → Op) : State :=
  (s.groups.filter fun e => e.2.geo.core == c && !e.2.ended).foldl (fun (s : State) e =>
    (e.2.ops.filter fun o => isLoad o.instr && o.lanes.any fun l => l.fillsFrom line).foldl (fun (s : State) o =>
      match s.group? e.1 with
      | none => s
      | some G => match G.op? o.id with
        | none => s
        | some o => s.afterLanes e.1 (f s G o)) s) s

/-- The lanes that wait for a line bind their bytes of it. -/
def Op.bindFrom (o : Op) (line : Nat) (cl : CaLine) : Op :=
  { o with lanes := o.lanes.map fun l =>
      if l.fillsFrom line then { l with st := .bound (lineRead cl.data (l.pa % 128) o.acc.sz), time := cl.time } else l }

/-- FILL_AT_HOME: the line comes into L1 and every load of the core that waits for it binds its value. `rem` is the response of
another device. A home that is DOWN makes the loads fault (R331), and so does a CP page that another core owns (R262). The fill waits
for a move of its bank and for a change of its home (R193, R205). -/
def fillF (c line : Nat) (rem : Option Nat) (s : State) : State :=
  match s.fillWaiter c line with
  | none => s
  | some (o, l) =>
    let park (cause : Nat) : State := s.onWaiters c line fun s G o =>
      o.parkLanes G s.tick fun l => if l.fillsFrom line then some (cause, l.va) else none
    if !s.addrOk line then park 0x04
    else if s.cpOther l.pte c then park 0x06
    else if !s.drained line || s.lineMoves c line || !s.fillFirst c line || s.roomHeld c o.id line then s
    else
      let s1 := s.caFill c line o.acc.em.hint.toNat l.pte rem
      match (s1.core c).caLine line with
      | none => s1
      | some cl => s1.onWaiters c line fun _ _ o => o.bindFrom line cl
def execFillAtHome (c line : Nat) (rem : Option Nat) (s : State) : Ans := .next (fillF c line rem s)

/-! ### Write-backs and leases -/

/-- The fill-mode stash lines of a core that stand for a line and are dirty: the block, the mapping, the line's number (R198). -/
def State.stashOf (s : State) (c line : Nat) : List (Block × Mapping × Nat) :=
  ((s.core c).maps.filter fun m => !m.copyIn).flatMap fun m =>
    match s.block? m.bid with
    | none => []
    | some b => ((List.range m.n).filter fun i =>
        (m.line i).dirty != 0 && ((s.globalPA c (s.blockRoot b) (m.base + 128 * i)).1.map fun p => lineOf p.1) == some line).map
          fun i => (b, m, i)

/-- WRITE_AT_HOME: the dirty bytes of an L1 line reach their home, which gives them their WCT, and so do those of the core's
fill-mode stash lines that stand for the line (R198), after the core's earlier requests to that home (R325). A move of their banks holds it
(R193). -/
def writeAtHomeF (c line : Nat) (s : State) : State :=
  if s.wbReady c s.nextId line && !s.lineMoves c line && (s.stashOf c line).all (fun e => !s.mapMoves e.1 e.2.1) then
    (s.stashOf c line).foldl (fun s e => (s.wbStashLine e.1 e.2.1 e.2.2).1) (s.writeBack c line) else s
def execWriteAtHome (c line : Nat) (s : State) : Ans := .next (writeAtHomeF c line s)

/-- LEASE_EXPIRE: the clean bytes of an HC copy read as absent from its expiry on. Until this step drops it a line whose lease has
lapsed keeps its bank and its place in the order of victims: whether it counts as invalid before that is the model's choice (log 144). -/
def leaseExpireF (c line : Nat) (s : State) : State :=
  match (s.core c).caLine line with
  | none => s
  | some l =>
    if l.cc != 0 || decide (s.tick < l.expiry) || l.valid == l.dirty then s
    else if l.dirty = 0 then s.onCore c fun k => k.caDrop line
    else s.onCore c fun k => k.setCa line { l with valid := l.dirty }
def execLeaseExpire (c line : Nat) (s : State) : Ans := .next (leaseExpireF c line s)

/-! ### Atomics and load-and-reduce at their homes (R218–R221) -/

/-- The first lane of an operation that passes a test. -/
def Op.first (o : Op) (p : OpLane → Bool) : Option OpLane := o.lanes.find? p
def Op.putLane (o : Op) (l : OpLane) : Op := { o with lanes := o.lanes.map fun x => if x.lane = l.lane then l else x }
/-- A lane that is to be performed at its home faults there: a load or atomic with XLATE where the home is DOWN (R331), any access with
ATTR where another core owns the CP page (R262). -/
def State.homeFlt (s : State) (c : Nat) (o : Op) (x : OpLane) : Option (Nat × Nat) :=
  if !(x.atHome || x.atVault) then none
  else if !s.addrOk x.pa then (if o.acc.rd then some (0x04, x.va) else none)
  else if s.cpOther x.pte c then some (0x06, x.va)
  else none
def State.ligHomeFlt (s : State) (G : Group) (o : Op) (l : OpLane) : Bool :=
  o.lanes.any fun x => x.lane / ligN G == l.lane / ligN G && (s.homeFlt G.geo.core o x).isSome
/-- The lanes of lane l's ligature park; an atomic whose home is DOWN is lost, with the tick as its WCT (R331). -/
def State.parkHome (s : State) (g : Nat) (G : Group) (o : Op) (l : OpLane) : State :=
  let mine (x : OpLane) : Bool := x.lane / ligN G == l.lane / ligN G
  let lost := (o.lanes.filter fun x => mine x && (x.atHome || x.atVault) && !s.addrOk x.pa).length
  let s1 := if o.acc.wr && o.acc.rd && lost != 0 then (s.loseWrites lost).raiseWct g s.tick else s
  s1.afterLanes g (o.parkLanes G s.tick fun x => if mine x then s.homeFlt G.geo.core o x else none)

/-- A read-modify-write of one lane, as one step: the old value returns, the new one is written. What another device answers brings the
old value, its time and the WCT (R267). -/
def State.rmwLane (s : State) (g : Nat) (o : Op) (l : OpLane) (hc : Bool) (rem : Option Nat) : State :=
  let n := o.acc.sz
  let line := lineOf l.pa
  let put (s : State) (old t w : Nat) : State := (s.raiseWct g w).afterLanes g (o.putLane { l with st := .bound old, time := t })
  let write (old : Nat) : State := (s.countHit l.pa).homeWrite l.pa n (o.newVal l old) hc
  match if s.isLocal l.pa then none else rem with
  | some r => let w := max s.tick (respWct r); put ((write (respData r n)).setWt line w) (respData r n) (respWt r) w
  | none => put (write (s.homeRead l.pa n)) (s.homeRead l.pa n) (s.homeLine line).wt (s.wctOf l.pa hc)

/-- Address of member m's element of a CLDR whose own address is P (R221). -/
def elemAt (P m : Nat) : Nat := m / 1024 % 2 ^ 9 * 2 ^ 40 + m % 1024 * 2 ^ 29 + P % 2 ^ 29
/-- Member m's element of a lane and its time, `i` its place in the group: an element of another device comes with the event, 64 bits
of value and 64 of time. -/
def State.elem (s : State) (o : Op) (l : OpLane) (m i : Nat) (rem : Option Nat) : Nat × Nat :=
  let a := elemAt l.pa m
  match if s.isLocal a then none else rem with
  | some r => let x := r / 2 ^ (128 * (l.lane * 2 ^ 19 + i)); (x % 2 ^ (8 * o.acc.sz), x / 2 ^ 64 % 2 ^ 64)
  | none => (s.homeRead a o.acc.sz, (s.homeLine (lineOf a)).wt)
/-- The elements of a lane, by their place in the order of R333. -/
def State.elems (s : State) (o : Op) (l : OpLane) (ms : List Nat) (rem : Option Nat) : SMap Nat :=
  ms.zipIdx.foldl (fun (m : SMap Nat) (x : Nat × Nat) => SMap.put m (foldKey x.1) (s.elem o l x.1 x.2 rem).1) []
/-- How a CLDR ends at a slot: status, AMASK, AMORE (R335). -/
def State.cldrEnd (s : State) (o : Op) (c : CSlot) : Nat × Nat × Bool :=
  if !c.live then (4, 0, false)
  else
    let ab := s.absent (collMembers c.base c.strides c.counts)
    if ab.1 != 0 || ab.2 then (1, ab.1, ab.2) else if o.tick + c.timeout ≤ s.tick then (2, 0, false) else (0, 0, false)

/-- The members that a lane of a CLDR reads. -/
def cldrMems (b : Block) (l : OpLane) : List Nat := let c := b.slot l.y; collMembers c.base c.strides c.counts
/-- The lines that lanes of a CLDR read. -/
def cldrLines (b : Block) (ls : List OpLane) : List Nat :=
  (ls.flatMap fun l => (cldrMems b l).map fun m => lineOf (elemAt l.pa m)).eraseDups

/-- Lines that a core's access reads at their homes leave its L1, once their dirty bytes stand there: what it reads is as new as its own
stores, and no later load takes an older copy (R218, R256). -/
def State.sendHome (s : State) (c : Nat) (lines : List Nat) : State :=
  lines.foldl (fun s l => (s.writeBack c l).onCore c fun k => k.caDrop l) s

/-- A CLDR reads and reduces every lane's elements. Where a slot's operation fails, no lane's destination changes; each slot records
its outcome as the flag falls (R221, R342). Lanes whose own page another core owns fault (R262). -/
def State.cldr (s : State) (g : Nat) (G : Group) (b : Block) (o : Op) (rem : Option Nat) : State :=
  let c := G.geo.core
  let ls := o.lanes.filter OpLane.atHome
  let lines := cldrLines b ls
  let other (l : OpLane) : Bool := l.atHome && s.cpOther l.pte c
  if ls.any other then s.afterLanes g (o.parkLanes G s.tick fun l => if other l then some (0x06, l.va) else none)
  else if lines.any fun l => !s.drained l || s.lineMoves c l then s
  else
    let code := match o.instr with | .cldr _ _ _ em => em.op.toNat | _ => 0
    let ok := ls.all fun l => (s.cldrEnd o (b.slot l.y)).1 == 0
    let s1 := ls.foldl (fun s l => if pteCC l.pte = 2 then s.takeCp (ptePA l.pte) c else s) (s.sendHome c lines)
    let dm := ok && ls.any fun l => (s1.elems o l (cldrMems b l) rem).any fun e => collDom code o.x e.2
    let s2 := if dm then s1.onGroup g fun G => G.stick domBit else s1
    let time (l : OpLane) : Nat := (cldrMems b l).zipIdx.foldl (fun m x => max m (s1.elem o l x.1 x.2 rem).2) 0
    s2.afterLanes g { o with lanes := o.lanes.map fun l =>
      if !l.atHome then l
      else
        let l' := { l with cmp := cldrWord (s.cldrEnd o (b.slot l.y)) }
        if ok then { l' with st := .bound (collReduce code o.x (s1.elems o l (cldrMems b l) rem)), time := time l }
        else { l' with st := .landed } }

/-! ### The vault controller, LLC-only accesses, configuration space, hosts (R201, R204, R207, R213, R330) -/

/-- What a load reads there: configuration space, this device's memory, or what stands outside. -/
def State.vaultRead (s : State) (a n : Nat) (rem : Option Nat) : Nat :=
  if isConfig a then (if paDev a = s.dev then s.cfgRead (paOff a) n else respData (rem.getD 0) n)
  else if s.isLocal a then s.homeRead a n
  else match rem with | some r => respData r n | none => s.homeRead a n

/-- A store there. Configuration space of another device is outside this machine. -/
def State.vaultWrite (s : State) (a n v : Nat) (hc : Bool) : State :=
  if isConfig a then (if paDev a = s.dev then s.cfgWrite (paOff a) n v else s) else (s.countHit a).homeWrite a n v hc

/-- R201: an LLC-only store updates the line it hits in L1. The bytes that an LLC-only load has read at the home replace a clean
copy's in the same way, so that no later load of the core takes an older value (R256): `t` is their time. -/
def Core.caUpdate (k : Core) (pa n v t : Nat) : Core :=
  match k.caLine (lineOf pa) with
  | some l => k.setCa (lineOf pa) { l with data := lineWrite l.data (pa % 128) n v, time := max l.time t }
  | none => k

/-- One lane of a load, store or atomic performed at its home: an LLC slice, which the issuing core's L1 then does not keep the line of
an atomic from (R218), the vault controller, or what lies outside the device's memory. A store whose home is DOWN is lost (R331). -/
def State.homeLane (s : State) (g c : Nat) (o : Op) (l : OpLane) (rem : Option Nat) : State :=
  let n := o.acc.sz
  let line := lineOf l.pa
  if l.atHome then
    let s1 := s.sendHome c [line]
    ((if pteCC l.pte = 2 then s1.takeCp (ptePA l.pte) c else s1).enterLlc line).rmwLane g o l (pteCC l.pte == 0) rem
  else if !o.acc.rd && !s.addrOk l.pa then
    ((s.loseWrites 1).raiseWct g s.tick).afterLanes g (o.putLane { l with st := .landed })
  else
    let llc := pathOf l.pte l.pa o.acc.em.hint.toNat != 2
    let hc := llc && pteCC l.pte == 0
    let s := if llc then (s.writeBack c line).enterLlc line else s
    let far := if s.isLocal l.pa then none else rem
    let s := if pteCC l.pte = 2 then s.takeCp (ptePA l.pte) c else s
    if !o.acc.wr then
      let v := s.vaultRead l.pa n rem
      let t := match far with | some r => respWt r | none => (s.homeLine line).wt
      let s1 := if llc then s.onCore c fun k => k.caUpdate l.pa n v t else s
      s1.afterLanes g (o.putLane { l with st := .bound v, time := t })
    else if !o.acc.rd then
      let s1 := (s.vaultWrite l.pa n l.y hc).raiseWct g (s.wctOf l.pa hc)
      let s2 := if llc then s1.onCore c fun k => k.caUpdate l.pa n l.y 0 else s1
      s2.afterLanes g (o.putLane { l with st := .landed })
    else if isConfig l.pa then
      let old := s.vaultRead l.pa n rem
      ((s.vaultWrite l.pa n (o.newVal l old) false).raiseWct g s.tick).afterLanes g
        (o.putLane { l with st := .bound old, time := 0 })
    else s.rmwLane g o l hc rem

/-! ### The lanes that go to their homes together (R173) -/

/-- The lanes that are performed with lane l: the limbs of its ligature where the access writes, so that a fault of one leaves none
performed; otherwise itself. -/
def Op.together (o : Op) (G : Group) (l : OpLane) : List OpLane :=
  if ligBound G && o.acc.wr then o.lanes.filter fun x => x.unbound && x.lane / ligN G == l.lane / ligN G else [l]
/-- The response that limb i of them takes from an event's: 1,280 bits each. -/
def remOf (rem : Option Nat) (i : Nat) : Option Nat := rem.map fun r => r / 2 ^ (1280 * i) % 2 ^ 1280
/-- Those of them that wait for the others, with their addresses as they now stand. -/
def State.heldLimbs (s : State) (G : Group) (b : Block) (o : Op) (ls : List OpLane) : List (OpLane × Adr) :=
  (ls.filter fun x => !x.atHome && !x.atVault).map fun x =>
    let a := s.adrEcc G.geo.core o (s.laneAdr G b o x)
    (x, if s.adrMoves G.geo.core o a then .wait else a)
/-- A limb that waited can still be performed at once. -/
def State.limbOk (s : State) (G : Group) (o : Op) : Adr → Bool
  | .sp _ => true
  | .mem pa pte => !s.adrLate G.geo.core o (.mem pa pte)
  | _ => false
/-- A lane that goes to its home has to wait: for the core's earlier requests to that home (R207, R325), for a rehoming (R205), for a move
of the banks of its line (R193). `low` is the lowest of the lanes that go together. -/
def State.homeHeld (s : State) (c : Nat) (o : Op) (low : Nat) (x : OpLane) : Bool :=
  (x.atHome || x.atVault) && (!s.vaultFirst c o { x with lane := low } || !s.drained x.pa ||
    (pathOf x.pte x.pa o.acc.em.hint.toNat != 2 && s.lineMoves c x.pa))

/-- Performs lane l, and the lanes that go with it, at their homes: none where one of them has to wait or faults, and where the address
of one that waited for the others has changed they are all looked at again. -/
def State.atHomes (s : State) (g : Nat) (G : Group) (b : Block) (o : Op) (l : OpLane) (rem : Option Nat) : State :=
  let c := G.geo.core
  let ls := o.together G l
  let hs := s.heldLimbs G b o ls
  if ls.any (s.homeHeld c o ((ls.head?.map (·.lane)).getD l.lane)) then s
  else if s.ligHomeFlt G o l then s.parkHome g G o l
  else if hs.any fun e => e.2 == .wait then s
  else if hs.any fun e => !s.limbOk G o e.2 then
    s.resolveOp g { o with lanes := o.lanes.map fun x => if ls.any fun y => y.lane == x.lane then { x with st := .walk } else x }
  else ls.zipIdx.foldl (fun s e =>
    match (s.group? g).bind fun G => G.op? o.id with
    | none => s
    | some o =>
      match hs.find? fun h => h.1.lane == e.1.lane with
      | some h => let r := s.memLane g G b o h.1 h.2; r.2.afterLanes g (o.putLane r.1)
      | none => s.homeLane g c o e.1 (remOf rem e.2)) s

/-- ATOMIC_AT_HOME: the lowest waiting lane of an ATOM or CXCH, or a whole CLDR. An atomic whose home is DOWN is lost and faults
(R331). -/
def atomicAtHomeF (g op lane : Nat) (rem : Option Nat) (s : State) : State :=
  match s.group? g with
  | none => s
  | some G =>
    match G.op? op, s.block? G.geo.bid with
    | some o, some b =>
      match o.first OpLane.atHome with
      | none => s
      | some l =>
        if isLoad o.instr || l.lane != lane then s
        else match o.instr with
          | .cldr .. => s.cldr g G b o rem
          | _ => s.atHomes g G b o l rem
    | _, _ => s
def execAtomicAtHome (g op lane : Nat) (rem : Option Nat) (s : State) : Ans := .next (atomicAtHomeF g op lane rem s)

/-- VAULT_ACCESS: one lane of a load, store or atomic that does not go through L1. -/
def vaultF (g op lane : Nat) (rem : Option Nat) (s : State) : State :=
  match s.group? g with
  | none => s
  | some G =>
    match G.op? op, s.block? G.geo.bid with
    | some o, some b =>
      match o.first fun l => l.atVault && l.lane == lane with
      | none => s
      | some l => s.atHomes g G b o l rem
    | _, _ => s
def execVaultAccess (g op lane : Nat) (rem : Option Nat) (s : State) : Ans := .next (vaultF g op lane rem s)

end Sys2Proof.Machine
end

