-- ==== Sys2Proof/Machine/Fabric.lean ====
section
/-! DEFINITION. The fabric as one device sees it (R326–R332), accesses that arrive from other devices and their replay (R363,
R364), and hosts (R338). -/

namespace Sys2Proof.Machine

/-! ### Accesses that arrive (R258, R259, R363) -/

/-- An access size of the fabric, with the alignment it needs. -/
def reqOk (r : HostReq) : Bool := [1, 2, 4, 8, 16].contains r.size && r.addr % r.size == 0

def State.answer (s : State) (kind dst val : Nat) : State :=
  { s with fab := { s.fab with out := s.fab.out ++ [(⟨kind, dst, val⟩ : Answer)] } }

/-- ORD and SCOPE as a trace record holds them: ORD in <4:3>, SCOPE in <2:0> (log 44). -/
def ordScope (ord scope : Nat) : Nat := ord % 4 * 8 + scope % 8

/-- What an atomic that arrives leaves (R218). -/
def reqNew (r : HostReq) (old : Nat) : Nat :=
  match r.op with
  | some (some op) => atomNew op r.size old (r.cmp % 2 ^ (8 * r.size)) (r.data % 2 ^ (8 * r.size))
  | _ => r.data % 2 ^ (8 * r.size)

/-- A load, store or atomic performed at its home: the value that stood there, the state after it, its WCT. The value of a home on another
device comes with the event, above bit 127 of `data` (log 133). -/
def State.performReq (s : State) (r : HostReq) : Nat × State × Nat :=
  let a := canon r.addr
  let old := if s.isLocal a then s.homeRead a r.size else r.data / 2 ^ 128 % 2 ^ (8 * r.size)
  let s1 := s.countHit a
  match r.op with
  | none => (old, s1, s.tick)
  | some _ => (old, s1.homeWrite a r.size (reqNew r old) true, s.wctOf a true)

/-- An access of another device, in a flit or from the injector. It waits while its line moves (R205). A read of a whole line is a fill, which takes the lease whose
class `cmp` names (R258); a write of any length is performed line by line. A write of another device's memory is what that line's home
tells of it: it triggers the watches on the line here (R223, log 133). -/
def State.arrive (s : State) (r : HostReq) : State :=
  let a := canon r.addr
  if !s.isLocal a then (if paSpace a == 0 && r.op.isSome then s.trigger (lineOf a) else s)
  else if !s.drained a then s
  else match r.op with
  | none =>
    if r.size = 128 then
      (s.countHit a).setHome (lineOf a) ⟨max (s.lxOf (lineOf a)) (s.leaseEnd r.cmp), (s.homeLine (lineOf a)).wt, (s.homeLine (lineOf a)).held⟩
        |>.answer 0 r.host (s.homeRead (lineOf a) 128)
    else s.answer 0 r.host (s.homeRead a r.size)
  | some none =>
    let s1 := s.homeWriteN a (natBytes r.size r.data)
    s1.recordData 7 r.host a (ordScope r.ord r.scope) r.size r.data
  | some (some _) =>
    if !reqOk r then s
    else
      let q := s.performReq r
      (q.2.1.recordData 7 r.host a (ordScope r.ord r.scope) r.size (reqNew r q.1)).answer 0 r.host q.1

/-! ### Hosts (R338, R366) -/

/-- Whether a host's request has to wait: a release for the acknowledgements of the host's earlier writes (R338), any access for its
line's move (R205). -/
def State.hostWaits (s : State) (r : HostReq) : Bool :=
  s.sys.phase == 6 && ((2 ≤ r.ord && r.op.isSome && (s.fab.hosts.any fun h => h.host == r.host)) || !s.drained (canon r.addr))

/-- HOST_ACCESS. Before READY a host reads the identity window and nothing else; every access is at system scope, and a read takes no
lease. A write that is performed on this device is recorded (R363). -/
def hostAccessF (r : HostReq) (s : State) : State :=
  let a := canon r.addr
  if paSpace r.addr == 4 && paDev r.addr == s.dev && r.op.isNone && reqOk r && decide (0x3000 ≤ paOff r.addr) &&
      decide (paOff r.addr + r.size ≤ 0x3200) then s.answer 0 r.host (s.cfgRead (paOff r.addr) r.size)
  else if s.sys.phase != 6 || paSpace a != 0 || !s.addrOk a || !reqOk r then s.answer 2 r.host 0
  else if s.hostWaits r then s
  else
    let q := s.performReq r
    match r.op with
    | none => q.2.1.answer 0 r.host q.1
    | some o =>
      let p : HostPend := ⟨s.nextId, r.host, q.2.2, if o.isSome then q.1 else 0⟩
      let s1 := q.2.1.fresh
      let s2 := { s1 with fab := { s1.fab with hosts := s1.fab.hosts ++ [p] } }
      if s.isLocal a then s2.recordData 6 r.host a (ordScope r.ord 4) r.size (reqNew r q.1) else s2
def execHostAccess (r : HostReq) (s : State) : Ans := .next (hostAccessF r s)

/-- HOST_WRITE_ACK: the home acknowledges a host's write at its WCT. -/
def hostWriteAckF (i : Nat) (s : State) : State :=
  match s.fab.hosts.find? fun h => h.id == i with
  | none => s
  | some h =>
    if s.tick < h.wct then s
    else ({ s with fab := { s.fab with hosts := s.fab.hosts.filter fun x => x.id != i } }).answer 1 h.host h.val
def execHostWriteAck (i : Nat) (s : State) : Ans := .next (hostWriteAckF i s)

/-! ### Ports and liveness (R327, R328, R331) -/

/-- A port that the torus does not use, or that no link joins: its dimension has size 1 (R326). -/
def State.portUnused (s : State) (p : Nat) : Bool := decide (p < 6) && (s.neighbour p).isNone

/-- What a packet brings: a host's request on an edge port, another device's access on a torus port, which the injector's run
discards (R364) and which a device that is not READY refuses (R366). -/
def State.deliver (s : State) (p : Nat) (r : HostReq) : State :=
  if 6 ≤ p then hostAccessF r s
  else if s.tr.rgo then s
  else if s.sys.phase != 6 then s.answer 2 r.host 0
  else s.arrive r

/-- A packet that cannot be served yet: its flit waits in the port's buffer. -/
def State.flitWaits (s : State) (p : Nat) (f : Flit) : Bool :=
  f.arrive.any fun r => if 6 ≤ p then s.hostWaits r else s.sys.phase == 6 && !s.tr.rgo && !s.drained (canon r.addr)

/-- FLIT_RECEIVE: a flit whose CRC fails is dropped and counted, and the link partner replays it and every later flit: those that come
before its replay are not taken (log 123). A flit of an unused TYPE is dropped and counted. Any other returns its credits, and the
packet it completes is delivered. -/
def flitF (p : Nat) (f : Flit) (s : State) : State :=
  let q := s.port p
  let seq := f.hdr % 2 ^ 16
  if 8 ≤ p || q.lanes == 0 || s.portUnused p then s
  else
    let s0 := match s.neighbour p with
      | some d => { s with fab := { s.fab with lastFlit := SMap.put s.fab.lastFlit d s.tick } }
      | none => s
    let drops := (q.drops + 1) % 2 ^ 32
    if !f.crcOk then s0.setPort p { q with drops := drops, gap := some ((q.gap).getD ((q.seq + 1) % 2 ^ 16)) }
    else if q.gap.any fun n => n != seq then s0
    else
      let q := { q with seq := seq, gap := none, replays := (q.replays + q.gap.isSome.toNat) % 2 ^ 32 }
      if 6 ≤ f.hdr / 2 ^ 28 % 16 then s0.setPort p { q with drops := drops }
      else if s.flitWaits p f then s
      else
        let s1 := s0.setPort p { q with credits := q.credits + f.hdr / 2 ^ 16 % 2 ^ 9 }
        match f.arrive with
        | none => s1
        | some r => s1.deliver p r
def execFlitReceive (port : Nat) (f : Flit) (s : State) : Ans := .next (flitF port f s)

/-- LINK_TRAINING: `n` lanes of a port work. -/
def linkTrainingF (p n : Nat) (s : State) : State := (s.setPort p { s.port p with lanes := lanesOf n }).linksDown
def execLinkTraining (port lanes : Nat) (s : State) : Ans := .next (linkTrainingF port lanes s)

/-- LIVENESS_TIMEOUT: a link partner has sent no flit for 65,536 ticks: this device sees that by its own port, and the event says it of the
partner's others (R331, log 143). -/
def livenessTimeoutF (d : Nat) (s : State) : State :=
  if d < 512 && d != s.dev && s.fab.live.testBit d && ((List.range 6).any fun p => s.neighbour p == some d) &&
      decide (SMap.getD s.fab.lastFlit d 0 + 65536 ≤ s.tick) then s.setLive d false
  else s
def execLivenessTimeout (d : Nat) (s : State) : Ans := .next (livenessTimeoutF d s)

/-- LIVENESS_UPDATE: a change that another device found reaches this one. -/
def livenessUpdateF (d : Nat) (up : Bool) (s : State) : State := if d < 512 && d != s.dev then s.setLive d up else s
def execLivenessUpdate (d : Nat) (up : Bool) (s : State) : Ans := .next (livenessUpdateF d up s)

/-! ### The replay injector (R364) -/

/-- What an ARRIVE record stands for: an access of its source device, or up to 32 bytes of the collective term whose address it names,
which wait for their operation where no member here has issued it (log 122). -/
def State.inject (s : State) (r : HostReq) : State :=
  if paSpace r.addr != 5 then s.arrive r
  else
    let bs := (natBytes r.size r.data).map BitVec.toNat
    match s.eng.colls.findSome? fun c =>
        (c.members.zipIdx.find? fun x => x.1 / 1024 != s.dev && termAddr c x.2 == r.addr).map fun x => (c, x.2) with
    | some (c, member) =>
      match c.outcome with
      | none => s.collTake c member bs
      | some o => if o.1 = 0 then s else s.lateUp
    | none => { s with eng := { s.eng with early := s.eng.early ++ [(r.addr, bs)] } }

/-- INJECT_RECORD: the next record's access is performed as if it came from its source device; records of another KIND are
skipped; after the last the part clears RGO. -/
def injectF (s : State) : State :=
  if !s.tr.rgo then s
  else if s.tr.rcount ≤ s.tr.rdone then { s with tr := { s.tr with rgo := false } }
  else
    let b := s.homeBytes (s.tr.rbase / 64 * 64 + 64 * s.tr.rdone) 64
    let n := leAt b 9 1
    let r : HostReq := ⟨leAt b 0x0A 2, leAt b 0x10 8, n, leAt b 0x18 8 / 8 % 4, leAt b 0x18 8 % 8, some none, leAt b 0x20 32 % 2 ^ (8 * n), 0⟩
    let s1 := if leAt b 8 1 = 7 then s.inject r else s
    let d := s.tr.rdone + 1
    if leAt b 8 1 = 7 && !s.drained (canon r.addr) then s else
    { s1 with tr := { s1.tr with rdone := d, rgo := decide (d < s.tr.rcount) } }
def execInjectRecord (s : State) : Ans := .next (injectF s)

end Sys2Proof.Machine
end

