-- ==== Sys2Proof/Machine/Observe.lean ====
section
/-! DEFINITION. Observation (R185, R359–R362, R365): blame samples, lane-cycle counters, the debug stop, the scrubber. -/

namespace Sys2Proof.Machine

/-! ### Blame (R361) -/

/-- The lowest flag of a clause's wait mask that is set. -/
def Group.waitsOn (G : Group) (K : Gang) : Option Nat :=
  (bitsOf (((K.clause).map (·.hdr)).getD 0) 12).find? fun f => G.flag f != 0

/-- The gangs of a core in WAITFLAG: group, gang, first slice on the core. One whose flags are all clear is READY (R40), and a group
that does not run has none. -/
def State.flagWaiters (s : State) (c : Nat) : List (Nat × Gang × Nat) :=
  (s.groups.filter fun e => e.2.geo.core == c && s.groupRuns e.2).flatMap fun e =>
    (e.2.gangs.filter fun K => K.st == .waitFlag && (e.2.waitsOn K).isSome).map fun K => (e.1, K, e.2.geo.slice0 + lowBit K.slices)

/-- The waiter whose first slice comes first from slice `from_` on. -/
def nextWaiter (from_ : Nat) : List (Nat × Gang × Nat) → Option (Nat × Gang × Nat)
  | [] => none
  | w :: ws =>
    match nextWaiter from_ ws with
    | none => some w
    | some v => if (v.2.2 + 16 - from_) % 16 < (w.2.2 + 16 - from_) % 16 then some v else some w

/-- The address of the long-latency instruction counted against a flag that issued last and is outstanding. -/
def State.producer (s : State) (g : Nat) (G : Group) (f : Nat) : Nat :=
  let a := (G.ops.filter fun o => o.flag == some f && !o.completed).map fun o => (o.id, o.pc)
  let b := (s.eng.ops.filter fun e => e.gid == g && e.flag == some f).map fun e => (e.id, e.pc)
  ((a ++ b).foldl (fun (m : Nat × Nat) x => if m.1 ≤ x.1 then x else m) (0, 0)).2

/-- BLAME_SAMPLE: once in every 2^BINT ticks, while BLAME and TEN are set. `Core.blame` is the slice from which the next sample looks. -/
def blameF (c : Nat) (s : State) : State :=
  if !s.ten || !bit s.tr.tctl 2 || s.tick % 2 ^ fld s.tr.tctl 15 8 != 0 || (s.core c).blamed == s.tick + 1 then s
  else
    match nextWaiter (s.core c).blame (s.flagWaiters c) with
    | none => s
    | some (g, K, sl) =>
      match s.group? g with
      | none => s
      | some G =>
        let f := (G.waitsOn K).getD 0
        (s.traceRec 1 f c K.pc (s.producer g G f) 0).onCore c fun k => { k with blame := (sl + 1) % 16, blamed := s.tick + 1 }
def execBlameSample (c : Nat) (s : State) : Ans := .next (blameF c s)

/-! ### Lane-cycle counters (R362) -/

/-- At the end of a tick every slice of every core that has issued nothing counts as IDLE, while LCEN is set. -/
def State.countIdle (s : State) : State :=
  let s1 := if !s.lcen then s else (List.range 1024).foldl (fun (s : State) c =>
    s.addLc c none 4 (64 - 4 * (bitsOf (SMap.getD s.tr.busy c 0) 16).length)) s
  { s1 with tr := { s1.tr with busy := [] } }

/-! ### Debug stop (R365) -/

/-- The tick is the one at which the device has been told to stop. -/
def State.stopDue (s : State) : Bool := s.sys.arm && s.sys.life == 3 && s.tick == s.sys.stopTick && !s.sys.stopped

/-- DEBUG_STOP: at STOPTICK a STOP record is written, then every clock domain is gated. The stop is no longer armed (log 45). -/
def debugStopF (s : State) : State :=
  if !s.stopDue then s
  else
    let s1 := s.traceRec 2 0 0 0 0 0
    { s1 with sys := { s1.sys with stopped := true, arm := false } }
def execDebugStop (s : State) : Ans := .next (debugStopF s)

/-- What begins a tick: writes of special registers take effect, and blame samples fall due, which are the next steps (R149, R361). -/
def State.beginTick (s : State) : State :=
  let s1 := s.groups.foldl (fun (s : State) e => s.dueWrites e.1)
    { s with groups := s.groups.map fun e => (e.1, { e.2 with stuck := 0 }) }
  if s1.ten && bit s1.tr.tctl 2 && s1.tick % 2 ^ fld s1.tr.tctl 15 8 == 0 then
    { s1 with agenda := (s1.cores.map fun e => some (.blameSample e.1)) ++ s1.agenda }
  else s1

/-- DEBUG_RESTART: the tick of the stop begins. -/
def debugRestartF (s : State) : State := if s.sys.stopped then State.beginTick { s with sys := { s.sys with stopped := false } } else s
def execDebugRestart (s : State) : Ans := .next (debugRestartF s)

/-! ### The scrubber (R185) -/

/-- Marks an uncorrectable word of a role of the pool. -/
def State.poisonWord (s : State) (c : Nat) (w : PoolWord) (bad : W64) : State :=
  let put (k : Nat) : State := s.onCore c fun x => { x with poison := SMap.put x.poison k bad }
  match w with
  | .reg g lane row =>
    s.onGroup g fun G =>
      if G.geo.core = c then
        G.onLanes (2 ^ lane) fun _ L => if (SMap.get? L.regs row).isSome then { L with bad := SMap.put L.bad row bad } else L
      else G
  | .sp off => put (2 ^ 32 + off / 8)
  | .ca line word => put (caWord (line + 8 * word))
  | .mx line word => put (2 ^ 50 + line * 16 + word)
  | .mem a => { s with ms := { s.ms with bad := SMap.put s.ms.bad (a / 8) bad } }

def memWord : PoolWord → Bool | .mem _ => true | _ => false

/-- The region whose log takes KIND 3 records: the root supervisor's. -/
def State.rootRegion (s : State) : Option Region := (SMap.vals s.regions).find? fun r => r.live && r.chain.isEmpty

/-- The pool address of a word, in words from bank 0 (R187). Where the register file keeps a lane's row is open: the event says
(log 120). -/
def State.poolAddr (s : State) (c : Nat) (w : PoolWord) (paddr : Nat) : Nat :=
  match w with
  | .reg .. => paddr
  | .sp off => (s.core c).qAt 0 * 4096 + off / 8
  | .ca line word => (s.core c).caPoolWord (line + 8 * word)
  | .mx line word => line * 16 + word
  | .mem a => a / 8

/-- SCRUB: a word that can be corrected is as it was, and is counted; one that cannot is poisoned, and a KIND 3 record names it. The
record's RCB is the root supervisor's, and its block, group and FAULTPC are 0: the spec gives FAULTADDR and CAUSE (log 121). A word of
memory is no pool word, and has no record (log 137). -/
def scrubF (c : Nat) (w : PoolWord) (paddr : Nat) (bad : W64) (s : State) : State :=
  if bad = 0 then s.onCore c fun k => { k with corrected := k.corrected + 1 }
  else
    let s1 := s.poisonWord c w bad
    if memWord w then s1 else
    let r := s.rootRegion
    let rec_ := faultRec s.tick ((r.map (·.addr)).getD 0) 0 (s.poolAddr c w paddr) 0 0x0E (s.dev * 1024 + c) 0 0 3 0 0 0 0 0
    match s1.logOf ((r.map fun r => [r.addr]).getD []) with
    | some l => s1.logWrite l rec_
    | none => s1.orphan c 0 ((r.map (·.addr)).getD 0)
def execScrub (c : Nat) (w : PoolWord) (paddr : Nat) (bad : W64) (s : State) : Ans := .next (scrubF c w paddr bad s)

end Sys2Proof.Machine
end

