-- ==== Sys2Proof/Machine/Maint.lean ====
section
/-! DEFINITION. Cache maintenance and page attributes (R212, R237, R238, R263), and LONG_LATENCY_COMPLETE (R74). -/

namespace Sys2Proof.Machine

/-! ### CWB and CINV (R237) -/

/-- The parts of a range that lie in one granule each, as the core's cache translates them: virtual and physical address, bytes. GS pages
are skipped. -/
def State.rangePas (s : State) (c root va n : Nat) : List (Nat × Nat × Nat) :=
  (granulesOf va n).filterMap fun p =>
    (s.tlbLeaf c root p.1).bind fun l => if pteGS l.pte then none else (s.leafPAC c l p.1).map fun pa => (p.1, pa, p.2)

/-- CWB and CINV at issue: the pages are translated as for a load, and the operation keeps their physical addresses; aperture addresses
name no line (log 36). -/
def maintF (i : Instr) (h : Hd) (a b : Reg) (s : State) : State :=
  runUniLL i h noPre [a, b] s fun x =>
    let va := uVal x a
    let n := uVal x b
    if walkWaits x.G then s.heldAtIssue
    else
      match s.rangeFault x.G.geo.core (s.rootOf x.G) true false (s.privileged x.G) false
          ((pagesOf va n).filter fun p => !inAperture p && !(decide (2 ^ 64 ≤ p))) with
      | (some (c, v), s) => s.uniFault x (uFreed x a || uFreed x b) c v i.opc
      | (none, s) => s.startOpOn x i h va n (s.rangePas x.G.geo.core (s.rootOf x.G) va n)
def execCwb (h : Hd) (scope : BitVec 3) (a b : Reg) (s : State) : Ans := .next (maintF (.cwb h scope a b) h a b s)
def execCinv (h : Hd) (scope : BitVec 3) (a b : Reg) (s : State) : Ans := .next (maintF (.cinv h scope a b) h a b s)

/-- Whether a line meets one of the ranges. -/
def lineIn (rs : List (Nat × Nat)) (line : Nat) : Bool := rs.any fun r => decide (line < r.1 + r.2) && decide (r.1 < line + 128)

/-- The lines of L1 that CWB or CINV acts on, and the lines of its block's mappings. -/
def State.maintLines (s : State) (c : Nat) (o : Op) : List Nat :=
  ((s.core c).ca.map (·.1)).filter (lineIn ((o.lanes.filter fun l => l.y != 0).map fun l => (l.pa, l.y)))
def State.maintStash (s : State) (b : Block) (o : Op) : List (Mapping × Nat) :=
  ((s.core b.core).maps.filter fun m => m.bid == b.id).flatMap fun m =>
    ((List.range m.n).filter fun i => meets (m.base + 128 * i) 128 o.x o.y && o.y != 0).map fun i => (m, i)
/-- CWB or CINV may act: no move involves the banks (R193), no rehoming holds a write-back (R205), and the core's earlier requests to its
home are served (R325). -/
def State.maintReady (s : State) (G : Group) (o : Op) : Bool :=
  let c := G.geo.core
  ((s.maintLines c o).all fun l => !s.lineMoves c l &&
      (!(((s.core c).caLine l).any fun x => x.dirty != 0) || s.wbReady c o.id l)) &&
    ((s.block? G.geo.bid).all fun b => (s.maintStash b o).all fun e => !s.mapMoves b e.1 && s.stashReady b e.1 o.id e.2)

/-- The write-backs and drops of CWB and CINV. -/
def State.maintain (s : State) (G : Group) (drop : Bool) (scope : Nat) (o : Op) : State :=
  let c := G.geo.core
  let rs := (o.lanes.filter fun l => l.y != 0).map fun l => (l.pa, l.y)
  let s1 := (s.maintLines c o).foldl (fun s l =>
    let s := s.writeBack c l
    if drop then s.onCore c fun k => k.caDrop l else s) s
  let s2 := match s1.block? G.geo.bid with
    | none => s1
    | some b =>
      (s1.maintStash b o).foldl (fun s e =>
        let s := (s.wbStashLine b e.1 e.2).1
        if drop && !e.1.copyIn then
          s.onCore c fun k => match k.maps.find? fun x => x.id == e.1.id with
            | some x => k.setMap (x.setLine e.2 { x.line e.2 with present := false })
            | none => k
        else s) s1
  if drop && scope == 4 then
    { s2 with ms := { s2.ms with far := s2.ms.far.filter fun e => !lineIn rs e.1 } }
  else s2

/-! ### Completion (R74) -/

/-- LONG_LATENCY_COMPLETE: results of a lane memory operation land in the lanes of a mask that are bound, but not while a move involves
the register banks (R193), and the write-backs of CWB and CINV are performed once they may be. -/
def longLatencyF (g op : Nat) (lanes : LaneMask) (s : State) : State :=
  match s.group? g with
  | none => s
  | some G =>
    match G.op? op with
    | none => s
    | some o =>
      match o.instr with
      | .cwb _ sc _ _ => if !s.maintReady G o then s else (s.maintain G false sc.toNat o).onGroup g fun G => G.endOp o
      | .cinv _ sc _ _ => if !s.maintReady G o then s else (s.maintain G true sc.toNat o).onGroup g fun G => G.endOp o
      | _ =>
        if o.kind = .mem ∧ !(s.core G.geo.core).regsMove ∧ o.lanes.any (fun l => l.st.isBound && lanes.toNat.testBit l.lane) then s.landLanes g o lanes.toNat
        else s
def execLongLatencyComplete (g op : Nat) (lanes : LaneMask) (s : State) : Ans := .next (longLatencyF g op lanes s)

/-! ### ATTR (R238, R263) -/

/-- The pages of [va, e) with their leaf entries, or the first failing page. `chg` says that entries change: an unmapped page is then
refused, and with `gs` a GS page. ATTR.inv takes an unmapped page, whose entry R212 has it remove (log 105). -/
def State.attrPages (s : State) (c root e : Nat) (chg gs : Bool) :
    Nat → Nat → List (Nat × Option Leaf) → (Option (Nat × Nat)) × List (Nat × Option Leaf)
  | 0, _, acc => (none, acc)
  | n + 1, va, acc =>
    if e ≤ va then (none, acc)
    else if 2 ^ 55 ≤ va then (some (0x04, va), acc)
    else
      match s.walk c root va with
      | none =>
        if chg then (some (0x04, va), acc) else State.attrPages s c root e chg gs n ((va / 2 ^ 16 + 1) * 2 ^ 16) (acc ++ [(va, none)])
      | some l =>
        if gs && pteGS l.pte then (some (0x06, va), acc)
        else State.attrPages s c root e chg gs n (l.page + 2 ^ l.bits) (acc ++ [(va, some l)])

/-- Replaces `w` bits from bit `p` of an entry. -/
def setField (x p w v : Nat) : Nat := x / 2 ^ (p + w) * 2 ^ (p + w) + v % 2 ^ w * 2 ^ p + x % 2 ^ p

/-- Places in a 4 KiB granule at which an entry for a page of a range stands, at some level of some table (R208). Ranges of 2^26 bytes
have them all. -/
def entryPlaces (va n : Nat) : List Nat :=
  ((pagesOf va (min n (2 ^ 26))).flatMap fun p => [p / 2 ^ 16 % 512, p / 2 ^ 29 % 512, p / 2 ^ 42 % 512]).eraseDups
/-- Takes every entry out of a core's cache that could translate a page of a range, whichever tables lead to it and whether or not they
are cached themselves (R212). -/
def Core.tlbDrop (k : Core) (va n : Nat) : Core :=
  let ps := entryPlaces va n
  { k with tlb := k.tlb.filter fun e => !ps.contains (e.1 / 8 % 512) }

/-- Takes the range's entries out of every cache of the device (R212), and the CP owners of changed pages (R263). -/
def State.attrEnd (s : State) (chg : Bool) (va n : Nat) (ps : List (Nat × Option Leaf)) : State :=
  let s1 := { s with cores := s.cores.map fun e => (e.1, e.2.tlbDrop va n) }
  if chg then { s1 with ms := { s1.ms with cp := (ps.filterMap (·.2)).foldl (fun m l => SMap.del m (ptePA l.pte)) s1.ms.cp } } else s1

/-- R177: the handler holds the privilege of WSPILL, WFILL and ATTR. -/
def privPre (s : State) : Pre := fun x => if x.G.handler.isSome || s.privileged x.G then none else some (0x11, false)

/-- ATTR: `fld` is the field's place and width and its new value; none for ATTR.inv. -/
def attrF (i : Instr) (h : Hd) (f : Option (Nat × Nat × Nat)) (a b : Reg) (s : State) : State :=
  runUni i h (privPre s) [a, b] s fun x =>
    let c := x.G.geo.core
    let root := s.rootOf x.G
    let va := uVal x a
    let n := uVal x b
    if walkWaits x.G then s.heldAtIssue
    else if f.isSome && !releaseReady s x.g x.G x.K.slices 3 then s.waitWct x
    else
      let gs := match f with | some (p, _, v) => p == 12 && v != 2 | none => false
      let r := s.attrPages c root (va + n) f.isSome gs ((pagesOf va n).length + 1) va []
      match r.1 with
      | some (cause, addr) => s.uniFault x (uFreed x a || uFreed x b) cause addr 0xCD
      | none =>
        let ls : List Leaf := r.2.filterMap fun p => p.2
        if f.isSome && ls.any fun l => !s.wbReady c s.nextId (lineOf l.slot) || s.lineMoves c l.slot then s.heldAtIssue
        else
        let s1 := match f with
          | none => s
          | some (p, w, v) => ls.foldl (fun (s : State) (l : Leaf) =>
              let s := (s.writeBack c (lineOf l.slot)).onCore c fun k => k.caDrop (lineOf l.slot)
              (s.homeWrite l.slot 8 (setField l.pte p w v) true).raiseWct x.g (s.wctOf l.slot true)) s
        let s2 := s1.attrEnd f.isSome va n r.2
        match s2.group? x.g with
        | some G => s2.doneP x h (G.stickIf (uFreed x a || uFreed x b) freedBit)
        | none => s2
def execAttrInv (h : Hd) (a b : Reg) (s : State) : Ans := .next (attrF (.attrInv h a b) h none a b s)
def execAttrCc (h : Hd) (v : BitVec 2) (a b : Reg) (s : State) : Ans :=
  .next (attrF (.attrCc h v a b) h (some (6, 2, v.toNat)) a b s)
def execAttrCpol (h : Hd) (v : BitVec 2) (a b : Reg) (s : State) : Ans :=
  .next (attrF (.attrCpol h v a b) h (some (12, 2, v.toNat)) a b s)
def execAttrLc (h : Hd) (v : BitVec 2) (a b : Reg) (s : State) : Ans :=
  .next (attrF (.attrLc h v a b) h (some (10, 2, v.toNat)) a b s)

end Sys2Proof.Machine
end

