-- ==== Sys2Proof/Machine/Ucode.lean ====
section
/-! DEFINITION. Device macros (R91, R92, R158–R160), loadable table pairs (R106, R163) and the moves of the register stack
(R58, R60, R169). -/

namespace Sys2Proof.Machine

/-- No operation of the core older than o passes a test: completions that keep issue order (R159, R163). -/
def firstOnCore (s : State) (c : Nat) (o : Op) (p : Op → Bool) : Bool :=
  !((SMap.vals s.groups).any fun G => G.geo.core == c && G.ops.any fun e => decide (e.id < o.id) && p e)

/-! ### MDEF -/

def Op.isMdef (slot : Nat) (o : Op) : Bool := match o.instr with | .mdef _ k _ _ => k.toNat == slot | _ => false
/-- R159: the slot is LOADING. -/
def State.loading (s : State) (c slot : Nat) : Bool :=
  (SMap.vals s.groups).any fun G => G.geo.core == c && G.ops.any (Op.isMdef slot)

def mdefF (h : Hd) (slot n : BitVec 6) (a : Reg) (s : State) : State :=
  runUniLL (.mdef h slot n a) h noPre [a] s fun x =>
    s.uniIssue x (uFreed x a) 0x9C (uVal x a) (4 * n.toNat) 4 true false fun s _ _ =>
      s.startOp x (.mdef h slot n a) h (uVal x a) n.toNat
def execMdef (h : Hd) (slot n : BitVec 6) (a : Reg) (s : State) : Ans := .next (mdefF h slot n a s)

/-- MDEF_COMPLETE: body and tag are replaced in one step. -/
def mdefCompleteF (g op : Nat) (s : State) : State :=
  match (s.group? g).bind fun G => G.op? op with
  | none => s
  | some o =>
    match o.instr with
    | .mdef _ slot n _ =>
      let c := ((s.group? g).map (·.geo.core)).getD 0
      if !firstOnCore s c o (Op.isMdef slot.toNat) then s
      else s.uniLate g o [(o.x, 4 * n.toNat)] true false fun s G _ ps =>
        let bs := s.uniBytes c ps.flatten
        let tag := ((s.regionOf G).map (·.addr)).getD 0
        (s.onCore c fun k =>
          { k with wcs := SMap.put k.wcs slot.toNat ⟨(List.range n.toNat).map fun i => leAt bs (4 * i) 4, tag⟩ }).putGroup g (G.endOp o)
    | _ => s
def execMdefComplete (g op : Nat) (s : State) : Ans := .next (mdefCompleteF g op s)

/-! ### MACRO -/

/-- The uniform instructions that a body may hold (R91). -/
def bodyUni : Instr → Option (State → State)
  | .nop h => some (nopF h)
  | .uadd h d a b => some (uniAlu (.uadd h d a b) h d a b fun x y => (x + y) % 2 ^ 64)
  | .usub h d a b => some (uniAlu (.usub h d a b) h d a b fun x y => (x + 2 ^ 64 - y) % 2 ^ 64)
  | .umul h d a b => some (uniAlu (.umul h d a b) h d a b fun x y => x * y % 2 ^ 64)
  | .uand h d a b => some (uniAlu (.uand h d a b) h d a b fun x y => x &&& y)
  | .uor h d a b => some (uniAlu (.uor h d a b) h d a b fun x y => x ||| y)
  | .uxor h d a b => some (uniAlu (.uxor h d a b) h d a b fun x y => x ^^^ y)
  | .ushl h d a b => some (uniAlu (.ushl h d a b) h d a b (shlE 64))
  | .ushr h d a b => some (uniAlu (.ushr h d a b) h d a b (shrE 64))
  | .usar h d a b => some (uniAlu (.usar h d a b) h d a b (sarE 64))
  | .umin h d a b => some (uniAlu (.umin h d a b) h d a b (sMin 64))
  | .umax h d a b => some (uniAlu (.umax h d a b) h d a b (sMax 64))
  | .ucmp h c pd a b => some (ucmpF h c pd a b)
  | .umov h d b => some (umovF h d b)
  | .rdfl h d a => some (rdflF h d a)
  | .monitor h a => some (monitorF h a)
  | .pqry h d a => some (pqryF h d a)
  | .tick h d => some (tickF h d)
  | .attrInv h a b => some (attrF (.attrInv h a b) h none a b)
  | _ => none

/-- What a body word does, issued by the gang on its port. -/
def bodyRun (s : State) (i : Instr) : State :=
  match bodyUni i with
  | some f => f s
  | none =>
    match cur s with
    | none => s
    | some x =>
      match laneOpOf (s.core x.G.geo.core) x.G i with
      | some op => runLane op s
      | none => s

/-- A fault within a body is the MACRO's (R92): its events carry the MACRO's opcode. -/
def Group.macroEvs (G : Group) (n0 n1 : Nat) : Group :=
  { G with
    evs := G.evs.take n0 ++ (G.evs.drop n0).map fun e => { e with opc := 0x9B }
    ops := G.ops.take n1 ++ (G.ops.drop n1).map fun o => if o.kind = .alu then { o with y := 0x9B } else o }

/-- R92, step 3: the words in order; the gang stays at the MACRO until the last has run, and stops there on a fault. Lane cycles count
word by word, at the MACRO's address (R362). -/
def bodyLoop (g k : Nat) (K0 : Gang) (ports : List (Nat × Nat)) : List Instr → State → State
  | [], s => s
  | i :: is, s =>
    let n := ((s.group? g).map fun G => (G.evs.length, G.ops.length)).getD (0, 0)
    let s1 := (bodyRun s i).onGroup g fun G => G.macroEvs n.1 n.2
    match (s1.group? g).bind fun G => G.gang? k with
    | none => s1
    | some K =>
      let s2 := (s1.onGroup g fun G => G.putGang { K with pc := K0.pc, clause := K0.clause })
      let s2 := match cur s with
        | some x => if K.st = .parked then s2 else s2.countLanes x.G { x.K with pc := K0.pc } i.hd (decide (0x80 ≤ i.opc))
        | none => s2
      if K.stopped && !K0.stopped then s2 else bodyLoop g k K0 ports is { s2 with ports := ports }

/-- The body's instructions, or none where R91 or R92 refuse a word. -/
def bodyOf (w : Wcs) (o : List Reg) : Option (List Instr) := w.body.mapM (bodyInstr o)

/-- Whether a body word would wait at issue: a transformed mean for its pair (R136), an access for the group's stores (R186). The MACRO waits
with it, since nothing comes between body words; an access that a move of banks (R193) or a change of homes (R205) could hold makes it
wait while there is one. -/
def bodyWaits (s : State) (x : Cur) (i : Instr) : Bool :=
  match i with
  | .tmacc .. | .tmred .. | .tmfin .. => tmBusy s x.G
  | .monitor .. => walkWaits x.G || (s.core x.G.geo.core).move.isSome || !s.ms.drains.isEmpty
  | .attrInv .. => walkWaits x.G
  | _ => false

def macroF (h : Hd) (slot : BitVec 6) (o : List Reg) (i : Instr) (s : State) : State :=
  runUni i h noPre [] s fun x =>
    let c := x.G.geo.core
    if s.loading c slot.toNat then s.heldAtIssue
    else
      match SMap.get? (s.core c).wcs slot.toNat with
      | none => s.trap x 0x01 0x9B
      | some w =>
        if w.tag != ((s.regionOf x.G).map (·.addr)).getD 0 then s.trap x 0x01 0x9B
        else
          match bodyOf w o with
          | none => s.trap x 0x01 0x9B
          | some is =>
            if is.any (bodyWaits s x) then s.heldAtIssue
            else
            let s1 := bodyLoop x.g x.K.id x.K s.ports is s
            match (s1.group? x.g).bind fun G => (G.gang? x.K.id).map fun K => (G, K) with
            | some (G, K) =>
              if K.stopped && !x.K.stopped then { s1 with ports := s.ports.tail }
              else { s1 with ports := s.ports }.finish ⟨x.g, G, K⟩ G (K.adv h s.tick)
            | none => s1
def execMacroOp (h : Hd) (slot : BitVec 6) (o0 o1 o2 o3 : Reg) (s : State) : Ans :=
  .next (macroF h slot [o0, o1, o2, o3] (.macroOp h slot o0 o1 o2 o3) s)

/-! ### TMLOAD -/

def tmloadF (h : Hd) (k : BitVec 2) (a : Reg) (s : State) : State :=
  runUniLL (.tmload h k a) h noPre [a] s fun x =>
    if uVal x a % 64 != 0 then s.uniFault x (uFreed x a) 0x03 (uVal x a) 0xC2
    else s.uniIssue x (uFreed x a) 0xC2 (uVal x a) 8224 64 true false fun s _ _ => s.startOp x (.tmload h k a) h (uVal x a) k.toNat
def execTmload (h : Hd) (k : BitVec 2) (a : Reg) (s : State) : Ans := .next (tmloadF h k a s)

/-- TMLOAD_COMPLETE: the pair is replaced in one step, or the image is refused (R148). -/
def tmloadCompleteF (g op : Nat) (s : State) : State :=
  match (s.group? g).bind fun G => G.op? op with
  | none => s
  | some o =>
    match o.instr with
    | .tmload _ k _ =>
      let c := ((s.group? g).map (·.geo.core)).getD 0
      if !firstOnCore s c o (Op.isTmload k.toNat) then s
      else s.uniLate g o [(o.x, 8224)] true false fun s G _ ps =>
        let img := (s.uniBytes c ps.flatten).map (BitVec.ofNat 8)
        match imgFail img with
        | some i => s.lateFault g o 0x01 (o.x + i)
        | none => (s.onCore c fun K => { K with tm := setAt K.tm k.toNat (some (imgPair img)) }).putGroup g (G.endOp o)
    | _ => s
def execTmloadComplete (g op : Nat) (s : State) : Ans := .next (tmloadCompleteF g op s)

/-! ### WSPILL and WFILL -/

/-- The gangs whose depths bound a move: the program's, while the handler runs. -/
def Group.progGangs (G : Group) : List Gang := match G.handler with | some h => h.gangs | none => G.gangs
def Group.minDepth (G : Group) : Nat := match G.progGangs with | [] => G.bottom | K :: Ks => Ks.foldl (fun m K => min m K.depth) K.depth
def Group.maxDepth (G : Group) : Nat := G.progGangs.foldl (fun m K => max m K.depth) 0

/-- The ranges of m positions from lo: data and freed bits (R60). -/
def spillRanges (G : Group) (lo m : Nat) : List (Nat × Nat) :=
  [(G.spillbase + 8 * (lo * G.geo.w), 8 * m * G.geo.w), (G.spillbase + 8 * (G.geo.w * G.geo.slim + lo), 8 * m)]

/-- Whether a move of the register stack is outstanding. -/
def Op.isWindow (o : Op) : Bool := match o.instr with | .wspill _ _ => true | .wfill _ _ => true | _ => false

/-- R60: a move of m positions that the stack does not allow. -/
def windowBad (G : Group) (spill : Bool) (m : Nat) : Bool :=
  if spill then decide (G.minDepth < G.bottom + m) || decide (G.geo.slim < G.bottom + m)
  else decide (G.bottom < m) || decide (G.bottom - m + G.geo.cap < G.maxDepth + 24)

/-- A move at issue, from position lo: ILLEGAL, then PRIV, then the addresses; it waits for an earlier move. -/
def windowF (i : Instr) (h : Hd) (spill : Bool) (m : Nat) (s : State) : State :=
  runUniLL i h (Pre.and (opIll h [] fun x => !x.G.ops.any Op.isWindow && windowBad x.G spill m) (privPre s)) [] s fun x =>
    let G := x.G
    if G.ops.any Op.isWindow then s.heldAtIssue
    else
      let lo := if spill then G.bottom else G.bottom - m
      match s.block? G.geo.bid with
      | none => s
      | some b =>
        if walkWaits G then s.heldAtIssue
        else
          match s.uniAts G b 1 (!spill) spill [] (spillRanges G lo m) with
          | ((.flt c a sub, _), s) => s.uniFault x false c a i.opc sub
          | ((.wait, _), s) => s.heldAtIssue
          | ((.ok _, _), s) => s.startOp x i h lo m
def execWspill (h : Hd) (m : BitVec 8) (s : State) : Ans := .next (windowF (.wspill h m) h true m.toNat s)
def execWfill (h : Hd) (m : BitVec 8) (s : State) : Ans := .next (windowF (.wfill h m) h false m.toNat s)

/-- The bytes of m positions from lo and of their freed bits (R60): a freed register's bytes are zero. -/
def spillBytes (G : Group) (lo m : Nat) : List Nat :=
  (List.range m).flatMap fun j => G.lanes.flatMap fun L => (natBytes 8 (L.val (posRow (lo + j)))).map BitVec.toNat
def freedBytes (G : Group) (lo m : Nat) : List Nat :=
  (List.range m).flatMap fun j =>
    (natBytes 8 (maskOf ((List.range G.geo.w).filter fun l => (G.lane l).freed (posRow (lo + j))))).map BitVec.toNat

/-- The group after its rows have been stored. -/
def Group.spilled (G : Group) (lo m : Nat) : Group :=
  { G with
    lanes := G.lanes.map fun L => (List.range m).foldl (fun L j => L.free (posRow (lo + j))) L
    bottom := lo + m }

/-- The group after its rows have been loaded. -/
def Group.filled (G : Group) (lo m : Nat) (data freed : List Nat) : Group :=
  { G with
    lanes := G.lanes.zipIdx.map fun e => (List.range m).foldl (fun L j =>
      if (leAt freed (8 * j) 8).testBit e.2 then L.free (posRow (lo + j))
      else L.set (posRow (lo + j)) (leAt data (8 * (j * G.geo.w + e.2)) 8)) e.1
    bottom := lo }

/-- WINDOW_MOVE_COMPLETE. -/
def windowMoveCompleteF (g op : Nat) (s : State) : State :=
  match s.group? g with
  | none => s
  | some G0 =>
    match G0.op? op with
    | none => s
    | some o =>
      match o.instr with
      | .wspill _ _ =>
        s.uniLate g o (spillRanges G0 o.x o.y) false true fun s G b ps =>
          let s1 := (s.uniStore b g ((ps[0]?).getD []) (spillBytes G o.x o.y)).uniStore b g ((ps[1]?).getD []) (freedBytes G o.x o.y)
          s1.onGroup g fun G => (G.spilled o.x o.y).endOp o
      | .wfill _ _ =>
        s.uniLate g o (spillRanges G0 o.x o.y) true false fun s G _ ps =>
          let bs (i : Nat) : List Nat := s.uniBytes G.geo.core ((ps[i]?).getD [])
          s.putGroup g ((G.filled o.x o.y (bs 0) (bs 1)).endOp o)
      | _ => s
def execWindowMoveComplete (g op : Nat) (s : State) : Ans := .next (windowMoveCompleteF g op s)

end Sys2Proof.Machine
end

