-- ==== Sys2Proof/Machine/Issue.lean ====
section
/-! DEFINITION. Issue (R42, R53, R71–R75, R90, R174, R193, R210, R355): which gangs a core's ports take, the fetch of a word, the
checks before an instruction runs, the start of a clause, and the internal events that are due when nothing is scheduled. -/

namespace Sys2Proof.Machine

/-! ### Whether a gang may issue -/

/-- The whole device issues: READY, not stopped, not in a tick that throttling withholds (R365–R367; log 46). -/
def State.issues (s : State) : Bool := s.sys.phase == 6 && !s.sys.stopped && decide (s.sys.throttle ≤ s.tick % 16)

/-! ### GANG_SELECT (R42, R355) -/

/-- A candidate: level, wait, first slice, slices on the core, group, gang. -/
structure Cand where
  level : Nat
  wait  : Nat
  first : Nat
  mask  : Nat
  g     : Nat
  k     : Nat
  deriving DecidableEq, Repr

/-- R355's order: level, then wait, largest first, then the lowest first slice. -/
def Cand.before (a b : Cand) : Bool :=
  decide (b.level < a.level) || (a.level == b.level && (decide (b.wait < a.wait) || (a.wait == b.wait && decide (a.first ≤ b.first))))

def Cand.insert (a : Cand) : List Cand → List Cand
  | [] => [a]
  | b :: bs => if a.before b then a :: b :: bs else b :: Cand.insert a bs

/-- The candidates of a core, in order. A gang that a port took and that was then held at issue counts its wait from that cycle, so that
it does not keep its slices from the others (R53, log 127). -/
def State.candidates (s : State) (c : Nat) : List Cand :=
  let gs := s.groups.filter fun e => e.2.geo.core == c && s.groupRuns e.2
  (gs.flatMap fun e => (e.2.gangs.filter (Gang.canIssue e.2)).map fun K =>
    (⟨s.prioOf e.2, s.tick - max K.last (K.offer - 1), e.2.geo.slice0 + lowBit K.slices, K.slices * 2 ^ e.2.geo.slice0, e.1, K.id⟩ : Cand)).foldr
      Cand.insert []

/-- The ports take gangs in order, on disjoint slices, at most `n`. -/
def takePorts (used : Nat) : Nat → List Cand → List (Nat × Nat)
  | 0, _ => []
  | _, [] => []
  | n + 1, a :: as => if used &&& a.mask != 0 then takePorts used (n + 1) as else (a.g, a.k) :: takePorts (used ||| a.mask) n as

/-- A gang that a port has taken. -/
def Group.offered (k t : Nat) (G : Group) : Group :=
  { G with gangs := G.gangs.map fun K => if K.id = k then { K with offer := t } else K }

/-- GANG_SELECT: once in a cycle a core fills its ports. -/
def gangSelectF (c : Nat) (s : State) : State :=
  if (s.core c).sel = s.tick + 1 then s
  else
    let ps := if s.issues && !(s.core c).regsMove then takePorts 0 4 (s.candidates c) else []
    let s1 := ps.foldl (fun (s : State) p => s.onGroup p.1 (Group.offered p.2 (s.tick + 1))) s
    { s1.onCore c fun k => { k with sel := s.tick + 1 } with ports := s.ports ++ ps }
def execGangSelect (c : Nat) (s : State) : Ans := .next (gangSelectF c s)

/-! ### CLAUSE_START (R71–R74, R174) -/

/-- The gang at the head of the ports stands at the header `hdr`: it traps where the header is malformed, stops or waits, or the
clause starts and the gang goes on with its first word. -/
def clauseStartF (hdr : Nat) (s : State) : State :=
  onCur s fun x =>
    let H := Header.ofWord hdr
    if x.K.clause.isSome && x.K.st != .waitFlag then s
    else match H.trap with
    | some c => s.trap { x with K := { x.K with clause := none } } c (hdr / 2 ^ 24)
    | none =>
      if x.G.pending && H.wait != 0 then s.finish x x.G { x.K with stopped := true, st := .ready, clause := none }
      else if !x.G.clear H.wait then s.finish x x.G { x.K with st := .waitFlag, clause := some ⟨hdr, 0, 0⟩ }
      else s.putGroup x.g (x.G.putGang { x.K with st := .ready, pc := x.K.pc + 4, clause := some ⟨hdr, H.len, 0⟩ })
def execClauseStart (hdr : BitVec 32) (s : State) : Ans := .next (clauseStartF hdr.toNat s)

/-! ### Fetch (R186, R208–R211) -/

/-- What a fetch of one word answers. -/
inductive Fw where
  | word (w : Nat)
  | flt (cause : Nat)
  | wait
  deriving DecidableEq, Repr

/-- The word at an address, as the core sees memory. -/
def State.fetchWord (s : State) (x : Cur) (va : Nat) : Fw × State :=
  let c := x.G.geo.core
  let root := s.rootOf x.G
  if 2 ^ 55 ≤ va then (.flt 0x04, s)
  else if ((s.tlbLeaf c root va).isNone && walkWaits x.G) || s.walkHeld c root va then (.wait, s)
  else
    match s.translate c root va with
    | (none, s) => (.flt 0x04, s)
    | (some l, s) =>
      if !pteX l.pte || (!pteU l.pte && !s.privileged x.G) then (.flt 0x05, s)
      else
        match s.leafPAC c l va with
        | none => (.flt 0x04, s)
        | some pa =>
          match s.pageFault c l.pte pa false false (s.privileged x.G) with
          | some e => (.flt e, s)
          | none =>
            if !s.addrOk pa then (.flt 0x04, s)
            else if s.isLocal pa && !s.drained pa then (.wait, s)
            else (.word (if isConfig pa then s.cfgRead (paOff pa) 4 else s.coreRead c pa 4), s)

/-! ### What an instruction reads and writes, for the holds and stop points -/

/-- The v register that a uniform instruction writes (R88). -/
def uniDest : Instr → Option Reg
  | .uadd _ d _ _ | .usub _ d _ _ | .umul _ d _ _ | .uand _ d _ _ | .uor _ d _ _ | .uxor _ d _ _ | .ushl _ d _ _
  | .ushr _ d _ _ | .usar _ d _ _ | .umov _ d _ | .umin _ d _ _ | .umax _ d _ _ | .rdfl _ d _ | .loop _ d _ | .pset _ d _
  | .pqry _ d _ | .cstat _ d _ | .rdsr _ _ d | .tick _ d => some d
  | _ => none

/-- The rows that an instruction of a gang writes in its lanes: the same in every lane, but that a lane of TMACC may fault and write
none. -/
def rowsWritten (k : Core) (G : Group) (K : Gang) (i : Instr) : List Nat :=
  match i, laneOpOf k G i with
  | .tmacc _ _ d _, _ => [rowOf K.depth d, rowOf K.depth d + 1]
  | _, some op => (op.eff G K (actMask G K op.hd) K.first).regs.map (·.1)
  | _, none =>
    match i with
    | .xrecv _ _ d => [rowOf K.depth d]
    | .call _ n _ => [posRow (K.depth + 4 * n.toNat - 1)]
    | .callr _ n _ => [posRow (K.depth + 4 * n.toNat - 1)]
    | .wfill _ m => (List.range m.toNat).map fun j => posRow (G.bottom - m.toNat + j)
    | i => (uniDest i).toList.map (rowOf K.depth) ++ (memDests i).map (rowOf K.depth)

/-- What an instruction consists of: itself, or a MACRO's body (R91, R92). -/
def State.parts (s : State) (x : Cur) (i : Instr) : List Instr :=
  match i with
  | .macroOp _ slot o0 o1 o2 o3 => ((SMap.get? (s.core x.G.geo.core).wcs slot.toNat).bind fun w => bodyOf w [o0, o1, o2, o3]).getD []
  | i => [i]

/-- The rows of an instruction or of a macro's body words. -/
def State.rowsOf (s : State) (x : Cur) (i : Instr) : List Nat :=
  (s.parts x i).flatMap fun i => rowsWritten (s.core x.G.geo.core) x.G x.K i

/-- The rows that an operation writes when it lands, and the rows it has read. -/
def Op.destRows (o : Op) : List Nat :=
  match o.instr with
  | .xrecv _ _ d => [rowOf o.depth d]
  | .pset _ d _ => [rowOf o.depth d]
  | i => if o.kind == .mem then (memDests i).map (rowOf o.depth) else []
/-- The lanes in which they are pending: a uniform operation writes every lane of its gang. -/
def Op.destLanes (o : Op) : Nat :=
  if o.kind = .uni then o.mask else maskOf ((o.lanes.filter fun l => !l.parkedB && !l.st.isLanded).map (·.lane))
def Op.srcRows (o : Op) : List Nat :=
  match o.instr with
  | .xsend _ _ a => [rowOf o.depth a.r]
  | i => if o.kind == .mem then (memReads i).map (rowOf o.depth) else []

/-- The lanes in which an instruction of a gang writes registers: those of the gang, but every lane of the group for WFILL (R169). -/
def lanesWritten (G : Group) (K : Gang) (i : Instr) : Nat := match i with | .wfill .. => 2 ^ G.geo.w - 1 | _ => K.mask

/-- R75: a pending destination of an operation lies in the lanes that an instruction writes. For a parked operation the wait is the stop of
R174, point 4: a gang with its lanes stops before the instruction, and only the handler writes there (log 47). -/
def destPending (G : Group) (lanes : Nat) (rows : List Nat) : Bool :=
  G.ops.any fun o => lanes &&& o.destLanes != 0 && o.destRows.any rows.contains

/-- R52: the instructions that need the whole group, by opcode byte. -/
def opcWhole (o : Nat) : Bool :=
  o == 0x5F || o == 0x60 || o == 0x9D || o == 0xA1 || (decide (0xA3 ≤ o) && decide (o ≤ 0xC0)) || (decide (0xC3 ≤ o) && decide (o ≤ 0xC5))

/-- The target of a branch that would be taken (R48, R59, R151–R153). -/
def takenTo (x : Cur) (i : Instr) : Option Nat :=
  let g := uniGuard x.G x.K i.hd
  let lanes := bitsOf x.K.mask 64
  let goes (c : Bool) (off : BitVec 24) : Option Nat := if g && c then some (wordTarget x.K.pc 24 off.toNat) else none
  match i with
  | .br _ off => goes true off
  | .brc _ c a off => goes (zCond c (uVal x a)) off
  | .brany _ p off => goes (lanes.any fun l => (x.G.lane l).pred p) off
  | .brall _ p off => goes (lanes.all fun l => (x.G.lane l).pred p) off
  | .loop _ d off => goes (decide (1 < uVal x d)) off
  | .call _ _ off => goes true off
  | .jmpr _ a => if g then some (uVal x a) else none
  | .callr _ _ a => if g then some (uVal x a) else none
  | .ret _ => if g then some ((x.G.lane x.K.first).val (posRow (x.K.depth - 1)) % 2 ^ 55) else none
  | .brp h p tgt _ =>
    if (bitsOf (actMask x.G x.K h) 64).any fun l => (x.G.lane l).pred p then some (wordTarget x.K.pc 12 tgt.toNat) else none
  | _ => none

/-- The parked operations of a gang: those with a parked lane in its slices. -/
def gangParked (G : Group) (K : Gang) : List Op :=
  G.ownOps.filter fun o => o.lanes.any fun l => l.parkedB && K.slices.testBit (l.lane / 4)

/-- The instructions of R174's point 3, by opcode byte. -/
def opcOrdered (o : Nat) : Bool := (decide (0x52 ≤ o) && decide (o ≤ 0x60)) || o == 0xA0 || o == 0x9E || opcWhole o

/-- R174: whether the gang stops before this instruction. A MACRO stops where a word of its body would: `is` are its words, or the
instruction itself. -/
def stopPoint (x : Cur) (i : Instr) (is : List Instr) (rows : List Nat) : Bool :=
  x.G.pending &&
    let o := i.opc
    let ps := gangParked x.G x.K
    o == 0x51 || o == 0x8A || o == 0x9D || o == 0x9F ||
      ((ps.any fun p => p.kind == .mem) && (i :: is).any fun i => opcOrdered i.opc) ||
      (ps.any fun p => (p.srcRows ++ p.destRows).any rows.contains) ||
      (match takenTo x i with | some t => decide (t ≤ x.K.pc) | none => false)

/-- MONITOR, alone or in a macro's body: its read is ordered when it issues. -/
def State.monitors (s : State) (x : Cur) (i : Instr) : Bool :=
  (s.parts x i).any fun i => match i with | .monitor .. => true | _ => false

/-- Whether the gang waits at this instruction: a pending destination, a full flag (R41), an operation that still has to free its
registers, a uniform instruction that may still fault, after which the gang issues nothing (R148, R172, log 128), the order of its
accesses (R217, R257). -/
def State.holds (s : State) (x : Cur) (i : Instr) (rows : List Nat) : Bool :=
  destPending x.G (lanesWritten x.G x.K i) rows ||
    (opcLong i.opc && ((x.K.llFlag.map x.G.flag).any fun n => decide (64 ≤ n))) ||
    (x.G.ops.any fun o => o.slices &&& x.K.slices != 0 && !(memFrees o.instr).isEmpty && o.lanes.any fun l => l.walking || l.inStash) ||
    (x.G.ops.any fun o => o.slices &&& x.K.slices != 0 && o.kind == .uni && (uniMem o.instr).isSome && !o.completed) ||
    (((accOf i).isSome || s.monitors x i) && !x.G.mayAccess x.K.slices (2 ^ 64) (((accOf i).map (·.wr)).getD false))

/-! ### The gang at the head of the ports -/

/-- What happens next to it: an instruction runs, in the state that its fetch leaves, or the state changes without one. -/
inductive Nxt where
  | run (i : Instr) (s : State)
  | to (s : State)

/-- R73: the placement and flag checks of an instruction word, before it is decoded. -/
def placeTrap (c : Clause) (w : Nat) : Bool :=
  let o := w / 2 ^ 24 % 256
  let len := 1 + w % 2
  let H := Header.ofWord c.hdr
  (opcLong o && ((c.nLL == 0 && !H.av) || (c.nLL == 1 && !H.bv) || decide (2 ≤ c.nLL))) ||
    (opcEndsClause o && c.left != len) || (o == 0x51 && c.left != H.len) || decide (c.left < len)

/-- The instruction whose words have been fetched: checked, held or stopped, or run. -/
def State.issueWords (s : State) (x : Cur) (w e : Nat) : Nxt :=
  match decodeWords w e with
  | .error _ => .to (s.trap x 0x01 (w / 2 ^ 24 % 256))
  | .ok i =>
    let rows := s.rowsOf x i
    if stopPoint x i (s.parts x i) rows then .to (s.finish x x.G { x.K with stopped := true })
    else if s.holds x i rows then .to s.heldAtIssue
    else .run i s

/-- A fetch that fails: one fault of the gang, at the word (R148, R210). An extension word's fault is its instruction's (log 48), whose
opcode byte is known; where the first word cannot be fetched, the opcode byte is 0 (log 129). -/
def State.fetchFault (s : State) (x : Cur) (cause va opc : Nat) : State := s.uniFault x false cause va opc

/-- Fetches and checks the next word of the gang at the head of the ports. -/
def State.issueHead (s : State) : Nxt :=
  match cur s with
  | none => .to s.popPort
  | some x =>
    if !s.groupRuns x.G || !Gang.canIssue x.G x.K || (s.core x.G.geo.core).regsMove || !s.issues then .to s.popPort
    else if x.K.st = .waitFlag then .run (.clauseStart (.ofNat 32 ((x.K.clause.map (·.hdr)).getD 0))) s
    else
      match s.fetchWord x x.K.pc with
      | (.wait, s) => .to s.popPort
      | (.flt c, s) => .to (s.fetchFault x c x.K.pc 0)
      | (.word w, s1) =>
        match x.K.clause with
        | none => .run (.clauseStart (.ofNat 32 w)) s1
        | some c =>
          if placeTrap c w then .to (s1.trap x 0x02 (w / 2 ^ 24 % 256))
          else if w % 2 = 0 then s1.issueWords x w 0
          else
            match s1.fetchWord x (x.K.pc + 4) with
            | (.wait, s) => .to s.popPort
            | (.flt c, s) => .to (s.fetchFault x c (x.K.pc + 4) (w / 2 ^ 24 % 256))
            | (.word e, s2) => s2.issueWords x w e

/-- After an instruction: where lane cycles are counted, those of the gang that issued it (R362). A MACRO whose guard holds has counted
its words. -/
def State.afterIssue (s0 : State) (i : Instr) (t : State) : State :=
  if !t.lcen then t
  else
    match i, cur s0 with
    | .clauseStart _, _ => t
    | _, none => t
    | .macroOp h _ _ _ _ _, some x =>
      if !uniGuard x.G x.K h && ((t.group? x.g).bind fun G => G.gang? x.K.id).any (fun K => K.last == s0.tick) then
        t.countLanes x.G x.K h true
      else t
    | i, some x =>
      let issued := match (t.group? x.g).bind fun G => G.gang? x.K.id with
        | none => true
        | some K => K.last == s0.tick || (match K.hold with | .exit | .bar _ _ => true | _ => false)
      if issued then t.countLanes x.G x.K i.hd (decide (0x80 ≤ i.opc)) else t

/-! ### Internal events -/

/-- The events that an operation of a group may be due. -/
def opEvents (s : State) (g : Nat) (G : Group) (o : Op) : List Instr :=
  let lanes := o.lanes.flatMap fun l =>
    match l.st with
    | .walk => [.pageTableWalk G.geo.core (s.rootOf G) l.va]
    | .home => if isLoad o.instr then [.fillAtHome G.geo.core (lineOf l.pa) none] else [.atomicAtHome g o.id l.lane none]
    | .vault => [.vaultAccess g o.id l.lane none]
    | .stash => [.stashLineFilled G.geo.core l.pa l.pte]
    | _ => []
  let fin : List Instr := match o.instr with
    | .mdef .. => [.mdefComplete g o.id]
    | .tmload .. => [.tmloadComplete g o.id]
    | .wspill .. => [.windowMoveComplete g o.id]
    | .wfill .. => [.windowMoveComplete g o.id]
    | .hevict .. => [.handleMoveComplete g o.id]
    | .hdemote .. => [.handleMoveComplete g o.id]
    | _ => [.longLatencyComplete g o.id (.ofNat 64 (2 ^ 64 - 1))]
  lanes ++ fin

/-- The events that a group may be due. -/
def groupEvents (s : State) (g : Nat) (G : Group) : List Instr :=
  if G.ended then []
  else
    .handlerEntry g :: G.gangs.flatMap (fun K =>
      (match K.hold with
        | .exit => [.exitLanesDone g K.id]
        | .bar _ _ => [.barArrive g K.id]
        | .yield _ => [.yieldHoldEnd g K.id]
        | .wct => [.wctmaxPassed g K.id]
        | .none => []) ++ if K.wake.isSome then [.mwaitTimeout g K.id] else []) ++ G.ops.flatMap (opEvents s g G)

/-- A group that waits for its stores to be performed: at a release or barrier, for a PUBLISH, or because it or its block has come to an
end. -/
def State.awaitsStores (s : State) (g : Nat) : Bool :=
  match s.group? g with
  | none => true
  | some G => G.ended || (G.gangs.any fun K => match K.hold with | .wct | .bar _ _ => true | _ => false) ||
      s.eng.ops.any fun e => e.gid == g && (match e.kind with | .publish .. => true | _ => false)

/-- The lines that dirty fill-mode stash lines of a core stand for (R198). -/
def stashHomes (s : State) (c : Nat) (k : Core) : List Nat :=
  (k.maps.filter fun m => !m.copyIn).flatMap fun m =>
    match s.block? m.bid with
    | none => []
    | some b => m.lines.filterMap fun e =>
        if e.2.dirty = 0 then none else ((s.globalPA c (s.blockRoot b) (m.base + 128 * e.1)).1.map fun p => lineOf p.1)

/-- The events of a core. A line stored to is written home when a group waits for it, and every 1,024 ticks (log 51). -/
def coreEvents (s : State) (c : Nat) (k : Core) : List Instr :=
  (if k.move.isSome then [.poolMove c] else []) ++
    (k.ca.filterMap fun e =>
      if e.2.dirty != 0 && (s.tick % 1024 == 0 || (e.2.writers ++ e.2.hb).any s.awaitsStores) then some (.writeAtHome c e.1) else none) ++
    if s.tick % 1024 = 0 then (stashHomes s c k).map (.writeAtHome c) else []

/-- The events of an engine operation. -/
def engEvents (e : Eng) : List Instr :=
  match e.kind with
  | .copy dst _ len _ landed _ =>
    if e.heldIn.isSome && !e.started then []
    else ((List.range (copyLines dst len)).filter fun i => !landed.contains i).map (fun i => .copyLineLanded e.id i) ++ [.copyComplete e.id]
  | .publish .. => [.publishFlip e.id]
  | .bin .. => [.binComplete e.id]
  | .mx _ => [.matrixGrant (e.core / 4) true, .matrixGrant (e.core / 4) false, .matrixLevelRise e.id, .matrixOpComplete e.id]
  | .coll j => [.collectiveContribution j.anchor j.rank [], .collectiveTimeout j.anchor j.rank, .collectiveOutcome e.id]
  | .cgrp _ _ => [.collectiveOutcome e.id]
  | .bcast b =>
    [.broadcastStart e.id, .hopStart e.id] ++ ((List.range b.sending.length).filter fun m => !b.got.contains m && !b.lost.contains m).map (fun m => .messageReceive e.id m)
      ++ [.hopEnd e.id, .broadcastEnd e.id]

/-- The events of a block and of a region. -/
def blockEvents (s : State) (b : Block) : List Instr :=
  (match b.st with
    | .pending => ((s.placeOf b).map fun p => .blockLoad b.id p.1).toList
    | .saved => ((s.placeOf b).map fun p => .blockLoad b.id p.1).toList
    | .loading => [.contextsInPlace b.id]
    | .resident => [.preempt b.id]
    | .saving => [.saveComplete b.id]
    | .done => []) ++
    b.held.map fun e => .releaseStart b.id e.1

/-- Every internal event that may be due, in the order in which the machine looks at them when it goes on by itself. -/
def State.internal (s : State) : List Instr :=
  (s.cores.flatMap fun e => coreEvents s e.1 e.2) ++ (s.groups.flatMap fun e => groupEvents s e.1 e.2) ++
    s.eng.ops.flatMap engEvents ++ (s.eng.refresh.map fun r => .refreshEnd (r / 16) (r % 16)) ++
    (s.spawns.flatMap fun x => [.regionAccept x.id, .regionResume x.id, .regionEnd x.id]) ++
    ((SMap.vals s.blocks).flatMap (blockEvents s)) ++ (s.regions.map fun e => .completionStore e.1) ++
    (s.ms.drains.map fun d => .rehomeDrain d.id) ++ (s.fab.hosts.map fun h => .hostWriteAck h.id) ++
    (if s.tr.rgo then [.injectRecord] else []) ++ (if s.sys.reqs.isEmpty then [] else [.attestationReport]) ++
    if s.sys.unlocking.isSome then [.debugUnlock 0] else []

/-- The cores that hold a group and have not filled their ports in this tick. -/
def State.unselected (s : State) : List Nat :=
  (s.groups.map fun e => e.2.geo.core).eraseDups.filter fun c => (s.core c).sel != s.tick + 1

/-- The event that the machine performs when nothing is scheduled: the first internal event that changes something, or the next
core's GANG_SELECT. `run` is what an event leaves. -/
def State.auto (s : State) (run : Instr → State) : Option Instr :=
  match s.internal.find? fun i => run i != s with
  | some i => some i
  | none => (s.unselected[0]?).map .gangSelect

/-- The next tick: idle positions of the last are counted (R358, R362). The tick of an armed stop does not begin until the restart
(R365). -/
def State.nextTick (s : State) : State :=
  let s1 := s.countIdle
  let s2 := { s1 with tick := s1.tick + 1 }
  if s2.stopDue then s2 else s2.beginTick

/-- What a stopped machine still does: a restart through the test port, a reset, a power cycle (R365). -/
def wakesStopped : Instr → Bool
  | .debugRestart | .deviceReset | .powerOn => true
  | _ => false

/-- The state that an outcome leaves, or the one before it. -/
def nextOr (s : State) : Ans → State
  | .next t => t
  | _ => s

/-- One step, where `run` performs an instruction or event. A debug stop that is due comes before all else, then the scheduled event; then the gang at the head of the
ports; then an internal event that is due; then the next tick. A scheduled `none` lets the machine go on by itself once. -/
def stepBy (run : Instr → State → Ans) (s : State) : Ans :=
  let s0 := { s with agenda := s.agenda.tail }
  if s.stopDue then run .debugStop s
  else match s.agenda with
  | some e :: _ => if s.sys.stopped && !wakesStopped e then .next s0 else run e s0
  | _ =>
    if s.sys.stopped then .fault .clocksGated
    else
      match s0.ports with
      | _ :: _ =>
        match s0.issueHead with
        | .to t => .next t
        | .run i s1 =>
          match run i s1 with
          | .next t => .next (State.afterIssue s1 i t)
          | r => r
      | [] =>
        match s0.auto fun i => nextOr s0 (run i s0) with
        | some i => run i s0
        | none => .next s0.nextTick

/-! ### A program placed from outside (log 49) -/

/-- Where the placed instruction stands: virtual address, offset in device memory, table root. The core's cache holds the three
entries of its translation. -/
def placeVa : Nat := 0x40000
def placeOff : Nat := 0x50000
def placeRoot : Nat := 0x60000

/-- The RCB of the placed region: one block of one group of width 8, privileged. -/
def placeRcb : Rcb where
  compl := 0
  complv := 0
  flog := 0
  root := placeRoot
  code := placeVa
  entry := 0
  prio := 0
  flags := 4
  dies := 0
  handler := 0
  args := 0
  bucket := 0
  spill := 0
  stride := 512 * 128
  cap := 1024
  gw := 8
  cw := 0
  shape := [8, 0, 0, 0]
  blocks := 1
  gpb := 1
  pbanks := 60
  cores := 1024
  spwin := 4096
  mxlines := 256
  core0 := 0
  save := 0
  saven := 1

/-- The words of one instruction, `n` bits of `v` as the opcode table numbers them, stand where the gang at the head of the ports
fetches, inside a clause of just that instruction, in a resident block of a region that the device runs. -/
def State.placeWord (s : State) (n v : Nat) : State :=
  let w := v % 2 ^ n
  let w0 := w % 2 ^ 32
  let len := 1 + w0 % 2
  let pa := s.dev * 2 ^ 40 + placeOff
  let g := s.nextId
  let R : Region :=
    { id := g + 2, addr := 0, chain := [], rcb := placeRcb, die := 0, live := true, bounds := [8, 1, 1, 1], entryPc := placeVa,
      nblocks := 1, cnt := [0, 0, 0, 0], ending := none }
  let slot : CSlot := ⟨false, 4, 0, 0, false, 0, 0, 0, [], [], 0, 0⟩
  let b : Block :=
    { id := g + 1, rid := g + 2, idx := 0, core := 0, st := .resident, groups := [g], handles := List.replicate 16 ⟨0, 0, 0, false⟩,
      slots := List.replicate 8 slot, held := [], counters := [], own0 := 0, ownLen := 4096, whole := true, bars := [], unit := none,
      sq := [], sp := [], mx := [], bad := [], maps := [], loadTick := s.tick, faulted := false }
  let hdr := len * 2 ^ 26 + 2 ^ 25
  let G0 := launchGroup placeRcb [8, 1, 1, 1] placeVa (g + 1) 0 0 0 0 [0, 0] (g + 3) s.tick
  let G := { G0 with gangs := G0.gangs.map fun K => { K with pc := placeVa + 4, clause := some ⟨hdr, len, 0⟩ } }
  let k := s.core 0
  let tlb := SMap.put (SMap.put (SMap.put k.tlb placeRoot 0x70001) 0x70000 0x80001) 0x80020 (pa / 2 ^ 16 * 2 ^ 16 + 0x3F)
  let s1 := (s.pokeN (pa + 4) 8 (w0 + w / 2 ^ 32 * 2 ^ 32)).setCore 0
    { k with tlb := tlb, move := none, ca := SMap.del k.ca (lineOf pa) }
  let y := { s1.sys with phase := 6, stopped := false, arm := false, throttle := 0 }
  { (((s1.putRegion (g + 2) R).putBlock (g + 1) b).putGroup g G) with
    sys := y, agenda := [], ports := (g, g + 3) :: s.ports, nextId := s.nextId + 4 }

end Sys2Proof.Machine
end

