-- ==== Sys2Proof/Machine/Dispatch.lean ====
section
/-! DEFINITION. What every instruction and event does: one call of its meaning. -/

namespace Sys2Proof.Machine

def exec (i : Instr) (s : State) : Host.Outcome State Fault Refusal :=
  match i with
  | .iadd h t sat d a b => Sys2Proof.Machine.execIadd h t sat d a b s
  | .isub h t sat d a b => Sys2Proof.Machine.execIsub h t sat d a b s
  | .imul h t d a b => Sys2Proof.Machine.execImul h t d a b s
  | .imulhu h d a b => Sys2Proof.Machine.execImulhu h d a b s
  | .imulhs h d a b => Sys2Proof.Machine.execImulhs h d a b s
  | .imad h t d a b c => Sys2Proof.Machine.execImad h t d a b c s
  | .imin h t d a b => Sys2Proof.Machine.execImin h t d a b s
  | .imax h t d a b => Sys2Proof.Machine.execImax h t d a b s
  | .andV h d a b => Sys2Proof.Machine.execAndV h d a b s
  | .orV h d a b => Sys2Proof.Machine.execOrV h d a b s
  | .xorV h d a b => Sys2Proof.Machine.execXorV h d a b s
  | .shl h t d a b => Sys2Proof.Machine.execShl h t d a b s
  | .shr h t d a b => Sys2Proof.Machine.execShr h t d a b s
  | .sar h t d a b => Sys2Proof.Machine.execSar h t d a b s
  | .clz h d a => Sys2Proof.Machine.execClz h d a s
  | .popc h d a => Sys2Proof.Machine.execPopc h d a s
  | .sel h p d a b => Sys2Proof.Machine.execSel h p d a b s
  | .icmp h t c pd a b => Sys2Proof.Machine.execIcmp h t c pd a b s
  | .addl h pq d a b => Sys2Proof.Machine.execAddl h pq d a b s
  | .subl h pq d a b => Sys2Proof.Machine.execSubl h pq d a b s
  | .macl h pq d a b c => Sys2Proof.Machine.execMacl h pq d a b c s
  | .shll h pq d a b => Sys2Proof.Machine.execShll h pq d a b s
  | .shrl h pq d a b => Sys2Proof.Machine.execShrl h pq d a b s
  | .cmpl h c pd a b => Sys2Proof.Machine.execCmpl h c pd a b s
  | .negl h pq d a => Sys2Proof.Machine.execNegl h pq d a s
  | .fadd h t m d a b => Sys2Proof.Machine.execFadd h t m d a b s
  | .fsub h t m d a b => Sys2Proof.Machine.execFsub h t m d a b s
  | .fmul h t m d a b => Sys2Proof.Machine.execFmul h t m d a b s
  | .ffma h t m d a b c => Sys2Proof.Machine.execFfma h t m d a b c s
  | .fmin h t d a b => Sys2Proof.Machine.execFmin h t d a b s
  | .fmax h t d a b => Sys2Proof.Machine.execFmax h t d a b s
  | .fcmp h t c pd a b => Sys2Proof.Machine.execFcmp h t c pd a b s
  | .frcp h d a => Sys2Proof.Machine.execFrcp h d a s
  | .frsq h d a => Sys2Proof.Machine.execFrsq h d a s
  | .fsqrt h d a => Sys2Proof.Machine.execFsqrt h d a s
  | .fexp2 h d a => Sys2Proof.Machine.execFexp2 h d a s
  | .flog2 h d a => Sys2Proof.Machine.execFlog2 h d a s
  | .ftanh h d a => Sys2Proof.Machine.execFtanh h d a s
  | .cvt h k nan m d a => Sys2Proof.Machine.execCvt h k nan m d a s
  | .cvtef h dst nan m d a c => Sys2Proof.Machine.execCvtef h dst nan m d a c s
  | .tmacc h both d a => Sys2Proof.Machine.execTmacc h both d a s
  | .tmred h d a => Sys2Proof.Machine.execTmred h d a s
  | .tmfin h d a => Sys2Proof.Machine.execTmfin h d a s
  | .xget h t d a b => Sys2Proof.Machine.execXget h t d a b s
  | .xgetu h t d a b => Sys2Proof.Machine.execXgetu h t d a b s
  | .red h t op m d a => Sys2Proof.Machine.execRed h t op m d a s
  | .scan h op m d a => Sys2Proof.Machine.execScan h op m d a s
  | .xsend h k a => Sys2Proof.Machine.execXsend h k a s
  | .xrecv h k d => Sys2Proof.Machine.execXrecv h k d s
  | .ballot h d p => Sys2Proof.Machine.execBallot h d p s
  | .plog h tt pd pa pb => Sys2Proof.Machine.execPlog h tt pd pa pb s
  | .brp h p tgt jn => Sys2Proof.Machine.execBrp h p tgt jn s
  | .join => Sys2Proof.Machine.execJoin s
  | .ld h sz d a em => Sys2Proof.Machine.execLd h sz d a em s
  | .st h sz a b em => Sys2Proof.Machine.execSt h sz a b em s
  | .atom h sz d a b em => Sys2Proof.Machine.execAtom h sz d a b em s
  | .cxch h d a b em => Sys2Proof.Machine.execCxch h d a b em s
  | .cldr h d a em => Sys2Proof.Machine.execCldr h d a em s
  | .nop h => Sys2Proof.Machine.execNop h s
  | .br h off => Sys2Proof.Machine.execBr h off s
  | .brc h c a off => Sys2Proof.Machine.execBrc h c a off s
  | .brany h p off => Sys2Proof.Machine.execBrany h p off s
  | .brall h p off => Sys2Proof.Machine.execBrall h p off s
  | .jmpr h a => Sys2Proof.Machine.execJmpr h a s
  | .call h k off => Sys2Proof.Machine.execCall h k off s
  | .callr h k a => Sys2Proof.Machine.execCallr h k a s
  | .ret h => Sys2Proof.Machine.execRet h s
  | .loop h d off => Sys2Proof.Machine.execLoop h d off s
  | .exit h => Sys2Proof.Machine.execExit h s
  | .exitLanesDone g k => Sys2Proof.Machine.execExitLanesDone g k s
  | .trap h code => Sys2Proof.Machine.execTrap h code s
  | .yield h => Sys2Proof.Machine.execYield h s
  | .yieldHoldEnd g k => Sys2Proof.Machine.execYieldHoldEnd g k s
  | .uadd h d a b => Sys2Proof.Machine.execUadd h d a b s
  | .usub h d a b => Sys2Proof.Machine.execUsub h d a b s
  | .umul h d a b => Sys2Proof.Machine.execUmul h d a b s
  | .uand h d a b => Sys2Proof.Machine.execUand h d a b s
  | .uor h d a b => Sys2Proof.Machine.execUor h d a b s
  | .uxor h d a b => Sys2Proof.Machine.execUxor h d a b s
  | .ushl h d a b => Sys2Proof.Machine.execUshl h d a b s
  | .ushr h d a b => Sys2Proof.Machine.execUshr h d a b s
  | .usar h d a b => Sys2Proof.Machine.execUsar h d a b s
  | .ucmp h c pd a b => Sys2Proof.Machine.execUcmp h c pd a b s
  | .umov h d b => Sys2Proof.Machine.execUmov h d b s
  | .umin h d a b => Sys2Proof.Machine.execUmin h d a b s
  | .umax h d a b => Sys2Proof.Machine.execUmax h d a b s
  | .rdfl h d a => Sys2Proof.Machine.execRdfl h d a s
  | .mdef h slot n a => Sys2Proof.Machine.execMdef h slot n a s
  | .mdefComplete g op => Sys2Proof.Machine.execMdefComplete g op s
  | .macroOp h slot o0 o1 o2 o3 => Sys2Proof.Machine.execMacroOp h slot o0 o1 o2 o3 s
  | .bar h k => Sys2Proof.Machine.execBar h k s
  | .barArrive g k => Sys2Proof.Machine.execBarArrive g k s
  | .monitor h a => Sys2Proof.Machine.execMonitor h a s
  | .mwait h a => Sys2Proof.Machine.execMwait h a s
  | .mwaitTimeout g k => Sys2Proof.Machine.execMwaitTimeout g k s
  | .fenceAcq h scope => Sys2Proof.Machine.execFenceAcq h scope s
  | .fenceRel h scope => Sys2Proof.Machine.execFenceRel h scope s
  | .fenceAr h scope => Sys2Proof.Machine.execFenceAr h scope s
  | .fenceSc h scope => Sys2Proof.Machine.execFenceSc h scope s
  | .fenceEng h scope => Sys2Proof.Machine.execFenceEng h scope s
  | .pset h d a => Sys2Proof.Machine.execPset h d a s
  | .poolMove c => Sys2Proof.Machine.execPoolMove c s
  | .pqry h d a => Sys2Proof.Machine.execPqry h d a s
  | .smap h copyIn n a b => Sys2Proof.Machine.execSmap h copyIn n a b s
  | .sunmap h a => Sys2Proof.Machine.execSunmap h a s
  | .hres h copyIn pri pin k n a b => Sys2Proof.Machine.execHres h copyIn pri pin k n a b s
  | .hevict h k => Sys2Proof.Machine.execHevict h k s
  | .hdemote h k => Sys2Proof.Machine.execHdemote h k s
  | .handleMoveComplete g op => Sys2Proof.Machine.execHandleMoveComplete g op s
  | .copy h hint d a b => Sys2Proof.Machine.execCopy h hint d a b s
  | .copyHeld h hint k d a b => Sys2Proof.Machine.execCopyHeld h hint k d a b s
  | .copyLineLanded e line => Sys2Proof.Machine.execCopyLineLanded e line s
  | .copyComplete e => Sys2Proof.Machine.execCopyComplete e s
  | .release h a => Sys2Proof.Machine.execRelease h a s
  | .releaseStart b k => Sys2Proof.Machine.execReleaseStart b k s
  | .bin h clear base nb a b => Sys2Proof.Machine.execBin h clear base nb a b s
  | .binComplete e => Sys2Proof.Machine.execBinComplete e s
  | .publish h scope a => Sys2Proof.Machine.execPublish h scope a s
  | .publishFlip e => Sys2Proof.Machine.execPublishFlip e s
  | .cwb h scope a b => Sys2Proof.Machine.execCwb h scope a b s
  | .cinv h scope a b => Sys2Proof.Machine.execCinv h scope a b s
  | .attrInv h a b => Sys2Proof.Machine.execAttrInv h a b s
  | .attrCc h v a b => Sys2Proof.Machine.execAttrCc h v a b s
  | .attrCpol h v a b => Sys2Proof.Machine.execAttrCpol h v a b s
  | .attrLc h v a b => Sys2Proof.Machine.execAttrLc h v a b s
  | .cgrp h k a => Sys2Proof.Machine.execCgrp h k a s
  | .cag h k a b len => Sys2Proof.Machine.execCag h k a b len s
  | .crs h k op a b len => Sys2Proof.Machine.execCrs h k op a b len s
  | .ca2a h k a b len => Sys2Proof.Machine.execCa2a h k a b len s
  | .cbar h k => Sys2Proof.Machine.execCbar h k s
  | .cstat h d k => Sys2Proof.Machine.execCstat h d k s
  | .collectiveContribution r member term => Sys2Proof.Machine.execCollectiveContribution r member term s
  | .collectiveTimeout r member => Sys2Proof.Machine.execCollectiveTimeout r member s
  | .collectiveOutcome e => Sys2Proof.Machine.execCollectiveOutcome e s
  | .mxres h od rv rc pk a b => Sys2Proof.Machine.execMxres h od rv rc pk a b s
  | .mxfree h od => Sys2Proof.Machine.execMxfree h od s
  | .mxzero h od => Sys2Proof.Machine.execMxzero h od s
  | .mxld h od hint a => Sys2Proof.Machine.execMxld h od hint a s
  | .mxst h od fmt nan hint pe pk a => Sys2Proof.Machine.execMxst h od fmt nan hint pe pk a s
  | .mma h t od oa ob ra rb pe pk ja jb => Sys2Proof.Machine.execMma h t od oa ob ra rb pe pk ja jb s
  | .matrixGrant cl array => Sys2Proof.Machine.execMatrixGrant cl array s
  | .matrixLevelRise e => Sys2Proof.Machine.execMatrixLevelRise e s
  | .matrixOpComplete e => Sys2Proof.Machine.execMatrixOpComplete e s
  | .gspaceBind h a b => Sys2Proof.Machine.execGspaceBind h a b s
  | .gspaceUnbind h a b => Sys2Proof.Machine.execGspaceUnbind h a b s
  | .gload h base n a b => Sys2Proof.Machine.execGload h base n a b s
  | .gset h prog ksel m tmsk tval pent a b => Sys2Proof.Machine.execGset h prog ksel m tmsk tval pent a b s
  | .gprop h arg a b => Sys2Proof.Machine.execGprop h arg a b s
  | .gcoll h clr m cap a b => Sys2Proof.Machine.execGcoll h clr m cap a b s
  | .gclr h fill m tmsk tval a b => Sys2Proof.Machine.execGclr h fill m tmsk tval a b s
  | .broadcastStart e => Sys2Proof.Machine.execBroadcastStart e s
  | .broadcastEnd e => Sys2Proof.Machine.execBroadcastEnd e s
  | .hopStart e => Sys2Proof.Machine.execHopStart e s
  | .messageReceive e m => Sys2Proof.Machine.execMessageReceive e m s
  | .hopEnd e => Sys2Proof.Machine.execHopEnd e s
  | .refreshStart v u => Sys2Proof.Machine.execRefreshStart v u s
  | .refreshEnd v u => Sys2Proof.Machine.execRefreshEnd v u s
  | .tmshape h code => Sys2Proof.Machine.execTmshape h code s
  | .tmload h k a => Sys2Proof.Machine.execTmload h k a s
  | .tmloadComplete g op => Sys2Proof.Machine.execTmloadComplete g op s
  | .lig h n => Sys2Proof.Machine.execLig h n s
  | .unlig h => Sys2Proof.Machine.execUnlig h s
  | .spawn h a => Sys2Proof.Machine.execSpawn h a s
  | .rdsr h sr d => Sys2Proof.Machine.execRdsr h sr d s
  | .wrsrGstat h a => Sys2Proof.Machine.execWrsrGstat h a s
  | .wrsrTmshape h a => Sys2Proof.Machine.execWrsrTmshape h a s
  | .wrsrPoolmap h a => Sys2Proof.Machine.execWrsrPoolmap h a s
  | .wrsrLease h n a => Sys2Proof.Machine.execWrsrLease h n a s
  | .wrsr h sr a => Sys2Proof.Machine.execWrsr h sr a s
  | .tick h d => Sys2Proof.Machine.execTick h d s
  | .eret h => Sys2Proof.Machine.execEret h s
  | .wspill h m => Sys2Proof.Machine.execWspill h m s
  | .wfill h m => Sys2Proof.Machine.execWfill h m s
  | .windowMoveComplete g op => Sys2Proof.Machine.execWindowMoveComplete g op s
  | .clauseStart hdr => Sys2Proof.Machine.execClauseStart hdr s
  | .gangSelect c => Sys2Proof.Machine.execGangSelect c s
  | .longLatencyComplete g op lanes => Sys2Proof.Machine.execLongLatencyComplete g op lanes s
  | .stashLineFilled c m line => Sys2Proof.Machine.execStashLineFilled c m line s
  | .handlerEntry g => Sys2Proof.Machine.execHandlerEntry g s
  | .fillAtHome c line rem => Sys2Proof.Machine.execFillAtHome c line rem s
  | .writeAtHome c line => Sys2Proof.Machine.execWriteAtHome c line s
  | .atomicAtHome g op lane rem => Sys2Proof.Machine.execAtomicAtHome g op lane rem s
  | .vaultAccess g op lane rem => Sys2Proof.Machine.execVaultAccess g op lane rem s
  | .leaseExpire c line => Sys2Proof.Machine.execLeaseExpire c line s
  | .pageTableWalk c root va => Sys2Proof.Machine.execPageTableWalk c root va s
  | .rehomeDrain d => Sys2Proof.Machine.execRehomeDrain d s
  | .rebalance bucket slice => Sys2Proof.Machine.execRebalance bucket slice s
  | .scrub c w paddr bad => Sys2Proof.Machine.execScrub c w paddr bad s
  | .blockLoad b c => Sys2Proof.Machine.execBlockLoad b c s
  | .contextsInPlace b => Sys2Proof.Machine.execContextsInPlace b s
  | .preempt b => Sys2Proof.Machine.execPreempt b s
  | .saveComplete b => Sys2Proof.Machine.execSaveComplete b s
  | .regionAccept sp => Sys2Proof.Machine.execRegionAccept sp s
  | .regionResume sp => Sys2Proof.Machine.execRegionResume sp s
  | .regionEnd sp => Sys2Proof.Machine.execRegionEnd sp s
  | .completionStore r => Sys2Proof.Machine.execCompletionStore r s
  | .flitReceive port f => Sys2Proof.Machine.execFlitReceive port f s
  | .linkTraining port lanes => Sys2Proof.Machine.execLinkTraining port lanes s
  | .livenessTimeout d => Sys2Proof.Machine.execLivenessTimeout d s
  | .livenessUpdate d up => Sys2Proof.Machine.execLivenessUpdate d up s
  | .hostAccess r => Sys2Proof.Machine.execHostAccess r s
  | .hostWriteAck n => Sys2Proof.Machine.execHostWriteAck n s
  | .configRangeEntryWrite k v => Sys2Proof.Machine.execConfigRangeEntryWrite k v s
  | .configBucketEntryWrite b v => Sys2Proof.Machine.execConfigBucketEntryWrite b v s
  | .configWrite off size v => Sys2Proof.Machine.execConfigWrite off size v s
  | .blameSample c => Sys2Proof.Machine.execBlameSample c s
  | .replayGo => Sys2Proof.Machine.execReplayGo s
  | .injectRecord => Sys2Proof.Machine.execInjectRecord s
  | .stopArm v => Sys2Proof.Machine.execStopArm v s
  | .debugStop => Sys2Proof.Machine.execDebugStop s
  | .debugRestart => Sys2Proof.Machine.execDebugRestart s
  | .identityRead cmd => Sys2Proof.Machine.execIdentityRead cmd s
  | .powerOn => Sys2Proof.Machine.execPowerOn s
  | .bringUpPhase fail devid dims lanes root => Sys2Proof.Machine.execBringUpPhase fail devid dims lanes root s
  | .deviceReset => Sys2Proof.Machine.execDeviceReset s
  | .fuseProgram => Sys2Proof.Machine.execFuseProgram s
  | .throttle temp watts n => Sys2Proof.Machine.execThrottle temp watts n s
  | .overtempShutdown temp => Sys2Proof.Machine.execOvertempShutdown temp s
  | .attestationRequest a => Sys2Proof.Machine.execAttestationRequest a s
  | .attestationReport => Sys2Proof.Machine.execAttestationReport s
  | .debugUnlock a => Sys2Proof.Machine.execDebugUnlock a s
  | .keySlotWrite k v => Sys2Proof.Machine.execKeySlotWrite k v s
  | .encryptionRangeWrite k v => Sys2Proof.Machine.execEncryptionRangeWrite k v s
  | .wctmaxPassed g k => Sys2Proof.Machine.execWctmaxPassed g k s

end Sys2Proof.Machine
end

