-- ==== Sys2Proof/Safety.lean ====
section
/-! DEFINITION. The terms in which claims about the machine are made: runs, the canonical memory, and the conditions
under which an instruction of the gang on its port runs to its own effect, with the state that effect leaves. -/

namespace Sys2Proof.Machine

/-! ### Runs -/

/-- The memory is in its canonical form. -/
def State.MemOk (s : State) : Prop := Memory.wf s.mem = true

/-- `t` is reached from `s` by steps that go on. -/
inductive Reach : State → State → Prop where
  | refl (s : State) : Reach s s
  | tail (s t u : State) : Reach s t → step t = .next u → Reach s u

/-- A safe run: no step of it stops, unless the whole device is stopped (R365). -/
def SafeFrom (s : State) : Prop := ∀ t, Reach s t → (∃ u, step t = .next u) ∨ t.sys.stopped = true

/-- The register r of lane l in a group's gang at depth D. -/
def Group.reg (G : Group) (D l : Nat) (r : Reg) : Nat := (G.lane l).val (rowOf D r)

/-! ### Lane instructions (R43, R90, R115) -/

/-- What a lane instruction reads and frees: permutations, the reads of lane l, the registers that last-use marks free. -/
structure Form where
  perms : List (BitVec 8)
  reads : Nat → List Rd
  frees : List Reg

/-- Sources a and b; `used` are the bits that the instruction uses. -/
def formAB (x : Cur) (a : Src) (b : BOp) (used : Nat) : Form :=
  ⟨a.perm :: bopPerms b, fun l => srcRd x.G x.K l a used :: bsrcRd x.G x.K l b used, srcFrees a ++ bopFrees b⟩
/-- Two register sources. -/
def formSS (x : Cur) (a b : Src) : Form :=
  ⟨[a.perm, b.perm], fun l => [srcRd x.G x.K l a allBits, srcRd x.G x.K l b allBits], srcFrees a ++ srcFrees b⟩
/-- Sources a, b and c. -/
def formABC (x : Cur) (a b : Src) (c : RL) : Form :=
  ⟨[a.perm, b.perm], fun l => [srcRd x.G x.K l a allBits, srcRd x.G x.K l b allBits, ownRd x.G x.K l c.r allBits],
    srcFrees a ++ srcFrees b ++ rlFrees c⟩
/-- Source a alone. -/
def formA (x : Cur) (a : Src) (used : Nat) : Form := ⟨[a.perm], fun l => [srcRd x.G x.K l a used], srcFrees a⟩
/-- No register source. -/
def formNone : Form := ⟨[], fun _ => [], []⟩

/-- The lane instruction traps nowhere: its permutations are legal (R66), its guard is the same throughout every ligature
(R118), and no active lane reads an uncorrectable word (R120). -/
def LaneRuns (x : Cur) (h : Hd) (F : Form) : Prop :=
  (∀ p ∈ F.perms, permBad x.G.geo.w p = false) ∧ ligDiv x.G x.K h = false ∧
    ∀ l, (actMask x.G x.K h).testBit l = true → ∀ r ∈ F.reads l, r.bad = none

/-- Some active lane reads a freed register. -/
def readsFreed (x : Cur) (h : Hd) (F : Form) : Bool :=
  (bitsOf (actMask x.G x.K h) 64).any fun l => (F.reads l).any fun r => r.freed

/-- A lane with registers freed. -/
def Lane.freeAll (L : Lane) (D : Nat) (rs : List Reg) : Lane := rs.foldl (fun L r => L.free (rowOf D r)) L

/-- What a lane instruction leaves: the marked sources are freed and then `f` changes the lane, in every active lane and
in no other; FREEDREAD and DOMF are set where they are due; the gang stands at the word that follows. -/
def laneEnd (s : State) (x : Cur) (h : Hd) (F : Form) (domf : Bool) (f : Nat → Lane → Lane) : State :=
  s.fresh.finish x
    (((x.G.onLanes (actMask x.G x.K h % 2 ^ 64) fun l L => f l (L.freeAll x.K.depth F.frees)).stickIf
      (readsFreed x h F) freedBit).stickIf domf domBit) (x.K.adv h s.tick)

/-- The same where the effect is one register. -/
def laneSets (s : State) (x : Cur) (h : Hd) (F : Form) (d : Reg) (v : Nat → Nat) : State :=
  laneEnd s x h F false fun l L => L.set (rowOf x.K.depth d) (v l)

/-- The same where the effect is one predicate. -/
def laneSetsP (s : State) (x : Cur) (h : Hd) (F : Form) (p : Prd) (v : Nat → Bool) : State :=
  laneEnd s x h F false fun l L => L.setPred p.toNat (v l)

/-! ### Uniform instructions (R44, R147) -/

/-- The guard passes at the first active lane and no source is uncorrectable. -/
def UniRuns (x : Cur) (h : Hd) (rs : List Reg) : Prop := uniGuard x.G x.K h = true ∧ uBad x rs = none

/-- The group after the reads of a uniform instruction: FREEDREAD where a source was freed. -/
def uniRead (x : Cur) (rs : List Reg) : Group := x.G.stickIf (rs.any (uFreed x)) freedBit

/-- What a uniform instruction that writes register d of every active lane leaves. -/
def uniSets (s : State) (x : Cur) (h : Hd) (rs : List Reg) (d : Reg) (v : Nat) : State :=
  s.doneP x h ((uniRead x rs).uPut x.K d v)

/-- The gang goes to a clause header elsewhere. -/
def uniJumps (s : State) (x : Cur) (rs : List Reg) (pc : Nat) : State :=
  s.finish x (uniRead x rs) (x.K.jump pc s.tick)

/-- The gang on its port, its group as the reads of a uniform instruction leave it. -/
def readCur (x : Cur) (rs : List Reg) : Cur := { x with G := uniRead x rs }

/-- A uniform instruction that needs the whole group runs: nothing splits the group (R52), its guard passes, its sources read. -/
def WholeRuns (s : State) (x : Cur) (h : Hd) (rs : List Reg) : Prop :=
  cur s = some x ∧ UniRuns x h rs ∧ x.K.slices = x.G.unretired

/-- The range that a uniform instruction accesses passes its checks at issue (R148): its pieces, with the state after the walks; the core
owns the CP pages among them (R262). -/
def UniAccess (s : State) (x : Cur) (rs : List Reg) (va n al : Nat) (r w : Bool) (b : Block) (ps : List Piece) (s' : State) : Prop :=
  s.block? x.G.geo.bid = some b ∧ walkWaits (uniRead x rs) = false ∧
    ∃ u, s.uniAt (uniRead x rs) b va n al r w = (.ok ps, u) ∧ s' = u.claimCp b.core ps

/-- The ranges of a long-latency uniform operation pass their checks as it completes. -/
def UniLands (s : State) (g : Nat) (o : Op) (rs : List (Nat × Nat)) (r w : Bool) (G : Group) (b : Block) (ps : List (List Piece))
    (s' : State) : Prop :=
  s.group? g = some G ∧ s.block? G.geo.bid = some b ∧ G.mayAccess o.slices o.id w = true ∧
    ∃ u, s.uniAts G b 1 r w [] rs = ((.ok [], ps), u) ∧ s' = u.claimCp b.core ps.flatten

/-- A transfer as it is posted. -/
def xferOp (s : State) (x : Cur) (i : Instr) (slot : Nat) (lanes : List OpLane) : Op :=
  { id := s.nextId, kind := .xfer, instr := i, pc := x.K.pc, flag := x.K.llFlag, slices := x.K.slices, mask := x.K.mask,
    depth := x.K.depth, ctx := x.K.clause, tick := s.tick, x := slot, y := 0, lanes := lanes }

/-- The state after a transfer is posted: its flag has risen, and it stands last in its queue of the slot (R143). -/
def xferPosted (s : State) (x : Cur) (G : Group) (K : Gang) (o : Op) (slot : Nat) (snd : Bool) : State :=
  (s.fresh.finish x ((G.flagUp o.flag).addOp o) K).onCore G.geo.core fun k =>
    { k with posts := k.posts ++ [⟨((s.block? G.geo.bid).map (·.rid)).getD 0, slot, x.g, o.id, snd⟩] }

/-! ### Lane memory instructions (R214–R221) -/

/-- The operation that a lane memory instruction of the gang on its port issues: one part for each active lane, with the
address and operands that the lane reads; `ll` says whether it is long-latency and so counts against a flag. -/
def memOp (s : State) (x : Cur) (i : Instr) (ll : Bool) : Op :=
  { id := s.nextId, kind := .mem, instr := i, pc := x.K.pc, flag := if ll then x.K.llFlag else none, slices := x.K.slices,
    mask := x.K.mask, depth := x.K.depth, ctx := x.K.clause, tick := s.tick, x := x.G.tmshape, y := 0,
    lanes := (bitsOf (actMask x.G x.K i.hd) 64).map fun l => memLaneOf i x.G x.K l }

/-- The state in which that operation stands issued and none of its accesses is performed: its flag has risen and the gang
is at the word that follows. -/
def memIssued (s : State) (x : Cur) (i : Instr) (ll : Bool) : State :=
  let F : Form := ⟨[], memRds i x.G x.K, []⟩
  s.fresh.finish x (((x.G.stickIf (readsFreed x i.hd F) freedBit).flagUp (memOp s x i ll).flag).addOp (memOp s x i ll))
    (if ll then x.K.advLL i.hd s.tick else x.K.adv i.hd s.tick)

/-- Nothing keeps it from issuing: its guard does not differ within a ligature, a release among its orders may go on
(R217), at core scope at most where every lane's address lies in the scratchpad (R250), and no active lane uses an
uncorrectable bit. -/
def MemRuns (s : State) (x : Cur) (i : Instr) (em : EM) : Prop :=
  LaneRuns x i.hd ⟨[], memRds i x.G x.K, []⟩ ∧
    (em.ord = 2 ∨ em.ord = 3 → releaseReady s x.g x.G x.K.slices
      (scopeOf em.scope.toNat ((bitsOf (actMask x.G x.K i.hd) 64).map (memLaneOf i x.G x.K))) = true)

/-! ### Frames -/

/-- Nothing of the device has changed but the group `g`, the ports and the next identifier. -/
def OnlyGroup (s t : State) (g : Nat) : Prop :=
  t = { s with groups := t.groups, ports := t.ports, nextId := t.nextId } ∧ ∀ k, k ≠ g → t.group? k = s.group? k

/-- Nothing of a group has changed but its lanes, its gangs, GSTAT with the writes on their way to it, its operations and
its pending events: flags, stacks, split records, matrix records, special and fault registers are as they were. -/
def GroupKeeps (G H : Group) : Prop :=
  H = { G with lanes := H.lanes, gangs := H.gangs, gstat := H.gstat, stuck := H.stuck, wr := H.wr, ops := H.ops,
               evs := H.evs }

/-- The rows that a lane instruction of a gang at depth D writes. -/
def laneRows (D : Nat) : Instr → List Nat
  | .iadd _ _ _ d _ _ | .isub _ _ _ d _ _ | .imul _ _ d _ _ | .imulhu _ d _ _ | .imulhs _ d _ _ | .imad _ _ d _ _ _
  | .imin _ _ d _ _ | .imax _ _ d _ _ | .andV _ d _ _ | .orV _ d _ _ | .xorV _ d _ _ | .shl _ _ d _ _ | .shr _ _ d _ _
  | .sar _ _ d _ _ | .clz _ d _ | .popc _ d _ | .sel _ _ d _ _ | .addl _ _ d _ _ | .subl _ _ d _ _ | .macl _ _ d _ _ _
  | .shll _ _ d _ _ | .shrl _ _ d _ _ | .negl _ _ d _ | .fadd _ _ _ d _ _ | .fsub _ _ _ d _ _ | .fmul _ _ _ d _ _
  | .ffma _ _ _ d _ _ _ | .fmin _ _ d _ _ | .fmax _ _ d _ _ | .frcp _ d _ | .frsq _ d _ | .fsqrt _ d _ | .fexp2 _ d _
  | .flog2 _ d _ | .ftanh _ d _ | .cvt _ _ _ _ d _ | .tmfin _ d _ | .xget _ _ d _ _ | .xgetu _ _ d _ _ | .red _ _ _ _ d _
  | .scan _ _ _ d _ | .ballot _ d _ => [rowOf D d]
  | .cvtef _ _ _ _ d _ c => [rowOf D d, rowOf D c]
  | .tmacc _ _ d _ | .tmred _ d _ => [rowOf D d, rowOf D d + 1]
  | _ => []

/-- The predicate that a lane instruction writes. -/
def lanePrd : Instr → Option Prd
  | .icmp _ _ _ p _ _ | .fcmp _ _ _ p _ _ | .cmpl _ _ p _ _ | .plog _ _ p _ _ | .addl _ p _ _ _ | .subl _ p _ _ _
  | .macl _ p _ _ _ _ | .shll _ p _ _ _ | .shrl _ p _ _ _ | .negl _ p _ _ => some p
  | _ => none

/-- The uniform instructions of class P and H that check nothing before their guard. -/
def plainUniform : Instr → Bool
  | .nop _ | .br _ _ | .brc _ _ _ _ | .brany _ _ _ | .brall _ _ _ | .jmpr _ _ | .ret _ | .loop _ _ _ | .trap _ _ | .yield _
  | .uadd _ _ _ _ | .usub _ _ _ _ | .umul _ _ _ _ | .uand _ _ _ _ | .uor _ _ _ _ | .uxor _ _ _ _ | .ushl _ _ _ _
  | .ushr _ _ _ _ | .usar _ _ _ _ | .ucmp _ _ _ _ _ | .umov _ _ _ | .umin _ _ _ _ | .umax _ _ _ _ | .rdfl _ _ _
  | .tmshape _ _ | .rdsr _ _ _ | .tick _ _ => true
  | _ => false

/-- The v registers that those instructions read. -/
def plainReads : Instr → List Reg
  | .brc _ _ a _ | .jmpr _ a | .loop _ a _ | .rdfl _ _ a => [a]
  | .uadd _ _ a b | .usub _ _ a b | .umul _ _ a b | .uand _ _ a b | .uor _ _ a b | .uxor _ _ a b | .ushl _ _ a b
  | .ushr _ _ a b | .usar _ _ a b | .ucmp _ _ _ a b | .umin _ _ a b | .umax _ _ a b => a :: uopRegs b
  | .umov _ _ b => uopRegs b
  | _ => []

end Sys2Proof.Machine
end

