-- ==== Sys2Proof/Certificates/Slice0/Obligations.lean ====
section
/-! DEFINITION. The statements for the provers. -/

open Sys2Proof Sys2Proof.Machine

/-! ### Lane instructions (R115, R121–R141) -/

/-- R121–R124: IADD, ISUB, IMUL, IMULHU, IMULHS, IMIN, IMAX, AND, OR, XOR, SHL, SHR and SAR complete, wherever they trap
and fault nowhere, with the element-wise result of sources a and b in register d of every active lane. Every other piece
of the state is the one `laneSets` keeps: marked sources are freed, the gang advances. -/
def Obligations.LaneIntegerResults : Prop :=
  ∀ (s : State) (x : Cur) (h : Hd) (d : Reg) (a : Src) (b : BOp), cur s = some x →
    LaneRuns x h (formAB x a b allBits) →
    let set (w : Nat) (f : Nat → Nat → Nat) : Ans := .next (laneSets s x h (formAB x a b allBits) d fun l =>
      elems w (fun i => f (elem w (srcV x.G x.K l a) i) (elem w (bsrcV x.G x.K l w b) i)) (64 / w))
    let whole (f : Nat → Nat → Nat) : Ans := .next (laneSets s x h (formAB x a b allBits) d fun l =>
      f (srcV x.G x.K l a) (bsrcV x.G x.K l 64 b))
    let lim (w : Nat) (v : Int) : Nat := wrap w (clampI v (-(2 : Int) ^ (w - 1)) ((2 : Int) ^ (w - 1) - 1))
    ∀ t : ET, let w := etW t
      exec (.iadd h t .wrap d a b) s = set w (fun x y => (x + y) % 2 ^ w) ∧
      exec (.iadd h t .sat d a b) s = set w (fun x y => lim w (sext w x + sext w y)) ∧
      exec (.iadd h t .satu d a b) s = set w (fun x y => min (x + y) (2 ^ w - 1)) ∧
      exec (.isub h t .wrap d a b) s = set w (fun x y => (x + 2 ^ w - y) % 2 ^ w) ∧
      exec (.isub h t .sat d a b) s = set w (fun x y => lim w (sext w x - sext w y)) ∧
      exec (.isub h t .satu d a b) s = set w (fun x y => x - y) ∧
      exec (.imul h t d a b) s = set w (fun x y => x * y % 2 ^ w) ∧
      exec (.imin h t d a b) s = set w (fun x y => if sext w x ≤ sext w y then x else y) ∧
      exec (.imax h t d a b) s = set w (fun x y => if sext w x ≤ sext w y then y else x) ∧
      exec (.shl h t d a b) s = set w (fun x k => if k < w then x * 2 ^ k % 2 ^ w else 0) ∧
      exec (.shr h t d a b) s = set w (fun x k => if k < w then x / 2 ^ k else 0) ∧
      exec (.sar h t d a b) s = set w (fun x k => wrap w (sext w x / (2 : Int) ^ min k w)) ∧
      exec (.imulhu h d a b) s = whole (fun x y => x * y / 2 ^ 64) ∧
      exec (.imulhs h d a b) s = whole (fun x y => wrap 64 (sext 64 x * sext 64 y / (2 : Int) ^ 64)) ∧
      exec (.andV h d a b) s = whole (fun x y => x &&& y) ∧
      exec (.orV h d a b) s = whole (fun x y => x ||| y) ∧
      exec (.xorV h d a b) s = whole (fun x y => x ^^^ y)

/-- R122, R125, R126: IMAD adds the unreduced product of a and b to c, element by element; CLZ.d and POPC.d count the
leading zero bits and the one bits of a; SEL takes a where the lane's predicate is set and b where it is not.

R127, R133: ICMP and FCMP compare element 0 of a with element 0 of b and write the truth to a predicate of every
active lane: lt and le signed, ltu and leu unsigned; a float condition on a NaN is the one R133 gives. -/
def Obligations.LaneCountSelectCompareResults : Prop :=
  (∀ (s : State) (x : Cur) (h : Hd) (d : Reg) (a b : Src) (c : RL) (p : Prd), cur s = some x →
     (LaneRuns x h (formABC x a b c) → ∀ t : ET,
       exec (.imad h t d a b c) s = .next (laneSets s x h (formABC x a b c) d fun l =>
         let w := etW t
         elems w (fun i => (elem w (srcV x.G x.K l a) i * elem w (srcV x.G x.K l b) i + elem w (ownV x.G x.K l c.r) i) % 2 ^ w)
           (64 / w))) ∧
     (LaneRuns x h (formA x a allBits) →
       exec (.clz h d a) s = .next (laneSets s x h (formA x a allBits) d fun l =>
         let v := srcV x.G x.K l a
         if v = 0 then 64 else 63 - v.log2) ∧
       exec (.popc h d a) s = .next (laneSets s x h (formA x a allBits) d fun l =>
         ((List.range 64).filter fun i => (srcV x.G x.K l a).testBit i).length)) ∧
     (LaneRuns x h (formSS x a b) →
       exec (.sel h p d a b) s = .next (laneSets s x h (formSS x a b) d fun l =>
         if (x.G.lane l).pred p then srcV x.G x.K l a else srcV x.G x.K l b))) ∧
  (∀ (s : State) (x : Cur) (h : Hd) (pd : Prd) (a : Src) (b : BOp), cur s = some x →
     (∀ t : ET, LaneRuns x h (formAB x a b (2 ^ etW t - 1)) →
       let w := etW t
       let put (f : Nat → Nat → Bool) : Ans := .next (laneSetsP s x h (formAB x a b (2 ^ w - 1)) pd fun l =>
         f (srcV x.G x.K l a % 2 ^ w) (bsrcV x.G x.K l w b % 2 ^ w))
       exec (.icmp h t .eq pd a b) s = put (fun x y => x == y) ∧
       exec (.icmp h t .ne pd a b) s = put (fun x y => x != y) ∧
       exec (.icmp h t .lt pd a b) s = put (fun x y => decide (sext w x < sext w y)) ∧
       exec (.icmp h t .le pd a b) s = put (fun x y => decide (sext w x ≤ sext w y)) ∧
       exec (.icmp h t .ltu pd a b) s = put (fun x y => decide (x < y)) ∧
       exec (.icmp h t .leu pd a b) s = put (fun x y => decide (x ≤ y))) ∧
     (∀ t : FT, LaneRuns x h (formAB x a b (2 ^ (FTfmt t).width - 1)) →
       let w := (FTfmt t).width
       let put (f : FV → FV → Bool) : Ans := .next (laneSetsP s x h (formAB x a b (2 ^ w - 1)) pd fun l =>
         f (decodeF (FTfmt t) (ftzOf x.G) (srcV x.G x.K l a % 2 ^ w))
           (decodeF (FTfmt t) (ftzOf x.G) (bsrcV x.G x.K l w b % 2 ^ w)))
       exec (.fcmp h t .eq pd a b) s = put (fun x y => !x.isNan && !y.isNan && x.cmp y == 0) ∧
       exec (.fcmp h t .ne pd a b) s = put (fun x y => x.isNan || y.isNan || x.cmp y != 0) ∧
       exec (.fcmp h t .lt pd a b) s = put (fun x y => !x.isNan && !y.isNan && decide (x.cmp y < 0)) ∧
       exec (.fcmp h t .le pd a b) s = put (fun x y => !x.isNan && !y.isNan && decide (x.cmp y ≤ 0)) ∧
       exec (.fcmp h t .unord pd a b) s = put (fun x y => x.isNan || y.isNan) ∧
       exec (.fcmp h t .ord pd a b) s = put (fun x y => !x.isNan && !y.isNan)))

/-- R128, R129: the limbs of the sources make the integers A, B and C of a ligature; ADDL, SUBL, MACL, SHLL, SHRL and
NEGL put limb i of the result in lane i of the ligature and the carry, borrow or loss in the predicate of each; CMPL
compares A and B. `b0` is limb 0's b. -/
def Obligations.LigatureResults : Prop :=
  ∀ (s : State) (x : Cur) (h : Hd) (pq : Prd) (d : Reg) (a b : Src) (c : RL), cur s = some x →
    let n := ligN x.G
    let t := 2 ^ (64 * n)
    let A (l : Nat) := limbs (fun k => srcV x.G x.K k a) (ligBase x.G l) n
    let B (l : Nat) := limbs (fun k => srcV x.G x.K k b) (ligBase x.G l) n
    let C (l : Nat) := limbs (fun k => ownV x.G x.K k c.r) (ligBase x.G l) n
    let b0 (l : Nat) := srcV x.G x.K (ligBase x.G l) b
    let end_ (F : Form) (r : Nat → Nat × Bool) : Ans := .next (laneEnd s x h F false fun l L =>
      (L.set (rowOf x.K.depth d) (limb (r l).1 (l - ligBase x.G l))).setPred pq.toNat (r l).2)
    let first (F : Form) : Form := { F with reads := fun l => if l != ligBase x.G l then
      [srcRd x.G x.K l a allBits] else [srcRd x.G x.K l a allBits, srcRd x.G x.K l b allBits] }
    let withC (F : Form) : Form := { F with reads := fun l => F.reads l ++ [ownRd x.G x.K l c.r allBits], frees := F.frees ++ rlFrees c }
    (LaneRuns x h (formSS x a b) →
      exec (.addl h pq d a b) s = end_ (formSS x a b) (fun l => ((A l + B l) % t, decide (t ≤ A l + B l))) ∧
      exec (.subl h pq d a b) s = end_ (formSS x a b) (fun l => ((A l + t - B l) % t, decide (A l < B l))) ∧
      ∀ k : ICond, exec (.cmpl h k pq a b) s = .next (laneSetsP s x h (formSS x a b) pq fun l => iCond k (64 * n) (A l) (B l))) ∧
    (LaneRuns x h (first (formSS x a b)) →
      exec (.shll h pq d a b) s = end_ (first (formSS x a b))
        (fun l => let k := min (b0 l) (64 * n); (A l * 2 ^ k % t, decide (t ≤ A l * 2 ^ k))) ∧
      exec (.shrl h pq d a b) s = end_ (first (formSS x a b))
        (fun l => let k := min (b0 l) (64 * n); (A l / 2 ^ k % t, A l % 2 ^ k != 0))) ∧
    (LaneRuns x h (withC (first (formSS x a b))) →
      exec (.macl h pq d a b c) s = end_ (withC (first (formSS x a b)))
        (fun l => ((A l * b0 l + C l) % t, decide (t ≤ A l * b0 l + C l)))) ∧
    (LaneRuns x h (formA x a allBits) →
      exec (.negl h pq d a) s = end_ (formA x a allBits) (fun l => ((t - A l) % t, A l != 0)))

/-- R131, R132, R134: the float instructions complete with the element-wise result in register d of every active lane:
the exact sum, difference, product or fused product-sum rounded once by MODE under FTZ, the minimum and maximum, and the
special functions of binary32 elements.

R98–R100: CVT converts the n = 64 / (the wider width) low elements of a and zeroes the elements of d above them;
CVTEF narrows two binary32 elements of a plus c into d and leaves the residues in c. -/
def Obligations.LaneFloatAndConversionResults : Prop :=
  (∀ (s : State) (x : Cur) (h : Hd) (d : Reg) (a : Src) (b : BOp) (b' : Src) (c : RL), cur s = some x →
     let ftz := ftzOf x.G
     (LaneRuns x h (formAB x a b allBits) → ∀ (t : FT) (m : Rnd),
       let f := FTfmt t
       let w := f.width
       let set (g : Nat → Nat → Nat) : Ans := .next (laneSets s x h (formAB x a b allBits) d fun l =>
         elems w (fun i => g (elem w (srcV x.G x.K l a) i) (elem w (bsrcV x.G x.K l w b) i)) (64 / w))
       exec (.fadd h t m d a b) s = set (fun x y => encodeArith f m ftz ((decodeF f ftz x).add m (decodeF f ftz y))) ∧
       exec (.fsub h t m d a b) s = set (fun x y => encodeArith f m ftz ((decodeF f ftz x).add m (decodeF f ftz y).neg)) ∧
       exec (.fmul h t m d a b) s = set (fun x y => encodeArith f m ftz ((decodeF f ftz x).mul (decodeF f ftz y))) ∧
       exec (.fmin h t d a b) s = set (fMinMax f false ftz) ∧ exec (.fmax h t d a b) s = set (fMinMax f true ftz)) ∧
     (LaneRuns x h (formABC x a b' c) → ∀ (t : FT) (m : Rnd),
       let f := FTfmt t
       let w := f.width
       exec (.ffma h t m d a b' c) s = .next (laneSets s x h (formABC x a b' c) d fun l =>
         elems w (fun i => encodeArith f m ftz (((decodeF f ftz (elem w (srcV x.G x.K l a) i)).mul
           (decodeF f ftz (elem w (srcV x.G x.K l b') i))).add m (decodeF f ftz (elem w (ownV x.G x.K l c.r) i)))) (64 / w))) ∧
     (LaneRuns x h (formA x a allBits) →
       let set (g : Nat → Nat) : Ans := .next (laneSets s x h (formA x a allBits) d fun l =>
         elems 32 (fun i => g (elem 32 (srcV x.G x.K l a) i)) 2)
       exec (.frcp h d a) s = set (spFn32 .rcp ftz) ∧ exec (.frsq h d a) s = set (spFn32 .rsq ftz) ∧
       exec (.fsqrt h d a) s = set (spFn32 .sqrt ftz) ∧ exec (.fexp2 h d a) s = set (spFn32 .exp2 ftz) ∧
       exec (.flog2 h d a) s = set (spFn32 .log2 ftz) ∧ exec (.ftanh h d a) s = set (spFn32 .tanh ftz))) ∧
  (∀ (s : State) (x : Cur) (h : Hd) (d c : Reg) (a : Src) (nan : Bool) (m : Rnd), cur s = some x →
     (∀ k : CvtPair,
       let n := 64 / max (cvtDstW k) (cvtSrcW k)
       LaneRuns x h (formA x a (2 ^ (n * cvtSrcW k) - 1)) →
       exec (.cvt h k nan m d a) s = .next (laneSets s x h (formA x a (2 ^ (n * cvtSrcW k) - 1)) d fun l =>
         elems (cvtDstW k) (fun i => cvtElem k nan m (ftzOf x.G) (elem (cvtSrcW k) (srcV x.G x.K l a) i)) n)) ∧
     (∀ dst : FF,
       let F : Form := ⟨[a.perm], fun l => [srcRd x.G x.K l a allBits, ownRd x.G x.K l c allBits], srcFrees a⟩
       LaneRuns x h F →
       exec (.cvtef h dst nan m d a c) s = .next (laneEnd s x h F false fun l L =>
         let r (i : Nat) := cvtefElem dst nan m (ftzOf x.G) (elem 32 (srcV x.G x.K l a) i) (elem 32 (ownV x.G x.K l c) i)
         (L.set (rowOf x.K.depth d) (elems (FFfmt dst).width (fun i => (r i).1) 2)).set (rowOf x.K.depth c)
           (elems 32 (fun i => (r i).2) 2))))

/-- R136, R110: while no TMLOAD of the pair that TMSHAPE names is outstanding, TMACC adds one or two elements of a to the
pair (d, d + 1) of every active lane and sets DOMF on a domain fault; TMRED merges the pairs of the active lanes under
the fixed tree; TMFIN writes the exit value.

R112, R113, R137–R141: RED leaves in every active lane the fixed tree's value over the active lanes' terms and SCAN.s
the inclusive prefix; XGET and XGETU read the element that b's low 16 bits number across the group's lanes, XGET sign
extended; BALLOT leaves the mask of the active lanes whose predicate is set; PLOG applies its truth table. -/
def Obligations.MeanAndCrossLaneResults : Prop :=
  (∀ (s : State) (x : Cur) (h : Hd) (d : Reg) (a : Src), cur s = some x → tmBusy s x.G = false →
     let T := tabOf (s.core x.G.geo.core) x.G.tmshape
     let sh := x.G.tmshape
     let act := actMask x.G x.K h
     let pairOf (l : Nat) (r : Reg) : TX := txOfRegs (ownV x.G x.K l r) (ownV x.G x.K l (r + 1))
     (∀ both : Bool,
       let F : Form := ⟨[a.perm], fun l => [ownRd x.G x.K l d (2 ^ 48 - 1), ownRd x.G x.K l (d + 1) (2 ^ 32 - 1),
         srcRd x.G x.K l a (if both then allBits else 2 ^ 32 - 1)], srcFrees a⟩
       let r1 (l : Nat) := tmAcc sh T (pairOf l d) (srcV x.G x.K l a % 2 ^ 32)
       let r2 (l : Nat) := tmAcc sh T (r1 l).1 (srcV x.G x.K l a / 2 ^ 32)
       let r (l : Nat) : TX × Bool := if both then ((r2 l).1, (r1 l).2 || (r2 l).2) else r1 l
       LaneRuns x h F → (∀ l, (r l).2 = true → tmTrap x.G = false) →
       exec (.tmacc h both d a) s = .next (laneEnd s x h F ((bitsOf act 64).any fun l => (r l).2) fun l L =>
         (L.set (rowOf x.K.depth d) (txLo (tmCanon sh (r l).1))).set (rowOf x.K.depth d + 1) (txHi (tmCanon sh (r l).1)))) ∧
     (let F : Form := ⟨[a.perm], fun l => [ownRd x.G x.K l a.r (2 ^ 48 - 1), ownRd x.G x.K l (a.r + 1) (2 ^ 32 - 1)],
        srcPairFrees a⟩
      LaneRuns x h F →
       let y := tmCanon sh ((tree (tmMerge sh) (fun l => if act.testBit l then some (pairOf l a.r) else none) 0
         x.G.geo.w.log2).getD ⟨0, 0, 0⟩)
       exec (.tmred h d a) s = .next (laneEnd s x h F false fun _ L =>
         (L.set (rowOf x.K.depth d) (txLo y)).set (rowOf x.K.depth d + 1) (txHi y)) ∧
       exec (.tmfin h d a) s = .next (laneSets s x h F d fun l => tmExit sh T (pairOf l a.r)))) ∧
  (∀ (s : State) (x : Cur) (h : Hd) (d : Reg), cur s = some x →
     let act := actMask x.G x.K h
     (∀ a : Src, LaneRuns x h (formA x a allBits) →
       (∀ (t : RT) (op : BitVec 3) (m : Rnd),
         let f := redFn t op.toNat m (ftzOf x.G)
         exec (.red h t op m d a) s = .next (laneSets s x h (formA x a allBits) d fun _ =>
           (tree f (fun l => if act.testBit l then laneTerm f (rtW t) (srcV x.G x.K l a) else none) 0 x.G.geo.w.log2).getD 0)) ∧
       (∀ (op : BitVec 3) (m : Rnd),
         let f := redFn .s op.toNat m (ftzOf x.G)
         exec (.scan h op m d a) s = .next (laneSets s x h (formA x a allBits) d fun l =>
           (prefixAt f (fun k => if act.testBit k then laneTerm f 32 (srcV x.G x.K k a) else none) (l + 1) 0 none 7).getD 0))) ∧
     (∀ (t : ET) (a : RL) (b : Src),
       let n := 64 / etW t
       let j (l : Nat) := srcV x.G x.K l b % 2 ^ 16
       let v (l : Nat) := elem (etW t) (ownV x.G x.K (j l / n) a.r) (j l % n)
       let F : Form := ⟨[b.perm], fun l => [srcRd x.G x.K l b (2 ^ 16 - 1),
         readLane x.G x.K (j l / n) a.r ((2 ^ etW t - 1) * 2 ^ (etW t * (j l % n)))], rlFrees a ++ srcFrees b⟩
       LaneRuns x h F →
       exec (.xget h t d a b) s = .next (laneSets s x h F d fun l => wrap 64 (sext (etW t) (v l))) ∧
       exec (.xgetu h t d a b) s = .next (laneSets s x h F d v)) ∧
     (LaneRuns x h formNone → ∀ p pa pb : Prd,
       exec (.ballot h d p) s = .next (laneSets s x h formNone d fun _ =>
         maskOf ((bitsOf act 64).filter fun l => (x.G.lane l).pred p)) ∧
       ∀ tt : BitVec 4, exec (.plog h tt p pa pb) s = .next (laneSetsP s x h formNone p fun l =>
         tt.toNat.testBit (2 * ((x.G.lane l).pred pa).toNat + ((x.G.lane l).pred pb).toNat))))

/-- R66, R90, R118, R171: a lane instruction whose permutation breaks R66's limits raises ILLEGAL, and otherwise one whose
guard differs within a ligature raises LIGDIV. Both are precise: the gang is PARKED at the instruction with one event
whose ERETPC is the instruction, and no register, predicate, flag or memory byte changes.

R172, R173, R185: in a group with no ligature, an active lane of a lane instruction that reads an uncorrectable word
parks with cause ECC and the register's number; its registers stay as they were. An active lane whose reads are
correctable and whose effect is no domain fault has its effect all the same. The instruction itself is over: the gang
stands after it, stopped. -/
def Obligations.LaneTrapsAndParking : Prop :=
  (∀ (s : State) (x : Cur) (i : Instr) (op : LaneOp), cur s = some x →
     laneOpOf (s.core x.G.geo.core) x.G i = some op → tmBusy s x.G = false →
     ∀ c : Nat, (op.perms.any (permBad x.G.geo.w) = true ∧ c = 0x01 ∨
         op.perms.any (permBad x.G.geo.w) = false ∧ ligDiv x.G x.K i.hd = true ∧ c = 0x0D) →
       ∃ (t : State) (H : Group) (e : FaultEv), exec i s = .next t ∧ OnlyGroup s t x.g ∧ t.group? x.g = some H ∧
         H = { x.G with gangs := H.gangs, evs := x.G.evs ++ [e] } ∧
         e.cause = c ∧ e.pc = x.K.pc ∧ e.eret = x.K.pc ∧ e.addr = 0 ∧ e.lanes = x.K.mask ∧ e.tick = s.tick ∧
         H.gangs = x.G.gangs.map fun D => if D.id = x.K.id then { x.K with st := .parked, hold := .none, stopped := true } else D) ∧
  (∀ (s : State) (x : Cur) (i : Instr) (op : LaneOp) (l n : Nat) (r : Rd), cur s = some x →
     laneOpOf (s.core x.G.geo.core) x.G i = some op → tmBusy s x.G = false → x.G.lanes.length ≤ 64 →
     op.perms.any (permBad x.G.geo.w) = false → ligN x.G = 1 → ligDiv x.G x.K i.hd = false →
     (actMask x.G x.K i.hd).testBit l = true → l < x.G.lanes.length →
     (op.reads x.G x.K l).find? (fun r => r.bad.isSome) = some r → r.bad = some n →
     ∃ (t : State) (H : Group) (o : Op) (e : OpLane), exec i s = .next t ∧ OnlyGroup s t x.g ∧ t.group? x.g = some H ∧
       H.lane l = x.G.lane l ∧ H.ops = x.G.ops ++ [o] ∧ e ∈ o.lanes ∧ e.lane = l ∧ e.st = .parked 0x0E n s.tick 0 r.sub ∧
       (∀ m, m < x.G.lanes.length → (actMask x.G x.K i.hd).testBit m = true → (∀ q ∈ op.reads x.G x.K m, q.bad = none) →
         (op.eff x.G x.K (actMask x.G x.K i.hd) m).fault = none →
         H.lane m = (op.eff x.G x.K (actMask x.G x.K i.hd) m).apply ((x.G.lane m).freeAll x.K.depth op.frees)) ∧
       H.gangs = x.G.gangs.map fun D => if D.id = x.K.id then { x.K.adv i.hd s.tick with stopped := true } else D)

/-- R43, R64, R65, R172: the frame of every lane instruction but the transfers, branches and memory accesses, whatever it
ends in. Nothing changes outside its own group, no byte of memory among it. In the group, only lanes, gangs, GSTAT's
FREEDREAD and DOMF, operations and events change; in a lane, only the rows the instruction writes or frees and the
predicate it writes; a lane that is not active keeps everything. -/
def Obligations.LaneFrame : Prop :=
  ∀ (s t : State) (x : Cur) (i : Instr) (op : LaneOp), cur s = some x →
    laneOpOf (s.core x.G.geo.core) x.G i = some op → exec i s = .next t →
    OnlyGroup s t x.g ∧ (∀ a, t.homeByte a = s.homeByte a) ∧
    ∃ H : Group, t.group? x.g = some H ∧ GroupKeeps x.G H ∧
      (∃ b, H.gstat = x.G.gstat ||| b ∧ b ||| freedBit ||| domBit = freedBit ||| domBit) ∧
      ∀ l, (((actMask x.G x.K i.hd).testBit l = false ∨ 64 ≤ l) → H.lane l = x.G.lane l) ∧
        (∀ row, row ∉ laneRows x.K.depth i → row ∉ op.frees.map (rowOf x.K.depth) → SMap.sorted (x.G.lane l).regs = true →
          SMap.get? (H.lane l).regs row = SMap.get? (x.G.lane l).regs row) ∧
        ∀ p : Prd, lanePrd i ≠ some p → (H.lane l).pred p = (x.G.lane l).pred p

/-! ### Uniform instructions (R44, R147–R167) -/

/-- R156, R157, R44: the uniform integer instructions complete with their value of the first active lane's a and b in
register d of every active lane; UCMP writes the truth to a predicate of every active lane. -/
def Obligations.UniformIntegerResults : Prop :=
  ∀ (s : State) (x : Cur) (h : Hd) (d a : Reg) (b : UOp) (pd : Prd), cur s = some x →
    (UniRuns x h (a :: uopRegs b) →
      let u := uVal x a
      let v := uopV x b
      let set (r : Nat) : Ans := .next (uniSets s x h (a :: uopRegs b) d r)
      let put (r : Bool) : Ans := .next (s.doneP x h ((uniRead x (a :: uopRegs b)).uPutPred x.K pd r))
      exec (.uadd h d a b) s = set ((u + v) % 2 ^ 64) ∧ exec (.usub h d a b) s = set ((u + 2 ^ 64 - v) % 2 ^ 64) ∧
      exec (.umul h d a b) s = set (u * v % 2 ^ 64) ∧ exec (.uand h d a b) s = set (u &&& v) ∧
      exec (.uor h d a b) s = set (u ||| v) ∧ exec (.uxor h d a b) s = set (u ^^^ v) ∧
      exec (.ushl h d a b) s = set (if v < 64 then u * 2 ^ v % 2 ^ 64 else 0) ∧
      exec (.ushr h d a b) s = set (if v < 64 then u / 2 ^ v else 0) ∧
      exec (.usar h d a b) s = set (wrap 64 (sext 64 u / (2 : Int) ^ min v 64)) ∧
      exec (.umin h d a b) s = set (if sext 64 u ≤ sext 64 v then u else v) ∧
      exec (.umax h d a b) s = set (if sext 64 u ≤ sext 64 v then v else u) ∧
      exec (.ucmp h .eq pd a b) s = put (u == v) ∧ exec (.ucmp h .ne pd a b) s = put (u != v) ∧
      exec (.ucmp h .lt pd a b) s = put (decide (sext 64 u < sext 64 v)) ∧
      exec (.ucmp h .le pd a b) s = put (decide (sext 64 u ≤ sext 64 v)) ∧
      exec (.ucmp h .ltu pd a b) s = put (decide (u < v)) ∧ exec (.ucmp h .leu pd a b) s = put (decide (u ≤ v))) ∧
    (UniRuns x h (uopRegs b) → exec (.umov h d b) s = .next (uniSets s x h (uopRegs b) d (uopV x b))) ∧
    (UniRuns x h [a] → exec (.rdfl h d a) s = .next (uniSets s x h [a] d (uVal x a)))

/-- R59, R152: RET undoes CALL. Where a CALL of n registers has completed and the same gang, not changed since, executes
RET with its guard passed, the gang is back at the call's depth and at the word after the call. -/
def Obligations.ReturnUndoesCall : Prop :=
  ∀ (s t : State) (x y : Cur) (h h' : Hd) (k : BitVec 3) (off : BitVec 24), cur s = some x → x.G.handler = none →
    1 ≤ k.toNat → k.toNat ≤ 6 → x.K.pc % 4 = 0 → x.K.pc + 8 < 2 ^ 55 → x.G.bottom ≤ x.K.depth →
    x.K.depth + 4 * k.toNat + 24 ≤ x.G.bottom + x.G.geo.cap → UniRuns x h [] → x.K.mask.testBit x.K.first = true →
    x.K.first < x.G.lanes.length → SMap.sorted (x.G.lane x.K.first).bad = true → cur t = some y →
    (∃ u, exec (.call h k off) s = .next u ∧ u.group? x.g = some y.G ∧ y.G.gang? x.K.id = some y.K ∧ y.g = x.g) →
    UniRuns y h' [] →
    ∃ u H K', exec (.ret h') t = .next u ∧ u.group? y.g = some H ∧ H.gang? x.K.id = some K' ∧
      K'.pc = x.K.pc + 8 ∧ K'.depth = x.K.depth ∧ K'.mask = x.K.mask ∧ K'.slices = x.K.slices

/-- R59, R60, R152: outside a handler, CALL of n = 4k registers and CALLR complete where the window still fits the stack:
the link (n and the address after the call) stands in the caller's v(7 + n), the callee's n new registers are freed, the
gang goes to the target at depth D + n. RET of a link that a call left, at a depth that holds it, goes back to the
address in it at the caller's depth and frees the registers it gives up.

R59, R60, R90, R152, R171: where CALL, CALLR and RET trap. In a handler the calls raise ILLEGAL; a call whose window
would pass CAP raises SPILL and a RET at BOTTOM raises FILL, each parking the gang at the instruction with no register
changed; a register target that is misaligned or past 2^55 raises ILLEGAL for CALLR and JMPR. -/
def Obligations.CallsAndReturns : Prop :=
  (∀ (s : State) (x : Cur) (h : Hd) (k : BitVec 3) (a : Reg) (off : BitVec 24), cur s = some x →
     let n := 4 * k.toNat
     let link := k.toNat * 2 ^ 61 + (x.K.pc + 8) % 2 ^ 55
     let called (rs : List Reg) (t : Nat) : State :=
       s.finish x ((uniRead x rs).onLanes x.K.mask fun _ L =>
         (List.range n).foldl (fun L i => L.free (8 + (x.K.depth + 24 + i))) (L.set (8 + (x.K.depth + n - 1)) link))
         { x.K.jump t s.tick with depth := x.K.depth + n }
     (x.G.handler = none → x.K.depth + n + 24 ≤ x.G.bottom + x.G.geo.cap →
       (UniRuns x h [] → exec (.call h k off) s = .next (called [] (wordTarget x.K.pc 24 off.toNat))) ∧
       (UniRuns x h [a] → uVal x a < 2 ^ 55 → uVal x a % 4 = 0 → exec (.callr h k a) s = .next (called [a] (uVal x a)))) ∧
     (let row := 8 + (x.K.depth - 1)
      let back := (x.G.lane x.K.first).val row
      let m := 4 * (back / 2 ^ 61)
      UniRuns x h [] → x.G.bottom + m ≤ x.K.depth → 0 < m → m < 28 → back / 2 ^ 55 % 2 ^ 6 = 0 → back % 4 = 0 →
      SMap.get? (x.G.lane x.K.first).bad row = none →
      exec (.ret h) s = .next (s.finish x (x.G.onLanes x.K.mask fun _ L =>
        (List.range m).foldl (fun L i => L.free (8 + (x.K.depth + 24 - m + i))) L)
        { x.K.jump (back % 2 ^ 55) s.tick with depth := x.K.depth - m }))) ∧
  (∀ (s : State) (x : Cur) (h : Hd) (k : BitVec 3) (a : Reg) (off : BitVec 24), cur s = some x →
     (x.G.handler ≠ none → UniRuns x h [] → exec (.call h k off) s = .next (s.trap x 0x01 (Instr.call h k off).opc) ∧
       exec (.callr h k a) s = .next (s.trap x 0x01 (Instr.callr h k a).opc)) ∧
     (x.G.handler = none → UniRuns x h [] → x.G.bottom + x.G.geo.cap < x.K.depth + 4 * k.toNat + 24 →
       exec (.call h k off) s = .next (s.trap x 0x0A (Instr.call h k off).opc)) ∧
     (UniRuns x h [] → x.K.depth ≤ x.G.bottom → exec (.ret h) s = .next (s.trap x 0x0B 0x88)) ∧
     (UniRuns x h [a] → (2 ^ 55 ≤ uVal x a ∨ uVal x a % 4 ≠ 0) →
       exec (.jmpr h a) s = .next (s.trapFreed x (uFreed x a) 0x01 0x85) ∧
       (x.G.handler = none → exec (.callr h k a) s = .next (s.trapFreed x (uFreed x a) 0x01 (Instr.callr h k a).opc))))

/-- R150, R151, R153, R155: NOP only advances; YIELD advances and holds its gang; the branches go to their word offset
from the gang's own address where their condition holds and fall through otherwise; JMPR goes to a legal target; LOOP
counts down; TRAP parks the gang at the next word with its code.

R44, R147: a uniform instruction that checks nothing before its guard only advances its gang where the guard fails at
the first active lane; where it passes and a source is uncorrectable, the whole gang parks at it with cause ECC (R148). -/
def Obligations.UniformFlowAndGuard : Prop :=
  (∀ (s : State) (x : Cur) (h : Hd) (a : Reg) (p : Prd) (off : BitVec 24), cur s = some x →
     let dest : Nat := wordTarget x.K.pc 24 off.toNat
     let br (rs : List Reg) (c : Prop) (t : State) : Prop :=
       (c → t = uniJumps s x rs dest) ∧ (¬c → t = s.doneP x h (uniRead x rs))
     (UniRuns x h [] →
       exec (.nop h) s = .next (s.doneP x h x.G) ∧
       exec (.yield h) s = .next (s.finish x x.G { x.K.adv h s.tick with hold := .yield (s.tick + 8) }) ∧
       exec (.br h off) s = .next (uniJumps s x [] dest) ∧
       (∃ t, exec (.brany h p off) s = .next t ∧ br [] (∃ l, l < 64 ∧ x.K.mask.testBit l = true ∧ (x.G.lane l).pred p = true) t) ∧
       (∃ t, exec (.brall h p off) s = .next t ∧ br [] (∀ l, l < 64 → x.K.mask.testBit l = true → (x.G.lane l).pred p = true) t) ∧
       ∃ (t : State) (H : Group) (e : FaultEv), exec (.trap h off) s = .next t ∧ OnlyGroup s t x.g ∧ t.group? x.g = some H ∧
         H = { x.G with gangs := H.gangs, evs := x.G.evs ++ [e] } ∧ e.cause = 0x10 ∧ e.addr = off.toNat ∧ e.pc = x.K.pc ∧
         e.eret = x.K.pc + 4 * h.len ∧
         H.gangs = x.G.gangs.map fun D => if D.id = x.K.id then
           { x.K.adv h s.tick with st := .parked, hold := .none, stopped := true } else D) ∧
     (UniRuns x h [a] →
       (∃ t, exec (.brc h 0 a off) s = .next t ∧ br [a] (uVal x a = 0) t) ∧
       (∃ t, exec (.brc h 1 a off) s = .next t ∧ br [a] (uVal x a ≠ 0) t) ∧
       (∃ t, exec (.brc h 2 a off) s = .next t ∧ br [a] (sext 64 (uVal x a) < 0) t) ∧
       (∃ t, exec (.brc h 3 a off) s = .next t ∧ br [a] (sext 64 (uVal x a) ≤ 0) t) ∧
       (uVal x a < 2 ^ 55 → uVal x a % 4 = 0 → exec (.jmpr h a) s = .next (uniJumps s x [a] (uVal x a))) ∧
       (uVal x a ≤ 1 → exec (.loop h a off) s = .next (uniSets s x h [a] a 0)) ∧
       (1 < uVal x a → exec (.loop h a off) s =
         .next (s.finish x ((uniRead x [a]).uPut x.K a (uVal x a - 1)) (x.K.jump dest s.tick))))) ∧
  (∀ (s : State) (x : Cur) (i : Instr), cur s = some x → plainUniform i = true →
     (uniGuard x.G x.K i.hd = false → exec i s = .next (s.doneP x i.hd x.G)) ∧
     (∀ n, uniGuard x.G x.K i.hd = true → uBad x (plainReads i) = some n →
       exec i s = .next (s.uniFault x ((plainReads i).any (uFreed x)) 0x0E n i.opc)))

/-- R44, R68, R149: the frame of those uniform instructions but RET, whatever they end in: nothing changes outside the
group, no byte of memory among it; in the group, lanes that are not active keep everything, and an active lane keeps
every register but the destination, and every predicate but the one that UCMP names. -/
def Obligations.UniformFrame : Prop :=
  ∀ (s t : State) (x : Cur) (i : Instr), cur s = some x → plainUniform i = true → exec i s = .next t →
    (∀ h, i ≠ .ret h) →
    OnlyGroup s t x.g ∧ (∀ a, t.homeByte a = s.homeByte a) ∧
    ∃ H : Group, t.group? x.g = some H ∧ GroupKeeps x.G H ∧
      (H.gstat = x.G.gstat ∨ H.gstat = x.G.gstat ||| freedBit) ∧ H.ops = x.G.ops ∧
      ∀ l, (x.K.mask.testBit l = false → H.lane l = x.G.lane l) ∧
        (∀ row, row ∉ (uniDest i).toList.map (rowOf x.K.depth) →
          SMap.get? (H.lane l).regs row = SMap.get? (x.G.lane l).regs row) ∧
        ∀ p : Prd, (∀ h c a b, i ≠ .ucmp h c p a b) → (H.lane l).pred p = (x.G.lane l).pred p

/-- R67, R166, R167: RDSR of each special register but LANE writes its value into every active lane, RDSR of LANE gives
each active lane its own number, and TICK writes the global tick.

R67, R68, R90, R166: where a WRSR traps. A bad TMSHAPE code, a LEASE of 0 and a bad POOLMAP raise ILLEGAL, privilege
or none; a good value of a privileged register without privilege raises PRIV. The trap is precise. That an ILLEGAL which depends on the
value written comes before PRIV is the model's choice (log 106). -/
def Obligations.SpecialRegisterReadsAndTraps : Prop :=
  (∀ (s : State) (x : Cur) (h : Hd) (d : Reg) (b : Block) (r : Region), cur s = some x → UniRuns x h [] →
     s.block? x.G.geo.bid = some b → s.region? b.rid = some r →
     let G := x.G
     let k := s.core G.geo.core
     let rd (n : BitVec 8) (v : Nat) : Prop := exec (.rdsr h n d) s = .next (uniSets s x h [] d v)
     rd 0x01 G.geo.w ∧ rd 0x02 G.geo.gi ∧ rd 0x03 b.idx ∧ rd 0x04 G.geo.core ∧ rd 0x05 s.sys.devid ∧ rd 0x06 G.gstat ∧
     rd 0x07 G.wctmax ∧ rd 0x08 (poolmapV k) ∧ rd 0x09 G.tmshape ∧
     (∀ i : Nat, i < 4 → rd (.ofNat 8 (0x0A + i)) ((G.geo.shape[i]?).getD 0)) ∧
     rd 0x0E (x.K.depth + G.bottom * 2 ^ 16 + G.geo.cap * 2 ^ 32 + G.geo.slim * 2 ^ 48) ∧ rd 0x0F G.spillbase ∧
     (∀ i : Nat, i < 4 → rd (.ofNat 8 (0x10 + i)) ((s.leases[i]?).getD 0)) ∧
     rd 0x14 G.fregs.pc ∧ rd 0x15 G.fregs.cause ∧ rd 0x16 G.fregs.addr ∧ rd 0x17 G.fregs.lanes ∧ rd 0x18 G.fregs.tick ∧
     rd 0x19 G.fregs.eret ∧ rd 0x1A r.rcb.handler ∧ rd 0x1B r.addr ∧
     exec (.rdsr h 0x00 d) s =
       .next (s.doneP x h (G.onLanes x.K.mask fun l L => L.set (rowOf x.K.depth d) l)) ∧
     exec (.tick h d) s = .next (uniSets s x h [] d s.tick)) ∧
  (∀ (s : State) (x : Cur) (h : Hd) (a : Reg) (i : BitVec 2), cur s = some x → UniRuns x h [a] →
     let v := uVal x a
     let ill (j : Instr) : Prop := exec j s = .next (s.trapFreed x (uFreed x a) 0x01 j.opc)
     let priv (j : Instr) : Prop := exec j s = .next (s.trap x 0x11 j.opc)
     let privRead (j : Instr) : Prop := exec j s = .next (s.trapFreed x (uFreed x a) 0x11 j.opc)
     (tmCodeOk (v % 2 ^ 8) = false → ill (.wrsrTmshape h a)) ∧
     (v % 2 ^ 32 = 0 → ill (.wrsrLease h i a)) ∧
     (poolBad v = true → ill (.wrsrPoolmap h a)) ∧
     (s.privileged x.G = false →
       priv (.wrsr h 0x0F a) ∧ priv (.wrsr h 0x1A a) ∧ (v % 2 ^ 32 ≠ 0 → privRead (.wrsrLease h i a)) ∧
       (poolBad v = false → privRead (.wrsrPoolmap h a))))

/-- R67–R69, R149, R162, R166: a WRSR that its register accepts, and TMSHAPE, complete with the new value on its way to
the register: in force for instructions that issue 2 or more cycles later. Reserved bits are dropped; the privileged
registers need the region's privilege. The write keeps the sticky bits that have been set in its own tick.

R65, R67–R69, R149: a write that is due takes effect in its register and nowhere else: GSTAT keeps LIGW and every
sticky bit set since the write was issued; SPILLBASE, TMSHAPE and ERETPC are the group's, POOLMAP's defaults the core's,
a LEASE the device's. A write that is not due leaves the machine as it is. -/
def Obligations.SpecialRegisterWritesTakeEffect : Prop :=
  (∀ (s : State) (x : Cur) (h : Hd) (a : Reg) (code : BitVec 8) (i : BitVec 2), cur s = some x →
     let v := uVal x a
     let put (rs : List Reg) (sr w : Nat) : Ans :=
       .next (s.doneP x h { uniRead x rs with wr := (uniRead x rs).wr ++ [⟨sr, w, s.tick + 2, (uniRead x rs).stuck⟩] })
     let d (n : Nat) : Nat := v / 2 ^ n % 2 ^ 7
     (UniRuns x h [] → exec (.tmshape h code) s = put [] 0x09 code.toNat) ∧
     (UniRuns x h [a] →
       exec (.wrsrGstat h a) s = put [a] 0x06 (v / 2 ^ 4 % 2 ^ 4 * 2 ^ 4) ∧
       exec (.wrsr h 0x19 a) s = put [a] 0x19 (v % 2 ^ 55 / 4 * 4) ∧
       (tmCodeOk (v % 2 ^ 8) = true → exec (.wrsrTmshape h a) s = put [a] 0x09 (v % 2 ^ 8)) ∧
       (s.privileged x.G = true →
         exec (.wrsr h 0x0F a) s = put [a] 0x0F (v % 2 ^ 55 / 2 ^ 9 * 2 ^ 9) ∧
         exec (.wrsr h 0x1A a) s = put [a] 0x1A (v % 2 ^ 55 / 4 * 4) ∧
         (v % 2 ^ 32 ≠ 0 → exec (.wrsrLease h i a) s = put [a] (0x10 + i.toNat) (v % 2 ^ 32)) ∧
         (4 ≤ d 32 → d 32 ≤ d 40 → d 40 + 2 ≤ d 48 → d 48 ≤ 64 → exec (.wrsrPoolmap h a) s = put [a] 0x08 v)))) ∧
  (∀ (s : State) (g : Nat) (G : Group) (sr val due st : Nat), s.group? g = some G → G.wr = [⟨sr, val, due, st⟩] →
     let G0 := { G with wr := [] }
     (s.tick < due → s.dueWrites g = s) ∧
     (due ≤ s.tick →
       (sr = 0x06 → s.dueWrites g = s.putGroup g { G0 with gstat := G.gstat % 8 + val ||| st }) ∧
       (sr = 0x09 → s.dueWrites g = s.putGroup g { G0 with tmshape := val }) ∧
       (sr = 0x0F → s.dueWrites g = s.putGroup g { G0 with spillbase := val }) ∧
       (sr = 0x19 → s.dueWrites g = s.putGroup g { G0 with fregs := { G.fregs with eret := val } }) ∧
       (sr = 0x08 → s.dueWrites g = (s.putGroup g G0).onCore G.geo.core fun k =>
         { k with dq := [val / 2 ^ 32 % 2 ^ 7, val / 2 ^ 40 % 2 ^ 7, val / 2 ^ 48 % 2 ^ 7] }) ∧
       (0x10 ≤ sr → sr ≤ 0x13 → s.dueWrites g = { s.putGroup g G0 with leases := setAt s.leases (sr - 0x10) val })))

/-- R161, R52: LIG of n lanes, n a power of two up to the group's width, binds every ligature and UNLIG unbinds them, in
LIGW of GSTAT, where the gang holds every slice that has not retired and, for LIG, no ligature is split and no slice has
a stack entry; a gang that holds less raises MXSPLIT, and n above the width ILLEGAL. That these two traps are raised whatever the guard is
the model's choice (log 102). -/
def Obligations.LigatureBinding : Prop :=
  ∀ (s : State) (x : Cur) (h : Hd) (n : BitVec 7), cur s = some x →
    (x.K.slices = x.G.unretired → UniRuns x h [] →
      exec (.unlig h) s = .next (s.doneP x h { x.G with gstat := x.G.gstat / 8 * 8 }) ∧
      (n.toNat ≤ x.G.geo.w → ligBlocked x.G x.K n.toNat = false →
        exec (.lig h n) s = .next (s.doneP x h { x.G with gstat := x.G.gstat / 8 * 8 + n.toNat.log2 })) ∧
      (n.toNat ≤ x.G.geo.w → ligBlocked x.G x.K n.toNat = true → exec (.lig h n) s = .next (s.trap x 0x0D 0xC3))) ∧
    (x.G.geo.w < n.toNat → UniRuns x h [] → exec (.lig h n) s = .next (s.trap x 0x01 (Instr.lig h n).opc)) ∧
    (x.K.slices ≠ x.G.unretired → exec (.unlig h) s = .next (s.trap x 0x0C (Instr.unlig h).opc) ∧
      (n.toNat ≤ x.G.geo.w → exec (.lig h n) s = .next (s.trap x 0x0C (Instr.lig h n).opc)))

/-! ### Memory (R186–R221, R257–R265) -/

/-- R214–R221: LD, ST, ATOM, CXCH and CLDR complete their issue: the operation stands in the group with each active lane's
address (the register plus the sign-extended offset) and operands, and its lanes' accesses are made as far as they can
be. With no active lane the instruction only advances. CXCH and CLDR need the whole group.

R172, R189, R214: the address checks of a lane's LD, ST or ATOM, in their order: past 2^55 XLATE, misaligned ALIGN, in
the scratchpad aperture the block's own window with SPRANGE outside it, a peer aperture XLATE; any other address is
translated. -/
def Obligations.MemoryIssueAndChecks : Prop :=
  (∀ (s : State) (x : Cur) (i : Instr) (em : EM) (ll : Bool), cur s = some x →
     ((∃ h sz d a, i = .ld h sz d a em ∧ ll = true) ∨ (∃ h sz a b, i = .st h sz a b em ∧ ll = false) ∨
       (∃ h sz d a b, i = .atom h sz d a b em ∧ ll = true) ∨
       (∃ h d a b, i = .cxch h d a b em ∧ ll = true ∧ x.K.slices = x.G.unretired) ∨
       (∃ h d a, i = .cldr h d a em ∧ ll = true ∧ x.K.slices = x.G.unretired ∧ (em.op = 11 → x.G.tmshape < 0x10))) →
     MemRuns s x i em →
     ((∃ l, l < 64 ∧ (actMask x.G x.K i.hd).testBit l = true) →
       exec i s = .next ((memIssued s x i ll).resolveOp x.g (memOp s x i ll))) ∧
     ((∀ l, l < 64 → (actMask x.G x.K i.hd).testBit l = false) →
       exec i s = .next (s.finish x x.G (if ll then x.K.advLL i.hd s.tick else x.K.adv i.hd s.tick)))) ∧
  (∀ (s : State) (G : Group) (b : Block) (a : Acc) (va : Nat),
     (2 ^ 55 ≤ va → s.adrPlain G b a va = .flt 0x04 va) ∧
     (va < 2 ^ 55 → va % a.sz ≠ 0 → s.adrPlain G b a va = .flt 0x03 va) ∧
     (va < 2 ^ 55 → va % a.sz = 0 →
       (0x7FFFFFFFE00000 ≤ va →
         ((s.window b).2 < va % 2 ^ 21 + a.sz → s.adrPlain G b a va = .flt 0x07 (max (va % 2 ^ 21) (s.window b).2)) ∧
         (va % 2 ^ 21 + a.sz ≤ (s.window b).2 → (s.core b.core).mapAt b.id (va % 2 ^ 21) = none →
           s.adrPlain G b a va = .sp ((s.window b).1 + va % 2 ^ 21))) ∧
       (0x7FFFFFFF600000 ≤ va → va < 0x7FFFFFFFE00000 → s.adrPlain G b a va = .flt 0x04 va) ∧
       (va < 0x7FFFFFFF600000 → s.adrPlain G b a va = s.adrMem G a va)))

/-- R189, R201, R213, R216, R257: what one lane of LD or ST does once its address is known. An SP access is performed at
once; a load that L1 serves binds its value and one that it does not serve waits for the home, which one that meets an
uncorrectable word of a line does too (R185); a store that L1 takes is landed; an access that does not go through L1, and a
store to a CP page that this core does not own (R262), wait at the vault controller; a fault parks the lane with its cause. -/
def Obligations.MemoryLaneEffects : Prop :=
  ∀ (s : State) (g : Nat) (G : Group) (b : Block) (o : Op) (l : OpLane) (hint : BitVec 2) (h : Hd) (sz : MSz) (d : Reg)
    (ra rb : RL) (em : EM) (off pa pte : Nat),
    let c := G.geo.core
    let n := sz.bytes
    em.hint = hint →
    (∀ cause addr sub, s.memLane g G b o l (.flt cause addr sub) = ({ l with st := .parked cause addr s.tick 0 sub }, s)) ∧
    (o.instr = .ld h sz d ra em →
      s.memLane g G b o l (.sp off) = ({ l with st := .bound ((s.core c).spRead off n), time := s.spTime b l.va }, s) ∧
      (pathOf pte pa hint.toNat = 0 → (s.core c).caPoison pa n ≠ none → s.memLane g G b o l (.mem pa pte) =
        ({ l with pa := pa, pte := pte, st := .home }, s.onCore c fun k => k.caDrop (lineOf pa))) ∧
      (pathOf pte pa hint.toNat = 0 → (s.core c).caPoison pa n = none →
        (∀ v t, (s.core c).caLoad s.tick pa n = some (v, t) → s.memLane g G b o l (.mem pa pte) =
          ({ l with pa := pa, pte := pte, st := .bound v, time := t }, s.onCore c fun k => k.caTouch (lineOf pa) hint.toNat)) ∧
        ((s.core c).caLoad s.tick pa n = none →
          s.memLane g G b o l (.mem pa pte) = ({ l with pa := pa, pte := pte, st := .home }, s))) ∧
      (pathOf pte pa hint.toNat ≠ 0 → s.memLane g G b o l (.mem pa pte) = ({ l with pa := pa, pte := pte, st := .vault }, s))) ∧
    (o.instr = .st h sz ra rb em →
      s.memLane g G b o l (.sp off) = ({ l with st := .landed }, (s.spStore b l.va n l.y).raiseWct g s.tick) ∧
      (pathOf pte pa hint.toNat = 0 → (pteCC pte ≠ 2 ∨ s.ownsCp (ptePA pte) c = true) → s.memLane g G b o l (.mem pa pte) =
        ({ l with pa := pa, pte := pte, st := .landed }, s.caStore c g pa n l.y hint.toNat pte)) ∧
      ((pathOf pte pa hint.toNat ≠ 0 ∨ (pteCC pte = 2 ∧ s.ownsCp (ptePA pte) c = false)) → s.memLane g G b o l (.mem pa pte) = ({ l with pa := pa, pte := pte, st := .vault }, s)))

/-- R216, R257: the frame of a lane's store that L1 takes: at a line that stands in L1, or comes into a set with a way free,
every byte as the core sees it is unchanged but the stored bytes, which hold the low bytes of the operand, and no byte
at any home changes.

R189: the frame of a lane's store to SP: in the block's core the stored bytes of SP hold the low bytes of the operand
and every other byte of SP is unchanged; every other core and all memory are unchanged. -/
def Obligations.StoreFrames : Prop :=
  (∀ (s : State) (c g pa n v hint pte a : Nat), pa % 128 + n ≤ 128 →
     ((s.core c).caLine (lineOf pa) ≠ none ∨ (SMap.getD (s.core c).vord (caSet (lineOf pa)) []).length < (s.core c).ways) →
     let t := s.caStore c g pa n v hint pte
     t.homeByte a = s.homeByte a ∧ t.coreByte c a = if pa ≤ a ∧ a < pa + n then v / 2 ^ (8 * (a - pa)) % 256 else s.coreByte c a) ∧
  (∀ (s : State) (b : Block) (va n v o : Nat), SMap.sorted (s.core b.core).sp = true →
     let t := s.spStore b va n v
     let p := (s.window b).1 + va % 2 ^ 21
     ((t.core b.core).spByte o = if p ≤ o ∧ o < p + n then .ofNat 8 (v / 2 ^ (8 * (o - p))) else (s.core b.core).spByte o) ∧
     (∀ d, d ≠ b.core → t.core d = s.core d) ∧ ∀ a, t.homeByte a = s.homeByte a)

/-- R207, R218, R257, R259: a write of `n` bytes within a line, performed at its home, stores the low bytes of the value
there and changes no other byte, whatever keys the lines stand under. -/
def Obligations.HomeWriteFrame : Prop :=
  ∀ (s : State) (a n v b : Nat) (hc : Bool), s.MemOk → a % 128 + n ≤ 128 →
    (s.homeWrite a n v hc).homeByte b = if a ≤ b ∧ b < a + n then .ofNat 8 (v / 2 ^ (8 * (b - a))) else s.homeByte b

/-- R64, R65, R74, R214–R221: the frame of LD, ST, ATOM, CXCH and CLDR, whatever they end in. No lane of another group
changes. In the group no predicate changes, and no register but those that last-use marks free: a result lands later. Of
the group's other state only gangs, flags, FREEDREAD, the write completion times it has to wait for, operations and events
change. -/
def Obligations.MemoryFrame : Prop :=
  ∀ (s t : State) (x : Cur) (i : Instr), cur s = some x → (accOf i).isSome = true → exec i s = .next t →
    (∀ g, g ≠ x.g → (t.group? g).map (·.lanes) = (s.group? g).map (·.lanes)) ∧
    ∃ H : Group, t.group? x.g = some H ∧
      H = { x.G with lanes := H.lanes, gangs := H.gangs, flags := H.flags, gstat := H.gstat, stuck := H.stuck, wr := H.wr,
                     wctmax := H.wctmax, hbw := H.hbw, handler := H.handler, ops := H.ops, evs := H.evs } ∧
      (H.handler.map fun (c : HandlerCtx) => { c with gangs := [] }) = (x.G.handler.map fun (c : HandlerCtx) => { c with gangs := [] }) ∧
      (H.gstat = x.G.gstat ∨ H.gstat = x.G.gstat ||| freedBit) ∧
      ∀ l, (H.lane l).preds = (x.G.lane l).preds ∧
        ∀ row, row ∉ (memFrees i).map (rowOf x.K.depth) → SMap.sorted (x.G.lane l).regs = true →
          SMap.get? (H.lane l).regs row = SMap.get? (x.G.lane l).regs row

/-- R218–R220: ATOMIC_AT_HOME of the lowest waiting lane of an ATOM or CXCH on local memory, the first request of its core
to that home, whose line its own core holds no dirty bytes of and no move concerns, and that no other limb of a ligature has to be
performed with: the old bytes return to the lane, the operation's value stands at the home, and no other byte changes.

R207, R213: VAULT_ACCESS of the first waiting request to its home, of a page that is not CP, outside configuration
space and on this device, that passes the LLC by: a load binds the home's bytes and changes nothing else; a store puts
its bytes at the home and changes no other byte.

R173: where one limb of a ligature faults at its home, neither event performs any limb: no byte of memory changes. -/
def Obligations.AtomicsAtHomeAndVault : Prop :=
  (∀ (s : State) (g op lane : Nat) (rem : Option Nat) (G : Group) (o : Op) (b : Block) (l : OpLane), s.MemOk →
     s.group? g = some G → G.op? op = some o → s.block? G.geo.bid = some b → o.first OpLane.atHome = some l → l.lane = lane →
     s.drained l.pa = true → s.isLocal l.pa = true → l.pa % 128 + o.acc.sz ≤ 128 → s.lineMoves G.geo.core l.pa = false →
     s.vaultFirst G.geo.core o l = true → s.ligHomeFlt G o l = false → o.together G l = [l] →
     (∀ cl, (s.core G.geo.core).caLine (lineOf l.pa) = some cl → cl.dirty = 0) →
     ((∃ h sz d a e em, o.instr = .atom h sz d a e em) ∨ ∃ h d a e em, o.instr = .cxch h d a e em) →
     ∃ u t : State, exec (.atomicAtHome g op lane rem) s = .next t ∧
       t = u.afterLanes g (o.putLane { l with st := .bound (s.homeRead l.pa o.acc.sz), time := (s.homeLine (lineOf l.pa)).wt }) ∧
       ∀ a, t.homeByte a = if l.pa ≤ a ∧ a < l.pa + o.acc.sz
         then .ofNat 8 (o.newVal l (s.homeRead l.pa o.acc.sz) / 2 ^ (8 * (a - l.pa))) else s.homeByte a) ∧
  (∀ (s : State) (g op lane : Nat) (rem : Option Nat) (G : Group) (o : Op) (b : Block) (l : OpLane), s.MemOk →
     s.group? g = some G → G.op? op = some o → s.block? G.geo.bid = some b → (o.first fun l => l.atVault && l.lane == lane) = some l →
     o.together G l = [l] → s.vaultFirst G.geo.core o l = true → s.ligHomeFlt G o l = false → s.drained l.pa = true → s.isLocal l.pa = true → pteCC l.pte ≠ 2 →
     pathOf l.pte l.pa o.acc.em.hint.toNat = 2 → l.pa % 128 + o.acc.sz ≤ 128 →
     (o.acc.wr = false → exec (.vaultAccess g op lane rem) s = .next (s.afterLanes g
       (o.putLane { l with st := .bound (s.homeRead l.pa o.acc.sz), time := (s.homeLine (lineOf l.pa)).wt }))) ∧
     (o.acc.wr = true → o.acc.rd = false → ∃ u t : State, exec (.vaultAccess g op lane rem) s = .next t ∧
       t = u.afterLanes g (o.putLane { l with st := .landed }) ∧
       ∀ a, t.homeByte a = if l.pa ≤ a ∧ a < l.pa + o.acc.sz then .ofNat 8 (l.y / 2 ^ (8 * (a - l.pa))) else s.homeByte a)) ∧
  (∀ (s : State) (g op lane : Nat) (rem : Option Nat) (G : Group) (o : Op) (l : OpLane), s.group? g = some G → G.op? op = some o →
     s.ligHomeFlt G o l = true →
     (o.first OpLane.atHome = some l → (match o.instr with | .cldr .. => False | _ => True) →
       ∃ t : State, exec (.atomicAtHome g op lane rem) s = .next t ∧ ∀ a, t.homeByte a = s.homeByte a) ∧
     ((o.first fun l => l.atVault && l.lane == lane) = some l →
       ∃ t : State, exec (.vaultAccess g op lane rem) s = .next t ∧ ∀ a, t.homeByte a = s.homeByte a))

/-- R208–R211: PAGE_TABLE_WALK for the one operation that waits for a page that is not cached, no rehoming of a table it reads
pending: the entries that the walk meets, tables and leaf, are cached; with a leaf the operation's accesses go on, and where
the walk finds none, each of its lanes in the page faults XLATE. -/
def Obligations.PageTableWalk : Prop :=
  ∀ (s : State) (c root va g : Nat) (G : Group) (o : Op), s.walkers c root va = [(g, o.id)] → s.group? g = some G →
    G.op? o.id = some o → va < 0x7FFFFFFF600000 → s.tlbLeaf c root va = none →
    s.walkHeld c root va = false →
    let t := s.tlbFill c (s.walkC c root va).1
    (∀ e ∈ (s.walkC c root va).1, SMap.get? (t.core c).tlb e.1 = some e.2) ∧
    (∀ l, (s.walkC c root va).2 = some l → exec (.pageTableWalk c root va) s = .next (t.resolveOp g o)) ∧
    ((s.walkC c root va).2 = none → exec (.pageTableWalk c root va) s = .next (t.resolveWith g o fun G b l =>
      if l.va / 2 ^ 16 = va / 2 ^ 16 then .flt 0x04 l.va else t.laneAdr G b o l))

/-- R74, R75, R215: LONG_LATENCY_COMPLETE of a memory operation with one lane, whose value is bound, on a core whose register
banks do not move (R193): the value stands in the lane's destination, the operation is gone, and its flag has fallen by one.

R214, R215: the frame of LD: whatever it ends in, no byte at any home changes, and no core but its own. -/
def Obligations.LoadsLandAndFrame : Prop :=
  (∀ (s : State) (g op v f : Nat) (G : Group) (o : Op) (l : OpLane) (m : LaneMask), s.group? g = some G → G.op? op = some o →
     o.kind = .mem → (s.core G.geo.core).regsMove = false → o.lanes = [l] → l.st = .bound v → m.toNat.testBit l.lane = true → l.lane < G.lanes.length →
     o.flag = some f → f < G.flags.length → (accOf o.instr).isSome = true →
     ∃ t H, exec (.longLatencyComplete g op m) s = .next t ∧ t.group? g = some H ∧ H.op? op = none ∧
       H.flag f = G.flag f - 1 ∧ H.lane l.lane = (G.lane l.lane).putDest o.depth (memDests o.instr) v ∧
       ∀ k, k ≠ l.lane → H.lane k = G.lane k) ∧
  (∀ (s t : State) (x : Cur) (h : Hd) (sz : MSz) (d : Reg) (a : RL) (em : EM), cur s = some x →
     exec (.ld h sz d a em) s = .next t →
     (∀ p, t.homeByte p = s.homeByte p) ∧ ∀ c, c ≠ x.G.geo.core → t.core c = s.core c)

/-- R258: FILL_AT_HOME of a local HC line that is not in L1, into a set with a way free, by a core whose pool does not move
and whose load comes first at that home: the line comes into L1 whole and clean with the home's bytes, under a lease of its
class that LX covers, and every load of the core that waits for it binds its bytes.

R186, R197, R213: STASH_LINE_FILLED of a fill-mode mapping's line that operations of the core wait for, whose groups' earlier
stores are performed: the line is filled from its global range and the waiting accesses go on, or they fault where its page
has gone or is one that a stash may not hold. That an access whose page has gone faults as the walk does, with XLATE, is the model's
choice (log 32).

R217, R257, R259: WRITE_AT_HOME of an L1 line with dirty bytes that no stash line stands for, no rehoming of it pending and
no earlier request of the core at its home and no move of its bank: each dirty byte of the line stands at its home and no other byte changes; the
line stays in L1 with nothing dirty. LEASE_EXPIRE takes a clean HC
copy out of L1 from its expiry on, leaves only the dirty bytes of a line that has some, and does nothing before. -/
def Obligations.LinesComeAndGo : Prop :=
  (∀ (s : State) (c line : Nat) (rem : Option Nat) (o : Op) (l : OpLane), s.fillWaiter c line = some (o, l) →
     s.isLocal line = true → s.drained line = true → s.fillFirst c line = true → (s.core c).move = none →
     pteCC l.pte = 0 → (s.core c).caLine line = none →
     (SMap.getD (s.core c).vord (caSet line) []).length < (s.core c).ways →
     ∃ (u : State) (cl : CaLine), (u.core c).caLine line = some cl ∧ cl.valid = allBytes ∧ cl.dirty = 0 ∧
       cl.data = s.homeRead line 128 ∧ cl.expiry = s.tick + (s.leases[pteLC l.pte]?).getD 0 ∧ cl.fill = s.tick ∧
       cl.time = (s.homeLine line).wt ∧ u.lxOf line = max (s.lxOf line) cl.expiry ∧
       exec (.fillAtHome c line rem) s = .next (u.onWaiters c line fun _ _ o => { o with lanes := o.lanes.map (fun l =>
         if l.fillsFrom line then { l with st := .bound (lineRead cl.data (l.pa % 128) o.acc.sz), time := cl.time } else l) })) ∧
  (∀ (s : State) (c mid line : Nat) (m : Mapping) (b : Block), ((s.core c).maps.find? fun m => m.id == mid) = some m →
     s.block? m.bid = some b → m.copyIn = false →
     s.stashWaiters c mid line ≠ [] → (∀ w ∈ s.stashWaiters c mid line, w.1.storesDone w.2.id = true) →
     (∀ u, s.fillStash b m line = (.filled, u) → exec (.stashLineFilled c mid line) s = .next (u.unpark c mid line)) ∧
     (∀ cause u, s.fillStash b m line = (.flt cause, u) →
       exec (.stashLineFilled c mid line) s = .next (u.stashXlate c mid line cause)) ∧
     ((s.globalPA c (s.blockRoot b) (m.base + 128 * line)).1 = none → b.core = c → (s.fillStash b m line).1 = .flt 0x04) ∧
     (∀ pa pte, (s.globalPA c (s.blockRoot b) (m.base + 128 * line)).1 = some (pa, pte) → b.core = c → s.addrOk pa = true →
       pteGS pte = true → (s.fillStash b m line).1 = .flt 0x06)) ∧
  (∀ (s : State) (c line : Nat) (l : CaLine), (s.core c).caLine line = some l →
     (s.MemOk → s.drained line = true → s.homeBusy c s.nextId line = false → s.lineMoves c line = false → s.stashOf c line = [] → s.addrOk line = true →
       l.dirty ≠ 0 → line % 128 = 0 →
       ∃ t cl, exec (.writeAtHome c line) s = .next t ∧ (t.core c).caLine line = some cl ∧ cl.dirty = 0 ∧ cl.data = l.data ∧
         ∀ a, t.homeByte a = if lineOf a = line ∧ l.dirty.testBit (a % 128) = true then .ofNat 8 (lineByte l.data (a % 128))
           else s.homeByte a) ∧
     (l.cc = 0 → l.expiry ≤ s.tick → l.valid ≠ l.dirty →
       (l.dirty = 0 → exec (.leaseExpire c line) s = .next (s.onCore c fun k => k.caDrop line)) ∧
       (l.dirty ≠ 0 → exec (.leaseExpire c line) s = .next (s.onCore c fun k => k.setCa line { l with valid := l.dirty }))) ∧
     (s.tick < l.expiry → exec (.leaseExpire c line) s = .next s))

/-! ### Divergence, clauses, holds, barriers, watches, fences (R40–R50, R71–R75, R150, R217–R225) -/

/-- R48, R49: BRP. With the taken lanes T among the active ones and room on every stack that both paths need: a gang all of
whose lanes take it goes to the target, one none of whose lanes takes it falls through, with nothing pushed; where one
slice alone holds lanes of both paths, the slice takes the branch with T and pushes the lanes left behind; a full stack
raises DIVSTACK and a guard or predicate that differs within a ligature LIGDIV. Where some slices hold lanes that take it and others
none, the gang is replaced by two under a new split record, the lowest free one, whose join is the branch's: the taken path's, whose
slices push the lanes they leave behind, and the fall-through's.

R47, R48: JOIN by a gang of two slices of which one exchanges leaves two gangs under a new record, and the one at the join waits.

R47, R48, R50: JOIN by a gang of one slice under a split record. It waits at the join while the other gang under the record runs; where
that gang waits there too the two merge, at the instruction after the JOIN and under the record's parent, and the record is freed; where
their window depths differ they can never merge, and JOINCYCLE is raised for every live lane.

R48: JOIN by a gang of one slice under no split record. Where the slice's top entry waits at this join for lanes that have
yet to run, the slice runs them and keeps its own waiting; where it holds lanes that stand at the join, they unite with the
gang's and the gang goes on; with no entry for the join the gang goes on alone. -/
def Obligations.BranchAndJoin : Prop :=
  (∀ (s : State) (x : Cur) (h : Hd) (p : Prd) (tgt jn : BitVec 12), cur s = some x →
     let T := maskOf ((bitsOf (actMask x.G x.K h) 64).filter fun l => (x.G.lane l).pred p)
     let dest := wordTarget x.K.pc 12 tgt.toNat
     let fall := wrap 64 ((x.K.pc : Int) + 8)
     let J := x.K.pc + 4 * jn.toNat
     let lig := ligDiv x.G x.K h || ligSplit x.G x.K fun l => (x.G.lane l).pred p
     let both (j : Nat) : Bool := splitSlice T (x.K.mask &&& (2 ^ 64 - 1 - T)) j
     let go (H : Group) : Ans := .next ((s.fresh.putGroup x.g H).popPort)
     (lig = true → exec (.brp h p tgt jn) s = .next (s.trap x 0x0D 0x50)) ∧
     (lig = false → (∃ j, x.K.slices.testBit j = true ∧ j < 16 ∧ both j = true ∧ 16 ≤ (x.G.stack j).length) →
       exec (.brp h p tgt jn) s = .next (s.trap x 0x08 0x50)) ∧
     (lig = false → x.K.slices < 2 ^ 16 → x.K.mask < 2 ^ 64 → x.K.mask ≠ 0 → x.K.mask &&& slicesLanes x.K.slices = x.K.mask →
       (T = x.K.mask → exec (.brp h p tgt jn) s = go (x.G.putGang { x.K.jump dest s.tick with mask := T })) ∧
       (T = 0 → exec (.brp h p tgt jn) s = go (x.G.putGang (x.K.jump fall s.tick))) ∧
       (∀ j, j < 16 → x.K.slices = 2 ^ j → both j = true → (x.G.stack j).length < 16 → exec (.brp h p tgt jn) s =
         go ((x.G.setStack j (⟨stackAddr fall, (x.K.mask &&& (2 ^ 64 - 1 - T)) &&& sliceLanes j, stackAddr J⟩ :: x.G.stack j)).putGang
           { x.K.jump dest s.tick with mask := T }))) ∧
     (let N := x.K.mask &&& (2 ^ 64 - 1 - T)
      let sn := maskOf ((bitsOf x.K.slices 16).filter fun j => (T &&& sliceLanes j) == 0 && (N &&& sliceLanes j) != 0)
      lig = false → x.K.slices < 2 ^ 16 → x.K.mask < 2 ^ 64 → x.K.mask &&& slicesLanes x.K.slices = x.K.mask → T ≠ 0 → sn ≠ 0 →
       (∀ j, j < 16 → x.K.slices.testBit j = true → j < x.G.dstacks.length ∧ (both j = true → (x.G.stack j).length < 16)) →
       ∃ H A B, exec (.brp h p tgt jn) s = go H ∧ H.gangs = (x.G.gangs.filter fun D => D.id != x.K.id) ++ [A, B] ∧
         H.recs = x.G.recs ++ [⟨x.G.freeRec, x.K.split, J⟩] ∧ H.lanes = x.G.lanes ∧
         A.pc = dest ∧ A.mask = T ∧ A.split = x.G.freeRec ∧ A.depth = x.K.depth ∧
         B.pc = fall ∧ B.mask = N &&& slicesLanes sn ∧ B.split = x.G.freeRec ∧ B.depth = x.K.depth ∧
         A.slices ||| B.slices = x.K.slices ∧ A.slices &&& B.slices = 0 ∧ B.slices &&& sn = sn ∧
         ∀ j, j < 16 → x.K.slices.testBit j = true → (both j = true → A.slices.testBit j = true) ∧
           H.stack j = if both j then ⟨stackAddr fall, N &&& sliceLanes j, stackAddr J⟩ :: x.G.stack j else x.G.stack j)) ∧
  (∀ (G : Group) (n : Nat), 0 < n → n < 16 → G.record? n = none →
     0 < G.freeRec ∧ G.freeRec ≤ n ∧ G.record? G.freeRec = none) ∧
  (∀ (s : State) (x : Cur) (i j : Nat) (e : StackEnt) (es : List StackEnt), cur s = some x → i < 16 → j < 16 → i ≠ j →
     x.K.slices = 2 ^ i ||| 2 ^ j → x.K.split = 0 → x.G.gangs = [x.K] → x.G.recs = [] → x.K.st = .ready →
     i < x.G.dstacks.length → j < x.G.dstacks.length → x.K.mask &&& sliceLanes j ≠ 0 →
     let J := x.K.pc - 4
     x.G.stack i = e :: es → e.jn = J → e.pc ≠ J → e.mask ≠ 0 → x.G.stack j = [] →
     ∃ t H A B, exec .join s = .next t ∧ t.group? x.g = some H ∧ (H.gangs = [A, B] ∨ H.gangs = [B, A]) ∧ H.recs = [⟨1, 0, J⟩] ∧
       H.lanes = x.G.lanes ∧ A.pc = e.pc ∧ A.slices = 2 ^ i ∧ A.mask = e.mask ∧ A.split = 1 ∧ A.st = .ready ∧
       B.pc = x.K.pc ∧ B.slices = 2 ^ j ∧ B.mask = x.K.mask &&& sliceLanes j ∧ B.split = 1 ∧ B.st = .waitJoin 1 J ∧
       H.stack i = ⟨J, x.K.mask &&& sliceLanes i, J⟩ :: es ∧ H.stack j = []) ∧
  (∀ (s : State) (x : Cur) (j k : Nat) (D : Gang), cur s = some x → j < 16 → x.K.slices = 2 ^ j → 0 < k → k < 16 → x.K.split = k →
     (x.G.gangs = [x.K, D] ∨ x.G.gangs = [D, x.K]) → D.id ≠ x.K.id → D.split = k → x.K.mask ≠ 0 →
     x.K.mask &&& sliceLanes j = x.K.mask → x.K.st = .ready → j < x.G.dstacks.length → 4 ≤ x.K.pc →
     let J := x.K.pc - 4
     x.G.recs = [⟨k, 0, J⟩] → x.G.stack j = [] → (x.G.evs.any fun e => e.cause == 9) = false →
     let W : Gang := { x.K with slices := 2 ^ j, st := .waitJoin k J, last := s.tick }
     ∃ t H, exec .join s = .next t ∧ t.group? x.g = some H ∧ H.lanes = x.G.lanes ∧ H.stack j = [] ∧
       (D.st = .ready → H.gangs = [D, W] ∧ H.recs = x.G.recs ∧ H.evs = x.G.evs) ∧
       (D.st = .waitJoin k J → D.depth = x.K.depth → H.recs = [] ∧ H.evs = x.G.evs ∧ ∃ M, H.gangs = [M] ∧ M.pc = J + 8 ∧
         M.slices = D.slices ||| 2 ^ j ∧ M.mask = D.mask ||| x.K.mask ∧ M.split = 0 ∧ M.st = .ready ∧ M.depth = x.K.depth) ∧
       (D.st = .waitJoin k J → D.depth ≠ x.K.depth → D.pc = x.K.pc →
         (D.slices ||| 2 ^ j).testBit (lowBit x.G.liveLanes / 4) = true → H.gangs = [D, W] ∧ H.recs = x.G.recs ∧
         ∃ ev, H.evs = x.G.evs ++ [ev] ∧ ev.cause = 9 ∧ ev.pc = J + 4 ∧ ev.lanes = x.G.liveLanes ∧ ev.tick = s.tick)) ∧
  (∀ (s : State) (x : Cur) (j : Nat), cur s = some x → j < 16 → x.K.slices = 2 ^ j → x.K.split = 0 → x.G.gangs = [x.K] →
     x.G.recs = [] → x.K.mask ≠ 0 → x.K.mask &&& sliceLanes j = x.K.mask → x.K.st = .ready → j < x.G.dstacks.length → 4 ≤ x.K.pc →
     let J := x.K.pc - 4
     ∃ t H, exec .join s = .next t ∧ t.group? x.g = some H ∧ H.lanes = x.G.lanes ∧
       (x.G.stack j = [] → H.gangs = [x.K.adv joinHd s.tick] ∧ H.stack j = []) ∧
       (∀ e es, x.G.stack j = e :: es → e.jn = J →
         (e.pc ≠ J → e.mask ≠ 0 → H.gangs = [{ x.K.jump e.pc s.tick with slices := 2 ^ j, mask := e.mask }] ∧
           H.stack j = ⟨J, x.K.mask, J⟩ :: es) ∧
         (e.pc = J → es = [] → H.gangs = [{ x.K.adv joinHd s.tick with slices := 2 ^ j, mask := x.K.mask ||| e.mask }] ∧ H.stack j = [])))

/-- R71–R73, R174: CLAUSE_START at a header. A malformed header traps with its cause; a header whose WAIT names a flag that is
not clear puts the gang in WAITFLAG; otherwise the clause starts: its words are counted and the gang stands at the first. -/
def Obligations.ClauseStart : Prop :=
  ∀ (s : State) (x : Cur) (w : BitVec 32), cur s = some x → (x.K.clause = none ∨ x.K.st = .waitFlag) →
    let H := Header.ofWord w.toNat
    (∀ c, H.trap = some c → ∃ (t : State) (G : Group) (e : FaultEv), exec (.clauseStart w) s = .next t ∧ t.group? x.g = some G ∧
      G.evs = x.G.evs ++ [e] ∧ e.cause = c ∧ e.pc = x.K.pc ∧ G.lanes = x.G.lanes) ∧
    (H.trap = none → x.G.pending = false →
      (x.G.clear H.wait = false →
        exec (.clauseStart w) s = .next (s.finish x x.G { x.K with st := .waitFlag, clause := some ⟨w.toNat, 0, 0⟩ })) ∧
      (x.G.clear H.wait = true → exec (.clauseStart w) s = .next (s.putGroup x.g
        (x.G.putGang { x.K with st := .ready, pc := x.K.pc + 4, clause := some ⟨w.toNat, H.len, 0⟩ }))))

/-- R42, R355: GANG_SELECT fills a core's ports once in a tick: with the gangs that may issue, of the highest level and the
longest wait first, on pairwise disjoint slices, at most four; none where the device does not issue. A gang that could issue is left out
only where four are taken or one taken has a slice of its own. It completes in every state: the gangs taken stand last in the ports and
are marked as offered a slot (R150), and nothing else changes. That a gang which was offered a slot counts its wait from then is the
model's choice (log 127). -/
def Obligations.GangSelect : Prop :=
  ∀ (s : State) (c : Nat),
    ((s.core c).sel = s.tick + 1 → exec (.gangSelect c) s = .next s) ∧
    ((s.core c).sel ≠ s.tick + 1 →
      let on : Bool := s.issues && !(s.core c).regsMove
      let ps : List (Nat × Nat) := if on then takePorts 0 4 (s.candidates c) else []
      (∃ t, exec (.gangSelect c) s = .next t ∧ t = { s with ports := s.ports ++ ps, cores := t.cores, groups := t.groups } ∧
        t.core c = { s.core c with sel := s.tick + 1 } ∧ (∀ d, d ≠ c → t.core d = s.core d) ∧
        ∀ g, t.group? g = (s.group? g).map fun G =>
          { G with gangs := G.gangs.map fun K => if (g, K.id) ∈ ps then { K with offer := s.tick + 1 } else K }) ∧
      ps.length ≤ 4 ∧
      (on = true → ∃ as : List Cand, as.Sublist (s.candidates c) ∧ ps = as.map (fun a => (a.g, a.k)) ∧
        as.Pairwise (fun a b => a.mask &&& b.mask = 0) ∧
        ∀ b ∈ s.candidates c, b ∈ as ∨ as.length = 4 ∨ ∃ a ∈ as, a.mask &&& b.mask ≠ 0) ∧
      (∀ a ∈ s.candidates c, ∃ G K, (a.g, G) ∈ s.groups ∧ K ∈ G.gangs ∧ K.id = a.k ∧ a.mask = K.slices * 2 ^ G.geo.slice0) ∧
      (∀ g k, (g, k) ∈ ps → ∃ G K, (g, G) ∈ s.groups ∧ K ∈ G.gangs ∧ K.id = k ∧ G.geo.core = c ∧ Gang.canIssue G K = true) ∧
      ∀ (a : Cand) (as : List Cand), on = true → s.candidates c = a :: as → a.mask ≠ 0 →
        (a.g, a.k) ∈ ps ∧ ∀ b ∈ s.candidates c, b.level ≤ a.level ∧ (b.level = a.level → b.wait ≤ a.wait))

/-- R37, R39, R154: EXIT holds its gang before it until the group's operations have completed; EXIT_LANES_DONE, while the
group's block is RESIDENT, then makes the gang's lanes done. Where lanes of the group remain live, its done lanes are those and the earlier ones; otherwise the
group has ended. In a handler every lane is done at once (R177). -/
def Obligations.ExitEnds : Prop :=
  (∀ (s : State) (x : Cur) (h : Hd), cur s = some x → UniRuns x h [] →
    exec (.exit h) s = .next (s.finish x x.G { x.K with hold := .exit })) ∧
  (∀ (s : State) (g k : Nat) (G : Group) (K : Gang), s.group? g = some G → G.gang? k = some K → K.hold = .exit →
    G.pending = false → s.groupRuns G = true → exitDue s g G = true →
    (G.handler = none → (2 ^ G.geo.w - 1) &&& (2 ^ 64 - 1 - (G.done ||| K.mask)) ≠ 0 →
      ∃ t H, exec (.exitLanesDone g k) s = .next t ∧ t.group? g = some H ∧ H.done = G.done ||| K.mask ∧ H.lanes = G.lanes) ∧
    ((G.handler ≠ none ∨ (2 ^ G.geo.w - 1) &&& (2 ^ 64 - 1 - (G.done ||| K.mask)) = 0) →
      ∃ t H, exec (.exitLanesDone g k) s = .next t ∧ t.group? g = some H ∧ H.ended = true))

/-- R38, R222: BAR by the whole group's gang waits at the instruction until the group's accesses are performed at core scope.
BAR_ARRIVE then completes: the gang stands after the BAR. Where a group of the block has neither arrived nor ended, the
arrival is recorded and the gang waits; where every group has, the block's one barrier in use completes, no arrival is left
of it, and the gangs of the groups that arrived are READY. So BAR of a group whose accesses are performed, in a block whose
other groups have arrived or ended, goes through, and the gang is READY after it. -/
def Obligations.BarrierCompletes : Prop :=
  let past (K : Gang) (n tick : Nat) : Gang :=
    { K with pc := K.pc + 4 * n, clause := K.clauseAdv n 0, hold := .none, st := .waitBar, last := tick }
  let arrived (s : State) (b : Block) (m : Nat) : Prop := ∀ y ∈ s.groupsOf b, y.2.ended = true ∨ m.testBit y.2.geo.gi = true
  (∀ (s : State) (x : Cur) (h : Hd) (k : BitVec 4), cur s = some x → UniRuns x h [] → x.K.slices = x.G.unretired →
    exec (.bar h k) s = .next (s.finish x x.G { x.K with hold := .bar k.toNat h.len })) ∧
  (∀ (s : State) (g k i n : Nat) (G : Group) (K : Gang) (b : Block), s.group? g = some G → G.gang? k = some K →
    K.hold = .bar i n → G.pending = false → s.groupRuns G = true → releaseReady s g G (2 ^ 16 - 1) 1 = true →
    s.block? G.geo.bid = some b → (b.bars = [] ∨ ∃ m, b.bars = [(i, m)]) →
    let m := SMap.getD b.bars i 0 ||| 2 ^ G.geo.gi
    (¬arrived s b m → exec (.barArrive g k) s = .next
      ((s.putGroup g (G.putGang (past K n s.tick))).onBlock G.geo.bid fun b => { b with bars := [(i, m)] })) ∧
    (arrived s b m → ∃ t B, exec (.barArrive g k) s = .next t ∧ t.block? G.geo.bid = some B ∧ B.bars = [] ∧ t.mem = s.mem ∧
      ∀ y ∈ s.groupsOf b, ∃ H, t.group? y.1 = some H ∧ H.lanes = y.2.lanes ∧ H.flags = y.2.flags ∧
        (m.testBit y.2.geo.gi = true →
          H.gangs = (if y.1 = g then (G.putGang (past K n s.tick)).gangs else y.2.gangs).map (Gang.unbar y.2.pending)))) ∧
  (∀ (s : State) (x : Cur) (h : Hd) (k : BitVec 4) (b : Block), cur s = some x → UniRuns x h [] → x.K.slices = x.G.unretired →
    x.G.gangs = [x.K] → x.G.pending = false → s.groupRuns x.G = true → releaseReady s x.g x.G (2 ^ 16 - 1) 1 = true →
    s.block? x.G.geo.bid = some b → (b.bars = [] ∨ ∃ m, b.bars = [(k.toNat, m)]) → x.g ∈ b.groups →
    arrived s b (SMap.getD b.bars k.toNat 0 ||| 2 ^ x.G.geo.gi) →
    ∃ t u H, exec (.bar h k) s = .next t ∧ exec (.barArrive x.g x.K.id) t = .next u ∧ u.group? x.g = some H ∧
      H.gangs = [{ x.K.adv h s.tick with hold := .none, st := .ready }] ∧ H.lanes = x.G.lanes)

/-- R223, R224: MONITOR of an address that its checks let through sets the gang's watch on the line; in the scratchpad it
raises ATTR. MWAIT without a watch goes on, with a triggered watch goes on and disarms it, and otherwise puts the gang to
sleep until its limit; a limit of 0 is no limit, and MWAIT_TIMEOUT never wakes such a sleeper. It wakes another one from its limit on. A
write performed at the home of the watched line wakes one too. A sleeper that wakes while a fault of its group is pending stays stopped
(R174; the model's choice, log 131). -/
def Obligations.Watches : Prop :=
  (∀ (s : State) (x : Cur) (h : Hd) (a : Reg) (b : Block) (p : Piece) (ps : List Piece) (s' : State), cur s = some x →
    UniRuns x h [a] → uVal x a < 0x7FFFFFFF600000 → UniAccess s x [a] (uVal x a) 1 1 true false b (p :: ps) s' →
    exec (.monitor h a) s =
      .next (s'.finish x (uniRead x [a]) { x.K.adv h s'.tick with watch := some ⟨lineOf p.pa, false⟩ })) ∧
  (∀ (s : State) (x : Cur) (h : Hd) (a : Reg), cur s = some x → UniRuns x h [a] → 0x7FFFFFFF600000 ≤ uVal x a → uVal x a < 2 ^ 55 →
    exec (.monitor h a) s = .next (s.uniFault x (uFreed x a) 0x06 (uVal x a) 0x9E)) ∧
  (∀ (s : State) (x : Cur) (h : Hd) (a : Reg), cur s = some x → UniRuns x h [a] →
    (x.K.watch = none → exec (.mwait h a) s = .next (s.doneP x h (uniRead x [a]))) ∧
    (∀ w, x.K.watch = some w →
      (w.trig = true → exec (.mwait h a) s = .next (s.finish x (uniRead x [a]) { x.K.adv h s.tick with watch := none })) ∧
      (w.trig = false → 0 < uVal x a → exec (.mwait h a) s =
        .next (s.finish x (uniRead x [a]) { x.K.adv h s.tick with st := .sleep, wake := some (s.tick + uVal x a) })) ∧
      (w.trig = false → uVal x a = 0 → exec (.mwait h a) s =
        .next (s.finish x (uniRead x [a]) { x.K.adv h s.tick with st := .sleep, wake := some 0 })))) ∧
  (∀ (s : State) (g k t : Nat) (G : Group) (K : Gang), s.group? g = some G → G.gang? k = some K → K.wake = some t →
    K.st = .sleep →
    (0 < t → t ≤ s.tick → exec (.mwaitTimeout g k) s =
      .next (s.putGroup g (G.putGang { K with st := .ready, wake := none, watch := none, stopped := K.stopped || G.pending }))) ∧
    (s.tick < t ∨ t = 0 → exec (.mwaitTimeout g k) s = .next s)) ∧
  (∀ (s : State) (g a n v : Nat) (hc : Bool) (G : Group) (K : Gang) (w : Watch), s.group? g = some G → K ∈ G.gangs →
    K.watch = some w → w.line = lineOf a → K.st = .sleep → K.wake.isSome = true →
    ∃ H, (s.homeWrite a n v hc).group? g = some H ∧
      { K with st := .ready, wake := none, watch := none, stopped := K.stopped || G.pending } ∈ H.gangs)

/-- R217, R225, R253–R255, R260: the fences complete where nothing keeps them: a release needs every earlier access of the gang
performed at the scope and, from core scope on, TICK at WCTMAX and at the completion times of the writes that happen before
it; an acquire needs its reads done, takes what its core's groups have written as before it, and drops the core's stale
copies; FENCE.sc takes the next place of the one order, and drops what was filled before the one that preceded it; FENCE.eng
needs its gang's stores at their homes. A release that is not ready waits for WCTMAX, and WCTMAX_PASSED lets it try
again. R150: YIELD_HOLD_END ends the hold of a YIELD, not before its 8 cycles have passed, and once every other READY gang of the core
of equal or higher priority has been offered an issue slot or none is READY. -/
def Obligations.Fences : Prop :=
  (∀ (s : State) (x : Cur) (h : Hd) (sc : BitVec 3), cur s = some x → UniRuns x h [] →
    let c := x.G.geo.core
    let rel := releaseReady s x.g x.G x.K.slices sc.toNat
    let acq (s : State) (time : Nat) : State :=
      let u := s.finish x x.G { x.K.adv h s.tick with rtime := if 2 ≤ sc.toNat then 0 else x.K.rtime }
      (if sc.toNat = 0 then u else u.coreJoin x.g).selfInvalidate c sc.toNat time
    (readsDone x.G x.K.slices = true → exec (.fenceAcq h sc) s = .next (acq s x.K.rtime)) ∧
    (rel = true → exec (.fenceRel h sc) s = .next (s.doneP x h x.G)) ∧
    (rel = true → readsDone x.G x.K.slices = true → exec (.fenceAr h sc) s = .next (acq s x.K.rtime) ∧
      exec (.fenceSc h sc) s = .next (acq { s with eng := { s.eng with scs := s.eng.scs + 1, scTick := s.tick + 1 } }
        (max x.K.rtime s.eng.scTick))) ∧
    (performedAt s x.g x.G x.K.slices (max 2 sc.toNat) = true → exec (.fenceEng h sc) s =
      .next ((s.doneP x h x.G).selfInvalidate c (max 2 sc.toNat) x.G.engtime)) ∧
    (rel = false → exec (.fenceRel h sc) s = .next (s.waitWct x) ∧ exec (.fenceAr h sc) s = .next (s.waitWct x) ∧
      exec (.fenceSc h sc) s = .next (s.waitWct x))) ∧
  (∀ (s : State) (g k : Nat) (G : Group) (K : Gang), s.group? g = some G → G.gang? k = some K → K.hold = .wct →
    (G.wctmax ≤ s.tick → G.hbw ≤ s.tick → exec (.wctmaxPassed g k) s = .next (s.putGroup g (G.putGang { K with hold := .none }))) ∧
    ((s.tick < G.wctmax ∨ s.tick < G.hbw) → exec (.wctmaxPassed g k) s = .next s)) ∧
  (∀ (s : State) (g k till : Nat) (G : Group) (K : Gang), s.group? g = some G → G.gang? k = some K → K.hold = .yield till →
    (yieldOver s g G K till = true → exec (.yieldHoldEnd g k) s = .next (s.putGroup g (G.putGang { K with hold := .none }))) ∧
    (s.tick < till → exec (.yieldHoldEnd g k) s = .next s))

/-! ### Transfers, device macros, loaded tables, the register stack (R60, R91, R92, R142–R144, R158–R160, R163, R169) -/

/-- R75, R142, R143: XSEND and XRECV. With lanes active and no source uncorrectable, the transfer is posted last in its slot's
queue with the values that the sender's lanes hold now, and the slot's heads pair if both queues hold one. Where they pair,
every lane live in both takes the sender's value and no other lane of the receiver changes; a freed sender lane reads zero. -/
def Obligations.TransfersPostAndPair : Prop :=
  (∀ (s : State) (x : Cur) (h : Hd) (k : BitVec 4), cur s = some x → ligDiv x.G x.K h = false →
    let act := actMask x.G x.K h
    let ls := bitsOf act 64
    let lane (v : Nat → Nat) (l : Nat) : OpLane := ⟨l, 0, 0, 0, v l, 0, .busy, 0⟩
    let rid := ((s.block? x.G.geo.bid).map (·.rid)).getD 0
    let K := x.K.advLL h s.tick
    (∀ a : RL, (∀ l ∈ ls, (ownRd x.G x.K l a.r allBits).bad = none) →
      let G := (x.G.stickIf (ls.any fun l => (ownRd x.G x.K l a.r allBits).freed) freedBit).onLanes (maskOf ls) fun _ L =>
        L.freeAll x.K.depth (rlFrees a)
      (ls = [] → exec (.xsend h k a) s = .next (s.finish x G K)) ∧
      (ls ≠ [] → exec (.xsend h k a) s = .next ((xferPosted s x G K (xferOp s x (.xsend h k a) k.toNat
        (ls.map (lane fun l => (ownRd x.G x.K l a.r allBits).v))) k.toNat true).tryPair x.G.geo.core rid k.toNat))) ∧
    (∀ d : Reg,
      (ls = [] → exec (.xrecv h k d) s = .next (s.finish x x.G K)) ∧
      (ls ≠ [] → exec (.xrecv h k d) s = .next ((xferPosted s x x.G K (xferOp s x (.xrecv h k d) k.toNat
        (ls.map (lane fun _ => 0))) k.toNat false).tryPair x.G.geo.core rid k.toNat)))) ∧
  (∀ (s : State) (c rid slot : Nat) (a b : Post) (Gs Gr : Group) (os : Op) (r : Op) (h : Hd) (k : BitVec 4) (d : Reg),
    (s.core c).posts.find? (fun p => p.rid == rid && p.slot == slot && p.send == true) = some a →
    (s.core c).posts.find? (fun p => p.rid == rid && p.slot == slot && p.send == false) = some b →
    s.group? a.gid = some Gs → s.group? b.gid = some Gr → a.gid ≠ b.gid → Gs.op? a.op = some os → Gr.op? b.op = some r →
    r.instr = .xrecv h k d →
    ∃ (H I : Group), (s.tryPair c rid slot).group? b.gid = some H ∧ (s.tryPair c rid slot).group? a.gid = some I ∧
      I.lanes = Gs.lanes ∧ H.lanes.length = Gr.lanes.length ∧ H.gangs = Gr.gangs ∧
      ((s.tryPair c rid slot).core c).posts = ((s.core c).posts.erase a).erase b ∧
      ∀ l, l < Gr.lanes.length →
        ((os.liveMask &&& r.liveMask).testBit l = true → H.lane l = (Gr.lane l).set (rowOf r.depth d) (os.valAt l)) ∧
        ((os.liveMask &&& r.liveMask).testBit l = false → H.lane l = Gr.lane l))

/-- R91, R92, R160: MACRO of a slot whose body is one word. The word does what it does alone, at the MACRO's place: its lanes and
its GSTAT are those of the instruction, and the gang then stands after the MACRO. So MACRO completes with the sum of two
lane registers where the word is an IADD that runs, and of two uniform values where it is a UADD. A slot that is not defined, a tag of another
region and a word that a body may not hold are ILLEGAL, and a slot that is LOADING holds the gang at the MACRO. -/
def Obligations.MacroRunsItsBody : Prop :=
  ∀ (s : State) (x : Cur) (h : Hd) (slot : BitVec 6) (o0 o1 o2 o3 : Reg), cur s = some x → UniRuns x h [] →
    let c := x.G.geo.core
    let i : Instr := .macroOp h slot o0 o1 o2 o3
    (s.loading c slot.toNat = true → exec i s = .next s.popPort) ∧
    (s.loading c slot.toNat = false →
      (SMap.get? (s.core c).wcs slot.toNat = none → exec i s = .next (s.trap x 0x01 0x9B)) ∧
      (∀ w, SMap.get? (s.core c).wcs slot.toNat = some w →
        (w.tag ≠ ((s.regionOf x.G).map (·.addr)).getD 0 → exec i s = .next (s.trap x 0x01 0x9B)) ∧
        (w.tag = ((s.regionOf x.G).map (·.addr)).getD 0 →
          (bodyOf w [o0, o1, o2, o3] = none → exec i s = .next (s.trap x 0x01 0x9B)) ∧
          (∀ (h' : Hd) (t : ET) (d a : Reg) (p : Src) (b : BOp) (e : UOp),
            let after (ls : List Lane) : Prop := ∃ (u : State) (H : Group), exec i s = .next u ∧ u.group? x.g = some H ∧ H.lanes = ls ∧
              H.gang? x.K.id = some (x.K.adv h s.tick) ∧ u.ports = s.ports.tail ∧ u.mem = s.mem ∧ ∀ k, k ≠ x.g → u.group? k = s.group? k
            (bodyOf w [o0, o1, o2, o3] = some [.iadd h' t .wrap d p b] → LaneRuns x h' (formAB x p b allBits) →
              after (x.G.onLanes (actMask x.G x.K h' % 2 ^ 64) fun l L =>
                (L.freeAll x.K.depth (formAB x p b allBits).frees).set (rowOf x.K.depth d) (elems (etW t) (fun n =>
                  (elem (etW t) (srcV x.G x.K l p) n + elem (etW t) (bsrcV x.G x.K l (etW t) b) n) % 2 ^ etW t) (64 / etW t))).lanes) ∧
            (bodyOf w [o0, o1, o2, o3] = some [.uadd h' d a e] → UniRuns x h' (a :: uopRegs e) →
              after (x.G.uPut x.K d ((uVal x a + uopV x e) % 2 ^ 64)).lanes)) ∧
          (∀ (j : Instr) (u : State) (H : Group) (K : Gang), bodyOf w [o0, o1, o2, o3] = some [j] → bodyWaits s x j = false →
            u = bodyRun s j →
            u.group? x.g = some H → H.gang? x.K.id = some K → H.evs = x.G.evs → H.ops = x.G.ops → K.stopped = x.K.stopped →
            ((bodyUni j).isSome = true ∨ (laneOpOf (s.core c) x.G j).isSome = true) →
            exec j s = .next u ∧ ∃ t I, exec i s = .next t ∧ t.group? x.g = some I ∧ I.lanes = H.lanes ∧ I.gstat = H.gstat ∧
              t.ports = s.ports.tail ∧
              I.gang? x.K.id = some ({ K with pc := x.K.pc, clause := x.K.clause }.adv h s.tick)))))

/-- R148, R158, R159, R163: MDEF and TMLOAD read their bodies at the address of their operand, counted against their clause's
flag; each completes in issue order for its core and replaces the slot or pair in one step, and its flag falls.

R58, R60, R169: WSPILL and WFILL issue, in a group that may, where the stack holds the positions that they move; as they
complete, WSPILL has stored the positions and freed them and WFILL has loaded them, and WBOTTOM is the position after or before.
What WSPILL stores, WFILL brings back: every register of the lanes, freed or not, is as it was. -/
def Obligations.TableLoadsAndWindowMoves : Prop :=
  ((∀ (s s' : State) (x : Cur) (h : Hd) (a : Reg) (b : Block) (ps : List Piece), cur s = some x → UniRuns x h [a] →
     (∀ slot n : BitVec 6, UniAccess s x [a] (uVal x a) (4 * n.toNat) 4 true false b ps s' →
       exec (.mdef h slot n a) s = .next (s'.startOp (readCur x [a]) (.mdef h slot n a) h (uVal x a) n.toNat)) ∧
     (∀ k : BitVec 2, UniAccess s x [a] (uVal x a) 8224 64 true false b ps s' →
       exec (.tmload h k a) s = .next (s'.startOp (readCur x [a]) (.tmload h k a) h (uVal x a) k.toNat))) ∧
   (∀ (s s' : State) (g op : Nat) (G : Group) (o : Op) (b : Block) (ps : List (List Piece)), G.op? op = some o →
     (∀ (h : Hd) (slot n : BitVec 6) (a : Reg), o.instr = .mdef h slot n a →
       UniLands s g o [(o.x, 4 * n.toNat)] true false G b ps s' →
       firstOnCore s G.geo.core o (Op.isMdef slot.toNat) = true →
       ∃ t, exec (.mdefComplete g op) s = .next t ∧ t.group? g = some (G.endOp o) ∧ t.mem = s'.mem ∧
         SMap.get? (t.core G.geo.core).wcs slot.toNat = some ⟨(List.range n.toNat).map fun i =>
           leAt (s'.uniBytes G.geo.core ps.flatten) (4 * i) 4, ((s'.regionOf G).map (·.addr)).getD 0⟩ ∧
         ∀ j, j ≠ slot.toNat → SMap.get? (t.core G.geo.core).wcs j = SMap.get? (s'.core G.geo.core).wcs j) ∧
     (∀ (h : Hd) (k : BitVec 2) (a : Reg), o.instr = .tmload h k a → UniLands s g o [(o.x, 8224)] true false G b ps s' →
       firstOnCore s G.geo.core o (Op.isTmload k.toNat) = true →
       let img := (s'.uniBytes G.geo.core ps.flatten).map (BitVec.ofNat 8)
       (imgFail img = none → exec (.tmloadComplete g op) s = .next ((s'.onCore G.geo.core fun K =>
         { K with tm := setAt K.tm k.toNat (some (imgPair img)) }).putGroup g (G.endOp o))) ∧
       (∀ i, imgFail img = some i → exec (.tmloadComplete g op) s = .next (s'.lateFault g o 0x01 (o.x + i)))))) ∧
  ((∀ (s s' : State) (x : Cur) (h : Hd) (m : BitVec 8) (b : Block) (q : List (List Piece)), cur s = some x → UniRuns x h [] →
     (x.G.handler.isSome = true ∨ s.privileged x.G = true) → x.G.ops.any Op.isWindow = false →
     s.block? x.G.geo.bid = some b → walkWaits x.G = false →
     (x.G.bottom + m.toNat ≤ x.G.minDepth → x.G.bottom + m.toNat ≤ x.G.geo.slim →
       s.uniAts x.G b 1 false true [] (spillRanges x.G x.G.bottom m.toNat) = ((.ok [], q), s') →
       exec (.wspill h m) s = .next (s'.startOp x (.wspill h m) h x.G.bottom m.toNat)) ∧
     (m.toNat ≤ x.G.bottom → x.G.maxDepth + 24 ≤ x.G.bottom - m.toNat + x.G.geo.cap →
       s.uniAts x.G b 1 true false [] (spillRanges x.G (x.G.bottom - m.toNat) m.toNat) = ((.ok [], q), s') →
       exec (.wfill h m) s = .next (s'.startOp x (.wfill h m) h (x.G.bottom - m.toNat) m.toNat))) ∧
   (∀ (s s' : State) (g op : Nat) (G : Group) (o : Op) (b : Block) (p q : List Piece) (h : Hd) (m : BitVec 8), G.op? op = some o →
     (o.instr = .wspill h m → UniLands s g o (spillRanges G o.x o.y) false true G b [p, q] s' →
       exec (.windowMoveComplete g op) s = .next (((s'.uniStore b g p (spillBytes G o.x o.y)).uniStore b g q
         (freedBytes G o.x o.y)).onGroup g fun G => (G.spilled o.x o.y).endOp o)) ∧
     (o.instr = .wfill h m → UniLands s g o (spillRanges G o.x o.y) true false G b [p, q] s' →
       exec (.windowMoveComplete g op) s = .next (s'.putGroup g
         ((G.filled o.x o.y (s'.uniBytes G.geo.core p) (s'.uniBytes G.geo.core q)).endOp o)))) ∧
   (∀ (G : Group) (lo m l row : Nat), G.lanes.length = G.geo.w → G.geo.w ≤ 64 → l < G.geo.w →
     (∀ L ∈ G.lanes, SMap.sorted L.regs = true) →
     SMap.get? (((G.spilled lo m).filled lo m (spillBytes G lo m) (freedBytes G lo m)).lane l).regs row =
       SMap.get? (G.lane l).regs row))

/-! ### The pool, stash mappings, tensor handles (R187–R202, R226–R231) -/

/-- R190–R195, R226, R227: PSET writes the refusal's code to its register and changes nothing else of the pool, or starts the move;
without authority the code is 7, during a move 1. POOL_MOVE, once no engine write that started into a surrendered bank is in progress,
gives the core the new quoins: SP keeps its bytes at the offsets below both sizes and reads zero elsewhere, the PSET's
register is zero, and the accesses that waited for the move go on. PQRY reads the row that its selector names. -/
def Obligations.PoolMoves : Prop :=
  (∀ (s : State) (x : Cur) (h : Hd) (d a : Reg) (b : Block), WholeRuns s x h [a] → s.block? x.G.geo.bid = some b →
    let r := uVal x a
    let q := [r % 2 ^ 7, r / 2 ^ 8 % 2 ^ 7, r / 2 ^ 16 % 2 ^ 7]
    let y := readCur x [a]
    (r / 2 ^ 23 ≠ 0 ∨ bit r 7 = true ∨ bit r 15 = true → exec (.pset h d a) s = .next (s.trapFreed x (uFreed x a) 0x01 0xA1)) ∧
    (r / 2 ^ 23 = 0 → bit r 7 = false → bit r 15 = false →
      (psetCode s b q ≠ 0 → exec (.pset h d a) s =
        .next ((s.doneLL y h (y.G.uPut x.K d (psetCode s b q))).count b.rid 1 1 (2 ^ 32 - 1))) ∧
      (psetCode s b q = 0 → exec (.pset h d a) s = .next (((s.startOp y (.pset h d a) h r 0).count b.rid 0 1 (2 ^ 32 - 1)).onCore
        b.core fun k => { k with move := some ⟨q, x.g, s.nextId⟩ })) ∧
      (s.authority b = false → psetCode s b q = 7) ∧
      (s.authority b = true → (s.core b.core).move.isSome = true → psetCode s b q = 1))) ∧
  (∀ (s : State) (c : Nat) (m : Move), (s.core c).move = some m → (∀ e ∈ s.eng.ops, s.startedInto e c = false) →
    ∃ t : State, exec (.poolMove c) s = .next (t.retryCore c) ∧ (t.core c).q = m.q ∧ (t.core c).move = none ∧
      ((s.core c).maps = [] → (s.core c).ca = [] → SMap.sorted (s.core c).sp = true →
        (∀ o, (t.core c).spByte o =
          if o < min (((m.q[1]?).getD 0 - (m.q[0]?).getD 0) * 32768) (s.core c).spSize then (s.core c).spByte o else 0) ∧
        ∀ (G : Group) (o : Op) (h : Hd) (d a : Reg) (l : Nat), s.group? m.gid = some G → G.op? m.op = some o →
          o.instr = .pset h d a → (s.block? G.geo.bid).isSome = true → l < G.lanes.length →
          (o.mask &&& G.liveLanes).testBit l = true →
          ∃ H : Group, t.group? m.gid = some H ∧ (H.lane l).val (rowOf o.depth d) = 0 ∧ (H.lane l).freed (rowOf o.depth d) = false)) ∧
  (∀ (s : State) (x : Cur) (h : Hd) (d a : Reg), cur s = some x → UniRuns x h [a] →
    (uVal x a < 8 → exec (.pqry h d a) s = .next (uniSets s x h [a] d (pqryRow s (uniRead x [a]) (uVal x a)))) ∧
    (8 ≤ uVal x a → exec (.pqry h d a) s = .next (s.trapFreed x (uFreed x a) 0x01 0xA2)))

/-- R197, R198, R200–R202, R228–R231: SMAP and HRES of a range that their checks let through add a mapping, HRES to its handle,
which is then STASH. SUNMAP of an offset where no mapping of the block starts does nothing more; of a mapping, it writes
its dirty lines back and removes it, once no move (R193) and no rehoming (R205) holds its lines and the core's earlier requests at their
homes are served (R325). HEVICT and HDEMOTE of a STASH handle start the move, which leaves the handle UNBOUND and
DEMOTED; HEVICT of a DEMOTED handle releases its hold. That SUNMAP has its whole effect in the step in which it issues is the model's
choice (log 31). -/
def Obligations.StashAndHandles : Prop :=
  (∀ (s : State) (x : Cur) (h : Hd) (a c : Reg) (b : Block), s.block? x.G.geo.bid = some b → walkWaits (uniRead x [a, c]) = false →
    WholeRuns s x h [a, c] →
    let y := readCur x [a, c]
    ∀ (copyIn : Bool) (n : BitVec 15) (s' : State), mapFault s y b (uVal x a) (uVal x c) n.toNat = (none, s') →
      let mapped (s : State) : State := s.fresh.onCore b.core fun k =>
        { k with maps := k.maps ++ [newMapping s.nextId b.id (uVal x a) n.toNat (uVal x c) copyIn] }
      exec (.smap h copyIn n a c) s = .next ((mapped s').doneP y h y.G) ∧
      ∀ (pri : BitVec 3) (pin : Bool) (k : BitVec 4), (b.handle k.toNat).st ≠ 1 →
        exec (.hres h copyIn pri pin k n a c) s =
          .next (((mapped (if (b.handle k.toNat).st = 2 then s'.releaseHold b.id k.toNat else s')).onBlock b.id fun b =>
            b.setHandle k.toNat ⟨1, s'.nextId, pri.toNat, pin⟩).doneP y h y.G)) ∧
  (∀ (s : State) (x : Cur) (h : Hd) (a : Reg) (b : Block), s.block? x.G.geo.bid = some b → WholeRuns s x h [a] →
    let y := readCur x [a]
    let m? := (s.core b.core).maps.find? fun m => m.bid == b.id && m.off == uVal x a
    (m? = none → exec (.sunmap h a) s = .next (s.doneP y h y.G)) ∧
    (∀ m, m? = some m → walkWaits y.G = false → s.mapReady b m s.nextId = true →
      let u := ((s.putGroup x.g y.G).wbMap b m).1.dropMap b m
      ∃ G, u.group? x.g = some G ∧ exec (.sunmap h a) s = .next (u.doneP y h G))) ∧
  (∀ (s : State) (x : Cur) (h : Hd) (k : BitVec 4) (b : Block), s.block? x.G.geo.bid = some b → WholeRuns s x h [] →
    let st := (b.handle k.toNat).st
    let free := (s.releaseHold b.id k.toNat).onBlock b.id fun b => b.setHandle k.toNat { b.handle k.toNat with st := 0 }
    (st = 1 → walkWaits x.G = false → exec (.hevict h k) s = .next (s.startOp x (.hevict h k) h k.toNat 0) ∧
      exec (.hdemote h k) s = .next (s.startOp x (.hdemote h k) h k.toNat 1)) ∧
    (st = 2 → exec (.hevict h k) s = .next (free.doneLL x h x.G) ∧ exec (.hdemote h k) s = .next (s.doneLL x h x.G)) ∧
    (st = 0 → exec (.hevict h k) s = .next (s.doneLL x h x.G) ∧ exec (.hdemote h k) s = .next (s.doneLL x h x.G))) ∧
  (∀ (s : State) (g op : Nat) (G : Group) (o : Op) (b : Block) (h : Hd) (k : BitVec 4), s.group? g = some G → G.op? op = some o →
    o.instr = .hevict h k ∨ o.instr = .hdemote h k → G.storesDone o.id = true → s.block? G.geo.bid = some b → b.id = G.geo.bid → o.x < b.handles.length →
    (b.handle o.x).st = 1 → ((s.core b.core).maps.any fun m => m.id == (b.handle o.x).map) = true →
    (∀ m ∈ (s.core b.core).maps, m.id = (b.handle o.x).map → s.mapReady b m op = true) →
    ∃ t B H, exec (.handleMoveComplete g op) s = .next t ∧ t.block? G.geo.bid = some B ∧ t.group? g = some H ∧ H.op? op = none ∧
      (B.handle o.x).st = (if o.instr = .hevict h k then 0 else 2) ∧ (B.handle o.x).pri = (b.handle o.x).pri)

/-! ### The copy and binning engines, PUBLISH, cache maintenance, page attributes (R197, R212, R232–R238, R263–R266) -/

/-- R56, R232–R236: what the engines' instructions leave when they issue: one operation of the device, its flag risen. A COPY of
more than 2^32 bytes, a COPY.held to a slot in use and a BIN with b<63:32> set are ILLEGAL; a COPY of 0 bytes is complete.
That a BIN with b<63:32> set is ILLEGAL is the model's choice (log 37). RELEASE marks the copy of its slot, and does nothing where the slot is empty. PUBLISH, a release at its scope, names the
buffer of its page.

R197, R233–R236, R264–R266: how the engines' operations proceed. A line of a copy lands with the bytes of its source; the
copy ends once every line has landed, and a failed one ends with its ENGINE record. A released copy starts with its length
patched once the BINs it waits for have ended. BIN counts each item below its bins, modulo 2^32, and nothing else. A PUBLISH that is due writes
STATE and SEQ of the descriptor in one write. -/
def Obligations.EnginesIssueAndProceed : Prop :=
  ((∀ (s : State) (x : Cur) (h : Hd) (d a c : Reg) (hint : BitVec 2), WholeRuns s x h [d, a, c] →
     let y := readCur x [d, a, c]
     let dst := uVal x d
     let len := uVal x c
     let fr := uFreed x d || uFreed x a || uFreed x c
     let e := s.mkEng y (.copy dst (uVal x a) len hint.toNat [] none) 0xA8
     (2 ^ 32 < len → exec (.copy h hint d a c) s = .next (s.trapFreed x fr 0x01 0xA8) ∧
       ∀ k, exec (.copyHeld h hint k d a c) s = .next (s.trapFreed x fr 0x01 0xA8)) ∧
     (len = 0 → exec (.copy h hint d a c) s = .next (s.doneLL y h y.G)) ∧
     (0 < len → len ≤ 2 ^ 32 → exec (.copy h hint d a c) s =
       .next ((s.clearPresence (s.startCopy (e true)) dst len).startEng y h (s.startCopy (e true)))) ∧
     (∀ (k : BitVec 4) (b : Block), s.block? x.G.geo.bid = some b → len ≤ 2 ^ 32 →
       let e' : Eng := { e false with heldIn := some k.toNat, proofs := s.pbOf (e false) true dst len }
       ((SMap.get? b.held k.toNat).isSome = true → exec (.copyHeld h hint k d a c) s = .next (s.trapFreed x fr 0x01 0xA8)) ∧
       (SMap.get? b.held k.toNat = none → exec (.copyHeld h hint k d a c) s =
         .next (((s.clearPresence e' dst len).startEng y h e').onBlock x.G.geo.bid fun b =>
           { b with held := SMap.put b.held k.toNat s.nextId })))) ∧
   (∀ (s : State) (x : Cur) (h : Hd) (a c : Reg) (clear : Bool) (base : BitVec 6) (nb : BitVec 7), WholeRuns s x h [a, c] →
     let y := readCur x [a, c]
     let e := s.mkEng y (.bin clear base.toNat nb.toNat (uVal x a) (uVal x c)) 0xAA true
     (uVal x c / 2 ^ 32 ≠ 0 → exec (.bin h clear base nb a c) s = .next (s.trapFreed x (uFreed x a || uFreed x c) 0x01 0xAA)) ∧
     (uVal x c / 2 ^ 32 = 0 → exec (.bin h clear base nb a c) s =
       .next (s.startEng y h { e with srcs := s.pbOf e false (uVal x a) (2 * uVal x c) }))) ∧
   (∀ (s : State) (x : Cur) (h : Hd) (a : Reg) (b : Block), WholeRuns s x h [a] → s.block? x.G.geo.bid = some b →
     uVal x a / 2 ^ 16 = 0 →
     let y := readCur x [a]
     let r := uVal x a
     (SMap.get? b.held (r % 16) = none → exec (.release h a) s = .next (s.doneP y h y.G)) ∧
     (∀ (n : Nat) (e : Eng), SMap.get? b.held (r % 16) = some n → s.eng? n = some e → e.rel = none →
       exec (.release h a) s = .next ((s.setEng { e with rel := some (bit r 10, r / 2 ^ 4 % 64, r / 2 ^ 11 % 32,
         if bit r 10 then s.binsOf x.G.geo.bid else []) }).doneP y h y.G))) ∧
   (∀ (s s' : State) (x : Cur) (h : Hd) (scope : BitVec 3) (a : Reg) (l : Leaf), WholeRuns s x h [a] → walkWaits (uniRead x [a]) = false →
     uVal x a < 2 ^ 55 → s.translate x.G.geo.core (s.rootOf x.G) (uVal x a) = (some l, s') → ptePB l.pte = true →
     ∀ p, s'.pbDescC x.G.geo.core l.pte l.bits = some p → releaseReady s' x.g (uniRead x [a]) (2 ^ 16 - 1) scope.toNat = true → exec (.publish h scope a) s =
       .next (s'.startEng (readCur x [a]) h (s'.mkEng (readCur x [a]) (.publish p.desc l.bits scope.toNat) 0xA9 true)))) ∧
  ((∀ (s : State) (i line dst src len hint : Nat) (landed : List Nat) (e : Eng), s.eng? i = some e →
     e.kind = .copy dst src len hint landed none → e.started = true → e.fail = none →
     let p := copyPart dst len line
     (line ∉ landed → line < copyLines dst len →
       (∀ (bs : List Nat) (s1 : State), s.engRead e (src + p.1) p.2 = .ok bs →
         s.engWrite e (dst + p.1) bs = .ok s1 → exec (.copyLineLanded i line) s =
           .next ((s1.setEng { e with kind := .copy dst src len hint (landed ++ [line]) none }).stashLanded e (dst + p.1) p.2)) ∧
       (∀ c a, s.engRead e (src + p.1) p.2 = .flt c a →
         exec (.copyLineLanded i line) s = .next (s.setEng (e.failed c a)))) ∧
     ((∀ k, k < copyLines dst len → k ∈ landed) → exec (.copyComplete i) s = .next (s.endEng e))) ∧
   (∀ (s : State) (i dst src len hint c a : Nat) (landed : List Nat) (old : Option Memory) (e : Eng), s.eng? i = some e →
     e.kind = .copy dst src len hint landed old → e.fail = some (c, a) →
     exec (.copyComplete i) s = .next (s.failEng e 1 0 c a)) ∧
   (∀ (s : State) (i k cnt sh dst src len hint n : Nat) (b : Block) (e : Eng) (p : Bool) (bins landed : List Nat) (old : Option Memory),
     s.block? i = some b → SMap.get? b.held k = some n → s.eng? n = some e → e.rel = some (p, cnt, sh, bins) →
     e.kind = .copy dst src len hint landed old → (∀ j ∈ bins, s.eng? j = none) →
     let len' := if p then min (SMap.getD b.counters cnt 0 * 2 ^ sh) len else len
     exec (.releaseStart i k) s = .next ((s.setEng (s.startCopy { e with kind := .copy dst src len' hint landed old })).onBlock i
       fun B => { B with held := SMap.del B.held k })) ∧
   (∀ (s : State) (i base nb addr n : Nat) (m : SMap Nat) (e : Eng) (b : Block), s.eng? i = some e →
     e.kind = .bin false base nb addr n → s.block? e.bid = some b → addr % 2 = 0 →
     s.binItems e base nb addr n 0 b.counters = (m, .ok ()) →
     exec (.binComplete i) s = .next ((s.onBlock e.bid fun b => { b with counters := m }).endEng e)) ∧
   (∀ (base nb : Nat) (m : SMap Nat) (vs : List Nat) (k : Nat), (∀ j, SMap.getD m j 0 < 2 ^ 32) →
     SMap.getD (vs.foldl (binItem base nb) m) k 0 =
       if base ≤ k ∧ k < base + nb then (SMap.getD m k 0 + vs.count (k - base)) % 2 ^ 32 else SMap.getD m k 0) ∧
   (∀ (s : State) (i desc bits sc : Nat) (e : Eng), s.eng? i = some e → e.kind = .publish desc bits sc →
     let w := s.writeBack e.core (lineOf desc)
     let st := w.homeRead (desc + 16) 8
     let seq := w.homeRead (desc + 24) 8
     s.drained desc = true → s.wbReady e.core s.nextId (lineOf desc) = true → s.lineMoves e.core (lineOf desc) = false →
     w.publishDue e desc = true →
     (bit st 1 = false → w.proofSettled e (w.homeRead (if bit st 0 then desc else desc + 8) 8) bits = true →
       ∃ t, exec (.publishFlip i) s = .next t ∧ t.eng? i = none ∧
         t.mem = (w.homeWrite (desc + 16) 16 ((if bit st 0 then st - 1 else st + 1) + 2 ^ 64 * ((seq + 1) % 2 ^ 64)) true).mem) ∧
     (bit st 1 = true → ∃ t, exec (.publishFlip i) s = .next t ∧ t.eng? i = none ∧
         t.mem = (w.homeWrite (desc + 16) 16 (st % 2 + st / 4 * 4 + 2 ^ 64 * seq) true).mem)))

/-- R212, R237, R238, R263: CWB and CINV of a range whose pages read issue with the physical addresses of the range's parts, and
as they complete the lines of those are written back and with CINV dropped, once no move (R193) and no rehoming (R205) holds them and the
core's earlier requests at their homes are served (R325). ATTR, of a region whose tables are aligned (R208), privileged, rewrites its field of the leaf
entries and no other bit, and takes every entry that the walks of the range meet out of every core's cache. That ATTR.inv completes over
pages that are not mapped (log 105), and that CWB and CINV do nothing for pages of the aperture (log 36), is the model's choice. -/
def Obligations.MaintenanceAndAttributes : Prop :=
  (∀ (s s' : State) (x : Cur) (h : Hd) (scope : BitVec 3) (a c : Reg), cur s = some x → UniRuns x h [a, c] →
    walkWaits (uniRead x [a, c]) = false →
    s.rangeFault x.G.geo.core (s.rootOf x.G) true false (s.privileged x.G) false
      ((pagesOf (uVal x a) (uVal x c)).filter fun p => !inAperture p && !(decide (2 ^ 64 ≤ p))) = (none, s') →
    let parts := s'.rangePas x.G.geo.core (s'.rootOf x.G) (uVal x a) (uVal x c)
    exec (.cwb h scope a c) s = .next (s'.startOpOn (readCur x [a, c]) (.cwb h scope a c) h (uVal x a) (uVal x c) parts) ∧
    exec (.cinv h scope a c) s = .next (s'.startOpOn (readCur x [a, c]) (.cinv h scope a c) h (uVal x a) (uVal x c) parts)) ∧
  (∀ (s : State) (g op : Nat) (ls : LaneMask) (G : Group) (o : Op) (h : Hd) (scope : BitVec 3) (a c : Reg), s.group? g = some G →
    G.op? op = some o → s.maintReady G o = true →
    (o.instr = .cwb h scope a c → exec (.longLatencyComplete g op ls) s =
      .next ((s.maintain G false scope.toNat o).onGroup g fun G => G.endOp o)) ∧
    (o.instr = .cinv h scope a c → exec (.longLatencyComplete g op ls) s =
      .next ((s.maintain G true scope.toNat o).onGroup g fun G => G.endOp o))) ∧
  (∀ (s : State) (x : Cur) (h : Hd) (a c : Reg) (ps : List (Nat × Option Leaf)), cur s = some x → UniRuns x h [a, c] →
    x.G.handler.isSome = true ∨ s.privileged x.G = true → walkWaits (uniRead x [a, c]) = false →
    let va := uVal x a
    let root := s.rootOf x.G
    root % 2 ^ 16 = 0 →
    let pages (chg gs : Bool) : Option (Nat × Nat) × List (Nat × Option Leaf) :=
      s.attrPages x.G.geo.core root (va + uVal x c) chg gs ((pagesOf va (uVal x c)).length + 1) va []
    let ls : List Leaf := ps.filterMap fun p => p.2
    let free : Prop := ∀ l ∈ ls, s.wbReady x.G.geo.core s.nextId (lineOf l.slot) = true ∧ s.lineMoves x.G.geo.core l.slot = false
    let done (i : Instr) (mem : Memory) : Prop := ∃ t H, exec i s = .next t ∧ t.mem = mem ∧ t.group? x.g = some H ∧
      H.lanes = x.G.lanes ∧ ∀ e ∈ t.cores, ∀ p ∈ ps, ∀ q ∈ (walkBy (fun a => t.coreRead x.G.geo.core a 8) root p.1).1, SMap.get? e.2.tlb q.1 = none
    let put (p v : Nat) : Memory := (ls.foldl (fun (s : State) (l : Leaf) =>
      let s := (s.writeBack x.G.geo.core (lineOf l.slot)).onCore x.G.geo.core fun k => k.caDrop (lineOf l.slot)
      (s.homeWrite l.slot 8 (setField l.pte p 2 v) true).raiseWct x.g (s.wctOf l.slot true)) s).mem
    (pages false false = (none, ps) → done (.attrInv h a c) s.mem) ∧
    (pages true false = (none, ps) → releaseReady s x.g x.G x.K.slices 3 = true → free → ∀ v : BitVec 2,
      done (.attrCc h v a c) (put 6 v.toNat) ∧ done (.attrLc h v a c) (put 10 v.toNat) ∧
      (v = 2 → done (.attrCpol h v a c) (put 12 v.toNat))) ∧
    (pages true true = (none, ps) → releaseReady s x.g x.G x.K.slices 3 = true → free → ∀ v : BitVec 2, v ≠ 2 →
      done (.attrCpol h v a c) (put 12 v.toNat))) ∧
  (∀ x p w v i, (setField x p w v).testBit i = if p ≤ i ∧ i < p + w then v.testBit (i - p) else x.testBit i)

/-! ### The matrix engine (R52, R101–R103, R269–R288) -/

/-- R274, R279–R285: the matrix instructions as they issue. MXRES of a record that breaks a rule, or of a descriptor in use, is
ILLEGAL; one that finds no room writes its predicate false and nothing else; otherwise the descriptor holds the record, its
MX lines read zero and the predicate is true. MXFREE and MXZERO wait for the operations that name the descriptor; then the
first makes it unbound and the second valid, and its lines read zero. MXLD, MXST and MMA post an entry into the reservation
table of the cluster, and wait at issue while it holds sixteen.

R101, R193, R275, R276, R285: granting and passes. MATRIX_GRANT of a free array or port grants an eligible entry, none that
stores into banks of a pool move, whose level no other such entry exceeds, and of those the one posted first. MATRIX_LEVEL_RISE lifts an entry that has waited 4,096 ticks while
eligible. A granted pass whose records read
completes by adding, in every selected row of C and no other, the products of A's row with B's columns; MXLD fills its record
and MXST stores the selected rows. -/
def Obligations.MatrixIssueAndPasses : Prop :=
  ((∀ (s : State) (x : Cur) (h : Hd) (od : BitVec 3) (rv : Bool) (rc : BitVec 2) (pk : Prd) (a c : Reg), WholeRuns s x h [a, c] →
     let y := readCur x [a, c]
     let r : OdRec := ⟨uVal x a, uVal x c, rv, rc.toNat, false⟩
     let i : Instr := .mxres h od rv rc pk a c
     let bad := odIllegal r x.G.geo.w x.G.geo.core || (x.G.od od.toNat).isSome
     (bad = true → exec i s = .next (s.trapFreed x (uFreed x a || uFreed x c) 0x01 0xAC)) ∧
     (bad = false → rv = false → odRefused s y.G r = true → exec i s = .next (s.doneP y h (y.G.uPutPred x.K pk false))) ∧
     (bad = false → rv = false → odRefused s y.G r = false → exec i s = .next ((s.onCore x.G.geo.core fun k =>
       k.mxZero r.off r.len).doneP y h ((y.G.setOd od.toNat (some r)).uPutPred x.K pk true))) ∧
     (bad = false → rv = true → exec i s = .next (s.doneP y h ((y.G.setOd od.toNat (some r)).uPutPred x.K pk true)))) ∧
   (∀ (s : State) (x : Cur) (h : Hd) (od : BitVec 3), WholeRuns s x h [] →
     (s.mxNamed x.g od.toNat = true → exec (.mxfree h od) s = .next s.popPort) ∧
     (s.mxNamed x.g od.toNat = false →
       (x.G.od od.toNat = none → exec (.mxfree h od) s = .next (s.doneP x h x.G) ∧
         exec (.mxzero h od) s = .next (s.doneP x h x.G)) ∧
       (∀ r, x.G.od od.toNat = some r →
         let cleared := s.onCore x.G.geo.core fun k => k.mxZero r.off r.len
         (r.rv = true → exec (.mxfree h od) s = .next (s.doneP x h (x.G.setOd od.toNat none)) ∧
           exec (.mxzero h od) s = .next (s.trap x 0x01 (Instr.mxzero h od).opc)) ∧
         (r.rv = false → exec (.mxfree h od) s = .next (cleared.doneP x h (x.G.setOd od.toNat none)) ∧
           (s.odMoving x.G.geo.core r = false → exec (.mxzero h od) s =
             .next (cleared.doneP x h (x.G.setOd od.toNat (some { r with spoiled := false })))))))) ∧
   (∀ (k : Core) (off len q : Nat), SMap.sorted k.mx = true →
     SMap.getD (k.mxZero off len).mx q 0 = if off ≤ q ∧ q < off + len then 0 else SMap.getD k.mx q 0) ∧
   (∀ (s : State) (x : Cur) (h : Hd) (od : BitVec 3) (a : Reg) (r : OdRec), WholeRuns s x h [a] → x.G.od od.toNat = some r →
     uVal x a % 128 = 0 →
     let y := readCur x [a]
     let full := 16 ≤ (s.mxTable (x.G.geo.core / 4)).length
     let posted (i : Instr) (sel : Nat) (ps : Eng → List Proof) : State :=
       let e := s.mkEng y (.mx ⟨i, uVal x a, sel, ((s.regionOf x.G).map (·.rcb.prio)).getD 0, none, false⟩) i.opc true
       (s.startEng y h { e with proofs := ps e }).mxAge
     (r.rv = false → ∀ hint : BitVec 2,
       (full → exec (.mxld h od hint a) s = .next s.popPort) ∧
       (¬full → exec (.mxld h od hint a) s = .next (posted (.mxld h od hint a) 0 fun _ => []))) ∧
     (r.role = 2 → ∀ (fmt : BitVec 2) (nan pe : Bool) (hint : BitVec 2) (pk : Prd), r.fmt ≠ 5 ∨ fmt = 0 →
       let i : Instr := .mxst h od fmt nan hint pe pk a
       (full → exec i s = .next s.popPort) ∧
       (¬full → exec i s = .next (posted i (mxSel x pe pk) fun e => ((bitsOf (mxSel x pe pk) x.G.geo.w).flatMap fun l =>
         s.pbOf e true (uVal x a + l * 128 * mxstSize fmt) (128 * mxstSize fmt)).eraseDups)))) ∧
   (∀ (s : State) (x : Cur) (h : Hd) (t : MT) (oc oa ob : BitVec 3) (ra rb pe : Bool) (pk : Prd) (ja jb : BitVec 12), WholeRuns s x h [] →
     let i : Instr := .mma h t oc oa ob ra rb pe pk ja jb
     let bad := mmaIllegal t (x.G.od oc.toNat) (x.G.od oa.toNat) (x.G.od ob.toNat) ja.toNat jb.toNat
     (bad = true → exec i s = .next (s.trap x 0x01 i.opc)) ∧
     (bad = false → 16 ≤ (s.mxTable (x.G.geo.core / 4)).length → exec i s = .next s.popPort) ∧
     (bad = false → (s.mxTable (x.G.geo.core / 4)).length < 16 → exec i s = .next (s.startEng x h (s.mkEng x
       (.mx ⟨i, 0, mxSel x pe pk, ((s.regionOf x.G).map (·.rcb.prio)).getD 0, none, false⟩) i.opc true)).mxAge))) ∧
  ((∀ (s : State) (cl : Nat) (array : Bool),
     let tab := (s.mxTable cl).filter fun e => mxPort e.2.instr != array
     let el := tab.filter fun e => s.mxEligible e.1 e.2 && !s.mxHeld e.1 e.2
     (∀ e ∈ tab, e.2.granted = false) → el ≠ [] →
     ∃ pre w post, el = pre ++ w :: post ∧ (∀ e ∈ pre, mxLevel s e.2 < mxLevel s w.2) ∧ (∀ e ∈ post, mxLevel s e.2 ≤ mxLevel s w.2) ∧
       exec (.matrixGrant cl array) s = .next (s.setEng { mxCapture s w.1 w.2 with kind := .mx { w.2 with granted := true } })) ∧
   (∀ (s : State) (i t : Nat) (e : Eng) (j : MxJob), s.eng? i = some e → e.kind = .mx j → j.since = some t → j.granted = false →
     t + 4096 ≤ s.tick → j.level < 7 → exec (.matrixLevelRise i) s =
       .next (s.setEng { e with kind := .mx { j with level := j.level + 1, since := some (t + 4096) } })) ∧
   (∀ (s : State) (i : Nat) (e : Eng) (j : MxJob) (G : Group), s.eng? i = some e → e.kind = .mx j → s.group? e.gid = some G →
     j.granted = true → G.ended = false →
     (∀ (h : Hd) (t : MT) (oc oa ob : BitVec 3) (ra rb pe : Bool) (pk : Prd) (ja jb : BitVec 12) (c a b : OdRec)
       (la lb sca scb : List Nat), j.instr = .mma h t oc oa ob ra rb pe pk ja jb →
       G.od oc.toNat = some c → G.od oa.toNat = some a → G.od ob.toNat = some b → a.spoiled = false → b.spoiled = false →
       s.odMoving e.core c = false → s.odMoving e.core a = false → s.odMoving e.core b = false →
       s.odLines e a (fragLines a G.geo.w ja.toNat).2 (fragLines a G.geo.w ja.toNat).1 = .ok la →
       s.odLines e b (fragLines b G.geo.w jb.toNat).2 (fragLines b G.geo.w jb.toNat).1 = .ok lb →
       s.odScales e a (ja.toNat * G.geo.w) G.geo.w = .ok sca → s.odScales e b jb.toNat 1 = .ok scb →
       s.odRows e c (bitsOf j.sel G.geo.w) = .ok () →
       exec (.matrixOpComplete i) s = .next ((s.onCore e.core fun k =>
         k.pass t G.geo.w j.sel c a b la lb sca scb ja.toNat jb.toNat).endEng e).mxAge) ∧
     (∀ (h : Hd) (od : BitVec 3) (hint : BitVec 2) (a : Reg) (r : OdRec) (bs : List Nat), j.instr = .mxld h od hint a →
       G.od od.toNat = some r → s.odMoving e.core r = false → s.engRead e j.addr (128 * r.len) = .ok bs →
       ∃ t H, exec (.matrixOpComplete i) s = .next t ∧ t.eng? i = none ∧ t.mem = s.mem ∧ t.group? e.gid = some H ∧
         H.od od.toNat = some { r with spoiled := false } ∧
         ∀ q, SMap.getD (t.core e.core).mx q 0 =
           if r.off ≤ q ∧ q < r.off + r.len then leAt bs (128 * (q - r.off)) 128 else SMap.getD (s.core e.core).mx q 0) ∧
     (∀ (h : Hd) (od : BitVec 3) (fmt : BitVec 2) (nan : Bool) (hint : BitVec 2) (pe : Bool) (pk : Prd) (a : Reg) (r : OdRec)
       (s1 : State), j.instr = .mxst h od fmt nan hint pe pk a → G.od od.toNat = some r → r.spoiled = false →
       s.odMoving e.core r = false →
       mxstRows s e r fmt nan j.addr (bitsOf j.sel G.geo.w) = (.ok (), s1) →
       exec (.matrixOpComplete i) s = .next (s1.endEng e).mxAge)) ∧
   (∀ (k : Core) (t : MT) (w sel : Nat) (c a b : OdRec) (la lb sca scb : List Nat) (ja jb l n : Nat), l < w → n < 128 →
     (k.pass t w sel c a b la lb sca scb ja jb).cElem c l n =
       if sel.testBit l then mmaElem t (k.cElem c l n) (fragA t la l) (fun i => fragB t lb i n) (scaleOf a sca (ja * w + l))
         (scaleOf b scb jb) % 2 ^ 32
       else k.cElem c l n) ∧
   (∀ (acc sa sb : Nat) (a b : Nat → Nat), ((mmaElem .i8 acc a b sa sb : Nat) : Int) =
     ((acc : Int) + ((List.range 128).map fun k => sext 8 (a k) * sext 8 (b k)).sum) % 2 ^ 32))

/-! ### Collectives (R239–R244, R333–R337) -/

/-- R239–R244, R335: CGRP reads its descriptor and, with no operation of the slot under way, starts; it ends with the slot
declared at the member's rank, where the descriptor is acceptable and its tag free, and with status GROUPBAD otherwise. CSTAT
reads the slot's record. CAG, CRS, CA2A and CBAR on a slot that is not declared do nothing; on a declared slot they give the
member's operation number to the group's order, and the member's engine operation stands issued.

R241–R244, R335, R336: how a matched operation ends, where its anchor lies on this device. A member's contribution is taken once; with the last member's the anchor decides
OK, a term that cannot be read decides FAULT, a member that waited TIMEOUT long decides TIMEOUT where nothing is decided. A
member that receives OK writes its result and its slot reads OK, or FAULT where the destination can no longer be written (the model's
choice, log 117); one that receives another outcome writes no byte of its destination: memory changes in the STATE words of its proofs,
which are spoiled, and by the record that TIMEOUT and FAULT write, and its slot reads that outcome. CAG gives every member the members' bytes in order, and CA2A part j of member i's result is part i of
member j's term. -/
def Obligations.CollectivesIssueAndEnd : Prop :=
  ((∀ (s s' : State) (x : Cur) (h : Hd) (k : BitVec 3) (a : Reg) (b : Block) (ps : List Piece), WholeRuns s x h [a] →
     s.block? x.G.geo.bid = some b →
     (s.slotBusy b k.toNat = true → exec (.cgrp h k a) s = .next s.popPort) ∧
     (s.slotBusy b k.toNat = false → UniAccess s x [a] (uVal x a) 32 32 true false b ps s' → exec (.cgrp h k a) s =
       .next (s'.startEng (readCur x [a]) h (s'.mkEng (readCur x [a])
         (.cgrp k.toNat (leAt (s'.uniBytes x.G.geo.core ps) 0 32)) 0xB5 true)))) ∧
   (∀ (s : State) (i k d : Nat) (e : Eng) (b : Block), s.eng? i = some e → e.kind = .cgrp k d → s.block? e.bid = some b → k < b.slots.length →
     let c := descSlot d
     let me := s.dev * 1024 + e.core
     let free := (s.blocksOn e.core).all fun x => x.slots.zipIdx.all fun (z : CSlot × Nat) =>
       !z.1.live || z.1.tag != c.tag || (x.id == e.bid && z.2 == k)
     ∃ t B, exec (.collectiveOutcome i) s = .next t ∧ t.eng? i = none ∧ t.block? e.bid = some B ∧
       (descOk d me c = true → free = true → ∃ r n, (collMembers c.base c.strides c.counts)[r]? = some me ∧
         B.slot k = { c with decl := n, rank := r } ∧ (B.slot k).live = true) ∧
       (¬(descOk d me c = true ∧ free = true) → (B.slot k).live = false ∧ (B.slot k).word % 8 = 4)) ∧
   (∀ (s : State) (x : Cur) (h : Hd) (d : Reg) (k : BitVec 3) (b : Block), WholeRuns s x h [] → s.block? x.G.geo.bid = some b →
     exec (.cstat h d k) s = .next (uniSets s x h [] d (b.slot k.toNat).word)) ∧
   (∀ (s : State) (x : Cur) (h : Hd) (k : BitVec 3) (op : BitVec 4) (a c : Reg) (len : BitVec 24) (b : Block),
     s.block? x.G.geo.bid = some b → k.toNat < b.slots.length → WholeRuns s x h [a, c] →
     let y := readCur x [a, c]
     let d := b.slot k.toNat
     let idle := s.doneLL y h y.G
     let issued (i : Instr) : Prop := ∃ t r n e B, exec i s = .next t ∧ e.kind = .coll ⟨r, k.toNat, d.rank, i, uVal x a, uVal x c, n, s.tick⟩ ∧
       e ∈ t.eng.ops ∧ e.flag = x.K.llFlag ∧ t.block? x.G.geo.bid = some B ∧ (B.slot k.toNat).nops = d.nops + 1 ∧ t.mem = s.mem
     (d.live = false → exec (.cag h k a c len) s = .next idle ∧ exec (.ca2a h k a c len) s = .next idle ∧
       (op ≠ 11 ∨ x.G.tmshape < 0x10 → exec (.crs h k op a c len) s = .next idle)) ∧
     (op = 11 → 0x10 ≤ x.G.tmshape → exec (.crs h k op a c len) s = .next (s.trap x 0x01 (Instr.crs h k op a c len).opc)) ∧
     (d.live = true → s.collStale d = false → issued (.cag h k a c len) ∧ issued (.ca2a h k a c len) ∧
       (op ≠ 11 ∨ x.G.tmshape < 0x10 → issued (.crs h k op a c len)))) ∧
   (∀ (s : State) (x : Cur) (h : Hd) (k : BitVec 3) (b : Block), s.block? x.G.geo.bid = some b → k.toNat < b.slots.length →
     WholeRuns s x h [] →
     let d := b.slot k.toNat
     (d.live = false → exec (.cbar h k) s = .next (s.doneLL x h x.G)) ∧
     (d.live = true → s.collStale d = false →
       releaseReady s x.g x.G (2 ^ 16 - 1) (if oneDevice (collMembers d.base d.strides d.counts) then 3 else 4) = true →
       ∃ t r e, exec (.cbar h k) s = .next t ∧ e.kind = .coll ⟨r, k.toNat, d.rank, .cbar h k, 0, 0, 0, s.tick⟩ ∧ e ∈ t.eng.ops))) ∧
  ((∀ (s : State) (r m : Nat) (term : List Nat) (c : CollRec) (e : Eng) (j : CollJob), s.coll? r = some c → c.outcome = none →
     SMap.get? c.terms m = none → s.collEng r m = some (e, j) → c.fault = false → c.expired = false → c.anchorDev = s.dev →
     s.absent c.members = (0, false) →
     (∀ bs, s.collTerm e j (collSize c.counts) = .ok bs → ∃ t c', exec (.collectiveContribution r m term) s = .next t ∧ t.mem = s.mem ∧
       t.coll? r = some c' ∧ SMap.get? c'.terms m = some bs ∧
       (c'.outcome = if c.bad then some (4, 0, false)
         else if ({ c with terms := SMap.put c.terms m bs } : CollRec).full = true then some (0, 0, false) else none)) ∧
     (∀ cs a, s.collTerm e j (collSize c.counts) = .flt cs a → ∃ t c', exec (.collectiveContribution r m term) s = .next t ∧
       t.coll? r = some c' ∧ c'.outcome = some (3, 0, false))) ∧
   (∀ (s : State) (r m t : Nat) (c : CollRec), s.coll? r = some c → c.outcome = none → c.fault = false → c.anchorDev = s.dev →
     s.absent c.members = (0, false) → SMap.get? c.since m = some t →
     (t + c.timeout ≤ s.tick → ∃ u c', exec (.collectiveTimeout r m) s = .next u ∧ u.coll? r = some c' ∧
       c'.outcome = some (2, 0, false)) ∧
     (s.tick < t + c.timeout → exec (.collectiveTimeout r m) s = .next s)) ∧
   (∀ (s : State) (i st am : Nat) (more : Bool) (e : Eng) (j : CollJob) (c : CollRec) (b : Block), s.eng? i = some e → e.kind = .coll j →
     s.coll? j.anchor = some c → c.outcome = some (st, am, more) → s.block? e.bid = some b → j.slot < b.slots.length →
     (st = 0 → (∀ h k, j.instr ≠ .cbar h k) → ∀ s1, s.engWrite e j.dst (c.result j.instr j.rank) = .ok s1 →
       exec (.collectiveOutcome i) s = .next ((s1.slotDone e.bid j.slot 0 am more).endEng e)) ∧
     (st = 0 → (∀ h k, j.instr ≠ .cbar h k) → ∀ cs a, s.engWrite e j.dst (c.result j.instr j.rank) = .flt cs a →
       exec (.collectiveOutcome i) s =
         .next ((((s.slotDone e.bid j.slot 3 am more).spoilAll e.proofs).engineRec e 4 3 cs a).endEng e)) ∧
     (st ≠ 0 →
       let u := (if (SMap.get? c.terms j.rank).isNone && e.fail.isNone then s.lateUp else s).slotDone e.bid j.slot st am more
       let v := u.spoilAll e.proofs
       exec (.collectiveOutcome i) s = .next ((if st = 2 ∨ st = 3 then
         v.engineRec e 4 st ((e.fail.map (·.1)).getD 0) ((e.fail.map (·.2)).getD 0) else v).endEng e) ∧
       (∃ t B, exec (.collectiveOutcome i) s = .next t ∧ t.eng? i = none ∧ t.block? e.bid = some B ∧
         (B.slot j.slot).status = st ∧ (B.slot j.slot).amask = am ∧ (B.slot j.slot).amore = more) ∧
       (Memory.wf s.mem = true → (∀ p ∈ e.proofs, p.desc % 32 = 0) →
         (∀ a, (∀ p ∈ e.proofs, a < p.desc + 16 ∨ p.desc + 24 ≤ a) → v.homeByte a = s.homeByte a) ∧
         (∀ q, v.core q = s.core q) ∧ ∀ p ∈ e.proofs, (v.homeByte (p.desc + 16)).getLsbD 1 = true))) ∧
   (∀ (c : CollRec) (h : Hd) (k : BitVec 3) (a b : Reg) (len : BitVec 24) (i j q : Nat), i < c.members.length → j < c.members.length →
     q < len.toNat → (∀ m, m < c.members.length → (SMap.getD c.terms m []).length = c.members.length * len.toNat) →
     (c.result (.ca2a h k a b len) i)[j * len.toNat + q]? = (SMap.getD c.terms j [])[i * len.toNat + q]? ∧
     c.result (.cag h k a b len) i = (List.range c.members.length).flatMap fun m => SMap.getD c.terms m []))

/-! ### The graph engine (R289–R313, R323) -/

/-- R306–R309, R311–R313: the graph instructions as they issue, where the descriptor's address and range pass their checks. GSPACE.bind
of a descriptor that keeps its rules, with member pages that do, binds the space and clears the engine's bytes of the
descriptor. GSPACE.unbind with the binding's key waits for the space's broadcasts and then unbinds it. The others are accepted,
in order, by the controller of a space that they may name, and with GSPACE.unbind are refused with ATTR where no space is bound at the
descriptor, or one that the issuing region may not name. Which byte of a field that breaks its rule FAULTADDR names is the model's
choice (log 64). -/
def Obligations.GraphIssue : Prop :=
  ∀ (s s' : State) (x : Cur) (h : Hd) (a c : Reg) (b : Block) (p : Piece) (ps : List Piece),
    let va := uVal x a
    let named (rs : List Reg) : Prop := WholeRuns s x h rs ∧ va < 2 ^ 55 ∧ inAperture va = false ∧ va % 256 = 0 ∧
      UniAccess s x rs va 256 256 true true b (p :: ps) s'
    let accepted (rs : List Reg) (i : Instr) (word key addr : Nat) : Prop :=
      (∀ q, s'.space? p.pa = some q → s'.mayName x.G q = true → exec i s = .next (s'.startEng (readCur x rs) h
        (s'.mkEng (readCur x rs) (.bcast
          ⟨p.pa, i, word, key, addr, false, 0, false, [], [], [], [], [], none, none, [], [], 0, 0, false, false, none⟩) i.opc false))) ∧
      (s'.space? p.pa = none → exec i s = .next (s'.uniFault x (rs.any (uFreed x)) 0x06 va i.opc)) ∧
      (∀ q, s'.space? p.pa = some q → s'.mayName x.G q = false → exec i s = .next (s'.uniFault x (rs.any (uFreed x)) 0x06 va i.opc))
    (named [a, c] →
      (∀ base n : BitVec 7, uVal x c % 4 = 0 → accepted [a, c] (.gload h base n a c) 0 0 (uVal x c)) ∧
      (∀ (clr : Bool) (m : BitVec 3) (cap : BitVec 24), uVal x c % 64 = 0 →
        accepted [a, c] (.gcoll h clr m cap a c) 0 0 (uVal x c)) ∧
      (∀ arg : BitVec 24, waveBad (uVal x c) = false → accepted [a, c] (.gprop h arg a c) (uVal x c) 0 0) ∧
      (∀ q, s'.space? p.pa = some q → s'.mayName x.G q = true →
        (q.key ≠ uVal x c → exec (.gspaceUnbind h a c) s = .next (s'.uniFault x (uFreed x a || uFreed x c) 0x06 va 0xBB)) ∧
        (q.key = uVal x c → s'.bcasts p.pa ≠ [] → exec (.gspaceUnbind h a c) s = .next s'.popPort) ∧
        (q.key = uVal x c → s'.bcasts p.pa = [] → exec (.gspaceUnbind h a c) s = .next (State.doneP
          { s' with eng := { s'.eng with spaces := s'.eng.spaces.filter fun q => q.desc != p.pa } } (readCur x [a, c]) h
          (uniRead x [a, c])))) ∧
      (s'.space? p.pa = none → exec (.gspaceUnbind h a c) s = .next (s'.uniFault x (uFreed x a || uFreed x c) 0x06 va 0xBB)) ∧
      (∀ q, s'.space? p.pa = some q → s'.mayName x.G q = false →
        exec (.gspaceUnbind h a c) s = .next (s'.uniFault x (uFreed x a || uFreed x c) 0x06 va 0xBB)) ∧
      let d (o n : Nat) : Nat := leAt (s'.uniBytes x.G.geo.core (p :: ps)) o n
      (∀ o, descBad d = some o → exec (.gspaceBind h a c) s = .next (s'.uniFault x (uFreed x a || uFreed x c) 0x06 (va + o) 0xBB)) ∧
      (∀ ms, descBad d = none → (s'.eng.spaces.filter fun p => p.die == x.G.geo.core / 256).length < 16 → s'.spaceOf p.pa = none →
        s'.memberVaults x.G.geo.core (s'.rootOf x.G) (d 0 8) (d 8 4) (d 12 4) [] (List.range (d 16 2)) = .inr ms →
        ∃ t q, exec (.gspaceBind h a c) s = .next t ∧ t.eng.spaces = s'.eng.spaces ++ [q] ∧ q.desc = p.pa ∧ q.key = uVal x c ∧
          q.members = ms ∧ q.nv = d 16 2 ∧ q.nmax = d 0x14 4 ∧ q.store = [] ∧ q.closing = false ∧
          t.mem = (s'.homeWriteN (p.pa + 0x40) (List.replicate 129 0)).mem)) ∧
    (∀ (prog : Bool) (ksel : BitVec 2) (m : BitVec 3) (tmsk tval : BitVec 8) (pent : BitVec 7),
      let i : Instr := .gset h prog ksel m tmsk tval pent a c
      named (gReads i) → accepted (gReads i) i 0 (if prog || ksel != 0 then uVal x c else 0) 0) ∧
    (∀ (fill : Bool) (m : BitVec 3) (tmsk tval : BitVec 8),
      let i : Instr := .gclr h fill m tmsk tval a c
      named (gReads i) → accepted (gReads i) i 0 (if fill then uVal x c else 0) 0)

/-- R265, R293–R305, R309–R313, R323: how a broadcast proceeds. It starts once no earlier one of its space touches its slots, and
reads through the backings of that moment; a wave then stands RUNNING with the marked nodes as its frontier. A slot is read by two
accesses of 16 bytes, here with a step between them. A hop sends a message for each used edge of the frontier, from the units that lag
when their queues come to it; a message for a node that is not found is dropped and counted, one that its unit's buffer has room for is
taken. With all of them taken the end of the hop goes to every unit, each of which then forms the folds of its nodes; with the last of
them the hop ends, and their writes follow one access at a time. A broadcast that has its outcome and no write to make ends: a wave's
status record is written last. While a unit is refreshed, or its queue is not empty, its commands queue. That the accesses of one
step's slots come in one order, and that a lagging unit's messages are those of the slots at the start of the hop, is the model's choice
(log 118). -/
def Obligations.GraphProceeds : Prop :=
  (∀ (s : State) (i : Nat) (e : Eng) (b : Bcast) (p : Space), s.eng? i = some e → e.kind = .bcast b → s.spaceOf b.space = some p →
    (b.started = false → s.bcastHeld e b = false → b.readsSlots = true → b.lows = none →
      exec (.broadcastStart i) s = .next (s.setBcast e { b with lows := some (s.startLows p b) })) ∧
    (b.started = false → s.bcastHeld e b = false → (b.readsSlots = true → b.lows.isSome = true) → (b.readsRecs = true → s.recsBad p = false) →
      let started (reads : List Proof) : Eng := { e with started := true, srcs := reads }
      let e' := started []
      let b' : Bcast := { b with started := true }
      (∀ h base n a c, b.instr = .gload h base n a c → exec (.broadcastStart i) s =
        .next (s.setBcast (started (s.pbOf e false b.addr (4 * n.toNat))) b')) ∧
      (∀ h arg a c, b.instr = .gprop h arg a c → let e' := started (s.pbOf e false p.pmap (4 * p.mapn)); exec (.broadcastStart i) s =
        .next ((s.gDesc e' (p.desc + 0x40 + 32 * wWave b.word) 32 0xFF).setBcast e'
          { b' with frontier := (s.validNodes p).filter fun pl => s.recMark p pl (wMs b.word) })) ∧
      (∀ h prog ksel m tmsk tval pent a c, b.instr = .gset h prog ksel m tmsk tval pent a c → exec (.broadcastStart i) s =
        .next (s.gsetRun e' p b' prog ksel.toNat m.toNat tmsk.toNat tval.toNat pent.toNat)) ∧
      (∀ h fill m tmsk tval a c, b.instr = .gclr h fill m tmsk tval a c → exec (.broadcastStart i) s =
        .next (s.gclrRun e' p b' fill m.toNat tmsk.toNat tval.toNat)) ∧
      (∀ h clr m cap a c, b.instr = .gcoll h clr m cap a c → exec (.broadcastStart i) s =
        .next (s.gcollRun e' p b' clr m.toNat cap.toNat))) ∧
    (b.started = true → b.isWave = true → b.ended = none →
      (b.inHop = false → b.todo = [] →
        let b' : Bcast := { b with hop := b.hop + 1, inHop := true, sending := [], got := [], lost := [], spilled := [], lows := none }
        (b.lows = none → exec (.hopStart i) s = .next (s.setBcast e { b with lows := some (s.slotLows p b.frontier b'.sendSlots) })) ∧
        (∀ lo ms, b.lows = some lo → s.sendAll p b' lo b.frontier = .inl ms → exec (.hopStart i) s =
          .next ((s.queueCmd (p.units.filter s.queues) i cmdStart).setBcast e { b' with
            sending := (ms.filter fun x => !s.queues (p.unitOf x.1)).flatMap (·.2), unsent := ms.filter fun x => s.queues (p.unitOf x.1) }))) ∧
      (b.inHop = true → ∀ m g, b.sending[m]? = some g → m ∉ b.got →
        (s.locate e p g.dst = .ok none → exec (.messageReceive i m) s = .next (s.setBcast e
          { b with got := b.got ++ [m], lost := b.lost ++ [m], msgs := b.msgs + 1, drops := b.drops + 1 })) ∧
        (∀ pl, s.locate e p g.dst = .ok (some pl) →
          let u := (p.members[pl / 2 ^ 32]?).getD 0 * 16 + pl % 2 ^ 32 % 16
          (s.queues u = false → s.memBad (s.recAddr p pl) 32 = false → s.nodeIs p pl g.dst = false → exec (.messageReceive i m) s = .next (s.setBcast e
            { b with got := b.got ++ [m], lost := b.lost ++ [m], msgs := b.msgs + 1, drops := b.drops + 1 })) ∧
          (s.queues u = false → s.memBad (s.recAddr p pl) 32 = false → s.nodeIs p pl g.dst = true → s.buffered u < 256 →
            ∃ b', exec (.messageReceive i m) s = .next (s.setBcast e b') ∧ b'.got = b.got ++ [m] ∧ b'.lost = b.lost ∧
              b'.msgs = b.msgs + 1 ∧ b'.drops = b.drops) ∧
          (s.queues u = true → (SMap.getD s.eng.catchup u []).length < 64 →
            (i, m) ∉ SMap.getD s.eng.catchup u [] → ∃ t, exec (.messageReceive i m) s = .next t ∧ t.eng.ops = s.eng.ops ∧
              SMap.getD t.eng.catchup u [] = SMap.getD s.eng.catchup u [] ++ [(i, m)]))) ∧
      (b.inHop = true → b.todo = [] → b.unsent = [] → b.got.length = b.sending.length →
        let cast (us : List Nat) (folds : List NodeFold) : State := (s.queueCmd (us.filter s.queues) i cmdEnd).setBcast e { b with
          fin := some ⟨us.filter s.queues, us.filter fun u => !s.queues u && !(b.unitNodes p u).isEmpty, folds⟩ }
        (b.fin = none → exec (.hopEnd i) s = .next (cast p.units [])) ∧
        (∀ v us fs, b.fin = some ⟨v :: us, [], fs⟩ → exec (.hopEnd i) s = .next (cast (v :: us) fs)) ∧
        (∀ us u due fs, b.fin = some ⟨us, u :: due, fs⟩ →
          (b.lows = none → exec (.hopEnd i) s = .next (s.setBcast e
            { b with lows := some (s.slotLows p ((b.unitNodes p u).map (·.1)) b.foldSlots) })) ∧
          (∀ lo gs, b.lows = some lo → s.ms.bad = [] → (b.unitNodes p u).mapM (s.nodeFold p b lo) = some gs → exec (.hopEnd i) s =
            .next (s.setBcast e { b with lows := none, fin := some ⟨us, due, fs ++ gs⟩ }))) ∧
        (∀ fs, b.fin = some ⟨[], [], fs⟩ →
          let w := b.word
          let n := wNe w * pfW (wPf w)
          let next := (fs.filter fun x => !wChanged w || x.old != x.pat).map (·.place)
          ∃ b', exec (.hopEnd i) s = .next (s.setBcast e b') ∧
            b'.todo = (fs.flatMap fun x => slotPuts (s.slotAddr p x.place (wMd w)) (n / 8) x.pat ++ [s.markSet p x.place (wMd w)]) ∧
            b'.frontier = next ∧ b'.inHop = false ∧ b'.hop = b.hop ∧
            (b'.ended = if next = [] then some (1, 0)
              else if b.hop = wHops w ∨ (wHops w = 0 ∧ b.hop = 65535) then some (0, 0) else none))) ∧
      (∀ lo pl ms f, s.nodeFold p b lo (pl, ms) = some f → f.place = pl ∧
        f.old = s.slotVal lo (s.slotAddr p pl (wMd b.word)) % 2 ^ (wNe b.word * pfW (wPf b.word)) ∧
        ∃ g, s.foldNode p b lo pl ms.vals = some g ∧ f.domf = g.domf ∧ f.sat = g.sat ∧
          f.pat = elems (pfW (wPf b.word)) (fun i => (g.vals[i]?).getD 0) (wNe b.word))) ∧
    (∀ w ws, b.started = true → b.todo = w :: ws → exec (if b.isWave then .hopEnd i else .broadcastEnd i) s =
      .next ((s.gDo e w).setBcast e { b with todo := ws })) ∧
    (∀ h arg a c st cause, b.started = true → b.todo = [] → b.ended = some (st, cause) → b.instr = .gprop h arg a c → st < 2 →
      ∃ t, exec (.broadcastEnd i) s = .next t ∧ t.eng? i = none ∧ t.mem = ((s.clearWave e p (wWave b.word)).gDesc e
        (p.desc + 0x40 + 32 * wWave b.word) 32 (b.status st 0 s.tick)).mem) ∧
    (∀ h base n a c bs, b.started = true → b.todo = [] → b.ended = none → b.instr = .gload h base n a c →
      s.engRead e b.addr (4 * n.toNat) = .ok bs → npScan 0 ((List.range n.toNat).map fun i => leAt bs (4 * i) 4) = true →
      ∃ t q, exec (.broadcastEnd i) s = .next t ∧ t.eng? i = none ∧ (p.closing = false → t.spaceOf b.space = some q ∧
        ∀ k, SMap.getD q.store k 0 = if base.toNat ≤ k ∧ k < base.toNat + n.toNat then leAt bs (4 * (k - base.toNat)) 4
          else SMap.getD p.store k 0))) ∧
  (∀ (s : State) (v u : Nat), u < 16 → v < 1024 →
    (s.eng.refresh.contains (v * 16 + u) = false → exec (.refreshStart v u) s =
      .next { s with eng := { s.eng with refresh := s.eng.refresh ++ [v * 16 + u] } }) ∧
    (s.eng.refresh.contains (v * 16 + u) = true → exec (.refreshEnd v u) s =
      .next ((SMap.getD s.eng.catchup (v * 16 + u) []).foldl (fun (s : State) x =>
          if x.2 = cmdStart then s.sendLate x.1 (v * 16 + u) else if x.2 = cmdEnd then s.endLate x.1 (v * 16 + u) else s.msgArrive x.1 x.2 true)
        { s with eng := { s.eng with refresh := s.eng.refresh.filter fun x => x != v * 16 + u, catchup := SMap.del s.eng.catchup (v * 16 + u) } })))

/-- R297, R299: whatever the order in which a hop's messages arrive, each node folds the same messages in the same order. -/
def Obligations.ArrivalOrderDoesNotMatter : Prop :=
  ∀ (b : Bcast) (got : List Nat), got.Perm b.got → b.got.Nodup → b.sending.length ≤ 2 ^ 40 →
    ({ b with got := got } : Bcast).byNode = b.byNode

/-! ### The handler, regions and scheduling (R34–R37, R164, R165, R174–R184, R340–R357) -/

/-- R168, R174–R179, R184: once every gang has stopped, in a RESIDENT block, the group's earliest event is taken: the fault registers hold it, and one gang of every live
lane runs from HANDLER at the reported gang's depth, while lanes are as they were. Without a HANDLER, or within it, the
event passes to the parent. ERET outside the handler, or with a divergence open, is ILLEGAL; otherwise the gangs return.
Leaving the handler undoes entering it: stacks, records and every gang's lanes, and for gangs that were not PARKED their
state and place; the reported gang is at ERETPC. -/
def Obligations.HandlerAndReturn : Prop :=
  (∀ (s : State) (g : Nat) (G : Group) (e : FaultEv) (K : Gang), s.group? g = some G → G.entryDue = true →
    s.groupRuns G = true → earliest G.allEvents = some e → G.holder e = some K →
    let hpc := ((s.regionOf G).map (·.rcb.handler)).getD 0
    (G.handler = none → hpc ≠ 0 → K.depth + 24 ≤ G.bottom + G.geo.cap → ∃ t H D, exec (.handlerEntry g) s = .next t ∧
      t.group? g = some H ∧ H.lanes = G.lanes ∧ H.gstat = G.gstat ∧ H.flags = G.flags ∧ H.gangs = [D] ∧ D.pc = hpc ∧
      D.slices = G.unretired ∧ D.mask = G.liveLanes ∧ D.depth = K.depth ∧ D.st = .ready ∧ D.clause = none ∧
      H.fregs = ⟨e.pc, causeWord e, e.addr % 2 ^ 55, G.faultLanes e, e.tick, e.eret⟩ ∧ H.handler.isSome = true ∧
      t.mem = s.mem ∧ t.ports = s.ports) ∧
    (G.handler.isSome = true → exec (.handlerEntry g) s = .next (s.passFault g G e 1)) ∧
    (G.handler = none → hpc = 0 → exec (.handlerEntry g) s = .next (s.passFault g G e 0))) ∧
  (∀ (s : State) (x : Cur) (h : Hd), cur s = some x → UniRuns x h [] →
    (x.G.handler = none → exec (.eret h) s = .next (s.trap x 0x01 0xC8)) ∧
    (x.G.handler.isSome = true →
      (x.G.closed = false → exec (.eret h) s = .next (s.trap x 0x01 0xC8)) ∧
      (x.G.closed = true → x.G.replayWaits s x.g = false →
        exec (.eret h) s = .next (s.popPort.resumeGroup x.g x.G.leaveHandler)))) ∧
  (∀ (G : Group) (e : FaultEv) (K : Gang) (pc id tick : Nat), G.evs.erase e = [] →
    let L := (G.enterHandler e K pc id tick).leaveHandler
    L.handler = none ∧ L.lanes = G.lanes ∧ L.dstacks = G.dstacks ∧ L.recs = G.recs ∧ L.evs = [] ∧
      L.gangs.map (fun D => (D.id, D.slices, D.mask, D.depth)) = G.gangs.map (fun D => (D.id, D.slices, D.mask, D.depth)) ∧
      (∀ D ∈ L.gangs, D.id = K.id → D.pc = e.eret) ∧
      ∀ D ∈ G.gangs, D.id ≠ K.id → ∃ D' ∈ L.gangs, D'.id = D.id ∧ D'.pc = D.pc ∧ D'.clause = D.clause ∧
        D'.st = (if D.st = .parked then .ready else D.st))

/-- R340, R343–R350, R352: SPAWN of an RCB whose parent links, its own first, reach the issuer's RCB, or by a privileged region, hands
it to the scheduler; of another it raises PRIV, and an ancestor that cannot be read faults (R148). A region that finds its RCB idle is refused with the first reason that holds, or is launched with its blocks PENDING. RESUME lets
the SAVED blocks load again, and those that stopped without a fault of their own go on; END ends the region, and a region that is quiet
makes its completion store. That the issuer's own RCB lies in its subtree is the model's choice (log 114), and so is that a chain ends at
a live region without a parent and that END of a region ends that region alone (log 74). -/
def Obligations.RegionsLaunchAndEnd : Prop :=
  (∀ (s s' : State) (x : Cur) (h : Hd) (a : Reg) (b : Block) (p : Piece) (ps : List Piece), WholeRuns s x h [a] → uVal x a < 2 ^ 55 →
    inAperture (uVal x a) = false → UniAccess s x [a] (uVal x a) 1 512 true false b (p :: ps) s' →
    let y := readCur x [a]
    let ready := releaseReady s' x.g y.G (2 ^ 16 - 1) 3
    let own := s'.rcbReach (s'.ownRcb y) 16 p.pa
    (ready = false → exec (.spawn h a) s = .next (s'.waitWct y)) ∧
    (∀ c v, ready = true → own = .flt c v → exec (.spawn h a) s = .next (s'.uniFault x (uFreed x a) c v 0xC5)) ∧
    (ready = true → own = .ok false → s'.privileged y.G = false →
      exec (.spawn h a) s = .next (s'.trapFreed x (uFreed x a) 0x11 0xC5)) ∧
    (∀ r, ready = true → own = .ok r → (r = true ∨ s'.privileged y.G = true) → exec (.spawn h a) s =
      .next (State.doneP (State.fresh { s' with spawns := s'.spawns ++ [⟨s'.nextId, p.pa, x.G.geo.core / 256⟩] }) y h y.G))) ∧
  (∀ (s : State) (sp : Nat) (x : Spawn), s.spawns.find? (fun y => y.id == sp) = some x →
    let s0 := s.dropSpawn sp
    let code := s.rcbState x.addr % 256
    (code = 0 →
      let ch := s.rcbChain 16 x.addr
      let as := x.addr :: ch.1
      let r := s.resolveRcb as
      let chained := ch.2 && (s.regionAt ((as.getLast?).getD 0)).any fun R => R.chain.isEmpty
      let p := match s.regionAt ((ch.1[0]?).getD 0) with | some P => P.rcb | none => s.resolveRcb ch.1
      let run (n : Nat) : Prop := exec (.regionAccept sp) s = .next (s0.refuse x.addr n)
      (chained = false → run 5) ∧
      (chained = true → s.fieldBad x.addr r x.die = true → run 1) ∧
      (chained = true → s.fieldBad x.addr r x.die = false → overBudget r p = true → run 3) ∧
      (chained = true → s.fieldBad x.addr r x.die = false → overBudget r p = false →
        (s.entryOf r = none → run 2) ∧
        (∀ e, s.entryOf r = some e → r.coop = false →
          exec (.regionAccept sp) s = .next (((s0.setRcbState x.addr 1 0).launch x.addr ch.1 r x.die e.1 e.2).recordSpawn as)))) ∧
    (∀ R, s.regionAt x.addr = some R →
      (code = 5 → exec (.regionResume sp) s = .next ((((s0.setRcbState x.addr 1 0).blocksOf R.id)).foldl (fun (s : State) b =>
        if b.st == .saved || (s.groupsOf b).all (fun x => x.2.passed.isNone) then s.onBlock b.id fun b => { b with faulted := false }
        else s) (s0.setRcbState x.addr 1 0))) ∧
      (code = 6 → exec (.regionEnd sp) s = .next (s0.endRegion R)))) ∧
  (∀ (s : State) (a die entry i : Nat) (chain : List Nat) (r : Rcb) (bounds : List Nat), i < r.count bounds →
    let t := s.launch a chain r die entry bounds
    ∃ B R, t.block? (s.nextId + 1 + i) = some B ∧ B.st = .pending ∧ B.idx = i ∧ B.rid = s.nextId ∧ B.groups = [] ∧
      t.region? s.nextId = some R ∧ R.addr = a ∧ R.rcb = r ∧ R.live = true ∧ R.nblocks = r.count bounds) ∧
  (∀ (s : State) (r : Nat) (R : Region), s.region? r = some R → R.live = true → s.regionQuiet R = true →
    ∃ t R', exec (.completionStore r) s = .next t ∧ t.region? r = some R' ∧ R'.live = false ∧ t.mem =
      ((s.setRcbState R.addr ((R.ending).getD 3) 0).complStore R.rcb.compl R.rcb.complv).mem)

/-- R37, R181–R184, R351–R356: a block that its region's order and the rules of placement let load goes to LOADING on its core, and with its
contexts in place to RESIDENT. A block with a fault that passed to the parent, or one that makes room for a block of
higher priority or for those that load with it, takes a free unit of the save area and goes to SAVING, and once its operations
are done and its write-backs may go home to SAVED in that unit. The model's choices are that memory is as it was when a faulted block is
pre-empted, FAULTED being written with the save (log 69), and in the order of loads that a block which would be a victim at once does not
load (log 52), the conditions of log 75, the ties of log 95 and that a SAVED block goes first (log 101). -/
def Obligations.BlocksLoadAndSave : Prop :=
  ∀ (s : State) (b : Nat) (B : Block) (R : Region), s.block? b = some B → B.id = b → s.region? B.rid = some R →
    (R.rcb.coop = false → s.inOrder B = true → ∀ c t, s.placeOf B = some (c, t) →
      (s.keepsClear t [b] = false → exec (.blockLoad b c) s = .next t ∧ ∃ B', t.block? b = some B' ∧ B'.st = .loading ∧ B'.core = c) ∧
      (s.keepsClear t [b] = true → exec (.blockLoad b c) s = .next s)) ∧
    (R.rcb.coop = false → s.inOrder B = true → ∀ c, s.placeOf B = none → exec (.blockLoad b c) s = .next s) ∧
    (B.st = .loading → R.ending = none → ((s.groupsOf B).any fun x => x.2.passed.isSome && x.2.replayWaits s x.1) = false →
      (s.loneBeside B.core b).any s.loneWrites = false → ∃ t B', exec (.contextsInPlace b) s = .next t ∧ t.block? b = some B' ∧ B'.st = .resident) ∧
    (∀ u, B.st = .resident → B.faulted = true → s.freeSaveUnit R = some u →
      ∃ t B', exec (.preempt b) s = .next t ∧ t.block? b = some B' ∧ B'.st = .saving ∧ B'.unit = some u ∧ t.mem = s.mem) ∧
    (B.st = .resident → s.freeSaveUnit R = none → (B.faulted = true ∨ R.rcb.coop = false) → exec (.preempt b) s = .next s) ∧
    (B.st = .resident → B.faulted = false → R.rcb.coop = false → ∀ n, n ∈ SMap.vals s.blocks → n.waits = true → s.inOrder n = true →
      R.rcb.prio < s.blockPrio n → (∃ v ∈ s.needs (s.loadsWith n), v.id = b) → exec (.preempt b) s = .next (s.startSave B)) ∧
    (B.st = .saving → s.saveDue B = true → s.saveReady B = true → R.ending = none → ∀ u, B.unit = some u →
      ∃ t B', exec (.saveComplete b) s = .next t ∧ t.block? b = some B' ∧ B'.st = .saved ∧ B'.unit = some u)

/-! ### Placement, configuration space, the fabric, hosts (R203–R205, R326–R332, R338, R358–R371) -/

/-- R204, R205, R332: a change of the placement tables that breaks no rule waits for its drain; as it is drained, the lines that it concerns have
left the LLC with memory as it was, and the entry holds its new value. Once in 2^20 ticks, where it is enabled, the busiest
bucket of the busiest slice may move to the least busy slice of its die. That an entry with a bad FIRST is dropped whole is the model's
choice (log 84), and so is that the rebalancer counts since its last move (log 86).

R332, R359, R362, R364–R367, R371: CONFIG_WRITE of a whole register at PHASE FIRMWARE or READY gives it the value where every bit is one it may hold, and changes
nothing where it may not, where the register is read-only, or before those phases. IDENTITY_READ answers eight bytes of the
window. REPLAY_GO and STOP_ARM are written likewise, in those phases alone; a key slot and an encryption range take effect with a drain,
which leaves memory as it was (R371). -/
def Obligations.PlacementAndConfiguration : Prop :=
  ((∀ (s : State) (k v : Nat),
     (s.cfgOpen = true → k < 64 → rangeBad v = false → exec (.configRangeEntryWrite k v) s = .next (s.addDrain (.range k) v)) ∧
     (s.cfgOpen = true → k < 4096 → v < 256 → exec (.configBucketEntryWrite k v) s = .next (s.addDrain (.bucket k) v)) ∧
     (s.cfgOpen = false ∨ 64 ≤ k ∨ rangeBad v = true → exec (.configRangeEntryWrite k v) s = .next s) ∧
     (s.cfgOpen = false ∨ 4096 ≤ k ∨ 256 ≤ v → exec (.configBucketEntryWrite k v) s = .next s)) ∧
   (∀ (s : State) (d : Drain) (rest : List Drain), s.ms.drains = d :: rest → SMap.sorted s.ms.homes = true →
     ∃ t, exec (.rehomeDrain d.id) s = .next t ∧ t.mem = s.mem ∧ t.ms.drains = rest ∧
       (∀ b, d.what = .bucket b → t.bucket b = d.val ∧ ∀ c, c ≠ b → t.bucket c = s.bucket c) ∧
       (∀ k, d.what = .range k → SMap.getD t.ms.ranges k 0 = d.val) ∧
       (∀ k, d.what = .key k → SMap.get? t.ms.keys k = some d.val ∧ ∀ j, j ≠ k → SMap.get? t.ms.keys j = SMap.get? s.ms.keys j) ∧
       (∀ k, d.what = .enc k → SMap.getD t.ms.encs k 0 = d.val) ∧
       ∀ line, s.isLocal line = true →
         SMap.get? t.ms.homes line = if s.drainMeets d line then none else SMap.get? s.ms.homes line) ∧
   (∀ (s : State) (b sl : Nat), s.ms.rebal = true → s.tick % 2 ^ 20 = 0 → b < 4096 → sl < 256 →
     let f := s.bucket b
     sl / 64 = f / 64 → sl ≠ f → (∀ x, x < 256 → s.sliceHits x ≤ s.sliceHits f) →
     (∀ i, i < 64 → s.sliceHits sl ≤ s.sliceHits (f / 64 * 64 + i)) →
     (∀ e ∈ s.ms.hits, s.bucket e.1 = f → e.2 ≤ SMap.getD s.ms.hits b 0) →
     exec (.rebalance b sl) s = .next (State.addDrain { s with ms := { s.ms with hits := [] } } (.bucket b) sl))) ∧
  ((∀ (s : State) (v : Nat), v < 2 ^ 64 →
     let w (off : Nat) (f : State → State) : Prop := exec (.configWrite off 8 v) s = .next (f s)
     let tr (f : Trace → Trace) (s : State) : State := { s with tr := f s.tr }
     (s.cfgOpen = false → ∀ off, w off id) ∧
     (s.cfgOpen = true →
       w 0x5000 (if v % 4096 = 0 then tr fun t => { t with tbase := v } else id) ∧
       w 0x5008 (if 6 ≤ v ∧ v ≤ 24 then tr fun t => { t with tsize := v } else id) ∧
       w 0x5010 id ∧
       w 0x5018 (tr fun t => { t with tail := v }) ∧
       w 0x5028 (if tctlBad v then id else tr fun t => { t with tctl := v }) ∧
       w 0x5038 id ∧
       w 0x5300 (if s.tr.rgo then id else tr fun t => { t with rbase := v }) ∧
       w 0x5308 (if s.tr.rgo then id else tr fun t => { t with rcount := v }) ∧
       w 0x6000 (if 400 ≤ v ∧ v ≤ 2000 then fun s => { s with sys := ({ s.sys with pcap := v }).throttled s.sys.throttle } else id) ∧
       w 0x2000 (if v < 2 then fun s => { s with ms := { s.ms with rebal := v == 1 } } else id))) ∧
   (∀ s : State,
     exec .replayGo s = .next (if s.cfgOpen ∧ ¬s.tr.rgo then { s with tr := { s.tr with rgo := true, rdone := 0 } } else s) ∧
     ∀ v, v < 2 ^ 66 → exec (.stopArm v) s = .next (if s.cfgOpen ∧ s.sys.life = 3 then
       let late := bit v 64 && decide (v % 2 ^ 64 ≤ s.tick)
       { s with sys := { s.sys with
         stopTick := v % 2 ^ 64, arm := bit v 64 && !late, miss := (s.sys.miss && bit v 65) || late } } else s)) ∧
   (∀ (s : State) (cmd : Nat),
     (cmd < 64 → exec (.identityRead cmd) s =
       .next { s with fab := { s.fab with out := s.fab.out ++ [⟨3, cmd, s.cfgRead (0x3000 + 8 * cmd) 8⟩] } }) ∧
     (64 ≤ cmd → exec (.identityRead cmd) s = .next s)) ∧
   (∀ (s : State) (k v : Nat),
     (s.cfgOpen = true → 0 < k → k < 64 → exec (.keySlotWrite k v) s = .next (s.addDrain (.key k) (v % 2 ^ 512))) ∧
     (s.cfgOpen = false ∨ k = 0 ∨ 64 ≤ k → exec (.keySlotWrite k v) s = .next s) ∧
     (s.cfgOpen = true → k < 64 → encBad v = false → exec (.encryptionRangeWrite k v) s = .next (s.addDrain (.enc k) v)) ∧
     (s.cfgOpen = false ∨ 64 ≤ k ∨ encBad v = true → exec (.encryptionRangeWrite k v) s = .next s)))

/-- R258, R259, R326–R332, R338, R363, R364: what arrives. A flit on a port that is down or unused is nothing; one whose check fails is
dropped and counted, and the flits after it are not taken before its replay, which is counted; one of an unused type is
dropped and counted; any other returns its credits and delivers the access that it completes: on an edge port a host's, on a
torus port another device's, which is discarded while the injector runs. A load that arrives answers with
the bytes at their home, a store writes them there. LINK_TRAINING sets the lanes that work to 12, 8, 4 or 0. A partner that has been silent for 65,536 ticks is
DOWN, and a reported change of another device is taken over. A host's read answers, its write is performed and acknowledged at
its WCT; before READY a host reads the identity window alone. That the two kinds of dropped flit are counted as drops is the model's choice
(log 89), and so is that a port takes none before the replay of the one it dropped, and counts it (log 123), and that the value of a home
on another device comes with the host's event (log 133). -/
def Obligations.FabricAndHosts : Prop :=
  (∀ (s : State) (p : Nat) (f : Flit),
    let q := s.port p
    let seq := f.hdr % 2 ^ 16
    let q1 : Port := { q with seq := seq, gap := none, replays := (q.replays + q.gap.isSome.toNat) % 2 ^ 32 }
    let seen : State := match s.neighbour p with
      | some d => { s with fab := { s.fab with lastFlit := SMap.put s.fab.lastFlit d s.tick } }
      | none => s
    let took := seen.setPort p { q1 with credits := q.credits + f.hdr / 2 ^ 16 % 2 ^ 9 }
    let drops := (q.drops + 1) % 2 ^ 32
    (8 ≤ p ∨ q.lanes = 0 ∨ s.portUnused p = true → exec (.flitReceive p f) s = .next s) ∧
    (p < 8 → q.lanes ≠ 0 → s.portUnused p = false →
      (f.crcOk = false → exec (.flitReceive p f) s =
        .next (seen.setPort p { q with drops := drops, gap := some ((q.gap).getD ((q.seq + 1) % 2 ^ 16)) })) ∧
      (∀ n, f.crcOk = true → q.gap = some n → n ≠ seq → exec (.flitReceive p f) s = .next seen) ∧
      (f.crcOk = true → (q.gap = none ∨ q.gap = some seq) →
        (6 ≤ f.hdr / 2 ^ 28 % 16 → exec (.flitReceive p f) s = .next (seen.setPort p { q1 with drops := drops })) ∧
        (f.hdr / 2 ^ 28 % 16 < 6 →
          (f.arrive = none → exec (.flitReceive p f) s = .next took) ∧
          ∀ r, f.arrive = some r →
            (p < 6 → s.tr.rgo = true → exec (.flitReceive p f) s = .next took) ∧
            (p < 6 → s.tr.rgo = false → s.sys.phase = 6 → s.drained (canon r.addr) = true →
              exec (.flitReceive p f) s = .next (took.arrive r)) ∧
            (6 ≤ p → s.hostWaits r = false → exec (.flitReceive p f) s = exec (.hostAccess r) took))))) ∧
  (∀ (s : State) (r : HostReq), s.isLocal (canon r.addr) = true → s.drained (canon r.addr) = true →
    (r.op = none → r.size ≠ 128 → s.arrive r = s.answer 0 r.host (s.homeRead (canon r.addr) r.size)) ∧
    (r.op = some none → s.capturing = false → s.arrive r = s.homeWriteN (canon r.addr) (natBytes r.size r.data))) ∧
  (∀ (s : State) (p n : Nat), exec (.linkTraining p n) s =
    .next (s.setPort p { s.port p with lanes := if 12 ≤ n then 12 else if 8 ≤ n then 8 else if 4 ≤ n then 4 else 0 }).linksDown) ∧
  (∀ (s : State) (d : Nat), d < 512 → d ≠ s.dev →
    (s.fab.live.testBit d = true → (∃ p, p < 6 ∧ s.neighbour p = some d) →
      (SMap.getD s.fab.lastFlit d 0 + 65536 ≤ s.tick → ∃ t, exec (.livenessTimeout d) s = .next t ∧ t.devUp d = false ∧ t.mem = s.mem) ∧
      (s.tick < SMap.getD s.fab.lastFlit d 0 + 65536 → exec (.livenessTimeout d) s = .next s)) ∧
    ∀ up, ∃ t, exec (.livenessUpdate d up) s = .next t ∧ t.devUp d = up ∧ t.mem = s.mem) ∧
  (∀ (s : State) (r : HostReq), paSpace (canon r.addr) = 0 → paSpace r.addr ≠ 4 → reqOk r = true →
    (s.sys.phase ≠ 6 → exec (.hostAccess r) s = .next (s.answer 2 r.host 0)) ∧
    (s.sys.phase = 6 → s.addrOk (canon r.addr) = true → s.drained (canon r.addr) = true →
      (r.ord < 2 ∨ (s.fab.hosts.any fun h => h.host == r.host) = false) →
      (r.op = none → exec (.hostAccess r) s =
        .next ((s.countHit (canon r.addr)).answer 0 r.host
          (if s.isLocal (canon r.addr) = true then s.homeRead (canon r.addr) r.size else r.data / 2 ^ 128 % 2 ^ (8 * r.size)))) ∧
      (r.op = some none → s.capturing = false → ∃ t, exec (.hostAccess r) s = .next t ∧
        t.mem = (s.homeWrite (canon r.addr) r.size (r.data % 2 ^ (8 * r.size)) true).mem ∧
        t.fab.hosts = s.fab.hosts ++ [⟨s.nextId, r.host, s.wctOf (canon r.addr) true, 0⟩]))) ∧
  (∀ (s : State) (i : Nat) (h : HostPend), s.fab.hosts.find? (fun h => h.id == i) = some h →
    (s.tick < h.wct → exec (.hostWriteAck i) s = .next s) ∧
    (h.wct ≤ s.tick → exec (.hostWriteAck i) s =
      .next (State.answer { s with fab := { s.fab with hosts := s.fab.hosts.filter fun x => x.id != i } } 1 h.host h.val)))

/-! ### The system around the part (R185, R358–R371) -/

/-- R358, R366–R370: power, bring-up and lifecycle. Each phase of bring-up follows the one before, a failure leads to
FAILED with its cause, and at READY or FAILED nothing more happens. LINKS gives the device its id, and takes no torus of a size other
than 1 to 8; before READY the launch line is zeroed and the root supervisor started. A reset keeps fuses and the words of memory; a power-on also starts the tick
at 0 with nothing stored. Fuses go from MANUFACTURE to PROVISIONED to SECURED to RETIRED. THROTTLE withholds ticks only over a limit, and above
115 degrees the part shuts down. A report is written where it was asked for, with its done flag after it, but none while an
unlock is under way. A token that does not verify is refused, and the challenge is a new one; after one that verifies the part waits
until no region is live, wipes keys, pool and registers, and is in DEBUG. The model's choices are that a reset keeps memory (log 96) with its uncorrectable words (log 137) and the
tick (log 88), that DRAM lists nothing at power-on (log 2), that a RETIRED part ends at FUSES (log 83), where the root supervisor's RCB
stands (log 41), and that the unlock waits for live regions (log 126). -/
def Obligations.PowerAndLifecycle : Prop :=
  (∀ (s : State) (fail : Option Nat) (devid dims lanes : Nat) (root : RootAt),
    let i : Instr := .bringUpPhase fail devid dims lanes root
    (6 ≤ s.sys.phase → exec i s = .next s) ∧
    (s.sys.phase = 4 → fail = none → dimsOk dims = false → exec i s = .next s) ∧
    (s.sys.phase < 6 →
      (∀ c, fail = some c → ∃ t, exec i s = .next t ∧ t.sys = { s.sys with phase := 7, failcode := c % 2 ^ 16 } ∧ t.mem = s.mem) ∧
      (fail = none → s.sys.phase = 5 → exec i s = .next (State.startRoot (State.homePuts (State.setLive (State.measure
        { s with sys := { s.sys with phase := 6 } } (Config.firmwareDigest 1)) s.dev true) (lineOf root.line) (natBytes 128 0)) root.rcb)) ∧
      (fail = none → ¬(s.sys.phase = 1 ∧ s.sys.life = 4) → (s.sys.phase = 4 → dimsOk dims = true) → ∃ t, exec i s = .next t ∧ t.sys.phase = s.sys.phase + 1 ∧
        t.sys.life = s.sys.life ∧ (s.sys.phase = 4 → t.dev = devid % 512 ∧ t.fab.dims = dims % 2 ^ 12) ∧
        (s.sys.phase ≠ 4 → t.dev = s.dev) ∧ (s.sys.phase = 5 → t.devUp s.dev = true) ∧
        (s.sys.phase < 4 → t = { s with sys := { s.sys with phase := s.sys.phase + 1 } })) ∧
      (fail = none → s.sys.phase = 1 → s.sys.life = 4 → ∃ t, exec i s = .next t ∧ t.sys.phase = 7))) ∧
  (∀ s : State, ∃ t, exec .deviceReset s = .next t ∧ t.mem = s.mem ∧ t.tick = s.tick ∧ t.ms.keyed = s.ms.keyed ∧ t.ms.bad = s.ms.bad ∧
    t.sys = { Sys.reset with life := if s.sys.life = 3 then 2 else s.sys.life } ∧ t.cores = State.reset.cores ∧
    t.groups = [] ∧ t.blocks = [] ∧ t.regions = [] ∧ t.ports = [] ∧
    exec .powerOn s = .next { t with tick := 0, mem := [], ms := { t.ms with bad := [] } }) ∧
  (∀ s : State, exec .fuseProgram s = .next { s with sys := { s.sys with life :=
    if s.sys.life = 0 then 1 else if s.sys.life = 1 then 2 else if s.sys.life = 2 then 4 else s.sys.life } }) ∧
  (∀ (s : State) (temp watts n : Nat), temp < 2 ^ 16 → watts < 2 ^ 32 →
    let y : Sys := { s.sys with temp := temp, watts := watts, throttle :=
      if s.sys.pcap * 1000 < watts ∨ 105 * 16 < temp then max 1 (min 12 n) else 0 }
    (temp ≤ 115 * 16 → exec (.throttle temp watts n) s = .next { s with sys := y }) ∧
    (115 * 16 < temp → exec (.throttle temp watts n) s = exec (.overtempShutdown temp) { s with sys := y }) ∧
    (temp ≤ 115 * 16 → exec (.overtempShutdown temp) s = .next s) ∧
    (115 * 16 < temp → ∃ t, exec (.overtempShutdown temp) s = .next t ∧ t.sys.phase = 7 ∧ t.sys.failcode = 0x0115 ∧
      (∀ p ∈ t.fab.ports, p.lanes = 0) ∧ t.mem = s.mem)) ∧
  (∀ (s : State) (a : Nat),
    exec (.attestationRequest a) s =
      .next (if s.cfgOpen = true ∧ a % 64 = 0 then { s with sys := { s.sys with reqs := s.sys.reqs ++ [a] } } else s) ∧
    (s.sys.reqs = [] ∨ s.sys.unlocking.isSome = true → exec .attestationReport s = .next s) ∧
    (∀ rest, s.sys.reqs = a :: rest → s.sys.unlocking = none →
      let head := s.reportHead (s.homeBytes a 64)
      let t := (State.open_ s).2.homePuts a (head.map (BitVec.ofNat 8) ++
        natBytes 4627 (Crypto.sign (Crypto.sha3 head) (Config.freeNat s.free)) ++ natBytes 5 0)
      exec .attestationReport s = .next (State.homePuts { t with sys := { t.sys with reqs := rest, reports := s.sys.reports + 1 } }
        (a + 0x12A8) (natBytes 8 1)))) ∧
  (∀ (s : State) (a : Nat), s.cfgOpen = false → exec (.debugUnlock a) s = .next s) ∧
  (∀ (s : State) (a : Nat), s.cfgOpen = true → s.sys.unlocking = none → a % 64 = 0 → s.tokenOk (s.homeBytes a 0x2000) = false →
    ∃ t, exec (.debugUnlock a) s = .next t ∧ t.sys.unlock = 2 ∧ t.sys.life = s.sys.life ∧ t.mem = s.mem ∧
      t.sys.challenge = Config.freeNat s.free % 2 ^ 512) ∧
  (∀ (s : State) (a : Nat), s.cfgOpen = true →
    (s.sys.unlocking.isSome = true ∨ (a % 64 = 0 ∧ s.tokenOk (s.homeBytes a 0x2000) = true)) →
    ((∃ R ∈ SMap.vals s.regions, R.live = true) → s.sys.unlocking.isSome = true → exec (.debugUnlock a) s = .next s) ∧
    ((∀ R ∈ SMap.vals s.regions, R.live = false) →
      ∃ t, exec (.debugUnlock a) s = .next t ∧ t.sys.unlock = 1 ∧ t.sys.life = 3 ∧ t.sys.unlocking = none ∧ t.ms.keys = [] ∧
        (∀ e ∈ t.groups, ∀ L ∈ e.2.lanes, L = Lane.reset) ∧ ∀ e ∈ t.cores, e.2.sp = [] ∧ e.2.mx = [] ∧ e.2.ca = []))

/-- R185, R361, R364, R365: observation. At STOPTICK in DEBUG the part writes a STOP record and its clocks stop, and DEBUG_RESTART lets them run. A
blame sample names the waiting gang whose slice comes next, its flag and the instruction that the flag waits for. The injector performs
a record of KIND 7 and no other, once its line does not move, and clears RGO after the last. The scrubber counts a word that can be
corrected, and otherwise marks it and logs a KIND 3 record with its pool address. That ARM is clear after the stop is the model's choice
(log 45), and so are the RCB, block, group and FAULTPC of the KIND 3 record (log 121). -/
def Obligations.Observation : Prop :=
  (∀ s : State,
    (s.sys.arm = true → s.sys.life = 3 → s.tick = s.sys.stopTick → s.sys.stopped = false → ∃ t, exec .debugStop s = .next t ∧
      t.sys = { s.sys with stopped := true, arm := false } ∧ t.mem = (s.traceRec 2 0 0 0 0 0).mem) ∧
    (s.sys.arm = false ∨ s.sys.life ≠ 3 ∨ s.tick ≠ s.sys.stopTick → exec .debugStop s = .next s) ∧
    exec .debugRestart s = .next (if s.sys.stopped then State.beginTick { s with sys := { s.sys with stopped := false } } else s)) ∧
  (∀ (s : State) (c g sl f : Nat) (K : Gang) (G : Group), s.ten = true → bit s.tr.tctl 2 = true →
    s.tick % 2 ^ fld s.tr.tctl 15 8 = 0 → (s.core c).blamed ≠ s.tick + 1 → nextWaiter (s.core c).blame (s.flagWaiters c) = some (g, K, sl) → s.group? g = some G →
    G.waitsOn K = some f → exec (.blameSample c) s =
      .next ((s.traceRec 1 f c K.pc (s.producer g G f) 0).onCore c fun k =>
        { k with blame := (sl + 1) % 16, blamed := s.tick + 1 })) ∧
  (∀ (s : State) (c : Nat), (s.core c).blamed = s.tick + 1 → exec (.blameSample c) s = .next s) ∧
  (∀ (ws : List (Nat × Gang × Nat)) (n : Nat), ws ≠ [] → ∃ w ∈ ws, nextWaiter n ws = some w ∧
    ∀ v ∈ ws, (w.2.2 + 16 - n) % 16 ≤ (v.2.2 + 16 - n) % 16) ∧
  (∀ s : State, s.tr.rgo = true →
    (s.tr.rcount ≤ s.tr.rdone → exec .injectRecord s = .next { s with tr := { s.tr with rgo := false } }) ∧
    (s.tr.rdone < s.tr.rcount →
      let b := s.homeBytes (s.tr.rbase / 64 * 64 + 64 * s.tr.rdone) 64
      let go (s : State) : State := { s with tr := { s.tr with
        rdone := s.tr.rdone + 1, rgo := decide (s.tr.rdone + 1 < s.tr.rcount) } }
      (leAt b 8 1 ≠ 7 → exec .injectRecord s = .next (go s)) ∧
      (leAt b 8 1 = 7 → s.drained (canon (leAt b 0x10 8)) = false → exec .injectRecord s = .next s) ∧
      (leAt b 8 1 = 7 → s.drained (canon (leAt b 0x10 8)) = true → s.capturing = false → s.isLocal (canon (leAt b 0x10 8)) = true →
        ∃ t, exec .injectRecord s = .next t ∧
        t.mem = (s.homeWriteN (canon (leAt b 0x10 8)) (natBytes (leAt b 9 1) (leAt b 0x20 32 % 2 ^ (8 * leAt b 9 1)))).mem ∧
        t.tr = (go s).tr))) ∧
  (∀ (s : State) (c pa : Nat) (w : PoolWord), exec (.scrub c w pa 0) s =
    .next (s.onCore c fun k => { k with corrected := k.corrected + 1 })) ∧
  (∀ (s : State) (c pa off : Nat) (bad : W64) (r : Region), bad ≠ 0 → s.rootRegion = some r → s.regionAt r.addr = some r → r.rcb.flog ≠ 0 →
    ∃ t, exec (.scrub c (.sp off) pa bad) s = .next t ∧ SMap.get? (t.core c).poison (2 ^ 32 + off / 8) = some bad ∧
      t.mem = (s.logWrite r.rcb.flog
        (faultRec s.tick r.addr 0 ((s.core c).qAt 0 * 4096 + off / 8) 0 0x0E (s.dev * 1024 + c) 0 0 3 0 0 0 0 0)).mem)

/-! ### The machine as a whole -/

/-- R45: a source read, through a permutation or across lanes, that names a lane outside the gang's active mask returns zero and does not
count as a read of a freed register; so neither what a lane instruction reads nor its result in a lane depends on any
lane outside the mask. -/
def Obligations.ReadsStayInTheGang : Prop :=
  (∀ (G : Group) (K : Gang) (l used : Nat) (a : Src), K.mask.testBit (permLane G.geo.w a.perm l) = false →
    srcRd G K l a used = ⟨0, false, none, false⟩) ∧
  (∀ (h : Hd) (t : ET) (d : Reg) (a : RL) (b : Src) (G : Group) (K : Gang) (act l : Nat),
    K.mask.testBit (srcV G K l b % 2 ^ 16 / (64 / etW t)) = false →
    (laneXget h t d a b).reads G K l = [srcRd G K l b (2 ^ 16 - 1), ⟨0, false, none, false⟩] ∧
    (laneXgetu h t d a b).reads G K l = [srcRd G K l b (2 ^ 16 - 1), ⟨0, false, none, false⟩] ∧
    (laneXget h t d a b).eff G K act l = .reg (rowOf K.depth d) 0 ∧
    (laneXgetu h t d a b).eff G K act l = .reg (rowOf K.depth d) 0) ∧
  (∀ (k : Core) (G : Group) (K : Gang) (i : Instr) (op : LaneOp) (ls : List Lane) (act l : Nat), laneOpOf k G i = some op →
    (∀ j, K.mask.testBit j = true → ({ G with lanes := ls } : Group).lane j = G.lane j) → act &&& K.mask = act →
    K.mask.testBit l = true →
    op.reads { G with lanes := ls } K l = op.reads G K l ∧ op.eff { G with lanes := ls } K act l = op.eff G K act l)

/-- R141: PLOG sets pd in each ACTIVE lane to the truth table's bit 2 × P(l, a) + P(l, b). A PLOG word is refused unless FUNC<8:7>, MODE, the
bits <4> of D, A and B, LA and LB are zero; tt is FUNC<6:3>, and 0 with X = 0. The named forms are the tables that their names
say. -/
def Obligations.PredicateLogic : Prop :=
  (∀ (s : State) (x : Cur) (h : Hd) (tt : BitVec 4) (pd pa pb : Prd), cur s = some x → LaneRuns x h formNone →
    exec (.plog h tt pd pa pb) s = .next (laneSetsP s x h formNone pd fun l =>
      tt.toNat.testBit (2 * ((x.G.lane l).pred pa).toNat + ((x.G.lane l).pred pb).toNat))) ∧
  (∀ (w e : Nat) (i : Instr), w < 2 ^ 32 → e < 2 ^ 32 → w / 2 ^ 24 = 0x4F → decodeWords w e = .ok i →
    w / 2 ^ 17 % 2 = 0 ∧ w / 2 ^ 12 % 2 = 0 ∧ w / 2 ^ 6 % 2 = 0 ∧ w / 2 ^ 7 % 2 = 0 ∧ w / 2 % 2 = 0 ∧
      (w % 2 = 1 → e / 2 ^ 7 = 0 ∧ e % 2 ^ 3 = 0) ∧
      ∃ h, i = .plog h (.ofNat 4 (if w % 2 = 1 then e / 2 ^ 3 else 0)) (.ofNat 4 (w / 2 ^ 13)) (.ofNat 4 (w / 2 ^ 8)) (.ofNat 4 (w / 2 ^ 2))) ∧
  (∀ a b : Bool, ttBit 0x8 a b = (a && b) ∧ ttBit 0xE a b = (a || b) ∧ ttBit 0x6 a b = (a != b) ∧ ttBit 0x4 a b = (a && !b) ∧
    ttBit 0x7 a b = !(a && b) ∧ ttBit 0x1 a b = !(a || b) ∧ ttBit 0x9 a b = (a == b) ∧ ttBit 0xD a b = (a || !b) ∧
    ttBit 0xC a b = a ∧ ttBit 0x3 a b = !a ∧ ttBit 0x0 a b = false ∧ ttBit 0xF a b = true)

/-- R157: RDFL writes V(FIRSTLANE(), a) into vd of every active lane, as UMOV of that register does. An RDFL word with an extension word or
a B field that is not zero is refused, and a refused word raises ILLEGAL. -/
def Obligations.FirstLaneRead : Prop :=
  (∀ (s : State) (x : Cur) (h : Hd) (d a : Reg), cur s = some x → UniRuns x h [a] →
    exec (.rdfl h d a) s = .next (uniSets s x h [a] d (uVal x a)) ∧ exec (.rdfl h d a) s = exec (.umov h d (.reg a)) s) ∧
  (∀ (w e : Nat) (i : Instr), w < 2 ^ 32 → e < 2 ^ 32 → w / 2 ^ 24 = 0x9A → decodeWords w e = .ok i →
    w % 2 = 0 ∧ w / 2 ^ 2 % 32 = 0 ∧ ∃ h, i = .rdfl h (.ofNat 5 (w / 2 ^ 13)) (.ofNat 5 (w / 2 ^ 8))) ∧
  (∀ (s : State) (x : Cur) (w e : Nat) (r : DecErr), decodeWords w e = .error r →
    s.issueWords x w e = .to (s.trap x 0x01 (w / 2 ^ 24 % 256)))

/-- A step runs the decoded instruction: where nothing is scheduled, the gang at the head of the ports may issue, and the words at its
program counter decode to an instruction that nothing holds or stops, the step is exec of that instruction, with the lane
cycles that R362 counts. A word at the start of a clause is its header. A scheduled event is performed as it is. An armed stop whose
tick has come is performed before all else (R365). -/
def Obligations.StepRunsTheDecodedInstruction : Prop :=
  (∀ (s s1 : State) (x : Cur) (w : Nat), s.agenda = [] → s.sys.stopped = false → s.stopDue = false → cur s = some x → s.groupRuns x.G = true →
    Gang.canIssue x.G x.K = true → (s.core x.G.geo.core).regsMove = false → s.issues = true → x.K.st ≠ .waitFlag →
    s.fetchWord x x.K.pc = (.word w, s1) →
    (x.K.clause = none → ∃ t, exec (.clauseStart (.ofNat 32 w)) s1 = .next t ∧
      step s = .next (State.afterIssue s1 (.clauseStart (.ofNat 32 w)) t)) ∧
    (∀ (c : Clause) (e : Nat) (s2 : State) (i : Instr), x.K.clause = some c → placeTrap c w = false →
      (w % 2 = 0 ∧ e = 0 ∧ s2 = s1) ∨ (w % 2 = 1 ∧ s1.fetchWord x (x.K.pc + 4) = (.word e, s2)) →
      decodeWords w e = .ok i → stopPoint x i (s2.parts x i) (s2.rowsOf x i) = false → s2.holds x i (s2.rowsOf x i) = false →
      ∃ t, exec i s2 = .next t ∧ step s = .next (State.afterIssue s2 i t))) ∧
  (∀ (s : State) (i : Instr) (es : List (Option Instr)), s.agenda = some i :: es → s.sys.stopped = false → s.stopDue = false →
    step s = exec i { s with agenda := es }) ∧
  (∀ s : State, s.stopDue = true → step s = exec .debugStop s)

/-- Words of the spec's listings and descriptions decode to the instructions that they stand for. -/
def Obligations.DecodedWords : Prop :=
  decodeTableWord 64 0xA13FC0002A892801 = some (.fadd ⟨true, 1, false, true⟩ .s .rtz 9 ⟨8, false, 0⟩ (.imm .fp32 0x3FC000)) ∧
  decodeTableWord 32 0x8A000000 = some (.exit ⟨false, 0, false, false⟩) ∧
  decodeTableWord 32 0x88000000 = some (.ret ⟨false, 0, false, false⟩) ∧
  decodeTableWord 32 0xAD000000 = some (.mxfree ⟨false, 0, false, false⟩ 0) ∧
  decodeTableWord 32 0xB4004000 = some (.mxzero ⟨false, 0, false, false⟩ 2) ∧
  decodeTableWord 64 0x00000009C7000301 = some (.wrsrTmshape ⟨false, 0, false, true⟩ 3)

/-- The decoder reads back what the encoder writes: for every well-formed instruction, with every operand at every value that its
encoding admits, whatever bytes follow. -/
def Obligations.DecodeOfEncode : Prop :=
  ∀ (i : Instr) (rest : List Byte), i.wf = true → decodeBytes (encodeBytes i ++ rest) = .ok (i, rest)

/-- The encoder writes what the decoder read: no two words, and no word with a stray bit, stand for one instruction. -/
def Obligations.EncodeOfDecode : Prop :=
  ∀ (bs rest : List Byte) (i : Instr), decodeBytes bs = .ok (i, rest) → i.wf = true ∧ bs = encodeBytes i ++ rest

/-- R365, R358: every instruction and event answers a next state, so a step stops only where the clocks are gated. A stopped part performs a
restart, a reset or a power cycle, drops every other event unchanged, and otherwise waits. Where nothing is due the tick
goes on by one. -/
def Obligations.OnlyAStoppedPartStops : Prop :=
  (∀ i s, ∃ t, exec i s = .next t) ∧
  (∀ s : State, s.sys.stopped = false → ∃ t, step s = .next t) ∧
  (∀ s : State, s.sys.stopped = true →
    (s.agenda = [] ∨ (∃ es, s.agenda = none :: es) → step s = .fault .clocksGated) ∧
    (∀ i es, s.agenda = some i :: es →
      (wakesStopped i = true → step s = exec i { s with agenda := es }) ∧
      (wakesStopped i = false → step s = .next { s with agenda := es }))) ∧
  (∀ s : State, s.sys.stopped = false → s.stopDue = false → s.agenda = [] → s.ports = [] →
    s.auto (fun i => nextOr s (exec i s)) = none →
    step s = .next s.nextTick ∧ s.nextTick.tick = s.tick + 1 ∧ s.nextTick.mem = s.mem)

/-- Every step keeps memory in its canonical form, whatever the state. -/
def Obligations.StepKeepsMemoryCanonical : Prop :=
  ∀ s t : State, s.MemOk → step s = .next t → t.MemOk

/-- R67, R203, R332, R358, R359, R366, R367: the part after reset: the tick at 0, memory canonical with nothing listed, PHASE POWER, no region,
block, group or core in use, the default buckets, the default leases, BINT 16, and the package limit at 1,600 W. That memory lists nothing,
so that every byte of it reads 0, is the model's choice (log 2). -/
def Obligations.ResetState : Prop :=
  State.reset.MemOk ∧ State.reset.tick = 0 ∧ State.reset.mem = [] ∧ State.reset.sys.phase = 0 ∧ State.reset.regions = [] ∧
    State.reset.blocks = [] ∧ State.reset.groups = [] ∧ State.reset.ports = [] ∧ State.reset.leases = [256, 2048, 16384, 131072] ∧
    (∀ b, b < 256 → State.reset.bucket b = b) ∧ fld State.reset.tr.tctl 15 8 = 16 ∧ State.reset.ten = false ∧
    State.reset.sys.pcap = 1600 ∧ State.reset.sys.stopped = false
end

