-- ==== Sys2Proof/Laws/Dispatch.lean ====
section
/-! SUPPORT. What `exec` answers for each instruction and event: its meaning, one equation each. -/

namespace Sys2Proof.Machine

theorem exec_iadd (h : Hd) (t : ET) (sat : Sat) (d : Reg) (a : Src) (b : BOp) (s : State) :
    exec (.iadd h t sat d a b) s = execIadd h t sat d a b s := rfl
theorem exec_isub (h : Hd) (t : ET) (sat : Sat) (d : Reg) (a : Src) (b : BOp) (s : State) :
    exec (.isub h t sat d a b) s = execIsub h t sat d a b s := rfl
theorem exec_imul (h : Hd) (t : ET) (d : Reg) (a : Src) (b : BOp) (s : State) :
    exec (.imul h t d a b) s = execImul h t d a b s := rfl
theorem exec_imulhu (h : Hd) (d : Reg) (a : Src) (b : BOp) (s : State) :
    exec (.imulhu h d a b) s = execImulhu h d a b s := rfl
theorem exec_imulhs (h : Hd) (d : Reg) (a : Src) (b : BOp) (s : State) :
    exec (.imulhs h d a b) s = execImulhs h d a b s := rfl
theorem exec_imad (h : Hd) (t : ET) (d : Reg) (a : Src) (b : Src) (c : RL) (s : State) :
    exec (.imad h t d a b c) s = execImad h t d a b c s := rfl
theorem exec_imin (h : Hd) (t : ET) (d : Reg) (a : Src) (b : BOp) (s : State) :
    exec (.imin h t d a b) s = execImin h t d a b s := rfl
theorem exec_imax (h : Hd) (t : ET) (d : Reg) (a : Src) (b : BOp) (s : State) :
    exec (.imax h t d a b) s = execImax h t d a b s := rfl
theorem exec_andV (h : Hd) (d : Reg) (a : Src) (b : BOp) (s : State) :
    exec (.andV h d a b) s = execAndV h d a b s := rfl
theorem exec_orV (h : Hd) (d : Reg) (a : Src) (b : BOp) (s : State) :
    exec (.orV h d a b) s = execOrV h d a b s := rfl
theorem exec_xorV (h : Hd) (d : Reg) (a : Src) (b : BOp) (s : State) :
    exec (.xorV h d a b) s = execXorV h d a b s := rfl
theorem exec_shl (h : Hd) (t : ET) (d : Reg) (a : Src) (b : BOp) (s : State) :
    exec (.shl h t d a b) s = execShl h t d a b s := rfl
theorem exec_shr (h : Hd) (t : ET) (d : Reg) (a : Src) (b : BOp) (s : State) :
    exec (.shr h t d a b) s = execShr h t d a b s := rfl
theorem exec_sar (h : Hd) (t : ET) (d : Reg) (a : Src) (b : BOp) (s : State) :
    exec (.sar h t d a b) s = execSar h t d a b s := rfl
theorem exec_clz (h : Hd) (d : Reg) (a : Src) (s : State) :
    exec (.clz h d a) s = execClz h d a s := rfl
theorem exec_popc (h : Hd) (d : Reg) (a : Src) (s : State) :
    exec (.popc h d a) s = execPopc h d a s := rfl
theorem exec_sel (h : Hd) (p : Prd) (d : Reg) (a : Src) (b : Src) (s : State) :
    exec (.sel h p d a b) s = execSel h p d a b s := rfl
theorem exec_icmp (h : Hd) (t : ET) (c : ICond) (pd : Prd) (a : Src) (b : BOp) (s : State) :
    exec (.icmp h t c pd a b) s = execIcmp h t c pd a b s := rfl
theorem exec_addl (h : Hd) (pq : Prd) (d : Reg) (a : Src) (b : Src) (s : State) :
    exec (.addl h pq d a b) s = execAddl h pq d a b s := rfl
theorem exec_subl (h : Hd) (pq : Prd) (d : Reg) (a : Src) (b : Src) (s : State) :
    exec (.subl h pq d a b) s = execSubl h pq d a b s := rfl
theorem exec_macl (h : Hd) (pq : Prd) (d : Reg) (a : Src) (b : Src) (c : RL) (s : State) :
    exec (.macl h pq d a b c) s = execMacl h pq d a b c s := rfl
theorem exec_shll (h : Hd) (pq : Prd) (d : Reg) (a : Src) (b : Src) (s : State) :
    exec (.shll h pq d a b) s = execShll h pq d a b s := rfl
theorem exec_shrl (h : Hd) (pq : Prd) (d : Reg) (a : Src) (b : Src) (s : State) :
    exec (.shrl h pq d a b) s = execShrl h pq d a b s := rfl
theorem exec_cmpl (h : Hd) (c : ICond) (pd : Prd) (a : Src) (b : Src) (s : State) :
    exec (.cmpl h c pd a b) s = execCmpl h c pd a b s := rfl
theorem exec_negl (h : Hd) (pq : Prd) (d : Reg) (a : Src) (s : State) :
    exec (.negl h pq d a) s = execNegl h pq d a s := rfl
theorem exec_fadd (h : Hd) (t : FT) (m : Rnd) (d : Reg) (a : Src) (b : BOp) (s : State) :
    exec (.fadd h t m d a b) s = execFadd h t m d a b s := rfl
theorem exec_fsub (h : Hd) (t : FT) (m : Rnd) (d : Reg) (a : Src) (b : BOp) (s : State) :
    exec (.fsub h t m d a b) s = execFsub h t m d a b s := rfl
theorem exec_fmul (h : Hd) (t : FT) (m : Rnd) (d : Reg) (a : Src) (b : BOp) (s : State) :
    exec (.fmul h t m d a b) s = execFmul h t m d a b s := rfl
theorem exec_ffma (h : Hd) (t : FT) (m : Rnd) (d : Reg) (a : Src) (b : Src) (c : RL) (s : State) :
    exec (.ffma h t m d a b c) s = execFfma h t m d a b c s := rfl
theorem exec_fmin (h : Hd) (t : FT) (d : Reg) (a : Src) (b : BOp) (s : State) :
    exec (.fmin h t d a b) s = execFmin h t d a b s := rfl
theorem exec_fmax (h : Hd) (t : FT) (d : Reg) (a : Src) (b : BOp) (s : State) :
    exec (.fmax h t d a b) s = execFmax h t d a b s := rfl
theorem exec_fcmp (h : Hd) (t : FT) (c : FCond) (pd : Prd) (a : Src) (b : BOp) (s : State) :
    exec (.fcmp h t c pd a b) s = execFcmp h t c pd a b s := rfl
theorem exec_frcp (h : Hd) (d : Reg) (a : Src) (s : State) :
    exec (.frcp h d a) s = execFrcp h d a s := rfl
theorem exec_frsq (h : Hd) (d : Reg) (a : Src) (s : State) :
    exec (.frsq h d a) s = execFrsq h d a s := rfl
theorem exec_fsqrt (h : Hd) (d : Reg) (a : Src) (s : State) :
    exec (.fsqrt h d a) s = execFsqrt h d a s := rfl
theorem exec_fexp2 (h : Hd) (d : Reg) (a : Src) (s : State) :
    exec (.fexp2 h d a) s = execFexp2 h d a s := rfl
theorem exec_flog2 (h : Hd) (d : Reg) (a : Src) (s : State) :
    exec (.flog2 h d a) s = execFlog2 h d a s := rfl
theorem exec_ftanh (h : Hd) (d : Reg) (a : Src) (s : State) :
    exec (.ftanh h d a) s = execFtanh h d a s := rfl
theorem exec_cvt (h : Hd) (k : CvtPair) (nan : Bool) (m : Rnd) (d : Reg) (a : Src) (s : State) :
    exec (.cvt h k nan m d a) s = execCvt h k nan m d a s := rfl
theorem exec_cvtef (h : Hd) (dst : FF) (nan : Bool) (m : Rnd) (d : Reg) (a : Src) (c : Reg) (s : State) :
    exec (.cvtef h dst nan m d a c) s = execCvtef h dst nan m d a c s := rfl
theorem exec_tmacc (h : Hd) (both : Bool) (d : Reg) (a : Src) (s : State) :
    exec (.tmacc h both d a) s = execTmacc h both d a s := rfl
theorem exec_tmred (h : Hd) (d : Reg) (a : Src) (s : State) :
    exec (.tmred h d a) s = execTmred h d a s := rfl
theorem exec_tmfin (h : Hd) (d : Reg) (a : Src) (s : State) :
    exec (.tmfin h d a) s = execTmfin h d a s := rfl
theorem exec_xget (h : Hd) (t : ET) (d : Reg) (a : RL) (b : Src) (s : State) :
    exec (.xget h t d a b) s = execXget h t d a b s := rfl
theorem exec_xgetu (h : Hd) (t : ET) (d : Reg) (a : RL) (b : Src) (s : State) :
    exec (.xgetu h t d a b) s = execXgetu h t d a b s := rfl
theorem exec_red (h : Hd) (t : RT) (op : BitVec 3) (m : Rnd) (d : Reg) (a : Src) (s : State) :
    exec (.red h t op m d a) s = execRed h t op m d a s := rfl
theorem exec_scan (h : Hd) (op : BitVec 3) (m : Rnd) (d : Reg) (a : Src) (s : State) :
    exec (.scan h op m d a) s = execScan h op m d a s := rfl
theorem exec_xsend (h : Hd) (k : BitVec 4) (a : RL) (s : State) :
    exec (.xsend h k a) s = execXsend h k a s := rfl
theorem exec_xrecv (h : Hd) (k : BitVec 4) (d : Reg) (s : State) :
    exec (.xrecv h k d) s = execXrecv h k d s := rfl
theorem exec_ballot (h : Hd) (d : Reg) (p : Prd) (s : State) :
    exec (.ballot h d p) s = execBallot h d p s := rfl
theorem exec_plog (h : Hd) (tt : BitVec 4) (pd : Prd) (pa : Prd) (pb : Prd) (s : State) :
    exec (.plog h tt pd pa pb) s = execPlog h tt pd pa pb s := rfl
theorem exec_brp (h : Hd) (p : Prd) (tgt : BitVec 12) (jn : BitVec 12) (s : State) :
    exec (.brp h p tgt jn) s = execBrp h p tgt jn s := rfl
theorem exec_join(s : State) :
    exec .join s = execJoin s := rfl
theorem exec_ld (h : Hd) (sz : MSz) (d : Reg) (a : RL) (em : EM) (s : State) :
    exec (.ld h sz d a em) s = execLd h sz d a em s := rfl
theorem exec_st (h : Hd) (sz : MSz) (a : RL) (b : RL) (em : EM) (s : State) :
    exec (.st h sz a b em) s = execSt h sz a b em s := rfl
theorem exec_atom (h : Hd) (sz : MSz) (d : Reg) (a : RL) (b : RL) (em : EM) (s : State) :
    exec (.atom h sz d a b em) s = execAtom h sz d a b em s := rfl
theorem exec_cxch (h : Hd) (d : Reg) (a : RL) (b : RL) (em : EM) (s : State) :
    exec (.cxch h d a b em) s = execCxch h d a b em s := rfl
theorem exec_cldr (h : Hd) (d : Reg) (a : RL) (em : EM) (s : State) :
    exec (.cldr h d a em) s = execCldr h d a em s := rfl
theorem exec_nop (h : Hd) (s : State) :
    exec (.nop h) s = execNop h s := rfl
theorem exec_br (h : Hd) (off : BitVec 24) (s : State) :
    exec (.br h off) s = execBr h off s := rfl
theorem exec_brc (h : Hd) (c : BitVec 2) (a : Reg) (off : BitVec 24) (s : State) :
    exec (.brc h c a off) s = execBrc h c a off s := rfl
theorem exec_brany (h : Hd) (p : Prd) (off : BitVec 24) (s : State) :
    exec (.brany h p off) s = execBrany h p off s := rfl
theorem exec_brall (h : Hd) (p : Prd) (off : BitVec 24) (s : State) :
    exec (.brall h p off) s = execBrall h p off s := rfl
theorem exec_jmpr (h : Hd) (a : Reg) (s : State) :
    exec (.jmpr h a) s = execJmpr h a s := rfl
theorem exec_call (h : Hd) (k : BitVec 3) (off : BitVec 24) (s : State) :
    exec (.call h k off) s = execCall h k off s := rfl
theorem exec_callr (h : Hd) (k : BitVec 3) (a : Reg) (s : State) :
    exec (.callr h k a) s = execCallr h k a s := rfl
theorem exec_ret (h : Hd) (s : State) :
    exec (.ret h) s = execRet h s := rfl
theorem exec_loop (h : Hd) (d : Reg) (off : BitVec 24) (s : State) :
    exec (.loop h d off) s = execLoop h d off s := rfl
theorem exec_exit (h : Hd) (s : State) :
    exec (.exit h) s = execExit h s := rfl
theorem exec_exitLanesDone (g : Nat) (k : Nat) (s : State) :
    exec (.exitLanesDone g k) s = execExitLanesDone g k s := rfl
theorem exec_trap (h : Hd) (code : BitVec 24) (s : State) :
    exec (.trap h code) s = execTrap h code s := rfl
theorem exec_yield (h : Hd) (s : State) :
    exec (.yield h) s = execYield h s := rfl
theorem exec_yieldHoldEnd (g : Nat) (k : Nat) (s : State) :
    exec (.yieldHoldEnd g k) s = execYieldHoldEnd g k s := rfl
theorem exec_uadd (h : Hd) (d : Reg) (a : Reg) (b : UOp) (s : State) :
    exec (.uadd h d a b) s = execUadd h d a b s := rfl
theorem exec_usub (h : Hd) (d : Reg) (a : Reg) (b : UOp) (s : State) :
    exec (.usub h d a b) s = execUsub h d a b s := rfl
theorem exec_umul (h : Hd) (d : Reg) (a : Reg) (b : UOp) (s : State) :
    exec (.umul h d a b) s = execUmul h d a b s := rfl
theorem exec_uand (h : Hd) (d : Reg) (a : Reg) (b : UOp) (s : State) :
    exec (.uand h d a b) s = execUand h d a b s := rfl
theorem exec_uor (h : Hd) (d : Reg) (a : Reg) (b : UOp) (s : State) :
    exec (.uor h d a b) s = execUor h d a b s := rfl
theorem exec_uxor (h : Hd) (d : Reg) (a : Reg) (b : UOp) (s : State) :
    exec (.uxor h d a b) s = execUxor h d a b s := rfl
theorem exec_ushl (h : Hd) (d : Reg) (a : Reg) (b : UOp) (s : State) :
    exec (.ushl h d a b) s = execUshl h d a b s := rfl
theorem exec_ushr (h : Hd) (d : Reg) (a : Reg) (b : UOp) (s : State) :
    exec (.ushr h d a b) s = execUshr h d a b s := rfl
theorem exec_usar (h : Hd) (d : Reg) (a : Reg) (b : UOp) (s : State) :
    exec (.usar h d a b) s = execUsar h d a b s := rfl
theorem exec_ucmp (h : Hd) (c : ICond) (pd : Prd) (a : Reg) (b : UOp) (s : State) :
    exec (.ucmp h c pd a b) s = execUcmp h c pd a b s := rfl
theorem exec_umov (h : Hd) (d : Reg) (b : UOp) (s : State) :
    exec (.umov h d b) s = execUmov h d b s := rfl
theorem exec_umin (h : Hd) (d : Reg) (a : Reg) (b : UOp) (s : State) :
    exec (.umin h d a b) s = execUmin h d a b s := rfl
theorem exec_umax (h : Hd) (d : Reg) (a : Reg) (b : UOp) (s : State) :
    exec (.umax h d a b) s = execUmax h d a b s := rfl
theorem exec_rdfl (h : Hd) (d : Reg) (a : Reg) (s : State) :
    exec (.rdfl h d a) s = execRdfl h d a s := rfl
theorem exec_mdef (h : Hd) (slot : BitVec 6) (n : BitVec 6) (a : Reg) (s : State) :
    exec (.mdef h slot n a) s = execMdef h slot n a s := rfl
theorem exec_mdefComplete (g : Nat) (op : Nat) (s : State) :
    exec (.mdefComplete g op) s = execMdefComplete g op s := rfl
theorem exec_macroOp (h : Hd) (slot : BitVec 6) (o0 : Reg) (o1 : Reg) (o2 : Reg) (o3 : Reg) (s : State) :
    exec (.macroOp h slot o0 o1 o2 o3) s = execMacroOp h slot o0 o1 o2 o3 s := rfl
theorem exec_bar (h : Hd) (k : BitVec 4) (s : State) :
    exec (.bar h k) s = execBar h k s := rfl
theorem exec_barArrive (g : Nat) (k : Nat) (s : State) :
    exec (.barArrive g k) s = execBarArrive g k s := rfl
theorem exec_monitor (h : Hd) (a : Reg) (s : State) :
    exec (.monitor h a) s = execMonitor h a s := rfl
theorem exec_mwait (h : Hd) (a : Reg) (s : State) :
    exec (.mwait h a) s = execMwait h a s := rfl
theorem exec_mwaitTimeout (g : Nat) (k : Nat) (s : State) :
    exec (.mwaitTimeout g k) s = execMwaitTimeout g k s := rfl
theorem exec_fenceAcq (h : Hd) (scope : BitVec 3) (s : State) :
    exec (.fenceAcq h scope) s = execFenceAcq h scope s := rfl
theorem exec_fenceRel (h : Hd) (scope : BitVec 3) (s : State) :
    exec (.fenceRel h scope) s = execFenceRel h scope s := rfl
theorem exec_fenceAr (h : Hd) (scope : BitVec 3) (s : State) :
    exec (.fenceAr h scope) s = execFenceAr h scope s := rfl
theorem exec_fenceSc (h : Hd) (scope : BitVec 3) (s : State) :
    exec (.fenceSc h scope) s = execFenceSc h scope s := rfl
theorem exec_fenceEng (h : Hd) (scope : BitVec 3) (s : State) :
    exec (.fenceEng h scope) s = execFenceEng h scope s := rfl
theorem exec_pset (h : Hd) (d : Reg) (a : Reg) (s : State) :
    exec (.pset h d a) s = execPset h d a s := rfl
theorem exec_poolMove (c : Nat) (s : State) :
    exec (.poolMove c) s = execPoolMove c s := rfl
theorem exec_pqry (h : Hd) (d : Reg) (a : Reg) (s : State) :
    exec (.pqry h d a) s = execPqry h d a s := rfl
theorem exec_smap (h : Hd) (copyIn : Bool) (n : BitVec 15) (a : Reg) (b : Reg) (s : State) :
    exec (.smap h copyIn n a b) s = execSmap h copyIn n a b s := rfl
theorem exec_sunmap (h : Hd) (a : Reg) (s : State) :
    exec (.sunmap h a) s = execSunmap h a s := rfl
theorem exec_hres (h : Hd) (copyIn : Bool) (pri : BitVec 3) (pin : Bool) (k : BitVec 4) (n : BitVec 15) (a : Reg) (b : Reg) (s : State) :
    exec (.hres h copyIn pri pin k n a b) s = execHres h copyIn pri pin k n a b s := rfl
theorem exec_hevict (h : Hd) (k : BitVec 4) (s : State) :
    exec (.hevict h k) s = execHevict h k s := rfl
theorem exec_hdemote (h : Hd) (k : BitVec 4) (s : State) :
    exec (.hdemote h k) s = execHdemote h k s := rfl
theorem exec_handleMoveComplete (g : Nat) (op : Nat) (s : State) :
    exec (.handleMoveComplete g op) s = execHandleMoveComplete g op s := rfl
theorem exec_copy (h : Hd) (hint : BitVec 2) (d : Reg) (a : Reg) (b : Reg) (s : State) :
    exec (.copy h hint d a b) s = execCopy h hint d a b s := rfl
theorem exec_copyHeld (h : Hd) (hint : BitVec 2) (k : BitVec 4) (d : Reg) (a : Reg) (b : Reg) (s : State) :
    exec (.copyHeld h hint k d a b) s = execCopyHeld h hint k d a b s := rfl
theorem exec_copyLineLanded (e : Nat) (line : Nat) (s : State) :
    exec (.copyLineLanded e line) s = execCopyLineLanded e line s := rfl
theorem exec_copyComplete (e : Nat) (s : State) :
    exec (.copyComplete e) s = execCopyComplete e s := rfl
theorem exec_release (h : Hd) (a : Reg) (s : State) :
    exec (.release h a) s = execRelease h a s := rfl
theorem exec_releaseStart (b : Nat) (k : Nat) (s : State) :
    exec (.releaseStart b k) s = execReleaseStart b k s := rfl
theorem exec_bin (h : Hd) (clear : Bool) (base : BitVec 6) (nb : BitVec 7) (a : Reg) (b : Reg) (s : State) :
    exec (.bin h clear base nb a b) s = execBin h clear base nb a b s := rfl
theorem exec_binComplete (e : Nat) (s : State) :
    exec (.binComplete e) s = execBinComplete e s := rfl
theorem exec_publish (h : Hd) (scope : BitVec 3) (a : Reg) (s : State) :
    exec (.publish h scope a) s = execPublish h scope a s := rfl
theorem exec_publishFlip (e : Nat) (s : State) :
    exec (.publishFlip e) s = execPublishFlip e s := rfl
theorem exec_cwb (h : Hd) (scope : BitVec 3) (a : Reg) (b : Reg) (s : State) :
    exec (.cwb h scope a b) s = execCwb h scope a b s := rfl
theorem exec_cinv (h : Hd) (scope : BitVec 3) (a : Reg) (b : Reg) (s : State) :
    exec (.cinv h scope a b) s = execCinv h scope a b s := rfl
theorem exec_attrInv (h : Hd) (a : Reg) (b : Reg) (s : State) :
    exec (.attrInv h a b) s = execAttrInv h a b s := rfl
theorem exec_attrCc (h : Hd) (v : BitVec 2) (a : Reg) (b : Reg) (s : State) :
    exec (.attrCc h v a b) s = execAttrCc h v a b s := rfl
theorem exec_attrCpol (h : Hd) (v : BitVec 2) (a : Reg) (b : Reg) (s : State) :
    exec (.attrCpol h v a b) s = execAttrCpol h v a b s := rfl
theorem exec_attrLc (h : Hd) (v : BitVec 2) (a : Reg) (b : Reg) (s : State) :
    exec (.attrLc h v a b) s = execAttrLc h v a b s := rfl
theorem exec_cgrp (h : Hd) (k : BitVec 3) (a : Reg) (s : State) :
    exec (.cgrp h k a) s = execCgrp h k a s := rfl
theorem exec_cag (h : Hd) (k : BitVec 3) (a : Reg) (b : Reg) (len : BitVec 24) (s : State) :
    exec (.cag h k a b len) s = execCag h k a b len s := rfl
theorem exec_crs (h : Hd) (k : BitVec 3) (op : BitVec 4) (a : Reg) (b : Reg) (len : BitVec 24) (s : State) :
    exec (.crs h k op a b len) s = execCrs h k op a b len s := rfl
theorem exec_ca2a (h : Hd) (k : BitVec 3) (a : Reg) (b : Reg) (len : BitVec 24) (s : State) :
    exec (.ca2a h k a b len) s = execCa2a h k a b len s := rfl
theorem exec_cbar (h : Hd) (k : BitVec 3) (s : State) :
    exec (.cbar h k) s = execCbar h k s := rfl
theorem exec_cstat (h : Hd) (d : Reg) (k : BitVec 3) (s : State) :
    exec (.cstat h d k) s = execCstat h d k s := rfl
theorem exec_collectiveContribution (r : Nat) (member : Nat) (term : List Nat) (s : State) :
    exec (.collectiveContribution r member term) s = execCollectiveContribution r member term s := rfl
theorem exec_collectiveTimeout (r : Nat) (member : Nat) (s : State) :
    exec (.collectiveTimeout r member) s = execCollectiveTimeout r member s := rfl
theorem exec_collectiveOutcome (e : Nat) (s : State) :
    exec (.collectiveOutcome e) s = execCollectiveOutcome e s := rfl
theorem exec_mxres (h : Hd) (od : BitVec 3) (rv : Bool) (rc : BitVec 2) (pk : Prd) (a : Reg) (b : Reg) (s : State) :
    exec (.mxres h od rv rc pk a b) s = execMxres h od rv rc pk a b s := rfl
theorem exec_mxfree (h : Hd) (od : BitVec 3) (s : State) :
    exec (.mxfree h od) s = execMxfree h od s := rfl
theorem exec_mxzero (h : Hd) (od : BitVec 3) (s : State) :
    exec (.mxzero h od) s = execMxzero h od s := rfl
theorem exec_mxld (h : Hd) (od : BitVec 3) (hint : BitVec 2) (a : Reg) (s : State) :
    exec (.mxld h od hint a) s = execMxld h od hint a s := rfl
theorem exec_mxst (h : Hd) (od : BitVec 3) (fmt : BitVec 2) (nan : Bool) (hint : BitVec 2) (pe : Bool) (pk : Prd) (a : Reg) (s : State) :
    exec (.mxst h od fmt nan hint pe pk a) s = execMxst h od fmt nan hint pe pk a s := rfl
theorem exec_mma (h : Hd) (t : MT) (od : BitVec 3) (oa : BitVec 3) (ob : BitVec 3) (ra : Bool) (rb : Bool) (pe : Bool) (pk : Prd) (ja : BitVec 12) (jb : BitVec 12) (s : State) :
    exec (.mma h t od oa ob ra rb pe pk ja jb) s = execMma h t od oa ob ra rb pe pk ja jb s := rfl
theorem exec_matrixGrant (cl : Nat) (array : Bool) (s : State) :
    exec (.matrixGrant cl array) s = execMatrixGrant cl array s := rfl
theorem exec_matrixLevelRise (e : Nat) (s : State) :
    exec (.matrixLevelRise e) s = execMatrixLevelRise e s := rfl
theorem exec_matrixOpComplete (e : Nat) (s : State) :
    exec (.matrixOpComplete e) s = execMatrixOpComplete e s := rfl
theorem exec_gspaceBind (h : Hd) (a : Reg) (b : Reg) (s : State) :
    exec (.gspaceBind h a b) s = execGspaceBind h a b s := rfl
theorem exec_gspaceUnbind (h : Hd) (a : Reg) (b : Reg) (s : State) :
    exec (.gspaceUnbind h a b) s = execGspaceUnbind h a b s := rfl
theorem exec_gload (h : Hd) (base : BitVec 7) (n : BitVec 7) (a : Reg) (b : Reg) (s : State) :
    exec (.gload h base n a b) s = execGload h base n a b s := rfl
theorem exec_gset (h : Hd) (prog : Bool) (ksel : BitVec 2) (m : BitVec 3) (tmsk : BitVec 8) (tval : BitVec 8) (pent : BitVec 7) (a : Reg) (b : Reg) (s : State) :
    exec (.gset h prog ksel m tmsk tval pent a b) s = execGset h prog ksel m tmsk tval pent a b s := rfl
theorem exec_gprop (h : Hd) (arg : BitVec 24) (a : Reg) (b : Reg) (s : State) :
    exec (.gprop h arg a b) s = execGprop h arg a b s := rfl
theorem exec_gcoll (h : Hd) (clr : Bool) (m : BitVec 3) (cap : BitVec 24) (a : Reg) (b : Reg) (s : State) :
    exec (.gcoll h clr m cap a b) s = execGcoll h clr m cap a b s := rfl
theorem exec_gclr (h : Hd) (fill : Bool) (m : BitVec 3) (tmsk : BitVec 8) (tval : BitVec 8) (a : Reg) (b : Reg) (s : State) :
    exec (.gclr h fill m tmsk tval a b) s = execGclr h fill m tmsk tval a b s := rfl
theorem exec_broadcastStart (e : Nat) (s : State) :
    exec (.broadcastStart e) s = execBroadcastStart e s := rfl
theorem exec_broadcastEnd (e : Nat) (s : State) :
    exec (.broadcastEnd e) s = execBroadcastEnd e s := rfl
theorem exec_hopStart (e : Nat) (s : State) :
    exec (.hopStart e) s = execHopStart e s := rfl
theorem exec_messageReceive (e : Nat) (m : Nat) (s : State) :
    exec (.messageReceive e m) s = execMessageReceive e m s := rfl
theorem exec_hopEnd (e : Nat) (s : State) :
    exec (.hopEnd e) s = execHopEnd e s := rfl
theorem exec_refreshStart (v : Nat) (u : Nat) (s : State) :
    exec (.refreshStart v u) s = execRefreshStart v u s := rfl
theorem exec_refreshEnd (v : Nat) (u : Nat) (s : State) :
    exec (.refreshEnd v u) s = execRefreshEnd v u s := rfl
theorem exec_tmshape (h : Hd) (code : BitVec 8) (s : State) :
    exec (.tmshape h code) s = execTmshape h code s := rfl
theorem exec_tmload (h : Hd) (k : BitVec 2) (a : Reg) (s : State) :
    exec (.tmload h k a) s = execTmload h k a s := rfl
theorem exec_tmloadComplete (g : Nat) (op : Nat) (s : State) :
    exec (.tmloadComplete g op) s = execTmloadComplete g op s := rfl
theorem exec_lig (h : Hd) (n : BitVec 7) (s : State) :
    exec (.lig h n) s = execLig h n s := rfl
theorem exec_unlig (h : Hd) (s : State) :
    exec (.unlig h) s = execUnlig h s := rfl
theorem exec_spawn (h : Hd) (a : Reg) (s : State) :
    exec (.spawn h a) s = execSpawn h a s := rfl
theorem exec_rdsr (h : Hd) (sr : BitVec 8) (d : Reg) (s : State) :
    exec (.rdsr h sr d) s = execRdsr h sr d s := rfl
theorem exec_wrsrGstat (h : Hd) (a : Reg) (s : State) :
    exec (.wrsrGstat h a) s = execWrsrGstat h a s := rfl
theorem exec_wrsrTmshape (h : Hd) (a : Reg) (s : State) :
    exec (.wrsrTmshape h a) s = execWrsrTmshape h a s := rfl
theorem exec_wrsrPoolmap (h : Hd) (a : Reg) (s : State) :
    exec (.wrsrPoolmap h a) s = execWrsrPoolmap h a s := rfl
theorem exec_wrsrLease (h : Hd) (i : BitVec 2) (a : Reg) (s : State) :
    exec (.wrsrLease h i a) s = execWrsrLease h i a s := rfl
theorem exec_wrsr (h : Hd) (sr : BitVec 8) (a : Reg) (s : State) :
    exec (.wrsr h sr a) s = execWrsr h sr a s := rfl
theorem exec_tick (h : Hd) (d : Reg) (s : State) :
    exec (.tick h d) s = execTick h d s := rfl
theorem exec_eret (h : Hd) (s : State) :
    exec (.eret h) s = execEret h s := rfl
theorem exec_wspill (h : Hd) (m : BitVec 8) (s : State) :
    exec (.wspill h m) s = execWspill h m s := rfl
theorem exec_wfill (h : Hd) (m : BitVec 8) (s : State) :
    exec (.wfill h m) s = execWfill h m s := rfl
theorem exec_windowMoveComplete (g : Nat) (op : Nat) (s : State) :
    exec (.windowMoveComplete g op) s = execWindowMoveComplete g op s := rfl
theorem exec_clauseStart (hdr : BitVec 32) (s : State) :
    exec (.clauseStart hdr) s = execClauseStart hdr s := rfl
theorem exec_gangSelect (c : Nat) (s : State) :
    exec (.gangSelect c) s = execGangSelect c s := rfl
theorem exec_longLatencyComplete (g : Nat) (op : Nat) (lanes : LaneMask) (s : State) :
    exec (.longLatencyComplete g op lanes) s = execLongLatencyComplete g op lanes s := rfl
theorem exec_stashLineFilled (c : Nat) (m : Nat) (line : Nat) (s : State) :
    exec (.stashLineFilled c m line) s = execStashLineFilled c m line s := rfl
theorem exec_handlerEntry (g : Nat) (s : State) :
    exec (.handlerEntry g) s = execHandlerEntry g s := rfl
theorem exec_fillAtHome (c : Nat) (line : Nat) (rem : Option Nat) (s : State) :
    exec (.fillAtHome c line rem) s = execFillAtHome c line rem s := rfl
theorem exec_writeAtHome (c : Nat) (line : Nat) (s : State) :
    exec (.writeAtHome c line) s = execWriteAtHome c line s := rfl
theorem exec_atomicAtHome (g : Nat) (op : Nat) (lane : Nat) (rem : Option Nat) (s : State) :
    exec (.atomicAtHome g op lane rem) s = execAtomicAtHome g op lane rem s := rfl
theorem exec_vaultAccess (g : Nat) (op : Nat) (lane : Nat) (rem : Option Nat) (s : State) :
    exec (.vaultAccess g op lane rem) s = execVaultAccess g op lane rem s := rfl
theorem exec_leaseExpire (c : Nat) (line : Nat) (s : State) :
    exec (.leaseExpire c line) s = execLeaseExpire c line s := rfl
theorem exec_pageTableWalk (c : Nat) (root : Nat) (va : Nat) (s : State) :
    exec (.pageTableWalk c root va) s = execPageTableWalk c root va s := rfl
theorem exec_rehomeDrain (i : Nat) (s : State) :
    exec (.rehomeDrain i) s = execRehomeDrain i s := rfl
theorem exec_rebalance (bucket : Nat) (slice : Nat) (s : State) :
    exec (.rebalance bucket slice) s = execRebalance bucket slice s := rfl
theorem exec_scrub (c : Nat) (w : PoolWord) (paddr : Nat) (bad : W64) (s : State) :
    exec (.scrub c w paddr bad) s = execScrub c w paddr bad s := rfl
theorem exec_blockLoad (b : Nat) (c : Nat) (s : State) :
    exec (.blockLoad b c) s = execBlockLoad b c s := rfl
theorem exec_contextsInPlace (b : Nat) (s : State) :
    exec (.contextsInPlace b) s = execContextsInPlace b s := rfl
theorem exec_preempt (b : Nat) (s : State) :
    exec (.preempt b) s = execPreempt b s := rfl
theorem exec_saveComplete (b : Nat) (s : State) :
    exec (.saveComplete b) s = execSaveComplete b s := rfl
theorem exec_regionAccept (sp : Nat) (s : State) :
    exec (.regionAccept sp) s = execRegionAccept sp s := rfl
theorem exec_regionResume (sp : Nat) (s : State) :
    exec (.regionResume sp) s = execRegionResume sp s := rfl
theorem exec_regionEnd (sp : Nat) (s : State) :
    exec (.regionEnd sp) s = execRegionEnd sp s := rfl
theorem exec_completionStore (r : Nat) (s : State) :
    exec (.completionStore r) s = execCompletionStore r s := rfl
theorem exec_flitReceive (port : Nat) (f : Flit) (s : State) :
    exec (.flitReceive port f) s = execFlitReceive port f s := rfl
theorem exec_linkTraining (port : Nat) (lanes : Nat) (s : State) :
    exec (.linkTraining port lanes) s = execLinkTraining port lanes s := rfl
theorem exec_livenessTimeout (d : Nat) (s : State) :
    exec (.livenessTimeout d) s = execLivenessTimeout d s := rfl
theorem exec_livenessUpdate (d : Nat) (up : Bool) (s : State) :
    exec (.livenessUpdate d up) s = execLivenessUpdate d up s := rfl
theorem exec_hostAccess (r : HostReq) (s : State) :
    exec (.hostAccess r) s = execHostAccess r s := rfl
theorem exec_hostWriteAck (i : Nat) (s : State) :
    exec (.hostWriteAck i) s = execHostWriteAck i s := rfl
theorem exec_configRangeEntryWrite (k : Nat) (v : Nat) (s : State) :
    exec (.configRangeEntryWrite k v) s = execConfigRangeEntryWrite k v s := rfl
theorem exec_configBucketEntryWrite (b : Nat) (v : Nat) (s : State) :
    exec (.configBucketEntryWrite b v) s = execConfigBucketEntryWrite b v s := rfl
theorem exec_configWrite (off : Nat) (size : Nat) (v : Nat) (s : State) :
    exec (.configWrite off size v) s = execConfigWrite off size v s := rfl
theorem exec_blameSample (c : Nat) (s : State) :
    exec (.blameSample c) s = execBlameSample c s := rfl
theorem exec_replayGo(s : State) :
    exec .replayGo s = execReplayGo s := rfl
theorem exec_injectRecord(s : State) :
    exec .injectRecord s = execInjectRecord s := rfl
theorem exec_stopArm (v : Nat) (s : State) :
    exec (.stopArm v) s = execStopArm v s := rfl
theorem exec_debugStop(s : State) :
    exec .debugStop s = execDebugStop s := rfl
theorem exec_debugRestart(s : State) :
    exec .debugRestart s = execDebugRestart s := rfl
theorem exec_identityRead (cmd : Nat) (s : State) :
    exec (.identityRead cmd) s = execIdentityRead cmd s := rfl
theorem exec_powerOn(s : State) :
    exec .powerOn s = execPowerOn s := rfl
theorem exec_bringUpPhase (fail : Option Nat) (devid dims lanes : Nat) (root : RootAt) (s : State) :
    exec (.bringUpPhase fail devid dims lanes root) s = execBringUpPhase fail devid dims lanes root s := rfl
theorem exec_deviceReset(s : State) :
    exec .deviceReset s = execDeviceReset s := rfl
theorem exec_fuseProgram(s : State) :
    exec .fuseProgram s = execFuseProgram s := rfl
theorem exec_throttle (temp : Nat) (watts : Nat) (n : Nat) (s : State) :
    exec (.throttle temp watts n) s = execThrottle temp watts n s := rfl
theorem exec_overtempShutdown (temp : Nat) (s : State) :
    exec (.overtempShutdown temp) s = execOvertempShutdown temp s := rfl
theorem exec_attestationRequest (a : Nat) (s : State) :
    exec (.attestationRequest a) s = execAttestationRequest a s := rfl
theorem exec_attestationReport(s : State) :
    exec .attestationReport s = execAttestationReport s := rfl
theorem exec_debugUnlock (a : Nat) (s : State) :
    exec (.debugUnlock a) s = execDebugUnlock a s := rfl
theorem exec_keySlotWrite (k : Nat) (v : Nat) (s : State) :
    exec (.keySlotWrite k v) s = execKeySlotWrite k v s := rfl
theorem exec_encryptionRangeWrite (k : Nat) (v : Nat) (s : State) :
    exec (.encryptionRangeWrite k v) s = execEncryptionRangeWrite k v s := rfl
theorem exec_wctmaxPassed (g : Nat) (k : Nat) (s : State) :
    exec (.wctmaxPassed g k) s = execWctmaxPassed g k s := rfl

end Sys2Proof.Machine
end

