-- ==== Sys2Proof/Laws/Fields.lean ====
section
/-! SUPPORT. The fields of a laid-out word read back: one lemma for each word format of R76–R86. -/

namespace Sys2Proof.Laws

theorem ofNat_eq {w : Nat} {x : Nat} {v : BitVec w} (h : x % 2 ^ w = v.toNat) : BitVec.ofNat w x = v := by
  apply BitVec.eq_of_toNat_eq; simpa using h

theorem bool_lt (b : Bool) : b.toNat < 2 := by cases b <;> decide

theorem bool_eq (b : Bool) : (b.toNat == 1) = b := by cases b <;> rfl

theorem et_lt (t : ET) : t.code < 4 := by cases t <;> decide
theorem wd_lt (t : ET) : t.wdCode < 2 := by cases t <;> decide
theorem hwd_lt (t : ET) : t.hwdCode < 3 := by cases t <;> decide
theorem ft_lt (t : FT) : t.code < 3 := by cases t <;> decide
theorem hs_lt (t : FT) : t.hsCode < 2 := by cases t <;> decide
theorem ff_lt (t : FF) : t.code < 4 := by cases t <;> decide
theorem it_lt (t : IT) : t.code < 4 := by cases t <;> decide
theorem sat_lt (t : Sat) : t.code < 3 := by cases t <;> decide
theorem icond_lt (t : ICond) : t.code < 6 := by cases t <;> decide
theorem fcond_lt (t : FCond) : t.code < 6 := by cases t <;> decide
theorem rnd_lt (t : Rnd) : t.code < 4 := by cases t <;> decide
theorem msz_lt (t : MSz) : t.code < 5 := by cases t <;> decide
theorem rt_lt (t : RT) : t.code < 4 := by cases t <;> decide
theorem mt_lt (t : MT) : t.code < 4 := by cases t <;> decide
theorem ikind_lt (t : IKind) : t.code < 3 := by cases t <;> decide

@[simp] theorem icond_of (c : ICond) : ICond.ofCode c.code = some c := by cases c <;> rfl
@[simp] theorem fcond_of (c : FCond) : FCond.ofCode c.code = some c := by cases c <;> rfl
@[simp] theorem rnd_of (c : Rnd) : Rnd.ofCode c.code = some c := by cases c <;> rfl
@[simp] theorem sat_of (c : Sat) : Sat.ofCode c.code = some c := by cases c <;> rfl
@[simp] theorem et_of (c : ET) : ET.ofCode c.code = some c := by cases c <;> rfl
theorem ikind_of (c : IKind) : IKind.ofCode c.code = some c := by cases c <;> rfl

/-- What `Fields.ofWords` reads from a word that `iw` laid out: opcode, header and operand fields. -/
def fieldsOf (opc : Nat) (h : Hd) (d a : Nat) (la : Bool) (b : Nat) (lb : Bool) (e : Nat) : Fields :=
  ⟨opc, h, .ofNat 5 d, .ofNat 5 a, la, .ofNat 5 b, lb, e⟩

theorem iw_lt {opc d a b : Nat} {h : Hd} {la lb : Bool} (ho : opc < 256) (hd : d < 32) (ha : a < 32) (hb : b < 32) :
    iw opc h d a la b lb < 2 ^ 32 := by
  have h1 := bool_lt h.en; have h2 := bool_lt h.neg; have h3 := bool_lt h.x
  have h4 := bool_lt la; have h5 := bool_lt lb; have h6 := h.p.isLt
  unfold iw; omega

theorem iw_mod {opc d a b : Nat} {h : Hd} {la lb : Bool} : iw opc h d a la b lb % 2 = h.x.toNat := by
  have h3 := bool_lt h.x
  unfold iw; omega

/-- R76: the fields of an instruction word. -/
theorem ofWords_iw {opc d a b e : Nat} {h : Hd} {la lb : Bool} (ho : opc < 256) (hd : d < 32) (ha : a < 32) (hb : b < 32)
    (he : e < 2 ^ 32) (hx : h.x = false → e = 0) :
    Fields.ofWords (iw opc h d a la b lb) e = fieldsOf opc h d a la b lb e := by
  have h1 := bool_lt h.en; have h2 := bool_lt h.neg; have h3 := bool_lt h.x
  have h4 := bool_lt la; have h5 := bool_lt lb; have h6 := h.p.isLt
  have e1 : iw opc h d a la b lb / 2 ^ 24 % 256 = opc := by unfold iw; omega
  have e2 : iw opc h d a la b lb / 2 ^ 23 % 2 = h.en.toNat := by unfold iw; omega
  have e3 : BitVec.ofNat 4 (iw opc h d a la b lb / 2 ^ 19) = h.p := ofNat_eq (by unfold iw; omega)
  have e4 : iw opc h d a la b lb / 2 ^ 18 % 2 = h.neg.toNat := by unfold iw; omega
  have e5 : iw opc h d a la b lb % 2 = h.x.toNat := iw_mod
  have e6 : BitVec.ofNat 5 (iw opc h d a la b lb / 2 ^ 13) = .ofNat 5 d := ofNat_eq (by rw [BitVec.toNat_ofNat]; unfold iw; omega)
  have e7 : BitVec.ofNat 5 (iw opc h d a la b lb / 2 ^ 8) = .ofNat 5 a := ofNat_eq (by rw [BitVec.toNat_ofNat]; unfold iw; omega)
  have e8 : BitVec.ofNat 5 (iw opc h d a la b lb / 2 ^ 2) = .ofNat 5 b := ofNat_eq (by rw [BitVec.toNat_ofNat]; unfold iw; omega)
  have e9 : iw opc h d a la b lb / 2 ^ 7 % 2 = la.toNat := by unfold iw; omega
  have e10 : iw opc h d a la b lb / 2 % 2 = lb.toNat := by unfold iw; omega
  have e11 : (if h.x.toNat = 1 then e % 2 ^ 32 else 0) = e := by
    cases hh : h.x
    · simp [hx hh]
    · simp; omega
  simp only [Fields.ofWords, fieldsOf, e1, e2, e3, e4, e5, e6, e7, e8, e9, e10, bool_eq]
  rw [e11]

/-! ### The extension words -/

section
variable {opc : Nat} {h : Hd} {d a b : Nat} {la lb : Bool}

theorem eo_lt {c pa pb spec mode : Nat} {lc : Bool} (hc : c < 32) (hpa : pa < 256) (hpb : pb < 256) (hs : spec < 64) (hm : mode < 8) :
    eo c lc pa pb spec mode < 2 ^ 31 := by
  have h1 := bool_lt lc
  unfold eo; omega

theorem ei_lt {k spec mode imm : Nat} (hk : k < 4) (hs : spec < 4) (hm : mode < 8) (hi : imm < 2 ^ 24) :
    ei k spec mode imm < 2 ^ 32 := by unfold ei; omega

theorem eu_lt {f i : Nat} (hf : f < 256) (hi : i < 2 ^ 24) : eu f i < 2 ^ 32 := by unfold eu; omega

theorem brpw_lt {t j : Nat} (ht : t < 2 ^ 12) (hj : j < 2 ^ 12) : brpw t j < 2 ^ 24 := by unfold brpw; omega

theorem em_lt (e : EM) : e.word < 2 ^ 32 := by
  have h1 := e.ord.isLt; have h2 := e.scope.isLt; have h3 := e.hint.isLt; have h4 := e.op.isLt; have h5 := e.off.isLt
  unfold EM.word; omega

/-- R79: the fields of an EO word. -/
theorem eo_spec {c pa pb spec mode : Nat} {lc : Bool} (hs : spec < 64) (hm : mode < 8) :
    (fieldsOf opc h d a la b lb (eo c lc pa pb spec mode)).spec = spec := by
  have h1 := bool_lt lc
  simp only [Fields.spec, fieldsOf]; unfold eo; omega

theorem eo_mode {c pa pb spec mode : Nat} {lc : Bool} (hm : mode < 8) :
    (fieldsOf opc h d a la b lb (eo c lc pa pb spec mode)).mode = mode := by
  simp only [Fields.mode, fieldsOf]; unfold eo; omega

theorem eo_isEi {c pa pb spec mode : Nat} {lc : Bool} (hc : c < 32) (hpa : pa < 256) (hpb : pb < 256) (hs : spec < 64)
    (hm : mode < 8) : (fieldsOf opc h d a la b lb (eo c lc pa pb spec mode)).isEi = false := by
  have := @eo_lt c pa pb spec mode lc hc hpa hpb hs hm
  simp only [Fields.isEi, fieldsOf]; exact decide_eq_false (by omega)

theorem eo_srcA {c spec mode : Nat} {lc : Bool} {s : Src} {pb : BitVec 8} (hs : spec < 64) (hm : mode < 8) :
    (fieldsOf opc h d s.r.toNat s.last b lb (eo c lc s.perm.toNat pb.toNat spec mode)).srcA = s := by
  have h1 := bool_lt lc; have h2 := pb.isLt; have h3 := s.perm.isLt
  have e1 : BitVec.ofNat 8 (eo c lc s.perm.toNat pb.toNat spec mode / 2 ^ 17) = s.perm := ofNat_eq (by unfold eo; omega)
  simp only [Fields.srcA, fieldsOf, e1, BitVec.ofNat_toNat, BitVec.setWidth_eq]

theorem eo_srcA0 {c spec mode : Nat} {lc : Bool} {s : Src} (hs : spec < 64) (hm : mode < 8) :
    (fieldsOf opc h d s.r.toNat s.last b lb (eo c lc s.perm.toNat 0 spec mode)).srcA = s :=
  eo_srcA (pb := 0) hs hm

theorem eo_srcB {c spec mode pa : Nat} {lc : Bool} {s : Src} (hs : spec < 64) (hm : mode < 8) :
    (fieldsOf opc h d a la s.r.toNat s.last (eo c lc pa s.perm.toNat spec mode)).srcB = s := by
  have h1 := bool_lt lc; have h3 := s.perm.isLt
  have e1 : BitVec.ofNat 8 (eo c lc pa s.perm.toNat spec mode / 2 ^ 9) = s.perm := ofNat_eq (by unfold eo; omega)
  simp only [Fields.srcB, fieldsOf, e1, BitVec.ofNat_toNat, BitVec.setWidth_eq]

theorem eo_rlC {spec mode : Nat} {s : RL} {pa pb : BitVec 8} (hs : spec < 64) (hm : mode < 8) :
    (fieldsOf opc h d a la b lb (eo s.r.toNat s.last pa.toNat pb.toNat spec mode)).rlC = s := by
  have h1 := bool_lt s.last; have h2 := pb.isLt; have h3 := pa.isLt; have h4 := s.r.isLt
  have e1 : BitVec.ofNat 5 (eo s.r.toNat s.last pa.toNat pb.toNat spec mode / 2 ^ 26) = s.r := ofNat_eq (by unfold eo; omega)
  have e2 : eo s.r.toNat s.last pa.toNat pb.toNat spec mode / 2 ^ 25 % 2 = s.last.toNat := by unfold eo; omega
  simp only [Fields.rlC, fieldsOf, e1, e2, bool_eq]

theorem eo_c {spec mode c : Nat} {lc : Bool} {pa pb : BitVec 8} (hs : spec < 64) (hm : mode < 8) :
    (eo c lc pa.toNat pb.toNat spec mode) / 2 ^ 26 = c := by
  have h1 := bool_lt lc; have h2 := pb.isLt; have h3 := pa.isLt
  unfold eo; omega

/-- R80: the fields of an EI word. -/
theorem ei_isEi {k spec mode imm : Nat} : (fieldsOf opc h d a la b lb (ei k spec mode imm)).isEi = true := by
  simp only [Fields.isEi, fieldsOf]; exact decide_eq_true (by unfold ei; omega)

theorem ei_spec {k spec mode imm : Nat} (hs : spec < 4) (hm : mode < 8) (hi : imm < 2 ^ 24) :
    (fieldsOf opc h d a la b lb (ei k spec mode imm)).oiSpec = spec := by
  have : (fieldsOf opc h d a la b lb (ei k spec mode imm)).oiSpec = ei k spec mode imm / 2 ^ 27 % 4 := by
    simp only [Fields.oiSpec, ei_isEi]; simp [fieldsOf]
  rw [this]; unfold ei; omega

theorem ei_mode {k spec mode imm : Nat} (hm : mode < 8) (hi : imm < 2 ^ 24) :
    (fieldsOf opc h d a la b lb (ei k spec mode imm)).oiMode = mode := by
  have : (fieldsOf opc h d a la b lb (ei k spec mode imm)).oiMode = ei k spec mode imm / 2 ^ 24 % 8 := by
    simp only [Fields.oiMode, ei_isEi]; simp [fieldsOf]
  rw [this]; unfold ei; omega

theorem ei_b {k : IKind} {spec mode : Nat} {v : BitVec 24} (hs : spec < 4) (hm : mode < 8) :
    (fieldsOf opc h d a la b lb (ei k.code spec mode v.toNat)).oiB = some (.imm k v) := by
  have h1 := v.isLt; have h2 := ikind_lt k
  have e1 : ei k.code spec mode v.toNat / 2 ^ 29 % 4 = k.code := by unfold ei; omega
  have e2 : BitVec.ofNat 24 (ei k.code spec mode v.toNat) = v := ofNat_eq (by unfold ei; omega)
  simp only [Fields.oiB, ei_isEi, if_true]
  simp only [fieldsOf, e1, e2, ikind_of, Option.map_some]

/-! ### Source b of an O/I instruction -/

theorem oi_lt {s : Src} {bo : BOp} {spec mode : Nat} (hs : spec < 4) (hm : mode < 8) : bo.ext s spec mode < 2 ^ 32 := by
  cases bo with
  | reg t =>
    have := @eo_lt 0 s.perm.toNat t.perm.toNat spec mode false (by omega) s.perm.isLt t.perm.isLt (by omega) hm
    simp only [BOp.ext]; omega
  | imm k v => exact ei_lt (by have := ikind_lt k; omega) hs hm v.isLt

theorem oi_all {s : Src} {bo : BOp} {spec mode : Nat} (hs : spec < 4) (hm : mode < 8)
    (hp : ∀ k v, bo = .imm k v → s.perm = 0) :
    let f := fieldsOf opc h d s.r.toNat s.last bo.field bo.last (bo.ext s spec mode)
    f.oiA = s ∧ f.oiB = some bo ∧ f.oiSpec = spec ∧ f.oiMode = mode := by
  cases bo with
  | reg t =>
    have e := @eo_isEi opc h d s.r.toNat t.r.toNat s.last t.last 0 s.perm.toNat t.perm.toNat spec mode false (by omega) s.perm.isLt
      t.perm.isLt (by omega) hm
    refine ⟨?_, ?_, ?_, ?_⟩
    · simp only [BOp.field, BOp.last, BOp.ext, Fields.oiA, e]; exact eo_srcA (by omega) hm
    · simp only [BOp.field, BOp.last, BOp.ext, Fields.oiB, e]
      exact congrArg (fun x => some (BOp.reg x)) (eo_srcB (by omega) hm)
    · simp only [BOp.field, BOp.last, BOp.ext, Fields.oiSpec, e]; exact eo_spec (by omega) hm
    · simp only [BOp.field, BOp.last, BOp.ext, Fields.oiMode, e]; exact eo_mode hm
  | imm k v =>
    have hz := hp k v rfl
    refine ⟨?_, ei_b hs hm, ei_spec hs hm v.isLt, ei_mode hm v.isLt⟩
    simp only [BOp.field, BOp.last, BOp.ext, Fields.oiA, ei_isEi, if_true]
    cases s; simp_all [fieldsOf]

/-! ### EU words (R84) -/

theorem eu_func {f i : Nat} (hf : f < 256) (hi : i < 2 ^ 24) : (fieldsOf opc h d a la b lb (eu f i)).func = f := by
  simp only [Fields.func, fieldsOf]; unfold eu; omega

theorem eu_imm {f i : Nat} (hi : i < 2 ^ 24) : (fieldsOf opc h d a la b lb (eu f i)).imm = i := by
  simp only [Fields.imm, fieldsOf]; unfold eu; omega

theorem eu_ofNat {f i w : Nat} {v : BitVec w} (hw : 2 ^ 24 % 2 ^ w = 0) (hv : i % 2 ^ w = v.toNat) : BitVec.ofNat w (eu f i) = v := by
  apply ofNat_eq
  rw [← hv]; unfold eu
  obtain ⟨k, hk⟩ := Nat.dvd_of_mod_eq_zero hw
  rw [hk, Nat.mul_left_comm, Nat.mul_add_mod]

theorem u_lt {bo : UOp} {c : Nat} (hc : c < 8) : bo.ext c < 2 ^ 32 := by
  cases bo with
  | reg r => exact eu_lt (by omega) (by omega)
  | imm v => exact eu_lt (by omega) v.isLt

theorem u_all {bo : UOp} {c : Nat} (hc : c < 8) :
    let f := fieldsOf opc h d a la bo.field lb (bo.ext c)
    f.uB = bo ∧ f.func % 8 = c := by
  cases bo with
  | reg r =>
    have e : (fieldsOf opc h d a la r.toNat lb (eu c 0)).func = c := eu_func (by omega) (by omega)
    refine ⟨?_, by simp only [UOp.field, UOp.ext, e]; omega⟩
    simp only [UOp.field, UOp.ext, Fields.uB, e]
    rw [if_neg (by omega)]
    simp [fieldsOf]
  | imm v =>
    have e : (fieldsOf opc h d a la 0 lb (eu (8 + c) v.toNat)).func = 8 + c := eu_func (by omega) v.isLt
    refine ⟨?_, by simp only [UOp.field, UOp.ext, e]; omega⟩
    simp only [UOp.field, UOp.ext, Fields.uB, e]
    rw [if_pos (by omega)]
    have h1 := v.isLt
    have e2 : BitVec.ofNat 24 (eu (8 + c) v.toNat) = v := ofNat_eq (by unfold eu; omega)
    simp [fieldsOf, e2]

/-! ### The EM word (R82) -/

@[simp] theorem em_all {e : EM} : (fieldsOf opc h d a la b lb e.word).em = e := by
  have h1 := e.ord.isLt; have h2 := e.scope.isLt; have h3 := e.hint.isLt; have h4 := e.op.isLt; have h5 := e.off.isLt
  have e1 : BitVec.ofNat 2 (e.word / 2 ^ 30) = e.ord := ofNat_eq (by unfold EM.word; omega)
  have e2 : BitVec.ofNat 3 (e.word / 2 ^ 27) = e.scope := ofNat_eq (by unfold EM.word; omega)
  have e3 : BitVec.ofNat 2 (e.word / 2 ^ 25) = e.hint := ofNat_eq (by unfold EM.word; omega)
  have e4 : BitVec.ofNat 5 (e.word / 2 ^ 20) = e.op := ofNat_eq (by unfold EM.word; omega)
  have e5 : BitVec.ofNat 20 e.word = e.off := ofNat_eq (by unfold EM.word; omega)
  simp only [Fields.em, fieldsOf, e1, e2, e3, e4, e5]

end

theorem bv5 (r : Reg) : BitVec.ofNat 5 r.toNat = r := by simp
theorem bv_ofNat_toNat {w : Nat} (r : BitVec w) : BitVec.ofNat w r.toNat = r := by simp

/-- A 4-bit number read through a 5-bit field. -/
@[simp] theorem pd_of (p : BitVec 4) : BitVec.ofNat 4 (BitVec.ofNat 5 p.toNat).toNat = p :=
  ofNat_eq (by have := p.isLt; rw [BitVec.toNat_ofNat]; omega)
@[simp] theorem od_of (p : BitVec 3) : BitVec.ofNat 3 (BitVec.ofNat 5 p.toNat).toNat = p :=
  ofNat_eq (by have := p.isLt; rw [BitVec.toNat_ofNat]; omega)

/-! ### From the fields to the words -/

/-- A laid-out instruction whose fields read back as it is decoded. -/
theorem decode_of {i : Instr} {l : Layout} (hl : i.layout = some l) (hw : i.wf = true)
    {opc d a b : Nat} {h : Hd} {la lb : Bool} {e : Nat} (h0 : l = ⟨l.cls, h, iw opc h d a la b lb, e⟩)
    (ho : opc < 256) (hd : d < 32) (ha : a < 32) (hb : b < 32) (he : e < 2 ^ 32) (hx : h.x = false → e = 0)
    (hop : opcAssigned opc = true) (hf : (fieldsOf opc h d a la b lb e).instr = some i) :
    decodeWords l.w0 l.ext = .ok i ∧ l.w0 < 2 ^ 32 ∧ l.ext < 2 ^ 32 ∧ l.w0 % 2 = l.hd.x.toNat ∧ (l.hd.x = false → l.ext = 0) := by
  have hw0 := @iw_lt opc d a b h la lb ho hd ha hb
  rw [h0]
  refine ⟨?_, hw0, he, iw_mod, hx⟩
  simp only [decodeWords, ofWords_iw ho hd ha hb he hx, hf, hl]
  rw [h0]
  have ho' : opcAssigned (fieldsOf opc h d a la b lb e).opc = true := hop
  have hw1 : iw opc h d a la b lb < 4294967296 := hw0
  have he1 : e < 4294967296 := he
  simp [ho', Nat.mod_eq_of_lt hw1, Nat.mod_eq_of_lt he1, hw]

end Sys2Proof.Laws
end

