-- ==== Sys2Proof/Laws/Memory.lean ====
section
/-! SUPPORT. Laws of the sparse maps and of memory: reads after writes, and the canonical form that every write keeps. -/

namespace Sys2Proof.Machine

namespace SMap
variable {α : Type}

/-- The keys of `m` all lie above `a`. -/
def above (a : Nat) : SMap α → Prop
  | [] => True
  | (k, _) :: _ => a < k

theorem sorted_cons {k : Nat} {v : α} {m : SMap α} : sorted ((k, v) :: m) = true ↔ above k m ∧ sorted m = true := by
  cases m with
  | nil => simp [sorted, above]
  | cons e m => obtain ⟨b, w⟩ := e; simp [sorted, above]

theorem above_trans {a k : Nat} {m : SMap α} (h : a < k) (hm : above k m) : above a m := by
  cases m with
  | nil => trivial
  | cons e m => obtain ⟨b, w⟩ := e; simp only [above] at *; omega

theorem get?_above {a : Nat} {m : SMap α} (h : above a m) : get? m a = none := by
  cases m with
  | nil => rfl
  | cons e m => obtain ⟨b, w⟩ := e; simp only [above] at h; simp [get?, h]

theorem get?_put_self (m : SMap α) (a : Nat) (v : α) : get? (put m a v) a = some v := by
  induction m with
  | nil => simp [put, get?]
  | cons e m ih =>
    obtain ⟨k, w⟩ := e
    simp only [put]
    split
    · simp [get?]
    · split
      · simp [get?]
      · simp [get?, *]

theorem get?_put_ne (m : SMap α) {a b : Nat} (v : α) (h : b ≠ a) : get? (put m a v) b = get? m b := by
  induction m with
  | nil => simp [put, get?, h]
  | cons e m ih =>
    obtain ⟨k, w⟩ := e
    simp only [put]
    split <;> rename_i h1
    · simp only [get?]
      split <;> rename_i h2
      · have : b < k := by omega
        simp [this]
      · simp
    · split <;> rename_i h2
      · subst h2; simp [get?, h]
      · simp [get?, ih]

theorem above_put {a k : Nat} {v : α} {m : SMap α} (h : k < a) (hm : above k m) : above k (put m a v) := by
  cases m with
  | nil => simpa [put, above] using h
  | cons e m =>
    obtain ⟨b, w⟩ := e
    simp only [above] at hm
    simp only [put]
    split
    · simpa [above] using h
    · split <;> simpa [above]

theorem sorted_put {m : SMap α} (a : Nat) (v : α) (h : sorted m = true) : sorted (put m a v) = true := by
  induction m with
  | nil => simp [put, sorted]
  | cons e m ih =>
    obtain ⟨k, w⟩ := e
    have h' := sorted_cons.1 h
    simp only [put]
    split <;> rename_i h1
    · exact sorted_cons.2 ⟨h1, h⟩
    · split <;> rename_i h2
      · subst h2; exact sorted_cons.2 h'
      · exact sorted_cons.2 ⟨above_put (by omega) h'.1, ih h'.2⟩

theorem above_del {a k : Nat} {m : SMap α} (hs : sorted m = true) (hm : above k m) : above k (del m a) := by
  cases m with
  | nil => trivial
  | cons e m =>
    obtain ⟨b, w⟩ := e
    simp only [above] at hm
    simp only [del]
    split
    · simpa [above] using hm
    · split
      · exact above_trans hm (sorted_cons.1 hs).1
      · simpa [above] using hm

theorem sorted_del {m : SMap α} (a : Nat) (h : sorted m = true) : sorted (del m a) = true := by
  induction m with
  | nil => rfl
  | cons e m ih =>
    obtain ⟨k, w⟩ := e
    have h' := sorted_cons.1 h
    simp only [del]
    split
    · exact h
    · split
      · exact h'.2
      · exact sorted_cons.2 ⟨above_del h'.2 h'.1, ih h'.2⟩

theorem get?_del_self {m : SMap α} (a : Nat) (h : sorted m = true) : get? (del m a) a = none := by
  induction m with
  | nil => rfl
  | cons e m ih =>
    obtain ⟨k, w⟩ := e
    have h' := sorted_cons.1 h
    simp only [del]
    split <;> rename_i h1
    · simp [get?, h1]
    · split <;> rename_i h2
      · subst h2; exact get?_above h'.1
      · simp [get?, h1, h2, ih h'.2]

theorem get?_del_ne {m : SMap α} {a b : Nat} (hb : b ≠ a) (h : sorted m = true) : get? (del m a) b = get? m b := by
  induction m with
  | nil => rfl
  | cons e m ih =>
    obtain ⟨k, w⟩ := e
    have h' := sorted_cons.1 h
    simp only [del]
    split <;> rename_i h1
    · rfl
    · split <;> rename_i h2
      · subst h2
        simp only [get?, hb, if_false]
        split <;> rename_i h3
        · exact get?_above (above_trans h3 h'.1)
        · rfl
      · simp [get?, ih h'.2]

theorem getD_put_self (m : SMap α) (a : Nat) (v d : α) : getD (put m a v) a d = v := by
  simp [getD, get?_put_self]

theorem getD_put_ne (m : SMap α) {a b : Nat} (v d : α) (h : b ≠ a) : getD (put m a v) b d = getD m b d := by
  simp [getD, get?_put_ne m v h]

end SMap

namespace Memory

theorem wf_iff {m : Memory} : wf m = true ↔ SMap.sorted m = true ∧ noBlank m = true := by simp [wf]

theorem noBlank_put {m : Memory} {a : Nat} {v : Byte} (hv : v ≠ blank) (h : noBlank m = true) :
    noBlank (SMap.put m a v) = true := by
  induction m with
  | nil => simpa [SMap.put, noBlank] using hv
  | cons e m ih =>
    obtain ⟨k, w⟩ := e
    simp only [noBlank, List.all_cons, Bool.and_eq_true] at h ih
    simp only [SMap.put]
    split
    · simp [noBlank, hv, h]
    · split
      · simp [noBlank, hv, h]
      · simp [noBlank, h, ih]

theorem noBlank_del {m : Memory} {a : Nat} (h : noBlank m = true) : noBlank (SMap.del m a) = true := by
  induction m with
  | nil => rfl
  | cons e m ih =>
    obtain ⟨k, w⟩ := e
    have h' := h
    simp only [noBlank, List.all_cons, Bool.and_eq_true] at h' ih
    simp only [SMap.del]
    split
    · exact h
    · split
      · simpa [noBlank] using h'.2
      · simp [noBlank, h'.1, ih h'.2]

/-- Writing a byte keeps the canonical form. -/
theorem wf_setByte {m : Memory} (a : Nat) (v : Byte) (h : wf m = true) : wf (setByte m a v) = true := by
  rw [wf_iff] at *
  simp only [setByte]
  split
  · exact ⟨SMap.sorted_del a h.1, noBlank_del h.2⟩
  · exact ⟨SMap.sorted_put a v h.1, noBlank_put (by assumption) h.2⟩

/-- Writing any number of bytes keeps the canonical form. -/
theorem wf_writeN {m : Memory} (a v n : Nat) (h : wf m = true) : wf (writeN m a n v) = true := by
  induction n generalizing m a v with
  | zero => exact h
  | succ n ih => exact ih _ _ (wf_setByte a _ h)

theorem wf_nil : wf [] = true := rfl

/-- A byte reads back as it was written. -/
theorem byte_setByte_self {m : Memory} (a : Nat) (v : Byte) (h : wf m = true) : byte (setByte m a v) a = v := by
  simp only [setByte, byte, SMap.getD]
  split <;> rename_i hv
  · rw [SMap.get?_del_self a (wf_iff.1 h).1]; simp [hv]
  · rw [SMap.get?_put_self]; rfl

/-- A write leaves every other byte alone. -/
theorem byte_setByte_ne {m : Memory} {a b : Nat} (v : Byte) (hb : b ≠ a) (h : wf m = true) :
    byte (setByte m a v) b = byte m b := by
  simp only [setByte, byte, SMap.getD]
  split
  · rw [SMap.get?_del_ne hb (wf_iff.1 h).1]
  · rw [SMap.get?_put_ne _ _ hb]

/-- A write of `n` bytes leaves every byte outside them alone. -/
theorem byte_writeN_ne {m : Memory} (a v n b : Nat) (hb : b < a ∨ a + n ≤ b) (h : wf m = true) :
    byte (writeN m a n v) b = byte m b := by
  induction n generalizing m a v with
  | zero => rfl
  | succ n ih =>
    rw [writeN, ih (a + 1) _ (by omega) (wf_setByte a _ h), byte_setByte_ne _ (by omega) h]

/-- The bytes written read back, little-endian. -/
theorem byte_writeN_at {m : Memory} (a v n i : Nat) (hi : i < n) (h : wf m = true) :
    byte (writeN m a n v) (a + i) = .ofNat 8 (v / 2 ^ (8 * i)) := by
  induction n generalizing m a v i with
  | zero => omega
  | succ n ih =>
    rw [writeN]
    cases i with
    | zero =>
      rw [byte_writeN_ne (a + 1) _ n (a + 0) (by omega) (wf_setByte a _ h)]
      simpa using byte_setByte_self a (.ofNat 8 v) h
    | succ i =>
      have := ih (a + 1) (v / 2 ^ 8) i (by omega) (wf_setByte a (.ofNat 8 v) h)
      rw [show a + (i + 1) = a + 1 + i by omega, this, Nat.div_div_eq_div_mul,
        show 8 * (i + 1) = 8 + 8 * i by omega, Nat.pow_add]

/-- `n` bytes read as the number that was written there, modulo its width. -/
theorem readN_writeN {m : Memory} (a v n : Nat) (h : wf m = true) : readN (writeN m a n v) a n = v % 2 ^ (8 * n) := by
  suffices ∀ k i, i + k = n → readN (writeN m a n v) (a + i) k = v / 2 ^ (8 * i) % 2 ^ (8 * k) by
    simpa using this n 0 (by omega)
  intro k
  induction k with
  | zero => intro i _; simp [readN, Nat.mod_one]
  | succ k ih =>
    intro i hi
    rw [readN, byte_writeN_at a v n i (by omega) h, show a + i + 1 = a + (i + 1) by omega, ih (i + 1) (by omega)]
    have e1 : v / 2 ^ (8 * (i + 1)) = v / 2 ^ (8 * i) / 2 ^ 8 := by
      rw [Nat.div_div_eq_div_mul, ← Nat.pow_add, show 8 * (i + 1) = 8 * i + 8 by omega]
    rw [e1, show 2 ^ (8 * (k + 1)) = 2 ^ 8 * 2 ^ (8 * k) by rw [← Nat.pow_add]; congr 1; omega, Nat.mod_mul]
    simp

end Memory

end Sys2Proof.Machine
end

