-- ==== Sys2Proof/Laws/State.lean ====
section
/-! SUPPORT. One lemma for each field of the state under each named update, and what the maps of the state read after one. -/

namespace Sys2Proof.Machine

/-! ### putGroup -/

@[simp] theorem State.putGroup_tick (s : State) (g : Nat) (x : Group) : (s.putGroup g x).tick = s.tick := rfl
@[simp] theorem State.putGroup_leases (s : State) (g : Nat) (x : Group) : (s.putGroup g x).leases = s.leases := rfl
@[simp] theorem State.putGroup_mem (s : State) (g : Nat) (x : Group) : (s.putGroup g x).mem = s.mem := rfl
@[simp] theorem State.putGroup_cores (s : State) (g : Nat) (x : Group) : (s.putGroup g x).cores = s.cores := rfl
@[simp] theorem State.putGroup_groups (s : State) (g : Nat) (x : Group) : (s.putGroup g x).groups = SMap.put s.groups g x := rfl
@[simp] theorem State.putGroup_blocks (s : State) (g : Nat) (x : Group) : (s.putGroup g x).blocks = s.blocks := rfl
@[simp] theorem State.putGroup_regions (s : State) (g : Nat) (x : Group) : (s.putGroup g x).regions = s.regions := rfl
@[simp] theorem State.putGroup_ms (s : State) (g : Nat) (x : Group) : (s.putGroup g x).ms = s.ms := rfl
@[simp] theorem State.putGroup_eng (s : State) (g : Nat) (x : Group) : (s.putGroup g x).eng = s.eng := rfl
@[simp] theorem State.putGroup_fab (s : State) (g : Nat) (x : Group) : (s.putGroup g x).fab = s.fab := rfl
@[simp] theorem State.putGroup_tr (s : State) (g : Nat) (x : Group) : (s.putGroup g x).tr = s.tr := rfl
@[simp] theorem State.putGroup_sys (s : State) (g : Nat) (x : Group) : (s.putGroup g x).sys = s.sys := rfl
@[simp] theorem State.putGroup_spawns (s : State) (g : Nat) (x : Group) : (s.putGroup g x).spawns = s.spawns := rfl
@[simp] theorem State.putGroup_ports (s : State) (g : Nat) (x : Group) : (s.putGroup g x).ports = s.ports := rfl
@[simp] theorem State.putGroup_agenda (s : State) (g : Nat) (x : Group) : (s.putGroup g x).agenda = s.agenda := rfl
@[simp] theorem State.putGroup_nextId (s : State) (g : Nat) (x : Group) : (s.putGroup g x).nextId = s.nextId := rfl
@[simp] theorem State.putGroup_free (s : State) (g : Nat) (x : Group) : (s.putGroup g x).free = s.free := rfl

/-! ### putBlock -/

@[simp] theorem State.putBlock_tick (s : State) (b : Nat) (x : Block) : (s.putBlock b x).tick = s.tick := rfl
@[simp] theorem State.putBlock_leases (s : State) (b : Nat) (x : Block) : (s.putBlock b x).leases = s.leases := rfl
@[simp] theorem State.putBlock_mem (s : State) (b : Nat) (x : Block) : (s.putBlock b x).mem = s.mem := rfl
@[simp] theorem State.putBlock_cores (s : State) (b : Nat) (x : Block) : (s.putBlock b x).cores = s.cores := rfl
@[simp] theorem State.putBlock_groups (s : State) (b : Nat) (x : Block) : (s.putBlock b x).groups = s.groups := rfl
@[simp] theorem State.putBlock_blocks (s : State) (b : Nat) (x : Block) : (s.putBlock b x).blocks = SMap.put s.blocks b x := rfl
@[simp] theorem State.putBlock_regions (s : State) (b : Nat) (x : Block) : (s.putBlock b x).regions = s.regions := rfl
@[simp] theorem State.putBlock_ms (s : State) (b : Nat) (x : Block) : (s.putBlock b x).ms = s.ms := rfl
@[simp] theorem State.putBlock_eng (s : State) (b : Nat) (x : Block) : (s.putBlock b x).eng = s.eng := rfl
@[simp] theorem State.putBlock_fab (s : State) (b : Nat) (x : Block) : (s.putBlock b x).fab = s.fab := rfl
@[simp] theorem State.putBlock_tr (s : State) (b : Nat) (x : Block) : (s.putBlock b x).tr = s.tr := rfl
@[simp] theorem State.putBlock_sys (s : State) (b : Nat) (x : Block) : (s.putBlock b x).sys = s.sys := rfl
@[simp] theorem State.putBlock_spawns (s : State) (b : Nat) (x : Block) : (s.putBlock b x).spawns = s.spawns := rfl
@[simp] theorem State.putBlock_ports (s : State) (b : Nat) (x : Block) : (s.putBlock b x).ports = s.ports := rfl
@[simp] theorem State.putBlock_agenda (s : State) (b : Nat) (x : Block) : (s.putBlock b x).agenda = s.agenda := rfl
@[simp] theorem State.putBlock_nextId (s : State) (b : Nat) (x : Block) : (s.putBlock b x).nextId = s.nextId := rfl
@[simp] theorem State.putBlock_free (s : State) (b : Nat) (x : Block) : (s.putBlock b x).free = s.free := rfl

/-! ### putRegion -/

@[simp] theorem State.putRegion_tick (s : State) (r : Nat) (x : Region) : (s.putRegion r x).tick = s.tick := rfl
@[simp] theorem State.putRegion_leases (s : State) (r : Nat) (x : Region) : (s.putRegion r x).leases = s.leases := rfl
@[simp] theorem State.putRegion_mem (s : State) (r : Nat) (x : Region) : (s.putRegion r x).mem = s.mem := rfl
@[simp] theorem State.putRegion_cores (s : State) (r : Nat) (x : Region) : (s.putRegion r x).cores = s.cores := rfl
@[simp] theorem State.putRegion_groups (s : State) (r : Nat) (x : Region) : (s.putRegion r x).groups = s.groups := rfl
@[simp] theorem State.putRegion_blocks (s : State) (r : Nat) (x : Region) : (s.putRegion r x).blocks = s.blocks := rfl
@[simp] theorem State.putRegion_regions (s : State) (r : Nat) (x : Region) : (s.putRegion r x).regions = SMap.put s.regions r x := rfl
@[simp] theorem State.putRegion_ms (s : State) (r : Nat) (x : Region) : (s.putRegion r x).ms = s.ms := rfl
@[simp] theorem State.putRegion_eng (s : State) (r : Nat) (x : Region) : (s.putRegion r x).eng = s.eng := rfl
@[simp] theorem State.putRegion_fab (s : State) (r : Nat) (x : Region) : (s.putRegion r x).fab = s.fab := rfl
@[simp] theorem State.putRegion_tr (s : State) (r : Nat) (x : Region) : (s.putRegion r x).tr = s.tr := rfl
@[simp] theorem State.putRegion_sys (s : State) (r : Nat) (x : Region) : (s.putRegion r x).sys = s.sys := rfl
@[simp] theorem State.putRegion_spawns (s : State) (r : Nat) (x : Region) : (s.putRegion r x).spawns = s.spawns := rfl
@[simp] theorem State.putRegion_ports (s : State) (r : Nat) (x : Region) : (s.putRegion r x).ports = s.ports := rfl
@[simp] theorem State.putRegion_agenda (s : State) (r : Nat) (x : Region) : (s.putRegion r x).agenda = s.agenda := rfl
@[simp] theorem State.putRegion_nextId (s : State) (r : Nat) (x : Region) : (s.putRegion r x).nextId = s.nextId := rfl
@[simp] theorem State.putRegion_free (s : State) (r : Nat) (x : Region) : (s.putRegion r x).free = s.free := rfl

/-! ### setCore -/

@[simp] theorem State.setCore_tick (s : State) (c : Nat) (k : Core) : (s.setCore c k).tick = s.tick := rfl
@[simp] theorem State.setCore_leases (s : State) (c : Nat) (k : Core) : (s.setCore c k).leases = s.leases := rfl
@[simp] theorem State.setCore_mem (s : State) (c : Nat) (k : Core) : (s.setCore c k).mem = s.mem := rfl
@[simp] theorem State.setCore_cores (s : State) (c : Nat) (k : Core) : (s.setCore c k).cores = SMap.put s.cores c k := rfl
@[simp] theorem State.setCore_groups (s : State) (c : Nat) (k : Core) : (s.setCore c k).groups = s.groups := rfl
@[simp] theorem State.setCore_blocks (s : State) (c : Nat) (k : Core) : (s.setCore c k).blocks = s.blocks := rfl
@[simp] theorem State.setCore_regions (s : State) (c : Nat) (k : Core) : (s.setCore c k).regions = s.regions := rfl
@[simp] theorem State.setCore_ms (s : State) (c : Nat) (k : Core) : (s.setCore c k).ms = s.ms := rfl
@[simp] theorem State.setCore_eng (s : State) (c : Nat) (k : Core) : (s.setCore c k).eng = s.eng := rfl
@[simp] theorem State.setCore_fab (s : State) (c : Nat) (k : Core) : (s.setCore c k).fab = s.fab := rfl
@[simp] theorem State.setCore_tr (s : State) (c : Nat) (k : Core) : (s.setCore c k).tr = s.tr := rfl
@[simp] theorem State.setCore_sys (s : State) (c : Nat) (k : Core) : (s.setCore c k).sys = s.sys := rfl
@[simp] theorem State.setCore_spawns (s : State) (c : Nat) (k : Core) : (s.setCore c k).spawns = s.spawns := rfl
@[simp] theorem State.setCore_ports (s : State) (c : Nat) (k : Core) : (s.setCore c k).ports = s.ports := rfl
@[simp] theorem State.setCore_agenda (s : State) (c : Nat) (k : Core) : (s.setCore c k).agenda = s.agenda := rfl
@[simp] theorem State.setCore_nextId (s : State) (c : Nat) (k : Core) : (s.setCore c k).nextId = s.nextId := rfl
@[simp] theorem State.setCore_free (s : State) (c : Nat) (k : Core) : (s.setCore c k).free = s.free := rfl

/-! ### onCore -/

@[simp] theorem State.onCore_tick (s : State) (c : Nat) (f : Core → Core) : (s.onCore c f).tick = s.tick := rfl
@[simp] theorem State.onCore_leases (s : State) (c : Nat) (f : Core → Core) : (s.onCore c f).leases = s.leases := rfl
@[simp] theorem State.onCore_mem (s : State) (c : Nat) (f : Core → Core) : (s.onCore c f).mem = s.mem := rfl
@[simp] theorem State.onCore_cores (s : State) (c : Nat) (f : Core → Core) : (s.onCore c f).cores = SMap.put s.cores c (f (s.core c)) := rfl
@[simp] theorem State.onCore_groups (s : State) (c : Nat) (f : Core → Core) : (s.onCore c f).groups = s.groups := rfl
@[simp] theorem State.onCore_blocks (s : State) (c : Nat) (f : Core → Core) : (s.onCore c f).blocks = s.blocks := rfl
@[simp] theorem State.onCore_regions (s : State) (c : Nat) (f : Core → Core) : (s.onCore c f).regions = s.regions := rfl
@[simp] theorem State.onCore_ms (s : State) (c : Nat) (f : Core → Core) : (s.onCore c f).ms = s.ms := rfl
@[simp] theorem State.onCore_eng (s : State) (c : Nat) (f : Core → Core) : (s.onCore c f).eng = s.eng := rfl
@[simp] theorem State.onCore_fab (s : State) (c : Nat) (f : Core → Core) : (s.onCore c f).fab = s.fab := rfl
@[simp] theorem State.onCore_tr (s : State) (c : Nat) (f : Core → Core) : (s.onCore c f).tr = s.tr := rfl
@[simp] theorem State.onCore_sys (s : State) (c : Nat) (f : Core → Core) : (s.onCore c f).sys = s.sys := rfl
@[simp] theorem State.onCore_spawns (s : State) (c : Nat) (f : Core → Core) : (s.onCore c f).spawns = s.spawns := rfl
@[simp] theorem State.onCore_ports (s : State) (c : Nat) (f : Core → Core) : (s.onCore c f).ports = s.ports := rfl
@[simp] theorem State.onCore_agenda (s : State) (c : Nat) (f : Core → Core) : (s.onCore c f).agenda = s.agenda := rfl
@[simp] theorem State.onCore_nextId (s : State) (c : Nat) (f : Core → Core) : (s.onCore c f).nextId = s.nextId := rfl
@[simp] theorem State.onCore_free (s : State) (c : Nat) (f : Core → Core) : (s.onCore c f).free = s.free := rfl

/-! ### popPort -/

@[simp] theorem State.popPort_tick (s : State)  : (s.popPort ).tick = s.tick := rfl
@[simp] theorem State.popPort_leases (s : State)  : (s.popPort ).leases = s.leases := rfl
@[simp] theorem State.popPort_mem (s : State)  : (s.popPort ).mem = s.mem := rfl
@[simp] theorem State.popPort_cores (s : State)  : (s.popPort ).cores = s.cores := rfl
@[simp] theorem State.popPort_groups (s : State)  : (s.popPort ).groups = s.groups := rfl
@[simp] theorem State.popPort_blocks (s : State)  : (s.popPort ).blocks = s.blocks := rfl
@[simp] theorem State.popPort_regions (s : State)  : (s.popPort ).regions = s.regions := rfl
@[simp] theorem State.popPort_ms (s : State)  : (s.popPort ).ms = s.ms := rfl
@[simp] theorem State.popPort_eng (s : State)  : (s.popPort ).eng = s.eng := rfl
@[simp] theorem State.popPort_fab (s : State)  : (s.popPort ).fab = s.fab := rfl
@[simp] theorem State.popPort_tr (s : State)  : (s.popPort ).tr = s.tr := rfl
@[simp] theorem State.popPort_sys (s : State)  : (s.popPort ).sys = s.sys := rfl
@[simp] theorem State.popPort_spawns (s : State)  : (s.popPort ).spawns = s.spawns := rfl
@[simp] theorem State.popPort_ports (s : State)  : (s.popPort ).ports = s.ports.tail := rfl
@[simp] theorem State.popPort_agenda (s : State)  : (s.popPort ).agenda = s.agenda := rfl
@[simp] theorem State.popPort_nextId (s : State)  : (s.popPort ).nextId = s.nextId := rfl
@[simp] theorem State.popPort_free (s : State)  : (s.popPort ).free = s.free := rfl

/-! ### fresh -/

@[simp] theorem State.fresh_tick (s : State)  : (s.fresh ).tick = s.tick := rfl
@[simp] theorem State.fresh_leases (s : State)  : (s.fresh ).leases = s.leases := rfl
@[simp] theorem State.fresh_mem (s : State)  : (s.fresh ).mem = s.mem := rfl
@[simp] theorem State.fresh_cores (s : State)  : (s.fresh ).cores = s.cores := rfl
@[simp] theorem State.fresh_groups (s : State)  : (s.fresh ).groups = s.groups := rfl
@[simp] theorem State.fresh_blocks (s : State)  : (s.fresh ).blocks = s.blocks := rfl
@[simp] theorem State.fresh_regions (s : State)  : (s.fresh ).regions = s.regions := rfl
@[simp] theorem State.fresh_ms (s : State)  : (s.fresh ).ms = s.ms := rfl
@[simp] theorem State.fresh_eng (s : State)  : (s.fresh ).eng = s.eng := rfl
@[simp] theorem State.fresh_fab (s : State)  : (s.fresh ).fab = s.fab := rfl
@[simp] theorem State.fresh_tr (s : State)  : (s.fresh ).tr = s.tr := rfl
@[simp] theorem State.fresh_sys (s : State)  : (s.fresh ).sys = s.sys := rfl
@[simp] theorem State.fresh_spawns (s : State)  : (s.fresh ).spawns = s.spawns := rfl
@[simp] theorem State.fresh_ports (s : State)  : (s.fresh ).ports = s.ports := rfl
@[simp] theorem State.fresh_agenda (s : State)  : (s.fresh ).agenda = s.agenda := rfl
@[simp] theorem State.fresh_nextId (s : State)  : (s.fresh ).nextId = s.nextId + 1 := rfl
@[simp] theorem State.fresh_free (s : State)  : (s.fresh ).free = s.free := rfl

/-! ### setEng -/

@[simp] theorem State.setEng_tick (s : State) (e : Eng) : (s.setEng e).tick = s.tick := rfl
@[simp] theorem State.setEng_leases (s : State) (e : Eng) : (s.setEng e).leases = s.leases := rfl
@[simp] theorem State.setEng_mem (s : State) (e : Eng) : (s.setEng e).mem = s.mem := rfl
@[simp] theorem State.setEng_cores (s : State) (e : Eng) : (s.setEng e).cores = s.cores := rfl
@[simp] theorem State.setEng_groups (s : State) (e : Eng) : (s.setEng e).groups = s.groups := rfl
@[simp] theorem State.setEng_blocks (s : State) (e : Eng) : (s.setEng e).blocks = s.blocks := rfl
@[simp] theorem State.setEng_regions (s : State) (e : Eng) : (s.setEng e).regions = s.regions := rfl
@[simp] theorem State.setEng_ms (s : State) (e : Eng) : (s.setEng e).ms = s.ms := rfl
@[simp] theorem State.setEng_fab (s : State) (e : Eng) : (s.setEng e).fab = s.fab := rfl
@[simp] theorem State.setEng_tr (s : State) (e : Eng) : (s.setEng e).tr = s.tr := rfl
@[simp] theorem State.setEng_sys (s : State) (e : Eng) : (s.setEng e).sys = s.sys := rfl
@[simp] theorem State.setEng_spawns (s : State) (e : Eng) : (s.setEng e).spawns = s.spawns := rfl
@[simp] theorem State.setEng_ports (s : State) (e : Eng) : (s.setEng e).ports = s.ports := rfl
@[simp] theorem State.setEng_agenda (s : State) (e : Eng) : (s.setEng e).agenda = s.agenda := rfl
@[simp] theorem State.setEng_nextId (s : State) (e : Eng) : (s.setEng e).nextId = s.nextId := rfl
@[simp] theorem State.setEng_free (s : State) (e : Eng) : (s.setEng e).free = s.free := rfl

/-! ### addEng -/

@[simp] theorem State.addEng_tick (s : State) (e : Eng) : (s.addEng e).tick = s.tick := rfl
@[simp] theorem State.addEng_leases (s : State) (e : Eng) : (s.addEng e).leases = s.leases := rfl
@[simp] theorem State.addEng_mem (s : State) (e : Eng) : (s.addEng e).mem = s.mem := rfl
@[simp] theorem State.addEng_cores (s : State) (e : Eng) : (s.addEng e).cores = s.cores := rfl
@[simp] theorem State.addEng_groups (s : State) (e : Eng) : (s.addEng e).groups = s.groups := rfl
@[simp] theorem State.addEng_blocks (s : State) (e : Eng) : (s.addEng e).blocks = s.blocks := rfl
@[simp] theorem State.addEng_regions (s : State) (e : Eng) : (s.addEng e).regions = s.regions := rfl
@[simp] theorem State.addEng_ms (s : State) (e : Eng) : (s.addEng e).ms = s.ms := rfl
@[simp] theorem State.addEng_fab (s : State) (e : Eng) : (s.addEng e).fab = s.fab := rfl
@[simp] theorem State.addEng_tr (s : State) (e : Eng) : (s.addEng e).tr = s.tr := rfl
@[simp] theorem State.addEng_sys (s : State) (e : Eng) : (s.addEng e).sys = s.sys := rfl
@[simp] theorem State.addEng_spawns (s : State) (e : Eng) : (s.addEng e).spawns = s.spawns := rfl
@[simp] theorem State.addEng_ports (s : State) (e : Eng) : (s.addEng e).ports = s.ports := rfl
@[simp] theorem State.addEng_agenda (s : State) (e : Eng) : (s.addEng e).agenda = s.agenda := rfl
@[simp] theorem State.addEng_nextId (s : State) (e : Eng) : (s.addEng e).nextId = s.nextId := rfl
@[simp] theorem State.addEng_free (s : State) (e : Eng) : (s.addEng e).free = s.free := rfl

/-! ### dropEng -/

@[simp] theorem State.dropEng_tick (s : State) (e : Nat) : (s.dropEng e).tick = s.tick := rfl
@[simp] theorem State.dropEng_leases (s : State) (e : Nat) : (s.dropEng e).leases = s.leases := rfl
@[simp] theorem State.dropEng_mem (s : State) (e : Nat) : (s.dropEng e).mem = s.mem := rfl
@[simp] theorem State.dropEng_cores (s : State) (e : Nat) : (s.dropEng e).cores = s.cores := rfl
@[simp] theorem State.dropEng_groups (s : State) (e : Nat) : (s.dropEng e).groups = s.groups := rfl
@[simp] theorem State.dropEng_blocks (s : State) (e : Nat) : (s.dropEng e).blocks = s.blocks := rfl
@[simp] theorem State.dropEng_regions (s : State) (e : Nat) : (s.dropEng e).regions = s.regions := rfl
@[simp] theorem State.dropEng_ms (s : State) (e : Nat) : (s.dropEng e).ms = s.ms := rfl
@[simp] theorem State.dropEng_fab (s : State) (e : Nat) : (s.dropEng e).fab = s.fab := rfl
@[simp] theorem State.dropEng_tr (s : State) (e : Nat) : (s.dropEng e).tr = s.tr := rfl
@[simp] theorem State.dropEng_sys (s : State) (e : Nat) : (s.dropEng e).sys = s.sys := rfl
@[simp] theorem State.dropEng_spawns (s : State) (e : Nat) : (s.dropEng e).spawns = s.spawns := rfl
@[simp] theorem State.dropEng_ports (s : State) (e : Nat) : (s.dropEng e).ports = s.ports := rfl
@[simp] theorem State.dropEng_agenda (s : State) (e : Nat) : (s.dropEng e).agenda = s.agenda := rfl
@[simp] theorem State.dropEng_nextId (s : State) (e : Nat) : (s.dropEng e).nextId = s.nextId := rfl
@[simp] theorem State.dropEng_free (s : State) (e : Nat) : (s.dropEng e).free = s.free := rfl

/-! ### finish -/

@[simp] theorem State.finish_tick (s : State) (x : Cur) (G : Group) (K : Gang) : (s.finish x G K).tick = s.tick := rfl
@[simp] theorem State.finish_leases (s : State) (x : Cur) (G : Group) (K : Gang) : (s.finish x G K).leases = s.leases := rfl
@[simp] theorem State.finish_mem (s : State) (x : Cur) (G : Group) (K : Gang) : (s.finish x G K).mem = s.mem := rfl
@[simp] theorem State.finish_cores (s : State) (x : Cur) (G : Group) (K : Gang) : (s.finish x G K).cores = s.cores := rfl
@[simp] theorem State.finish_groups (s : State) (x : Cur) (G : Group) (K : Gang) :
    (s.finish x G K).groups = SMap.put s.groups x.g (G.putGang K) := rfl
@[simp] theorem State.finish_blocks (s : State) (x : Cur) (G : Group) (K : Gang) : (s.finish x G K).blocks = s.blocks := rfl
@[simp] theorem State.finish_regions (s : State) (x : Cur) (G : Group) (K : Gang) : (s.finish x G K).regions = s.regions := rfl
@[simp] theorem State.finish_ms (s : State) (x : Cur) (G : Group) (K : Gang) : (s.finish x G K).ms = s.ms := rfl
@[simp] theorem State.finish_eng (s : State) (x : Cur) (G : Group) (K : Gang) : (s.finish x G K).eng = s.eng := rfl
@[simp] theorem State.finish_fab (s : State) (x : Cur) (G : Group) (K : Gang) : (s.finish x G K).fab = s.fab := rfl
@[simp] theorem State.finish_tr (s : State) (x : Cur) (G : Group) (K : Gang) : (s.finish x G K).tr = s.tr := rfl
@[simp] theorem State.finish_sys (s : State) (x : Cur) (G : Group) (K : Gang) : (s.finish x G K).sys = s.sys := rfl
@[simp] theorem State.finish_spawns (s : State) (x : Cur) (G : Group) (K : Gang) : (s.finish x G K).spawns = s.spawns := rfl
@[simp] theorem State.finish_ports (s : State) (x : Cur) (G : Group) (K : Gang) : (s.finish x G K).ports = s.ports.tail := rfl
@[simp] theorem State.finish_agenda (s : State) (x : Cur) (G : Group) (K : Gang) : (s.finish x G K).agenda = s.agenda := rfl
@[simp] theorem State.finish_nextId (s : State) (x : Cur) (G : Group) (K : Gang) : (s.finish x G K).nextId = s.nextId := rfl
@[simp] theorem State.finish_free (s : State) (x : Cur) (G : Group) (K : Gang) : (s.finish x G K).free = s.free := rfl

/-! ### Reads of the maps -/

@[simp] theorem State.group?_putGroup (s : State) (g : Nat) (x : Group) : (s.putGroup g x).group? g = some x :=
  SMap.get?_put_self _ _ _
theorem State.group?_putGroup_ne (s : State) {g k : Nat} (x : Group) (h : k ≠ g) : (s.putGroup g x).group? k = s.group? k :=
  SMap.get?_put_ne _ _ h
@[simp] theorem State.block?_putBlock (s : State) (b : Nat) (x : Block) : (s.putBlock b x).block? b = some x :=
  SMap.get?_put_self _ _ _
theorem State.block?_putBlock_ne (s : State) {b k : Nat} (x : Block) (h : k ≠ b) : (s.putBlock b x).block? k = s.block? k :=
  SMap.get?_put_ne _ _ h
@[simp] theorem State.region?_putRegion (s : State) (r : Nat) (x : Region) : (s.putRegion r x).region? r = some x :=
  SMap.get?_put_self _ _ _
@[simp] theorem State.core_setCore (s : State) (c : Nat) (k : Core) : (s.setCore c k).core c = k :=
  SMap.getD_put_self _ _ _ _
theorem State.core_setCore_ne (s : State) {c d : Nat} (k : Core) (h : d ≠ c) : (s.setCore c k).core d = s.core d :=
  SMap.getD_put_ne _ _ _ h
@[simp] theorem State.group?_finish (s : State) (x : Cur) (G : Group) (K : Gang) :
    (s.finish x G K).group? x.g = some (G.putGang K) := SMap.get?_put_self _ _ _
theorem State.group?_finish_ne (s : State) (x : Cur) (G : Group) (K : Gang) {g : Nat} (h : g ≠ x.g) :
    (s.finish x G K).group? g = s.group? g := SMap.get?_put_ne _ _ h
@[simp] theorem State.group?_popPort (s : State) (g : Nat) : s.popPort.group? g = s.group? g := rfl
@[simp] theorem State.group?_fresh (s : State) (g : Nat) : s.fresh.group? g = s.group? g := rfl
@[simp] theorem State.group?_setCore (s : State) (c : Nat) (k : Core) (g : Nat) : (s.setCore c k).group? g = s.group? g := rfl
@[simp] theorem State.group?_putBlock (s : State) (b : Nat) (x : Block) (g : Nat) : (s.putBlock b x).group? g = s.group? g := rfl
@[simp] theorem State.block?_putGroup (s : State) (g : Nat) (x : Group) (b : Nat) : (s.putGroup g x).block? b = s.block? b := rfl
@[simp] theorem State.core_putGroup (s : State) (g : Nat) (x : Group) (c : Nat) : (s.putGroup g x).core c = s.core c := rfl

/-! ### Groups and gangs -/

@[simp] theorem Group.putGang_lanes (G : Group) (K : Gang) : (G.putGang K).lanes = G.lanes := rfl
@[simp] theorem Group.putGang_geo (G : Group) (K : Gang) : (G.putGang K).geo = G.geo := rfl
@[simp] theorem Group.putGang_gstat (G : Group) (K : Gang) : (G.putGang K).gstat = G.gstat := rfl
@[simp] theorem Group.putGang_flags (G : Group) (K : Gang) : (G.putGang K).flags = G.flags := rfl
@[simp] theorem Group.putGang_fregs (G : Group) (K : Gang) : (G.putGang K).fregs = G.fregs := rfl
@[simp] theorem Group.putGang_ops (G : Group) (K : Gang) : (G.putGang K).ops = G.ops := rfl
@[simp] theorem Group.putGang_evs (G : Group) (K : Gang) : (G.putGang K).evs = G.evs := rfl
@[simp] theorem Group.onLanes_gangs (G : Group) (m : Nat) (f : Nat → Lane → Lane) : (G.onLanes m f).gangs = G.gangs := rfl
@[simp] theorem Group.onLanes_geo (G : Group) (m : Nat) (f : Nat → Lane → Lane) : (G.onLanes m f).geo = G.geo := rfl
@[simp] theorem Group.onLanes_gstat (G : Group) (m : Nat) (f : Nat → Lane → Lane) : (G.onLanes m f).gstat = G.gstat := rfl
@[simp] theorem Group.stickIf_false (G : Group) (b : Nat) : G.stickIf false b = G := rfl
@[simp] theorem Group.stickIf_lanes (G : Group) (c : Bool) (b : Nat) : (G.stickIf c b).lanes = G.lanes := by
  cases c <;> rfl
@[simp] theorem Group.stickIf_gangs (G : Group) (c : Bool) (b : Nat) : (G.stickIf c b).gangs = G.gangs := by
  cases c <;> rfl
@[simp] theorem Group.stickIf_geo (G : Group) (c : Bool) (b : Nat) : (G.stickIf c b).geo = G.geo := by
  cases c <;> rfl

/-- A lane after a change of the lanes of a mask. -/
theorem Group.lane_onLanes (G : Group) (m : Nat) (f : Nat → Lane → Lane) (l : Nat) (hl : l < G.lanes.length) :
    (G.onLanes m f).lane l = if m.testBit l then f l (G.lane l) else G.lane l := by
  simp only [Group.onLanes, Group.lane, List.getElem?_map, List.getElem?_zipIdx, List.getElem?_eq_getElem hl]
  simp

/-- A lane that the mask leaves out is as it was. -/
theorem Group.lane_onLanes_out (G : Group) (m : Nat) (f : Nat → Lane → Lane) (l : Nat) (hl : m.testBit l = false) :
    (G.onLanes m f).lane l = G.lane l := by
  by_cases h : l < G.lanes.length
  · rw [lane_onLanes G m f l h]; simp [hl]
  · simp only [Group.onLanes, Group.lane, List.getElem?_map, List.getElem?_zipIdx,
      List.getElem?_eq_none (Nat.le_of_not_lt h)]
    rfl

/-! ### Lanes -/

@[simp] theorem Lane.val_set (L : Lane) (r v : Nat) : (L.set r v).val r = v % 2 ^ 64 := by
  simp [Lane.val, Lane.set, SMap.get?_put_self]
theorem Lane.val_set_ne (L : Lane) {r q : Nat} (v : Nat) (h : q ≠ r) : (L.set r v).val q = L.val q := by
  simp [Lane.val, Lane.set, SMap.get?_put_ne _ _ h]
@[simp] theorem Lane.freed_set (L : Lane) (r v : Nat) : (L.set r v).freed r = false := by
  simp [Lane.freed, Lane.set, SMap.get?_put_self]
@[simp] theorem Lane.preds_set (L : Lane) (r v : Nat) : (L.set r v).preds = L.preds := rfl
@[simp] theorem Lane.preds_free (L : Lane) (r : Nat) : (L.free r).preds = L.preds := rfl
@[simp] theorem Lane.regs_setPred (L : Lane) (p : Nat) (v : Bool) : (L.setPred p v).regs = L.regs := rfl

/-! ### Masks -/

theorem testBit_maskOf (l : List Nat) (i : Nat) : (maskOf l).testBit i = l.contains i := by
  suffices ∀ m : Nat, (l.foldl (fun m i => m ||| (1 <<< i)) m).testBit i = (m.testBit i || l.contains i) by
    simpa [maskOf] using this 0
  induction l with
  | nil => intro m; simp
  | cons a l ih =>
    intro m
    rw [List.foldl_cons, ih]
    simp only [Nat.testBit_or, Nat.testBit_shiftLeft, List.contains_cons]
    by_cases h : i = a
    · subst h; simp
    · have hb : (i == a) = false := by simpa using h
      have : (decide (a ≤ i) && (1 : Nat).testBit (i - a)) = false := by
        by_cases h2 : a ≤ i
        · have e : i - a = (i - a - 1) + 1 := by omega
          rw [e, Nat.testBit_succ]; simp
        · simp [h2]
      simp [this, hb]

theorem mem_bitsOf {m n i : Nat} : i ∈ bitsOf m n ↔ i < n ∧ m.testBit i = true := by simp [bitsOf]

/-- The bits below `n` of a mask make up the mask modulo 2^n. -/
theorem maskOf_bitsOf (m n : Nat) : maskOf (bitsOf m n) = m % 2 ^ n := by
  apply Nat.eq_of_testBit_eq
  intro i
  rw [testBit_maskOf, Nat.testBit_mod_two_pow]
  by_cases h1 : i < n <;> by_cases h2 : m.testBit i = true <;> simp [bitsOf, h1, h2]

end Sys2Proof.Machine
end

