-- ==== Sys2Proof/Laws/Home.lean ====
section
/-! SUPPORT. Bytes of memory at their homes: bringing a line under the key in force changes no byte that is read, a write
changes the bytes it stores and no other, and each keeps the canonical form. -/

namespace Sys2Proof.Machine

theorem lineOf_add_mod (a : Nat) : lineOf a + a % 128 = a := by simp only [lineOf]; omega
theorem lineOf_of_lt {l i : Nat} (h : i < 128) : lineOf (lineOf l + i) = lineOf l := by simp only [lineOf]; omega

/-- Whether an address is local, and its key, are the same throughout its line. -/
theorem isLocal_lineOf (s : State) {a b : Nat} (h : lineOf a = lineOf b) : s.isLocal a = s.isLocal b := by
  have h1 : a / 2 ^ 49 = b / 2 ^ 49 := by simp only [lineOf] at h; omega
  have h2 : a / 2 ^ 40 = b / 2 ^ 40 := by simp only [lineOf] at h; omega
  simp only [State.isLocal, paSpace, paDev, h1, h2]
theorem keyOf_lineOf (s : State) {a b : Nat} (h : lineOf a = lineOf b) : s.keyOf a = s.keyOf b := by
  have h1 : a / 4096 = b / 4096 := by simp only [lineOf] at h; omega
  simp only [State.keyOf, State.keySlotOf, h1]
theorem storedKey_lineOf (s : State) {a b : Nat} (h : lineOf a = lineOf b) : s.storedKey a = s.storedKey b := by
  simp only [State.storedKey, h]

/-- Byte i of `n` bytes read at the home. -/
theorem homeRead_byte (s : State) (a n i : Nat) (h : i < n) :
    BitVec.ofNat 8 (s.homeRead a n / 2 ^ (8 * i)) = s.homeByte (a + i) := by
  induction n generalizing a i with
  | zero => omega
  | succ n ih =>
    rw [State.homeRead]
    cases i with
    | zero =>
      apply BitVec.eq_of_toNat_eq
      have := (s.homeByte a).isLt
      simp only [Nat.mul_zero, Nat.pow_zero, Nat.div_one, BitVec.toNat_ofNat, Nat.add_zero]
      omega
    | succ i =>
      have e : ((s.homeByte a).toNat + 2 ^ 8 * s.homeRead (a + 1) n) / 2 ^ (8 * (i + 1)) = s.homeRead (a + 1) n / 2 ^ (8 * i) := by
        rw [show 8 * (i + 1) = 8 + 8 * i by omega, Nat.pow_add, ← Nat.div_div_eq_div_mul]
        have := (s.homeByte a).isLt
        congr 1; omega
      rw [e, ih (a + 1) i (by omega), show a + (i + 1) = a + 1 + i by omega]

/-- A byte whose line stands under the key in force reads as it is stored. -/
theorem homeByte_plain {s : State} {a : Nat} (h : s.isLocal a = false ∨ s.storedKey a = s.keyOf a) :
    s.homeByte a = Memory.byte s.mem a := by
  rcases h with h | h <;> simp [State.homeByte, h]

theorem rekeyLine_mem_wf (s : State) (a : Nat) (h : Memory.wf s.mem = true) : Memory.wf (s.rekeyLine a).mem = true := by
  simp only [State.rekeyLine]
  split
  · exact h
  · exact Memory.wf_writeN _ _ _ h

/-- What rekeying leaves: the line of `a` stands under its key. -/
theorem rekeyLine_plain (s : State) {a b : Nat} (hb : lineOf b = lineOf a) :
    (s.rekeyLine a).isLocal b = false ∨ (s.rekeyLine a).storedKey b = (s.rekeyLine a).keyOf b := by
  simp only [State.rekeyLine]
  split
  · rename_i h
    simp only [Bool.or_eq_true, Bool.not_eq_true', beq_iff_eq] at h
    rw [isLocal_lineOf s hb, storedKey_lineOf s hb, keyOf_lineOf s hb]
    exact h
  · right
    show SMap.getD (SMap.put s.ms.keyed (lineOf a) (s.keyOf a)) (lineOf b) 0 = s.keyOf b
    rw [hb, SMap.getD_put_self, keyOf_lineOf s hb]

/-- Rekeying a line changes no byte that is read. -/
theorem homeByte_rekeyLine (s : State) (a b : Nat) (h : Memory.wf s.mem = true) :
    (s.rekeyLine a).homeByte b = s.homeByte b := by
  by_cases hb : lineOf b = lineOf a
  · rw [homeByte_plain (rekeyLine_plain s hb)]
    simp only [State.rekeyLine]
    split
    · rename_i h'
      simp only [Bool.or_eq_true, Bool.not_eq_true', beq_iff_eq] at h'
      rw [homeByte_plain]
      rw [isLocal_lineOf s hb, storedKey_lineOf s hb, keyOf_lineOf s hb]
      exact h'
    · have e : b = lineOf a + b % 128 := by rw [← hb]; exact (lineOf_add_mod b).symm
      rw [e]
      show Memory.byte (Memory.writeN s.mem (lineOf a) 128 _) _ = _
      rw [Memory.byte_writeN_at _ _ _ _ (Nat.mod_lt _ (by decide)) h, homeRead_byte s _ _ _ (Nat.mod_lt _ (by decide))]
  · have hout (x : Nat) (hx : lineOf x ≠ lineOf a) (m : Memory) (hm : Memory.wf m = true) (v : Nat) :
        Memory.byte (Memory.writeN m (lineOf a) 128 v) x = Memory.byte m x := by
      apply Memory.byte_writeN_ne _ _ _ _ _ hm
      simp only [lineOf] at hx ⊢; omega
    simp only [State.rekeyLine]
    split
    · rfl
    · have hk : SMap.getD (SMap.put s.ms.keyed (lineOf a) (s.keyOf a)) (lineOf b) 0 = SMap.getD s.ms.keyed (lineOf b) 0 :=
        SMap.getD_put_ne _ _ _ hb
      have hr : ∀ n, n ≤ 16 → ∀ i, i + n = 16 →
          Memory.readN (Memory.writeN s.mem (lineOf a) 128 (s.homeRead (lineOf a) 128)) (b / 16 * 16 + i) n =
          Memory.readN s.mem (b / 16 * 16 + i) n := by
        intro n
        induction n with
        | zero => intros; rfl
        | succ n ih =>
          intro hn i hi
          rw [Memory.readN, Memory.readN, hout _ _ _ h, show b / 16 * 16 + i + 1 = b / 16 * 16 + (i + 1) by omega,
            ih (by omega) (i + 1) (by omega)]
          simp only [lineOf] at hb ⊢; omega
      have hr := hr 16 (by omega) 0 (by omega)
      rw [Nat.add_zero] at hr
      have key (k k' : Nat) (hk : k = k') (c : Bool) (f : Nat → Nat → Nat) :
          (if (c || k == s.keyOf b) = true then Memory.byte (Memory.writeN s.mem (lineOf a) 128 (s.homeRead (lineOf a) 128)) b
            else BitVec.ofNat 8 (f k (Memory.readN (Memory.writeN s.mem (lineOf a) 128 (s.homeRead (lineOf a) 128)) (b / 16 * 16) 16))) =
          (if (c || k' == s.keyOf b) = true then Memory.byte s.mem b
            else BitVec.ofNat 8 (f k' (Memory.readN s.mem (b / 16 * 16) 16))) := by
        rw [hk, hr, hout b hb _ h]
      exact key _ _ hk _ (fun k v => Crypto.recrypt k (s.keyOf b) (b / 16 * 16) v / 2 ^ (8 * (b % 16)))

theorem pokeN_mem_wf (s : State) (a n v : Nat) (h : Memory.wf s.mem = true) : Memory.wf (s.pokeN a n v).mem = true :=
  Memory.wf_writeN _ _ _ (rekeyLine_mem_wf s a h)

/-- A write of `n` bytes within a line stores them and changes no other byte. -/
theorem homeByte_pokeN (s : State) (a n v b : Nat) (hn : a % 128 + n ≤ 128) (h : Memory.wf s.mem = true) :
    (s.pokeN a n v).homeByte b = if a ≤ b ∧ b < a + n then .ofNat 8 (v / 2 ^ (8 * (b - a))) else s.homeByte b := by
  have hw := rekeyLine_mem_wf s a h
  by_cases hb : lineOf b = lineOf a
  · have hp : (s.pokeN a n v).homeByte b = Memory.byte (Memory.writeN (s.rekeyLine a).mem a n v) b :=
      homeByte_plain (s := s.pokeN a n v) (rekeyLine_plain s hb)
    rw [hp]
    split
    · rename_i hi
      have := Memory.byte_writeN_at (m := (s.rekeyLine a).mem) a v n (b - a) (by omega) hw
      rwa [show a + (b - a) = b by omega] at this
    · rw [Memory.byte_writeN_ne _ _ _ _ (by omega) hw, ← homeByte_plain (rekeyLine_plain s hb), homeByte_rekeyLine s a b h]
  · have hi : ¬(a ≤ b ∧ b < a + n) := by simp only [lineOf] at hb; omega
    rw [if_neg hi, ← homeByte_rekeyLine s a b h]
    have hb16 : ∀ i, i < 16 → (b / 16 * 16 + i < a ∨ a + n ≤ b / 16 * 16 + i) := by
      intro i hi; simp only [lineOf] at hb; omega
    have hout : Memory.byte (Memory.writeN (s.rekeyLine a).mem a n v) b = Memory.byte (s.rekeyLine a).mem b :=
      Memory.byte_writeN_ne _ _ _ _ (by omega) hw
    have hr : ∀ n', n' ≤ 16 → ∀ i, i + n' = 16 → Memory.readN (Memory.writeN (s.rekeyLine a).mem a n v) (b / 16 * 16 + i) n' =
        Memory.readN (s.rekeyLine a).mem (b / 16 * 16 + i) n' := by
      intro n'
      induction n' with
      | zero => intros; rfl
      | succ n' ih =>
        intro hn' i hi
        rw [Memory.readN, Memory.readN, Memory.byte_writeN_ne _ _ _ _ (hb16 i (by omega)) hw,
          show b / 16 * 16 + i + 1 = b / 16 * 16 + (i + 1) by omega, ih (by omega) (i + 1) (by omega)]
    have hr := hr 16 (by omega) 0 (by omega)
    rw [Nat.add_zero] at hr
    have key (t : State) (m : Memory) (c : Bool) (k : Nat) (f : Nat → Nat) (h1 : Memory.byte m b = Memory.byte t.mem b)
        (h2 : Memory.readN m (b / 16 * 16) 16 = Memory.readN t.mem (b / 16 * 16) 16) :
        (if c then Memory.byte m b else BitVec.ofNat 8 (f (Memory.readN m (b / 16 * 16) 16))) =
        (if c then Memory.byte t.mem b else BitVec.ofNat 8 (f (Memory.readN t.mem (b / 16 * 16) 16))) := by rw [h1, h2]
    exact key (s.rekeyLine a) _ _ 0 (fun v => Crypto.recrypt ((s.rekeyLine a).storedKey b) ((s.rekeyLine a).keyOf b) (b / 16 * 16) v / 2 ^ (8 * (b % 16))) hout hr

end Sys2Proof.Machine
end

