-- ==== Sys2Proof/Laws/Lane.lean ====
section
/-! SUPPORT. What the shared operations of lane and uniform instructions do, said once. -/

namespace Sys2Proof.Machine

/-- The gang that issues stands in its group, at the head of the ports. -/
theorem cur_some {s : State} {x : Cur} (h : cur s = some x) :
    s.group? x.g = some x.G ∧ x.G.gang? x.K.id = some x.K ∧ ∃ ps, s.ports = (x.g, x.K.id) :: ps := by
  simp only [cur] at h
  split at h
  · simp at h
  · rename_i g k ps hp
    split at h
    · simp at h
    · rename_i G hg
      simp only [Option.map_eq_some_iff] at h
      obtain ⟨K, hK, rfl⟩ := h
      have hid : K.id = k := by simpa using List.find?_some hK
      subst hid
      exact ⟨hg, hK, ps, hp⟩

/-- No active lane faults: no ligature has a fault either (R173). -/
theorem ligFault_none {G : Group} {act : Nat} {f : Nat → Option (Nat × Nat × Bool)}
    (h : ∀ l, act.testBit l = true → f l = none) (l : Nat) : ligFault G act f l = none := by
  simp only [ligFault, List.findSome?_eq_none_iff]
  intro i _
  split
  · rename_i h1; simp [h _ h1]
  · rfl

/-- A lane whose reads are correctable and whose effect is no fault does not fault. -/
theorem LaneOp.faultAt_none {op : LaneOp} {G : Group} {K : Gang} {act l : Nat}
    (hr : ∀ r ∈ op.reads G K l, r.bad = none) (hf : (op.eff G K act l).fault = none) : op.faultAt G K act l = none := by
  have : (op.reads G K l).find? (fun r => r.bad.isSome) = none := by
    rw [List.find?_eq_none]; intro r hr'; simp [hr r hr']
  simp [faultAt, this, hf]

/-- A lane instruction that traps and faults nowhere (R43, R115): its effect in every active lane. -/
theorem runLane_runs {op : LaneOp} {s : State} {x : Cur} (F : Form) (hc : cur s = some x)
    (hp : op.perms = F.perms) (hfr : op.frees = F.frees) (hrd : ∀ l, op.reads x.G x.K l = F.reads l)
    (hr : LaneRuns x op.hd F) (hf : ∀ l, (op.eff x.G x.K (actMask x.G x.K op.hd) l).fault = none) :
    runLane op s = laneEnd s x op.hd F
      ((bitsOf (actMask x.G x.K op.hd) 64).any fun l => (op.eff x.G x.K (actMask x.G x.K op.hd) l).domf)
      (fun l L => (op.eff x.G x.K (actMask x.G x.K op.hd) l).apply L) := by
  obtain ⟨h1, h2, h3⟩ := hr
  have hperm : op.perms.any (permBad x.G.geo.w) = false := by
    rw [hp, List.any_eq_false]; intro p hp'; simp [h1 p hp']
  have hlf : ∀ l, ligFault x.G (actMask x.G x.K op.hd) (op.faultAt x.G x.K (actMask x.G x.K op.hd)) l = none :=
    ligFault_none fun l hl => LaneOp.faultAt_none (by rw [hrd]; exact h3 l hl) (hf l)
  have ht : ∀ l : List Nat, l.filter (fun _ => true) = l := fun l => List.filter_eq_self.2 (by simp)
  simp [runLane, onCur, hc, hperm, h2, LaneOp.applyTo, LaneOp.applyOn, hlf, ht, maskOf_bitsOf, laneEnd, readsFreed, hfr, hrd,
    Lane.freeAll, Gang.adv]

/-- The same where no lane meets a domain fault. -/
theorem runLane_plain {op : LaneOp} {s : State} {x : Cur} (F : Form) (f : Nat → Lane → Lane) (hc : cur s = some x)
    (hp : op.perms = F.perms) (hfr : op.frees = F.frees) (hrd : ∀ l, op.reads x.G x.K l = F.reads l)
    (hr : LaneRuns x op.hd F) (hf : ∀ l, (op.eff x.G x.K (actMask x.G x.K op.hd) l).fault = none)
    (hd : ∀ l, (op.eff x.G x.K (actMask x.G x.K op.hd) l).domf = false)
    (he : ∀ l L, (op.eff x.G x.K (actMask x.G x.K op.hd) l).apply L = f l L) :
    runLane op s = laneEnd s x op.hd F false f := by
  have h0 : ∀ l : List Nat, (l.any fun _ => false) = false := by simp
  rw [runLane_runs F hc hp hfr hrd hr hf]
  simp only [hd, he, h0]

/-- A permutation that R66 forbids: ILLEGAL. -/
theorem runLane_illegal {op : LaneOp} {s : State} {x : Cur} (hc : cur s = some x)
    (h : op.perms.any (permBad x.G.geo.w) = true) : runLane op s = s.trap x 0x01 op.i.opc := by
  simp [runLane, onCur, hc, h]

/-- A guard that differs within a ligature: LIGDIV (R118). -/
theorem runLane_ligDiv {op : LaneOp} {s : State} {x : Cur} (hc : cur s = some x)
    (hp : op.perms.any (permBad x.G.geo.w) = false) (h : ligDiv x.G x.K op.hd = true) :
    runLane op s = s.trap x 0x0D op.i.opc := by
  simp [runLane, onCur, hc, hp, h]

/-- A lane instruction with no gang on a port does nothing. -/
theorem runLane_idle {op : LaneOp} {s : State} (hc : cur s = none) : runLane op s = s := by
  simp [runLane, onCur, hc]

/-- A uniform instruction whose checks and guard pass and whose sources are correctable: its effect (R44, R147). -/
theorem runU_runs {ll : Bool} {i : Instr} {h : Hd} {pre : Pre} {rs : List Reg} {s : State} {f : Cur → State} {x : Cur}
    (hc : cur s = some x) (hp : pre x = none) (hr : UniRuns x h rs) :
    runU ll i h pre rs s f = f { x with G := uniRead x rs } := by
  obtain ⟨h1, h2⟩ := hr
  simp [runU, onCur, hc, hp, h1, h2, uniRead]

/-- A uniform instruction whose guard fails only advances (R147). -/
theorem runUni_skip {i : Instr} {h : Hd} {pre : Pre} {rs : List Reg} {s : State} {f : Cur → State} {x : Cur}
    (hc : cur s = some x) (hp : pre x = none) (hg : uniGuard x.G x.K h = false) :
    runUni i h pre rs s f = s.doneP x h x.G := by
  simp [runUni, runU, onCur, hc, hp, hg, State.doneP]

/-- A uniform instruction with no gang on a port does nothing. -/
theorem runU_idle {ll : Bool} {i : Instr} {h : Hd} {pre : Pre} {rs : List Reg} {s : State} {f : Cur → State}
    (hc : cur s = none) : runU ll i h pre rs s f = s := by
  simp [runU, onCur, hc]

/-- A lane instruction's operation is the instruction's own, under its header. -/
theorem laneOpOf_same {k : Core} {G : Group} {i : Instr} {op : LaneOp} (h : laneOpOf k G i = some op) :
    op.i = i ∧ op.hd = i.hd := by
  cases i <;> simp only [laneOpOf, Option.some.injEq, reduceCtorEq] at h <;> subst h <;> exact ⟨rfl, rfl⟩

/-- A lane instruction runs its operation, unless its transformed-mean pair is being loaded. -/
theorem exec_lane {s : State} {x : Cur} {i : Instr} {op : LaneOp} (hc : cur s = some x)
    (h : laneOpOf (s.core x.G.geo.core) x.G i = some op) (hb : tmBusy s x.G = false) : exec i s = .next (runLane op s) := by
  have run (f : Tab → LaneOp) : runTm f s = runLane (f (tabOf (s.core x.G.geo.core) x.G.tmshape)) s := by
    simp [runTm, onCur, hc, hb]
  cases i <;> simp only [laneOpOf, Option.some.injEq, reduceCtorEq] at h <;> subst h
  case tmacc => exact congrArg _ (run _)
  case tmred => exact congrArg _ (run _)
  case tmfin => exact congrArg _ (run _)
  all_goals rfl

/-- While its pair is being loaded, a transformed-mean instruction is held; any other lane instruction runs. -/
theorem exec_lane_busy {s : State} {x : Cur} {i : Instr} {op : LaneOp} (hc : cur s = some x)
    (h : laneOpOf (s.core x.G.geo.core) x.G i = some op) (hb : tmBusy s x.G = true) :
    exec i s = .next s.heldAtIssue ∨ exec i s = .next (runLane op s) := by
  have run (f : Tab → LaneOp) : runTm f s = s.heldAtIssue := by simp [runTm, onCur, hc, hb]
  cases i <;> simp only [laneOpOf, Option.some.injEq, reduceCtorEq] at h <;> subst h
  case tmacc => exact .inl (congrArg _ (run _))
  case tmred => exact .inl (congrArg _ (run _))
  case tmfin => exact .inl (congrArg _ (run _))
  all_goals exact .inr rfl

/-! ### The effect of a lane operation in its group -/

/-- The lanes in which an operation has its effect: those of `on` whose ligature has no fault. -/
def LaneOp.okMask (op : LaneOp) (G : Group) (K : Gang) (act on : Nat) : Nat :=
  maskOf ((bitsOf on 64).filter fun l => (ligFault G act (op.faultAt G K act) l).isNone)

theorem Group.stickIf_stickIf (G : Group) (a b : Bool) : ∃ (n : Nat) (w : List PendWr),
    (G.stickIf a freedBit).stickIf b domBit = { G with gstat := G.gstat ||| n, stuck := G.stuck ||| n, wr := w } ∧
    n ||| freedBit ||| domBit = freedBit ||| domBit := by
  cases a <;> cases b
  · exact ⟨0, G.wr, by simp [Group.stickIf], by decide⟩
  · exact ⟨domBit, _, rfl, by decide⟩
  · exact ⟨freedBit, _, rfl, by decide⟩
  · refine ⟨freedBit ||| domBit, ((G.stick freedBit).stick domBit).wr, ?_, by decide⟩
    rw [← Nat.or_assoc, ← Nat.or_assoc]; rfl

/-- What a lane operation leaves of its group, fault or none. -/
theorem LaneOp.applyOn_group (op : LaneOp) (G : Group) (K : Gang) (act on pc tick id : Nat) :
    ∃ (n : Nat) (w : List PendWr) (os : List Op),
      (op.applyOn G K act on pc tick id).1 = { G with
        lanes := (G.onLanes (op.okMask G K act on) fun l L =>
          (op.eff G K act l).apply (L.freeAll K.depth op.frees)).lanes
        gstat := G.gstat ||| n
        stuck := G.stuck ||| n
        wr := w
        ops := os } ∧
      n ||| freedBit ||| domBit = freedBit ||| domBit := by
  obtain ⟨n, w, hw, hn⟩ := Group.stickIf_stickIf
    (G.onLanes (op.okMask G K act on) fun l L => (op.eff G K act l).apply (L.freeAll K.depth op.frees))
    ((bitsOf on 64).any fun l => (op.reads G K l).any fun r => r.freed)
    (((bitsOf on 64).filter fun l => (ligFault G act (op.faultAt G K act) l).isNone).any fun l => (op.eff G K act l).domf)
  have key (X Y : Group) (o : Op) (c : Bool) (m : Nat) (h : X = Y) :
      ∃ os, (if c then (X, 0) else (X.addOp o, m)).1 = { Y with ops := os } := by
    subst h; cases c
    · exact ⟨X.ops ++ [o], rfl⟩
    · exact ⟨X.ops, rfl⟩
  obtain ⟨os, h⟩ := key _ _ _ _ _ hw
  exact ⟨n, w, os, h, hn⟩

/-! ### What results leave alone -/

theorem foldl_set_regs (l : List (Nat × Nat)) (L : Lane) (row : Nat) (h : row ∉ l.map (·.1)) :
    SMap.get? (l.foldl (fun L e => L.set e.1 e.2) L).regs row = SMap.get? L.regs row := by
  induction l generalizing L with
  | nil => rfl
  | cons e l ih =>
    simp only [List.map_cons, List.mem_cons, not_or] at h
    rw [List.foldl_cons, ih _ h.2]
    exact SMap.get?_put_ne _ _ h.1
theorem foldl_setPred_regs (l : List (Nat × Bool)) (L : Lane) :
    (l.foldl (fun L e => L.setPred e.1 e.2) L).regs = L.regs := by
  induction l generalizing L with
  | nil => rfl
  | cons e l ih => rw [List.foldl_cons, ih]; rfl
theorem foldl_set_preds (l : List (Nat × Nat)) (L : Lane) : (l.foldl (fun L e => L.set e.1 e.2) L).preds = L.preds := by
  induction l generalizing L with
  | nil => rfl
  | cons e l ih => rw [List.foldl_cons, ih]; rfl
theorem freeAll_regs (D : Nat) (rs : List Reg) (L : Lane) (row : Nat) (h : row ∉ rs.map (rowOf D)) (hs : SMap.sorted L.regs = true) :
    SMap.get? (L.freeAll D rs).regs row = SMap.get? L.regs row ∧ SMap.sorted (L.freeAll D rs).regs = true := by
  induction rs generalizing L with
  | nil => exact ⟨rfl, hs⟩
  | cons e l ih =>
    simp only [List.map_cons, List.mem_cons, not_or] at h
    have := ih (L.free (rowOf D e)) h.2 (SMap.sorted_del _ hs)
    exact ⟨this.1.trans (SMap.get?_del_ne h.1 hs), this.2⟩
theorem freeAll_preds (D : Nat) (rs : List Reg) (L : Lane) : (L.freeAll D rs).preds = L.preds := by
  induction rs generalizing L with
  | nil => rfl
  | cons e l ih => exact (ih (L.free (rowOf D e))).trans rfl

/-- A predicate that is written leaves every other one alone, and reads as written. -/
theorem testBit_setPred (L : Lane) {p q : Nat} (v : Bool) (hp : p < 16) (hq : q < 16) :
    (L.setPred p v).preds.toNat.testBit q = if q = p then v else L.preds.toNat.testBit q := by
  have e : L.preds.toNat % 2 ^ p + v.toNat * 2 ^ p + L.preds.toNat / 2 ^ (p + 1) * 2 ^ (p + 1) =
      2 ^ (p + 1) * (L.preds.toNat / 2 ^ (p + 1)) + (2 ^ p * v.toNat + L.preds.toNat % 2 ^ p) := by
    rw [Nat.mul_comm (2 ^ (p + 1)), Nat.mul_comm (2 ^ p)]; omega
  have h1 : L.preds.toNat % 2 ^ p < 2 ^ p := Nat.mod_lt _ (Nat.two_pow_pos p)
  have h2 : 2 ^ p * v.toNat + L.preds.toNat % 2 ^ p < 2 ^ (p + 1) := by
    rw [Nat.pow_succ]; cases v <;> simp <;> omega
  simp only [Lane.setPred, BitVec.toNat_ofNat, Nat.testBit_mod_two_pow, hq, decide_true, Bool.true_and]
  rw [e, Nat.testBit_two_pow_mul_add _ h2, Nat.testBit_two_pow_mul_add _ h1, Nat.testBit_mod_two_pow, Nat.testBit_div_two_pow]
  by_cases h : q = p
  · subst h; simp; cases v <;> rfl
  · by_cases h' : q < p
    · have : q < p + 1 := by omega
      simp [h, h', this]
    · have : ¬ q < p + 1 := by omega
      simp [h, this, show q - (p + 1) + (p + 1) = q by omega]

theorem foldl_setPred_ne (l : List (Nat × Bool)) (L : Lane) {q : Nat} (hq : q < 16) (h : ∀ e ∈ l, e.1 < 16 ∧ e.1 ≠ q) :
    (l.foldl (fun L e => L.setPred e.1 e.2) L).preds.toNat.testBit q = L.preds.toNat.testBit q := by
  induction l generalizing L with
  | nil => rfl
  | cons e l ih =>
    rw [List.foldl_cons, ih _ fun e' he' => h e' (List.mem_cons_of_mem _ he')]
    have := h e List.mem_cons_self
    rw [testBit_setPred L e.2 this.1 hq, if_neg fun h' => this.2 h'.symm]

/-- The rows of a lane's result are those of its instruction. -/
theorem eff_rows {k : Core} {G : Group} {i : Instr} {op : LaneOp} (h : laneOpOf k G i = some op) (G' : Group) (K : Gang)
    (act l : Nat) {row : Nat} (hn : row ∉ laneRows K.depth i) : row ∉ (op.eff G' K act l).regs.map (·.1) := by
  have ite (c : Bool) (A B : LaneRes) (hA : row ∉ A.regs.map (·.1)) (hB : row ∉ B.regs.map (·.1)) :
      row ∉ (if c then A else B).regs.map (·.1) := by cases c <;> assumption
  cases i <;> simp only [laneOpOf, Option.some.injEq, reduceCtorEq] at h <;> subst h
  case tmacc => exact ite _ _ _ (by simp [LaneRes.flt]) hn
  all_goals exact hn

/-- The predicate of a lane's result is that of its instruction. -/
theorem eff_preds {k : Core} {G : Group} {i : Instr} {op : LaneOp} (h : laneOpOf k G i = some op) (G' : Group) (K : Gang)
    (act l : Nat) {p : Prd} (hn : lanePrd i ≠ some p) : ∀ e ∈ (op.eff G' K act l).preds, e.1 < 16 ∧ e.1 ≠ p.toNat := by
  have ite (c : Bool) (A B : LaneRes) (hA : A.preds = []) (hB : B.preds = []) :
      ∀ e ∈ (if c then A else B).preds, e.1 < 16 ∧ e.1 ≠ p.toNat := by cases c <;> simp [*]
  have one (q : Prd) (v : Bool) (hq : (some q : Option Prd) ≠ some p) : ∀ e ∈ [(q.toNat, v)], e.1 < 16 ∧ e.1 ≠ p.toNat := by
    intro e he; simp only [List.mem_singleton] at he; subst he
    exact ⟨q.isLt, fun h => hq (congrArg some (BitVec.eq_of_toNat_eq h))⟩
  cases i <;> simp only [laneOpOf, Option.some.injEq, reduceCtorEq] at h <;> subst h
  case tmacc => exact ite _ _ _ rfl rfl
  all_goals first
    | exact one _ _ hn
    | exact fun e he => absurd he List.not_mem_nil

/-! ### Reads of a uniform instruction do not depend on FREEDREAD -/

theorem uVal_read (x : Cur) (rs : List Reg) (r : Reg) : uVal { x with G := uniRead x rs } r = uVal x r := by
  simp only [uVal, uRd, readReg, Group.lane, uniRead, Group.stickIf_lanes]
theorem uFreed_read (x : Cur) (rs : List Reg) (r : Reg) : uFreed { x with G := uniRead x rs } r = uFreed x r := by
  simp only [uFreed, uRd, readReg, Group.lane, uniRead, Group.stickIf_lanes]
theorem uopV_read (x : Cur) (rs : List Reg) (b : UOp) : uopV { x with G := uniRead x rs } b = uopV x b := by
  cases b
  · exact uVal_read _ _ _
  · rfl

/-- Setting a sticky bit twice is setting it once. -/
theorem Group.stickIf_same (G : Group) (c : Bool) (b : Nat) : (G.stickIf c b).stickIf c b = G.stickIf c b := by
  cases c
  · rfl
  · simp only [Group.stickIf, Group.stick, if_true, Nat.or_assoc, Nat.or_self, List.map_map]
    congr 1
    apply List.map_congr_left
    intro w _
    by_cases h : w.sr = 6 <;> simp [h, Nat.or_assoc]

end Sys2Proof.Machine
end

