-- ==== Sys2Proof/Laws/PerInstr.lean ====
section
/-! SUPPORT. The family Encoding: what each instruction of Syntax says about its words. -/

set_option linter.unusedSimpArgs false
set_option linter.constructorNameAsVariable false

namespace Sys2Proof.Laws.Encoding

set_option Elab.async false

/-- The words of a well-formed instruction decode to it: its word and extension word fit in 32 bits each, bit 0 of the
word says whether the extension word follows (R76), and without one every extension field is zero (R78). -/
def Statement (i : Instr) : Prop :=
  i.wf = true → ∀ l, i.layout = some l →
    decodeWords l.w0 l.ext = .ok i ∧ l.w0 < 2 ^ 32 ∧ l.ext < 2 ^ 32 ∧ l.w0 % 2 = l.hd.x.toNat ∧ (l.hd.x = false → l.ext = 0)

/-- The part's own events have no words. -/
theorem event {i : Instr} (h : i.layout = none) : Statement i := by
  intro hw; simp [Instr.wf, h] at hw

theorem wf_parts {i : Instr} {l : Layout} (hl : i.layout = some l) (hw : i.wf = true) :
    (l.hd.x = false → l.cls ≠ .none → l.ext = 0) ∧ i.opsOk = true := by
  simp only [Instr.wf, hl, Bool.and_eq_true] at hw
  refine ⟨fun hx hc => ?_, hw.2⟩
  have h1 := hw.1.2
  unfold Layout.xOk at h1
  split at h1 <;> simp_all

theorem field_lt (b : BOp) : b.field < 32 := by
  cases b with
  | reg s => exact s.r.isLt
  | imm k v => exact Nat.zero_lt_succ _
theorem ufield_lt (b : UOp) : b.field < 32 := by
  cases b with
  | reg s => exact s.isLt
  | imm v => exact Nat.zero_lt_succ _
theorem lt31 {x : Nat} (h : x < 2 ^ 31) : x < 2 ^ 32 := by omega
theorem lt24 {x : Nat} (h : x < 2 ^ 24) : x < 2 ^ 32 := by omega
theorem od_sw (k : BitVec 3) : Fields.od3 (BitVec.setWidth 5 k) = k := by
  apply BitVec.eq_of_toNat_eq
  have := k.isLt
  simp [Fields.od3, BitVec.toNat_setWidth]; omega
theorem spec_all (k : CvtPair) (nan : Bool) :
    k.spec nan < 64 ∧ CvtPair.ofSpec (k.spec nan) = k ∧ (k.spec nan / 32 % 2 == 1) = nan := by
  rcases k with ⟨x, y⟩ | ⟨x, y⟩ | ⟨x, y⟩ <;> cases x <;> cases y <;> cases nan <;> decide
theorem cvtef_all (d : FF) (nan : Bool) : FF.ofCode ((CvtPair.ff d .s).spec nan / 4 % 4) = d := by
  cases d <;> cases nan <;> decide
theorem bit_eq {n : Nat} {b : Bool} (h : n = b.toNat) : (n == 1) = b := by subst h; exact bool_eq b

section
variable (o : Nat) (h : Hd) (d a b e : Nat) (la lb : Bool)
@[simp] theorem fieldsOf_pd : (fieldsOf o h d a la b lb e).pd = .ofNat 4 (BitVec.ofNat 5 d).toNat := rfl
@[simp] theorem fieldsOf_pa : (fieldsOf o h d a la b lb e).pa = .ofNat 4 (BitVec.ofNat 5 a).toNat := rfl
@[simp] theorem fieldsOf_pb : (fieldsOf o h d a la b lb e).pb = .ofNat 4 (BitVec.ofNat 5 b).toNat := rfl
@[simp] theorem fieldsOf_pq : (fieldsOf o h d a la b lb e).pq = .ofNat 4 (fieldsOf o h d a la b lb e).spec := rfl
@[simp] theorem fieldsOf_rlA : (fieldsOf o h d a la b lb e).rlA = ⟨.ofNat 5 a, la⟩ := rfl
@[simp] theorem fieldsOf_rlB : (fieldsOf o h d a la b lb e).rlB = ⟨.ofNat 5 b, lb⟩ := rfl
@[simp] theorem fieldsOf_off : (fieldsOf o h d a la b lb e).off = .ofNat 24 e := rfl
@[simp] theorem fieldsOf_opc : (fieldsOf o h d a la b lb e).opc = o := rfl
@[simp] theorem fieldsOf_h : (fieldsOf o h d a la b lb e).h = h := rfl
@[simp] theorem fieldsOf_d : (fieldsOf o h d a la b lb e).d = .ofNat 5 d := rfl
@[simp] theorem fieldsOf_a : (fieldsOf o h d a la b lb e).a = .ofNat 5 a := rfl
@[simp] theorem fieldsOf_la : (fieldsOf o h d a la b lb e).la = la := rfl
@[simp] theorem fieldsOf_b : (fieldsOf o h d a la b lb e).b = .ofNat 5 b := rfl
@[simp] theorem fieldsOf_lb : (fieldsOf o h d a la b lb e).lb = lb := rfl
@[simp] theorem fieldsOf_e : (fieldsOf o h d a la b lb e).e = e := rfl
end

theorem iadd (h : Hd) (t : ET) (sat : Sat) (d : Reg) (a : Src) (b : BOp) : Statement (.iadd h t sat d a b) := by
  intro hw l hl
  obtain ⟨hx, ho⟩ := wf_parts hl hw
  cases t
  all_goals try (simp [Instr.opsOk] at ho; done)
  all_goals
    cases hl
    have := d.isLt
    have := a.r.isLt
    have := sat_lt sat
    have hp : ∀ k v, b = .imm k v → a.perm = 0 := by intro k v e; subst e; cases k <;> simp_all [Instr.opsOk, BOp.intOk, BOp.fltOk]
    refine decode_of rfl hw rfl (by decide) (by omega) (by omega) (field_lt b) (oi_lt (by omega) (by omega)) (fun hh => hx hh (fun q => nomatch q)) (by decide) ?_
    have oi0 := fun O D => (@oi_all O h D a b (sat.code) (0) (by omega) (by omega) hp).1
    have oi1 := fun O D => (@oi_all O h D a b (sat.code) (0) (by omega) (by omega) hp).2.1
    have oi2 := fun O D => (@oi_all O h D a b (sat.code) (0) (by omega) (by omega) hp).2.2.1
    have oi3 := fun O D => (@oi_all O h D a b (sat.code) (0) (by omega) (by omega) hp).2.2.2
    simp [-BitVec.toNat_ofNat, Fields.instr, Fields.laneInt, oi0, oi1, oi2, oi3, ET.code, ET.wdCode, ET.hwdCode, FT.code, FT.hsCode, MSz.code, RT.code, MT.code, ET.ofCode, ET.wd, ET.hwd, FT.ofCode, FT.hs, MSz.ofCode, RT.ofCode, MT.ofCode]
theorem isub (h : Hd) (t : ET) (sat : Sat) (d : Reg) (a : Src) (b : BOp) : Statement (.isub h t sat d a b) := by
  intro hw l hl
  obtain ⟨hx, ho⟩ := wf_parts hl hw
  cases t
  all_goals try (simp [Instr.opsOk] at ho; done)
  all_goals
    cases hl
    have := d.isLt
    have := a.r.isLt
    have := sat_lt sat
    have hp : ∀ k v, b = .imm k v → a.perm = 0 := by intro k v e; subst e; cases k <;> simp_all [Instr.opsOk, BOp.intOk, BOp.fltOk]
    refine decode_of rfl hw rfl (by decide) (by omega) (by omega) (field_lt b) (oi_lt (by omega) (by omega)) (fun hh => hx hh (fun q => nomatch q)) (by decide) ?_
    have oi0 := fun O D => (@oi_all O h D a b (sat.code) (0) (by omega) (by omega) hp).1
    have oi1 := fun O D => (@oi_all O h D a b (sat.code) (0) (by omega) (by omega) hp).2.1
    have oi2 := fun O D => (@oi_all O h D a b (sat.code) (0) (by omega) (by omega) hp).2.2.1
    have oi3 := fun O D => (@oi_all O h D a b (sat.code) (0) (by omega) (by omega) hp).2.2.2
    simp [-BitVec.toNat_ofNat, Fields.instr, Fields.laneInt, oi0, oi1, oi2, oi3, ET.code, ET.wdCode, ET.hwdCode, FT.code, FT.hsCode, MSz.code, RT.code, MT.code, ET.ofCode, ET.wd, ET.hwd, FT.ofCode, FT.hs, MSz.ofCode, RT.ofCode, MT.ofCode]
theorem imul (h : Hd) (t : ET) (d : Reg) (a : Src) (b : BOp) : Statement (.imul h t d a b) := by
  intro hw l hl
  obtain ⟨hx, ho⟩ := wf_parts hl hw
  cases t
  all_goals try (simp [Instr.opsOk] at ho; done)
  all_goals
    cases hl
    have := d.isLt
    have := a.r.isLt
    have hp : ∀ k v, b = .imm k v → a.perm = 0 := by intro k v e; subst e; cases k <;> simp_all [Instr.opsOk, BOp.intOk, BOp.fltOk]
    refine decode_of rfl hw rfl (by decide) (by omega) (by omega) (field_lt b) (oi_lt (by omega) (by omega)) (fun hh => hx hh (fun q => nomatch q)) (by decide) ?_
    have oi0 := fun O D => (@oi_all O h D a b (0) (0) (by omega) (by omega) hp).1
    have oi1 := fun O D => (@oi_all O h D a b (0) (0) (by omega) (by omega) hp).2.1
    have oi2 := fun O D => (@oi_all O h D a b (0) (0) (by omega) (by omega) hp).2.2.1
    have oi3 := fun O D => (@oi_all O h D a b (0) (0) (by omega) (by omega) hp).2.2.2
    simp [-BitVec.toNat_ofNat, Fields.instr, Fields.laneInt, oi0, oi1, oi2, oi3, ET.code, ET.wdCode, ET.hwdCode, FT.code, FT.hsCode, MSz.code, RT.code, MT.code, ET.ofCode, ET.wd, ET.hwd, FT.ofCode, FT.hs, MSz.ofCode, RT.ofCode, MT.ofCode]
theorem imulhu (h : Hd) (d : Reg) (a : Src) (b : BOp) : Statement (.imulhu h d a b) := by
  intro hw l hl
  obtain ⟨hx, ho⟩ := wf_parts hl hw
  cases hl
  have := d.isLt
  have := a.r.isLt
  have hp : ∀ k v, b = .imm k v → a.perm = 0 := by intro k v e; subst e; cases k <;> simp_all [Instr.opsOk, BOp.intOk, BOp.fltOk]
  refine decode_of rfl hw rfl (by decide) (by omega) (by omega) (field_lt b) (oi_lt (by omega) (by omega)) (fun hh => hx hh (fun q => nomatch q)) (by decide) ?_
  have oi0 := fun O D => (@oi_all O h D a b (0) (0) (by omega) (by omega) hp).1
  have oi1 := fun O D => (@oi_all O h D a b (0) (0) (by omega) (by omega) hp).2.1
  have oi2 := fun O D => (@oi_all O h D a b (0) (0) (by omega) (by omega) hp).2.2.1
  have oi3 := fun O D => (@oi_all O h D a b (0) (0) (by omega) (by omega) hp).2.2.2
  simp [-BitVec.toNat_ofNat, Fields.instr, Fields.laneInt, oi0, oi1, oi2, oi3]
theorem imulhs (h : Hd) (d : Reg) (a : Src) (b : BOp) : Statement (.imulhs h d a b) := by
  intro hw l hl
  obtain ⟨hx, ho⟩ := wf_parts hl hw
  cases hl
  have := d.isLt
  have := a.r.isLt
  have hp : ∀ k v, b = .imm k v → a.perm = 0 := by intro k v e; subst e; cases k <;> simp_all [Instr.opsOk, BOp.intOk, BOp.fltOk]
  refine decode_of rfl hw rfl (by decide) (by omega) (by omega) (field_lt b) (oi_lt (by omega) (by omega)) (fun hh => hx hh (fun q => nomatch q)) (by decide) ?_
  have oi0 := fun O D => (@oi_all O h D a b (0) (0) (by omega) (by omega) hp).1
  have oi1 := fun O D => (@oi_all O h D a b (0) (0) (by omega) (by omega) hp).2.1
  have oi2 := fun O D => (@oi_all O h D a b (0) (0) (by omega) (by omega) hp).2.2.1
  have oi3 := fun O D => (@oi_all O h D a b (0) (0) (by omega) (by omega) hp).2.2.2
  simp [-BitVec.toNat_ofNat, Fields.instr, Fields.laneInt, oi0, oi1, oi2, oi3]
theorem imad (h : Hd) (t : ET) (d : Reg) (a : Src) (b : Src) (c : RL) : Statement (.imad h t d a b c) := by
  intro hw l hl
  obtain ⟨hx, ho⟩ := wf_parts hl hw
  cases t
  all_goals try (simp [Instr.opsOk] at ho; done)
  all_goals
    cases hl
    have := d.isLt
    have := a.r.isLt
    have := b.r.isLt
    have := c.r.isLt
    have := a.perm.isLt
    have := b.perm.isLt
    refine decode_of rfl hw rfl (by decide) (by omega) (by omega) (by omega) (lt31 (eo_lt (by omega) (by omega) (by omega) (by omega) (by omega))) (fun hh => hx hh (fun q => nomatch q)) (by decide) ?_
    have e1 := fun O D A LA B LB => @eo_spec O h D A B LA LB c.r.toNat (a.perm.toNat) (b.perm.toNat) (0) (0) c.last (by omega) (by omega)
    have e2 := fun O D A LA B LB => @eo_mode O h D A B LA LB c.r.toNat (a.perm.toNat) (b.perm.toNat) (0) (0) c.last (by omega)
    have e3 := fun O D B LB => @eo_srcA O h D B LB c.r.toNat (0) (0) c.last a b.perm (by omega) (by omega)
    have e4 := fun O D A LA => @eo_srcB O h D A LA c.r.toNat (0) (0) (a.perm.toNat) c.last b (by omega) (by omega)
    have e5 := fun O D A LA B LB => @eo_rlC O h D A B LA LB (0) (0) c a.perm b.perm (by omega) (by omega)
    simp [-BitVec.toNat_ofNat, Fields.instr, Fields.laneInt, e1, e2, e3, e4, e5, ET.code, ET.wdCode, ET.hwdCode, FT.code, FT.hsCode, MSz.code, RT.code, MT.code, ET.ofCode, ET.wd, ET.hwd, FT.ofCode, FT.hs, MSz.ofCode, RT.ofCode, MT.ofCode]
theorem imin (h : Hd) (t : ET) (d : Reg) (a : Src) (b : BOp) : Statement (.imin h t d a b) := by
  intro hw l hl
  obtain ⟨hx, ho⟩ := wf_parts hl hw
  cases t
  all_goals try (simp [Instr.opsOk] at ho; done)
  all_goals
    cases hl
    have := d.isLt
    have := a.r.isLt
    have hp : ∀ k v, b = .imm k v → a.perm = 0 := by intro k v e; subst e; cases k <;> simp_all [Instr.opsOk, BOp.intOk, BOp.fltOk]
    refine decode_of rfl hw rfl (by decide) (by omega) (by omega) (field_lt b) (oi_lt (by omega) (by omega)) (fun hh => hx hh (fun q => nomatch q)) (by decide) ?_
    have oi0 := fun O D => (@oi_all O h D a b (0) (0) (by omega) (by omega) hp).1
    have oi1 := fun O D => (@oi_all O h D a b (0) (0) (by omega) (by omega) hp).2.1
    have oi2 := fun O D => (@oi_all O h D a b (0) (0) (by omega) (by omega) hp).2.2.1
    have oi3 := fun O D => (@oi_all O h D a b (0) (0) (by omega) (by omega) hp).2.2.2
    simp [-BitVec.toNat_ofNat, Fields.instr, Fields.laneInt, oi0, oi1, oi2, oi3, ET.code, ET.wdCode, ET.hwdCode, FT.code, FT.hsCode, MSz.code, RT.code, MT.code, ET.ofCode, ET.wd, ET.hwd, FT.ofCode, FT.hs, MSz.ofCode, RT.ofCode, MT.ofCode]
theorem imax (h : Hd) (t : ET) (d : Reg) (a : Src) (b : BOp) : Statement (.imax h t d a b) := by
  intro hw l hl
  obtain ⟨hx, ho⟩ := wf_parts hl hw
  cases t
  all_goals try (simp [Instr.opsOk] at ho; done)
  all_goals
    cases hl
    have := d.isLt
    have := a.r.isLt
    have hp : ∀ k v, b = .imm k v → a.perm = 0 := by intro k v e; subst e; cases k <;> simp_all [Instr.opsOk, BOp.intOk, BOp.fltOk]
    refine decode_of rfl hw rfl (by decide) (by omega) (by omega) (field_lt b) (oi_lt (by omega) (by omega)) (fun hh => hx hh (fun q => nomatch q)) (by decide) ?_
    have oi0 := fun O D => (@oi_all O h D a b (0) (0) (by omega) (by omega) hp).1
    have oi1 := fun O D => (@oi_all O h D a b (0) (0) (by omega) (by omega) hp).2.1
    have oi2 := fun O D => (@oi_all O h D a b (0) (0) (by omega) (by omega) hp).2.2.1
    have oi3 := fun O D => (@oi_all O h D a b (0) (0) (by omega) (by omega) hp).2.2.2
    simp [-BitVec.toNat_ofNat, Fields.instr, Fields.laneInt, oi0, oi1, oi2, oi3, ET.code, ET.wdCode, ET.hwdCode, FT.code, FT.hsCode, MSz.code, RT.code, MT.code, ET.ofCode, ET.wd, ET.hwd, FT.ofCode, FT.hs, MSz.ofCode, RT.ofCode, MT.ofCode]
theorem andV (h : Hd) (d : Reg) (a : Src) (b : BOp) : Statement (.andV h d a b) := by
  intro hw l hl
  obtain ⟨hx, ho⟩ := wf_parts hl hw
  cases hl
  have := d.isLt
  have := a.r.isLt
  have hp : ∀ k v, b = .imm k v → a.perm = 0 := by intro k v e; subst e; cases k <;> simp_all [Instr.opsOk, BOp.intOk, BOp.fltOk]
  refine decode_of rfl hw rfl (by decide) (by omega) (by omega) (field_lt b) (oi_lt (by omega) (by omega)) (fun hh => hx hh (fun q => nomatch q)) (by decide) ?_
  have oi0 := fun O D => (@oi_all O h D a b (0) (0) (by omega) (by omega) hp).1
  have oi1 := fun O D => (@oi_all O h D a b (0) (0) (by omega) (by omega) hp).2.1
  have oi2 := fun O D => (@oi_all O h D a b (0) (0) (by omega) (by omega) hp).2.2.1
  have oi3 := fun O D => (@oi_all O h D a b (0) (0) (by omega) (by omega) hp).2.2.2
  simp [-BitVec.toNat_ofNat, Fields.instr, Fields.laneInt, oi0, oi1, oi2, oi3]
theorem orV (h : Hd) (d : Reg) (a : Src) (b : BOp) : Statement (.orV h d a b) := by
  intro hw l hl
  obtain ⟨hx, ho⟩ := wf_parts hl hw
  cases hl
  have := d.isLt
  have := a.r.isLt
  have hp : ∀ k v, b = .imm k v → a.perm = 0 := by intro k v e; subst e; cases k <;> simp_all [Instr.opsOk, BOp.intOk, BOp.fltOk]
  refine decode_of rfl hw rfl (by decide) (by omega) (by omega) (field_lt b) (oi_lt (by omega) (by omega)) (fun hh => hx hh (fun q => nomatch q)) (by decide) ?_
  have oi0 := fun O D => (@oi_all O h D a b (0) (0) (by omega) (by omega) hp).1
  have oi1 := fun O D => (@oi_all O h D a b (0) (0) (by omega) (by omega) hp).2.1
  have oi2 := fun O D => (@oi_all O h D a b (0) (0) (by omega) (by omega) hp).2.2.1
  have oi3 := fun O D => (@oi_all O h D a b (0) (0) (by omega) (by omega) hp).2.2.2
  simp [-BitVec.toNat_ofNat, Fields.instr, Fields.laneInt, oi0, oi1, oi2, oi3]
theorem xorV (h : Hd) (d : Reg) (a : Src) (b : BOp) : Statement (.xorV h d a b) := by
  intro hw l hl
  obtain ⟨hx, ho⟩ := wf_parts hl hw
  cases hl
  have := d.isLt
  have := a.r.isLt
  have hp : ∀ k v, b = .imm k v → a.perm = 0 := by intro k v e; subst e; cases k <;> simp_all [Instr.opsOk, BOp.intOk, BOp.fltOk]
  refine decode_of rfl hw rfl (by decide) (by omega) (by omega) (field_lt b) (oi_lt (by omega) (by omega)) (fun hh => hx hh (fun q => nomatch q)) (by decide) ?_
  have oi0 := fun O D => (@oi_all O h D a b (0) (0) (by omega) (by omega) hp).1
  have oi1 := fun O D => (@oi_all O h D a b (0) (0) (by omega) (by omega) hp).2.1
  have oi2 := fun O D => (@oi_all O h D a b (0) (0) (by omega) (by omega) hp).2.2.1
  have oi3 := fun O D => (@oi_all O h D a b (0) (0) (by omega) (by omega) hp).2.2.2
  simp [-BitVec.toNat_ofNat, Fields.instr, Fields.laneInt, oi0, oi1, oi2, oi3]
theorem shl (h : Hd) (t : ET) (d : Reg) (a : Src) (b : BOp) : Statement (.shl h t d a b) := by
  intro hw l hl
  obtain ⟨hx, ho⟩ := wf_parts hl hw
  cases t
  all_goals try (simp [Instr.opsOk] at ho; done)
  all_goals
    cases hl
    have := d.isLt
    have := a.r.isLt
    have hp : ∀ k v, b = .imm k v → a.perm = 0 := by intro k v e; subst e; cases k <;> simp_all [Instr.opsOk, BOp.intOk, BOp.fltOk]
    refine decode_of rfl hw rfl (by decide) (by omega) (by omega) (field_lt b) (oi_lt (by omega) (by omega)) (fun hh => hx hh (fun q => nomatch q)) (by decide) ?_
    have oi0 := fun O D => (@oi_all O h D a b (0) (0) (by omega) (by omega) hp).1
    have oi1 := fun O D => (@oi_all O h D a b (0) (0) (by omega) (by omega) hp).2.1
    have oi2 := fun O D => (@oi_all O h D a b (0) (0) (by omega) (by omega) hp).2.2.1
    have oi3 := fun O D => (@oi_all O h D a b (0) (0) (by omega) (by omega) hp).2.2.2
    simp [-BitVec.toNat_ofNat, Fields.instr, Fields.laneInt, oi0, oi1, oi2, oi3, ET.code, ET.wdCode, ET.hwdCode, FT.code, FT.hsCode, MSz.code, RT.code, MT.code, ET.ofCode, ET.wd, ET.hwd, FT.ofCode, FT.hs, MSz.ofCode, RT.ofCode, MT.ofCode]
theorem shr (h : Hd) (t : ET) (d : Reg) (a : Src) (b : BOp) : Statement (.shr h t d a b) := by
  intro hw l hl
  obtain ⟨hx, ho⟩ := wf_parts hl hw
  cases t
  all_goals try (simp [Instr.opsOk] at ho; done)
  all_goals
    cases hl
    have := d.isLt
    have := a.r.isLt
    have hp : ∀ k v, b = .imm k v → a.perm = 0 := by intro k v e; subst e; cases k <;> simp_all [Instr.opsOk, BOp.intOk, BOp.fltOk]
    refine decode_of rfl hw rfl (by decide) (by omega) (by omega) (field_lt b) (oi_lt (by omega) (by omega)) (fun hh => hx hh (fun q => nomatch q)) (by decide) ?_
    have oi0 := fun O D => (@oi_all O h D a b (0) (0) (by omega) (by omega) hp).1
    have oi1 := fun O D => (@oi_all O h D a b (0) (0) (by omega) (by omega) hp).2.1
    have oi2 := fun O D => (@oi_all O h D a b (0) (0) (by omega) (by omega) hp).2.2.1
    have oi3 := fun O D => (@oi_all O h D a b (0) (0) (by omega) (by omega) hp).2.2.2
    simp [-BitVec.toNat_ofNat, Fields.instr, Fields.laneInt, oi0, oi1, oi2, oi3, ET.code, ET.wdCode, ET.hwdCode, FT.code, FT.hsCode, MSz.code, RT.code, MT.code, ET.ofCode, ET.wd, ET.hwd, FT.ofCode, FT.hs, MSz.ofCode, RT.ofCode, MT.ofCode]
theorem sar (h : Hd) (t : ET) (d : Reg) (a : Src) (b : BOp) : Statement (.sar h t d a b) := by
  intro hw l hl
  obtain ⟨hx, ho⟩ := wf_parts hl hw
  cases t
  all_goals try (simp [Instr.opsOk] at ho; done)
  all_goals
    cases hl
    have := d.isLt
    have := a.r.isLt
    have hp : ∀ k v, b = .imm k v → a.perm = 0 := by intro k v e; subst e; cases k <;> simp_all [Instr.opsOk, BOp.intOk, BOp.fltOk]
    refine decode_of rfl hw rfl (by decide) (by omega) (by omega) (field_lt b) (oi_lt (by omega) (by omega)) (fun hh => hx hh (fun q => nomatch q)) (by decide) ?_
    have oi0 := fun O D => (@oi_all O h D a b (0) (0) (by omega) (by omega) hp).1
    have oi1 := fun O D => (@oi_all O h D a b (0) (0) (by omega) (by omega) hp).2.1
    have oi2 := fun O D => (@oi_all O h D a b (0) (0) (by omega) (by omega) hp).2.2.1
    have oi3 := fun O D => (@oi_all O h D a b (0) (0) (by omega) (by omega) hp).2.2.2
    simp [-BitVec.toNat_ofNat, Fields.instr, Fields.laneInt, oi0, oi1, oi2, oi3, ET.code, ET.wdCode, ET.hwdCode, FT.code, FT.hsCode, MSz.code, RT.code, MT.code, ET.ofCode, ET.wd, ET.hwd, FT.ofCode, FT.hs, MSz.ofCode, RT.ofCode, MT.ofCode]
theorem clz (h : Hd) (d : Reg) (a : Src) : Statement (.clz h d a) := by
  intro hw l hl
  obtain ⟨hx, ho⟩ := wf_parts hl hw
  cases hl
  have := d.isLt
  have := a.r.isLt
  have := a.perm.isLt
  refine decode_of rfl hw rfl (by decide) (by omega) (by omega) (by omega) (lt31 (eo_lt (by omega) (by omega) (by omega) (by omega) (by omega))) (fun hh => hx hh (fun q => nomatch q)) (by decide) ?_
  have e1 := fun O D A LA B LB => @eo_spec O h D A B LA LB 0 (a.perm.toNat) (0) (0) (0) false (by omega) (by omega)
  have e2 := fun O D A LA B LB => @eo_mode O h D A B LA LB 0 (a.perm.toNat) (0) (0) (0) false (by omega)
  have e3 := fun O D B LB => @eo_srcA0 O h D B LB 0 (0) (0) false a (by omega) (by omega)
  simp [-BitVec.toNat_ofNat, Fields.instr, Fields.laneInt, e1, e2, e3]
theorem popc (h : Hd) (d : Reg) (a : Src) : Statement (.popc h d a) := by
  intro hw l hl
  obtain ⟨hx, ho⟩ := wf_parts hl hw
  cases hl
  have := d.isLt
  have := a.r.isLt
  have := a.perm.isLt
  refine decode_of rfl hw rfl (by decide) (by omega) (by omega) (by omega) (lt31 (eo_lt (by omega) (by omega) (by omega) (by omega) (by omega))) (fun hh => hx hh (fun q => nomatch q)) (by decide) ?_
  have e1 := fun O D A LA B LB => @eo_spec O h D A B LA LB 0 (a.perm.toNat) (0) (0) (0) false (by omega) (by omega)
  have e2 := fun O D A LA B LB => @eo_mode O h D A B LA LB 0 (a.perm.toNat) (0) (0) (0) false (by omega)
  have e3 := fun O D B LB => @eo_srcA0 O h D B LB 0 (0) (0) false a (by omega) (by omega)
  simp [-BitVec.toNat_ofNat, Fields.instr, Fields.laneInt, e1, e2, e3]
theorem sel (h : Hd) (p : Prd) (d : Reg) (a : Src) (b : Src) : Statement (.sel h p d a b) := by
  intro hw l hl
  obtain ⟨hx, ho⟩ := wf_parts hl hw
  cases hl
  have := p.isLt
  have := d.isLt
  have := a.r.isLt
  have := b.r.isLt
  have := a.perm.isLt
  have := b.perm.isLt
  refine decode_of rfl hw rfl (by decide) (by omega) (by omega) (by omega) (lt31 (eo_lt (by omega) (by omega) (by omega) (by omega) (by omega))) (fun hh => hx hh (fun q => nomatch q)) (by decide) ?_
  have e1 := fun O D A LA B LB => @eo_spec O h D A B LA LB p.toNat (a.perm.toNat) (b.perm.toNat) (0) (0) false (by omega) (by omega)
  have e2 := fun O D A LA B LB => @eo_mode O h D A B LA LB p.toNat (a.perm.toNat) (b.perm.toNat) (0) (0) false (by omega)
  have e3 := fun O D B LB => @eo_srcA O h D B LB p.toNat (0) (0) false a b.perm (by omega) (by omega)
  have e4 := fun O D A LA => @eo_srcB O h D A LA p.toNat (0) (0) (a.perm.toNat) false b (by omega) (by omega)
  have e5 := @eo_c (0) (0) (p.toNat) false a.perm b.perm (by omega) (by omega)
  have e6 := e5
  simp only [Nat.reducePow] at e6
  simp [-BitVec.toNat_ofNat, Fields.instr, Fields.laneInt, e1, e2, e3, e4, e5, e6]
theorem icmp (h : Hd) (t : ET) (c : ICond) (pd : Prd) (a : Src) (b : BOp) : Statement (.icmp h t c pd a b) := by
  intro hw l hl
  obtain ⟨hx, ho⟩ := wf_parts hl hw
  cases t
  all_goals try (simp [Instr.opsOk] at ho; done)
  all_goals
    cases hl
    have := pd.isLt
    have := a.r.isLt
    have := icond_lt c
    have hp : ∀ k v, b = .imm k v → a.perm = 0 := by intro k v e; subst e; cases k <;> simp_all [Instr.opsOk, BOp.intOk, BOp.fltOk]
    refine decode_of rfl hw rfl (by decide) (by omega) (by omega) (field_lt b) (oi_lt (by omega) (by omega)) (fun hh => hx hh (fun q => nomatch q)) (by decide) ?_
    have oi0 := fun O D => (@oi_all O h D a b (0) (c.code) (by omega) (by omega) hp).1
    have oi1 := fun O D => (@oi_all O h D a b (0) (c.code) (by omega) (by omega) hp).2.1
    have oi2 := fun O D => (@oi_all O h D a b (0) (c.code) (by omega) (by omega) hp).2.2.1
    have oi3 := fun O D => (@oi_all O h D a b (0) (c.code) (by omega) (by omega) hp).2.2.2
    simp [-BitVec.toNat_ofNat, Fields.instr, Fields.laneInt, oi0, oi1, oi2, oi3, ET.code, ET.wdCode, ET.hwdCode, FT.code, FT.hsCode, MSz.code, RT.code, MT.code, ET.ofCode, ET.wd, ET.hwd, FT.ofCode, FT.hs, MSz.ofCode, RT.ofCode, MT.ofCode] <;> (try and_intros) <;> first | exact ofNat_eq (by omega) | exact bit_eq (by omega) | exact od_sw _ | exact ofNat_eq (by simp only [eu, ei, brpw]; omega) | exact bit_eq (by simp only [eu]; omega) | exact ofNat_eq (by simp only [eo, Bool.toNat_false]; omega)
theorem addl (h : Hd) (pq : Prd) (d : Reg) (a : Src) (b : Src) : Statement (.addl h pq d a b) := by
  intro hw l hl
  obtain ⟨hx, ho⟩ := wf_parts hl hw
  cases hl
  have := pq.isLt
  have := d.isLt
  have := a.r.isLt
  have := b.r.isLt
  have := a.perm.isLt
  have := b.perm.isLt
  refine decode_of rfl hw rfl (by decide) (by omega) (by omega) (by omega) (lt31 (eo_lt (by omega) (by omega) (by omega) (by omega) (by omega))) (fun hh => hx hh (fun q => nomatch q)) (by decide) ?_
  have e1 := fun O D A LA B LB => @eo_spec O h D A B LA LB 0 (a.perm.toNat) (b.perm.toNat) (pq.toNat) (0) false (by omega) (by omega)
  have e2 := fun O D A LA B LB => @eo_mode O h D A B LA LB 0 (a.perm.toNat) (b.perm.toNat) (pq.toNat) (0) false (by omega)
  have e3 := fun O D B LB => @eo_srcA O h D B LB 0 (pq.toNat) (0) false a b.perm (by omega) (by omega)
  have e4 := fun O D A LA => @eo_srcB O h D A LA 0 (pq.toNat) (0) (a.perm.toNat) false b (by omega) (by omega)
  simp [-BitVec.toNat_ofNat, Fields.instr, Fields.laneInt, e1, e2, e3, e4]
theorem subl (h : Hd) (pq : Prd) (d : Reg) (a : Src) (b : Src) : Statement (.subl h pq d a b) := by
  intro hw l hl
  obtain ⟨hx, ho⟩ := wf_parts hl hw
  cases hl
  have := pq.isLt
  have := d.isLt
  have := a.r.isLt
  have := b.r.isLt
  have := a.perm.isLt
  have := b.perm.isLt
  refine decode_of rfl hw rfl (by decide) (by omega) (by omega) (by omega) (lt31 (eo_lt (by omega) (by omega) (by omega) (by omega) (by omega))) (fun hh => hx hh (fun q => nomatch q)) (by decide) ?_
  have e1 := fun O D A LA B LB => @eo_spec O h D A B LA LB 0 (a.perm.toNat) (b.perm.toNat) (pq.toNat) (0) false (by omega) (by omega)
  have e2 := fun O D A LA B LB => @eo_mode O h D A B LA LB 0 (a.perm.toNat) (b.perm.toNat) (pq.toNat) (0) false (by omega)
  have e3 := fun O D B LB => @eo_srcA O h D B LB 0 (pq.toNat) (0) false a b.perm (by omega) (by omega)
  have e4 := fun O D A LA => @eo_srcB O h D A LA 0 (pq.toNat) (0) (a.perm.toNat) false b (by omega) (by omega)
  simp [-BitVec.toNat_ofNat, Fields.instr, Fields.laneInt, e1, e2, e3, e4]
theorem macl (h : Hd) (pq : Prd) (d : Reg) (a : Src) (b : Src) (c : RL) : Statement (.macl h pq d a b c) := by
  intro hw l hl
  obtain ⟨hx, ho⟩ := wf_parts hl hw
  cases hl
  have := pq.isLt
  have := d.isLt
  have := a.r.isLt
  have := b.r.isLt
  have := c.r.isLt
  have := a.perm.isLt
  have := b.perm.isLt
  refine decode_of rfl hw rfl (by decide) (by omega) (by omega) (by omega) (lt31 (eo_lt (by omega) (by omega) (by omega) (by omega) (by omega))) (fun hh => hx hh (fun q => nomatch q)) (by decide) ?_
  have e1 := fun O D A LA B LB => @eo_spec O h D A B LA LB c.r.toNat (a.perm.toNat) (b.perm.toNat) (pq.toNat) (0) c.last (by omega) (by omega)
  have e2 := fun O D A LA B LB => @eo_mode O h D A B LA LB c.r.toNat (a.perm.toNat) (b.perm.toNat) (pq.toNat) (0) c.last (by omega)
  have e3 := fun O D B LB => @eo_srcA O h D B LB c.r.toNat (pq.toNat) (0) c.last a b.perm (by omega) (by omega)
  have e4 := fun O D A LA => @eo_srcB O h D A LA c.r.toNat (pq.toNat) (0) (a.perm.toNat) c.last b (by omega) (by omega)
  have e5 := fun O D A LA B LB => @eo_rlC O h D A B LA LB (pq.toNat) (0) c a.perm b.perm (by omega) (by omega)
  simp [-BitVec.toNat_ofNat, Fields.instr, Fields.laneInt, e1, e2, e3, e4, e5]
theorem shll (h : Hd) (pq : Prd) (d : Reg) (a : Src) (b : Src) : Statement (.shll h pq d a b) := by
  intro hw l hl
  obtain ⟨hx, ho⟩ := wf_parts hl hw
  cases hl
  have := pq.isLt
  have := d.isLt
  have := a.r.isLt
  have := b.r.isLt
  have := a.perm.isLt
  have := b.perm.isLt
  refine decode_of rfl hw rfl (by decide) (by omega) (by omega) (by omega) (lt31 (eo_lt (by omega) (by omega) (by omega) (by omega) (by omega))) (fun hh => hx hh (fun q => nomatch q)) (by decide) ?_
  have e1 := fun O D A LA B LB => @eo_spec O h D A B LA LB 0 (a.perm.toNat) (b.perm.toNat) (pq.toNat) (0) false (by omega) (by omega)
  have e2 := fun O D A LA B LB => @eo_mode O h D A B LA LB 0 (a.perm.toNat) (b.perm.toNat) (pq.toNat) (0) false (by omega)
  have e3 := fun O D B LB => @eo_srcA O h D B LB 0 (pq.toNat) (0) false a b.perm (by omega) (by omega)
  have e4 := fun O D A LA => @eo_srcB O h D A LA 0 (pq.toNat) (0) (a.perm.toNat) false b (by omega) (by omega)
  simp [-BitVec.toNat_ofNat, Fields.instr, Fields.laneInt, e1, e2, e3, e4]
theorem shrl (h : Hd) (pq : Prd) (d : Reg) (a : Src) (b : Src) : Statement (.shrl h pq d a b) := by
  intro hw l hl
  obtain ⟨hx, ho⟩ := wf_parts hl hw
  cases hl
  have := pq.isLt
  have := d.isLt
  have := a.r.isLt
  have := b.r.isLt
  have := a.perm.isLt
  have := b.perm.isLt
  refine decode_of rfl hw rfl (by decide) (by omega) (by omega) (by omega) (lt31 (eo_lt (by omega) (by omega) (by omega) (by omega) (by omega))) (fun hh => hx hh (fun q => nomatch q)) (by decide) ?_
  have e1 := fun O D A LA B LB => @eo_spec O h D A B LA LB 0 (a.perm.toNat) (b.perm.toNat) (pq.toNat) (0) false (by omega) (by omega)
  have e2 := fun O D A LA B LB => @eo_mode O h D A B LA LB 0 (a.perm.toNat) (b.perm.toNat) (pq.toNat) (0) false (by omega)
  have e3 := fun O D B LB => @eo_srcA O h D B LB 0 (pq.toNat) (0) false a b.perm (by omega) (by omega)
  have e4 := fun O D A LA => @eo_srcB O h D A LA 0 (pq.toNat) (0) (a.perm.toNat) false b (by omega) (by omega)
  simp [-BitVec.toNat_ofNat, Fields.instr, Fields.laneInt, e1, e2, e3, e4]
theorem cmpl (h : Hd) (c : ICond) (pd : Prd) (a : Src) (b : Src) : Statement (.cmpl h c pd a b) := by
  intro hw l hl
  obtain ⟨hx, ho⟩ := wf_parts hl hw
  cases hl
  have := pd.isLt
  have := a.r.isLt
  have := b.r.isLt
  have := icond_lt c
  have := a.perm.isLt
  have := b.perm.isLt
  refine decode_of rfl hw rfl (by decide) (by omega) (by omega) (by omega) (lt31 (eo_lt (by omega) (by omega) (by omega) (by omega) (by omega))) (fun hh => hx hh (fun q => nomatch q)) (by decide) ?_
  have e1 := fun O D A LA B LB => @eo_spec O h D A B LA LB 0 (a.perm.toNat) (b.perm.toNat) (0) (c.code) false (by omega) (by omega)
  have e2 := fun O D A LA B LB => @eo_mode O h D A B LA LB 0 (a.perm.toNat) (b.perm.toNat) (0) (c.code) false (by omega)
  have e3 := fun O D B LB => @eo_srcA O h D B LB 0 (0) (c.code) false a b.perm (by omega) (by omega)
  have e4 := fun O D A LA => @eo_srcB O h D A LA 0 (0) (c.code) (a.perm.toNat) false b (by omega) (by omega)
  simp [-BitVec.toNat_ofNat, Fields.instr, Fields.laneInt, e1, e2, e3, e4] <;> (try and_intros) <;> first | exact ofNat_eq (by omega) | exact bit_eq (by omega) | exact od_sw _ | exact ofNat_eq (by simp only [eu, ei, brpw]; omega) | exact bit_eq (by simp only [eu]; omega) | exact ofNat_eq (by simp only [eo, Bool.toNat_false]; omega)
theorem negl (h : Hd) (pq : Prd) (d : Reg) (a : Src) : Statement (.negl h pq d a) := by
  intro hw l hl
  obtain ⟨hx, ho⟩ := wf_parts hl hw
  cases hl
  have := pq.isLt
  have := d.isLt
  have := a.r.isLt
  have := a.perm.isLt
  refine decode_of rfl hw rfl (by decide) (by omega) (by omega) (by omega) (lt31 (eo_lt (by omega) (by omega) (by omega) (by omega) (by omega))) (fun hh => hx hh (fun q => nomatch q)) (by decide) ?_
  have e1 := fun O D A LA B LB => @eo_spec O h D A B LA LB 0 (a.perm.toNat) (0) (pq.toNat) (0) false (by omega) (by omega)
  have e2 := fun O D A LA B LB => @eo_mode O h D A B LA LB 0 (a.perm.toNat) (0) (pq.toNat) (0) false (by omega)
  have e3 := fun O D B LB => @eo_srcA0 O h D B LB 0 (pq.toNat) (0) false a (by omega) (by omega)
  simp [-BitVec.toNat_ofNat, Fields.instr, Fields.laneInt, e1, e2, e3]
theorem fadd (h : Hd) (t : FT) (m : Rnd) (d : Reg) (a : Src) (b : BOp) : Statement (.fadd h t m d a b) := by
  intro hw l hl
  obtain ⟨hx, ho⟩ := wf_parts hl hw
  cases t
  all_goals try (simp [Instr.opsOk] at ho; done)
  all_goals
    cases hl
    have := d.isLt
    have := a.r.isLt
    have := rnd_lt m
    have hp : ∀ k v, b = .imm k v → a.perm = 0 := by intro k v e; subst e; cases k <;> simp_all [Instr.opsOk, BOp.intOk, BOp.fltOk]
    refine decode_of rfl hw rfl (by decide) (by omega) (by omega) (field_lt b) (oi_lt (by omega) (by omega)) (fun hh => hx hh (fun q => nomatch q)) (by decide) ?_
    have oi0 := fun O D => (@oi_all O h D a b (0) (m.code) (by omega) (by omega) hp).1
    have oi1 := fun O D => (@oi_all O h D a b (0) (m.code) (by omega) (by omega) hp).2.1
    have oi2 := fun O D => (@oi_all O h D a b (0) (m.code) (by omega) (by omega) hp).2.2.1
    have oi3 := fun O D => (@oi_all O h D a b (0) (m.code) (by omega) (by omega) hp).2.2.2
    simp [-BitVec.toNat_ofNat, Fields.instr, Fields.laneRest, oi0, oi1, oi2, oi3, ET.code, ET.wdCode, ET.hwdCode, FT.code, FT.hsCode, MSz.code, RT.code, MT.code, ET.ofCode, ET.wd, ET.hwd, FT.ofCode, FT.hs, MSz.ofCode, RT.ofCode, MT.ofCode]
theorem fsub (h : Hd) (t : FT) (m : Rnd) (d : Reg) (a : Src) (b : BOp) : Statement (.fsub h t m d a b) := by
  intro hw l hl
  obtain ⟨hx, ho⟩ := wf_parts hl hw
  cases t
  all_goals try (simp [Instr.opsOk] at ho; done)
  all_goals
    cases hl
    have := d.isLt
    have := a.r.isLt
    have := rnd_lt m
    have hp : ∀ k v, b = .imm k v → a.perm = 0 := by intro k v e; subst e; cases k <;> simp_all [Instr.opsOk, BOp.intOk, BOp.fltOk]
    refine decode_of rfl hw rfl (by decide) (by omega) (by omega) (field_lt b) (oi_lt (by omega) (by omega)) (fun hh => hx hh (fun q => nomatch q)) (by decide) ?_
    have oi0 := fun O D => (@oi_all O h D a b (0) (m.code) (by omega) (by omega) hp).1
    have oi1 := fun O D => (@oi_all O h D a b (0) (m.code) (by omega) (by omega) hp).2.1
    have oi2 := fun O D => (@oi_all O h D a b (0) (m.code) (by omega) (by omega) hp).2.2.1
    have oi3 := fun O D => (@oi_all O h D a b (0) (m.code) (by omega) (by omega) hp).2.2.2
    simp [-BitVec.toNat_ofNat, Fields.instr, Fields.laneRest, oi0, oi1, oi2, oi3, ET.code, ET.wdCode, ET.hwdCode, FT.code, FT.hsCode, MSz.code, RT.code, MT.code, ET.ofCode, ET.wd, ET.hwd, FT.ofCode, FT.hs, MSz.ofCode, RT.ofCode, MT.ofCode]
theorem fmul (h : Hd) (t : FT) (m : Rnd) (d : Reg) (a : Src) (b : BOp) : Statement (.fmul h t m d a b) := by
  intro hw l hl
  obtain ⟨hx, ho⟩ := wf_parts hl hw
  cases t
  all_goals try (simp [Instr.opsOk] at ho; done)
  all_goals
    cases hl
    have := d.isLt
    have := a.r.isLt
    have := rnd_lt m
    have hp : ∀ k v, b = .imm k v → a.perm = 0 := by intro k v e; subst e; cases k <;> simp_all [Instr.opsOk, BOp.intOk, BOp.fltOk]
    refine decode_of rfl hw rfl (by decide) (by omega) (by omega) (field_lt b) (oi_lt (by omega) (by omega)) (fun hh => hx hh (fun q => nomatch q)) (by decide) ?_
    have oi0 := fun O D => (@oi_all O h D a b (0) (m.code) (by omega) (by omega) hp).1
    have oi1 := fun O D => (@oi_all O h D a b (0) (m.code) (by omega) (by omega) hp).2.1
    have oi2 := fun O D => (@oi_all O h D a b (0) (m.code) (by omega) (by omega) hp).2.2.1
    have oi3 := fun O D => (@oi_all O h D a b (0) (m.code) (by omega) (by omega) hp).2.2.2
    simp [-BitVec.toNat_ofNat, Fields.instr, Fields.laneRest, oi0, oi1, oi2, oi3, ET.code, ET.wdCode, ET.hwdCode, FT.code, FT.hsCode, MSz.code, RT.code, MT.code, ET.ofCode, ET.wd, ET.hwd, FT.ofCode, FT.hs, MSz.ofCode, RT.ofCode, MT.ofCode]
theorem ffma (h : Hd) (t : FT) (m : Rnd) (d : Reg) (a : Src) (b : Src) (c : RL) : Statement (.ffma h t m d a b c) := by
  intro hw l hl
  obtain ⟨hx, ho⟩ := wf_parts hl hw
  cases t
  all_goals try (simp [Instr.opsOk] at ho; done)
  all_goals
    cases hl
    have := d.isLt
    have := a.r.isLt
    have := b.r.isLt
    have := c.r.isLt
    have := rnd_lt m
    have := a.perm.isLt
    have := b.perm.isLt
    refine decode_of rfl hw rfl (by decide) (by omega) (by omega) (by omega) (lt31 (eo_lt (by omega) (by omega) (by omega) (by omega) (by omega))) (fun hh => hx hh (fun q => nomatch q)) (by decide) ?_
    have e1 := fun O D A LA B LB => @eo_spec O h D A B LA LB c.r.toNat (a.perm.toNat) (b.perm.toNat) (0) (m.code) c.last (by omega) (by omega)
    have e2 := fun O D A LA B LB => @eo_mode O h D A B LA LB c.r.toNat (a.perm.toNat) (b.perm.toNat) (0) (m.code) c.last (by omega)
    have e3 := fun O D B LB => @eo_srcA O h D B LB c.r.toNat (0) (m.code) c.last a b.perm (by omega) (by omega)
    have e4 := fun O D A LA => @eo_srcB O h D A LA c.r.toNat (0) (m.code) (a.perm.toNat) c.last b (by omega) (by omega)
    have e5 := fun O D A LA B LB => @eo_rlC O h D A B LA LB (0) (m.code) c a.perm b.perm (by omega) (by omega)
    simp [-BitVec.toNat_ofNat, Fields.instr, Fields.laneRest, e1, e2, e3, e4, e5, ET.code, ET.wdCode, ET.hwdCode, FT.code, FT.hsCode, MSz.code, RT.code, MT.code, ET.ofCode, ET.wd, ET.hwd, FT.ofCode, FT.hs, MSz.ofCode, RT.ofCode, MT.ofCode]
theorem fmin (h : Hd) (t : FT) (d : Reg) (a : Src) (b : BOp) : Statement (.fmin h t d a b) := by
  intro hw l hl
  obtain ⟨hx, ho⟩ := wf_parts hl hw
  cases t
  all_goals try (simp [Instr.opsOk] at ho; done)
  all_goals
    cases hl
    have := d.isLt
    have := a.r.isLt
    have hp : ∀ k v, b = .imm k v → a.perm = 0 := by intro k v e; subst e; cases k <;> simp_all [Instr.opsOk, BOp.intOk, BOp.fltOk]
    refine decode_of rfl hw rfl (by decide) (by omega) (by omega) (field_lt b) (oi_lt (by omega) (by omega)) (fun hh => hx hh (fun q => nomatch q)) (by decide) ?_
    have oi0 := fun O D => (@oi_all O h D a b (0) (0) (by omega) (by omega) hp).1
    have oi1 := fun O D => (@oi_all O h D a b (0) (0) (by omega) (by omega) hp).2.1
    have oi2 := fun O D => (@oi_all O h D a b (0) (0) (by omega) (by omega) hp).2.2.1
    have oi3 := fun O D => (@oi_all O h D a b (0) (0) (by omega) (by omega) hp).2.2.2
    simp [-BitVec.toNat_ofNat, Fields.instr, Fields.laneRest, oi0, oi1, oi2, oi3, ET.code, ET.wdCode, ET.hwdCode, FT.code, FT.hsCode, MSz.code, RT.code, MT.code, ET.ofCode, ET.wd, ET.hwd, FT.ofCode, FT.hs, MSz.ofCode, RT.ofCode, MT.ofCode]
theorem fmax (h : Hd) (t : FT) (d : Reg) (a : Src) (b : BOp) : Statement (.fmax h t d a b) := by
  intro hw l hl
  obtain ⟨hx, ho⟩ := wf_parts hl hw
  cases t
  all_goals try (simp [Instr.opsOk] at ho; done)
  all_goals
    cases hl
    have := d.isLt
    have := a.r.isLt
    have hp : ∀ k v, b = .imm k v → a.perm = 0 := by intro k v e; subst e; cases k <;> simp_all [Instr.opsOk, BOp.intOk, BOp.fltOk]
    refine decode_of rfl hw rfl (by decide) (by omega) (by omega) (field_lt b) (oi_lt (by omega) (by omega)) (fun hh => hx hh (fun q => nomatch q)) (by decide) ?_
    have oi0 := fun O D => (@oi_all O h D a b (0) (0) (by omega) (by omega) hp).1
    have oi1 := fun O D => (@oi_all O h D a b (0) (0) (by omega) (by omega) hp).2.1
    have oi2 := fun O D => (@oi_all O h D a b (0) (0) (by omega) (by omega) hp).2.2.1
    have oi3 := fun O D => (@oi_all O h D a b (0) (0) (by omega) (by omega) hp).2.2.2
    simp [-BitVec.toNat_ofNat, Fields.instr, Fields.laneRest, oi0, oi1, oi2, oi3, ET.code, ET.wdCode, ET.hwdCode, FT.code, FT.hsCode, MSz.code, RT.code, MT.code, ET.ofCode, ET.wd, ET.hwd, FT.ofCode, FT.hs, MSz.ofCode, RT.ofCode, MT.ofCode]
theorem fcmp (h : Hd) (t : FT) (c : FCond) (pd : Prd) (a : Src) (b : BOp) : Statement (.fcmp h t c pd a b) := by
  intro hw l hl
  obtain ⟨hx, ho⟩ := wf_parts hl hw
  cases t
  all_goals try (simp [Instr.opsOk] at ho; done)
  all_goals
    cases hl
    have := pd.isLt
    have := a.r.isLt
    have := fcond_lt c
    have hp : ∀ k v, b = .imm k v → a.perm = 0 := by intro k v e; subst e; cases k <;> simp_all [Instr.opsOk, BOp.intOk, BOp.fltOk]
    refine decode_of rfl hw rfl (by decide) (by omega) (by omega) (field_lt b) (oi_lt (by omega) (by omega)) (fun hh => hx hh (fun q => nomatch q)) (by decide) ?_
    have oi0 := fun O D => (@oi_all O h D a b (0) (c.code) (by omega) (by omega) hp).1
    have oi1 := fun O D => (@oi_all O h D a b (0) (c.code) (by omega) (by omega) hp).2.1
    have oi2 := fun O D => (@oi_all O h D a b (0) (c.code) (by omega) (by omega) hp).2.2.1
    have oi3 := fun O D => (@oi_all O h D a b (0) (c.code) (by omega) (by omega) hp).2.2.2
    simp [-BitVec.toNat_ofNat, Fields.instr, Fields.laneRest, oi0, oi1, oi2, oi3, ET.code, ET.wdCode, ET.hwdCode, FT.code, FT.hsCode, MSz.code, RT.code, MT.code, ET.ofCode, ET.wd, ET.hwd, FT.ofCode, FT.hs, MSz.ofCode, RT.ofCode, MT.ofCode] <;> (try and_intros) <;> first | exact ofNat_eq (by omega) | exact bit_eq (by omega) | exact od_sw _ | exact ofNat_eq (by simp only [eu, ei, brpw]; omega) | exact bit_eq (by simp only [eu]; omega) | exact ofNat_eq (by simp only [eo, Bool.toNat_false]; omega)
theorem frcp (h : Hd) (d : Reg) (a : Src) : Statement (.frcp h d a) := by
  intro hw l hl
  obtain ⟨hx, ho⟩ := wf_parts hl hw
  cases hl
  have := d.isLt
  have := a.r.isLt
  have := a.perm.isLt
  refine decode_of rfl hw rfl (by decide) (by omega) (by omega) (by omega) (lt31 (eo_lt (by omega) (by omega) (by omega) (by omega) (by omega))) (fun hh => hx hh (fun q => nomatch q)) (by decide) ?_
  have e1 := fun O D A LA B LB => @eo_spec O h D A B LA LB 0 (a.perm.toNat) (0) (0) (0) false (by omega) (by omega)
  have e2 := fun O D A LA B LB => @eo_mode O h D A B LA LB 0 (a.perm.toNat) (0) (0) (0) false (by omega)
  have e3 := fun O D B LB => @eo_srcA0 O h D B LB 0 (0) (0) false a (by omega) (by omega)
  simp [-BitVec.toNat_ofNat, Fields.instr, Fields.laneRest, e1, e2, e3]
theorem frsq (h : Hd) (d : Reg) (a : Src) : Statement (.frsq h d a) := by
  intro hw l hl
  obtain ⟨hx, ho⟩ := wf_parts hl hw
  cases hl
  have := d.isLt
  have := a.r.isLt
  have := a.perm.isLt
  refine decode_of rfl hw rfl (by decide) (by omega) (by omega) (by omega) (lt31 (eo_lt (by omega) (by omega) (by omega) (by omega) (by omega))) (fun hh => hx hh (fun q => nomatch q)) (by decide) ?_
  have e1 := fun O D A LA B LB => @eo_spec O h D A B LA LB 0 (a.perm.toNat) (0) (0) (0) false (by omega) (by omega)
  have e2 := fun O D A LA B LB => @eo_mode O h D A B LA LB 0 (a.perm.toNat) (0) (0) (0) false (by omega)
  have e3 := fun O D B LB => @eo_srcA0 O h D B LB 0 (0) (0) false a (by omega) (by omega)
  simp [-BitVec.toNat_ofNat, Fields.instr, Fields.laneRest, e1, e2, e3]
theorem fsqrt (h : Hd) (d : Reg) (a : Src) : Statement (.fsqrt h d a) := by
  intro hw l hl
  obtain ⟨hx, ho⟩ := wf_parts hl hw
  cases hl
  have := d.isLt
  have := a.r.isLt
  have := a.perm.isLt
  refine decode_of rfl hw rfl (by decide) (by omega) (by omega) (by omega) (lt31 (eo_lt (by omega) (by omega) (by omega) (by omega) (by omega))) (fun hh => hx hh (fun q => nomatch q)) (by decide) ?_
  have e1 := fun O D A LA B LB => @eo_spec O h D A B LA LB 0 (a.perm.toNat) (0) (0) (0) false (by omega) (by omega)
  have e2 := fun O D A LA B LB => @eo_mode O h D A B LA LB 0 (a.perm.toNat) (0) (0) (0) false (by omega)
  have e3 := fun O D B LB => @eo_srcA0 O h D B LB 0 (0) (0) false a (by omega) (by omega)
  simp [-BitVec.toNat_ofNat, Fields.instr, Fields.laneRest, e1, e2, e3]
theorem fexp2 (h : Hd) (d : Reg) (a : Src) : Statement (.fexp2 h d a) := by
  intro hw l hl
  obtain ⟨hx, ho⟩ := wf_parts hl hw
  cases hl
  have := d.isLt
  have := a.r.isLt
  have := a.perm.isLt
  refine decode_of rfl hw rfl (by decide) (by omega) (by omega) (by omega) (lt31 (eo_lt (by omega) (by omega) (by omega) (by omega) (by omega))) (fun hh => hx hh (fun q => nomatch q)) (by decide) ?_
  have e1 := fun O D A LA B LB => @eo_spec O h D A B LA LB 0 (a.perm.toNat) (0) (0) (0) false (by omega) (by omega)
  have e2 := fun O D A LA B LB => @eo_mode O h D A B LA LB 0 (a.perm.toNat) (0) (0) (0) false (by omega)
  have e3 := fun O D B LB => @eo_srcA0 O h D B LB 0 (0) (0) false a (by omega) (by omega)
  simp [-BitVec.toNat_ofNat, Fields.instr, Fields.laneRest, e1, e2, e3]
theorem flog2 (h : Hd) (d : Reg) (a : Src) : Statement (.flog2 h d a) := by
  intro hw l hl
  obtain ⟨hx, ho⟩ := wf_parts hl hw
  cases hl
  have := d.isLt
  have := a.r.isLt
  have := a.perm.isLt
  refine decode_of rfl hw rfl (by decide) (by omega) (by omega) (by omega) (lt31 (eo_lt (by omega) (by omega) (by omega) (by omega) (by omega))) (fun hh => hx hh (fun q => nomatch q)) (by decide) ?_
  have e1 := fun O D A LA B LB => @eo_spec O h D A B LA LB 0 (a.perm.toNat) (0) (0) (0) false (by omega) (by omega)
  have e2 := fun O D A LA B LB => @eo_mode O h D A B LA LB 0 (a.perm.toNat) (0) (0) (0) false (by omega)
  have e3 := fun O D B LB => @eo_srcA0 O h D B LB 0 (0) (0) false a (by omega) (by omega)
  simp [-BitVec.toNat_ofNat, Fields.instr, Fields.laneRest, e1, e2, e3]
theorem ftanh (h : Hd) (d : Reg) (a : Src) : Statement (.ftanh h d a) := by
  intro hw l hl
  obtain ⟨hx, ho⟩ := wf_parts hl hw
  cases hl
  have := d.isLt
  have := a.r.isLt
  have := a.perm.isLt
  refine decode_of rfl hw rfl (by decide) (by omega) (by omega) (by omega) (lt31 (eo_lt (by omega) (by omega) (by omega) (by omega) (by omega))) (fun hh => hx hh (fun q => nomatch q)) (by decide) ?_
  have e1 := fun O D A LA B LB => @eo_spec O h D A B LA LB 0 (a.perm.toNat) (0) (0) (0) false (by omega) (by omega)
  have e2 := fun O D A LA B LB => @eo_mode O h D A B LA LB 0 (a.perm.toNat) (0) (0) (0) false (by omega)
  have e3 := fun O D B LB => @eo_srcA0 O h D B LB 0 (0) (0) false a (by omega) (by omega)
  simp [-BitVec.toNat_ofNat, Fields.instr, Fields.laneRest, e1, e2, e3]
theorem cvt (h : Hd) (k : CvtPair) (nan : Bool) (m : Rnd) (d : Reg) (a : Src) : Statement (.cvt h k nan m d a) := by
  intro hw l hl
  obtain ⟨hx, ho⟩ := wf_parts hl hw
  have := (spec_all k nan).1
  cases hl
  have := bool_lt nan
  have := d.isLt
  have := a.r.isLt
  have := rnd_lt m
  have := a.perm.isLt
  refine decode_of rfl hw rfl (by decide) (by omega) (by omega) (by omega) (lt31 (eo_lt (by omega) (by omega) (by omega) (by omega) (by omega))) (fun hh => hx hh (fun q => nomatch q)) (by decide) ?_
  have e1 := fun O D A LA B LB => @eo_spec O h D A B LA LB 0 (a.perm.toNat) (0) ((k.spec nan)) (m.code) false (by omega) (by omega)
  have e2 := fun O D A LA B LB => @eo_mode O h D A B LA LB 0 (a.perm.toNat) (0) ((k.spec nan)) (m.code) false (by omega)
  have e3 := fun O D B LB => @eo_srcA0 O h D B LB 0 ((k.spec nan)) (m.code) false a (by omega) (by omega)
  simp [-BitVec.toNat_ofNat, Fields.instr, Fields.laneRest, e1, e2, e3, spec_all] <;> (try and_intros) <;> first | exact ofNat_eq (by omega) | exact bit_eq (by omega) | exact od_sw _ | exact ofNat_eq (by simp only [eu, ei, brpw]; omega) | exact bit_eq (by simp only [eu]; omega) | exact ofNat_eq (by simp only [eo, Bool.toNat_false]; omega)
theorem cvtef (h : Hd) (dst : FF) (nan : Bool) (m : Rnd) (d : Reg) (a : Src) (c : Reg) : Statement (.cvtef h dst nan m d a c) := by
  intro hw l hl
  obtain ⟨hx, ho⟩ := wf_parts hl hw
  have := (spec_all (.ff dst .s) nan).1
  cases hl
  have := bool_lt nan
  have := d.isLt
  have := a.r.isLt
  have := c.isLt
  have := rnd_lt m
  have := a.perm.isLt
  refine decode_of rfl hw rfl (by decide) (by omega) (by omega) (by omega) (lt31 (eo_lt (by omega) (by omega) (by omega) (by omega) (by omega))) (fun hh => hx hh (fun q => nomatch q)) (by decide) ?_
  have e1 := fun O D A LA B LB => @eo_spec O h D A B LA LB c.toNat (a.perm.toNat) (0) (((CvtPair.ff dst .s).spec nan)) (m.code) false (by omega) (by omega)
  have e2 := fun O D A LA B LB => @eo_mode O h D A B LA LB c.toNat (a.perm.toNat) (0) (((CvtPair.ff dst .s).spec nan)) (m.code) false (by omega)
  have e3 := fun O D B LB => @eo_srcA0 O h D B LB c.toNat (((CvtPair.ff dst .s).spec nan)) (m.code) false a (by omega) (by omega)
  have e5 := @eo_c (((CvtPair.ff dst .s).spec nan)) (m.code) (c.toNat) false a.perm (0 : BitVec 8) (by omega) (by omega)
  simp [-BitVec.toNat_ofNat, Fields.instr, Fields.laneRest, e1, e2, e3, e5, Fields.rlC, spec_all, cvtef_all] <;> (try and_intros) <;> first | exact ofNat_eq (by omega) | exact bit_eq (by omega) | exact od_sw _ | exact ofNat_eq (by simp only [eu, ei, brpw]; omega) | exact bit_eq (by simp only [eu]; omega) | exact ofNat_eq (by simp only [eo, Bool.toNat_false]; omega)
theorem tmacc (h : Hd) (both : Bool) (d : Reg) (a : Src) : Statement (.tmacc h both d a) := by
  intro hw l hl
  obtain ⟨hx, ho⟩ := wf_parts hl hw
  cases hl
  have := bool_lt both
  have := d.isLt
  have := a.r.isLt
  have := a.perm.isLt
  refine decode_of rfl hw rfl (by decide) (by omega) (by omega) (by omega) (lt31 (eo_lt (by omega) (by omega) (by omega) (by omega) (by omega))) (fun hh => hx hh (fun q => nomatch q)) (by decide) ?_
  have e1 := fun O D A LA B LB => @eo_spec O h D A B LA LB 0 (a.perm.toNat) (0) (both.toNat) (0) false (by omega) (by omega)
  have e2 := fun O D A LA B LB => @eo_mode O h D A B LA LB 0 (a.perm.toNat) (0) (both.toNat) (0) false (by omega)
  have e3 := fun O D B LB => @eo_srcA0 O h D B LB 0 (both.toNat) (0) false a (by omega) (by omega)
  simp [-BitVec.toNat_ofNat, Fields.instr, Fields.laneRest, e1, e2, e3] <;> (try and_intros) <;> first | exact ofNat_eq (by omega) | exact bit_eq (by omega) | exact od_sw _ | exact ofNat_eq (by simp only [eu, ei, brpw]; omega) | exact bit_eq (by simp only [eu]; omega) | exact ofNat_eq (by simp only [eo, Bool.toNat_false]; omega)
theorem tmred (h : Hd) (d : Reg) (a : Src) : Statement (.tmred h d a) := by
  intro hw l hl
  obtain ⟨hx, ho⟩ := wf_parts hl hw
  cases hl
  have := d.isLt
  have := a.r.isLt
  have := a.perm.isLt
  refine decode_of rfl hw rfl (by decide) (by omega) (by omega) (by omega) (lt31 (eo_lt (by omega) (by omega) (by omega) (by omega) (by omega))) (fun hh => hx hh (fun q => nomatch q)) (by decide) ?_
  have e1 := fun O D A LA B LB => @eo_spec O h D A B LA LB 0 (a.perm.toNat) (0) (0) (0) false (by omega) (by omega)
  have e2 := fun O D A LA B LB => @eo_mode O h D A B LA LB 0 (a.perm.toNat) (0) (0) (0) false (by omega)
  have e3 := fun O D B LB => @eo_srcA0 O h D B LB 0 (0) (0) false a (by omega) (by omega)
  simp [-BitVec.toNat_ofNat, Fields.instr, Fields.laneRest, e1, e2, e3]
theorem tmfin (h : Hd) (d : Reg) (a : Src) : Statement (.tmfin h d a) := by
  intro hw l hl
  obtain ⟨hx, ho⟩ := wf_parts hl hw
  cases hl
  have := d.isLt
  have := a.r.isLt
  have := a.perm.isLt
  refine decode_of rfl hw rfl (by decide) (by omega) (by omega) (by omega) (lt31 (eo_lt (by omega) (by omega) (by omega) (by omega) (by omega))) (fun hh => hx hh (fun q => nomatch q)) (by decide) ?_
  have e1 := fun O D A LA B LB => @eo_spec O h D A B LA LB 0 (a.perm.toNat) (0) (0) (0) false (by omega) (by omega)
  have e2 := fun O D A LA B LB => @eo_mode O h D A B LA LB 0 (a.perm.toNat) (0) (0) (0) false (by omega)
  have e3 := fun O D B LB => @eo_srcA0 O h D B LB 0 (0) (0) false a (by omega) (by omega)
  simp [-BitVec.toNat_ofNat, Fields.instr, Fields.laneRest, e1, e2, e3]
theorem xget (h : Hd) (t : ET) (d : Reg) (a : RL) (b : Src) : Statement (.xget h t d a b) := by
  intro hw l hl
  obtain ⟨hx, ho⟩ := wf_parts hl hw
  cases hl
  have := d.isLt
  have := a.r.isLt
  have := b.r.isLt
  have := et_lt t
  have := b.perm.isLt
  refine decode_of rfl hw rfl (by decide) (by omega) (by omega) (by omega) (lt31 (eo_lt (by omega) (by omega) (by omega) (by omega) (by omega))) (fun hh => hx hh (fun q => nomatch q)) (by decide) ?_
  have e1 := fun O D A LA B LB => @eo_spec O h D A B LA LB 0 (0) (b.perm.toNat) (t.code) (0) false (by omega) (by omega)
  have e2 := fun O D A LA B LB => @eo_mode O h D A B LA LB 0 (0) (b.perm.toNat) (t.code) (0) false (by omega)
  have e4 := fun O D A LA => @eo_srcB O h D A LA 0 (t.code) (0) (0) false b (by omega) (by omega)
  simp [-BitVec.toNat_ofNat, Fields.instr, Fields.laneRest, e1, e2, e4, Nat.mod_eq_of_lt (et_lt t)] <;> (try and_intros) <;> first | exact ofNat_eq (by omega) | exact bit_eq (by omega) | exact od_sw _ | exact ofNat_eq (by simp only [eu, ei, brpw]; omega) | exact bit_eq (by simp only [eu]; omega) | exact ofNat_eq (by simp only [eo, Bool.toNat_false]; omega)
theorem xgetu (h : Hd) (t : ET) (d : Reg) (a : RL) (b : Src) : Statement (.xgetu h t d a b) := by
  intro hw l hl
  obtain ⟨hx, ho⟩ := wf_parts hl hw
  cases hl
  have := d.isLt
  have := a.r.isLt
  have := b.r.isLt
  have := et_lt t
  have := b.perm.isLt
  refine decode_of rfl hw rfl (by decide) (by omega) (by omega) (by omega) (lt31 (eo_lt (by omega) (by omega) (by omega) (by omega) (by omega))) (fun hh => hx hh (fun q => nomatch q)) (by decide) ?_
  have e1 := fun O D A LA B LB => @eo_spec O h D A B LA LB 0 (0) (b.perm.toNat) (t.code) (0) false (by omega) (by omega)
  have e2 := fun O D A LA B LB => @eo_mode O h D A B LA LB 0 (0) (b.perm.toNat) (t.code) (0) false (by omega)
  have e4 := fun O D A LA => @eo_srcB O h D A LA 0 (t.code) (0) (0) false b (by omega) (by omega)
  simp [-BitVec.toNat_ofNat, Fields.instr, Fields.laneRest, e1, e2, e4, Nat.mod_eq_of_lt (et_lt t)] <;> (try and_intros) <;> first | exact ofNat_eq (by omega) | exact bit_eq (by omega) | exact od_sw _ | exact ofNat_eq (by simp only [eu, ei, brpw]; omega) | exact bit_eq (by simp only [eu]; omega) | exact ofNat_eq (by simp only [eo, Bool.toNat_false]; omega)
theorem red (h : Hd) (t : RT) (op : BitVec 3) (m : Rnd) (d : Reg) (a : Src) : Statement (.red h t op m d a) := by
  intro hw l hl
  obtain ⟨hx, ho⟩ := wf_parts hl hw
  cases t
  all_goals try (simp [Instr.opsOk] at ho; done)
  all_goals
    cases hl
    have := op.isLt
    have := d.isLt
    have := a.r.isLt
    have := rnd_lt m
    have := a.perm.isLt
    refine decode_of rfl hw rfl (by decide) (by omega) (by omega) (by omega) (lt31 (eo_lt (by omega) (by omega) (by omega) (by omega) (by omega))) (fun hh => hx hh (fun q => nomatch q)) (by decide) ?_
    have e1 := fun O D A LA B LB => @eo_spec O h D A B LA LB 0 (a.perm.toNat) (0) (op.toNat) (m.code) false (by omega) (by omega)
    have e2 := fun O D A LA B LB => @eo_mode O h D A B LA LB 0 (a.perm.toNat) (0) (op.toNat) (m.code) false (by omega)
    have e3 := fun O D B LB => @eo_srcA0 O h D B LB 0 (op.toNat) (m.code) false a (by omega) (by omega)
    simp [-BitVec.toNat_ofNat, Fields.instr, Fields.laneRest, e1, e2, e3, ET.code, ET.wdCode, ET.hwdCode, FT.code, FT.hsCode, MSz.code, RT.code, MT.code, ET.ofCode, ET.wd, ET.hwd, FT.ofCode, FT.hs, MSz.ofCode, RT.ofCode, MT.ofCode]
theorem scan (h : Hd) (op : BitVec 3) (m : Rnd) (d : Reg) (a : Src) : Statement (.scan h op m d a) := by
  intro hw l hl
  obtain ⟨hx, ho⟩ := wf_parts hl hw
  cases hl
  have := op.isLt
  have := d.isLt
  have := a.r.isLt
  have := rnd_lt m
  have := a.perm.isLt
  refine decode_of rfl hw rfl (by decide) (by omega) (by omega) (by omega) (lt31 (eo_lt (by omega) (by omega) (by omega) (by omega) (by omega))) (fun hh => hx hh (fun q => nomatch q)) (by decide) ?_
  have e1 := fun O D A LA B LB => @eo_spec O h D A B LA LB 0 (a.perm.toNat) (0) (op.toNat) (m.code) false (by omega) (by omega)
  have e2 := fun O D A LA B LB => @eo_mode O h D A B LA LB 0 (a.perm.toNat) (0) (op.toNat) (m.code) false (by omega)
  have e3 := fun O D B LB => @eo_srcA0 O h D B LB 0 (op.toNat) (m.code) false a (by omega) (by omega)
  simp [-BitVec.toNat_ofNat, Fields.instr, Fields.laneRest, e1, e2, e3]
theorem xsend (h : Hd) (k : BitVec 4) (a : RL) : Statement (.xsend h k a) := by
  intro hw l hl
  obtain ⟨hx, ho⟩ := wf_parts hl hw
  cases hl
  have := k.isLt
  have := a.r.isLt
  refine decode_of rfl hw rfl (by decide) (by omega) (by omega) (by omega) (ei_lt (by omega) (by omega) (by omega) (by omega)) (fun hh => hx hh (fun q => nomatch q)) (by decide) ?_
  simp [-BitVec.toNat_ofNat, Fields.instr, Fields.laneRest] <;> (try and_intros) <;> first | exact ofNat_eq (by omega) | exact bit_eq (by omega) | exact od_sw _ | exact ofNat_eq (by simp only [eu, ei, brpw]; omega) | exact bit_eq (by simp only [eu]; omega) | exact ofNat_eq (by simp only [eo, Bool.toNat_false]; omega)
theorem xrecv (h : Hd) (k : BitVec 4) (d : Reg) : Statement (.xrecv h k d) := by
  intro hw l hl
  obtain ⟨hx, ho⟩ := wf_parts hl hw
  cases hl
  have := k.isLt
  have := d.isLt
  refine decode_of rfl hw rfl (by decide) (by omega) (by omega) (by omega) (ei_lt (by omega) (by omega) (by omega) (by omega)) (fun hh => hx hh (fun q => nomatch q)) (by decide) ?_
  simp [-BitVec.toNat_ofNat, Fields.instr, Fields.laneRest] <;> (try and_intros) <;> first | exact ofNat_eq (by omega) | exact bit_eq (by omega) | exact od_sw _ | exact ofNat_eq (by simp only [eu, ei, brpw]; omega) | exact bit_eq (by simp only [eu]; omega) | exact ofNat_eq (by simp only [eo, Bool.toNat_false]; omega)
theorem ballot (h : Hd) (d : Reg) (p : Prd) : Statement (.ballot h d p) := by
  intro hw l hl
  obtain ⟨hx, ho⟩ := wf_parts hl hw
  cases hl
  have := d.isLt
  have := p.isLt
  refine decode_of rfl hw rfl (by decide) (by omega) (by omega) (by omega) (by omega) (fun _ => rfl) (by decide) ?_
  simp [-BitVec.toNat_ofNat, Fields.instr, Fields.laneRest] <;> (try and_intros) <;> first | exact ofNat_eq (by omega) | exact bit_eq (by omega) | exact od_sw _ | exact ofNat_eq (by simp only [eu, ei, brpw]; omega) | exact bit_eq (by simp only [eu]; omega) | exact ofNat_eq (by simp only [eo, Bool.toNat_false]; omega)
theorem plog (h : Hd) (tt : BitVec 4) (pd : Prd) (pa : Prd) (pb : Prd) : Statement (.plog h tt pd pa pb) := by
  intro hw l hl
  obtain ⟨hx, ho⟩ := wf_parts hl hw
  cases hl
  have := tt.isLt
  have := pd.isLt
  have := pa.isLt
  have := pb.isLt
  refine decode_of rfl hw rfl (by decide) (by omega) (by omega) (by omega) (lt31 (eo_lt (by omega) (by omega) (by omega) (by omega) (by omega))) (fun hh => hx hh (fun q => nomatch q)) (by decide) ?_
  have e1 := fun O D A LA B LB => @eo_spec O h D A B LA LB 0 (0) (0) (tt.toNat) (0) false (by omega) (by omega)
  have e2 := fun O D A LA B LB => @eo_mode O h D A B LA LB 0 (0) (0) (tt.toNat) (0) false (by omega)
  simp [-BitVec.toNat_ofNat, Fields.instr, Fields.laneRest, e1, e2] <;> (try and_intros) <;> first | exact ofNat_eq (by omega) | exact bit_eq (by omega) | exact od_sw _ | exact ofNat_eq (by simp only [eu, ei, brpw]; omega) | exact bit_eq (by simp only [eu]; omega) | exact ofNat_eq (by simp only [eo, Bool.toNat_false]; omega)
theorem brp (h : Hd) (p : Prd) (tgt : BitVec 12) (jn : BitVec 12) : Statement (.brp h p tgt jn) := by
  intro hw l hl
  obtain ⟨hx, ho⟩ := wf_parts hl hw
  cases hl
  have := p.isLt
  have := tgt.isLt
  have := jn.isLt
  refine decode_of rfl hw rfl (by decide) (by omega) (by omega) (by omega) (lt24 (brpw_lt (by omega) (by omega))) (fun hh => hx hh (fun q => nomatch q)) (by decide) ?_
  simp [-BitVec.toNat_ofNat, Fields.instr, Fields.laneRest] <;> (try and_intros) <;> first | exact ofNat_eq (by omega) | exact bit_eq (by omega) | exact od_sw _ | exact ofNat_eq (by simp only [eu, ei, brpw]; omega) | exact bit_eq (by simp only [eu]; omega) | exact ofNat_eq (by simp only [eo, Bool.toNat_false]; omega)
theorem join  : Statement (.join ) := by
  intro hw l hl
  obtain ⟨hx, ho⟩ := wf_parts hl hw
  cases hl
  refine decode_of rfl hw rfl (by decide) (by omega) (by omega) (by omega) (by omega) (fun _ => rfl) (by decide) ?_
  simp [-BitVec.toNat_ofNat, Fields.instr, Fields.laneRest]
theorem ld (h : Hd) (sz : MSz) (d : Reg) (a : RL) (em : EM) : Statement (.ld h sz d a em) := by
  intro hw l hl
  obtain ⟨hx, ho⟩ := wf_parts hl hw
  cases sz
  all_goals try (simp [Instr.opsOk] at ho; done)
  all_goals
    cases hl
    have := d.isLt
    have := a.r.isLt
    refine decode_of rfl hw rfl (by decide) (by omega) (by omega) (by omega) (em_lt _) (fun hh => hx hh (fun q => nomatch q)) (by decide) ?_
    simp [-BitVec.toNat_ofNat, Fields.instr, Fields.laneRest, ET.code, ET.wdCode, ET.hwdCode, FT.code, FT.hsCode, MSz.code, RT.code, MT.code, ET.ofCode, ET.wd, ET.hwd, FT.ofCode, FT.hs, MSz.ofCode, RT.ofCode, MT.ofCode]
theorem st (h : Hd) (sz : MSz) (a : RL) (b : RL) (em : EM) : Statement (.st h sz a b em) := by
  intro hw l hl
  obtain ⟨hx, ho⟩ := wf_parts hl hw
  cases sz
  all_goals try (simp [Instr.opsOk] at ho; done)
  all_goals
    cases hl
    have := a.r.isLt
    have := b.r.isLt
    refine decode_of rfl hw rfl (by decide) (by omega) (by omega) (by omega) (em_lt _) (fun hh => hx hh (fun q => nomatch q)) (by decide) ?_
    simp [-BitVec.toNat_ofNat, Fields.instr, Fields.laneRest, ET.code, ET.wdCode, ET.hwdCode, FT.code, FT.hsCode, MSz.code, RT.code, MT.code, ET.ofCode, ET.wd, ET.hwd, FT.ofCode, FT.hs, MSz.ofCode, RT.ofCode, MT.ofCode]
theorem atom (h : Hd) (sz : MSz) (d : Reg) (a : RL) (b : RL) (em : EM) : Statement (.atom h sz d a b em) := by
  intro hw l hl
  obtain ⟨hx, ho⟩ := wf_parts hl hw
  cases sz
  all_goals try (simp [Instr.opsOk] at ho; done)
  all_goals
    cases hl
    have := d.isLt
    have := a.r.isLt
    have := b.r.isLt
    refine decode_of rfl hw rfl (by decide) (by omega) (by omega) (by omega) (em_lt _) (fun hh => hx hh (fun q => nomatch q)) (by decide) ?_
    simp [-BitVec.toNat_ofNat, Fields.instr, Fields.laneRest, ET.code, ET.wdCode, ET.hwdCode, FT.code, FT.hsCode, MSz.code, RT.code, MT.code, ET.ofCode, ET.wd, ET.hwd, FT.ofCode, FT.hs, MSz.ofCode, RT.ofCode, MT.ofCode]
theorem cxch (h : Hd) (d : Reg) (a : RL) (b : RL) (em : EM) : Statement (.cxch h d a b em) := by
  intro hw l hl
  obtain ⟨hx, ho⟩ := wf_parts hl hw
  cases hl
  have := d.isLt
  have := a.r.isLt
  have := b.r.isLt
  refine decode_of rfl hw rfl (by decide) (by omega) (by omega) (by omega) (em_lt _) (fun hh => hx hh (fun q => nomatch q)) (by decide) ?_
  simp [-BitVec.toNat_ofNat, Fields.instr, Fields.laneRest]
theorem cldr (h : Hd) (d : Reg) (a : RL) (em : EM) : Statement (.cldr h d a em) := by
  intro hw l hl
  obtain ⟨hx, ho⟩ := wf_parts hl hw
  cases hl
  have := d.isLt
  have := a.r.isLt
  refine decode_of rfl hw rfl (by decide) (by omega) (by omega) (by omega) (em_lt _) (fun hh => hx hh (fun q => nomatch q)) (by decide) ?_
  simp [-BitVec.toNat_ofNat, Fields.instr, Fields.laneRest]
theorem nop (h : Hd) : Statement (.nop h) := by
  intro hw l hl
  obtain ⟨hx, ho⟩ := wf_parts hl hw
  cases hl
  refine decode_of rfl hw rfl (by decide) (by omega) (by omega) (by omega) (by omega) (fun _ => rfl) (by decide) ?_
  simp [-BitVec.toNat_ofNat, Fields.instr, Fields.uniA]
theorem br (h : Hd) (off : BitVec 24) : Statement (.br h off) := by
  intro hw l hl
  obtain ⟨hx, ho⟩ := wf_parts hl hw
  cases hl
  have := off.isLt
  refine decode_of rfl hw rfl (by decide) (by omega) (by omega) (by omega) (eu_lt (by omega) (by omega)) (fun hh => hx hh (fun q => nomatch q)) (by decide) ?_
  have e1 := fun O D A LA B LB => @eu_func O h D A B LA LB 0 off.toNat (by omega) (by omega)
  have e2 := fun O D A LA B LB => @eu_imm O h D A B LA LB 0 off.toNat (by omega)
  simp [-BitVec.toNat_ofNat, Fields.instr, Fields.uniA, e1, e2, Fields.od3] <;> (try and_intros) <;> first | exact ofNat_eq (by omega) | exact bit_eq (by omega) | exact od_sw _ | exact ofNat_eq (by simp only [eu, ei, brpw]; omega) | exact bit_eq (by simp only [eu]; omega) | exact ofNat_eq (by simp only [eo, Bool.toNat_false]; omega)
theorem brc (h : Hd) (c : BitVec 2) (a : Reg) (off : BitVec 24) : Statement (.brc h c a off) := by
  intro hw l hl
  obtain ⟨hx, ho⟩ := wf_parts hl hw
  cases hl
  have := c.isLt
  have := a.isLt
  have := off.isLt
  refine decode_of rfl hw rfl (by decide) (by omega) (by omega) (by omega) (eu_lt (by omega) (by omega)) (fun hh => hx hh (fun q => nomatch q)) (by decide) ?_
  have e1 := fun O D A LA B LB => @eu_func O h D A B LA LB c.toNat off.toNat (by omega) (by omega)
  have e2 := fun O D A LA B LB => @eu_imm O h D A B LA LB c.toNat off.toNat (by omega)
  simp [-BitVec.toNat_ofNat, Fields.instr, Fields.uniA, e1, e2, Fields.od3] <;> (try and_intros) <;> first | exact ofNat_eq (by omega) | exact bit_eq (by omega) | exact od_sw _ | exact ofNat_eq (by simp only [eu, ei, brpw]; omega) | exact bit_eq (by simp only [eu]; omega) | exact ofNat_eq (by simp only [eo, Bool.toNat_false]; omega)
theorem brany (h : Hd) (p : Prd) (off : BitVec 24) : Statement (.brany h p off) := by
  intro hw l hl
  obtain ⟨hx, ho⟩ := wf_parts hl hw
  cases hl
  have := p.isLt
  have := off.isLt
  refine decode_of rfl hw rfl (by decide) (by omega) (by omega) (by omega) (eu_lt (by omega) (by omega)) (fun hh => hx hh (fun q => nomatch q)) (by decide) ?_
  have e1 := fun O D A LA B LB => @eu_func O h D A B LA LB 0 off.toNat (by omega) (by omega)
  have e2 := fun O D A LA B LB => @eu_imm O h D A B LA LB 0 off.toNat (by omega)
  simp [-BitVec.toNat_ofNat, Fields.instr, Fields.uniA, e1, e2, Fields.od3] <;> (try and_intros) <;> first | exact ofNat_eq (by omega) | exact bit_eq (by omega) | exact od_sw _ | exact ofNat_eq (by simp only [eu, ei, brpw]; omega) | exact bit_eq (by simp only [eu]; omega) | exact ofNat_eq (by simp only [eo, Bool.toNat_false]; omega)
theorem brall (h : Hd) (p : Prd) (off : BitVec 24) : Statement (.brall h p off) := by
  intro hw l hl
  obtain ⟨hx, ho⟩ := wf_parts hl hw
  cases hl
  have := p.isLt
  have := off.isLt
  refine decode_of rfl hw rfl (by decide) (by omega) (by omega) (by omega) (eu_lt (by omega) (by omega)) (fun hh => hx hh (fun q => nomatch q)) (by decide) ?_
  have e1 := fun O D A LA B LB => @eu_func O h D A B LA LB 0 off.toNat (by omega) (by omega)
  have e2 := fun O D A LA B LB => @eu_imm O h D A B LA LB 0 off.toNat (by omega)
  simp [-BitVec.toNat_ofNat, Fields.instr, Fields.uniA, e1, e2, Fields.od3] <;> (try and_intros) <;> first | exact ofNat_eq (by omega) | exact bit_eq (by omega) | exact od_sw _ | exact ofNat_eq (by simp only [eu, ei, brpw]; omega) | exact bit_eq (by simp only [eu]; omega) | exact ofNat_eq (by simp only [eo, Bool.toNat_false]; omega)
theorem jmpr (h : Hd) (a : Reg) : Statement (.jmpr h a) := by
  intro hw l hl
  obtain ⟨hx, ho⟩ := wf_parts hl hw
  cases hl
  have := a.isLt
  refine decode_of rfl hw rfl (by decide) (by omega) (by omega) (by omega) (by omega) (fun _ => rfl) (by decide) ?_
  simp [-BitVec.toNat_ofNat, Fields.instr, Fields.uniA]
theorem call (h : Hd) (k : BitVec 3) (off : BitVec 24) : Statement (.call h k off) := by
  intro hw l hl
  obtain ⟨hx, ho⟩ := wf_parts hl hw
  cases hl
  have := k.isLt
  have := off.isLt
  refine decode_of rfl hw rfl (by decide) (by omega) (by omega) (by omega) (eu_lt (by omega) (by omega)) (fun hh => hx hh (fun q => nomatch q)) (by decide) ?_
  have e1 := fun O D A LA B LB => @eu_func O h D A B LA LB (4 * k.toNat) off.toNat (by omega) (by omega)
  have e2 := fun O D A LA B LB => @eu_imm O h D A B LA LB (4 * k.toNat) off.toNat (by omega)
  simp [-BitVec.toNat_ofNat, Fields.instr, Fields.uniA, e1, e2, Fields.od3] <;> (try and_intros) <;> first | exact ofNat_eq (by omega) | exact bit_eq (by omega) | exact od_sw _ | exact ofNat_eq (by simp only [eu, ei, brpw]; omega) | exact bit_eq (by simp only [eu]; omega) | exact ofNat_eq (by simp only [eo, Bool.toNat_false]; omega)
theorem callr (h : Hd) (k : BitVec 3) (a : Reg) : Statement (.callr h k a) := by
  intro hw l hl
  obtain ⟨hx, ho⟩ := wf_parts hl hw
  cases hl
  have := k.isLt
  have := a.isLt
  refine decode_of rfl hw rfl (by decide) (by omega) (by omega) (by omega) (eu_lt (by omega) (by omega)) (fun hh => hx hh (fun q => nomatch q)) (by decide) ?_
  have e1 := fun O D A LA B LB => @eu_func O h D A B LA LB (4 * k.toNat) 0 (by omega) (by omega)
  have e2 := fun O D A LA B LB => @eu_imm O h D A B LA LB (4 * k.toNat) 0 (by omega)
  simp [-BitVec.toNat_ofNat, Fields.instr, Fields.uniA, e1, e2, Fields.od3]
theorem ret (h : Hd) : Statement (.ret h) := by
  intro hw l hl
  obtain ⟨hx, ho⟩ := wf_parts hl hw
  cases hl
  refine decode_of rfl hw rfl (by decide) (by omega) (by omega) (by omega) (by omega) (fun _ => rfl) (by decide) ?_
  simp [-BitVec.toNat_ofNat, Fields.instr, Fields.uniA]
theorem loop (h : Hd) (d : Reg) (off : BitVec 24) : Statement (.loop h d off) := by
  intro hw l hl
  obtain ⟨hx, ho⟩ := wf_parts hl hw
  cases hl
  have := d.isLt
  have := off.isLt
  refine decode_of rfl hw rfl (by decide) (by omega) (by omega) (by omega) (eu_lt (by omega) (by omega)) (fun hh => hx hh (fun q => nomatch q)) (by decide) ?_
  have e1 := fun O D A LA B LB => @eu_func O h D A B LA LB 0 off.toNat (by omega) (by omega)
  have e2 := fun O D A LA B LB => @eu_imm O h D A B LA LB 0 off.toNat (by omega)
  simp [-BitVec.toNat_ofNat, Fields.instr, Fields.uniA, e1, e2, Fields.od3] <;> (try and_intros) <;> first | exact ofNat_eq (by omega) | exact bit_eq (by omega) | exact od_sw _ | exact ofNat_eq (by simp only [eu, ei, brpw]; omega) | exact bit_eq (by simp only [eu]; omega) | exact ofNat_eq (by simp only [eo, Bool.toNat_false]; omega)
theorem exit (h : Hd) : Statement (.exit h) := by
  intro hw l hl
  obtain ⟨hx, ho⟩ := wf_parts hl hw
  cases hl
  refine decode_of rfl hw rfl (by decide) (by omega) (by omega) (by omega) (by omega) (fun _ => rfl) (by decide) ?_
  simp [-BitVec.toNat_ofNat, Fields.instr, Fields.uniA]
theorem exitLanesDone (g : Nat) (k : Nat) : Statement (.exitLanesDone g k) := event rfl
theorem trap (h : Hd) (code : BitVec 24) : Statement (.trap h code) := by
  intro hw l hl
  obtain ⟨hx, ho⟩ := wf_parts hl hw
  cases hl
  have := code.isLt
  refine decode_of rfl hw rfl (by decide) (by omega) (by omega) (by omega) (eu_lt (by omega) (by omega)) (fun hh => hx hh (fun q => nomatch q)) (by decide) ?_
  have e1 := fun O D A LA B LB => @eu_func O h D A B LA LB 0 code.toNat (by omega) (by omega)
  have e2 := fun O D A LA B LB => @eu_imm O h D A B LA LB 0 code.toNat (by omega)
  simp [-BitVec.toNat_ofNat, Fields.instr, Fields.uniA, e1, e2, Fields.od3] <;> (try and_intros) <;> first | exact ofNat_eq (by omega) | exact bit_eq (by omega) | exact od_sw _ | exact ofNat_eq (by simp only [eu, ei, brpw]; omega) | exact bit_eq (by simp only [eu]; omega) | exact ofNat_eq (by simp only [eo, Bool.toNat_false]; omega)
theorem yield (h : Hd) : Statement (.yield h) := by
  intro hw l hl
  obtain ⟨hx, ho⟩ := wf_parts hl hw
  cases hl
  refine decode_of rfl hw rfl (by decide) (by omega) (by omega) (by omega) (by omega) (fun _ => rfl) (by decide) ?_
  simp [-BitVec.toNat_ofNat, Fields.instr, Fields.uniA]
theorem yieldHoldEnd (g : Nat) (k : Nat) : Statement (.yieldHoldEnd g k) := event rfl
theorem uadd (h : Hd) (d : Reg) (a : Reg) (b : UOp) : Statement (.uadd h d a b) := by
  intro hw l hl
  obtain ⟨hx, ho⟩ := wf_parts hl hw
  cases hl
  have := d.isLt
  have := a.isLt
  refine decode_of rfl hw rfl (by decide) (by omega) (by omega) (ufield_lt b) (u_lt (by omega)) (fun hh => hx hh (fun q => nomatch q)) (by decide) ?_
  have e1 := fun O D A LA LB => (@u_all O h D A LA LB b (0) (by omega)).1
  have e2 := fun O D A LA LB => (@u_all O h D A LA LB b (0) (by omega)).2
  simp [-BitVec.toNat_ofNat, Fields.instr, Fields.uniA, e1, e2]
theorem usub (h : Hd) (d : Reg) (a : Reg) (b : UOp) : Statement (.usub h d a b) := by
  intro hw l hl
  obtain ⟨hx, ho⟩ := wf_parts hl hw
  cases hl
  have := d.isLt
  have := a.isLt
  refine decode_of rfl hw rfl (by decide) (by omega) (by omega) (ufield_lt b) (u_lt (by omega)) (fun hh => hx hh (fun q => nomatch q)) (by decide) ?_
  have e1 := fun O D A LA LB => (@u_all O h D A LA LB b (0) (by omega)).1
  have e2 := fun O D A LA LB => (@u_all O h D A LA LB b (0) (by omega)).2
  simp [-BitVec.toNat_ofNat, Fields.instr, Fields.uniA, e1, e2]
theorem umul (h : Hd) (d : Reg) (a : Reg) (b : UOp) : Statement (.umul h d a b) := by
  intro hw l hl
  obtain ⟨hx, ho⟩ := wf_parts hl hw
  cases hl
  have := d.isLt
  have := a.isLt
  refine decode_of rfl hw rfl (by decide) (by omega) (by omega) (ufield_lt b) (u_lt (by omega)) (fun hh => hx hh (fun q => nomatch q)) (by decide) ?_
  have e1 := fun O D A LA LB => (@u_all O h D A LA LB b (0) (by omega)).1
  have e2 := fun O D A LA LB => (@u_all O h D A LA LB b (0) (by omega)).2
  simp [-BitVec.toNat_ofNat, Fields.instr, Fields.uniA, e1, e2]
theorem uand (h : Hd) (d : Reg) (a : Reg) (b : UOp) : Statement (.uand h d a b) := by
  intro hw l hl
  obtain ⟨hx, ho⟩ := wf_parts hl hw
  cases hl
  have := d.isLt
  have := a.isLt
  refine decode_of rfl hw rfl (by decide) (by omega) (by omega) (ufield_lt b) (u_lt (by omega)) (fun hh => hx hh (fun q => nomatch q)) (by decide) ?_
  have e1 := fun O D A LA LB => (@u_all O h D A LA LB b (0) (by omega)).1
  have e2 := fun O D A LA LB => (@u_all O h D A LA LB b (0) (by omega)).2
  simp [-BitVec.toNat_ofNat, Fields.instr, Fields.uniA, e1, e2]
theorem uor (h : Hd) (d : Reg) (a : Reg) (b : UOp) : Statement (.uor h d a b) := by
  intro hw l hl
  obtain ⟨hx, ho⟩ := wf_parts hl hw
  cases hl
  have := d.isLt
  have := a.isLt
  refine decode_of rfl hw rfl (by decide) (by omega) (by omega) (ufield_lt b) (u_lt (by omega)) (fun hh => hx hh (fun q => nomatch q)) (by decide) ?_
  have e1 := fun O D A LA LB => (@u_all O h D A LA LB b (0) (by omega)).1
  have e2 := fun O D A LA LB => (@u_all O h D A LA LB b (0) (by omega)).2
  simp [-BitVec.toNat_ofNat, Fields.instr, Fields.uniA, e1, e2]
theorem uxor (h : Hd) (d : Reg) (a : Reg) (b : UOp) : Statement (.uxor h d a b) := by
  intro hw l hl
  obtain ⟨hx, ho⟩ := wf_parts hl hw
  cases hl
  have := d.isLt
  have := a.isLt
  refine decode_of rfl hw rfl (by decide) (by omega) (by omega) (ufield_lt b) (u_lt (by omega)) (fun hh => hx hh (fun q => nomatch q)) (by decide) ?_
  have e1 := fun O D A LA LB => (@u_all O h D A LA LB b (0) (by omega)).1
  have e2 := fun O D A LA LB => (@u_all O h D A LA LB b (0) (by omega)).2
  simp [-BitVec.toNat_ofNat, Fields.instr, Fields.uniA, e1, e2]
theorem ushl (h : Hd) (d : Reg) (a : Reg) (b : UOp) : Statement (.ushl h d a b) := by
  intro hw l hl
  obtain ⟨hx, ho⟩ := wf_parts hl hw
  cases hl
  have := d.isLt
  have := a.isLt
  refine decode_of rfl hw rfl (by decide) (by omega) (by omega) (ufield_lt b) (u_lt (by omega)) (fun hh => hx hh (fun q => nomatch q)) (by decide) ?_
  have e1 := fun O D A LA LB => (@u_all O h D A LA LB b (0) (by omega)).1
  have e2 := fun O D A LA LB => (@u_all O h D A LA LB b (0) (by omega)).2
  simp [-BitVec.toNat_ofNat, Fields.instr, Fields.uniA, e1, e2]
theorem ushr (h : Hd) (d : Reg) (a : Reg) (b : UOp) : Statement (.ushr h d a b) := by
  intro hw l hl
  obtain ⟨hx, ho⟩ := wf_parts hl hw
  cases hl
  have := d.isLt
  have := a.isLt
  refine decode_of rfl hw rfl (by decide) (by omega) (by omega) (ufield_lt b) (u_lt (by omega)) (fun hh => hx hh (fun q => nomatch q)) (by decide) ?_
  have e1 := fun O D A LA LB => (@u_all O h D A LA LB b (0) (by omega)).1
  have e2 := fun O D A LA LB => (@u_all O h D A LA LB b (0) (by omega)).2
  simp [-BitVec.toNat_ofNat, Fields.instr, Fields.uniA, e1, e2]
theorem usar (h : Hd) (d : Reg) (a : Reg) (b : UOp) : Statement (.usar h d a b) := by
  intro hw l hl
  obtain ⟨hx, ho⟩ := wf_parts hl hw
  cases hl
  have := d.isLt
  have := a.isLt
  refine decode_of rfl hw rfl (by decide) (by omega) (by omega) (ufield_lt b) (u_lt (by omega)) (fun hh => hx hh (fun q => nomatch q)) (by decide) ?_
  have e1 := fun O D A LA LB => (@u_all O h D A LA LB b (0) (by omega)).1
  have e2 := fun O D A LA LB => (@u_all O h D A LA LB b (0) (by omega)).2
  simp [-BitVec.toNat_ofNat, Fields.instr, Fields.uniA, e1, e2]
theorem ucmp (h : Hd) (c : ICond) (pd : Prd) (a : Reg) (b : UOp) : Statement (.ucmp h c pd a b) := by
  intro hw l hl
  obtain ⟨hx, ho⟩ := wf_parts hl hw
  cases hl
  have := pd.isLt
  have := a.isLt
  have := icond_lt c
  refine decode_of rfl hw rfl (by decide) (by omega) (by omega) (ufield_lt b) (u_lt (by omega)) (fun hh => hx hh (fun q => nomatch q)) (by decide) ?_
  have e1 := fun O D A LA LB => (@u_all O h D A LA LB b (c.code) (by omega)).1
  have e2 := fun O D A LA LB => (@u_all O h D A LA LB b (c.code) (by omega)).2
  simp [-BitVec.toNat_ofNat, Fields.instr, Fields.uniA, e1, e2] <;> (try and_intros) <;> first | exact ofNat_eq (by omega) | exact bit_eq (by omega) | exact od_sw _ | exact ofNat_eq (by simp only [eu, ei, brpw]; omega) | exact bit_eq (by simp only [eu]; omega) | exact ofNat_eq (by simp only [eo, Bool.toNat_false]; omega)
theorem umov (h : Hd) (d : Reg) (b : UOp) : Statement (.umov h d b) := by
  intro hw l hl
  obtain ⟨hx, ho⟩ := wf_parts hl hw
  cases hl
  have := d.isLt
  refine decode_of rfl hw rfl (by decide) (by omega) (by omega) (ufield_lt b) (u_lt (by omega)) (fun hh => hx hh (fun q => nomatch q)) (by decide) ?_
  have e1 := fun O D A LA LB => (@u_all O h D A LA LB b (0) (by omega)).1
  have e2 := fun O D A LA LB => (@u_all O h D A LA LB b (0) (by omega)).2
  simp [-BitVec.toNat_ofNat, Fields.instr, Fields.uniA, e1, e2]
theorem umin (h : Hd) (d : Reg) (a : Reg) (b : UOp) : Statement (.umin h d a b) := by
  intro hw l hl
  obtain ⟨hx, ho⟩ := wf_parts hl hw
  cases hl
  have := d.isLt
  have := a.isLt
  refine decode_of rfl hw rfl (by decide) (by omega) (by omega) (ufield_lt b) (u_lt (by omega)) (fun hh => hx hh (fun q => nomatch q)) (by decide) ?_
  have e1 := fun O D A LA LB => (@u_all O h D A LA LB b (0) (by omega)).1
  have e2 := fun O D A LA LB => (@u_all O h D A LA LB b (0) (by omega)).2
  simp [-BitVec.toNat_ofNat, Fields.instr, Fields.uniA, e1, e2]
theorem umax (h : Hd) (d : Reg) (a : Reg) (b : UOp) : Statement (.umax h d a b) := by
  intro hw l hl
  obtain ⟨hx, ho⟩ := wf_parts hl hw
  cases hl
  have := d.isLt
  have := a.isLt
  refine decode_of rfl hw rfl (by decide) (by omega) (by omega) (ufield_lt b) (u_lt (by omega)) (fun hh => hx hh (fun q => nomatch q)) (by decide) ?_
  have e1 := fun O D A LA LB => (@u_all O h D A LA LB b (0) (by omega)).1
  have e2 := fun O D A LA LB => (@u_all O h D A LA LB b (0) (by omega)).2
  simp [-BitVec.toNat_ofNat, Fields.instr, Fields.uniA, e1, e2]
theorem rdfl (h : Hd) (d : Reg) (a : Reg) : Statement (.rdfl h d a) := by
  intro hw l hl
  obtain ⟨hx, ho⟩ := wf_parts hl hw
  cases hl
  have := d.isLt
  have := a.isLt
  refine decode_of rfl hw rfl (by decide) (by omega) (by omega) (by omega) (by omega) (fun _ => rfl) (by decide) ?_
  simp [-BitVec.toNat_ofNat, Fields.instr, Fields.uniA]
theorem mdef (h : Hd) (slot : BitVec 6) (n : BitVec 6) (a : Reg) : Statement (.mdef h slot n a) := by
  intro hw l hl
  obtain ⟨hx, ho⟩ := wf_parts hl hw
  cases hl
  have := slot.isLt
  have := n.isLt
  have := a.isLt
  refine decode_of rfl hw rfl (by decide) (by omega) (by omega) (by omega) (eu_lt (by omega) (by omega)) (fun hh => hx hh (fun q => nomatch q)) (by decide) ?_
  have e1 := fun O D A LA B LB => @eu_func O h D A B LA LB slot.toNat n.toNat (by omega) (by omega)
  have e2 := fun O D A LA B LB => @eu_imm O h D A B LA LB slot.toNat n.toNat (by omega)
  simp [-BitVec.toNat_ofNat, Fields.instr, Fields.uniA, e1, e2, Fields.od3] <;> (try and_intros) <;> first | exact ofNat_eq (by omega) | exact bit_eq (by omega) | exact od_sw _ | exact ofNat_eq (by simp only [eu, ei, brpw]; omega) | exact bit_eq (by simp only [eu]; omega) | exact ofNat_eq (by simp only [eo, Bool.toNat_false]; omega)
theorem mdefComplete (g : Nat) (op : Nat) : Statement (.mdefComplete g op) := event rfl
theorem macroOp (h : Hd) (slot : BitVec 6) (o0 : Reg) (o1 : Reg) (o2 : Reg) (o3 : Reg) : Statement (.macroOp h slot o0 o1 o2 o3) := by
  intro hw l hl
  obtain ⟨hx, ho⟩ := wf_parts hl hw
  cases hl
  have := slot.isLt
  have := o0.isLt
  have := o1.isLt
  have := o2.isLt
  have := o3.isLt
  refine decode_of rfl hw rfl (by decide) (by omega) (by omega) (by omega) (eu_lt (by omega) (by omega)) (fun hh => hx hh (fun q => nomatch q)) (by decide) ?_
  have e1 := fun O D A LA B LB => @eu_func O h D A B LA LB slot.toNat o3.toNat (by omega) (by omega)
  have e2 := fun O D A LA B LB => @eu_imm O h D A B LA LB slot.toNat o3.toNat (by omega)
  simp [-BitVec.toNat_ofNat, Fields.instr, Fields.uniA, e1, e2, Fields.od3] <;> (try and_intros) <;> first | exact ofNat_eq (by omega) | exact bit_eq (by omega) | exact od_sw _ | exact ofNat_eq (by simp only [eu, ei, brpw]; omega) | exact bit_eq (by simp only [eu]; omega) | exact ofNat_eq (by simp only [eo, Bool.toNat_false]; omega)
theorem bar (h : Hd) (k : BitVec 4) : Statement (.bar h k) := by
  intro hw l hl
  obtain ⟨hx, ho⟩ := wf_parts hl hw
  cases hl
  have := k.isLt
  refine decode_of rfl hw rfl (by decide) (by omega) (by omega) (by omega) (eu_lt (by omega) (by omega)) (fun hh => hx hh (fun q => nomatch q)) (by decide) ?_
  have e1 := fun O D A LA B LB => @eu_func O h D A B LA LB 0 k.toNat (by omega) (by omega)
  have e2 := fun O D A LA B LB => @eu_imm O h D A B LA LB 0 k.toNat (by omega)
  simp [-BitVec.toNat_ofNat, Fields.instr, Fields.uniA, e1, e2, Fields.od3] <;> (try and_intros) <;> first | exact ofNat_eq (by omega) | exact bit_eq (by omega) | exact od_sw _ | exact ofNat_eq (by simp only [eu, ei, brpw]; omega) | exact bit_eq (by simp only [eu]; omega) | exact ofNat_eq (by simp only [eo, Bool.toNat_false]; omega)
theorem barArrive (g : Nat) (k : Nat) : Statement (.barArrive g k) := event rfl
theorem monitor (h : Hd) (a : Reg) : Statement (.monitor h a) := by
  intro hw l hl
  obtain ⟨hx, ho⟩ := wf_parts hl hw
  cases hl
  have := a.isLt
  refine decode_of rfl hw rfl (by decide) (by omega) (by omega) (by omega) (by omega) (fun _ => rfl) (by decide) ?_
  simp [-BitVec.toNat_ofNat, Fields.instr, Fields.uniA]
theorem mwait (h : Hd) (a : Reg) : Statement (.mwait h a) := by
  intro hw l hl
  obtain ⟨hx, ho⟩ := wf_parts hl hw
  cases hl
  have := a.isLt
  refine decode_of rfl hw rfl (by decide) (by omega) (by omega) (by omega) (by omega) (fun _ => rfl) (by decide) ?_
  simp [-BitVec.toNat_ofNat, Fields.instr, Fields.uniA]
theorem mwaitTimeout (g : Nat) (k : Nat) : Statement (.mwaitTimeout g k) := event rfl
theorem fenceAcq (h : Hd) (scope : BitVec 3) : Statement (.fenceAcq h scope) := by
  intro hw l hl
  obtain ⟨hx, ho⟩ := wf_parts hl hw
  cases hl
  have := scope.isLt
  refine decode_of rfl hw rfl (by decide) (by omega) (by omega) (by omega) (eu_lt (by omega) (by omega)) (fun hh => hx hh (fun q => nomatch q)) (by decide) ?_
  have e1 := fun O D A LA B LB => @eu_func O h D A B LA LB 0 scope.toNat (by omega) (by omega)
  have e2 := fun O D A LA B LB => @eu_imm O h D A B LA LB 0 scope.toNat (by omega)
  simp [-BitVec.toNat_ofNat, Fields.instr, Fields.uniA, e1, e2, Fields.od3] <;> (try and_intros) <;> first | exact ofNat_eq (by omega) | exact bit_eq (by omega) | exact od_sw _ | exact ofNat_eq (by simp only [eu, ei, brpw]; omega) | exact bit_eq (by simp only [eu]; omega) | exact ofNat_eq (by simp only [eo, Bool.toNat_false]; omega)
theorem fenceRel (h : Hd) (scope : BitVec 3) : Statement (.fenceRel h scope) := by
  intro hw l hl
  obtain ⟨hx, ho⟩ := wf_parts hl hw
  cases hl
  have := scope.isLt
  refine decode_of rfl hw rfl (by decide) (by omega) (by omega) (by omega) (eu_lt (by omega) (by omega)) (fun hh => hx hh (fun q => nomatch q)) (by decide) ?_
  have e1 := fun O D A LA B LB => @eu_func O h D A B LA LB 1 scope.toNat (by omega) (by omega)
  have e2 := fun O D A LA B LB => @eu_imm O h D A B LA LB 1 scope.toNat (by omega)
  simp [-BitVec.toNat_ofNat, Fields.instr, Fields.uniA, e1, e2, Fields.od3] <;> (try and_intros) <;> first | exact ofNat_eq (by omega) | exact bit_eq (by omega) | exact od_sw _ | exact ofNat_eq (by simp only [eu, ei, brpw]; omega) | exact bit_eq (by simp only [eu]; omega) | exact ofNat_eq (by simp only [eo, Bool.toNat_false]; omega)
theorem fenceAr (h : Hd) (scope : BitVec 3) : Statement (.fenceAr h scope) := by
  intro hw l hl
  obtain ⟨hx, ho⟩ := wf_parts hl hw
  cases hl
  have := scope.isLt
  refine decode_of rfl hw rfl (by decide) (by omega) (by omega) (by omega) (eu_lt (by omega) (by omega)) (fun hh => hx hh (fun q => nomatch q)) (by decide) ?_
  have e1 := fun O D A LA B LB => @eu_func O h D A B LA LB 2 scope.toNat (by omega) (by omega)
  have e2 := fun O D A LA B LB => @eu_imm O h D A B LA LB 2 scope.toNat (by omega)
  simp [-BitVec.toNat_ofNat, Fields.instr, Fields.uniA, e1, e2, Fields.od3] <;> (try and_intros) <;> first | exact ofNat_eq (by omega) | exact bit_eq (by omega) | exact od_sw _ | exact ofNat_eq (by simp only [eu, ei, brpw]; omega) | exact bit_eq (by simp only [eu]; omega) | exact ofNat_eq (by simp only [eo, Bool.toNat_false]; omega)
theorem fenceSc (h : Hd) (scope : BitVec 3) : Statement (.fenceSc h scope) := by
  intro hw l hl
  obtain ⟨hx, ho⟩ := wf_parts hl hw
  cases hl
  have := scope.isLt
  refine decode_of rfl hw rfl (by decide) (by omega) (by omega) (by omega) (eu_lt (by omega) (by omega)) (fun hh => hx hh (fun q => nomatch q)) (by decide) ?_
  have e1 := fun O D A LA B LB => @eu_func O h D A B LA LB 3 scope.toNat (by omega) (by omega)
  have e2 := fun O D A LA B LB => @eu_imm O h D A B LA LB 3 scope.toNat (by omega)
  simp [-BitVec.toNat_ofNat, Fields.instr, Fields.uniA, e1, e2, Fields.od3] <;> (try and_intros) <;> first | exact ofNat_eq (by omega) | exact bit_eq (by omega) | exact od_sw _ | exact ofNat_eq (by simp only [eu, ei, brpw]; omega) | exact bit_eq (by simp only [eu]; omega) | exact ofNat_eq (by simp only [eo, Bool.toNat_false]; omega)
theorem fenceEng (h : Hd) (scope : BitVec 3) : Statement (.fenceEng h scope) := by
  intro hw l hl
  obtain ⟨hx, ho⟩ := wf_parts hl hw
  cases hl
  have := scope.isLt
  refine decode_of rfl hw rfl (by decide) (by omega) (by omega) (by omega) (eu_lt (by omega) (by omega)) (fun hh => hx hh (fun q => nomatch q)) (by decide) ?_
  have e1 := fun O D A LA B LB => @eu_func O h D A B LA LB 4 scope.toNat (by omega) (by omega)
  have e2 := fun O D A LA B LB => @eu_imm O h D A B LA LB 4 scope.toNat (by omega)
  simp [-BitVec.toNat_ofNat, Fields.instr, Fields.uniA, e1, e2, Fields.od3] <;> (try and_intros) <;> first | exact ofNat_eq (by omega) | exact bit_eq (by omega) | exact od_sw _ | exact ofNat_eq (by simp only [eu, ei, brpw]; omega) | exact bit_eq (by simp only [eu]; omega) | exact ofNat_eq (by simp only [eo, Bool.toNat_false]; omega)
theorem pset (h : Hd) (d : Reg) (a : Reg) : Statement (.pset h d a) := by
  intro hw l hl
  obtain ⟨hx, ho⟩ := wf_parts hl hw
  cases hl
  have := d.isLt
  have := a.isLt
  refine decode_of rfl hw rfl (by decide) (by omega) (by omega) (by omega) (by omega) (fun _ => rfl) (by decide) ?_
  simp [-BitVec.toNat_ofNat, Fields.instr, Fields.uniA]
theorem poolMove (c : Nat) : Statement (.poolMove c) := event rfl
theorem pqry (h : Hd) (d : Reg) (a : Reg) : Statement (.pqry h d a) := by
  intro hw l hl
  obtain ⟨hx, ho⟩ := wf_parts hl hw
  cases hl
  have := d.isLt
  have := a.isLt
  refine decode_of rfl hw rfl (by decide) (by omega) (by omega) (by omega) (by omega) (fun _ => rfl) (by decide) ?_
  simp [-BitVec.toNat_ofNat, Fields.instr, Fields.uniA]
theorem smap (h : Hd) (copyIn : Bool) (n : BitVec 15) (a : Reg) (b : Reg) : Statement (.smap h copyIn n a b) := by
  intro hw l hl
  obtain ⟨hx, ho⟩ := wf_parts hl hw
  cases hl
  have := bool_lt copyIn
  have := n.isLt
  have := a.isLt
  have := b.isLt
  refine decode_of rfl hw rfl (by decide) (by omega) (by omega) (by omega) (eu_lt (by omega) (by omega)) (fun hh => hx hh (fun q => nomatch q)) (by decide) ?_
  have e1 := fun O D A LA B LB => @eu_func O h D A B LA LB copyIn.toNat n.toNat (by omega) (by omega)
  have e2 := fun O D A LA B LB => @eu_imm O h D A B LA LB copyIn.toNat n.toNat (by omega)
  simp [-BitVec.toNat_ofNat, Fields.instr, Fields.uniA, e1, e2, Fields.od3] <;> (try and_intros) <;> first | exact ofNat_eq (by omega) | exact bit_eq (by omega) | exact od_sw _ | exact ofNat_eq (by simp only [eu, ei, brpw]; omega) | exact bit_eq (by simp only [eu]; omega) | exact ofNat_eq (by simp only [eo, Bool.toNat_false]; omega)
theorem sunmap (h : Hd) (a : Reg) : Statement (.sunmap h a) := by
  intro hw l hl
  obtain ⟨hx, ho⟩ := wf_parts hl hw
  cases hl
  have := a.isLt
  refine decode_of rfl hw rfl (by decide) (by omega) (by omega) (by omega) (by omega) (fun _ => rfl) (by decide) ?_
  simp [-BitVec.toNat_ofNat, Fields.instr, Fields.uniA]
theorem hres (h : Hd) (copyIn : Bool) (pri : BitVec 3) (pin : Bool) (k : BitVec 4) (n : BitVec 15) (a : Reg) (b : Reg) : Statement (.hres h copyIn pri pin k n a b) := by
  intro hw l hl
  obtain ⟨hx, ho⟩ := wf_parts hl hw
  cases hl
  have := bool_lt copyIn
  have := pri.isLt
  have := bool_lt pin
  have := k.isLt
  have := n.isLt
  have := a.isLt
  have := b.isLt
  refine decode_of rfl hw rfl (by decide) (by omega) (by omega) (by omega) (eu_lt (by omega) (by omega)) (fun hh => hx hh (fun q => nomatch q)) (by decide) ?_
  have e1 := fun O D A LA B LB => @eu_func O h D A B LA LB (copyIn.toNat + 2 * pri.toNat + 16 * pin.toNat) n.toNat (by omega) (by omega)
  have e2 := fun O D A LA B LB => @eu_imm O h D A B LA LB (copyIn.toNat + 2 * pri.toNat + 16 * pin.toNat) n.toNat (by omega)
  simp [-BitVec.toNat_ofNat, Fields.instr, Fields.uniA, e1, e2, Fields.od3] <;> (try and_intros) <;> first | exact ofNat_eq (by omega) | exact bit_eq (by omega) | exact od_sw _ | exact ofNat_eq (by simp only [eu, ei, brpw]; omega) | exact bit_eq (by simp only [eu]; omega) | exact ofNat_eq (by simp only [eo, Bool.toNat_false]; omega)
theorem hevict (h : Hd) (k : BitVec 4) : Statement (.hevict h k) := by
  intro hw l hl
  obtain ⟨hx, ho⟩ := wf_parts hl hw
  cases hl
  have := k.isLt
  refine decode_of rfl hw rfl (by decide) (by omega) (by omega) (by omega) (by omega) (fun _ => rfl) (by decide) ?_
  simp [-BitVec.toNat_ofNat, Fields.instr, Fields.uniA] <;> (try and_intros) <;> first | exact ofNat_eq (by omega) | exact bit_eq (by omega) | exact od_sw _ | exact ofNat_eq (by simp only [eu, ei, brpw]; omega) | exact bit_eq (by simp only [eu]; omega) | exact ofNat_eq (by simp only [eo, Bool.toNat_false]; omega)
theorem hdemote (h : Hd) (k : BitVec 4) : Statement (.hdemote h k) := by
  intro hw l hl
  obtain ⟨hx, ho⟩ := wf_parts hl hw
  cases hl
  have := k.isLt
  refine decode_of rfl hw rfl (by decide) (by omega) (by omega) (by omega) (by omega) (fun _ => rfl) (by decide) ?_
  simp [-BitVec.toNat_ofNat, Fields.instr, Fields.uniA] <;> (try and_intros) <;> first | exact ofNat_eq (by omega) | exact bit_eq (by omega) | exact od_sw _ | exact ofNat_eq (by simp only [eu, ei, brpw]; omega) | exact bit_eq (by simp only [eu]; omega) | exact ofNat_eq (by simp only [eo, Bool.toNat_false]; omega)
theorem handleMoveComplete (g : Nat) (op : Nat) : Statement (.handleMoveComplete g op) := event rfl
theorem copy (h : Hd) (hint : BitVec 2) (d : Reg) (a : Reg) (b : Reg) : Statement (.copy h hint d a b) := by
  intro hw l hl
  obtain ⟨hx, ho⟩ := wf_parts hl hw
  cases hl
  have := hint.isLt
  have := d.isLt
  have := a.isLt
  have := b.isLt
  refine decode_of rfl hw rfl (by decide) (by omega) (by omega) (by omega) (eu_lt (by omega) (by omega)) (fun hh => hx hh (fun q => nomatch q)) (by decide) ?_
  have e1 := fun O D A LA B LB => @eu_func O h D A B LA LB (2 * hint.toNat) 0 (by omega) (by omega)
  have e2 := fun O D A LA B LB => @eu_imm O h D A B LA LB (2 * hint.toNat) 0 (by omega)
  simp [-BitVec.toNat_ofNat, Fields.instr, Fields.uniB, e1, e2, Fields.od3]
theorem copyHeld (h : Hd) (hint : BitVec 2) (k : BitVec 4) (d : Reg) (a : Reg) (b : Reg) : Statement (.copyHeld h hint k d a b) := by
  intro hw l hl
  obtain ⟨hx, ho⟩ := wf_parts hl hw
  cases hl
  have := hint.isLt
  have := k.isLt
  have := d.isLt
  have := a.isLt
  have := b.isLt
  refine decode_of rfl hw rfl (by decide) (by omega) (by omega) (by omega) (eu_lt (by omega) (by omega)) (fun hh => hx hh (fun q => nomatch q)) (by decide) ?_
  have e1 := fun O D A LA B LB => @eu_func O h D A B LA LB (1 + 2 * hint.toNat) k.toNat (by omega) (by omega)
  have e2 := fun O D A LA B LB => @eu_imm O h D A B LA LB (1 + 2 * hint.toNat) k.toNat (by omega)
  simp [-BitVec.toNat_ofNat, Fields.instr, Fields.uniB, e1, e2, Fields.od3] <;> (try and_intros) <;> first | exact ofNat_eq (by omega) | exact bit_eq (by omega) | exact od_sw _ | exact ofNat_eq (by simp only [eu, ei, brpw]; omega) | exact bit_eq (by simp only [eu]; omega) | exact ofNat_eq (by simp only [eo, Bool.toNat_false]; omega)
theorem copyLineLanded (e : Nat) (line : Nat) : Statement (.copyLineLanded e line) := event rfl
theorem copyComplete (e : Nat) : Statement (.copyComplete e) := event rfl
theorem release (h : Hd) (a : Reg) : Statement (.release h a) := by
  intro hw l hl
  obtain ⟨hx, ho⟩ := wf_parts hl hw
  cases hl
  have := a.isLt
  refine decode_of rfl hw rfl (by decide) (by omega) (by omega) (by omega) (by omega) (fun _ => rfl) (by decide) ?_
  simp [-BitVec.toNat_ofNat, Fields.instr, Fields.uniB]
theorem releaseStart (b : Nat) (k : Nat) : Statement (.releaseStart b k) := event rfl
theorem bin (h : Hd) (clear : Bool) (base : BitVec 6) (nb : BitVec 7) (a : Reg) (b : Reg) : Statement (.bin h clear base nb a b) := by
  intro hw l hl
  obtain ⟨hx, ho⟩ := wf_parts hl hw
  cases hl
  have := bool_lt clear
  have := base.isLt
  have := nb.isLt
  have := a.isLt
  have := b.isLt
  refine decode_of rfl hw rfl (by decide) (by omega) (by omega) (by omega) (eu_lt (by omega) (by omega)) (fun hh => hx hh (fun q => nomatch q)) (by decide) ?_
  have e1 := fun O D A LA B LB => @eu_func O h D A B LA LB clear.toNat (base.toNat + 64 * nb.toNat) (by omega) (by omega)
  have e2 := fun O D A LA B LB => @eu_imm O h D A B LA LB clear.toNat (base.toNat + 64 * nb.toNat) (by omega)
  simp [-BitVec.toNat_ofNat, Fields.instr, Fields.uniB, e1, e2, Fields.od3] <;> (try and_intros) <;> first | exact ofNat_eq (by omega) | exact bit_eq (by omega) | exact od_sw _ | exact ofNat_eq (by simp only [eu, ei, brpw]; omega) | exact bit_eq (by simp only [eu]; omega) | exact ofNat_eq (by simp only [eo, Bool.toNat_false]; omega)
theorem binComplete (e : Nat) : Statement (.binComplete e) := event rfl
theorem publish (h : Hd) (scope : BitVec 3) (a : Reg) : Statement (.publish h scope a) := by
  intro hw l hl
  obtain ⟨hx, ho⟩ := wf_parts hl hw
  cases hl
  have := scope.isLt
  have := a.isLt
  refine decode_of rfl hw rfl (by decide) (by omega) (by omega) (by omega) (eu_lt (by omega) (by omega)) (fun hh => hx hh (fun q => nomatch q)) (by decide) ?_
  have e1 := fun O D A LA B LB => @eu_func O h D A B LA LB scope.toNat 0 (by omega) (by omega)
  have e2 := fun O D A LA B LB => @eu_imm O h D A B LA LB scope.toNat 0 (by omega)
  simp [-BitVec.toNat_ofNat, Fields.instr, Fields.uniB, e1, e2, Fields.od3]
theorem publishFlip (e : Nat) : Statement (.publishFlip e) := event rfl
theorem cwb (h : Hd) (scope : BitVec 3) (a : Reg) (b : Reg) : Statement (.cwb h scope a b) := by
  intro hw l hl
  obtain ⟨hx, ho⟩ := wf_parts hl hw
  cases hl
  have := scope.isLt
  have := a.isLt
  have := b.isLt
  refine decode_of rfl hw rfl (by decide) (by omega) (by omega) (by omega) (eu_lt (by omega) (by omega)) (fun hh => hx hh (fun q => nomatch q)) (by decide) ?_
  have e1 := fun O D A LA B LB => @eu_func O h D A B LA LB scope.toNat 0 (by omega) (by omega)
  have e2 := fun O D A LA B LB => @eu_imm O h D A B LA LB scope.toNat 0 (by omega)
  simp [-BitVec.toNat_ofNat, Fields.instr, Fields.uniC, e1, e2, Fields.od3]
theorem cinv (h : Hd) (scope : BitVec 3) (a : Reg) (b : Reg) : Statement (.cinv h scope a b) := by
  intro hw l hl
  obtain ⟨hx, ho⟩ := wf_parts hl hw
  cases hl
  have := scope.isLt
  have := a.isLt
  have := b.isLt
  refine decode_of rfl hw rfl (by decide) (by omega) (by omega) (by omega) (eu_lt (by omega) (by omega)) (fun hh => hx hh (fun q => nomatch q)) (by decide) ?_
  have e1 := fun O D A LA B LB => @eu_func O h D A B LA LB scope.toNat 0 (by omega) (by omega)
  have e2 := fun O D A LA B LB => @eu_imm O h D A B LA LB scope.toNat 0 (by omega)
  simp [-BitVec.toNat_ofNat, Fields.instr, Fields.uniC, e1, e2, Fields.od3]
theorem attrInv (h : Hd) (a : Reg) (b : Reg) : Statement (.attrInv h a b) := by
  intro hw l hl
  obtain ⟨hx, ho⟩ := wf_parts hl hw
  cases hl
  have := a.isLt
  have := b.isLt
  refine decode_of rfl hw rfl (by decide) (by omega) (by omega) (by omega) (eu_lt (by omega) (by omega)) (fun hh => hx hh (fun q => nomatch q)) (by decide) ?_
  have e1 := fun O D A LA B LB => @eu_func O h D A B LA LB 0 0 (by omega) (by omega)
  have e2 := fun O D A LA B LB => @eu_imm O h D A B LA LB 0 0 (by omega)
  simp [-BitVec.toNat_ofNat, Fields.instr, Fields.uniC, e1, e2, Fields.od3]
theorem attrCc (h : Hd) (v : BitVec 2) (a : Reg) (b : Reg) : Statement (.attrCc h v a b) := by
  intro hw l hl
  obtain ⟨hx, ho⟩ := wf_parts hl hw
  cases hl
  have := v.isLt
  have := a.isLt
  have := b.isLt
  refine decode_of rfl hw rfl (by decide) (by omega) (by omega) (by omega) (eu_lt (by omega) (by omega)) (fun hh => hx hh (fun q => nomatch q)) (by decide) ?_
  have e1 := fun O D A LA B LB => @eu_func O h D A B LA LB 1 v.toNat (by omega) (by omega)
  have e2 := fun O D A LA B LB => @eu_imm O h D A B LA LB 1 v.toNat (by omega)
  simp [-BitVec.toNat_ofNat, Fields.instr, Fields.uniC, e1, e2, Fields.od3] <;> (try and_intros) <;> first | exact ofNat_eq (by omega) | exact bit_eq (by omega) | exact od_sw _ | exact ofNat_eq (by simp only [eu, ei, brpw]; omega) | exact bit_eq (by simp only [eu]; omega) | exact ofNat_eq (by simp only [eo, Bool.toNat_false]; omega)
theorem attrCpol (h : Hd) (v : BitVec 2) (a : Reg) (b : Reg) : Statement (.attrCpol h v a b) := by
  intro hw l hl
  obtain ⟨hx, ho⟩ := wf_parts hl hw
  cases hl
  have := v.isLt
  have := a.isLt
  have := b.isLt
  refine decode_of rfl hw rfl (by decide) (by omega) (by omega) (by omega) (eu_lt (by omega) (by omega)) (fun hh => hx hh (fun q => nomatch q)) (by decide) ?_
  have e1 := fun O D A LA B LB => @eu_func O h D A B LA LB 2 v.toNat (by omega) (by omega)
  have e2 := fun O D A LA B LB => @eu_imm O h D A B LA LB 2 v.toNat (by omega)
  simp [-BitVec.toNat_ofNat, Fields.instr, Fields.uniC, e1, e2, Fields.od3] <;> (try and_intros) <;> first | exact ofNat_eq (by omega) | exact bit_eq (by omega) | exact od_sw _ | exact ofNat_eq (by simp only [eu, ei, brpw]; omega) | exact bit_eq (by simp only [eu]; omega) | exact ofNat_eq (by simp only [eo, Bool.toNat_false]; omega)
theorem attrLc (h : Hd) (v : BitVec 2) (a : Reg) (b : Reg) : Statement (.attrLc h v a b) := by
  intro hw l hl
  obtain ⟨hx, ho⟩ := wf_parts hl hw
  cases hl
  have := v.isLt
  have := a.isLt
  have := b.isLt
  refine decode_of rfl hw rfl (by decide) (by omega) (by omega) (by omega) (eu_lt (by omega) (by omega)) (fun hh => hx hh (fun q => nomatch q)) (by decide) ?_
  have e1 := fun O D A LA B LB => @eu_func O h D A B LA LB 3 v.toNat (by omega) (by omega)
  have e2 := fun O D A LA B LB => @eu_imm O h D A B LA LB 3 v.toNat (by omega)
  simp [-BitVec.toNat_ofNat, Fields.instr, Fields.uniC, e1, e2, Fields.od3] <;> (try and_intros) <;> first | exact ofNat_eq (by omega) | exact bit_eq (by omega) | exact od_sw _ | exact ofNat_eq (by simp only [eu, ei, brpw]; omega) | exact bit_eq (by simp only [eu]; omega) | exact ofNat_eq (by simp only [eo, Bool.toNat_false]; omega)
theorem cgrp (h : Hd) (k : BitVec 3) (a : Reg) : Statement (.cgrp h k a) := by
  intro hw l hl
  obtain ⟨hx, ho⟩ := wf_parts hl hw
  cases hl
  have := k.isLt
  have := a.isLt
  refine decode_of rfl hw rfl (by decide) (by omega) (by omega) (by omega) (by omega) (fun _ => rfl) (by decide) ?_
  simp [-BitVec.toNat_ofNat, Fields.instr, Fields.uniB] <;> (try and_intros) <;> first | exact ofNat_eq (by omega) | exact bit_eq (by omega) | exact od_sw _ | exact ofNat_eq (by simp only [eu, ei, brpw]; omega) | exact bit_eq (by simp only [eu]; omega) | exact ofNat_eq (by simp only [eo, Bool.toNat_false]; omega)
theorem cag (h : Hd) (k : BitVec 3) (a : Reg) (b : Reg) (len : BitVec 24) : Statement (.cag h k a b len) := by
  intro hw l hl
  obtain ⟨hx, ho⟩ := wf_parts hl hw
  cases hl
  have := k.isLt
  have := a.isLt
  have := b.isLt
  have := len.isLt
  refine decode_of rfl hw rfl (by decide) (by omega) (by omega) (by omega) (eu_lt (by omega) (by omega)) (fun hh => hx hh (fun q => nomatch q)) (by decide) ?_
  have e1 := fun O D A LA B LB => @eu_func O h D A B LA LB 0 len.toNat (by omega) (by omega)
  have e2 := fun O D A LA B LB => @eu_imm O h D A B LA LB 0 len.toNat (by omega)
  simp [-BitVec.toNat_ofNat, Fields.instr, Fields.uniB, e1, e2, Fields.od3] <;> (try and_intros) <;> first | exact ofNat_eq (by omega) | exact bit_eq (by omega) | exact od_sw _ | exact ofNat_eq (by simp only [eu, ei, brpw]; omega) | exact bit_eq (by simp only [eu]; omega) | exact ofNat_eq (by simp only [eo, Bool.toNat_false]; omega)
theorem crs (h : Hd) (k : BitVec 3) (op : BitVec 4) (a : Reg) (b : Reg) (len : BitVec 24) : Statement (.crs h k op a b len) := by
  intro hw l hl
  obtain ⟨hx, ho⟩ := wf_parts hl hw
  cases hl
  have := k.isLt
  have := op.isLt
  have := a.isLt
  have := b.isLt
  have := len.isLt
  refine decode_of rfl hw rfl (by decide) (by omega) (by omega) (by omega) (eu_lt (by omega) (by omega)) (fun hh => hx hh (fun q => nomatch q)) (by decide) ?_
  have e1 := fun O D A LA B LB => @eu_func O h D A B LA LB op.toNat len.toNat (by omega) (by omega)
  have e2 := fun O D A LA B LB => @eu_imm O h D A B LA LB op.toNat len.toNat (by omega)
  simp [-BitVec.toNat_ofNat, Fields.instr, Fields.uniB, e1, e2, Fields.od3] <;> (try and_intros) <;> first | exact ofNat_eq (by omega) | exact bit_eq (by omega) | exact od_sw _ | exact ofNat_eq (by simp only [eu, ei, brpw]; omega) | exact bit_eq (by simp only [eu]; omega) | exact ofNat_eq (by simp only [eo, Bool.toNat_false]; omega)
theorem ca2a (h : Hd) (k : BitVec 3) (a : Reg) (b : Reg) (len : BitVec 24) : Statement (.ca2a h k a b len) := by
  intro hw l hl
  obtain ⟨hx, ho⟩ := wf_parts hl hw
  cases hl
  have := k.isLt
  have := a.isLt
  have := b.isLt
  have := len.isLt
  refine decode_of rfl hw rfl (by decide) (by omega) (by omega) (by omega) (eu_lt (by omega) (by omega)) (fun hh => hx hh (fun q => nomatch q)) (by decide) ?_
  have e1 := fun O D A LA B LB => @eu_func O h D A B LA LB 0 len.toNat (by omega) (by omega)
  have e2 := fun O D A LA B LB => @eu_imm O h D A B LA LB 0 len.toNat (by omega)
  simp [-BitVec.toNat_ofNat, Fields.instr, Fields.uniB, e1, e2, Fields.od3] <;> (try and_intros) <;> first | exact ofNat_eq (by omega) | exact bit_eq (by omega) | exact od_sw _ | exact ofNat_eq (by simp only [eu, ei, brpw]; omega) | exact bit_eq (by simp only [eu]; omega) | exact ofNat_eq (by simp only [eo, Bool.toNat_false]; omega)
theorem cbar (h : Hd) (k : BitVec 3) : Statement (.cbar h k) := by
  intro hw l hl
  obtain ⟨hx, ho⟩ := wf_parts hl hw
  cases hl
  have := k.isLt
  refine decode_of rfl hw rfl (by decide) (by omega) (by omega) (by omega) (by omega) (fun _ => rfl) (by decide) ?_
  simp [-BitVec.toNat_ofNat, Fields.instr, Fields.uniB] <;> (try and_intros) <;> first | exact ofNat_eq (by omega) | exact bit_eq (by omega) | exact od_sw _ | exact ofNat_eq (by simp only [eu, ei, brpw]; omega) | exact bit_eq (by simp only [eu]; omega) | exact ofNat_eq (by simp only [eo, Bool.toNat_false]; omega)
theorem cstat (h : Hd) (d : Reg) (k : BitVec 3) : Statement (.cstat h d k) := by
  intro hw l hl
  obtain ⟨hx, ho⟩ := wf_parts hl hw
  cases hl
  have := d.isLt
  have := k.isLt
  refine decode_of rfl hw rfl (by decide) (by omega) (by omega) (by omega) (by omega) (fun _ => rfl) (by decide) ?_
  simp [-BitVec.toNat_ofNat, Fields.instr, Fields.uniB] <;> (try and_intros) <;> first | exact ofNat_eq (by omega) | exact bit_eq (by omega) | exact od_sw _ | exact ofNat_eq (by simp only [eu, ei, brpw]; omega) | exact bit_eq (by simp only [eu]; omega) | exact ofNat_eq (by simp only [eo, Bool.toNat_false]; omega)
theorem collectiveContribution (r : Nat) (member : Nat) (term : List Nat) : Statement (.collectiveContribution r member term) := event rfl
theorem collectiveTimeout (r : Nat) (member : Nat) : Statement (.collectiveTimeout r member) := event rfl
theorem collectiveOutcome (e : Nat) : Statement (.collectiveOutcome e) := event rfl
theorem mxres (h : Hd) (od : BitVec 3) (rv : Bool) (rc : BitVec 2) (pk : Prd) (a : Reg) (b : Reg) : Statement (.mxres h od rv rc pk a b) := by
  intro hw l hl
  obtain ⟨hx, ho⟩ := wf_parts hl hw
  cases hl
  have := od.isLt
  have := bool_lt rv
  have := rc.isLt
  have := pk.isLt
  have := a.isLt
  have := b.isLt
  refine decode_of rfl hw rfl (by decide) (by omega) (by omega) (by omega) (eu_lt (by omega) (by omega)) (fun hh => hx hh (fun q => nomatch q)) (by decide) ?_
  have e1 := fun O D A LA B LB => @eu_func O h D A B LA LB (rc.toNat + 4 * rv.toNat + 8 * pk.toNat) 0 (by omega) (by omega)
  have e2 := fun O D A LA B LB => @eu_imm O h D A B LA LB (rc.toNat + 4 * rv.toNat + 8 * pk.toNat) 0 (by omega)
  simp [-BitVec.toNat_ofNat, Fields.instr, Fields.uniB, e1, e2, Fields.od3] <;> (try and_intros) <;> first | exact ofNat_eq (by omega) | exact bit_eq (by omega) | exact od_sw _ | exact ofNat_eq (by simp only [eu, ei, brpw]; omega) | exact bit_eq (by simp only [eu]; omega) | exact ofNat_eq (by simp only [eo, Bool.toNat_false]; omega)
theorem mxfree (h : Hd) (od : BitVec 3) : Statement (.mxfree h od) := by
  intro hw l hl
  obtain ⟨hx, ho⟩ := wf_parts hl hw
  cases hl
  have := od.isLt
  refine decode_of rfl hw rfl (by decide) (by omega) (by omega) (by omega) (by omega) (fun _ => rfl) (by decide) ?_
  simp [-BitVec.toNat_ofNat, Fields.instr, Fields.uniB] <;> (try and_intros) <;> first | exact ofNat_eq (by omega) | exact bit_eq (by omega) | exact od_sw _ | exact ofNat_eq (by simp only [eu, ei, brpw]; omega) | exact bit_eq (by simp only [eu]; omega) | exact ofNat_eq (by simp only [eo, Bool.toNat_false]; omega)
theorem mxzero (h : Hd) (od : BitVec 3) : Statement (.mxzero h od) := by
  intro hw l hl
  obtain ⟨hx, ho⟩ := wf_parts hl hw
  cases hl
  have := od.isLt
  refine decode_of rfl hw rfl (by decide) (by omega) (by omega) (by omega) (by omega) (fun _ => rfl) (by decide) ?_
  simp [-BitVec.toNat_ofNat, Fields.instr, Fields.uniB] <;> (try and_intros) <;> first | exact ofNat_eq (by omega) | exact bit_eq (by omega) | exact od_sw _ | exact ofNat_eq (by simp only [eu, ei, brpw]; omega) | exact bit_eq (by simp only [eu]; omega) | exact ofNat_eq (by simp only [eo, Bool.toNat_false]; omega)
theorem mxld (h : Hd) (od : BitVec 3) (hint : BitVec 2) (a : Reg) : Statement (.mxld h od hint a) := by
  intro hw l hl
  obtain ⟨hx, ho⟩ := wf_parts hl hw
  cases hl
  have := od.isLt
  have := hint.isLt
  have := a.isLt
  refine decode_of rfl hw rfl (by decide) (by omega) (by omega) (by omega) (eu_lt (by omega) (by omega)) (fun hh => hx hh (fun q => nomatch q)) (by decide) ?_
  have e1 := fun O D A LA B LB => @eu_func O h D A B LA LB hint.toNat 0 (by omega) (by omega)
  have e2 := fun O D A LA B LB => @eu_imm O h D A B LA LB hint.toNat 0 (by omega)
  simp [-BitVec.toNat_ofNat, Fields.instr, Fields.uniB, e1, e2, Fields.od3] <;> (try and_intros) <;> first | exact ofNat_eq (by omega) | exact bit_eq (by omega) | exact od_sw _ | exact ofNat_eq (by simp only [eu, ei, brpw]; omega) | exact bit_eq (by simp only [eu]; omega) | exact ofNat_eq (by simp only [eo, Bool.toNat_false]; omega)
theorem mxst (h : Hd) (od : BitVec 3) (fmt : BitVec 2) (nan : Bool) (hint : BitVec 2) (pe : Bool) (pk : Prd) (a : Reg) : Statement (.mxst h od fmt nan hint pe pk a) := by
  intro hw l hl
  obtain ⟨hx, ho⟩ := wf_parts hl hw
  cases hl
  have := od.isLt
  have := fmt.isLt
  have := bool_lt nan
  have := hint.isLt
  have := bool_lt pe
  have := pk.isLt
  have := a.isLt
  refine decode_of rfl hw rfl (by decide) (by omega) (by omega) (by omega) (eu_lt (by omega) (by omega)) (fun hh => hx hh (fun q => nomatch q)) (by decide) ?_
  have e1 := fun O D A LA B LB => @eu_func O h D A B LA LB (fmt.toNat + 4 * nan.toNat + 8 * hint.toNat) (pk.toNat + 16 * pe.toNat) (by omega) (by omega)
  have e2 := fun O D A LA B LB => @eu_imm O h D A B LA LB (fmt.toNat + 4 * nan.toNat + 8 * hint.toNat) (pk.toNat + 16 * pe.toNat) (by omega)
  simp [-BitVec.toNat_ofNat, Fields.instr, Fields.uniB, e1, e2, Fields.od3] <;> (try and_intros) <;> first | exact ofNat_eq (by omega) | exact bit_eq (by omega) | exact od_sw _ | exact ofNat_eq (by simp only [eu, ei, brpw]; omega) | exact bit_eq (by simp only [eu]; omega) | exact ofNat_eq (by simp only [eo, Bool.toNat_false]; omega)
theorem mma (h : Hd) (t : MT) (od : BitVec 3) (oa : BitVec 3) (ob : BitVec 3) (ra : Bool) (rb : Bool) (pe : Bool) (pk : Prd) (ja : BitVec 12) (jb : BitVec 12) : Statement (.mma h t od oa ob ra rb pe pk ja jb) := by
  intro hw l hl
  obtain ⟨hx, ho⟩ := wf_parts hl hw
  cases t
  all_goals try (simp [Instr.opsOk] at ho; done)
  all_goals
    cases hl
    have := od.isLt
    have := oa.isLt
    have := ob.isLt
    have := bool_lt ra
    have := bool_lt rb
    have := bool_lt pe
    have := pk.isLt
    have := ja.isLt
    have := jb.isLt
    refine decode_of rfl hw rfl (by decide) (by omega) (by omega) (by omega) (eu_lt (by omega) (by omega)) (fun hh => hx hh (fun q => nomatch q)) (by decide) ?_
    have e1 := fun O D A LA B LB => @eu_func O h D A B LA LB (pk.toNat + 16 * pe.toNat + 32 * ra.toNat + 64 * rb.toNat) (ja.toNat + 4096 * jb.toNat) (by omega) (by omega)
    have e2 := fun O D A LA B LB => @eu_imm O h D A B LA LB (pk.toNat + 16 * pe.toNat + 32 * ra.toNat + 64 * rb.toNat) (ja.toNat + 4096 * jb.toNat) (by omega)
    simp [-BitVec.toNat_ofNat, Fields.instr, Fields.uniB, e1, e2, Fields.od3, ET.code, ET.wdCode, ET.hwdCode, FT.code, FT.hsCode, MSz.code, RT.code, MT.code, ET.ofCode, ET.wd, ET.hwd, FT.ofCode, FT.hs, MSz.ofCode, RT.ofCode, MT.ofCode] <;> (try and_intros) <;> first | exact ofNat_eq (by omega) | exact bit_eq (by omega) | exact od_sw _ | exact ofNat_eq (by simp only [eu, ei, brpw]; omega) | exact bit_eq (by simp only [eu]; omega) | exact ofNat_eq (by simp only [eo, Bool.toNat_false]; omega)
theorem matrixGrant (cl : Nat) (array : Bool) : Statement (.matrixGrant cl array) := event rfl
theorem matrixLevelRise (e : Nat) : Statement (.matrixLevelRise e) := event rfl
theorem matrixOpComplete (e : Nat) : Statement (.matrixOpComplete e) := event rfl
theorem gspaceBind (h : Hd) (a : Reg) (b : Reg) : Statement (.gspaceBind h a b) := by
  intro hw l hl
  obtain ⟨hx, ho⟩ := wf_parts hl hw
  cases hl
  have := a.isLt
  have := b.isLt
  refine decode_of rfl hw rfl (by decide) (by omega) (by omega) (by omega) (eu_lt (by omega) (by omega)) (fun hh => hx hh (fun q => nomatch q)) (by decide) ?_
  have e1 := fun O D A LA B LB => @eu_func O h D A B LA LB 0 0 (by omega) (by omega)
  have e2 := fun O D A LA B LB => @eu_imm O h D A B LA LB 0 0 (by omega)
  simp [-BitVec.toNat_ofNat, Fields.instr, Fields.uniB, e1, e2, Fields.od3]
theorem gspaceUnbind (h : Hd) (a : Reg) (b : Reg) : Statement (.gspaceUnbind h a b) := by
  intro hw l hl
  obtain ⟨hx, ho⟩ := wf_parts hl hw
  cases hl
  have := a.isLt
  have := b.isLt
  refine decode_of rfl hw rfl (by decide) (by omega) (by omega) (by omega) (eu_lt (by omega) (by omega)) (fun hh => hx hh (fun q => nomatch q)) (by decide) ?_
  have e1 := fun O D A LA B LB => @eu_func O h D A B LA LB 1 0 (by omega) (by omega)
  have e2 := fun O D A LA B LB => @eu_imm O h D A B LA LB 1 0 (by omega)
  simp [-BitVec.toNat_ofNat, Fields.instr, Fields.uniB, e1, e2, Fields.od3]
theorem gload (h : Hd) (base : BitVec 7) (n : BitVec 7) (a : Reg) (b : Reg) : Statement (.gload h base n a b) := by
  intro hw l hl
  obtain ⟨hx, ho⟩ := wf_parts hl hw
  cases hl
  have := base.isLt
  have := n.isLt
  have := a.isLt
  have := b.isLt
  refine decode_of rfl hw rfl (by decide) (by omega) (by omega) (by omega) (eu_lt (by omega) (by omega)) (fun hh => hx hh (fun q => nomatch q)) (by decide) ?_
  have e1 := fun O D A LA B LB => @eu_func O h D A B LA LB 0 (n.toNat + 128 * base.toNat) (by omega) (by omega)
  have e2 := fun O D A LA B LB => @eu_imm O h D A B LA LB 0 (n.toNat + 128 * base.toNat) (by omega)
  simp [-BitVec.toNat_ofNat, Fields.instr, Fields.uniB, e1, e2, Fields.od3] <;> (try and_intros) <;> first | exact ofNat_eq (by omega) | exact bit_eq (by omega) | exact od_sw _ | exact ofNat_eq (by simp only [eu, ei, brpw]; omega) | exact bit_eq (by simp only [eu]; omega) | exact ofNat_eq (by simp only [eo, Bool.toNat_false]; omega)
theorem gset (h : Hd) (prog : Bool) (ksel : BitVec 2) (m : BitVec 3) (tmsk : BitVec 8) (tval : BitVec 8) (pent : BitVec 7) (a : Reg) (b : Reg) : Statement (.gset h prog ksel m tmsk tval pent a b) := by
  intro hw l hl
  obtain ⟨hx, ho⟩ := wf_parts hl hw
  cases hl
  have := bool_lt prog
  have := ksel.isLt
  have := m.isLt
  have := tmsk.isLt
  have := tval.isLt
  have := pent.isLt
  have := a.isLt
  have := b.isLt
  refine decode_of rfl hw rfl (by decide) (by omega) (by omega) (by omega) (eu_lt (by omega) (by omega)) (fun hh => hx hh (fun q => nomatch q)) (by decide) ?_
  have e1 := fun O D A LA B LB => @eu_func O h D A B LA LB (m.toNat + 8 * ksel.toNat + 32 * prog.toNat) (tmsk.toNat + 256 * tval.toNat + 65536 * pent.toNat) (by omega) (by omega)
  have e2 := fun O D A LA B LB => @eu_imm O h D A B LA LB (m.toNat + 8 * ksel.toNat + 32 * prog.toNat) (tmsk.toNat + 256 * tval.toNat + 65536 * pent.toNat) (by omega)
  simp [-BitVec.toNat_ofNat, Fields.instr, Fields.uniB, e1, e2, Fields.od3] <;> (try and_intros) <;> first | exact ofNat_eq (by omega) | exact bit_eq (by omega) | exact od_sw _ | exact ofNat_eq (by simp only [eu, ei, brpw]; omega) | exact bit_eq (by simp only [eu]; omega) | exact ofNat_eq (by simp only [eo, Bool.toNat_false]; omega)
theorem gprop (h : Hd) (arg : BitVec 24) (a : Reg) (b : Reg) : Statement (.gprop h arg a b) := by
  intro hw l hl
  obtain ⟨hx, ho⟩ := wf_parts hl hw
  cases hl
  have := arg.isLt
  have := a.isLt
  have := b.isLt
  refine decode_of rfl hw rfl (by decide) (by omega) (by omega) (by omega) (eu_lt (by omega) (by omega)) (fun hh => hx hh (fun q => nomatch q)) (by decide) ?_
  have e1 := fun O D A LA B LB => @eu_func O h D A B LA LB 0 arg.toNat (by omega) (by omega)
  have e2 := fun O D A LA B LB => @eu_imm O h D A B LA LB 0 arg.toNat (by omega)
  simp [-BitVec.toNat_ofNat, Fields.instr, Fields.uniB, e1, e2, Fields.od3] <;> (try and_intros) <;> first | exact ofNat_eq (by omega) | exact bit_eq (by omega) | exact od_sw _ | exact ofNat_eq (by simp only [eu, ei, brpw]; omega) | exact bit_eq (by simp only [eu]; omega) | exact ofNat_eq (by simp only [eo, Bool.toNat_false]; omega)
theorem gcoll (h : Hd) (clr : Bool) (m : BitVec 3) (cap : BitVec 24) (a : Reg) (b : Reg) : Statement (.gcoll h clr m cap a b) := by
  intro hw l hl
  obtain ⟨hx, ho⟩ := wf_parts hl hw
  cases hl
  have := bool_lt clr
  have := m.isLt
  have := cap.isLt
  have := a.isLt
  have := b.isLt
  refine decode_of rfl hw rfl (by decide) (by omega) (by omega) (by omega) (eu_lt (by omega) (by omega)) (fun hh => hx hh (fun q => nomatch q)) (by decide) ?_
  have e1 := fun O D A LA B LB => @eu_func O h D A B LA LB (m.toNat + 8 * clr.toNat) cap.toNat (by omega) (by omega)
  have e2 := fun O D A LA B LB => @eu_imm O h D A B LA LB (m.toNat + 8 * clr.toNat) cap.toNat (by omega)
  simp [-BitVec.toNat_ofNat, Fields.instr, Fields.uniB, e1, e2, Fields.od3] <;> (try and_intros) <;> first | exact ofNat_eq (by omega) | exact bit_eq (by omega) | exact od_sw _ | exact ofNat_eq (by simp only [eu, ei, brpw]; omega) | exact bit_eq (by simp only [eu]; omega) | exact ofNat_eq (by simp only [eo, Bool.toNat_false]; omega)
theorem gclr (h : Hd) (fill : Bool) (m : BitVec 3) (tmsk : BitVec 8) (tval : BitVec 8) (a : Reg) (b : Reg) : Statement (.gclr h fill m tmsk tval a b) := by
  intro hw l hl
  obtain ⟨hx, ho⟩ := wf_parts hl hw
  cases hl
  have := bool_lt fill
  have := m.isLt
  have := tmsk.isLt
  have := tval.isLt
  have := a.isLt
  have := b.isLt
  refine decode_of rfl hw rfl (by decide) (by omega) (by omega) (by omega) (eu_lt (by omega) (by omega)) (fun hh => hx hh (fun q => nomatch q)) (by decide) ?_
  have e1 := fun O D A LA B LB => @eu_func O h D A B LA LB (m.toNat + 8 * fill.toNat) (tmsk.toNat + 256 * tval.toNat) (by omega) (by omega)
  have e2 := fun O D A LA B LB => @eu_imm O h D A B LA LB (m.toNat + 8 * fill.toNat) (tmsk.toNat + 256 * tval.toNat) (by omega)
  simp [-BitVec.toNat_ofNat, Fields.instr, Fields.uniB, e1, e2, Fields.od3] <;> (try and_intros) <;> first | exact ofNat_eq (by omega) | exact bit_eq (by omega) | exact od_sw _ | exact ofNat_eq (by simp only [eu, ei, brpw]; omega) | exact bit_eq (by simp only [eu]; omega) | exact ofNat_eq (by simp only [eo, Bool.toNat_false]; omega)
theorem broadcastStart (e : Nat) : Statement (.broadcastStart e) := event rfl
theorem broadcastEnd (e : Nat) : Statement (.broadcastEnd e) := event rfl
theorem hopStart (e : Nat) : Statement (.hopStart e) := event rfl
theorem messageReceive (e : Nat) (m : Nat) : Statement (.messageReceive e m) := event rfl
theorem hopEnd (e : Nat) : Statement (.hopEnd e) := event rfl
theorem refreshStart (v : Nat) (u : Nat) : Statement (.refreshStart v u) := event rfl
theorem refreshEnd (v : Nat) (u : Nat) : Statement (.refreshEnd v u) := event rfl
theorem tmshape (h : Hd) (code : BitVec 8) : Statement (.tmshape h code) := by
  intro hw l hl
  obtain ⟨hx, ho⟩ := wf_parts hl hw
  cases hl
  have := code.isLt
  refine decode_of rfl hw rfl (by decide) (by omega) (by omega) (by omega) (eu_lt (by omega) (by omega)) (fun hh => hx hh (fun q => nomatch q)) (by decide) ?_
  have e1 := fun O D A LA B LB => @eu_func O h D A B LA LB 0 code.toNat (by omega) (by omega)
  have e2 := fun O D A LA B LB => @eu_imm O h D A B LA LB 0 code.toNat (by omega)
  simp [-BitVec.toNat_ofNat, Fields.instr, Fields.uniC, e1, e2, Fields.od3] <;> (try and_intros) <;> first | exact ofNat_eq (by omega) | exact bit_eq (by omega) | exact od_sw _ | exact ofNat_eq (by simp only [eu, ei, brpw]; omega) | exact bit_eq (by simp only [eu]; omega) | exact ofNat_eq (by simp only [eo, Bool.toNat_false]; omega)
theorem tmload (h : Hd) (k : BitVec 2) (a : Reg) : Statement (.tmload h k a) := by
  intro hw l hl
  obtain ⟨hx, ho⟩ := wf_parts hl hw
  cases hl
  have := k.isLt
  have := a.isLt
  refine decode_of rfl hw rfl (by decide) (by omega) (by omega) (by omega) (eu_lt (by omega) (by omega)) (fun hh => hx hh (fun q => nomatch q)) (by decide) ?_
  have e1 := fun O D A LA B LB => @eu_func O h D A B LA LB 0 k.toNat (by omega) (by omega)
  have e2 := fun O D A LA B LB => @eu_imm O h D A B LA LB 0 k.toNat (by omega)
  simp [-BitVec.toNat_ofNat, Fields.instr, Fields.uniC, e1, e2, Fields.od3] <;> (try and_intros) <;> first | exact ofNat_eq (by omega) | exact bit_eq (by omega) | exact od_sw _ | exact ofNat_eq (by simp only [eu, ei, brpw]; omega) | exact bit_eq (by simp only [eu]; omega) | exact ofNat_eq (by simp only [eo, Bool.toNat_false]; omega)
theorem tmloadComplete (g : Nat) (op : Nat) : Statement (.tmloadComplete g op) := event rfl
theorem lig (h : Hd) (n : BitVec 7) : Statement (.lig h n) := by
  intro hw l hl
  obtain ⟨hx, ho⟩ := wf_parts hl hw
  cases hl
  have := n.isLt
  refine decode_of rfl hw rfl (by decide) (by omega) (by omega) (by omega) (eu_lt (by omega) (by omega)) (fun hh => hx hh (fun q => nomatch q)) (by decide) ?_
  have e1 := fun O D A LA B LB => @eu_func O h D A B LA LB 0 n.toNat (by omega) (by omega)
  have e2 := fun O D A LA B LB => @eu_imm O h D A B LA LB 0 n.toNat (by omega)
  simp [-BitVec.toNat_ofNat, Fields.instr, Fields.uniC, e1, e2, Fields.od3] <;> (try and_intros) <;> first | exact ofNat_eq (by omega) | exact bit_eq (by omega) | exact od_sw _ | exact ofNat_eq (by simp only [eu, ei, brpw]; omega) | exact bit_eq (by simp only [eu]; omega) | exact ofNat_eq (by simp only [eo, Bool.toNat_false]; omega)
theorem unlig (h : Hd) : Statement (.unlig h) := by
  intro hw l hl
  obtain ⟨hx, ho⟩ := wf_parts hl hw
  cases hl
  refine decode_of rfl hw rfl (by decide) (by omega) (by omega) (by omega) (by omega) (fun _ => rfl) (by decide) ?_
  simp [-BitVec.toNat_ofNat, Fields.instr, Fields.uniC]
theorem spawn (h : Hd) (a : Reg) : Statement (.spawn h a) := by
  intro hw l hl
  obtain ⟨hx, ho⟩ := wf_parts hl hw
  cases hl
  have := a.isLt
  refine decode_of rfl hw rfl (by decide) (by omega) (by omega) (by omega) (by omega) (fun _ => rfl) (by decide) ?_
  simp [-BitVec.toNat_ofNat, Fields.instr, Fields.uniC]
theorem rdsr (h : Hd) (sr : BitVec 8) (d : Reg) : Statement (.rdsr h sr d) := by
  intro hw l hl
  obtain ⟨hx, ho⟩ := wf_parts hl hw
  cases hl
  have := sr.isLt
  have := d.isLt
  refine decode_of rfl hw rfl (by decide) (by omega) (by omega) (by omega) (eu_lt (by omega) (by omega)) (fun hh => hx hh (fun q => nomatch q)) (by decide) ?_
  have e1 := fun O D A LA B LB => @eu_func O h D A B LA LB 0 sr.toNat (by omega) (by omega)
  have e2 := fun O D A LA B LB => @eu_imm O h D A B LA LB 0 sr.toNat (by omega)
  simp [-BitVec.toNat_ofNat, Fields.instr, Fields.uniC, e1, e2, Fields.od3] <;> (try and_intros) <;> first | exact ofNat_eq (by omega) | exact bit_eq (by omega) | exact od_sw _ | exact ofNat_eq (by simp only [eu, ei, brpw]; omega) | exact bit_eq (by simp only [eu]; omega) | exact ofNat_eq (by simp only [eo, Bool.toNat_false]; omega)
theorem wrsrGstat (h : Hd) (a : Reg) : Statement (.wrsrGstat h a) := by
  intro hw l hl
  obtain ⟨hx, ho⟩ := wf_parts hl hw
  cases hl
  have := a.isLt
  refine decode_of rfl hw rfl (by decide) (by omega) (by omega) (by omega) (eu_lt (by omega) (by omega)) (fun hh => hx hh (fun q => nomatch q)) (by decide) ?_
  have e1 := fun O D A LA B LB => @eu_func O h D A B LA LB 0 0x06 (by omega) (by omega)
  have e2 := fun O D A LA B LB => @eu_imm O h D A B LA LB 0 0x06 (by omega)
  simp [-BitVec.toNat_ofNat, Fields.instr, Fields.uniC, e1, e2, Fields.od3]
theorem wrsrTmshape (h : Hd) (a : Reg) : Statement (.wrsrTmshape h a) := by
  intro hw l hl
  obtain ⟨hx, ho⟩ := wf_parts hl hw
  cases hl
  have := a.isLt
  refine decode_of rfl hw rfl (by decide) (by omega) (by omega) (by omega) (eu_lt (by omega) (by omega)) (fun hh => hx hh (fun q => nomatch q)) (by decide) ?_
  have e1 := fun O D A LA B LB => @eu_func O h D A B LA LB 0 0x09 (by omega) (by omega)
  have e2 := fun O D A LA B LB => @eu_imm O h D A B LA LB 0 0x09 (by omega)
  simp [-BitVec.toNat_ofNat, Fields.instr, Fields.uniC, e1, e2, Fields.od3]
theorem wrsrPoolmap (h : Hd) (a : Reg) : Statement (.wrsrPoolmap h a) := by
  intro hw l hl
  obtain ⟨hx, ho⟩ := wf_parts hl hw
  cases hl
  have := a.isLt
  refine decode_of rfl hw rfl (by decide) (by omega) (by omega) (by omega) (eu_lt (by omega) (by omega)) (fun hh => hx hh (fun q => nomatch q)) (by decide) ?_
  have e1 := fun O D A LA B LB => @eu_func O h D A B LA LB 0 0x08 (by omega) (by omega)
  have e2 := fun O D A LA B LB => @eu_imm O h D A B LA LB 0 0x08 (by omega)
  simp [-BitVec.toNat_ofNat, Fields.instr, Fields.uniC, e1, e2, Fields.od3]
theorem wrsrLease (h : Hd) (i : BitVec 2) (a : Reg) : Statement (.wrsrLease h i a) := by
  intro hw l hl
  obtain ⟨hx, ho⟩ := wf_parts hl hw
  cases hl
  have := i.isLt
  have := a.isLt
  refine decode_of rfl hw rfl (by decide) (by omega) (by omega) (by omega) (eu_lt (by omega) (by omega)) (fun hh => hx hh (fun q => nomatch q)) (by decide) ?_
  have e1 := fun O D A LA B LB => @eu_func O h D A B LA LB 0 (0x10 + i.toNat) (by omega) (by omega)
  have e2 := fun O D A LA B LB => @eu_imm O h D A B LA LB 0 (0x10 + i.toNat) (by omega)
  have h1 : ¬16 + i.toNat = 6 := by omega
  have h2 : ¬16 + i.toNat = 9 := by omega
  have h3 : ¬16 + i.toNat = 8 := by omega
  have h4 : (16 + i.toNat) / 4 = 4 := by omega
  simp [-BitVec.toNat_ofNat, Fields.instr, Fields.uniC, e1, e2, Fields.od3, h1, h2, h3, h4] <;> (try and_intros) <;> first | exact ofNat_eq (by omega) | exact bit_eq (by omega) | exact od_sw _ | exact ofNat_eq (by simp only [eu, ei, brpw]; omega) | exact bit_eq (by simp only [eu]; omega) | exact ofNat_eq (by simp only [eo, Bool.toNat_false]; omega)
theorem wrsr (h : Hd) (sr : BitVec 8) (a : Reg) : Statement (.wrsr h sr a) := by
  intro hw l hl
  obtain ⟨hx, ho⟩ := wf_parts hl hw
  cases hl
  have := sr.isLt
  have := a.isLt
  refine decode_of rfl hw rfl (by decide) (by omega) (by omega) (by omega) (eu_lt (by omega) (by omega)) (fun hh => hx hh (fun q => nomatch q)) (by decide) ?_
  have e1 := fun O D A LA B LB => @eu_func O h D A B LA LB 0 sr.toNat (by omega) (by omega)
  have e2 := fun O D A LA B LB => @eu_imm O h D A B LA LB 0 sr.toNat (by omega)
  have hs : sr.toNat = 15 ∨ sr.toNat = 25 ∨ sr.toNat = 26 := by simp only [Instr.opsOk, srPlainWrite, Bool.or_eq_true, beq_iff_eq] at ho; rcases ho with (q | q) | q <;> subst q <;> decide
  have h1 : ¬sr.toNat = 6 := by omega
  have h2 : ¬sr.toNat = 9 := by omega
  have h3 : ¬sr.toNat = 8 := by omega
  have h4 : ¬sr.toNat / 4 = 4 := by omega
  simp [-BitVec.toNat_ofNat, Fields.instr, Fields.uniC, e1, e2, Fields.od3, h1, h2, h3, h4] <;> (try and_intros) <;> first | exact ofNat_eq (by omega) | exact bit_eq (by omega) | exact od_sw _ | exact ofNat_eq (by simp only [eu, ei, brpw]; omega) | exact bit_eq (by simp only [eu]; omega) | exact ofNat_eq (by simp only [eo, Bool.toNat_false]; omega)
theorem tick (h : Hd) (d : Reg) : Statement (.tick h d) := by
  intro hw l hl
  obtain ⟨hx, ho⟩ := wf_parts hl hw
  cases hl
  have := d.isLt
  refine decode_of rfl hw rfl (by decide) (by omega) (by omega) (by omega) (by omega) (fun _ => rfl) (by decide) ?_
  simp [-BitVec.toNat_ofNat, Fields.instr, Fields.uniC]
theorem eret (h : Hd) : Statement (.eret h) := by
  intro hw l hl
  obtain ⟨hx, ho⟩ := wf_parts hl hw
  cases hl
  refine decode_of rfl hw rfl (by decide) (by omega) (by omega) (by omega) (by omega) (fun _ => rfl) (by decide) ?_
  simp [-BitVec.toNat_ofNat, Fields.instr, Fields.uniC]
theorem wspill (h : Hd) (m : BitVec 8) : Statement (.wspill h m) := by
  intro hw l hl
  obtain ⟨hx, ho⟩ := wf_parts hl hw
  cases hl
  have := m.isLt
  refine decode_of rfl hw rfl (by decide) (by omega) (by omega) (by omega) (eu_lt (by omega) (by omega)) (fun hh => hx hh (fun q => nomatch q)) (by decide) ?_
  have e1 := fun O D A LA B LB => @eu_func O h D A B LA LB 0 m.toNat (by omega) (by omega)
  have e2 := fun O D A LA B LB => @eu_imm O h D A B LA LB 0 m.toNat (by omega)
  simp [-BitVec.toNat_ofNat, Fields.instr, Fields.uniC, e1, e2, Fields.od3] <;> (try and_intros) <;> first | exact ofNat_eq (by omega) | exact bit_eq (by omega) | exact od_sw _ | exact ofNat_eq (by simp only [eu, ei, brpw]; omega) | exact bit_eq (by simp only [eu]; omega) | exact ofNat_eq (by simp only [eo, Bool.toNat_false]; omega)
theorem wfill (h : Hd) (m : BitVec 8) : Statement (.wfill h m) := by
  intro hw l hl
  obtain ⟨hx, ho⟩ := wf_parts hl hw
  cases hl
  have := m.isLt
  refine decode_of rfl hw rfl (by decide) (by omega) (by omega) (by omega) (eu_lt (by omega) (by omega)) (fun hh => hx hh (fun q => nomatch q)) (by decide) ?_
  have e1 := fun O D A LA B LB => @eu_func O h D A B LA LB 0 m.toNat (by omega) (by omega)
  have e2 := fun O D A LA B LB => @eu_imm O h D A B LA LB 0 m.toNat (by omega)
  simp [-BitVec.toNat_ofNat, Fields.instr, Fields.uniC, e1, e2, Fields.od3] <;> (try and_intros) <;> first | exact ofNat_eq (by omega) | exact bit_eq (by omega) | exact od_sw _ | exact ofNat_eq (by simp only [eu, ei, brpw]; omega) | exact bit_eq (by simp only [eu]; omega) | exact ofNat_eq (by simp only [eo, Bool.toNat_false]; omega)
theorem windowMoveComplete (g : Nat) (op : Nat) : Statement (.windowMoveComplete g op) := event rfl
theorem clauseStart (hdr : BitVec 32) : Statement (.clauseStart hdr) := event rfl
theorem gangSelect (c : Nat) : Statement (.gangSelect c) := event rfl
theorem longLatencyComplete (g : Nat) (op : Nat) (lanes : LaneMask) : Statement (.longLatencyComplete g op lanes) := event rfl
theorem stashLineFilled (c : Nat) (m : Nat) (line : Nat) : Statement (.stashLineFilled c m line) := event rfl
theorem handlerEntry (g : Nat) : Statement (.handlerEntry g) := event rfl
theorem fillAtHome (c : Nat) (line : Nat) (rem : Option Nat) : Statement (.fillAtHome c line rem) := event rfl
theorem writeAtHome (c : Nat) (line : Nat) : Statement (.writeAtHome c line) := event rfl
theorem atomicAtHome (g : Nat) (op : Nat) (lane : Nat) (rem : Option Nat) : Statement (.atomicAtHome g op lane rem) := event rfl
theorem vaultAccess (g : Nat) (op : Nat) (lane : Nat) (rem : Option Nat) : Statement (.vaultAccess g op lane rem) := event rfl
theorem leaseExpire (c : Nat) (line : Nat) : Statement (.leaseExpire c line) := event rfl
theorem pageTableWalk (c : Nat) (root : Nat) (va : Nat) : Statement (.pageTableWalk c root va) := event rfl
theorem rehomeDrain (i : Nat) : Statement (.rehomeDrain i) := event rfl
theorem rebalance (bucket : Nat) (slice : Nat) : Statement (.rebalance bucket slice) := event rfl
theorem scrub (c : Nat) (w : PoolWord) (paddr : Nat) (bad : W64) : Statement (.scrub c w paddr bad) := event rfl
theorem blockLoad (b : Nat) (c : Nat) : Statement (.blockLoad b c) := event rfl
theorem contextsInPlace (b : Nat) : Statement (.contextsInPlace b) := event rfl
theorem preempt (b : Nat) : Statement (.preempt b) := event rfl
theorem saveComplete (b : Nat) : Statement (.saveComplete b) := event rfl
theorem regionAccept (sp : Nat) : Statement (.regionAccept sp) := event rfl
theorem regionResume (sp : Nat) : Statement (.regionResume sp) := event rfl
theorem regionEnd (sp : Nat) : Statement (.regionEnd sp) := event rfl
theorem completionStore (r : Nat) : Statement (.completionStore r) := event rfl
theorem flitReceive (port : Nat) (f : Flit) : Statement (.flitReceive port f) := event rfl
theorem linkTraining (port : Nat) (lanes : Nat) : Statement (.linkTraining port lanes) := event rfl
theorem livenessTimeout (d : Nat) : Statement (.livenessTimeout d) := event rfl
theorem livenessUpdate (d : Nat) (up : Bool) : Statement (.livenessUpdate d up) := event rfl
theorem hostAccess (r : HostReq) : Statement (.hostAccess r) := event rfl
theorem hostWriteAck (i : Nat) : Statement (.hostWriteAck i) := event rfl
theorem configRangeEntryWrite (k : Nat) (v : Nat) : Statement (.configRangeEntryWrite k v) := event rfl
theorem configBucketEntryWrite (b : Nat) (v : Nat) : Statement (.configBucketEntryWrite b v) := event rfl
theorem configWrite (off : Nat) (size : Nat) (v : Nat) : Statement (.configWrite off size v) := event rfl
theorem blameSample (c : Nat) : Statement (.blameSample c) := event rfl
theorem replayGo : Statement (.replayGo) := event rfl
theorem injectRecord : Statement (.injectRecord) := event rfl
theorem stopArm (v : Nat) : Statement (.stopArm v) := event rfl
theorem debugStop : Statement (.debugStop) := event rfl
theorem debugRestart : Statement (.debugRestart) := event rfl
theorem identityRead (cmd : Nat) : Statement (.identityRead cmd) := event rfl
theorem powerOn : Statement (.powerOn) := event rfl
theorem bringUpPhase (fail : Option Nat) (devid dims lanes : Nat) (root : RootAt) : Statement (.bringUpPhase fail devid dims lanes root) := event rfl
theorem deviceReset : Statement (.deviceReset) := event rfl
theorem fuseProgram : Statement (.fuseProgram) := event rfl
theorem throttle (temp : Nat) (watts : Nat) (n : Nat) : Statement (.throttle temp watts n) := event rfl
theorem overtempShutdown (temp : Nat) : Statement (.overtempShutdown temp) := event rfl
theorem attestationRequest (a : Nat) : Statement (.attestationRequest a) := event rfl
theorem attestationReport : Statement (.attestationReport) := event rfl
theorem debugUnlock (a : Nat) : Statement (.debugUnlock a) := event rfl
theorem keySlotWrite (k : Nat) (v : Nat) : Statement (.keySlotWrite k v) := event rfl
theorem encryptionRangeWrite (k : Nat) (v : Nat) : Statement (.encryptionRangeWrite k v) := event rfl
theorem wctmaxPassed (g : Nat) (k : Nat) : Statement (.wctmaxPassed g k) := event rfl

end Sys2Proof.Laws.Encoding
end

