-- ==== Sys2Proof/Tests/Slice0.lean ====
section
/-! SUPPORT. Tests: words written out from the spec's encodings and what they decode to, ill-formed terms, single steps
with results worked out from the rules, and for each statement a state and operands that meet its hypotheses. -/

open Sys2Proof Sys2Proof.Machine

namespace Sys2Proof.Tests

set_option Elab.async false

/-! ### Helpers: a placed group of eight lanes, and changes of it -/

/-- The part with an instruction placed: group 1 of block 2 in region 3, gang 4 of eight lanes at the head of the ports. -/
def p0 : State := State.reset.placeWord 32 0x80000000
/-- The same with the group changed. -/
def pG (f : Group → Group) : State := p0.onGroup 1 f
/-- The gang on the port of a state that has one. -/
def at_ (s : State) (h : (cur s).isSome = true) : Cur := (cur s).get h
theorem cur_at (s : State) (h : (cur s).isSome = true) : cur s = some (at_ s h) := by simp [at_]
/-- Register `row` of lane `l` holds `v`. -/
def wr (l row v : Nat) (G : Group) : Group := { G with lanes := setAt G.lanes l ((G.lane l).set row v) }
/-- Register `row` of lane `l` is uncorrectable. -/
def spoilRow (l row : Nat) (G : Group) : Group :=
  { G with lanes := setAt G.lanes l { G.lane l with regs := SMap.put (G.lane l).regs row 1, bad := SMap.put (G.lane l).bad row 1 } }
def gang (f : Gang → Gang) (G : Group) : Group := { G with gangs := G.gangs.map f }
def pred (l p : Nat) (v : Bool) (G : Group) : Group := { G with lanes := setAt G.lanes l ((G.lane l).setPred p v) }
def h0 : Hd := ⟨false, 0, false, false⟩
def h1 : Hd := ⟨false, 0, false, true⟩
/-- Guarded by p1, and by not p1. -/
def hp : Hd := ⟨true, 1, false, true⟩
def hn : Hd := ⟨true, 1, true, true⟩

/-- A lane instruction runs, tested lane by lane. -/
def laneRunsB (x : Cur) (h : Hd) (F : Form) : Bool :=
  F.perms.all (fun p => !permBad x.G.geo.w p) && !ligDiv x.G x.K h && decide (actMask x.G x.K h < 2 ^ 64) &&
    (List.range 64).all fun l => !(actMask x.G x.K h).testBit l || (F.reads l).all fun r => r.bad == none

theorem laneRuns_of {x : Cur} {h : Hd} {F : Form} (t : laneRunsB x h F = true) : LaneRuns x h F := by
  simp only [laneRunsB, Bool.and_eq_true, List.all_eq_true, Bool.not_eq_true', decide_eq_true_eq, Bool.or_eq_true, beq_iff_eq,
    List.mem_range] at t
  obtain ⟨⟨⟨t1, t2⟩, t3⟩, t4⟩ := t
  refine ⟨t1, t2, fun l hl => ?_⟩
  have hlt : l < 64 := by
    rcases Nat.lt_or_ge l 64 with hc | hc
    · exact hc
    · have : actMask x.G x.K h < 2 ^ l := Nat.lt_of_lt_of_le t3 (Nat.pow_le_pow_right (by omega) hc)
      rw [Nat.testBit_lt_two_pow this] at hl; cases hl
  rcases t4 l hlt with h5 | h5
  · rw [hl] at h5; cases h5
  · exact h5

/-- A uniform instruction runs. -/
def uniRunsB (x : Cur) (h : Hd) (rs : List Reg) : Bool := uniGuard x.G x.K h && uBad x rs == none
theorem uniRuns_of {x : Cur} {h : Hd} {rs : List Reg} (t : uniRunsB x h rs = true) : UniRuns x h rs := by
  simpa [uniRunsB, UniRuns] using t

def okU (r : UAt) : Bool := match r with | .ok _ => true | _ => false
def ps_ (r : UAt × State) : List Piece := match r.1 with | .ok ps => ps | _ => []
theorem okPieces {r : UAt × State} (h : okU r.1 = true) : r = (.ok (ps_ r), r.2) := by
  rcases r with ⟨r, s⟩
  cases r with | ok ps => rfl | _ => cases h
/-- An access of a uniform instruction passes its checks. -/
theorem uacc {s : State} {x : Cur} {rs : List Reg} {va n al : Nat} {r w : Bool} {b : Block} (hb : s.block? x.G.geo.bid = some b)
    (hw : walkWaits (uniRead x rs) = false) (hk : okU (s.uniAt (uniRead x rs) b va n al r w).1 = true) :
    UniAccess s x rs va n al r w b (ps_ (s.uniAt (uniRead x rs) b va n al r w))
      ((s.uniAt (uniRead x rs) b va n al r w).2.claimCp b.core (ps_ (s.uniAt (uniRead x rs) b va n al r w))) :=
  ⟨hb, hw, _, okPieces hk, rfl⟩
/-- The same where it is one piece. -/
theorem uacc1 {s : State} {x : Cur} {rs : List Reg} {va n al : Nat} {r w : Bool} {b : Block} (hb : s.block? x.G.geo.bid = some b)
    (hw : walkWaits (uniRead x rs) = false) (hk : okU (s.uniAt (uniRead x rs) b va n al r w).1 = true)
    (hl : (ps_ (s.uniAt (uniRead x rs) b va n al r w)).length = 1) : ∃ p s', UniAccess s x rs va n al r w b [p] s' := by
  obtain ⟨p, hp⟩ := List.length_eq_one_iff.1 hl
  exact ⟨p, _, hp ▸ uacc hb hw hk⟩

/-! ### Witnesses: lane instructions -/

/-- Lane 7's source is lane 0's through rot(1), the amount 7 is the largest that eight lanes take, and odd lanes are not active. -/
def sLane : State := pG fun G => pred 0 1 true (pred 2 1 true (wr 0 8 5 (wr 7 9 9 G)))
def xLane : Cur := at_ sLane (by decide)
theorem wit_LaneIntegerResults :
    cur sLane = some xLane ∧ LaneRuns xLane hp (formAB xLane ⟨8, true, 7⟩ (.reg ⟨9, false, 0x47⟩) allBits) ∧
      LaneRuns xLane h1 (formAB xLane ⟨8, false, 0⟩ (.imm .sext 0xFFFFFF) allBits) :=
  ⟨cur_at _ _, laneRuns_of (by decide), laneRuns_of (by decide)⟩

theorem wit_LaneCountSelectCompareResults :
    cur sLane = some xLane ∧ LaneRuns xLane hp (formABC xLane ⟨8, false, 7⟩ ⟨9, false, 0xC3⟩ ⟨9, true⟩) ∧
      LaneRuns xLane hp (formA xLane ⟨8, true, 0⟩ allBits) ∧ LaneRuns xLane hn (formSS xLane ⟨8, false, 0⟩ ⟨9, false, 0⟩) ∧
      LaneRuns xLane hp (formAB xLane ⟨8, false, 0⟩ (.imm .rep16 7) (2 ^ etW .w - 1)) ∧
      LaneRuns xLane hp (formAB xLane ⟨8, false, 0⟩ (.imm .fp32 0x3F8000) (2 ^ (FTfmt .s).width - 1)) :=
  ⟨cur_at _ _, laneRuns_of (by decide), laneRuns_of (by decide), laneRuns_of (by decide), laneRuns_of (by decide),
    laneRuns_of (by decide)⟩

/-- The same lanes bound in ligatures of the whole group, every guard the same. -/
def sLig : State := pG fun G => { wr 0 8 5 (wr 7 9 9 G) with gstat := 3 }
def xLig : Cur := at_ sLig (by decide)
theorem wit_LigatureResults :
    cur sLig = some xLig ∧ ligN xLig.G = 8 ∧ LaneRuns xLig h1 (formSS xLig ⟨8, false, 0⟩ ⟨9, false, 0⟩) ∧
      LaneRuns xLig h1 { formSS xLig ⟨8, false, 0⟩ ⟨9, false, 0⟩ with
        reads := fun l => if l != ligBase xLig.G l then [srcRd xLig.G xLig.K l ⟨8, false, 0⟩ allBits]
          else [srcRd xLig.G xLig.K l ⟨8, false, 0⟩ allBits, srcRd xLig.G xLig.K l ⟨9, false, 0⟩ allBits] } ∧
      LaneRuns xLig h1 (formA xLig ⟨8, true, 0⟩ allBits) :=
  ⟨cur_at _ _, by decide, laneRuns_of (by decide), laneRuns_of (by decide), laneRuns_of (by decide)⟩
theorem wit_LigatureResults_macl :
    cur sLig = some xLig ∧ LaneRuns xLig h1
      { formSS xLig ⟨8, false, 0⟩ ⟨9, false, 0⟩ with
        reads := fun l => (if l != ligBase xLig.G l then [srcRd xLig.G xLig.K l ⟨8, false, 0⟩ allBits]
          else [srcRd xLig.G xLig.K l ⟨8, false, 0⟩ allBits, srcRd xLig.G xLig.K l ⟨9, false, 0⟩ allBits]) ++
            [ownRd xLig.G xLig.K l 10 allBits]
        frees := [] ++ rlFrees ⟨10, true⟩ } :=
  ⟨cur_at _ _, laneRuns_of (by decide)⟩

theorem wit_LaneFloatAndConversionResults :
    cur sLane = some xLane ∧ LaneRuns xLane hp (formAB xLane ⟨8, false, 0⟩ (.imm .fp32 0x3F8000) allBits) ∧
      LaneRuns xLane hp (formABC xLane ⟨8, false, 0⟩ ⟨9, false, 0⟩ ⟨8, true⟩) ∧
      LaneRuns xLane h1 (formA xLane ⟨9, false, 7⟩ allBits) ∧
      LaneRuns xLane h1 (formA xLane ⟨8, false, 0⟩ (2 ^ (64 / max (cvtDstW (.f2i true .i8)) (cvtSrcW (.f2i true .i8)) *
        cvtSrcW (.f2i true .i8)) - 1)) ∧
      LaneRuns xLane h1 ⟨[0], fun l => [srcRd xLane.G xLane.K l ⟨8, false, 0⟩ allBits, ownRd xLane.G xLane.K l 9 allBits], []⟩ :=
  ⟨cur_at _ _, laneRuns_of (by decide), laneRuns_of (by decide), laneRuns_of (by decide), laneRuns_of (by decide),
    laneRuns_of (by decide)⟩

/-- The sum 5 and 9 under the mean of code 4 meets no domain fault. -/
theorem wit_MeanAndCrossLaneResults_mean :
    cur sLane = some xLane ∧ tmBusy sLane xLane.G = false ∧ tmTrap xLane.G = false ∧
      LaneRuns xLane hp ⟨[0], fun l => [ownRd xLane.G xLane.K l 10 (2 ^ 48 - 1), ownRd xLane.G xLane.K l 11 (2 ^ 32 - 1),
        srcRd xLane.G xLane.K l ⟨8, false, 0⟩ allBits], []⟩ ∧
      LaneRuns xLane hp ⟨[0], fun l => [ownRd xLane.G xLane.K l 8 (2 ^ 48 - 1), ownRd xLane.G xLane.K l 9 (2 ^ 32 - 1)],
        srcPairFrees ⟨8, true, 0⟩⟩ :=
  ⟨cur_at _ _, by decide, by decide, laneRuns_of (by decide), laneRuns_of (by decide)⟩
theorem wit_MeanAndCrossLaneResults_cross :
    cur sLane = some xLane ∧ LaneRuns xLane hp (formA xLane ⟨8, false, 7⟩ allBits) ∧ LaneRuns xLane hn formNone ∧
      LaneRuns xLane hp ⟨[0], fun l => [srcRd xLane.G xLane.K l ⟨9, false, 0⟩ (2 ^ 16 - 1),
        readLane xLane.G xLane.K (srcV xLane.G xLane.K l ⟨9, false, 0⟩ % 2 ^ 16 / 2) 8
          ((2 ^ 32 - 1) * 2 ^ (32 * (srcV xLane.G xLane.K l ⟨9, false, 0⟩ % 2 ^ 16 % 2)))], rlFrees ⟨8, true⟩ ++ []⟩ :=
  ⟨cur_at _ _, laneRuns_of (by decide), laneRuns_of (by decide), laneRuns_of (by decide)⟩

/-- A rotation by 8 of eight lanes, and a guard that differs in a ligature. -/
def sDiv : State := pG fun G => { pred 3 1 true G with gstat := 3 }
def xDiv : Cur := at_ sDiv (by decide)
theorem wit_LaneTrapsAndParking_traps :
    cur sDiv = some xDiv ∧ tmBusy sDiv xDiv.G = false ∧ permBad xDiv.G.geo.w 8 = true ∧ ligDiv xDiv.G xDiv.K hp = true ∧
      (∃ op, laneOpOf (sDiv.core 0) xDiv.G (.popc hp 8 ⟨9, false, 8⟩) = some op ∧ op.perms.any (permBad xDiv.G.geo.w) = true) ∧
      ∃ op, laneOpOf (sDiv.core 0) xDiv.G (.popc hp 8 ⟨9, false, 0⟩) = some op ∧ op.perms.any (permBad xDiv.G.geo.w) = false :=
  ⟨cur_at _ _, by decide, by decide, by decide, ⟨_, rfl, by decide⟩, ⟨_, rfl, by decide⟩⟩

/-- Lane 7's v8 is uncorrectable. -/
def sBad : State := pG fun G => spoilRow 7 8 G
def xBad : Cur := at_ sBad (by decide)
theorem wit_LaneTrapsAndParking_ecc :
    cur sBad = some xBad ∧ tmBusy sBad xBad.G = false ∧ xBad.G.lanes.length ≤ 64 ∧ ligN xBad.G = 1 ∧
      ligDiv xBad.G xBad.K h0 = false ∧ (actMask xBad.G xBad.K h0).testBit 7 = true ∧ 7 < xBad.G.lanes.length ∧
      ∃ op, laneOpOf (sBad.core 0) xBad.G (.popc h0 8 ⟨8, false, 0⟩) = some op ∧ op.perms.any (permBad xBad.G.geo.w) = false ∧
        (op.reads xBad.G xBad.K 7).find? (fun r => r.bad.isSome) = some ⟨1, false, some 8, false⟩ :=
  ⟨cur_at _ _, by decide, by decide, by decide, by decide, by decide, by decide, _, rfl, by decide, by decide⟩

theorem wit_LaneFrame :
    cur sLane = some xLane ∧ (∃ op t, laneOpOf (sLane.core 0) xLane.G (.iadd hp .d .wrap 10 ⟨8, true, 0⟩ (.reg ⟨9, false, 0⟩)) = some op ∧
      exec (.iadd hp .d .wrap 10 ⟨8, true, 0⟩ (.reg ⟨9, false, 0⟩)) sLane = .next t) ∧
      SMap.sorted (xLane.G.lane 7).regs = true ∧ (actMask xLane.G xLane.K hp).testBit 1 = false :=
  ⟨cur_at _ _, ⟨_, _, rfl, rfl⟩, by decide, by decide⟩

/-! ### Witnesses: uniform instructions -/

/-- Every lane holds v9 = 2^55 − 4, v10 = 1, v11 = 2, v12 = −1; p1 is set in lane 0 alone. -/
def sUni : State := pG fun G => pred 0 1 true
  { G with lanes := G.lanes.map fun L => (((L.set 9 (2 ^ 55 - 4)).set 10 1).set 11 2).set 12 (2 ^ 64 - 1) }
def xUni : Cur := at_ sUni (by decide)
theorem wit_UniformIntegerResults :
    cur sUni = some xUni ∧ UniRuns xUni hp (9 :: uopRegs (.reg 10)) ∧ UniRuns xUni h1 (uopRegs (.imm 0x800000)) ∧ UniRuns xUni h0 [12] :=
  ⟨cur_at _ _, uniRuns_of (by decide), uniRuns_of (by decide), uniRuns_of (by decide)⟩

/-- Both sides of each branch, the highest legal target, and LOOP's last count and one before. -/
theorem wit_UniformFlowAndGuard :
    cur sUni = some xUni ∧ UniRuns xUni h1 [] ∧ UniRuns xUni h1 [9] ∧ uVal xUni 9 < 2 ^ 55 ∧ uVal xUni 9 % 4 = 0 ∧
      uVal xUni 10 ≤ 1 ∧ 1 < uVal xUni 11 ∧ sext 64 (uVal xUni 12) < 0 ∧ uVal xUni 8 = 0 ∧
      (xUni.G.lane 0).pred 1 = true ∧ (xUni.G.lane 1).pred 1 = false ∧
      plainUniform (.uadd hn 8 9 (.imm 1)) = true ∧ uniGuard xUni.G xUni.K hn = false :=
  ⟨cur_at _ _, uniRuns_of (by decide), uniRuns_of (by decide), by and_intros <;> decide⟩
/-- Lane 0's v8 is uncorrectable. -/
def sUBad : State := pG (spoilRow 0 8)
def xUBad : Cur := at_ sUBad (by decide)
theorem wit_UniformFlowAndGuard_ecc :
    cur sUBad = some xUBad ∧ plainUniform (.umov h0 9 (.reg 8)) = true ∧ uniGuard xUBad.G xUBad.K h0 = true ∧
      uBad xUBad (plainReads (.umov h0 9 (.reg 8))) = some 8 :=
  ⟨cur_at _ _, by and_intros <;> decide⟩
theorem wit_UniformFrame :
    cur sUni = some xUni ∧ plainUniform (.umov h0 9 (.reg 10)) = true ∧ (∃ t, exec (.umov h0 9 (.reg 10)) sUni = .next t) ∧
      ∀ h, Instr.umov h0 9 (.reg 10) ≠ .ret h :=
  ⟨cur_at _ _, by decide, ⟨_, rfl⟩, by intro h; simp⟩

/-- The deepest window that still takes a call of 24 registers, and a link of that size below it. -/
def sCall : State := pG fun G => gang (fun K => { K with depth := 976 })
  { G with lanes := G.lanes.map fun L => (L.set (8 + 975) (6 * 2 ^ 61 + 0x1000)).set (9 + 976) 0x2000 }
def xCall : Cur := at_ sCall (by decide)
theorem wit_CallsAndReturns :
    cur sCall = some xCall ∧ xCall.G.handler = none ∧ xCall.K.depth + 24 + 24 ≤ xCall.G.bottom + xCall.G.geo.cap ∧
      UniRuns xCall h1 [] ∧ UniRuns xCall h1 [9] ∧ uVal xCall 9 < 2 ^ 55 ∧ uVal xCall 9 % 4 = 0 :=
  ⟨cur_at _ _, by decide, by decide, uniRuns_of (by decide), uniRuns_of (by decide), by decide, by decide⟩
theorem wit_CallsAndReturns_ret :
    cur sCall = some xCall ∧ UniRuns xCall h0 [] ∧ (xCall.G.lane xCall.K.first).val (8 + (xCall.K.depth - 1)) = 6 * 2 ^ 61 + 0x1000 ∧
      xCall.G.bottom + 24 ≤ xCall.K.depth ∧ SMap.get? (xCall.G.lane xCall.K.first).bad (8 + (xCall.K.depth - 1)) = none :=
  ⟨cur_at _ _, uniRuns_of (by decide), by and_intros <;> decide⟩
/-- One more position of depth, no depth at all, and a misaligned and a too high target. -/
def sFull : State := pG fun G => gang (fun K => { K with depth := 980 })
  { G with lanes := G.lanes.map fun L => (L.set (9 + 980) 0x2001).set (10 + 980) (2 ^ 55) }
def xFull : Cur := at_ sFull (by decide)
theorem wit_CallsAndReturns_traps :
    cur sFull = some xFull ∧ xFull.G.handler = none ∧ UniRuns xFull h1 [] ∧
      xFull.G.bottom + xFull.G.geo.cap < xFull.K.depth + 4 * (6 : BitVec 3).toNat + 24 ∧
      UniRuns xFull h0 [9] ∧ uVal xFull 9 % 4 ≠ 0 ∧ UniRuns xFull h0 [10] ∧ 2 ^ 55 ≤ uVal xFull 10 ∧
      cur sUni = some xUni ∧ UniRuns xUni h0 [] ∧ xUni.K.depth ≤ xUni.G.bottom :=
  ⟨cur_at _ _, by decide, uniRuns_of (by decide), by decide, uniRuns_of (by decide), by decide, uniRuns_of (by decide), by decide,
    cur_at _ _, uniRuns_of (by decide), by decide⟩
/-- The group in its handler. -/
def sHand : State := pG fun G => { G with handler := some ⟨G.gangs, G.dstacks, G.recs, 4, 0x1000, [], 0⟩ }
def xHand : Cur := at_ sHand (by decide)
theorem wit_CallsAndReturns_handler : cur sHand = some xHand ∧ xHand.G.handler ≠ none ∧ UniRuns xHand h1 [] :=
  ⟨cur_at _ _, by decide, uniRuns_of (by decide)⟩

/-- After CALL of 4 registers the same gang is selected again. -/
def uRet : State := match exec (.call h1 1 100) p0 with | .next u => u | _ => p0
def sRet : State := { uRet with ports := [(1, 4)] }
def x0 : Cur := at_ p0 (by decide)
def xRet : Cur := at_ sRet (by decide)
theorem wit_ReturnUndoesCall :
    cur p0 = some x0 ∧ x0.G.handler = none ∧ x0.K.pc % 4 = 0 ∧ x0.K.pc + 8 < 2 ^ 55 ∧ x0.G.bottom ≤ x0.K.depth ∧
      x0.K.depth + 4 * (1 : BitVec 3).toNat + 24 ≤ x0.G.bottom + x0.G.geo.cap ∧ UniRuns x0 h1 [] ∧
      x0.K.mask.testBit x0.K.first = true ∧ x0.K.first < x0.G.lanes.length ∧ SMap.sorted (x0.G.lane x0.K.first).bad = true ∧
      cur sRet = some xRet ∧ UniRuns xRet h0 [] :=
  ⟨cur_at _ _, by decide, by decide, by decide, by decide, by decide, uniRuns_of (by decide), by decide, by decide, by decide,
    cur_at _ _, uniRuns_of (by decide)⟩
theorem wit_ReturnUndoesCall_call :
    ∃ u, exec (.call h1 1 100) p0 = .next u ∧ u.group? x0.g = some xRet.G ∧ xRet.G.gang? x0.K.id = some xRet.K ∧ xRet.g = x0.g := by
  exact ⟨uRet, rfl, by and_intros <;> decide⟩

/-! ### Witnesses: special registers -/

def hasRegion : Region := (p0.region? 3).get (by decide)
def hasBlock : Block := (p0.block? 2).get (by decide)
theorem wit_SpecialRegisterReadsAndTraps_reads :
    cur p0 = some x0 ∧ UniRuns x0 h1 [] ∧ p0.block? x0.G.geo.bid = some hasBlock ∧ p0.region? hasBlock.rid = some hasRegion :=
  ⟨cur_at _ _, uniRuns_of (by decide), by decide, by decide⟩

/-- v8 = the least legal default quoins, v9 = a TMSHAPE code, v10 = an unused code, v11 = quoins one bank too many. -/
def sWrsr (priv : Bool) : State :=
  let s := pG fun G => { G with lanes := G.lanes.map fun L =>
    (((L.set 8 (4 * 2 ^ 32 + 4 * 2 ^ 40 + 6 * 2 ^ 48)).set 9 0x13).set 10 0x0E).set 11 (4 * 2 ^ 32 + 4 * 2 ^ 40 + 65 * 2 ^ 48) }
  s.onRegion 3 fun R => { R with rcb := { R.rcb with flags := if priv then 4 else 0 } }
def xWrsr : Cur := at_ (sWrsr true) (by decide)
def xUser : Cur := at_ (sWrsr false) (by decide)
theorem wit_SpecialRegisterWritesTakeEffect :
    cur (sWrsr true) = some xWrsr ∧ UniRuns xWrsr h1 [] ∧ UniRuns xWrsr h1 [8] ∧ UniRuns xWrsr h1 [9] ∧
      tmCodeOk (uVal xWrsr 9 % 2 ^ 8) = true ∧ (sWrsr true).privileged xWrsr.G = true ∧ uVal xWrsr 9 % 2 ^ 32 ≠ 0 ∧
      4 ≤ uVal xWrsr 8 / 2 ^ 32 % 2 ^ 7 ∧ uVal xWrsr 8 / 2 ^ 32 % 2 ^ 7 ≤ uVal xWrsr 8 / 2 ^ 40 % 2 ^ 7 ∧
      uVal xWrsr 8 / 2 ^ 40 % 2 ^ 7 + 2 ≤ uVal xWrsr 8 / 2 ^ 48 % 2 ^ 7 ∧ uVal xWrsr 8 / 2 ^ 48 % 2 ^ 7 ≤ 64 :=
  ⟨cur_at _ _, uniRuns_of (by decide), uniRuns_of (by decide), uniRuns_of (by decide), by and_intros <;> decide⟩
theorem wit_SpecialRegisterReadsAndTraps_traps :
    cur (sWrsr false) = some xUser ∧ UniRuns xUser h1 [10] ∧ tmCodeOk (uVal xUser 10 % 2 ^ 8) = false ∧ UniRuns xUser h1 [12] ∧
      uVal xUser 12 % 2 ^ 32 = 0 ∧ poolBad (uVal xUser 11) = true ∧ (sWrsr false).privileged xUser.G = false ∧
      uVal xUser 10 % 2 ^ 32 ≠ 0 ∧ poolBad (uVal xUser 8) = false :=
  ⟨cur_at _ _, uniRuns_of (by decide), by decide, uniRuns_of (by decide), by and_intros <;> decide⟩
/-- A write that is due in this tick, and one that is due in the next. -/
theorem wit_SpecialRegisterWritesTakeEffect_due :
    (∃ G, (pG fun G => { G with wr := [⟨0x13, 5, 0, 0⟩] }).group? 1 = some G ∧ G.wr = [⟨0x13, 5, 0, 0⟩]) ∧
      0 ≤ p0.tick ∧ p0.tick < 1 ∧ ∃ G, (pG fun G => { G with wr := [⟨0x06, 0x10, 1, 0x40⟩] }).group? 1 = some G ∧
        G.wr = [⟨0x06, 0x10, 1, 0x40⟩] :=
  ⟨⟨_, rfl, rfl⟩, by decide, by decide, ⟨_, rfl, rfl⟩⟩
/-- A gang that holds one slice of two, and a whole group whose lane 7 is done, so that a ligature of 2 is split. -/
def sDone : State := pG fun G => gang (fun K => { K with mask := 127 }) { G with done := 128 }
def xDone : Cur := at_ sDone (by decide)
def sSplit : State := pG (gang fun K => { K with slices := 1, mask := 15 })
def xSplit : Cur := at_ sSplit (by decide)
theorem wit_LigatureBinding :
    cur p0 = some x0 ∧ x0.K.slices = x0.G.unretired ∧ UniRuns x0 h1 [] ∧ (8 : BitVec 7).toNat ≤ x0.G.geo.w ∧
      ligBlocked x0.G x0.K 8 = false ∧ x0.G.geo.w < (16 : BitVec 7).toNat ∧
      cur sDone = some xDone ∧ xDone.K.slices = xDone.G.unretired ∧ UniRuns xDone h1 [] ∧ ligBlocked xDone.G xDone.K 2 = true ∧
      cur sSplit = some xSplit ∧ xSplit.K.slices ≠ xSplit.G.unretired :=
  ⟨cur_at _ _, by decide, uniRuns_of (by decide), by decide, by decide, by decide, cur_at _ _, by decide, uniRuns_of (by decide),
    by decide, cur_at _ _, by decide⟩

/-! ### Witnesses: memory -/

/-- A line of this device's memory. -/
def pa1 : Nat := 511 * 2 ^ 40 + 0x52300
def em0 : EM := ⟨0, 0, 0, 0, 0⟩
def ldI : Instr := .ld h1 .d 8 ⟨9, true⟩ em0
def stI : Instr := .st h1 .d ⟨9, false⟩ ⟨10, true⟩ em0
def atI : Instr := .atom h1 .d 8 ⟨9, false⟩ ⟨10, false⟩ ⟨0, 3, 0, 2, 0⟩
/-- One operation of the group in lane 7. -/
def op1 (i : Instr) (st : LSt) (pte : Nat) : Op :=
  { id := 9, kind := .mem, instr := i, pc := 0x40004, flag := some 11, slices := 3, mask := 255, depth := 0, ctx := none, tick := 0,
    lanes := [⟨7, 0x72378, pa1 + 0x78, pte, 0x55, 0, st, 0⟩], x := 4, y := 0 }
def l1 (st : LSt) (pte : Nat) : OpLane := ⟨7, 0x72378, pa1 + 0x78, pte, 0x55, 0, st, 0⟩
def pOp (o : Op) : State := pG fun G => { G with ops := [o], flags := setAt G.flags 11 1 }

theorem memRuns_of {s : State} {x : Cur} {i : Instr} {em : EM}
    (t : (laneRunsB x i.hd ⟨[], memRds i x.G x.K, []⟩ && releaseReady s x.g x.G x.K.slices
      (scopeOf em.scope.toNat ((bitsOf (actMask x.G x.K i.hd) 64).map (memLaneOf i x.G x.K)))) = true) : MemRuns s x i em :=
  ⟨laneRuns_of (Bool.and_eq_true_iff.1 t).1, fun _ => (Bool.and_eq_true_iff.1 t).2⟩
/-- Active lanes and none, a release that may go on. -/
theorem wit_MemoryIssueAndChecks :
    cur sUni = some xUni ∧ MemRuns sUni xUni (.ld hp .q 8 ⟨12, true⟩ ⟨1, 4, 0, 0, 0x7FFFF⟩) ⟨1, 4, 0, 0, 0x7FFFF⟩ ∧
      (actMask xUni.G xUni.K hp).testBit 0 = true ∧
      MemRuns sUni xUni (.st h1 .b ⟨9, false⟩ ⟨12, false⟩ ⟨2, 4, 0, 0, 0⟩) ⟨2, 4, 0, 0, 0⟩ ∧
      MemRuns sUni xUni (.atom h1 .q 8 ⟨9, false⟩ ⟨10, true⟩ ⟨3, 2, 0, 1, 0⟩) ⟨3, 2, 0, 1, 0⟩ ∧
      MemRuns sUni xUni (.cxch h1 8 ⟨9, false⟩ ⟨10, true⟩ em0) em0 ∧ xUni.K.slices = xUni.G.unretired ∧
      MemRuns sUni xUni (.cldr h1 8 ⟨9, false⟩ ⟨0, 2, 0, 11, 0⟩) ⟨0, 2, 0, 11, 0⟩ ∧ xUni.G.tmshape < 0x10 :=
  ⟨cur_at _ _, memRuns_of (by decide +kernel), by decide +kernel, memRuns_of (by decide +kernel), memRuns_of (by decide +kernel),
    memRuns_of (by decide +kernel), by decide +kernel, memRuns_of (by decide +kernel), by decide +kernel⟩
/-- No lane is active. -/
def hAll : Hd := ⟨true, 14, false, true⟩
theorem wit_MemoryIssueAndChecks_idle :
    cur sUni = some xUni ∧ MemRuns sUni xUni (.ld hAll .b 8 ⟨12, false⟩ em0) em0 ∧
      ∀ l, l < 64 → (actMask xUni.G xUni.K hAll).testBit l = false :=
  ⟨cur_at _ _, ⟨laneRuns_of (by decide +kernel), by decide +kernel⟩, by decide +kernel⟩
/-- Addresses at each limit: no value falls under two clauses. -/
theorem wit_MemoryIssueAndChecks_limits :
    (p0.window hasBlock).2 = 262144 ∧ (p0.core hasBlock.core).mapAt hasBlock.id 262136 = none ∧
      0x7FFFFFFFE00000 + 262144 < 2 ^ 55 ∧ (0x7FFFFFFFE00000 + 262136) % 2 ^ 21 + 8 ≤ 262144 ∧
      262144 < (0x7FFFFFFFE00000 + 262144) % 2 ^ 21 + 8 ∧ (0x7FFFFFFF600000 + 7) % 8 ≠ 0 ∧ 0x7FFFFFFF600000 % 8 = 0 ∧
      0x7FFFFFFF5FFFF8 % 8 = 0 :=
  by and_intros <;> decide +kernel

/-- A line of L1 with a stored doubleword: a load of it is served, one of its neighbour is not. -/
def sL1 : State := p0.caStore 0 1 (pa1 + 0x78) 8 0x1122334455667788 0 0x3F
theorem wit_MemoryLaneEffects :
    pathOf 0x3F (pa1 + 0x78) 0 = 0 ∧ pathOf 0x3F pa1 3 ≠ 0 ∧ (sL1.core 0).caPoison (pa1 + 0x78) 8 = none ∧
      (sL1.core 0).caLoad sL1.tick (pa1 + 0x78) 8 = some (0x1122334455667788, 0) ∧
      (sL1.core 0).caLoad sL1.tick (pa1 + 0x70) 8 = none ∧ (sL1.core 0).spPoison 262136 8 = none ∧
      (op1 ldI .walk 0x3F).instr = .ld h1 .d 8 ⟨9, true⟩ em0 ∧ (op1 stI .walk 0x3F).instr = .st h1 .d ⟨9, false⟩ ⟨10, true⟩ em0 :=
  ⟨by decide +kernel, by decide +kernel, by decide +kernel, by decide +kernel, by decide +kernel, by decide +kernel, rfl, rfl⟩
/-- The doubleword has become uncorrectable; a store to a CP page by a core that owns it, and by one that does not. -/
def sL1bad : State := sL1.onCore 0 fun k => { k with poison := [(caWord (pa1 + 0x78), 1)] }
def sOwn : State := { p0 with ms := { p0.ms with cp := [(ptePA 0xBF, 0)] } }
theorem wit_MemoryLaneEffects_paths :
    (sL1bad.core 0).caPoison (pa1 + 0x78) 8 ≠ none ∧ pteCC 0x3F ≠ 2 ∧ pathOf 0xBF pa1 0 = 0 ∧ pteCC 0xBF = 2 ∧
      sOwn.ownsCp (ptePA 0xBF) 0 = true ∧ p0.ownsCp (ptePA 0xBF) 0 = false := by and_intros <;> decide +kernel
theorem wit_StoreFrames :
    (pa1 + 0x78) % 128 + 8 ≤ 128 ∧ (sL1.core 0).caLine (lineOf (pa1 + 0x78)) ≠ none ∧
      (SMap.getD (p0.core 0).vord (caSet (lineOf pa1)) []).length < (p0.core 0).ways ∧ SMap.sorted (p0.core hasBlock.core).sp = true :=
  by and_intros <;> decide +kernel
theorem wit_HomeWriteFrame : p0.MemOk ∧ (pa1 + 0x78) % 128 + 8 ≤ 128 := ⟨by show Memory.wf p0.mem = true; decide, by decide +kernel⟩
theorem wit_MemoryFrame :
    cur sUni = some xUni ∧ (accOf atI).isSome = true ∧ (∃ t, exec atI sUni = .next t) ∧ SMap.sorted (xUni.G.lane 7).regs = true :=
  ⟨cur_at _ _, by decide +kernel, ⟨_, rfl⟩, by decide +kernel⟩
theorem wit_LoadsLandAndFrame_frame : cur sUni = some xUni ∧ ∃ t, exec (.ld h1 .d 8 ⟨9, true⟩ em0) sUni = .next t :=
  ⟨cur_at _ _, ⟨_, rfl⟩⟩
theorem wit_LoadsLandAndFrame_lands :
    ∃ G, (pOp (op1 ldI (.bound 5) 0x3F)).group? 1 = some G ∧ G.op? 9 = some (op1 ldI (.bound 5) 0x3F) ∧
      (op1 ldI (.bound 5) 0x3F).kind = .mem ∧ (op1 ldI (.bound 5) 0x3F).lanes = [l1 (.bound 5) 0x3F] ∧
      (0x80 : LaneMask).toNat.testBit 7 = true ∧ 7 < G.lanes.length ∧ 11 < G.flags.length ∧ (accOf ldI).isSome = true ∧
      ((pOp (op1 ldI (.bound 5) 0x3F)).core G.geo.core).regsMove = false :=
  ⟨_, rfl, by and_intros <;> decide +kernel⟩

/-! Lines -/

theorem wit_LinesComeAndGo_fill :
    (pOp (op1 ldI .home 0x3F)).fillWaiter 0 pa1 = some (op1 ldI .home 0x3F, l1 .home 0x3F) ∧
      (pOp (op1 ldI .home 0x3F)).isLocal pa1 = true ∧ (pOp (op1 ldI .home 0x3F)).drained pa1 = true ∧ pteCC 0x3F = 0 ∧
      ((pOp (op1 ldI .home 0x3F)).core 0).caLine pa1 = none ∧ (pOp (op1 ldI .home 0x3F)).fillFirst 0 pa1 = true ∧
      ((pOp (op1 ldI .home 0x3F)).core 0).move = none ∧
      (SMap.getD ((pOp (op1 ldI .home 0x3F)).core 0).vord (caSet pa1) []).length < ((pOp (op1 ldI .home 0x3F)).core 0).ways :=
  by and_intros <;> decide +kernel
/-- A fill-mode mapping of one line at offset 0, on global address 0, which is not mapped. -/
def mp1 : Mapping := { id := 77, bid := 2, off := 0, n := 1, base := 0, copyIn := false, lines := [] }
/-- The same on the page that the core has translated, where that page may be GS. -/
def mp2 : Mapping := { mp1 with base := 0x40000 }
def sMap (m : Mapping) : State :=
  (pG fun G => { G with ops := [{ op1 ldI .stash 0 with lanes := [⟨7, 0x7FFFFFFFE00000, 77, 0, 0, 0, .stash, 0⟩] }] }).onCore 0 fun k =>
    { k with maps := [m] }
def sGsPage : State := (sMap mp2).onCore 0 fun k => { k with tlb := SMap.put k.tlb 0x80020 (pa1 / 2 ^ 16 * 2 ^ 16 + 0x13F) }
theorem pair_of {α β : Type} {r : α × β} {a : α} (h : r.1 = a) : ∃ u, r = (a, u) := ⟨r.2, by rw [← h]⟩
theorem wit_LinesComeAndGo_stash :
    (((sMap mp1).core 0).maps.find? fun m => m.id == 77) = some mp1 ∧ (sMap mp1).block? mp1.bid = some hasBlock ∧
      (sMap mp1).stashWaiters 0 77 0 ≠ [] ∧ (∀ w ∈ (sMap mp1).stashWaiters 0 77 0, w.1.storesDone w.2.id = true) ∧
      (sMap mp2).stashWaiters 0 77 0 ≠ [] ∧ (∀ w ∈ (sMap mp2).stashWaiters 0 77 0, w.1.storesDone w.2.id = true) ∧
      hasBlock.core = 0 ∧ ((sMap mp1).globalPA 0 ((sMap mp1).blockRoot hasBlock) 0).1 = none ∧
      (∃ u, (sMap mp1).fillStash hasBlock mp1 0 = (.flt 4, u)) ∧ (∃ u, (sMap mp2).fillStash hasBlock mp2 0 = (.filled, u)) :=
  ⟨by decide +kernel, by decide +kernel, by decide +kernel, by decide +kernel, by decide +kernel, by decide +kernel, by decide,
    by decide +kernel, pair_of (by decide +kernel), pair_of (by decide +kernel)⟩
theorem wit_LinesComeAndGo_gs :
    ((sGsPage.globalPA 0 (sGsPage.blockRoot hasBlock) 0x40000).1.any fun p => sGsPage.addrOk p.1 && pteGS p.2) = true ∧
      sGsPage.block? mp2.bid = some hasBlock ∧ sGsPage.stashWaiters 0 77 0 ≠ [] := by and_intros <;> decide +kernel
def ln1 : CaLine := ((sL1.core 0).caLine pa1).get (by decide +kernel)
/-- A clean line whose lease ends now, one with dirty bytes, and one whose lease ends in the next tick. -/
theorem wit_LinesComeAndGo_back :
    (sL1.core 0).caLine pa1 = some ln1 ∧ sL1.MemOk ∧ sL1.drained pa1 = true ∧ sL1.addrOk pa1 = true ∧ ln1.dirty ≠ 0 ∧ pa1 % 128 = 0 ∧
      sL1.homeBusy 0 sL1.nextId pa1 = false ∧ sL1.lineMoves 0 pa1 = false ∧ sL1.stashOf 0 pa1 = [] :=
  ⟨by decide +kernel, by show Memory.wf sL1.mem = true; decide, by and_intros <;> decide +kernel⟩
def sLine (l : CaLine) : State := p0.onCore 0 fun k => k.setCa pa1 l
theorem wit_LinesComeAndGo_lease :
    ((sLine { ln1 with valid := allBytes, dirty := 0 }).core 0).caLine pa1 = some { ln1 with valid := allBytes, dirty := 0 } ∧
      ((sLine { ln1 with valid := allBytes }).core 0).caLine pa1 = some { ln1 with valid := allBytes } ∧
      ((sLine { ln1 with expiry := 1 }).core 0).caLine pa1 = some { ln1 with expiry := 1 } ∧
      ln1.cc = 0 ∧ ln1.expiry ≤ p0.tick ∧ allBytes ≠ ln1.dirty ∧ allBytes ≠ 0 ∧ p0.tick < 1 :=
  by and_intros <;> decide +kernel
theorem wit_AtomicsAtHomeAndVault_home :
    (pOp (op1 atI .home 0x3F)).MemOk ∧ (∃ G, (pOp (op1 atI .home 0x3F)).group? 1 = some G ∧ G.op? 9 = some (op1 atI .home 0x3F) ∧
      (pOp (op1 atI .home 0x3F)).block? G.geo.bid = some hasBlock) ∧
      (op1 atI .home 0x3F).first OpLane.atHome = some (l1 .home 0x3F) ∧ (pOp (op1 atI .home 0x3F)).drained (pa1 + 0x78) = true ∧
      (pOp (op1 atI .home 0x3F)).isLocal (pa1 + 0x78) = true ∧ (pa1 + 0x78) % 128 + (op1 atI .home 0x3F).acc.sz ≤ 128 ∧
      (pOp (op1 atI .home 0x3F)).vaultFirst 0 (op1 atI .home 0x3F) (l1 .home 0x3F) = true ∧
      (pOp (op1 atI .home 0x3F)).ligHomeFlt x0.G (op1 atI .home 0x3F) (l1 .home 0x3F) = false ∧
      ((pOp (op1 atI .home 0x3F)).core 0).caLine (lineOf (pa1 + 0x78)) = none ∧
      (pOp (op1 atI .home 0x3F)).lineMoves 0 (pa1 + 0x78) = false ∧ (op1 atI .home 0x3F).together x0.G (l1 .home 0x3F) = [l1 .home 0x3F] :=
  ⟨by show Memory.wf (pOp (op1 atI .home 0x3F)).mem = true; decide, ⟨_, rfl, by decide +kernel, by decide +kernel⟩, by and_intros <;> decide +kernel⟩
/-- Accesses that the page's CPOL takes past the LLC: 0x203F. -/
theorem wit_AtomicsAtHomeAndVault_vault :
    (∃ G, (pOp (op1 ldI .vault 0x203F)).group? 1 = some G ∧ G.op? 9 = some (op1 ldI .vault 0x203F)) ∧
      ((op1 ldI .vault 0x203F).first fun l => l.atVault && l.lane == 7) = some (l1 .vault 0x203F) ∧
      (pOp (op1 ldI .vault 0x203F)).vaultFirst 0 (op1 ldI .vault 0x203F) (l1 .vault 0x203F) = true ∧
      (pOp (op1 stI .vault 0x203F)).vaultFirst 0 (op1 stI .vault 0x203F) (l1 .vault 0x203F) = true ∧ pteCC 0x203F ≠ 2 ∧
      (pOp (op1 ldI .vault 0x203F)).ligHomeFlt x0.G (op1 ldI .vault 0x203F) (l1 .vault 0x203F) = false ∧
      (pOp (op1 stI .vault 0x203F)).ligHomeFlt x0.G (op1 stI .vault 0x203F) (l1 .vault 0x203F) = false ∧
      pathOf 0x203F (pa1 + 0x78) 0 = 2 ∧ (op1 ldI .vault 0x203F).acc.wr = false ∧ (op1 stI .vault 0x203F).acc.wr = true ∧
      (op1 stI .vault 0x203F).acc.rd = false ∧ (op1 stI .vault 0x203F).together x0.G (l1 .vault 0x203F) = [l1 .vault 0x203F] ∧
      (op1 ldI .vault 0x203F).together x0.G (l1 .vault 0x203F) = [l1 .vault 0x203F] ∧
      (pOp (op1 stI .vault 0x203F)).block? x0.G.geo.bid = some hasBlock ∧ (pOp (op1 ldI .vault 0x203F)).block? x0.G.geo.bid = some hasBlock ∧ (pOp (op1 stI .vault 0x203F)).drained (pa1 + 0x78) = true ∧
      (pOp (op1 stI .vault 0x203F)).isLocal (pa1 + 0x78) = true ∧ (pa1 + 0x78) % 128 + (op1 stI .vault 0x203F).acc.sz ≤ 128 :=
  ⟨⟨_, rfl, by decide +kernel⟩, by and_intros <;> decide +kernel⟩
/-- Device 1 is not in the torus: an atomic there faults at its home. -/
def lFar (st : LSt) (pte : Nat) : OpLane := { l1 st pte with pa := 2 ^ 40 + 0x78 }
def opFar (i : Instr) (st : LSt) (pte : Nat) : Op := { op1 i st pte with lanes := [lFar st pte] }
theorem wit_AtomicsAtHomeAndVault_down :
    (∃ G, (pOp (opFar atI .home 0x3F)).group? 1 = some G ∧ G.op? 9 = some (opFar atI .home 0x3F) ∧
      (pOp (opFar atI .home 0x3F)).ligHomeFlt G (opFar atI .home 0x3F) (lFar .home 0x3F) = true) ∧
    (∃ G, (pOp (opFar ldI .vault 0x203F)).group? 1 = some G ∧ G.op? 9 = some (opFar ldI .vault 0x203F) ∧
      (pOp (opFar ldI .vault 0x203F)).ligHomeFlt G (opFar ldI .vault 0x203F) (lFar .vault 0x203F) = true) ∧
    (opFar atI .home 0x3F).first OpLane.atHome = some (lFar .home 0x3F) ∧
    ((opFar ldI .vault 0x203F).first fun l => l.atVault && l.lane == 7) = some (lFar .vault 0x203F) :=
  ⟨⟨_, rfl, by decide +kernel, by decide +kernel⟩, ⟨_, rfl, by decide +kernel, by decide +kernel⟩, by decide +kernel, by decide +kernel⟩

/-- A root table whose entry 0 names a table at 0x70000: its entry 0 is `m`, unused or a page of 512 MiB. -/
def sWalk (m : Nat) : State :=
  (((pOp (op1 ldI .walk 0)).pokeN 0x60000 8 0x70001).pokeN 0x70000 8 m).onCore 0 fun k => { k with tlb := [] }
theorem wit_PageTableWalk :
    (sWalk 0).walkers 0 placeRoot 0x72378 = [(1, 9)] ∧ (∃ G, (sWalk 0).group? 1 = some G ∧ G.op? 9 = some (op1 ldI .walk 0)) ∧
      0x72378 < 0x7FFFFFFF600000 ∧ (sWalk 0).tlbLeaf 0 placeRoot 0x72378 = none ∧ ((sWalk 0).walkC 0 placeRoot 0x72378).2 = none ∧
      (sWalk 0).walkHeld 0 placeRoot 0x72378 = false ∧ (sWalk 0x3F).walkHeld 0 placeRoot 0x72378 = false ∧
      ((sWalk 0x3F).walkC 0 placeRoot 0x72378).2.isSome = true ∧ (sWalk 0x3F).tlbLeaf 0 placeRoot 0x72378 = none :=
  ⟨by decide +kernel, ⟨_, rfl, by decide +kernel⟩, by and_intros <;> decide +kernel⟩

/-! ### Witnesses: divergence, clauses, holds, watches, fences -/

def sFullStack : State := pG fun G => { pred 3 1 true G with dstacks := [List.replicate 16 ⟨0x1000, 1, 0x2000⟩, []] }
def xFullStack : Cur := at_ sFullStack (by decide +kernel)
/-- One slice of four lanes, p1 set in lane 3 alone, with one stack entry less than the stack holds. -/
def sOne : State := pG fun G => gang (fun K => { K with slices := 1, mask := 15 })
  { pred 3 1 true G with dstacks := [List.replicate 15 ⟨0x1000, 1, 0x2000⟩, []], retired := 2, done := 0xF0 }
def xOne : Cur := at_ sOne (by decide +kernel)
theorem wit_BranchAndJoin_traps :
    cur sDiv = some xDiv ∧ ligSplit xDiv.G xDiv.K (fun l => (xDiv.G.lane l).pred 1) = true ∧
      cur sFullStack = some xFullStack ∧ ligDiv xFullStack.G xFullStack.K h1 = false ∧
      ligSplit xFullStack.G xFullStack.K (fun l => (xFullStack.G.lane l).pred 1) = false ∧ xFullStack.K.slices.testBit 0 = true ∧
      splitSlice 8 (255 - 8) 0 = true ∧ 16 ≤ (xFullStack.G.stack 0).length ∧
      maskOf ((bitsOf (actMask xFullStack.G xFullStack.K h1) 64).filter fun l => (xFullStack.G.lane l).pred 1) = 8 :=
  ⟨cur_at _ _, by decide +kernel, cur_at _ _, by and_intros <;> decide +kernel⟩
theorem wit_BranchAndJoin_paths :
    cur sOne = some xOne ∧ ligDiv xOne.G xOne.K h1 = false ∧ ligSplit xOne.G xOne.K (fun l => (xOne.G.lane l).pred 1) = false ∧
      xOne.K.slices = 2 ^ 0 ∧ xOne.K.mask < 2 ^ 64 ∧ xOne.K.mask ≠ 0 ∧ xOne.K.mask &&& slicesLanes xOne.K.slices = xOne.K.mask ∧
      maskOf ((bitsOf (actMask xOne.G xOne.K h1) 64).filter fun l => (xOne.G.lane l).pred 1) = 8 ∧ splitSlice 8 (15 - 8) 0 = true ∧
      (xOne.G.stack 0).length < 16 ∧
      maskOf ((bitsOf (actMask xOne.G xOne.K h1) 64).filter fun l => (xOne.G.lane l).pred 2) = 0 ∧
      maskOf ((bitsOf (actMask xOne.G xOne.K h1) 64).filter fun l => (xOne.G.lane l).pred 15) = xOne.K.mask :=
  ⟨cur_at _ _, by and_intros <;> decide +kernel⟩
/-- The gang at a join with an entry that has yet to run, with one that waits at the join, and with none. -/
def sJoin (st : List StackEnt) : State := pG fun G => gang (fun K => { K with slices := 1, mask := 12 })
  { G with dstacks := [st, []], retired := 2, done := 0xF0 }
def xJoin (st : List StackEnt) (h : (cur (sJoin st)).isSome = true) : Cur := at_ (sJoin st) h
theorem wit_BranchAndJoin_join :
    ∀ st ∈ [[], [(⟨0x50000, 3, placeVa⟩ : StackEnt)], [⟨placeVa, 3, placeVa⟩]], ∃ h,
      let x := xJoin st h
      cur (sJoin st) = some x ∧ x.K.slices = 2 ^ 0 ∧ x.K.split = 0 ∧ x.G.gangs = [x.K] ∧ x.G.recs = [] ∧ x.K.mask ≠ 0 ∧
        x.K.mask &&& sliceLanes 0 = x.K.mask ∧ x.K.st = .ready ∧ 0 < x.G.dstacks.length ∧ 4 ≤ x.K.pc ∧ x.K.pc - 4 = placeVa ∧
        x.G.stack 0 = st := by
  intro st hs
  simp only [List.mem_cons, List.not_mem_nil, or_false] at hs
  rcases hs with rfl | rfl | rfl <;>
    exact ⟨by decide +kernel, cur_at _ _, by and_intros <;> decide +kernel⟩

/-- Two slices: p1 set in lane 3 alone, so that slice 0 holds both paths and slice 1 the fall-through. -/
def sSpl : State := pG (pred 3 1 true)
def xSpl : Cur := at_ sSpl (by decide +kernel)
theorem wit_BranchAndJoin_split :
    cur sSpl = some xSpl ∧ ligDiv xSpl.G xSpl.K h1 = false ∧ ligSplit xSpl.G xSpl.K (fun l => (xSpl.G.lane l).pred 1) = false ∧
      xSpl.K.slices = 3 ∧ xSpl.K.mask < 2 ^ 64 ∧ xSpl.K.mask &&& slicesLanes xSpl.K.slices = xSpl.K.mask ∧
      maskOf ((bitsOf (actMask xSpl.G xSpl.K h1) 64).filter fun l => (xSpl.G.lane l).pred 1) = 8 ∧
      maskOf ((bitsOf 3 16).filter fun j => ((8 : Nat) &&& sliceLanes j) == 0 && ((xSpl.K.mask &&& (2 ^ 64 - 1 - 8)) &&& sliceLanes j) != 0) = 2 ∧
      splitSlice 8 (xSpl.K.mask &&& (2 ^ 64 - 1 - 8)) 0 = true ∧ splitSlice 8 (xSpl.K.mask &&& (2 ^ 64 - 1 - 8)) 1 = false ∧
      xSpl.G.dstacks.length = 2 ∧ (xSpl.G.stack 0).length < 16 ∧ (xSpl.G.stack 1).length < 16 ∧ xSpl.G.record? 15 = none :=
  ⟨cur_at _ _, by and_intros <;> decide +kernel⟩
/-- The same gang at a join at which slice 0 has lanes that have yet to run. -/
def sExch : State := pG fun G => { G with dstacks := [[⟨0x50000, 3, placeVa⟩], []] }
def xExch : Cur := at_ sExch (by decide +kernel)
theorem wit_BranchAndJoin_exchange :
    cur sExch = some xExch ∧ xExch.K.slices = 2 ^ 0 ||| 2 ^ 1 ∧ xExch.K.split = 0 ∧ xExch.G.gangs = [xExch.K] ∧ xExch.G.recs = [] ∧
      xExch.K.st = .ready ∧ xExch.G.dstacks.length = 2 ∧ xExch.K.mask &&& sliceLanes 1 ≠ 0 ∧ xExch.K.pc - 4 = placeVa ∧
      xExch.G.stack 0 = [⟨0x50000, 3, placeVa⟩] ∧ xExch.G.stack 1 = [] :=
  ⟨cur_at _ _, by and_intros <;> decide +kernel⟩
/-- A gang of slice 1 at the join of record 15; the gang of slice 0 under the record runs elsewhere, or waits there at depth `d`. -/
def sRecJ (st : GState) (d : Nat) : State := pG fun G =>
  { G with
    recs := [⟨15, 0, placeVa⟩]
    gangs := G.gangs.flatMap fun K =>
      [{ K with slices := 2, mask := 0xF0, split := 15 }, { K with id := 5, slices := 1, mask := 0x0F, split := 15, st := st, depth := d }] }
def xRecJ (st : GState) (d : Nat) (h : (cur (sRecJ st d)).isSome = true) : Cur := at_ (sRecJ st d) h
theorem wit_BranchAndJoin_record :
    ∀ e ∈ [(GState.ready, 0), (.waitJoin 15 placeVa, 0), (.waitJoin 15 placeVa, 24)], ∃ h D,
      let x := xRecJ e.1 e.2 h
      cur (sRecJ e.1 e.2) = some x ∧ x.K.slices = 2 ^ 1 ∧ x.K.split = 15 ∧ x.G.gangs = [x.K, D] ∧ D.id ≠ x.K.id ∧ D.split = 15 ∧
        x.K.mask ≠ 0 ∧ x.K.mask &&& sliceLanes 1 = x.K.mask ∧ x.K.st = .ready ∧ 1 < x.G.dstacks.length ∧ 4 ≤ x.K.pc ∧
        x.G.recs = [⟨15, 0, x.K.pc - 4⟩] ∧ x.G.stack 1 = [] ∧ (x.G.evs.any fun e => e.cause == 9) = false ∧ D.st = e.1 ∧
        D.depth = e.2 ∧ x.K.depth = 0 ∧ D.pc = x.K.pc ∧ (D.slices ||| 2 ^ 1).testBit (lowBit x.G.liveLanes / 4) = true := by
  intro e he
  simp only [List.mem_cons, List.not_mem_nil, or_false] at he
  rcases he with rfl | rfl | rfl
  · exact ⟨by decide +kernel, (xRecJ .ready 0 (by decide +kernel)).G.gangs[1]'(by decide +kernel), by and_intros <;> decide +kernel⟩
  · exact ⟨by decide +kernel, (xRecJ (.waitJoin 15 placeVa) 0 (by decide +kernel)).G.gangs[1]'(by decide +kernel),
      by and_intros <;> decide +kernel⟩
  · exact ⟨by decide +kernel, (xRecJ (.waitJoin 15 placeVa) 24 (by decide +kernel)).G.gangs[1]'(by decide +kernel),
      by and_intros <;> decide +kernel⟩

/-- At a header, with f11 counted. -/
def sClause : State := pG fun G => gang (fun K => { K with clause := none }) { G with flags := setAt G.flags 11 1 }
def xClause : Cur := at_ sClause (by decide +kernel)
theorem wit_ClauseStart :
    cur sClause = some xClause ∧ xClause.K.clause = none ∧ xClause.G.pending = false ∧
      (Header.ofWord 0x00000000).trap = some 0x02 ∧ (Header.ofWord 0x04001000).trap = some 0x01 ∧
      (Header.ofWord 0x04000800).trap = none ∧ xClause.G.clear (Header.ofWord 0x04000800).wait = false ∧
      (Header.ofWord 0x0C000400).trap = none ∧ xClause.G.clear (Header.ofWord 0x0C000400).wait = true :=
  ⟨cur_at _ _, by and_intros <;> decide +kernel⟩
theorem wit_GangSelect :
    (p0.core 0).sel ≠ p0.tick + 1 ∧ p0.issues = true ∧ (p0.core 0).regsMove = false ∧
      (1, 4) ∈ takePorts 0 4 (p0.candidates 0) ∧ ((p0.onCore 0 fun k => { k with sel := 1 }).core 0).sel = p0.tick + 1 ∧
      ((p0.candidates 0).head?.any fun a => a.mask != 0) = true :=
  by and_intros <;> decide +kernel

/-- The gang before EXIT with all lanes but one, with all lanes, and in the handler. -/
def sExit (m : Nat) (hand : Bool) : State := pG fun G => gang (fun K => { K with hold := .exit, mask := m })
  { G with handler := if hand then some ⟨G.gangs, G.dstacks, G.recs, 4, 0x1000, [], 0⟩ else none }
theorem wit_ExitEnds :
    cur p0 = some x0 ∧ UniRuns x0 h0 [] ∧
      ∀ e ∈ [(127, false), (255, false), (127, true)], ∃ h, let x := at_ (sExit e.1 e.2) h
        (sExit e.1 e.2).group? 1 = some x.G ∧ x.G.gang? 4 = some x.K ∧ x.K.hold = .exit ∧ x.G.handler.isSome = e.2 ∧
        x.G.pending = false ∧ (sExit e.1 e.2).groupRuns x.G = true ∧ exitDue (sExit e.1 e.2) 1 x.G = true ∧
        ((2 ^ x.G.geo.w - 1) &&& (2 ^ 64 - 1 - (x.G.done ||| x.K.mask)) = if e.1 = 255 then 0 else 128) := by
  refine ⟨cur_at _ _, uniRuns_of (by decide), ?_⟩
  intro e he
  simp only [List.mem_cons, List.not_mem_nil, or_false] at he
  rcases he with rfl | rfl | rfl <;>
    exact by and_intros <;> decide +kernel

def sBar : State := (pG (gang fun K => { K with hold := .bar 15 1 })).onBlock 2 fun b => { b with bars := [(15, 0)] }
def gBar : Group := (sBar.group? 1).get (by decide +kernel)
def kBar : Gang := gBar.gangs[0]'(by decide +kernel)
def bBar : Block := (sBar.block? 2).get (by decide +kernel)
theorem wit_BarrierCompletes :
    cur p0 = some x0 ∧ UniRuns x0 h0 [] ∧ x0.K.slices = x0.G.unretired ∧ sBar.group? 1 = some gBar ∧ gBar.gangs = [kBar] ∧ kBar.id = 4 ∧
      kBar.hold = .bar 15 1 ∧ gBar.pending = false ∧ releaseReady sBar 1 gBar (2 ^ 16 - 1) 1 = true ∧ gBar.geo.bid = bBar.id ∧
      sBar.block? bBar.id = some bBar ∧ bBar.groups = [1] ∧ bBar.bars = [(15, 0)] ∧ sBar.groupRuns gBar = true ∧
      ∀ y ∈ sBar.groupsOf bBar, y.2.ended = true ∨ (SMap.getD bBar.bars 15 0 ||| 2 ^ gBar.geo.gi).testBit y.2.geo.gi = true :=
  ⟨cur_at _ _, uniRuns_of (by decide), by and_intros <;> decide +kernel⟩

/-- A second group of the block has not arrived; the placed group alone goes through a barrier. -/
def sBar2 : State :=
  (sBar.putGroup 11 { gBar with geo := { gBar.geo with gi := 1 } }).onBlock 2 fun b => { b with groups := [1, 11] }
def bBar2 : Block := (sBar2.block? 2).get (by decide +kernel)
theorem wit_BarrierCompletes_waits :
    sBar2.group? 1 = some gBar ∧ sBar2.block? gBar.geo.bid = some bBar2 ∧ bBar2.bars = [(15, 0)] ∧ sBar2.groupRuns gBar = true ∧
      releaseReady sBar2 1 gBar (2 ^ 16 - 1) 1 = true ∧
      ¬∀ y ∈ sBar2.groupsOf bBar2, y.2.ended = true ∨ (SMap.getD bBar2.bars 15 0 ||| 2 ^ gBar.geo.gi).testBit y.2.geo.gi = true := by
  and_intros <;> decide +kernel
theorem wit_BarrierCompletes_through :
    cur p0 = some x0 ∧ UniRuns x0 h0 [] ∧ x0.K.slices = x0.G.unretired ∧ x0.G.gangs = [x0.K] ∧ x0.G.pending = false ∧
      p0.groupRuns x0.G = true ∧ releaseReady p0 x0.g x0.G (2 ^ 16 - 1) 1 = true ∧ p0.block? x0.G.geo.bid = some hasBlock ∧
      hasBlock.bars = [] ∧ x0.g ∈ hasBlock.groups ∧
      ∀ y ∈ p0.groupsOf hasBlock, y.2.ended = true ∨ (SMap.getD hasBlock.bars 15 0 ||| 2 ^ x0.G.geo.gi).testBit y.2.geo.gi = true :=
  ⟨cur_at _ _, uniRuns_of (by decide), by and_intros <;> decide +kernel⟩

/-- v9 is an address of the page that the core has translated. -/
def sMon : State := pG fun G => { G with lanes := G.lanes.map fun L => L.set 9 0x4007C }
def xMon : Cur := at_ sMon (by decide +kernel)
theorem wit_Watches_monitor :
    cur sMon = some xMon ∧ UniRuns xMon h0 [9] ∧ uVal xMon 9 < 0x7FFFFFFF600000 ∧
      ∃ p s', UniAccess sMon xMon [9] (uVal xMon 9) 1 1 true false hasBlock [p] s' :=
  ⟨cur_at _ _, uniRuns_of (by decide), by decide +kernel,
    uacc1 (by decide +kernel) (by decide +kernel) (by decide +kernel) (by decide +kernel)⟩
/-- v9 is the first address of the apertures, v10 the last. -/
def sMonSp : State := pG fun G => { G with lanes := G.lanes.map fun L => (L.set 9 0x7FFFFFFF600000).set 10 (2 ^ 55 - 1) }
def xMonSp : Cur := at_ sMonSp (by decide +kernel)
theorem wit_Watches_aperture :
    cur sMonSp = some xMonSp ∧ UniRuns xMonSp h0 [9] ∧ UniRuns xMonSp h0 [10] ∧ 0x7FFFFFFF600000 ≤ uVal xMonSp 9 ∧
      uVal xMonSp 9 < 2 ^ 55 ∧ 0x7FFFFFFF600000 ≤ uVal xMonSp 10 ∧ uVal xMonSp 10 < 2 ^ 55 :=
  ⟨cur_at _ _, uniRuns_of (by decide +kernel), uniRuns_of (by decide +kernel), by and_intros <;> decide +kernel⟩
def sSleep (w : Option Watch) (st : GState) (t : Option Nat) : State := pG (gang fun K => { K with watch := w, st := st, wake := t })
theorem wit_Watches_sleep :
    cur sUni = some xUni ∧ UniRuns xUni h0 [10] ∧ xUni.K.watch = none ∧ 0 < uVal xUni 10 ∧
      (∃ h, (at_ (sSleep (some ⟨0x40000, true⟩) .ready none) h).K.watch = some ⟨0x40000, true⟩) ∧
      (∃ h, (at_ (sSleep (some ⟨0x40000, false⟩) .ready none) h).K.watch = some ⟨0x40000, false⟩) ∧
      ∃ G K, (sSleep (some ⟨lineOf pa1, false⟩) .sleep (some 0)).group? 1 = some G ∧ G.gang? 4 = some K ∧ K.wake = some 0 ∧ K.st = .sleep ∧
        K ∈ G.gangs ∧ K.watch = some ⟨lineOf pa1, false⟩ :=
  ⟨cur_at _ _, uniRuns_of (by decide), by decide +kernel, by decide +kernel, ⟨by decide +kernel, by decide +kernel⟩,
    ⟨by decide +kernel, by decide +kernel⟩,
    ((sSleep (some ⟨lineOf pa1, false⟩) .sleep (some 0)).group? 1).get (by decide +kernel),
    (((sSleep (some ⟨lineOf pa1, false⟩) .sleep (some 0)).group? 1).get (by decide +kernel)).gangs[0]'(by decide +kernel),
    by and_intros <;> decide +kernel⟩

/-- A gang with a watch before MWAIT, its limit 0 in v9 and 7 in v10. -/
def sMw (trig : Bool) : State :=
  pG fun G => gang (fun K => { K with watch := some ⟨0x40000, trig⟩ }) { G with lanes := G.lanes.map fun L => (L.set 9 0).set 10 7 }
def xMw (trig : Bool) (h : (cur (sMw trig)).isSome = true := by decide +kernel) : Cur := at_ (sMw trig) h
theorem wit_Watches_mwait :
    cur (sMw false) = some (xMw false) ∧ UniRuns (xMw false) h0 [9] ∧ UniRuns (xMw false) h0 [10] ∧
      (xMw false).K.watch = some ⟨0x40000, false⟩ ∧ uVal (xMw false) 9 = 0 ∧ 0 < uVal (xMw false) 10 ∧ cur (sMw true) = some (xMw true) ∧
      UniRuns (xMw true) h0 [9] ∧ (xMw true).K.watch = some ⟨0x40000, true⟩ :=
  ⟨cur_at _ _, uniRuns_of (by decide +kernel), uniRuns_of (by decide +kernel), by decide +kernel, by decide +kernel, by decide +kernel,
    cur_at _ _, uniRuns_of (by decide +kernel), by decide +kernel⟩
theorem wit_Watches_timeout :
    ∀ t ∈ [0, 1, 2], ∃ G K, ({ sSleep (some ⟨0x40000, false⟩) .sleep (some t) with tick := 1 } : State).group? 1 = some G ∧
      G.gang? 4 = some K ∧ K.wake = some t ∧ K.st = .sleep := by
  intro t ht
  simp only [List.mem_cons, List.not_mem_nil, or_false] at ht
  rcases ht with rfl | rfl | rfl <;> exact ⟨_, _, rfl, rfl, by decide +kernel, by decide +kernel⟩

/-- WCTMAX stands one tick ahead. -/
def sWct : State := pG fun G => gang (fun K => { K with hold := .wct }) { G with wctmax := 1 }
def xWct : Cur := at_ sWct (by decide +kernel)
theorem wit_Fences :
    cur p0 = some x0 ∧ UniRuns x0 h1 [] ∧ readsDone x0.G x0.K.slices = true ∧ releaseReady p0 x0.g x0.G x0.K.slices 4 = true ∧
      performedAt p0 x0.g x0.G x0.K.slices 4 = true ∧ cur sWct = some xWct ∧ UniRuns xWct h1 [] ∧
      releaseReady sWct xWct.g xWct.G xWct.K.slices 1 = false ∧ sWct.group? 1 = some xWct.G ∧ xWct.G.gang? 4 = some xWct.K ∧
      xWct.K.hold = .wct ∧ sWct.tick < xWct.G.wctmax :=
  ⟨cur_at _ _, uniRuns_of (by decide), by decide +kernel, by decide +kernel, by decide +kernel, cur_at _ _, uniRuns_of (by decide),
    by and_intros <;> decide +kernel⟩
def sHold (h : Hold) : State := pG (gang fun K => { K with hold := h })
theorem wit_Fences_holds :
    (∃ G K, (sHold .wct).group? 1 = some G ∧ G.gang? 4 = some K ∧ K.hold = .wct ∧ G.wctmax ≤ (sHold .wct).tick ∧ G.hbw ≤ (sHold .wct).tick) ∧
      ∃ G K, (sHold (.yield 0)).group? 1 = some G ∧ G.gang? 4 = some K ∧ K.hold = .yield 0 ∧ yieldOver (sHold (.yield 0)) 1 G K 0 = true :=
  ⟨⟨((sHold .wct).group? 1).get (by decide +kernel), (((sHold .wct).group? 1).get (by decide +kernel)).gangs[0]'(by decide +kernel),
    by and_intros <;> decide +kernel⟩,
    ((sHold (.yield 0)).group? 1).get (by decide +kernel), (((sHold (.yield 0)).group? 1).get (by decide +kernel)).gangs[0]'(by decide +kernel),
    by and_intros <;> decide +kernel⟩
theorem wit_Fences_yielding :
    ∃ G K, (sHold (.yield 8)).group? 1 = some G ∧ G.gang? 4 = some K ∧ K.hold = .yield 8 ∧ (sHold (.yield 8)).tick < 8 :=
  ⟨((sHold (.yield 8)).group? 1).get (by decide +kernel), (((sHold (.yield 8)).group? 1).get (by decide +kernel)).gangs[0]'(by decide +kernel),
    by and_intros <;> decide +kernel⟩

/-! ### Witnesses: transfers, device macros, tables, windows -/

theorem wit_TransfersPostAndPair_posts :
    cur sLane = some xLane ∧ ligDiv xLane.G xLane.K hp = false ∧ bitsOf (actMask xLane.G xLane.K hp) 64 ≠ [] ∧
      (∀ l ∈ bitsOf (actMask xLane.G xLane.K hp) 64, (ownRd xLane.G xLane.K l 8 allBits).bad = none) ∧
      bitsOf (actMask xLane.G xLane.K hAll) 64 = [] ∧ ligDiv xLane.G xLane.K hAll = false :=
  ⟨cur_at _ _, by and_intros <;> decide +kernel⟩
/-- A transfer of lanes 0 to `n` − 1 in slot 15. -/
def xop (i : Instr) (n : Nat) : Op :=
  { id := 9, kind := .xfer, instr := i, pc := 0x40004, flag := none, slices := 3, mask := 255, depth := 0, ctx := none, tick := 0,
    lanes := (List.range n).map fun l => ⟨l, 0, 0, 0, l + 7, 0, .busy, 0⟩, x := 15, y := 0 }
/-- Group 1 sends from seven lanes, group 11 receives in eight. -/
def sPair : State :=
  let G := x0.G
  ((p0.putGroup 1 { G with ops := [xop (.xsend h1 15 ⟨8, false⟩) 7] }).putGroup 11 { G with ops := [xop (.xrecv h1 15 9) 8] }).onCore 0
    fun k => { k with posts := [⟨3, 15, 1, 9, true⟩, ⟨3, 15, 11, 9, false⟩] }
theorem wit_TransfersPostAndPair_pair :
    (sPair.core 0).posts.find? (fun p => p.rid == 3 && p.slot == 15 && p.send == true) = some ⟨3, 15, 1, 9, true⟩ ∧
      (sPair.core 0).posts.find? (fun p => p.rid == 3 && p.slot == 15 && p.send == false) = some ⟨3, 15, 11, 9, false⟩ ∧
      sPair.group? 1 = some { x0.G with ops := [xop (.xsend h1 15 ⟨8, false⟩) 7] } ∧
      sPair.group? 11 = some { x0.G with ops := [xop (.xrecv h1 15 9) 8] } ∧
      ({ x0.G with ops := [xop (.xsend h1 15 ⟨8, false⟩) 7] } : Group).op? 9 = some (xop (.xsend h1 15 ⟨8, false⟩) 7) ∧
      ({ x0.G with ops := [xop (.xrecv h1 15 9) 8] } : Group).op? 9 = some (xop (.xrecv h1 15 9) 8) ∧ x0.G.lanes.length = 8 ∧
      ((xop (.xsend h1 15 ⟨8, false⟩) 7).liveMask &&& (xop (.xrecv h1 15 9) 8).liveMask) = 127 :=
  by and_intros <;> decide +kernel

/-- Slot 5 holds RDFL of markers 0 and 1, slot 6 the body of another region, slot 7 an EXIT; slot 63 is not defined. -/
def sWcs : State := (pG (wr 0 9 77)).onCore 0 fun k =>
  { k with wcs := [(5, ⟨[0x9A000181], 0⟩), (6, ⟨[0x9A000181], 1⟩), (7, ⟨[0x8A000000], 0⟩), (8, ⟨[0x03010928], 0⟩), (9, ⟨[0x8D010928], 0⟩)] }
def xWcs : Cur := at_ sWcs (by decide +kernel)
def tWcs : State := match exec (.rdfl h0 8 9) sWcs with | .next t => t | _ => sWcs
theorem wit_MacroRunsItsBody_illegal :
    cur sWcs = some xWcs ∧ UniRuns xWcs h1 [] ∧ sWcs.loading 0 63 = false ∧ SMap.get? (sWcs.core 0).wcs 63 = none ∧
      SMap.get? (sWcs.core 0).wcs 6 = some ⟨[0x9A000181], 1⟩ ∧ 1 ≠ ((sWcs.regionOf xWcs.G).map (·.addr)).getD 0 ∧
      SMap.get? (sWcs.core 0).wcs 7 = some ⟨[0x8A000000], 0⟩ ∧ bodyOf ⟨[0x8A000000], 0⟩ [8, 9, 0, 0] = none ∧
      0 = ((sWcs.regionOf xWcs.G).map (·.addr)).getD 0 :=
  ⟨cur_at _ _, uniRuns_of (by decide +kernel), by and_intros <;> decide +kernel⟩
/-- Slot 8 holds IADD.d, slot 9 UADD, both of v9 and v10 into v8. -/
theorem wit_MacroRunsItsBody_sums :
    SMap.get? (sWcs.core 0).wcs 8 = some ⟨[0x03010928], 0⟩ ∧ SMap.get? (sWcs.core 0).wcs 9 = some ⟨[0x8D010928], 0⟩ ∧
      bodyOf ⟨[0x03010928], 0⟩ [0, 0, 0, 0] = some [.iadd h0 .d .wrap 8 ⟨9, false, 0⟩ (.reg ⟨10, false, 0⟩)] ∧
      bodyOf ⟨[0x8D010928], 0⟩ [0, 0, 0, 0] = some [.uadd h0 8 9 (.reg 10)] ∧
      LaneRuns xWcs h0 (formAB xWcs ⟨9, false, 0⟩ (.reg ⟨10, false, 0⟩) allBits) ∧ UniRuns xWcs h0 (9 :: uopRegs (.reg 10)) :=
  ⟨by decide +kernel, by decide +kernel, by decide +kernel, by decide +kernel, laneRuns_of (by decide +kernel),
    uniRuns_of (by decide +kernel)⟩
theorem wit_MacroRunsItsBody_runs :
    SMap.get? (sWcs.core 0).wcs 5 = some ⟨[0x9A000181], 0⟩ ∧ bodyOf ⟨[0x9A000181], 0⟩ [8, 9, 0, 0] = some [.rdfl h0 8 9] ∧
      bodyWaits sWcs xWcs (.rdfl h0 8 9) = false ∧ exec (.rdfl h0 8 9) sWcs = .next tWcs ∧ bodyRun sWcs (.rdfl h0 8 9) = tWcs ∧
      (∃ H K, tWcs.group? 1 = some H ∧ H.gang? 4 = some K ∧ H.evs = xWcs.G.evs ∧ H.ops = xWcs.G.ops ∧ K.stopped = xWcs.K.stopped) ∧
      (bodyUni (.rdfl h0 8 9)).isSome = true :=
  ⟨by decide +kernel, by decide +kernel, by decide +kernel, rfl, rfl,
    ⟨(tWcs.group? 1).get (by decide +kernel), ((tWcs.group? 1).get (by decide +kernel)).gangs[0]'(by decide +kernel),
      by and_intros <;> decide +kernel⟩, by decide +kernel⟩

/-- A uniform operation of the group, with operands x and y. -/
def uop (i : Instr) (x y : Nat) : Op :=
  { id := 9, kind := .uni, instr := i, pc := 0x40004, flag := none, slices := 3, mask := 255, depth := 0, ctx := none, tick := 0,
    lanes := [⟨0, 0, 0, 0, 0, 0, .busy, 0⟩], x := x, y := y }
theorem wit_MacroRunsItsBody_loading : (pOp (uop (.mdef h1 5 1 9) 0x41000 1)).loading 0 5 = true := by decide +kernel

/-- v9 is in the page that the core has translated, 64-byte aligned. -/
def sTab : State := pG fun G => { G with lanes := G.lanes.map fun L => L.set 9 0x41000 }
def xTab : Cur := at_ sTab (by decide +kernel)
theorem wit_TableLoadsAndWindowMoves_issue :
    cur sTab = some xTab ∧ UniRuns xTab h1 [9] ∧
      (∃ ps s', UniAccess sTab xTab [9] (uVal xTab 9) (4 * (32 : BitVec 6).toNat) 4 true false hasBlock ps s') ∧
      ∃ ps s', UniAccess sTab xTab [9] (uVal xTab 9) 8224 64 true false hasBlock ps s' :=
  ⟨cur_at _ _, uniRuns_of (by decide +kernel), ⟨_, _, uacc (by decide +kernel) (by decide +kernel) (by decide +kernel)⟩,
    _, _, uacc (by decide +kernel) (by decide +kernel) (by decide +kernel)⟩
def landsB (s : State) (o : Op) (rs : List (Nat × Nat)) (r w : Bool) : Bool :=
  match s.group? 1 with
  | some G => G.op? 9 == some o && s.block? G.geo.bid == some hasBlock && G.mayAccess o.slices o.id w &&
      (match s.uniAts G hasBlock 1 r w [] rs with | ((.ok [], _), _) => true | _ => false)
  | none => false
def sMdef : State := pOp (uop (.mdef h1 63 32 9) 0x41000 32)
def sTml (b : Nat) : State := (pOp (uop (.tmload h1 3 9) 0x41000 3)).pokeN (511 * 2 ^ 40 + 0x51000) 8 b
theorem wit_TableLoadsAndWindowMoves_land :
    landsB sMdef (uop (.mdef h1 63 32 9) 0x41000 32) [(0x41000, 128)] true false = true ∧
      firstOnCore sMdef 0 (uop (.mdef h1 63 32 9) 0x41000 32) (Op.isMdef 63) = true ∧
      landsB (sTml 3) (uop (.tmload h1 3 9) 0x41000 3) [(0x41000, 8224)] true false = true ∧
      firstOnCore (sTml 3) 0 (uop (.tmload h1 3 9) 0x41000 3) (Op.isTmload 3) = true ∧
      imgFail (((sTml 3).uniBytes 0 [⟨0x41000, 511 * 2 ^ 40 + 0x51000, 0x3F, 8224, false⟩]).map (BitVec.ofNat 8)) = some 0 :=
  by and_intros <;> decide +kernel
/-- An image of zeros is a table. -/
theorem imgNum_zero (m off n : Nat) : imgNum (List.replicate m 0) off n = 0 := by
  simp only [imgNum, List.drop_replicate, List.take_replicate]
  induction min n (m - off) with
  | zero => rfl
  | succ k ih => simp only [List.replicate_succ, bytesNat]; rw [ih]; rfl
def sTml0 : State := { pOp (uop (.tmload h1 3 9) 0x41000 3) with mem := [], ms := State.reset.ms }
theorem pieceByte_tml0 (i : Nat) : sTml0.pieceByte 0 ⟨0x41000, 511 * 2 ^ 40 + 0x51000, 0x3F, 8224, false⟩ i = 0 := by
  have hca : (sTml0.core 0).ca = [] := by decide +kernel
  have hl : ∀ a, (sTml0.core 0).caLoad sTml0.tick a 1 = none := by
    intro a; simp only [Core.caLoad, Core.caLine, hca, SMap.get?]
  have hk : ∀ a, sTml0.storedKey a = 0 := fun a => rfl
  have hj : ∀ a, sTml0.keyOf a = 0 := fun a => rfl
  simp only [State.pieceByte, Bool.false_eq_true, if_false, hl, ite_self, State.homeByte, hk, hj, beq_self_eq_true, Bool.or_true, if_true]
  rfl
theorem wit_TableLoadsAndWindowMoves_image :
    landsB sTml0 (uop (.tmload h1 3 9) 0x41000 3) [(0x41000, 8224)] true false = true ∧
      firstOnCore sTml0 0 (uop (.tmload h1 3 9) 0x41000 3) (Op.isTmload 3) = true ∧
      imgFail ((sTml0.uniBytes 0 [⟨0x41000, 511 * 2 ^ 40 + 0x51000, 0x3F, 8224, false⟩]).map (BitVec.ofNat 8)) = none := by
  refine ⟨by decide +kernel, by decide +kernel, ?_⟩
  have e : (sTml0.uniBytes 0 [⟨0x41000, 511 * 2 ^ 40 + 0x51000, 0x3F, 8224, false⟩]).map (BitVec.ofNat 8) =
      List.replicate 8224 0 := by
    rw [List.eq_replicate_iff]
    refine ⟨by simp [State.uniBytes], fun b hb => ?_⟩
    simp only [State.uniBytes, List.flatMap_cons, List.flatMap_nil, List.append_nil, List.map_map, List.mem_map] at hb
    obtain ⟨i, -, rfl⟩ := hb
    show BitVec.ofNat 8 (sTml0.pieceByte 0 _ i) = 0
    rw [pieceByte_tml0]; rfl
  rw [e]
  have z := imgNum_zero 8224
  simp only [imgFail, z]
  have q : (List.range 12).find? (fun _ => false) = none := List.find?_eq_none.2 (by simp)
  simp [q]
/-- The gang at depth 252 with the spill area in the translated page: all of the stack moves out; and back again. -/
def sWin (d b : Nat) : State := pG fun G => gang (fun K => { K with depth := d }) { G with spillbase := 0x40000, bottom := b }
theorem wit_TableLoadsAndWindowMoves_windows :
    (∃ h, let x := at_ (sWin 252 0) h
      cur (sWin 252 0) = some x ∧ UniRuns x h1 [] ∧ (sWin 252 0).privileged x.G = true ∧ x.G.ops.any Op.isWindow = false ∧
        x.G.bottom + (252 : BitVec 8).toNat ≤ x.G.minDepth ∧ x.G.bottom + (252 : BitVec 8).toNat ≤ x.G.geo.slim ∧ walkWaits x.G = false ∧
        okU ((sWin 252 0).uniAts x.G hasBlock 1 false true [] (spillRanges x.G x.G.bottom 252)).1.1 = true) ∧
      ∃ h, let x := at_ (sWin 252 252) h
        UniRuns x h1 [] ∧ (252 : BitVec 8).toNat ≤ x.G.bottom ∧ x.G.maxDepth + 24 ≤ x.G.bottom - (252 : BitVec 8).toNat + x.G.geo.cap ∧
        okU ((sWin 252 252).uniAts x.G hasBlock 1 true false [] (spillRanges x.G (x.G.bottom - 252) 252)).1.1 = true :=
  ⟨⟨by decide +kernel, cur_at _ _, uniRuns_of (by decide +kernel), by and_intros <;> decide +kernel⟩, by decide +kernel, uniRuns_of (by decide +kernel), by and_intros <;> decide +kernel⟩
def sWinOp (i : Instr) : State := (pOp (uop i 0 4)).onGroup 1 fun G => { G with spillbase := 0x40000 }
theorem wit_TableLoadsAndWindowMoves_window_ends :
    (∃ G, (sWinOp (.wspill h1 4)).group? 1 = some G ∧
      landsB (sWinOp (.wspill h1 4)) (uop (.wspill h1 4) 0 4) (spillRanges G 0 4) false true = true) ∧
      (∃ G, (sWinOp (.wfill h1 4)).group? 1 = some G ∧
        landsB (sWinOp (.wfill h1 4)) (uop (.wfill h1 4) 0 4) (spillRanges G 0 4) true false = true) ∧
      x0.G.lanes.length = x0.G.geo.w ∧ x0.G.geo.w ≤ 64 ∧ 7 < x0.G.geo.w ∧ ∀ L ∈ x0.G.lanes, SMap.sorted L.regs = true :=
  ⟨⟨((sWinOp (.wspill h1 4)).group? 1).get (by decide +kernel), by decide +kernel, by decide +kernel⟩,
    ⟨((sWinOp (.wfill h1 4)).group? 1).get (by decide +kernel), by decide +kernel, by decide +kernel⟩, by and_intros <;> decide +kernel⟩

/-! ### Witnesses: pool, stash, handles, engines, maintenance -/

theorem whole_of {s : State} {h : (cur s).isSome = true} {hd : Hd} {rs : List Reg} (t : uniRunsB (at_ s h) hd rs = true)
    (u : (at_ s h).K.slices = (at_ s h).G.unretired) : WholeRuns s (at_ s h) hd rs := ⟨cur_at _ _, uniRuns_of t, u⟩
/-- Every lane's v9, v10 and v11. -/
def sV (a b c : Nat) : State := pG fun G => { G with lanes := G.lanes.map fun L => ((L.set 9 a).set 10 b).set 11 c }
def xV (a b c : Nat) (h : (cur (sV a b c)).isSome = true := by decide +kernel) : Cur := at_ (sV a b c) h

/-- v9 leaves the quoins as they are, v10 gives RF three banks, v11 sets a reserved bit. -/
def q0 : Nat := 16 + 24 * 2 ^ 8 + 48 * 2 ^ 16
theorem wit_PoolMoves_pset :
    WholeRuns (sV q0 (q0 - 13) (q0 + 128)) (xV q0 (q0 - 13) (q0 + 128)) h0 [9] ∧
      WholeRuns (sV q0 (q0 - 13) (q0 + 128)) (xV q0 (q0 - 13) (q0 + 128)) h0 [11] ∧
      (sV q0 (q0 - 13) (q0 + 128)).block? (xV q0 (q0 - 13) (q0 + 128)).G.geo.bid = some hasBlock ∧
      uVal (xV q0 (q0 - 13) (q0 + 128)) 9 = q0 ∧ bit (uVal (xV q0 (q0 - 13) (q0 + 128)) 11) 7 = true ∧ q0 / 2 ^ 23 = 0 ∧
      bit q0 7 = false ∧ bit q0 15 = false ∧ psetCode (sV q0 (q0 - 13) (q0 + 128)) hasBlock [16, 24, 48] = 0 ∧
      psetCode (sV q0 (q0 - 13) (q0 + 128)) hasBlock [3, 24, 48] = 5 ∧ (sV q0 (q0 - 13) (q0 + 128)).authority hasBlock = true :=
  ⟨whole_of (by decide +kernel) (by decide +kernel), whole_of (by decide +kernel) (by decide +kernel), by and_intros <;> decide +kernel⟩
/-- Another block stands on the core; a move is in progress. -/
def sTwo : State := p0.putBlock 22 { hasBlock with id := 22 }
def sMove : State := (pOp (uop (.pset h0 8 9) q0 0)).onCore 0 fun k => { k with move := some ⟨[16, 23, 48], 1, 9⟩ }
theorem wit_PoolMoves_move :
    sTwo.authority hasBlock = false ∧ sMove.authority hasBlock = true ∧ (sMove.core hasBlock.core).move.isSome = true ∧
      (sMove.core 0).move = some ⟨[16, 23, 48], 1, 9⟩ ∧ (∀ e ∈ sMove.eng.ops, sMove.startedInto e 0 = false) ∧ (sMove.core 0).maps = [] ∧
      (sMove.core 0).ca = [] ∧ SMap.sorted (sMove.core 0).sp = true ∧
      ∃ G, sMove.group? 1 = some G ∧ G.op? 9 = some (uop (.pset h0 8 9) q0 0) ∧ (sMove.block? G.geo.bid).isSome = true ∧
        7 < G.lanes.length ∧ ((uop (.pset h0 8 9) q0 0).mask &&& G.liveLanes).testBit 7 = true :=
  by and_intros <;> first | decide +kernel | exact ⟨(sMove.group? 1).get (by decide +kernel), by and_intros <;> decide +kernel⟩
theorem wit_PoolMoves_pqry :
    cur (sV 7 8 0) = some (xV 7 8 0) ∧ UniRuns (xV 7 8 0) h0 [9] ∧ UniRuns (xV 7 8 0) h0 [10] ∧ uVal (xV 7 8 0) 9 < 8 ∧ 8 ≤ uVal (xV 7 8 0) 10 :=
  ⟨cur_at _ _, uniRuns_of (by decide +kernel), uniRuns_of (by decide +kernel), by decide +kernel, by decide +kernel⟩

/-- One line at the last offset of the window, and the last line of the translated page. -/
theorem wit_StashAndHandles_map :
    WholeRuns (sV 262016 0x4FF80 0) (xV 262016 0x4FF80 0) h1 [9, 10] ∧
      (sV 262016 0x4FF80 0).block? (xV 262016 0x4FF80 0).G.geo.bid = some hasBlock ∧
      walkWaits (uniRead (xV 262016 0x4FF80 0) [9, 10]) = false ∧
      (mapFault (sV 262016 0x4FF80 0) (readCur (xV 262016 0x4FF80 0) [9, 10]) hasBlock 262016 0x4FF80 1).1 = none ∧
      uVal (xV 262016 0x4FF80 0) 9 = 262016 ∧ uVal (xV 262016 0x4FF80 0) 10 = 0x4FF80 ∧ (hasBlock.handle 15).st ≠ 1 :=
  ⟨whole_of (by decide +kernel) (by decide +kernel), by and_intros <;> decide +kernel⟩
def sMapped : State := (sV 0 128 0).onCore 0 fun k => { k with maps := [mp1] }
def xMapped : Cur := at_ sMapped (by decide +kernel)
theorem wit_StashAndHandles_unmap :
    WholeRuns sMapped xMapped h0 [9] ∧ sMapped.block? xMapped.G.geo.bid = some hasBlock ∧
      ((sMapped.core hasBlock.core).maps.find? fun m => m.bid == hasBlock.id && m.off == uVal xMapped 9) = some mp1 ∧
      ((sMapped.core hasBlock.core).maps.find? fun m => m.bid == hasBlock.id && m.off == uVal xMapped 10) = none ∧
      WholeRuns sMapped xMapped h0 [10] ∧ walkWaits (uniRead xMapped [9]) = false ∧ sMapped.mapReady hasBlock mp1 sMapped.nextId = true :=
  ⟨whole_of (by decide +kernel) (by decide +kernel), by decide +kernel, by decide +kernel, by decide +kernel,
    whole_of (by decide +kernel) (by decide +kernel), by decide +kernel, by decide +kernel⟩
/-- Handle 15 in a state. -/
def sHnd (st : Nat) (i : Instr) : State :=
  ((pOp (uop i 15 0)).onCore 0 fun k => { k with maps := [mp1] }).onBlock 2 fun b => b.setHandle 15 ⟨st, 77, 6, true⟩
theorem wit_StashAndHandles_handles :
    ∀ st ∈ [0, 1, 2], ∃ h b, WholeRuns (sHnd st (.nop h0)) (at_ (sHnd st (.nop h0)) h) h0 [] ∧
      (sHnd st (.nop h0)).block? (at_ (sHnd st (.nop h0)) h).G.geo.bid = some b ∧ (b.handle 15).st = st ∧
      walkWaits (at_ (sHnd st (.nop h0)) h).G = false := by
  intro st hs
  simp only [List.mem_cons, List.not_mem_nil, or_false] at hs
  rcases hs with rfl | rfl | rfl
  · exact ⟨by decide +kernel, ((sHnd 0 (.nop h0)).block? 2).get (by decide +kernel), whole_of (by decide +kernel) (by decide +kernel),
      by and_intros <;> decide +kernel⟩
  · exact ⟨by decide +kernel, ((sHnd 1 (.nop h0)).block? 2).get (by decide +kernel), whole_of (by decide +kernel) (by decide +kernel),
      by and_intros <;> decide +kernel⟩
  · exact ⟨by decide +kernel, ((sHnd 2 (.nop h0)).block? 2).get (by decide +kernel), whole_of (by decide +kernel) (by decide +kernel),
      by and_intros <;> decide +kernel⟩
theorem wit_StashAndHandles_moves :
    ∃ G b, (sHnd 1 (.hevict h0 15)).group? 1 = some G ∧ G.op? 9 = some (uop (.hevict h0 15) 15 0) ∧
      (sHnd 1 (.hevict h0 15)).block? G.geo.bid = some b ∧ b.id = G.geo.bid ∧ 15 < b.handles.length ∧ (b.handle 15).st = 1 ∧
      (((sHnd 1 (.hevict h0 15)).core b.core).maps.any fun m => m.id == (b.handle 15).map) = true ∧ G.storesDone 9 = true ∧
      ∀ m ∈ ((sHnd 1 (.hevict h0 15)).core b.core).maps, m.id = (b.handle 15).map → (sHnd 1 (.hevict h0 15)).mapReady b m 9 = true :=
  ⟨((sHnd 1 (.hevict h0 15)).group? 1).get (by decide +kernel), ((sHnd 1 (.hevict h0 15)).block? 2).get (by decide +kernel),
    by and_intros <;> decide +kernel⟩

/-- Lengths 0, 2^32 and 2^32 + 1, with all of BIN's high bits too. -/
theorem wit_EnginesIssueAndProceed_issue :
    WholeRuns (sV 0 (2 ^ 32) (2 ^ 32 + 1)) (xV 0 (2 ^ 32) (2 ^ 32 + 1)) h0 [9, 9, 9] ∧
      WholeRuns (sV 0 (2 ^ 32) (2 ^ 32 + 1)) (xV 0 (2 ^ 32) (2 ^ 32 + 1)) h1 [9, 9, 10] ∧
      WholeRuns (sV 0 (2 ^ 32) (2 ^ 32 + 1)) (xV 0 (2 ^ 32) (2 ^ 32 + 1)) h1 [9, 9, 11] ∧
      uVal (xV 0 (2 ^ 32) (2 ^ 32 + 1)) 9 = 0 ∧ 0 < uVal (xV 0 (2 ^ 32) (2 ^ 32 + 1)) 10 ∧ uVal (xV 0 (2 ^ 32) (2 ^ 32 + 1)) 10 ≤ 2 ^ 32 ∧
      2 ^ 32 < uVal (xV 0 (2 ^ 32) (2 ^ 32 + 1)) 11 ∧ SMap.get? hasBlock.held 15 = none ∧
      WholeRuns (sV 0 (2 ^ 32) (2 ^ 32 + 1)) (xV 0 (2 ^ 32) (2 ^ 32 + 1)) h0 [9, 10] ∧ uVal (xV 0 (2 ^ 32) (2 ^ 32 + 1)) 10 / 2 ^ 32 ≠ 0 ∧
      uVal (xV 0 (2 ^ 32) (2 ^ 32 + 1)) 9 / 2 ^ 32 = 0 :=
  by
  and_intros <;> first | exact whole_of (by decide +kernel) (by decide +kernel) | decide +kernel
/-- Engine operation 30, and slot 15 of the block holding it. -/
def eng (k : EngKind) (held : Bool) (rel : Option (Bool × Nat × Nat × List Nat)) (fail : Option (Nat × Nat)) : Eng :=
  { id := 30, kind := k, gid := 1, bid := 2, rid := 3, core := 0, flag := none, pc := 0x40004, opc := 0xA8, started := !held,
    heldIn := if held then some 15 else none, rel := rel, fail := fail, proofs := [], srcs := [] }
def sEng (s : State) (e : Eng) : State :=
  (s.addEng e).onBlock 2 fun b => if e.heldIn.isSome then { b with held := [(15, 30)] } else b
/-- A copy within the scratchpad, of a whole line and one byte. -/
def cpK (landed : List Nat) : EngKind := .copy 0x7FFFFFFFE00000 0x7FFFFFFFE01000 129 0 landed none
theorem wit_EnginesIssueAndProceed_release :
    (∃ h b, WholeRuns (sEng (sV 0xFFFF 14 0) (eng (cpK []) true none none)) (at_ (sEng (sV 0xFFFF 14 0) (eng (cpK []) true none none)) h) h0 [9] ∧
      WholeRuns (sEng (sV 0xFFFF 14 0) (eng (cpK []) true none none)) (at_ (sEng (sV 0xFFFF 14 0) (eng (cpK []) true none none)) h) h0 [10] ∧
      (sEng (sV 0xFFFF 14 0) (eng (cpK []) true none none)).block? 2 = some b ∧
      uVal (at_ (sEng (sV 0xFFFF 14 0) (eng (cpK []) true none none)) h) 9 / 2 ^ 16 = 0 ∧ SMap.get? b.held (0xFFFF % 16) = some 30 ∧
      SMap.get? b.held (14 % 16) = none) ∧
      (sEng (sV 0xFFFF 14 0) (eng (cpK []) true none none)).eng? 30 = some (eng (cpK []) true none none) ∧
      (eng (cpK []) true none none).rel = none :=
  ⟨⟨by decide +kernel, ((sEng (sV 0xFFFF 14 0) (eng (cpK []) true none none)).block? 2).get (by decide +kernel),
      whole_of (by decide +kernel) (by decide +kernel), whole_of (by decide +kernel) (by decide +kernel), by and_intros <;> decide +kernel⟩, by decide +kernel, by decide +kernel⟩
/-- The page that v9 names is publishable; its descriptor is all zeros. -/
def sPb : State := (sV 0x40000 0 0).onCore 0 fun k => { k with tlb := SMap.put k.tlb 0x80020 (511 * 2 ^ 40 + 0x6023F) }
def xPb : Cur := at_ sPb (by decide +kernel)
theorem wit_EnginesIssueAndProceed_publish :
    WholeRuns sPb xPb h1 [9] ∧ walkWaits (uniRead xPb [9]) = false ∧ uVal xPb 9 < 2 ^ 55 ∧
      (match sPb.translate xPb.G.geo.core (sPb.rootOf xPb.G) (uVal xPb 9) with
        | (some l, s') => ptePB l.pte && (s'.pbDescC xPb.G.geo.core l.pte l.bits).isSome && releaseReady s' xPb.g (uniRead xPb [9]) (2 ^ 16 - 1) 3
        | _ => false) = true :=
  ⟨whole_of (by decide +kernel) (by decide +kernel), by and_intros <;> decide +kernel⟩

def okE {α : Type} (r : Er α) : Nat := match r with | .ok _ => 0 | .flt c _ => c | .wait => 100
/-- The copy's line 1, its one byte; a copy whose source is not mapped; a copy whose lines have all landed. -/
theorem wit_EnginesIssueAndProceed_copy :
    (sEng p0 (eng (cpK [0]) false none none)).eng? 30 = some (eng (cpK [0]) false none none) ∧ 1 ∉ [0] ∧
      1 < copyLines 0x7FFFFFFFE00000 129 ∧ copyPart 0x7FFFFFFFE00000 129 1 = (128, 1) ∧
      (match (sEng p0 (eng (cpK [0]) false none none)).engRead (eng (cpK [0]) false none none) (0x7FFFFFFFE01000 + 128) 1 with
        | .ok bs => okE ((sEng p0 (eng (cpK [0]) false none none)).engWrite (eng (cpK [0]) false none none) (0x7FFFFFFFE00000 + 128) bs) == 0
        | _ => false) = true ∧
      okE (p0.engRead (eng (cpK []) false none none) 0x123400000 128) = 0x04 ∧
      (∀ k, k < copyLines 0x7FFFFFFFE00000 129 → k ∈ [1, 0]) ∧
      (eng (cpK []) false none (some (4, 0x123400000))).fail = some (4, 0x123400000) :=
  ⟨by decide +kernel, by decide, by decide +kernel, by decide +kernel, by decide +kernel, by decide +kernel, by decide +kernel, rfl⟩
/-- A released copy, patched from counter 63; a BIN of one item in the scratchpad. -/
theorem wit_EnginesIssueAndProceed_start :
    (∃ b, (sEng p0 (eng (cpK []) true (some (true, 63, 31, [])) none)).block? 2 = some b ∧ SMap.get? b.held 15 = some 30) ∧
      (sEng p0 (eng (cpK []) true (some (true, 63, 31, [])) none)).eng? 30 = some (eng (cpK []) true (some (true, 63, 31, [])) none) ∧
      (∀ j ∈ ([] : List Nat), (sEng p0 (eng (cpK []) true (some (true, 63, 31, [])) none)).eng? j = none) ∧
      hasBlock.st ≠ .done ∧ 0x7FFFFFFFE00000 % 2 = 0 ∧ (sEng p0 (eng (.bin false 63 1 0x7FFFFFFFE00000 1) false none none)).block? 2 = some hasBlock ∧
      okE (((sEng p0 (eng (.bin false 63 1 0x7FFFFFFFE00000 1) false none none)).binItems (eng (.bin false 63 1 0x7FFFFFFFE00000 1) false none none)
        63 1 0x7FFFFFFFE00000 1 0 hasBlock.counters).2) = 0 ∧ ∀ j, SMap.getD ([] : SMap Nat) j 0 < 2 ^ 32 :=
  ⟨⟨((sEng p0 (eng (cpK []) true (some (true, 63, 31, [])) none)).block? 2).get (by decide +kernel), by decide +kernel, by decide +kernel⟩,
    by decide +kernel, by decide, by decide +kernel, by decide +kernel, by decide +kernel, by decide +kernel, fun j => by simp [SMap.getD, SMap.get?]⟩
/-- A PUBLISH whose descriptor is not marked, and one whose descriptor is. -/
def sPub (st : Nat) : State := (sEng p0 (eng (.publish (511 * 2 ^ 40 + 0x60000) 16 3) false none none)).pokeN (511 * 2 ^ 40 + 0x60010) 8 st
theorem wit_EnginesIssueAndProceed_flip :
    (sPub 1).eng? 30 = some (eng (.publish (511 * 2 ^ 40 + 0x60000) 16 3) false none none) ∧
      (sPub 1).publishDue (eng (.publish (511 * 2 ^ 40 + 0x60000) 16 3) false none none) (511 * 2 ^ 40 + 0x60000) = true ∧
      bit ((sPub 1).homeRead (511 * 2 ^ 40 + 0x60010) 8) 1 = false ∧ bit ((sPub 2).homeRead (511 * 2 ^ 40 + 0x60010) 8) 1 = true ∧
      (sPub 2).publishDue (eng (.publish (511 * 2 ^ 40 + 0x60000) 16 3) false none none) (511 * 2 ^ 40 + 0x60000) = true ∧
      (sPub 1).proofSettled (eng (.publish (511 * 2 ^ 40 + 0x60000) 16 3) false none none)
        (canon ((sPub 1).homeRead (511 * 2 ^ 40 + 0x60000) 8)) 16 = true ∧
      ∀ st ∈ [1, 2], (sPub st).writeBack 0 (511 * 2 ^ 40 + 0x60000) = sPub st ∧ (sPub st).drained (511 * 2 ^ 40 + 0x60000) = true ∧
        (sPub st).wbReady 0 (sPub st).nextId (511 * 2 ^ 40 + 0x60000) = true ∧ (sPub st).lineMoves 0 (511 * 2 ^ 40 + 0x60000) = false :=
  by and_intros <;> decide +kernel

/-- A range of two lines in the translated page; a walked page with one leaf for ATTR. -/
def sAttr : State := ((sV 0x72340 64 0).pokeN 0x60000 8 0x70001).pokeN 0x70000 8 0x3F
def xAttr : Cur := at_ sAttr (by decide +kernel)
theorem wit_MaintenanceAndAttributes_issue :
    cur (sV 0x4007F 2 0) = some (xV 0x4007F 2 0) ∧ UniRuns (xV 0x4007F 2 0) h1 [9, 10] ∧ walkWaits (uniRead (xV 0x4007F 2 0) [9, 10]) = false ∧
      ((sV 0x4007F 2 0).rangeFault 0 ((sV 0x4007F 2 0).rootOf (xV 0x4007F 2 0).G) true false true false
        ((pagesOf 0x4007F 2).filter fun p => !inAperture p && !(decide (2 ^ 64 ≤ p)))).1 = none ∧
      (∃ G, (pOp (uop (.cinv h1 3 9 10) 0x4007F 2)).group? 1 = some G ∧ G.op? 9 = some (uop (.cinv h1 3 9 10) 0x4007F 2) ∧
        (pOp (uop (.cinv h1 3 9 10) 0x4007F 2)).maintReady G (uop (.cinv h1 3 9 10) 0x4007F 2) = true) ∧
      ∃ G, (pOp (uop (.cwb h1 3 9 10) 0x4007F 2)).group? 1 = some G ∧ G.op? 9 = some (uop (.cwb h1 3 9 10) 0x4007F 2) ∧
        (pOp (uop (.cwb h1 3 9 10) 0x4007F 2)).maintReady G (uop (.cwb h1 3 9 10) 0x4007F 2) = true :=
  ⟨cur_at _ _, uniRuns_of (by decide +kernel), by decide +kernel, by decide +kernel,
    ⟨((pOp (uop (.cinv h1 3 9 10) 0x4007F 2)).group? 1).get (by decide +kernel), by decide +kernel, by decide +kernel, by decide +kernel⟩,
    ((pOp (uop (.cwb h1 3 9 10) 0x4007F 2)).group? 1).get (by decide +kernel), by decide +kernel, by decide +kernel, by decide +kernel⟩
theorem wit_MaintenanceAndAttributes_attr :
    cur sAttr = some xAttr ∧ UniRuns xAttr h1 [9, 10] ∧ sAttr.privileged xAttr.G = true ∧ walkWaits (uniRead xAttr [9, 10]) = false ∧
      (∀ chg gs : Bool,
        (sAttr.attrPages 0 (sAttr.rootOf xAttr.G) (0x72340 + 64) chg gs ((pagesOf 0x72340 64).length + 1) 0x72340 []).1 = none) ∧
      (sAttr.attrPages 0 (sAttr.rootOf xAttr.G) (0x72340 + 64) true true ((pagesOf 0x72340 64).length + 1) 0x72340 []).2.length = 1 ∧
      releaseReady sAttr 1 xAttr.G xAttr.K.slices 3 = true ∧ uVal xAttr 9 = 0x72340 ∧ uVal xAttr 10 = 64 ∧
      sAttr.rootOf xAttr.G % 2 ^ 16 = 0 ∧
      ∀ l ∈ (sAttr.attrPages 0 (sAttr.rootOf xAttr.G) (0x72340 + 64) true true ((pagesOf 0x72340 64).length + 1) 0x72340 []).2.filterMap
          (fun p => p.2), sAttr.wbReady 0 sAttr.nextId (lineOf l.slot) = true ∧ sAttr.lineMoves 0 l.slot = false :=
  ⟨cur_at _ _, uniRuns_of (by decide +kernel), by and_intros <;> decide +kernel⟩

/-! ### Witnesses: the matrix engine, collectives -/

/-- Words of a record: role, format, first line, lines. -/
def odW (role fmt off len : Nat) : Nat := role * 2 ^ 62 + fmt * 2 ^ 59 + off * 2 ^ 45 + len * 2 ^ 30
/-- A record of sums at the first MX line, a fragment of A after it, a fragment of B, and a record in a neighbour's scratchpad. -/
def odC : OdRec := ⟨odW 2 4 12288 32, 1, false, 0, false⟩
def odA : OdRec := ⟨odW 0 0 12320 8, 1, false, 0, false⟩
def odB : OdRec := ⟨odW 1 0 12328 128, 1, false, 0, false⟩
def odR : OdRec := ⟨odW 0 0 0 8, 1, true, 1, false⟩
/-- v9 and v10 describe `odC`, or the same 12,288 lines lower; descriptors 0 to 3 hold the records above where `full`. -/
def sOd (full : Bool) (a b c : Nat) : State :=
  (sV a b c).onGroup 1 fun G => if full then { G with ods := [some odC, some odA, some odB, some odR, none, none, none, none] } else G
def xOd (full : Bool) (a b c : Nat) (h : (cur (sOd full a b c)).isSome = true := by decide +kernel) : Cur := at_ (sOd full a b c) h
def cw : Nat := odW 2 4 12288 32
theorem wit_MatrixIssueAndPasses_res :
    WholeRuns (sOd false cw 1 (odW 2 4 0 32)) (xOd false cw 1 (odW 2 4 0 32)) h1 [9, 10] ∧
      WholeRuns (sOd false cw 1 (odW 2 4 0 32)) (xOd false cw 1 (odW 2 4 0 32)) h1 [11, 10] ∧
      WholeRuns (sOd false cw 1 (odW 2 4 0 32)) (xOd false cw 1 (odW 2 4 0 32)) h1 [9, 9] ∧
      odIllegal ⟨cw, 1, false, 0, false⟩ 8 0 = false ∧ odIllegal ⟨odW 2 4 0 32, 1, false, 0, false⟩ 8 0 = false ∧
      odIllegal ⟨cw, cw, false, 0, false⟩ 8 0 = true ∧ odIllegal odR 8 0 = false ∧ odIllegal { odR with rc := 0 } 8 0 = true ∧
      ((xOd false cw 1 (odW 2 4 0 32)).G.od 7).isSome = false ∧
      odRefused (sOd false cw 1 (odW 2 4 0 32)) (xOd false cw 1 (odW 2 4 0 32)).G ⟨cw, 1, false, 0, false⟩ = false ∧
      odRefused (sOd false cw 1 (odW 2 4 0 32)) (xOd false cw 1 (odW 2 4 0 32)).G ⟨odW 2 4 0 32, 1, false, 0, false⟩ = true :=
  by
  and_intros <;> first | exact whole_of (by decide +kernel) (by decide +kernel) | decide +kernel
/-- Engine operation `i`, a matrix operation. -/
def mxE (i : Nat) (j : MxJob) : Eng :=
  { id := i, kind := .mx j, gid := 1, bid := 2, rid := 3, core := 0, flag := none, pc := 0x40004, opc := 0xB4, started := true,
    heldIn := none, rel := none, fail := none, proofs := [], srcs := [] }
def mmaI : Instr := .mma h1 .f8 0 1 2 false false false 0 0 0
def mxJ (i : Instr) (level : Nat) (since : Option Nat) (granted : Bool) : MxJob := ⟨i, 0x41000, 0x80, level, since, granted⟩
/-- Sixteen operations on descriptor 0 fill the table. -/
def sMx16 : State := (List.range 16).foldl (fun s i => s.addEng (mxE (40 + i) (mxJ mmaI 0 none false))) (sOd true 0x41000 0 0)
def xMx16 : Cur := at_ sMx16 (by decide +kernel)
theorem wit_MatrixIssueAndPasses_issue :
    WholeRuns (sOd true 0x41000 0 0) (xOd true 0x41000 0 0) h1 [9] ∧ WholeRuns (sOd true 0x41000 0 0) (xOd true 0x41000 0 0) h0 [] ∧
      (xOd true 0x41000 0 0).G.od 0 = some odC ∧ (xOd true 0x41000 0 0).G.od 3 = some odR ∧ (xOd true 0x41000 0 0).G.od 7 = none ∧
      (sOd true 0x41000 0 0).mxNamed 1 0 = false ∧ (sOd true 0x41000 0 0).odMoving 0 odC = false ∧
      uVal (xOd true 0x41000 0 0) 9 % 128 = 0 ∧ odC.role = 2 ∧ odC.fmt ≠ 5 ∧ ((sOd true 0x41000 0 0).mxTable 0).length < 16 ∧
      mmaIllegal .f8 (some odC) (some odA) (some odB) 0 0 = false ∧ mmaIllegal .f8 (some odC) (some odA) (some odB) 1 0 = true :=
  ⟨whole_of (by decide +kernel) (by decide +kernel), whole_of (by decide +kernel) (by decide +kernel), by and_intros <;> decide +kernel⟩
theorem wit_MatrixIssueAndPasses_full :
    WholeRuns sMx16 xMx16 h1 [9] ∧ WholeRuns sMx16 xMx16 h1 [] ∧ xMx16.G.od 0 = some odC ∧ uVal xMx16 9 % 128 = 0 ∧
      16 ≤ (sMx16.mxTable (xMx16.G.geo.core / 4)).length ∧ sMx16.mxNamed xMx16.g 0 = true :=
  ⟨whole_of (by decide +kernel) (by decide +kernel), whole_of (by decide +kernel) (by decide +kernel), by and_intros <;> decide +kernel⟩
/-- Two operations on different records wait, the later at a higher level; tick 4,096. -/
def sTwoMx : State :=
  { ((sOd true 0 0 0).addEng (mxE 40 (mxJ (.mma h1 .f8 4 5 6 false false false 0 0 0) 6 (some 1) false))).addEng
      (mxE 41 (mxJ mmaI 6 (some 0) false)) with tick := 4096 }
theorem wit_MatrixIssueAndPasses_grant :
    (∀ e ∈ (sTwoMx.mxTable 0).filter (fun e => mxPort e.2.instr != true), e.2.granted = false) ∧
      ((sTwoMx.mxTable 0).filter (fun e => mxPort e.2.instr != true)).filter
        (fun e => sTwoMx.mxEligible e.1 e.2 && !sTwoMx.mxHeld e.1 e.2) ≠ [] ∧
      mxLevel sTwoMx (mxJ mmaI 6 (some 1) false) < mxLevel sTwoMx (mxJ mmaI 6 (some 0) false) ∧
      sTwoMx.eng? 41 = some (mxE 41 (mxJ mmaI 6 (some 0) false)) ∧ 0 + 4096 ≤ sTwoMx.tick :=
  by and_intros <;> decide +kernel
/-- The first large page of addresses lies in this device's memory, for the engines' own walks. -/
def mapped0 (s : State) : State := (s.pokeN 0x60000 8 0x70001).pokeN 0x70000 8 (511 * 2 ^ 40 + 0x3F)
/-- A granted operation of row 7. -/
def sGr (i : Instr) : State := mapped0 ((sOd true 0 0 0).addEng (mxE 40 (mxJ i 0 none true)))
def mxstI : Instr := .mxst h1 0 2 false 0 false 0 9
def okEr {α : Type} (r : Er α) : Bool := match r with | .ok _ => true | _ => false
theorem okEr_of {α : Type} {r : Er α} (h : okEr r = true) : ∃ v, r = .ok v := by
  cases r with | ok v => exact ⟨v, rfl⟩ | flt _ _ => cases h | wait => cases h
theorem wit_MatrixIssueAndPasses_pass :
    ∃ la lb sca scb G, (sGr mmaI).eng? 40 = some (mxE 40 (mxJ mmaI 0 none true)) ∧ (sGr mmaI).group? 1 = some G ∧ G.ended = false ∧
      G.od 0 = some odC ∧ G.od 1 = some odA ∧ G.od 2 = some odB ∧ (sGr mmaI).odMoving 0 odC = false ∧
      (sGr mmaI).odMoving 0 odA = false ∧ (sGr mmaI).odMoving 0 odB = false ∧
      (sGr mmaI).odLines (mxE 40 (mxJ mmaI 0 none true)) odA (fragLines odA G.geo.w 0).2 (fragLines odA G.geo.w 0).1 = .ok la ∧
      (sGr mmaI).odLines (mxE 40 (mxJ mmaI 0 none true)) odB (fragLines odB G.geo.w 0).2 (fragLines odB G.geo.w 0).1 = .ok lb ∧
      (sGr mmaI).odScales (mxE 40 (mxJ mmaI 0 none true)) odA (0 * G.geo.w) G.geo.w = .ok sca ∧
      (sGr mmaI).odScales (mxE 40 (mxJ mmaI 0 none true)) odB 0 1 = .ok scb ∧
      okEr ((sGr mmaI).odRows (mxE 40 (mxJ mmaI 0 none true)) odC (bitsOf 0x80 G.geo.w)) = true := by
  obtain ⟨la, ha⟩ := okEr_of (r := (sGr mmaI).odLines (mxE 40 (mxJ mmaI 0 none true)) odA 8 0) (by decide +kernel)
  obtain ⟨lb, hb⟩ := okEr_of (r := (sGr mmaI).odLines (mxE 40 (mxJ mmaI 0 none true)) odB 128 0) (by decide +kernel)
  obtain ⟨sa, hsa⟩ := okEr_of (r := (sGr mmaI).odScales (mxE 40 (mxJ mmaI 0 none true)) odA (0 * 8) 8) (by decide +kernel)
  obtain ⟨sb, hsb⟩ := okEr_of (r := (sGr mmaI).odScales (mxE 40 (mxJ mmaI 0 none true)) odB 0 1) (by decide +kernel)
  refine ⟨la, lb, sa, sb, ((sGr mmaI).group? 1).get (by decide +kernel), ?_, ?_, ?_, ?_, ?_, ?_, ?_, ?_, ?_, ha, hb, hsa, hsb, ?_⟩ <;>
    decide +kernel
theorem wit_MatrixIssueAndPasses_port :
    (∃ G, (sGr mxstI).group? 1 = some G ∧ G.ended = false ∧ G.od 0 = some odC) ∧ odC.spoiled = false ∧
      (sGr mxstI).eng? 40 = some (mxE 40 (mxJ mxstI 0 none true)) ∧ (sGr mxstI).odMoving 0 odC = false ∧
      okEr ((sGr mxstI).engRead (mxE 40 (mxJ mxstI 0 none true)) 0x41000 (128 * odC.len)) = true ∧
      okEr (mxstRows (sGr mxstI) (mxE 40 (mxJ mxstI 0 none true)) odC 2 false 0x41000 (bitsOf 0x80 8)).1 = true :=
  ⟨⟨((sGr mxstI).group? 1).get (by decide +kernel), by and_intros <;> decide +kernel⟩, rfl, by and_intros <;> decide +kernel⟩

/-- A group of two members, this core and core 1 of the next device, and one of this core alone. -/
def cslot (live : Bool) (n : Nat) : CSlot := ⟨live, 0, 0, 0, false, 9, 1, 511 * 1024, [1, 0, 0], [n, 1, 1], 1024, 0⟩
/-- Slot 7 of the block is declared for `n` members. -/
def sColl (live : Bool) (n : Nat) : State :=
  (sV 0x40000 0x42000 0).onBlock 2 fun b => { b with slots := setAt b.slots 7 (cslot live n) }
def xColl (live : Bool) (n : Nat) (h : (cur (sColl live n)).isSome = true := by decide +kernel) : Cur := at_ (sColl live n) h
theorem wit_CollectivesIssueAndEnd_issue :
    (∃ b, (sColl true 1).block? 2 = some b ∧ (b.slot 7).live = true ∧ 7 < b.slots.length ∧ (sColl true 1).collStale (b.slot 7) = false ∧
      releaseReady (sColl true 1) 1 (xColl true 1).G (2 ^ 16 - 1) 3 = true ∧
      oneDevice (collMembers (b.slot 7).base (b.slot 7).strides (b.slot 7).counts) = true) ∧
      (∃ b, (sColl false 1).block? 2 = some b ∧ (b.slot 7).live = false) ∧
      WholeRuns (sColl true 1) (xColl true 1) h1 [9, 10] ∧ WholeRuns (sColl true 1) (xColl true 1) h1 [] ∧
      WholeRuns (sColl false 1) (xColl false 1) h1 [9, 10] ∧ WholeRuns (sColl false 1) (xColl false 1) h1 [] ∧
      (xColl true 1).G.tmshape < 0x10 :=
  ⟨⟨((sColl true 1).block? 2).get (by decide +kernel), by and_intros <;> decide +kernel⟩,
    ⟨((sColl false 1).block? 2).get (by decide +kernel), by and_intros <;> decide +kernel⟩, by
  and_intros <;> first | exact whole_of (by decide +kernel) (by decide +kernel) | decide +kernel⟩
/-- A loadable pair is selected. -/
def sLd : State := pG fun G => { G with tmshape := 0x17 }
theorem wit_CollectivesIssueAndEnd_tmean :
    WholeRuns sLd (at_ sLd (by decide +kernel)) h1 [9, 10] ∧ 0x10 ≤ (at_ sLd (by decide +kernel)).G.tmshape ∧
      sLd.block? (at_ sLd (by decide +kernel)).G.geo.bid = some hasBlock ∧ (7 : BitVec 3).toNat < hasBlock.slots.length :=
  ⟨whole_of (by decide +kernel) (by decide +kernel), by and_intros <;> decide +kernel⟩
/-- CGRP's descriptor lies in the translated page: no operation of slot 7 is under way, then one is. -/
def cgA (b : Nat) (h : (cur (sV 0x40000 b 0)).isSome = true := by decide +kernel) : UAt × State :=
  (sV 0x40000 b 0).uniAt (uniRead (xV 0x40000 b 0 h) [9]) hasBlock (uVal (xV 0x40000 b 0 h) 9) 32 32 true false
def cgE (d : Nat) : Eng := { eng (.cgrp 7 d) false none none with started := true }
theorem wit_CollectivesIssueAndEnd_cgrp :
    UniAccess (sV 0x40000 0 0) (xV 0x40000 0 0) [9] (uVal (xV 0x40000 0 0) 9) 32 32 true false hasBlock
        (ps_ (cgA 0)) ((cgA 0).2.claimCp hasBlock.core (ps_ (cgA 0))) ∧
      (sV 0x40000 0 0).slotBusy hasBlock 7 = false ∧ (p0.addEng (cgE 0)).slotBusy hasBlock 7 = true ∧
      WholeRuns (sV 0x40000 0 0) (xV 0x40000 0 0) h1 [9] :=
  ⟨uacc (by decide +kernel) (by decide +kernel) (by decide +kernel), by decide +kernel, by decide +kernel,
    whole_of (by decide +kernel) (by decide +kernel)⟩
/-- Core 511 · 1024 is the one member; the tag stands in another slot; the descriptor names another core. -/
def cgD (core : Nat) : Nat := core + 9 * 2 ^ 32 + 2 ^ 192 + 2 ^ 208 + 2 ^ 224
theorem wit_CollectivesIssueAndEnd_declares :
    (p0.addEng { eng (.cgrp 7 (cgD 523264)) false none none with started := true }).eng? 30 = some (cgE (cgD 523264)) ∧
      p0.block? (cgE (cgD 523264)).bid = some hasBlock ∧ 7 < hasBlock.slots.length ∧
      descOk (cgD 523264) (p0.dev * 1024 + 0) (descSlot (cgD 523264)) = true ∧
      ((p0.blocksOn 0).all fun x => x.slots.zipIdx.all fun (z : CSlot × Nat) =>
        !z.1.live || z.1.tag != (descSlot (cgD 523264)).tag || (x.id == 2 && z.2 == 7)) = true ∧
      descOk (cgD 523265) (p0.dev * 1024 + 0) (descSlot (cgD 523265)) = false :=
  by and_intros <;> decide +kernel
/-- A record of operation 0 of one member, and its member's engine operation. -/
def collC (o : Option (Nat × Nat × Bool)) : CollRec :=
  { id := 50, tag := 9, decl := 1, k := 0, base := 511 * 1024, strides := [1, 0, 0], counts := [1, 1, 1], timeout := 1024,
    instr := some (.cag h1 7 9 10 1), tm := 0, terms := [], since := [(0, 0)], bad := false, fault := false, expired := false,
    outcome := o }
def collJ (src : Nat) : CollJob := ⟨50, 7, 0, .cag h1 7 9 10 1, src, 0x42000, 0, 0⟩
def collE (src : Nat) : Eng := { eng (.coll (collJ src)) false none none with started := true }
/-- The tick at which its TIMEOUT has passed, or one before it. -/
def sRec (src tick : Nat) (o : Option (Nat × Nat × Bool)) : State :=
  let d := 511 * 2 ^ 40
  let s := ((((p0.addEng (collE src)).pokeN 0x60000 8 0x70001).pokeN 0x70000 8 (d + 0x23F)).pokeN d 8 d).pokeN (d + 8) 8 d
  { s with tick := tick, eng := { s.eng with colls := [collC o] } }
theorem wit_CollectivesIssueAndEnd_contribution :
    (sRec 0x40000 0 none).coll? 50 = some (collC none) ∧ (collC none).outcome = none ∧ SMap.get? (collC none).terms 0 = none ∧
      (sRec 0x40000 0 none).collEng 50 0 = some (collE 0x40000, collJ 0x40000) ∧ (collC none).fault = false ∧ (collC none).expired = false ∧
      (sRec 0x40000 0 none).absent (collC none).members = (0, false) ∧ (collC none).anchorDev = (sRec 0x40000 0 none).dev ∧
      okEr ((sRec 0x40000 0 none).collTerm (collE 0x40000) (collJ 0x40000) (collSize [1, 1, 1])) = true ∧
      okE ((sRec (2 ^ 54) 0 none).collTerm (collE (2 ^ 54)) (collJ (2 ^ 54)) (collSize [1, 1, 1])) = 4 :=
  ⟨by decide +kernel, rfl, rfl, by decide +kernel, rfl, rfl, by and_intros <;> decide +kernel⟩
theorem wit_CollectivesIssueAndEnd_timeout :
    (sRec 0 1024 none).coll? 50 = some (collC none) ∧ SMap.get? (collC none).since 0 = some 0 ∧
      0 + (collC none).timeout ≤ (sRec 0 1024 none).tick ∧ (sRec 0 1023 none).tick < 0 + (collC none).timeout ∧
      (sRec 0 1023 none).absent (collC none).members = (0, false) ∧ (collC none).anchorDev = (sRec 0 1023 none).dev :=
  by and_intros <;> decide +kernel
theorem wit_CollectivesIssueAndEnd_outcome :
    (sRec 0 0 (some (0, 0, false))).eng? 30 = some (collE 0) ∧ (sRec 0 0 (some (0, 0, false))).coll? 50 = some (collC (some (0, 0, false))) ∧
      (sRec 0 0 (some (1, 2 ^ 31, true))).coll? 50 = some (collC (some (1, 2 ^ 31, true))) ∧
      (sRec 0 0 (some (0, 0, false))).block? 2 = some hasBlock ∧ 7 < hasBlock.slots.length ∧
      okEr ((sRec 0 0 (some (0, 0, false))).engWrite (collE 0) 0x42000 ((collC (some (0, 0, false))).result (.cag h1 7 9 10 1) 0)) = true :=
  by and_intros <;> decide +kernel
/-- A member that writes a publishable buffer, and whose destination is not mapped. -/
def collJd : CollJob := { collJ 0 with dst := 2 ^ 54 }
def collEd : Eng := { eng (.coll collJd) false none none with started := true, proofs := [⟨pa1 + 0x60, 0⟩] }
def collCd (o : Nat × Nat × Bool) : CollRec := { collC (some o) with terms := [(0, [1])] }
def sRecD (o : Nat × Nat × Bool) : State := { p0.addEng collEd with eng := { (p0.addEng collEd).eng with colls := [collCd o] } }
theorem wit_CollectivesIssueAndEnd_fails :
    (∀ o ∈ [(0, 0, false), (3, 1, true)], (sRecD o).eng? 30 = some collEd ∧ (sRecD o).coll? 50 = some (collCd o) ∧
      (sRecD o).block? 2 = some hasBlock) ∧ 7 < hasBlock.slots.length ∧
      okE ((sRecD (0, 0, false)).engWrite collEd (2 ^ 54) ((collCd (0, 0, false)).result (.cag h1 7 9 10 1) 0)) = 4 ∧
      Memory.wf (sRecD (3, 1, true)).mem = true ∧ collEd.proofs ≠ [] ∧ ∀ p ∈ collEd.proofs, p.desc % 32 = 0 :=
  by and_intros <;> decide +kernel
/-- Terms of two members, each of two parts of one byte. -/
def collTwo : CollRec := { collC none with counts := [2, 1, 1], terms := [(0, [1, 2]), (1, [3, 4])] }
theorem wit_CollectivesIssueAndEnd_parts :
    1 < collTwo.members.length ∧ 0 < (1 : BitVec 24).toNat ∧
      (∀ m, m < collTwo.members.length → (SMap.getD collTwo.terms m []).length = collTwo.members.length * (1 : BitVec 24).toNat) ∧
      collTwo.result (.ca2a h1 7 9 10 1) 1 = [2, 4] :=
  by and_intros <;> decide +kernel

/-! ### Witnesses: the graph engine -/

/-- A descriptor of one member of one node, at the translated page. -/
def gDesc : Nat := 511 * 2 ^ 40 + 0x50000
def gsp : Space :=
  { desc := gDesc, key := 7, rid := 3, die := 0, vb := 0, segoff := 0, seglen := 65536, nv := 1, ps := 4, nmax := 1, emax := 4, mapn := 1,
    pmap := 0x41000, spilln := 2, members := [0], store := [], closing := false }
def withSpaces (l : List Space) (s : State) : State := { s with eng := { s.eng with spaces := l } }
/-- v9 names the descriptor, v10 and v11 are operands. -/
def sGs (l : List Space) (b c : Nat) : State := withSpaces l (sV 0x40000 b c)
def xGs (l : List Space) (b c : Nat) (h : (cur (sGs l b c)).isSome = true := by decide +kernel) : Cur := at_ (sGs l b c) h
def gps (s : State) (x : Cur) (rs : List Reg) : List Piece := ps_ (s.uniAt (uniRead x rs) hasBlock (uVal x 9) 256 256 true true)
def gs' (s : State) (x : Cur) (rs : List Reg) : State :=
  (s.uniAt (uniRead x rs) hasBlock (uVal x 9) 256 256 true true).2.claimCp 0 (gps s x rs)
/-- The premise of every clause, as it is tested. -/
def namedB (s : State) (x : Cur) (rs : List Reg) : Bool :=
  uniRunsB x h1 rs && decide (x.K.slices = x.G.unretired) && decide (uVal x 9 < 2 ^ 55) && !inAperture (uVal x 9) &&
    uVal x 9 % 256 == 0 && s.block? x.G.geo.bid == some hasBlock && !walkWaits (uniRead x rs) &&
    okU (s.uniAt (uniRead x rs) hasBlock (uVal x 9) 256 256 true true).1 && (gps s x rs).length == 1
theorem named_of {s : State} {hs : (cur s).isSome = true} {rs : List Reg} (t : namedB s (at_ s hs) rs = true) :
    ∃ p ps, WholeRuns s (at_ s hs) h1 rs ∧ uVal (at_ s hs) 9 < 2 ^ 55 ∧ inAperture (uVal (at_ s hs) 9) = false ∧
      uVal (at_ s hs) 9 % 256 = 0 ∧
      UniAccess s (at_ s hs) rs (uVal (at_ s hs) 9) 256 256 true true hasBlock (p :: ps) (gs' s (at_ s hs) rs) := by
  simp only [namedB, Bool.and_eq_true, Bool.not_eq_true', decide_eq_true_eq, beq_iff_eq] at t
  obtain ⟨⟨⟨⟨⟨⟨⟨⟨t1, t2⟩, t3⟩, t4⟩, t5⟩, t6⟩, t7⟩, t8⟩, t9⟩ := t
  obtain ⟨p, hp⟩ := List.length_eq_one_iff.1 t9
  exact ⟨p, [], whole_of t1 t2, t3, t4, t5, hp ▸ uacc t6 t7 t8⟩
theorem wit_GraphIssue_named :
    namedB (sGs [gsp] 7 0) (xGs [gsp] 7 0) [9, 10] = true ∧ namedB (sGs [gsp] 7 0) (xGs [gsp] 7 0) [9] = true ∧
      namedB (sGs [] (2 ^ 26 + 2 ^ 25 + 8) 64) (xGs [] (2 ^ 26 + 2 ^ 25 + 8) 64) [9, 11] = true ∧
      namedB (sGs [] (2 ^ 26 + 2 ^ 25 + 8) 64) (xGs [] (2 ^ 26 + 2 ^ 25 + 8) 64) [9, 10] = true :=
  by and_intros <;> decide +kernel
theorem wit_GraphIssue_space :
    (gps (sGs [gsp] 7 0) (xGs [gsp] 7 0) [9, 10]).map (·.pa) = [gDesc] ∧
      (gs' (sGs [gsp] 7 0) (xGs [gsp] 7 0) [9, 10]).space? gDesc = some gsp ∧
      (gs' (sGs [gsp] 7 0) (xGs [gsp] 7 0) [9, 10]).mayName (xGs [gsp] 7 0).G gsp = true ∧ gsp.key = uVal (xGs [gsp] 7 0) 10 ∧
      gsp.key ≠ uVal (xGs [gsp] 7 0) 11 ∧ namedB (sGs [gsp] 7 0) (xGs [gsp] 7 0) [9, 11] = true ∧
      (gs' (sGs [gsp] 7 0) (xGs [gsp] 7 0) [9, 10]).bcasts gDesc = [] ∧ uVal (xGs [gsp] 7 0) 11 % 64 = 0 ∧
      (gs' (sGs [] (2 ^ 26 + 2 ^ 25 + 8) 64) (xGs [] (2 ^ 26 + 2 ^ 25 + 8) 64) [9, 10]).space? gDesc = none ∧
      waveBad (uVal (xGs [] (2 ^ 26 + 2 ^ 25 + 8) 64) 10) = false :=
  by and_intros <;> decide +kernel
/-- The space is that of a region that is no ancestor of the issuer's. -/
def gspO : Space := { gsp with rid := 33 }
def sGsO : State := (sGs [gspO] 7 0).putRegion 33 { hasRegion with id := 33, addr := 64 }
def xGsO : Cur := at_ sGsO (by decide +kernel)
theorem wit_GraphIssue_other :
    namedB sGsO xGsO [9, 10] = true ∧ namedB sGsO xGsO [9] = true ∧ (gs' sGsO xGsO [9, 10]).space? gDesc = some gspO ∧
      (gps sGsO xGsO [9, 10]).map (·.pa) = [gDesc] ∧ (gs' sGsO xGsO [9, 10]).mayName xGsO.G gspO = false ∧ uVal xGsO 11 % 64 = 0 ∧
      waveBad (uVal xGsO 11) = true ∧ uVal xGsO 10 = gspO.key :=
  by and_intros <;> decide +kernel
/-- A descriptor that keeps its rules and whose one member page is a vault, and one whose reserved byte 0x13 is set. -/
def sBind (bad : Nat) : State :=
  ((((((sV 0x40000 7 0).pokeN gDesc 8 0).pokeN 0x60000 8 0x70001).pokeN 0x70000 8 (511 * 2 ^ 40 + 0x13F)).pokeN (gDesc + 8) 8 (65536 * 2 ^ 32)).pokeN (gDesc + 16) 8
    (1 + 4 * 2 ^ 16 + bad * 2 ^ 24 + 2 ^ 32)).pokeN (gDesc + 0x18) 8 (4 + 2 ^ 32)
def xBind (bad : Nat) (h : (cur (sBind bad)).isSome = true := by decide +kernel) : Cur := at_ (sBind bad) h
def dBind (bad : Nat) (h : (cur (sBind bad)).isSome = true := by decide +kernel) (o n : Nat) : Nat :=
  leAt ((gs' (sBind bad) (xBind bad h) [9, 10]).uniBytes 0 (gps (sBind bad) (xBind bad h) [9, 10])) o n
theorem wit_GraphIssue_bind :
    namedB (sBind 0) (xBind 0) [9, 10] = true ∧ descBad (dBind 0) = none ∧
      ((gs' (sBind 0) (xBind 0) [9, 10]).eng.spaces.filter fun p => p.die == 0).length < 16 ∧
      (gs' (sBind 0) (xBind 0) [9, 10]).spaceOf gDesc = none ∧
      (gs' (sBind 0) (xBind 0) [9, 10]).memberVaults 0 ((gs' (sBind 0) (xBind 0) [9, 10]).rootOf (xBind 0).G) (dBind 0 (by decide +kernel) 0 8)
        (dBind 0 (by decide +kernel) 8 4) (dBind 0 (by decide +kernel) 12 4) [] (List.range (dBind 0 (by decide +kernel) 16 2)) = .inr [0] ∧
      namedB (sBind 1) (xBind 1) [9, 10] = true ∧ descBad (dBind 1) = some 0x13 :=
  by and_intros <;> decide +kernel

/-- One valid node, of id 0, with mark 0; its pages and the map of ids are in this device's memory. -/
def sNode (b : Bcast) (refresh : List Nat) : State :=
  let s := (mapped0 (p0.addEng (eng (.bcast b) false none none))).pokeN (511 * 2 ^ 40 + 6) 2 0x0101
  { s with eng := { s.eng with spaces := [gsp], refresh := refresh } }
def wave : Nat := 2 ^ 26 + 2 * 2 ^ 24 + 2 ^ 3
def gpI : Instr := .gprop h1 5 9 10
def bc (i : Instr) (started inHop : Bool) (sending : List Msg) (got : List Nat) (ended : Option (Nat × Nat)) : Bcast :=
  ⟨gDesc, i, wave, 0, 0x41004, started, 0, inHop, [0], sending, got, [], [], none, none, [], [], 0, 0, false, false, ended⟩
/-- Messages to node 0 and to an id that no map entry names. -/
def ms2 : List Msg := [⟨0, 0, 0, [1]⟩, ⟨0, 1, 16, [1]⟩]
def gsp0 : GWrite := p0.markSet gsp 0 0
def e_ (b : Bcast) : Eng := eng (.bcast b) false none none
theorem wit_GraphProceeds_start :
    ∀ i ∈ [gpI, .gload h1 95 1 9 10, .gset h1 true 1 7 255 255 95 9 10, .gclr h1 true 7 255 255 9 10, .gcoll h1 true 7 2 9 10],
      (sNode (bc i false false [] [] none) []).eng? 30 = some (e_ (bc i false false [] [] none)) ∧
      (sNode (bc i false false [] [] none) []).spaceOf gDesc = some gsp ∧
      (sNode (bc i false false [] [] none) []).bcastHeld (e_ (bc i false false [] [] none)) (bc i false false [] [] none) = false ∧
      (sNode (bc i false false [] [] none) []).recsBad gsp = false ∧
      ((bc i false false [] [] none).readsSlots = true →
        (sNode { bc i false false [] [] none with lows := some [] } []).bcastHeld (e_ { bc i false false [] [] none with lows := some [] })
          { bc i false false [] [] none with lows := some [] } = false ∧
        (sNode { bc i false false [] [] none with lows := some [] } []).recsBad gsp = false) :=
  by decide +kernel
theorem wit_GraphProceeds_startReads :
    (bc (.gcoll h1 true 7 2 9 10) false false [] [] none).readsSlots = true ∧ (bc gpI false false [] [] none).readsSlots = false ∧
      (bc gpI false false [] [] none).readsRecs = true ∧ (bc (.gload h1 95 1 9 10) false false [] [] none).readsRecs = false := by decide
theorem isInl {α β : Type} {r : α ⊕ β} (h : r.isLeft = true) : ∃ a, r = .inl a := by
  cases r with | inl a => exact ⟨a, rfl⟩ | inr _ => cases h
theorem wit_GraphProceeds_hopStart :
    (bc gpI true false [] [] none).isWave = true ∧ (bc gpI true false [] [] none).todo = [] ∧ (bc gpI true false [] [] none).lows = none ∧
      ∃ ms, (sNode { bc gpI true false [] [] none with lows := some [] } []).sendAll gsp
        { bc gpI true false [] [] none with hop := 1, inHop := true, sending := [], got := [], lost := [], spilled := [], lows := none }
          [] [0] = .inl ms :=
  ⟨by decide +kernel, rfl, rfl, isInl (by decide +kernel)⟩
def locB (r : Er (Option Nat)) : Nat := match r with | .ok none => 0 | .ok (some n) => n + 1 | _ => 99
theorem wit_GraphProceeds_message :
    (bc gpI true true ms2 [] none).sending[0]? = some ⟨0, 0, 0, [1]⟩ ∧ (bc gpI true true ms2 [] none).sending[1]? = some ⟨0, 1, 16, [1]⟩ ∧
      locB ((sNode (bc gpI true true ms2 [] none) []).locate (e_ (bc gpI true true ms2 [] none)) gsp 0) = 1 ∧
      locB ((sNode (bc gpI true true ms2 [] none) []).locate (e_ (bc gpI true true ms2 [] none)) gsp 16) = 0 ∧
      (sNode (bc gpI true true ms2 [] none) []).queues 0 = false ∧
      (sNode (bc gpI true true ms2 [] none) []).memBad ((sNode (bc gpI true true ms2 [] none) []).recAddr gsp 0) 32 = false ∧ (sNode (bc gpI true true ms2 [] none) []).nodeIs gsp 0 0 = true ∧
      (sNode (bc gpI true true ms2 [] none) []).nodeIs gsp 0 1 = false ∧
      (sNode (bc gpI true true ms2 [] none) []).buffered 0 < 256 ∧ (sNode (bc gpI true true ms2 [] none) [0]).queues 0 = true ∧
      SMap.getD (sNode (bc gpI true true ms2 [] none) [0]).eng.catchup 0 [] = [] ∧
      locB ((sNode (bc gpI true true ms2 [] none) [0]).locate (e_ (bc gpI true true ms2 [] none)) gsp 0) = 1 :=
  by and_intros <;> decide +kernel
/-- At the end of a hop with one message to node 0: the wave as `fin` and `lows` say. -/
def bEnd (fin : Option HopFin) (lo : Option (SMap Nat)) : Bcast := { bc gpI true true [⟨0, 0, 0, [1]⟩] [0] none with fin := fin, lows := lo }
theorem wit_GraphProceeds_hopEnd :
    ∀ fin ∈ [none, some ⟨[15], [], []⟩, some ⟨[], [0], []⟩, some ⟨[], [], [⟨0, 1, 0, false, false⟩]⟩], ∀ lo ∈ [none, some []],
      (sNode (bEnd fin lo) []).eng? 30 = some (e_ (bEnd fin lo)) ∧ (sNode (bEnd fin lo) []).spaceOf gDesc = some gsp ∧
      (bEnd fin lo).todo = [] ∧ (bEnd fin lo).unsent = [] ∧ (bEnd fin lo).got.length = (bEnd fin lo).sending.length ∧
      (sNode (bEnd fin lo) []).ms.bad = [] ∧ (bEnd fin lo).isWave = true ∧ (bEnd fin lo).started = true ∧
      (((bEnd fin lo).unitNodes gsp 0).mapM ((sNode (bEnd fin lo) []).nodeFold gsp (bEnd fin lo) [])).isSome = true ∧
      (bEnd fin lo).unitNodes gsp 0 ≠ [] ∧ gsp.units.length = 16 :=
  by decide +kernel
theorem wit_GraphProceeds_fold :
    ((sNode (bEnd none none) []).nodeFold gsp (bEnd none none) [] (0, [(0, ⟨0, 0, 0, [1]⟩)])).isSome = true := by decide +kernel
/-- A wave and a fill that have still a write to make. -/
theorem wit_GraphProceeds_writes :
    ∃ (b : Bcast) (w : GWrite) (ws : List GWrite), b.started = true ∧ b.isWave = true ∧ b.todo = w :: ws ∧
      ∃ (d : Bcast) (v : GWrite) (vs : List GWrite), d.started = true ∧ d.isWave = false ∧ d.todo = v :: vs :=
  ⟨{ bc gpI true false [] [] none with todo := [gsp0] }, _, _, rfl, rfl, rfl,
    { bc (.gclr h1 true 7 255 255 9 10) true false [] [] none with todo := [gsp0] }, _, _, rfl, rfl, rfl⟩
/-- A load of one word to entry 95: a program of its end alone. -/
def glI : Instr := .gload h1 95 1 9 10
def sGl : State := (sNode (bc glI true false [] [] none) []).pokeN (511 * 2 ^ 40 + 0x41004) 4 0xC0000000
def erBytes (r : Er (List Nat)) : List Nat := match r with | .ok bs => bs | _ => []
theorem wit_GraphProceeds_end :
    (bc gpI true false [] [] (some (1, 0))).ended = some (1, 0) ∧ (bc gpI true false [] [] (some (1, 0))).todo = [] ∧ sGl.eng? 30 = some (e_ (bc glI true false [] [] none)) ∧
      okEr (sGl.engRead (e_ (bc glI true false [] [] none)) 0x41004 (4 * (1 : BitVec 7).toNat)) = true ∧
      npScan 0 ((List.range 1).map fun i => leAt (erBytes (sGl.engRead (e_ (bc glI true false [] [] none)) 0x41004 4)) (4 * i) 4) = true ∧
      gsp.closing = false :=
  ⟨rfl, rfl, by decide +kernel, by decide +kernel, by decide +kernel, rfl⟩
theorem wit_GraphProceeds_refresh :
    p0.eng.refresh.contains (1023 * 16 + 15) = false ∧
      ({ p0 with eng := { p0.eng with refresh := [1023 * 16 + 15] } } : State).eng.refresh.contains (1023 * 16 + 15) = true :=
  ⟨by decide +kernel, by decide +kernel⟩
theorem wit_ArrivalOrderDoesNotMatter :
    [1, 0].Perm (bc gpI true true ms2 [0, 1] none).got ∧ (bc gpI true true ms2 [0, 1] none).got.Nodup ∧
      (bc gpI true true ms2 [0, 1] none).sending.length ≤ 2 ^ 40 :=
  ⟨List.Perm.swap _ _ _, by decide, by decide⟩

/-! ### Witnesses: the handler, regions and scheduling -/

/-- An event of lane 7, at the largest cause that a program meets here. -/
def ev7 : FaultEv :=
  { tick := 5, lane := 7, lanes := 128, pc := 0x40004, eret := 0x40008, cause := 0x0E, addr := 9, limb := 0, sub := false, slices := 2,
    opc := 0x44, op := none }
/-- The gang has stopped with the event, in a region with or without a handler; within the handler or not. -/
def sEv (hpc : Nat) (hc : Option HandlerCtx) (recs : List SplitRec) : State :=
  (pG fun G => { gang (fun K => { K with stopped := true, st := .parked }) G with evs := [ev7], handler := hc, recs := recs }).onRegion 3
    fun R => { R with rcb := { R.rcb with handler := hpc } }
def hctx : HandlerCtx := ⟨x0.G.gangs, x0.G.dstacks, [], 4, 0x40008, [], 4⟩
def evGroup (s : State) (h : (s.group? 1).isSome = true) : Group := (s.group? 1).get h
theorem wit_HandlerAndReturn_entry :
    (sEv 0x50000 none []).group? 1 = some (evGroup (sEv 0x50000 none []) (by decide +kernel)) ∧
      (evGroup (sEv 0x50000 none []) (by decide +kernel)).entryDue = true ∧
      (sEv 0x50000 none []).groupRuns (evGroup (sEv 0x50000 none []) (by decide +kernel)) = true ∧
      (sEv 0 none []).groupRuns (evGroup (sEv 0 none []) (by decide +kernel)) = true ∧
      (sEv 0 (some hctx) []).groupRuns (evGroup (sEv 0 (some hctx) []) (by decide +kernel)) = true ∧
      ((evGroup (sEv 0x50000 none []) (by decide +kernel)).holder ev7).all (fun K =>
        decide (K.depth + 24 ≤ (evGroup (sEv 0x50000 none []) (by decide +kernel)).bottom +
          (evGroup (sEv 0x50000 none []) (by decide +kernel)).geo.cap)) = true ∧
      earliest (evGroup (sEv 0x50000 none []) (by decide +kernel)).allEvents = some ev7 ∧
      ((evGroup (sEv 0x50000 none []) (by decide +kernel)).holder ev7).isSome = true ∧
      (((sEv 0x50000 none []).regionOf (evGroup (sEv 0x50000 none []) (by decide +kernel))).map (·.rcb.handler)).getD 0 ≠ 0 ∧
      (((sEv 0 none []).regionOf (evGroup (sEv 0 none []) (by decide +kernel))).map (·.rcb.handler)).getD 0 = 0 ∧
      (evGroup (sEv 0 (some hctx) []) (by decide +kernel)).handler.isSome = true ∧
      (evGroup (sEv 0 (some hctx) []) (by decide +kernel)).entryDue = true :=
  by and_intros <;> decide +kernel
def sHd (hc : Option HandlerCtx) (recs : List SplitRec) : State := pG fun G => { G with handler := hc, recs := recs }
def xHd (hc : Option HandlerCtx) (recs : List SplitRec) (h : (cur (sHd hc recs)).isSome = true := by decide +kernel) : Cur := at_ (sHd hc recs) h
theorem wit_HandlerAndReturn_eret :
    cur (sHd none []) = some (xHd none []) ∧ (xHd none []).G.handler = none ∧ UniRuns (xHd none []) h0 [] ∧
      cur (sHd (some hctx) []) = some (xHd (some hctx) []) ∧ UniRuns (xHd (some hctx) []) h0 [] ∧ (xHd (some hctx) []).G.closed = true ∧
      (xHd (some hctx) []).G.replayWaits (sHd (some hctx) []) 1 = false ∧
      (xHd (some hctx) [⟨7, 0, 0x40100⟩]).G.closed = false ∧ UniRuns (xHd (some hctx) [⟨7, 0, 0x40100⟩]) h0 [] :=
  ⟨cur_at _ _, by decide +kernel, uniRuns_of (by decide +kernel), cur_at _ _, uniRuns_of (by decide +kernel), by decide +kernel,
    by decide +kernel, by decide +kernel, uniRuns_of (by decide +kernel)⟩
theorem wit_HandlerAndReturn_undo : (evGroup (sEv 0 none []) (by decide +kernel)).evs.erase ev7 = [] := by decide +kernel

/-- Bytes of an RCB, at an address of this device's memory. -/
def rcbA : Nat := 511 * 2 ^ 40 + 0x61000
def topA : Nat := 511 * 2 ^ 40 + 0x60000
def pokes (a : Nat) (l : List (Nat × Nat × Nat)) (s : State) : State := l.foldl (fun s f => s.pokeN (a + f.1) f.2.1 f.2.2) s
/-- The fields of an RCB that supplies every group: a priority, a bucket. -/
def rcbL (prio bucket : Nat) : List (Nat × Nat × Nat) :=
  [(0, 8, topA), (0x18, 8, 0x7FF), (0x40, 8, 0x60000), (0x48, 8, 0x40000), (0x54, 1, prio), (0x68, 8, bucket), (0x78, 4, 1536), (0x7C, 2, 24), (0x7E, 1, 8),
    (0x80, 4, 8), (0x90, 4, 1), (0x94, 1, 1), (0x96, 2, 1), (0xA0, 8, 511 * 2 ^ 40 + 0x400000), (0xA8, 2, 1)]
/-- A SPAWN waits for the scheduler; region 3's RCB lies at `topA`. -/
def sSp (l : List (Nat × Nat × Nat)) : State :=
  { pokes rcbA l (p0.onRegion 3 fun R => { R with addr := topA }) with spawns := [⟨60, rcbA, 0⟩] }
def chainedB (s : State) : Bool :=
  (s.rcbChain 16 rcbA).2 && (s.regionAt (((rcbA :: (s.rcbChain 16 rcbA).1).getLast?).getD 0)).any fun R => R.chain.isEmpty
def rr (s : State) : Rcb := s.resolveRcb (rcbA :: (s.rcbChain 16 rcbA).1)
theorem wit_RegionsLaunchAndEnd_accept :
    (sSp []).spawns.find? (fun y => y.id == 60) = some ⟨60, rcbA, 0⟩ ∧ (sSp []).rcbState rcbA % 256 = 0 ∧ chainedB (sSp []) = false ∧
      chainedB (sSp [(0, 8, topA)]) = true ∧ (sSp [(0, 8, topA)]).fieldBad rcbA (rr (sSp [(0, 8, topA)])) 0 = true ∧
      chainedB (sSp (rcbL 0 0)) = true ∧ (sSp (rcbL 0 0)).fieldBad rcbA (rr (sSp (rcbL 0 0))) 0 = false ∧
      overBudget (rr (sSp (rcbL 0 0))) placeRcb = false ∧ (rr (sSp (rcbL 0 0))).coop = false ∧
      (sSp (rcbL 0 0)).entryOf (rr (sSp (rcbL 0 0))) = some (0x40000, [8, 1, 1, 1]) ∧
      (sSp (rcbL 7 0)).fieldBad rcbA (rr (sSp (rcbL 7 0))) 0 = false ∧ overBudget (rr (sSp (rcbL 7 0))) placeRcb = true ∧
      (sSp (rcbL 0 64)).fieldBad rcbA (rr (sSp (rcbL 0 64))) 0 = false ∧ (sSp (rcbL 0 64)).entryOf (rr (sSp (rcbL 0 64))) = none ∧
      ((sSp (rcbL 0 0)).regionAt topA).map (·.rcb) = some placeRcb :=
  by and_intros <;> decide +kernel
/-- SPAWN of the RCB at the translated page by a region with or without PRIV, with a store still on its way or not. -/
def sSpI (flags w : Nat) : State :=
  ((sV 0x40200 0 0).onGroup 1 fun G => { G with wctmax := w }).onRegion 3 fun R => { R with rcb := { R.rcb with flags := flags } }
def xSpI (flags w : Nat) (h : (cur (sSpI flags w)).isSome = true := by decide +kernel) : Cur := at_ (sSpI flags w) h
def spA (flags w : Nat) (h : (cur (sSpI flags w)).isSome = true := by decide +kernel) : UAt × State :=
  (sSpI flags w).uniAt (uniRead (xSpI flags w h) [9]) hasBlock (uVal (xSpI flags w h) 9) 1 512 true false
def spS (flags w : Nat) (h : (cur (sSpI flags w)).isSome = true := by decide +kernel) : State :=
  (spA flags w h).2.claimCp 0 (ps_ (spA flags w h))
/-- What the walk of the RCB's parent links finds; `own` is the issuer's RCB. -/
def spOwn (own : Nat) (h : (cur (sSpI 0 0)).isSome = true := by decide +kernel) (first : Nat) : Nat :=
  match (spS 0 0 h).rcbReach own 16 first with | .ok false => 0 | .ok true => 1 | .flt .. => 2 | .wait => 3
theorem wit_RegionsLaunchAndEnd_spawn :
    WholeRuns (sSpI 4 0) (xSpI 4 0) h1 [9] ∧ uVal (xSpI 4 0) 9 < 2 ^ 55 ∧ inAperture (uVal (xSpI 4 0) 9) = false ∧
      UniAccess (sSpI 4 0) (xSpI 4 0) [9] (uVal (xSpI 4 0) 9) 1 512 true false hasBlock (ps_ (spA 4 0)) (spS 4 0) ∧
      (ps_ (spA 4 0)).length = 1 ∧ releaseReady (spS 4 0) 1 (xSpI 4 0).G (2 ^ 16 - 1) 3 = true ∧
      (spS 4 0).privileged (xSpI 4 0).G = true ∧ releaseReady (spS 4 1) 1 (xSpI 4 1).G (2 ^ 16 - 1) 3 = false ∧
      releaseReady (spS 0 0) 1 (xSpI 0 0).G (2 ^ 16 - 1) 3 = true ∧ (spS 0 0).privileged (xSpI 0 0).G = false ∧
      spOwn 64 (by decide +kernel) (((ps_ (spA 0 0)).map (·.pa)).getD 0 0) = 0 ∧ spOwn 64 (by decide +kernel) 64 = 1 ∧
      spOwn 64 (by decide +kernel) (2 ^ 55 - 512) = 2 :=
  ⟨whole_of (by decide +kernel) (by decide +kernel), by decide +kernel, by decide +kernel,
    uacc (by decide +kernel) (by decide +kernel) (by decide +kernel), by and_intros <;> decide +kernel⟩
/-- RESUME and END of a live region; its state word reads 5, then 6. -/
def sRe (code : Nat) : State :=
  { (p0.onRegion 3 fun R => { R with addr := topA }).setRcbState topA code 0 with spawns := [⟨60, topA, 0⟩] }
theorem wit_RegionsLaunchAndEnd_resume :
    (sRe 5).spawns.find? (fun y => y.id == 60) = some ⟨60, topA, 0⟩ ∧ (sRe 5).rcbState topA % 256 = 5 ∧ (sRe 6).rcbState topA % 256 = 6 ∧
      ((sRe 5).regionAt topA).isSome = true ∧ ((sRe 6).regionAt topA).isSome = true :=
  by and_intros <;> decide +kernel
theorem wit_RegionsLaunchAndEnd_launch : 0 < placeRcb.count [8, 1, 1, 1] := by decide +kernel
def sQuiet : State := p0.onBlock 2 fun b => { b with st := .done }
theorem wit_RegionsLaunchAndEnd_completion :
    sQuiet.region? 3 = some hasRegion ∧ hasRegion.live = true ∧ sQuiet.regionQuiet hasRegion = true :=
  by and_intros <;> decide +kernel

/-- The block as it is in one of its states. -/
def bSt (st : BState) (faulted : Bool) : Block := { hasBlock with st := st, faulted := faulted }
def sBl (st : BState) (faulted : Bool) : State := p0.putBlock 2 (bSt st faulted)
theorem wit_BlocksLoadAndSave_load :
    (sBl .pending false).block? 2 = some (bSt .pending false) ∧ (bSt .pending false).id = 2 ∧ (sBl .pending false).region? 3 = some hasRegion ∧
      hasRegion.rcb.coop = false ∧ (sBl .pending false).inOrder (bSt .pending false) = true ∧
      ∃ c t, (sBl .pending false).placeOf (bSt .pending false) = some (c, t) ∧ (sBl .pending false).keepsClear t [2] = false := by
  refine ⟨by decide +kernel, by decide +kernel, by decide +kernel, by decide +kernel, by decide +kernel, ?_⟩
  have h : (((sBl .pending false).placeOf (bSt .pending false)).any fun p => !(sBl .pending false).keepsClear p.2 [2]) = true := by
    decide +kernel
  obtain ⟨⟨c, t⟩, e, q⟩ := Option.any_eq_true _ _ |>.1 h
  exact ⟨c, t, e, by simpa using q⟩
/-- A FIXED region whose core another block claims. -/
def sClaim : State :=
  ((sBl .pending false).onCore 0 fun k => { k with claim := some 99 }).onRegion 3 fun R => { R with rcb := { R.rcb with flags := 12 } }
theorem wit_BlocksLoadAndSave_noRoom :
    sClaim.block? 2 = some (bSt .pending false) ∧ (sClaim.placeOf (bSt .pending false)).isNone = true ∧ sClaim.inOrder (bSt .pending false) = true :=
  by and_intros <;> decide +kernel
def bSav : Block := { bSt .saving true with unit := some 0 }
theorem wit_BlocksLoadAndSave_states :
    (sBl .loading false).block? 2 = some (bSt .loading false) ∧ hasRegion.ending = none ∧
      (((sBl .loading false).groupsOf (bSt .loading false)).any fun x => x.2.passed.isSome && x.2.replayWaits (sBl .loading false) x.1) = false ∧
      ((sBl .loading false).loneBeside 0 2).any (sBl .loading false).loneWrites = false ∧
      (sBl .resident true).block? 2 = some (bSt .resident true) ∧ (sBl .resident true).freeSaveUnit hasRegion = some 0 ∧
      (sBl .resident true).freeSaveUnit { hasRegion with rcb := { hasRegion.rcb with saven := 0 } } = none ∧
      (p0.putBlock 2 bSav).block? 2 = some bSav ∧ (p0.putBlock 2 bSav).saveDue bSav = true ∧ (p0.putBlock 2 bSav).saveReady bSav = true ∧ bSav.unit = some 0 :=
  by and_intros <;> decide +kernel
/-- A block of priority 7 that may go to core 0 alone and needs all of RF there. -/
def bigBlock : Block := { hasBlock with id := 22, rid := 33, st := .pending, groups := [] }
def sVictim : State :=
  (p0.putRegion 33 { hasRegion with id := 33, addr := 64, rcb := { placeRcb with prio := 7, flags := 8, gw := 64, cap := 1024 } }).putBlock 22 bigBlock
theorem wit_BlocksLoadAndSave_victim :
    sVictim.block? 2 = some (bSt .resident false) ∧ bigBlock ∈ SMap.vals sVictim.blocks ∧ sVictim.inOrder bigBlock = true ∧
      hasRegion.rcb.prio < sVictim.blockPrio bigBlock ∧ bigBlock.waits = true ∧ (sVictim.placeOf bigBlock).isNone = true ∧
      ((sVictim.needs (sVictim.loadsWith bigBlock)).any fun v => v.id == 2) = true :=
  by and_intros <;> decide +kernel
/-- The victim has been saved: it could load again, and would be the victim again. -/
def bBack : Block := { bSt .saved false with unit := some 0, sq := [16, 24, 48] }
def sBack : State := sVictim.putBlock 2 bBack
theorem wit_BlocksLoadAndSave_keepsClear :
    sBack.block? 2 = some bBack ∧ sBack.inOrder bBack = true ∧
      ∃ c t, sBack.placeOf bBack = some (c, t) ∧ sBack.keepsClear t [2] = true := by
  refine ⟨by decide +kernel, by decide +kernel, ?_⟩
  have h : ((sBack.placeOf bBack).any fun p => sBack.keepsClear p.2 [2]) = true := by decide +kernel
  obtain ⟨⟨c, t⟩, e, q⟩ := Option.any_eq_true _ _ |>.1 h
  exact ⟨c, t, e, q⟩

/-! ### Witnesses: placement, configuration, the fabric, the system, observation -/

/-- An entry of 2^7 bytes to slice 255, enabled. -/
def rng0 : Nat := 1 + 7 * 2 ^ 7 + 255 * 2 ^ 16
theorem wit_PlacementAndConfiguration_changes :
    p0.cfgOpen = true ∧ State.reset.cfgOpen = false ∧ rangeBad rng0 = false ∧ rangeBad (rng0 + 2) = true ∧ rangeBad (2 ^ 104) = true :=
  by and_intros <;> decide +kernel
/-- A drain of bucket 4,095, of a range, of a key slot and of an encryption range. -/
def sDr (d : Drain) : State := { p0 with ms := { p0.ms with drains := [d] } }
theorem wit_PlacementAndConfiguration_drain :
    (∀ d ∈ [(⟨5, .bucket 4095, 255⟩ : Drain), ⟨5, .range 63, rng0⟩, ⟨5, .key 63, 2 ^ 511⟩, ⟨5, .enc 63, 1 + 2 ^ 109⟩],
      (sDr d).ms.drains = [d] ∧ SMap.sorted (sDr d).ms.homes = true ∧ (sDr d).isLocal pa1 = true) ∧
      (sDr ⟨5, .bucket (bucketOf pa1), 255⟩).drainMeets ⟨5, .bucket (bucketOf pa1), 255⟩ pa1 = true ∧
      (sDr ⟨5, .key 63, 1⟩).drainMeets ⟨5, .key 63, 1⟩ pa1 = false :=
  by and_intros <;> decide +kernel
/-- Bucket 4,095, of slice 255, has the one request. -/
def sHit : State := { p0 with tick := 2 ^ 20, ms := { p0.ms with hits := [(4095, 1)] } }
theorem wit_PlacementAndConfiguration_rebalance :
    sHit.ms.rebal = true ∧ sHit.tick % 2 ^ 20 = 0 ∧ 192 / 64 = sHit.bucket 4095 / 64 ∧ 192 ≠ sHit.bucket 4095 ∧
      (∀ x, x < 256 → sHit.sliceHits x ≤ sHit.sliceHits (sHit.bucket 4095)) ∧
      (∀ i, i < 64 → sHit.sliceHits 192 ≤ sHit.sliceHits (sHit.bucket 4095 / 64 * 64 + i)) ∧
      ∀ e ∈ sHit.ms.hits, sHit.bucket e.1 = sHit.bucket 4095 → e.2 ≤ SMap.getD sHit.ms.hits 4095 0 :=
  by and_intros <;> decide +kernel
theorem wit_PlacementAndConfiguration_keys : encBad (1 + 2 ^ 109) = false ∧ encBad 2 = true ∧ p0.cfgOpen = true := by decide +kernel

/-- An access of the last doubleword of a line by host 5, and flits: one whole, of a type that is used or is not. -/
def rq (op : Option (Option Nat)) (ord : Nat) : HostReq := ⟨5, pa1 + 0x78, 8, ord, 4, op, 9, 0⟩
def fl (type : Nat) (a : Option HostReq) : Flit := ⟨type * 2 ^ 28, 0, true, a⟩
/-- Port 5 has four lanes; its partner was last heard at tick 0. -/
def sFab (tick : Nat) : State :=
  { p0 with tick := tick, fab := { p0.fab with ports := [none, some 0, some 1, none, none, none, none, none].map (fun gap => ⟨4, 0, 0, 0, 0, gap⟩), dims := 0x818, live := 2 ^ 512 - 1 } }
theorem wit_FabricAndHosts_flits :
    ((sFab 0).port 5).lanes ≠ 0 ∧ (sFab 0).portUnused 5 = false ∧ (State.reset.port 6).lanes = 0 ∧ (sFab 0).portUnused 2 = true ∧
      (sFab 0).portUnused 1 = false ∧ ((sFab 0).port 7).lanes ≠ 0 ∧ (sFab 0).portUnused 7 = false ∧
      ((sFab 0).port 5).gap = none ∧ ((sFab 0).port 1).gap = some ((fl 5 none).hdr % 2 ^ 16) ∧
      ((sFab 0).port 1).gap ≠ some (({ fl 5 none with hdr := 5 * 2 ^ 28 + 65535 } : Flit).hdr % 2 ^ 16) ∧
      (fl 6 none).crcOk = true ∧ 6 ≤ (fl 6 none).hdr / 2 ^ 28 % 16 ∧ (fl 5 none).hdr / 2 ^ 28 % 16 < 6 ∧
      (fl 5 (some (rq none 0))).arrive = some (rq none 0) ∧ (sFab 0).hostWaits (rq none 0) = false ∧
      (sFab 0).tr.rgo = false ∧ (sFab 0).sys.phase = 6 ∧ (sFab 0).drained (canon (rq none 0).addr) = true ∧
      p0.isLocal (canon (rq none 0).addr) = true ∧ p0.drained (canon (rq none 0).addr) = true ∧ p0.capturing = false :=
  by and_intros <;> decide +kernel
theorem wit_FabricAndHosts_liveness :
    (∃ d, (sFab 0).neighbour 5 = some d ∧ d < 512 ∧ d ≠ (sFab 0).dev ∧ (sFab 65535).fab.live.testBit d = true ∧
      (sFab 65535).tick < SMap.getD (sFab 65535).fab.lastFlit d 0 + 65536 ∧
      SMap.getD (sFab 65536).fab.lastFlit d 0 + 65536 ≤ (sFab 65536).tick) :=
  ⟨((sFab 0).neighbour 5).get (by decide +kernel), by and_intros <;> decide +kernel⟩
/-- A torus of 512 devices that are all up: device 0 is another one. -/
def sFab8 : State := { p0 with fab := { p0.fab with dims := 0x888, live := 2 ^ 512 - 1 } }
/-- A store of host 5 waits until tick 3. -/
def sHost (tick : Nat) : State := { p0 with tick := tick, fab := { p0.fab with hosts := [⟨70, 5, 3, 9⟩] } }
theorem wit_FabricAndHosts_hosts :
    paSpace (canon (rq none 1).addr) = 0 ∧ paSpace (rq none 1).addr ≠ 4 ∧ reqOk (rq none 1) = true ∧ State.reset.sys.phase ≠ 6 ∧
      (sHost 0).sys.phase = 6 ∧ (sHost 0).addrOk (canon (rq none 1).addr) = true ∧ (sHost 0).drained (canon (rq none 1).addr) = true ∧
      (rq none 1).ord < 2 ∧ (p0.fab.hosts.any fun h => h.host == (rq (some none) 2).host) = false ∧
      p0.isLocal (canon (rq none 1).addr) = true ∧
      sFab8.isLocal (canon 0x78) = false ∧ sFab8.addrOk (canon 0x78) = true ∧ sFab8.drained (canon 0x78) = true ∧ sFab8.sys.phase = 6 ∧
      paSpace (canon 0x78) = 0 ∧
      (sHost 2).fab.hosts.find? (fun h => h.id == 70) = some ⟨70, 5, 3, 9⟩ ∧ (sHost 2).tick < 3 ∧ 3 ≤ (sHost 3).tick :=
  by and_intros <;> decide +kernel

def sPh (phase life : Nat) : State := { p0 with sys := { p0.sys with phase := phase, life := life } }
theorem wit_PowerAndLifecycle_phases :
    6 ≤ (sPh 6 2).sys.phase ∧ (sPh 5 2).sys.phase < 6 ∧ ¬((sPh 5 2).sys.phase = 1 ∧ (sPh 5 2).sys.life = 4) ∧ (sPh 1 4).sys.phase = 1 ∧
      (sPh 1 4).sys.life = 4 ∧ (sPh 4 2).sys.phase = 4 ∧ dimsOk 0x818 = true ∧ dimsOk 0x880 = false ∧ dimsOk 0x988 = false ∧
      115 * 16 ≤ 115 * 16 ∧ 115 * 16 < 1841 ∧ 1841 < 2 ^ 16 :=
  by and_intros <;> decide +kernel
theorem wit_PowerAndLifecycle_report :
    ({ p0 with sys := { p0.sys with reqs := [64] } } : State).sys.reqs = [64] ∧ p0.sys.reqs = [] ∧ p0.sys.unlocking = none :=
  ⟨rfl, by decide +kernel, by decide +kernel⟩
/-- A part that is only provisioned takes no token. -/
theorem wit_PowerAndLifecycle_refused : (sPh 6 1).tokenOk ((sPh 6 1).homeBytes 64 0x2000) = false ∧ (sPh 6 1).cfgOpen = true := by
  exact ⟨by simp [State.tokenOk, sPh], by decide +kernel⟩
/-- An unlock is under way, with a region live, and with none. -/
def sUnl (live : Bool) : State := { p0 with sys := { p0.sys with unlocking := some 0 }, regions := if live then p0.regions else [] }
theorem wit_PowerAndLifecycle_unlocking :
    (∀ live, (sUnl live).cfgOpen = true ∧ (sUnl live).sys.unlocking.isSome = true) ∧
      (∃ R ∈ SMap.vals (sUnl true).regions, R.live = true) ∧ (∀ R ∈ SMap.vals (sUnl false).regions, R.live = false) ∧
      State.reset.cfgOpen = false := by and_intros <;> decide +kernel
/-- The fused authority hash and the serial number are free values: a token whose key has that hash, whose signature is good and that
names the device, the lifecycle and the challenge opens the part. -/
theorem wit_PowerAndLifecycle_opens (s : State) (t : List Nat) (hl : s.sys.life = 2)
    (h1 : Crypto.sha3 ((t.drop 0x58).take 2592) = Config.authorityHash)
    (h2 : Crypto.verify ((t.drop 0x58).take 2592) (t.take 0x0A78) ((t.drop 0x0A78).take 4627) = true)
    (h3 : leAt t 0 8 = s.dev) (h4 : leAt t 8 8 = Config.serial) (h5 : leAt t 16 8 = 2) (h6 : leAt t 24 64 = s.sys.challenge) :
    s.tokenOk t = true := by
  simp [State.tokenOk, h1, h2, h3, h4, h5, h6, hl]

/-- SHA3-512 of the empty string (FIPS 202's value), and entries of the S-box (FIPS 197: 0x53 goes to 0xED). -/
theorem test_sha3_empty : (Crypto.sha3Bytes []).take 8 = [0xA6, 0x9F, 0x73, 0xCC, 0xA2, 0x3A, 0x9A, 0xC5] := by decide +kernel
theorem test_aes_sbox : Crypto.sbox 0x53 = 0xED ∧ Crypto.invSbox 0xED = 0x53 ∧ Crypto.gmul 0x57 0x83 = 0xC1 := by decide +kernel

def sDbg (tick : Nat) : State :=
  { p0 with tick := tick, sys := { p0.sys with arm := true, life := 3, stopTick := 7 } }
theorem wit_Observation_stop :
    (sDbg 7).sys.arm = true ∧ (sDbg 7).sys.life = 3 ∧ (sDbg 7).tick = (sDbg 7).sys.stopTick ∧ (sDbg 7).sys.stopped = false ∧
      (sDbg 6).tick ≠ (sDbg 6).sys.stopTick :=
  ⟨rfl, rfl, rfl, by decide +kernel, by decide +kernel⟩
/-- The gang waits on flag 11 alone, with blame samples at every tick of a multiple of 2^16. -/
def sBl1 : State :=
  let s := pG fun G => { gang (fun K => { K with st := .waitFlag, clause := some ⟨2 ^ 26 + 2 ^ 11, 1, 0⟩ }) G with flags := setAt G.flags 11 1 }
  { s with tick := 2 ^ 16, tr := { s.tr with tctl := 5 + 16 * 2 ^ 8 } }
theorem wit_Observation_blame :
    sBl1.ten = true ∧ bit sBl1.tr.tctl 2 = true ∧ (sBl1.core 0).blamed ≠ sBl1.tick + 1 ∧
      ((sBl1.onCore 0 fun k => { k with blamed := 2 ^ 16 + 1 }).core 0).blamed = sBl1.tick + 1 ∧ sBl1.tick % 2 ^ fld sBl1.tr.tctl 15 8 = 0 ∧
      (∃ g K sl, nextWaiter (sBl1.core 0).blame (sBl1.flagWaiters 0) = some (g, K, sl) ∧ (sBl1.group? g).isSome = true ∧
        ((sBl1.group? g).bind fun G => G.waitsOn K) = some 11) ∧ sBl1.flagWaiters 0 ≠ [] := by
  refine ⟨by decide +kernel, by decide +kernel, by decide +kernel, by decide +kernel, by decide +kernel, ?_, by decide +kernel⟩
  have h : ((nextWaiter (sBl1.core 0).blame (sBl1.flagWaiters 0)).any fun r => (sBl1.group? r.1).isSome &&
      ((sBl1.group? r.1).bind fun G => G.waitsOn r.2.1) == some 11) = true := by decide +kernel
  obtain ⟨⟨g, K, sl⟩, e, q⟩ := Option.any_eq_true _ _ |>.1 h
  simp only [Bool.and_eq_true, beq_iff_eq] at q
  exact ⟨g, K, sl, e, q.1, q.2⟩
/-- Injection stands at the last of two records, of KIND 7 or of another. -/
def sInj (kind done : Nat) : State :=
  let s := (p0.pokeN (pa1 / 64 * 64 + 64 + 8) 2 (kind + 8 * 256)).pokeN (pa1 / 64 * 64 + 64 + 0x10) 8 pa1
  { s with tr := { s.tr with rgo := true, rdone := done, rcount := 2, rbase := pa1 } }
/-- The same while the line of its last record moves to another slice. -/
def sInjDr : State := (sInj 7 1).addDrain (.bucket (bucketOf pa1)) 9
theorem wit_Observation_inject :
    (sInj 7 1).tr.rgo = true ∧ (sInj 7 1).tr.rdone < (sInj 7 1).tr.rcount ∧ (sInj 7 2).tr.rcount ≤ (sInj 7 2).tr.rdone ∧
      leAt ((sInj 7 1).homeBytes (pa1 / 64 * 64 + 64 * 1) 64) 8 1 = 7 ∧ leAt ((sInj 6 1).homeBytes (pa1 / 64 * 64 + 64 * 1) 64) 8 1 ≠ 7 ∧
      (sInj 7 1).capturing = false ∧ (sInj 7 1).isLocal (canon (leAt ((sInj 7 1).homeBytes (pa1 / 64 * 64 + 64 * 1) 64) 0x10 8)) = true ∧
      (sInj 7 1).drained (canon (leAt ((sInj 7 1).homeBytes (pa1 / 64 * 64 + 64 * 1) 64) 0x10 8)) = true ∧
      sInjDr.drained (canon (leAt (sInjDr.homeBytes (pa1 / 64 * 64 + 64 * 1) 64) 0x10 8)) = false := by
  and_intros <;> decide +kernel
/-- Region 3 is the root supervisor, with a fault log. -/
def sScr : State := p0.onRegion 3 fun R => { R with addr := topA, rcb := { R.rcb with flog := pa1 } }
theorem wit_Observation_scrub :
    ∃ r, sScr.rootRegion = some r ∧ sScr.regionAt r.addr = some r ∧ r.rcb.flog ≠ 0 ∧ (1 : W64) ≠ 0 :=
  ⟨sScr.rootRegion.get (by decide +kernel), by decide +kernel, by decide +kernel, by decide +kernel, by decide⟩

/-! ### Witnesses: the machine as a whole -/

/-- The gang of eight lanes without lane 7, whose element index names lane 7. -/
def sSeven : State := pG fun G => gang (fun K => { K with mask := 127 }) (wr 0 9 14 (wr 7 8 5 G))
def xSeven : Cur := at_ sSeven (by decide +kernel)
theorem wit_ReadsStayInTheGang :
    xSeven.K.mask.testBit (permLane xSeven.G.geo.w (⟨8, false, 7⟩ : Src).perm 0) = false ∧
      xSeven.K.mask.testBit (srcV xSeven.G xSeven.K 0 ⟨9, false, 0⟩ % 2 ^ 16 / (64 / etW .w)) = false ∧
      (laneOpOf (sSeven.core 0) xSeven.G (.xget h1 .w 10 ⟨8, false⟩ ⟨9, false, 0⟩)).isSome = true ∧
      (∀ j, xSeven.K.mask.testBit j = true → ({ xSeven.G with lanes := xSeven.G.lanes.take 7 } : Group).lane j = xSeven.G.lane j) ∧
      127 &&& xSeven.K.mask = 127 ∧ xSeven.K.mask.testBit 0 = true := by
  refine ⟨by decide +kernel, by decide +kernel, by decide +kernel, fun j hj => ?_, by decide +kernel, by decide +kernel⟩
  have hm : xSeven.K.mask = 127 := by decide +kernel
  have hlt : j < 7 := by
    rcases Nat.lt_or_ge j 7 with h | h
    · exact h
    · rw [hm, Nat.testBit_lt_two_pow (Nat.lt_of_lt_of_le (by decide) (Nat.pow_le_pow_right (by decide) h))] at hj; cases hj
  simp [Group.lane, hlt]
def decodes (r : Except DecErr Instr) (i : Instr) : Bool := match r with | .ok j => decide (j = i) | .error _ => false
theorem decodes_of {r : Except DecErr Instr} {i : Instr} (h : decodes r i = true) : r = .ok i := by
  cases r with | ok j => rw [of_decide_eq_true h] | error _ => cases h
def refuses (r : Except DecErr Instr) (e : DecErr) : Bool := match r with | .ok _ => false | .error f => decide (f = e)
theorem refuses_of {r : Except DecErr Instr} {e : DecErr} (h : refuses r e = true) : r = .error e := by
  cases r with | ok _ => cases h | error f => rw [of_decide_eq_true h]
theorem wit_PredicateLogic :
    cur sUni = some xUni ∧ LaneRuns xUni hp formNone ∧ 0x4F002001 / 2 ^ 24 = 0x4F ∧
      decodeWords 0x4F002001 0x78 = .ok (.plog h1 15 1 0 0) :=
  ⟨cur_at _ _, laneRuns_of (by decide +kernel), by decide, decodes_of (by decide +kernel)⟩
theorem wit_FirstLaneRead :
    cur sUni = some xUni ∧ UniRuns xUni h0 [31] ∧ 0x9A01FF00 / 2 ^ 24 = 0x9A ∧ decodeWords 0x9A03FF00 0 = .ok (.rdfl ⟨false, 0, false, false⟩ 31 31) ∧
      decodeWords 0x9A03FF04 0 = .error .strayBits :=
  ⟨cur_at _ _, uniRuns_of (by decide +kernel), by decide, decodes_of (by decide +kernel), refuses_of (by decide +kernel)⟩
def fetched (r : Fw × State) : Option Nat := match r.1 with | .word w => some w | _ => none
theorem fetched_of {r : Fw × State} {w : Nat} (h : fetched r = some w) : ∃ s1, r = (.word w, s1) := by
  rcases r with ⟨r, s⟩
  cases r with | word v => exact ⟨s, by simp [fetched] at h; rw [h]⟩ | _ => cases h
/-- The word stands in a clause of it alone, or at the start of one. -/
def sNoCl : State := pG (gang fun K => { K with clause := none })
def xNoCl : Cur := at_ sNoCl (by decide +kernel)
theorem wit_StepRunsTheDecodedInstruction :
    p0.agenda = [] ∧ p0.sys.stopped = false ∧ p0.stopDue = false ∧ cur p0 = some x0 ∧ p0.groupRuns x0.G = true ∧ Gang.canIssue x0.G x0.K = true ∧
      (p0.core x0.G.geo.core).regsMove = false ∧ p0.issues = true ∧ x0.K.st ≠ .waitFlag ∧
      (∃ s1, p0.fetchWord x0 x0.K.pc = (.word 0x80000000, s1)) ∧
      (∃ c, x0.K.clause = some c ∧ placeTrap c 0x80000000 = false) ∧ 0x80000000 % 2 = 0 ∧
      decodeWords 0x80000000 0 = .ok (.nop ⟨false, 0, false, false⟩) ∧ stopPoint x0 (.nop h0) (p0.parts x0 (.nop h0)) (p0.rowsOf x0 (.nop h0)) = false ∧
      p0.holds x0 (.nop h0) (p0.rowsOf x0 (.nop h0)) = false :=
  ⟨by decide +kernel, by decide +kernel, by decide +kernel, cur_at _ _, by decide +kernel, by decide +kernel, by decide +kernel, by decide +kernel,
    by decide +kernel, fetched_of (by decide +kernel), ⟨x0.K.clause.get (by decide +kernel), by decide +kernel, by decide +kernel⟩, by decide,
    decodes_of (by decide +kernel), by decide +kernel, by decide +kernel⟩
theorem wit_StepRunsTheDecodedInstruction_header :
    sNoCl.agenda = [] ∧ sNoCl.sys.stopped = false ∧ sNoCl.stopDue = false ∧ cur sNoCl = some xNoCl ∧ sNoCl.groupRuns xNoCl.G = true ∧
      Gang.canIssue xNoCl.G xNoCl.K = true ∧ (sNoCl.core xNoCl.G.geo.core).regsMove = false ∧ sNoCl.issues = true ∧ xNoCl.K.st ≠ .waitFlag ∧
      (∃ s1, sNoCl.fetchWord xNoCl xNoCl.K.pc = (.word 0x80000000, s1)) ∧ xNoCl.K.clause = none :=
  ⟨by decide +kernel, by decide +kernel, by decide +kernel, cur_at _ _, by decide +kernel, by decide +kernel, by decide +kernel, by decide +kernel,
    by decide +kernel, fetched_of (by decide +kernel), by decide +kernel⟩
theorem wit_StepRunsTheDecodedInstruction_event :
    ({ p0 with agenda := [some .replayGo] } : State).agenda = [some .replayGo] ∧ p0.sys.stopped = false ∧
      ({ p0 with agenda := [some .replayGo] } : State).stopDue = false ∧ (sDbg 7).stopDue = true ∧ (sDbg 7).sys.stopped = false := by
  exact ⟨rfl, by and_intros <;> decide +kernel⟩

theorem wit_DecodeOfEncode : (Instr.plog hp 15 15 0 15).wf = true ∧ (Instr.iadd h1 .d .satu 31 ⟨31, true, 0⟩ (.imm .sext 0xFFFFFF)).wf = true := by
  decide +kernel
theorem wit_EncodeOfDecode : decodeBytes (encodeBytes (.exit h0) ++ [7]) = .ok (.exit h0, [7]) := rfl
/-- A stopped part with a restart at the head of what is scheduled, with another event there, and with nothing. -/
def sStop (es : List (Option Instr)) : State := { p0 with sys := { p0.sys with stopped := true }, agenda := es }
theorem wit_OnlyAStoppedPartStops :
    p0.sys.stopped = false ∧ (sStop []).sys.stopped = true ∧ (sStop []).agenda = [] ∧ (sStop [none]).agenda = none :: [] ∧
      wakesStopped .debugRestart = true ∧ wakesStopped .replayGo = false ∧ State.reset.sys.stopped = false ∧ State.reset.agenda = [] ∧
      State.reset.stopDue = false ∧ State.reset.ports = [] ∧ (State.reset.auto fun i => nextOr State.reset (exec i State.reset)).isNone = true :=
  ⟨by decide +kernel, rfl, rfl, rfl, by decide +kernel, by decide +kernel, rfl, rfl, by decide +kernel, rfl, by decide +kernel⟩
def nexts (r : Host.Outcome State Fault Refusal) : Bool := match r with | .next _ => true | _ => false
theorem nexts_of {r : Host.Outcome State Fault Refusal} (h : nexts r = true) : ∃ t, r = .next t := by
  cases r with | next t => exact ⟨t, rfl⟩ | _ => cases h
theorem wit_StepKeepsMemoryCanonical : p0.MemOk ∧ ∃ t, step p0 = .next t := by
  exact ⟨show Memory.wf p0.mem = true by decide +kernel, nexts_of (by decide +kernel)⟩

/-! ### Ill-formed terms, one for each check, and words that the decoder refuses -/

def s8 : Src := ⟨8, false, 0⟩
def s9 : Src := ⟨9, false, 0⟩
def s8p : Src := ⟨8, false, 1⟩
/-- R76, R78: a predicate or a negation without a guard; an extension word where none is allowed, none where one is required, and
fields of one that is absent. -/
theorem ill_header : [Instr.nop ⟨false, 1, false, false⟩, .nop ⟨false, 0, true, false⟩, .eret h1, .mxfree h1 0, .rdfl h1 8 9,
    .ld h0 .d 8 ⟨9, false⟩ em0, .br h0 1, .rdsr h0 0 8, .macroOp h0 0 8 8 8 8, .xsend h0 1 ⟨8, false⟩, .plog h0 1 0 0 0,
    .fadd h0 .s .rtz 8 s8 (.reg s9)].all (fun i => !i.wf) = true := by decide +kernel
/-- R116, R80: immediates of the wrong kind, wide or beside a permutation. -/
theorem ill_immediates : [Instr.iadd h1 .d .wrap 8 s8p (.imm .sext 1), .isub h1 .d .wrap 8 s8 (.imm .fp32 1),
    .andV h1 8 s8 (.imm .rep16 0x10000), .fadd h1 .s .rne 8 s8 (.imm .sext 1), .fsub h1 .h .rne 8 s8 (.imm .fp32 1),
    .fmul h1 .s .rne 8 s8 (.imm .rep16 1), .fadd h1 .s .rne 8 s8p (.imm .fp32 1), .fadd h1 .bf .rne 8 s8 (.imm .rep16 0x10000),
    .imulhu h1 8 s8p (.imm .sext 1), .imulhs h1 8 s8p (.imm .sext 1), .orV h1 8 s8p (.imm .sext 1), .xorV h1 8 s8p (.imm .sext 1),
    .orV h1 8 s8 (.imm .fp32 1), .fcmp h1 .h .unord 0 s8 (.imm .fp32 1)].all (fun i => !i.wf) = true := by decide +kernel
/-- Types that an instruction does not take. -/
theorem ill_types : [Instr.imul h0 .b 8 s8 (.reg s9), .imad h1 .h 8 s8 s9 ⟨10, false⟩, .imin h0 .h 8 s8 (.reg s9), .imax h0 .b 8 s8 (.reg s9),
    .shl h0 .h 8 s8 (.reg s9), .shr h0 .b 8 s8 (.reg s9), .sar h0 .h 8 s8 (.reg s9), .icmp h0 .b .eq 0 s8 (.reg s9),
    .fmin h0 .bf 8 s8 (.reg s9), .fmax h0 .bf 8 s8 (.reg s9), .fcmp h0 .bf .eq 0 s8 (.reg s9), .cvt h1 (.ff .s .s) false .rne 8 s8,
    .cvt h1 (.ff .s .h) true .rne 8 s8, .cvt h1 (.i2f true .i8) true .rne 8 s8, .cvt h1 (.f2i true .i8) true .rne 8 s8,
    .cvtef h1 .s false .rne 8 s8 9, .cvtef h1 .f8 true .rne 8 s8 9, .cvtef h1 .h false .rne 8 s8 8,
    .red h1 .w 0 .rtz 8 s8, .red h1 .s 3 .rne 8 s8, .red h1 .s 1 .rtz 8 s8, .scan h1 3 .rne 8 s8, .scan h1 1 .rtz 8 s8].all
      (fun i => !i.wf) = true := by decide +kernel
/-- R61, R117: pairs. -/
theorem ill_pairs : [Instr.tmacc h1 true 9 s8, .tmred h0 9 s8, .tmred h0 8 s9, .tmred h1 8 s8p, .tmfin h0 8 s9, .tmfin h1 8 s8p,
    .ld h1 .q 9 ⟨8, false⟩ em0, .st h1 .q ⟨8, false⟩ ⟨9, false⟩ em0, .atom h1 .q 9 ⟨8, false⟩ ⟨8, false⟩ em0,
    .atom h1 .q 8 ⟨8, false⟩ ⟨9, false⟩ em0].all (fun i => !i.wf) = true := by decide +kernel
/-- R82, R83: scopes, orders and operations. -/
theorem ill_memory : [Instr.ld h1 .d 8 ⟨9, false⟩ ⟨0, 5, 0, 0, 0⟩, .ld h1 .w 8 ⟨9, false⟩ ⟨2, 0, 0, 0, 0⟩, .ld h1 .w 8 ⟨9, false⟩ ⟨3, 0, 0, 0, 0⟩,
    .ld h1 .w 8 ⟨9, false⟩ ⟨0, 0, 0, 1, 0⟩, .st h1 .w ⟨8, false⟩ ⟨9, false⟩ ⟨1, 0, 0, 0, 0⟩, .st h1 .w ⟨8, false⟩ ⟨9, false⟩ ⟨0, 7, 0, 0, 0⟩,
    .atom h1 .w 8 ⟨9, false⟩ ⟨10, false⟩ ⟨0, 0, 0, 13, 0⟩, .atom h1 .d 8 ⟨9, false⟩ ⟨10, false⟩ ⟨0, 0, 0, 10, 0⟩,
    .atom h1 .q 8 ⟨9, false⟩ ⟨10, false⟩ ⟨0, 0, 0, 2, 0⟩, .atom h1 .b 8 ⟨9, false⟩ ⟨10, false⟩ em0, .atom h1 .h 8 ⟨9, false⟩ ⟨10, false⟩ em0,
    .cxch h1 8 ⟨9, false⟩ ⟨10, false⟩ ⟨0, 0, 0, 1, 0⟩, .cldr h1 8 ⟨9, false⟩ ⟨0, 0, 0, 12, 0⟩, .cldr h1 8 ⟨9, false⟩ ⟨2, 0, 0, 0, 0⟩,
    .fenceAcq h1 5, .fenceRel h1 5, .fenceAr h1 6, .fenceSc h1 7, .fenceEng h1 5, .publish h1 5 9, .cwb h1 5 8 9, .cinv h1 7 8 9].all
      (fun i => !i.wf) = true := by decide +kernel
/-- Counts and codes outside their ranges. -/
theorem ill_ranges : [Instr.brp h1 0 1 0, .call h1 0 1, .call h1 7 1, .callr h1 0 8, .callr h1 7 8, .mdef h1 0 0 8, .mdef h1 0 33 8,
    .smap h1 true 0 8 9, .smap h1 true 16385 8 9, .hres h1 true 0 true 0 0 8 9, .hres h1 false 0 true 0 16385 8 9, .bin h1 true 0 0 8 9,
    .bin h1 true 1 64 8 9, .attrCc h1 3 8 9, .attrCpol h1 3 8 9, .cag h1 0 8 9 0, .cag h1 0 8 9 5, .ca2a h1 0 8 9 2, .crs h1 0 12 8 9 1,
    .crs h1 0 0 8 9 0, .mxres h1 0 false 1 0 8 9, .mxst h1 0 3 false 0 false 0 8, .mxst h1 0 1 false 0 false 1 8, .mxst h1 0 0 true 0 false 0 8,
    .mma h1 .f8 0 0 0 false false false 1 0 0, .gload h1 96 1 8 9, .gload h1 0 0 8 9, .gload h1 0 97 8 9, .gload h1 95 2 8 9,
    .gset h1 true 3 0 0 0 0 8 9, .gset h1 true 0 0 0 0 96 8 9, .gset h1 false 1 0 0 0 1 8 9, .gset h1 false 0 0 0 0 0 8 9,
    .gcoll h1 true 0 0 8 9, .gclr h1 false 0 0 0 8 9, .tmshape h1 0x0E, .tmshape h1 0x14, .lig h1 3, .lig h1 0, .rdsr h1 0x1C 8, .wrsr h1 0x08 8,
    .wrsr h1 0x00 8, .wspill h1 0, .wspill h1 6, .wfill h1 2, .replayGo, .copyComplete 1].all (fun i => !i.wf) = true := by decide +kernel
/-- R76, R77, R89: unassigned opcodes, a guard's bits without a guard, reserved bits, a missing or unused extension word. -/
theorem refused_words : [decodeTableWord 32 0xFF000000, decodeTableWord 32 0x8A040000, decodeTableWord 32 0x8A080000, decodeTableWord 32 0x8A000100,
    decodeTableWord 64 0x8A000001, decodeTableWord 32 0x9A03FF04, decodeTableWord 64 0x00000005B6000415, decodeTableWord 64 0x0000000EC1000001,
    decodeTableWord 64 0x00000003C3000001, decodeTableWord 64 0x0000001CC6012001, decodeTableWord 32 0xC6012000].all (fun r => r.isNone) = true := by
  decide +kernel

/-! ### Single steps, with results worked out from the rules -/

/-- Register `row` of lane `l` after an instruction, its predicate, and the gang. -/
def after (r : Ans) : State := match r with | .next t => t | _ => State.reset
def reg (r : Ans) (l row : Nat) : Nat := (((after r).group? 1).map fun G => (G.lane l).val row).getD 0
def pr (r : Ans) (l : Nat) (p : Prd) : Bool := (((after r).group? 1).map fun G => (G.lane l).pred p).getD false
def gangPc (r : Ans) : Option (Nat × Nat) := ((after r).group? 1).bind fun G => (G.gang? 4).map fun K => (K.pc, K.depth)
def cause (r : Ans) : Option Nat := ((after r).group? 1).bind fun G => (G.evs[0]?).map (·.cause)
/-- Lane 0's v8 and v9, lane 1's v8. -/
def s2 (a b c : Nat) : State := pG fun G => wr 0 8 a (wr 0 9 b (wr 1 8 c G))

/-- R121: bytes wrap alone, or stop at 0x7F. -/
theorem test_iadd_wraps : reg (exec (.iadd h0 .b .wrap 10 s8 (.reg s9)) (s2 0x01FF7F 0x010101 0)) 0 10 = 0x020080 := by decide +kernel
theorem test_iadd_saturates : reg (exec (.iadd h0 .b .sat 10 s8 (.reg s9)) (s2 0x01FF7F 0x010101 0)) 0 10 = 0x02007F := by decide +kernel
/-- R122: the high half of (2^64 − 1)^2, and of (−1) · (−1). -/
theorem test_imulhu : reg (exec (.imulhu h0 10 s8 (.reg s9)) (s2 (2 ^ 64 - 1) (2 ^ 64 - 1) 0)) 0 10 = 2 ^ 64 - 2 := by decide +kernel
theorem test_imulhs : reg (exec (.imulhs h0 10 s8 (.reg s9)) (s2 (2 ^ 64 - 1) (2 ^ 64 - 1) 0)) 0 10 = 0 := by decide +kernel
/-- R124: a shift by the width gives zero; SAR gives the sign. -/
theorem test_shl_width : reg (exec (.shl h0 .w 10 s8 (.reg s9)) (s2 0xFFFFFFFF00000001 0x0000001F00000020 0)) 0 10 = 0x8000000000000000 := by
  decide +kernel
theorem test_sar_width : reg (exec (.sar h0 .d 10 s8 (.reg s9)) (s2 (2 ^ 63) 64 0)) 0 10 = 2 ^ 64 - 1 := by decide +kernel
/-- R125: leading zeros of 1, and of 0. -/
theorem test_clz : reg (exec (.clz h0 10 s8) (s2 1 0 0)) 0 10 = 63 ∧ reg (exec (.clz h0 10 s9) (s2 1 0 0)) 0 10 = 64 := by decide +kernel
/-- R127: −1 is below 1 signed and above it unsigned. -/
theorem test_icmp : pr (exec (.icmp h0 .d .lt 3 s8 (.reg s9)) (s2 (2 ^ 64 - 1) 1 0)) 0 3 = true ∧
    pr (exec (.icmp h0 .d .ltu 3 s8 (.reg s9)) (s2 (2 ^ 64 - 1) 1 0)) 0 3 = false := by decide +kernel
/-- IEEE: 1 + 2^−24 is half way, and rounds to the even 1 or up to the next. -/
theorem test_fadd : reg (exec (.fadd h0 .s .rne 10 s8 (.reg s9)) (s2 0x3F800000 0x33800000 0)) 0 10 % 2 ^ 32 = 0x3F800000 := by decide +kernel
theorem test_fmul_inf : reg (exec (.fmul h0 .s .rne 10 s8 (.reg s9)) (s2 0x7F7FFFFF 0x40000000 0)) 0 10 % 2 ^ 32 = 0x7F800000 := by decide +kernel
/-- R115: rot(1) reads the next lane's register. -/
theorem test_rotation : reg (exec (.iadd h0 .d .wrap 10 s8p (.reg s9)) (s2 5 7 100)) 0 10 = 107 := by decide +kernel
/-- BALLOT collects lanes 0 and 2. -/
theorem test_ballot : reg (exec (.ballot h0 10 1) (pG fun G => pred 0 1 true (pred 2 1 true G))) 7 10 = 5 := by decide +kernel
/-- 0 − 1 wraps, in every lane. -/
theorem test_usub : reg (exec (.usub h0 10 8 (.reg 9)) (s2 0 1 9)) 7 10 = 2 ^ 64 - 1 := by decide +kernel
/-- CALL by k moves the window by 4k and goes to the target. -/
theorem test_call : gangPc (exec (.call h1 6 0x100) p0) = some (0x40404, 24) := by decide +kernel
theorem test_br_back : gangPc (exec (.br h1 0xFFFFFF) p0) = some (0x40000, 0) := by decide +kernel
/-- R155, R115: TRAP's cause, and ILLEGAL for a rotation that the group is too narrow for. -/
theorem test_trap : cause (exec (.trap h1 5) p0) = some 0x10 := by decide +kernel
theorem test_permutation_illegal : cause (exec (.popc h0 8 ⟨9, false, 8⟩) p0) = some 0x01 := by decide +kernel

/-! ### Decoding -/

theorem test_decode_lane_integer_1 :
    decodeTableWord 64 0x0006840801012AAD = some (.iadd ⟨false, 0, false, true⟩ .h .sat 9 ⟨10, true, 3⟩ (.reg ⟨11, false, 66⟩)) ∧
    decodeTableWord 64 0x90FFFFFE0703E101 = some (.isub ⟨false, 0, false, true⟩ .d .satu 31 ⟨1, false, 0⟩ (.imm .sext 0xFFFFFE)) ∧
    decodeTableWord 64 0xC00012340900A601 = some (.imul ⟨false, 0, false, true⟩ .w 5 ⟨6, false, 0⟩ (.imm .rep16 0x1234)) ∧
    decodeTableWord 32 0x0B00851A = some (.imulhu ⟨false, 0, false, false⟩ 4 ⟨5, false, 0⟩ (.reg ⟨6, true, 0⟩)) ∧
    decodeTableWord 32 0x0C008598 = some (.imulhs ⟨false, 0, false, false⟩ 4 ⟨5, true, 0⟩ (.reg ⟨6, false, 0⟩)) ∧
    decodeTableWord 64 0x320000000E010929 = some (.imad ⟨false, 0, false, true⟩ .d 8 ⟨9, false, 0⟩ ⟨10, false, 0⟩ ⟨12, true⟩) := by decide

theorem test_decode_lane_integer_2 :
    decodeTableWord 32 0x0F00220C = some (.imin ⟨false, 0, false, false⟩ .w 1 ⟨2, false, 0⟩ (.reg ⟨3, false, 0⟩)) ∧
    decodeTableWord 32 0x1200220C = some (.imax ⟨false, 0, false, false⟩ .d 1 ⟨2, false, 0⟩ (.reg ⟨3, false, 0⟩)) ∧
    decodeTableWord 32 0x1300220C = some (.andV ⟨false, 0, false, false⟩ 1 ⟨2, false, 0⟩ (.reg ⟨3, false, 0⟩)) ∧
    decodeTableWord 64 0x8000000714002201 = some (.orV ⟨false, 0, false, true⟩ 1 ⟨2, false, 0⟩ (.imm .sext 7)) ∧
    decodeTableWord 64 0x010200001500220D = some (.xorV ⟨false, 0, false, true⟩ 1 ⟨2, false, 129⟩ (.reg ⟨3, false, 0⟩)) ∧
    decodeTableWord 32 0x1700220C = some (.shl ⟨false, 0, false, false⟩ .d 1 ⟨2, false, 0⟩ (.reg ⟨3, false, 0⟩)) := by decide

theorem test_decode_lane_integer_3 :
    decodeTableWord 32 0x1800220C = some (.shr ⟨false, 0, false, false⟩ .w 1 ⟨2, false, 0⟩ (.reg ⟨3, false, 0⟩)) ∧
    decodeTableWord 32 0x1B00220C = some (.sar ⟨false, 0, false, false⟩ .d 1 ⟨2, false, 0⟩ (.reg ⟨3, false, 0⟩)) ∧
    decodeTableWord 32 0x1C002200 = some (.clz ⟨false, 0, false, false⟩ 1 ⟨2, false, 0⟩) ∧
    decodeTableWord 32 0x1D002280 = some (.popc ⟨false, 0, false, false⟩ 1 ⟨2, true, 0⟩) ∧
    decodeTableWord 64 0x1C0000001E00220D = some (.sel ⟨false, 0, false, true⟩ 7 1 ⟨2, false, 0⟩ ⟨3, false, 0⟩) ∧
    decodeTableWord 64 0x000000052001C20D = some (.icmp ⟨false, 0, false, true⟩ .d .leu 14 ⟨2, false, 0⟩ (.reg ⟨3, false, 0⟩)) := by decide

theorem test_decode_ligature_1 :
    decodeTableWord 64 0x0000001021014825 = some (.addl ⟨false, 0, false, true⟩ 2 10 ⟨8, false, 0⟩ ⟨9, false, 0⟩) ∧
    decodeTableWord 32 0x22014824 = some (.subl ⟨false, 0, false, false⟩ 0 10 ⟨8, false, 0⟩ ⟨9, false, 0⟩) ∧
    decodeTableWord 64 0x3000000823018851 = some (.macl ⟨false, 0, false, true⟩ 1 12 ⟨8, false, 0⟩ ⟨20, false, 0⟩ ⟨12, false⟩) ∧
    decodeTableWord 64 0x0000007824014825 = some (.shll ⟨false, 0, false, true⟩ 15 10 ⟨8, false, 0⟩ ⟨9, false, 0⟩) ∧
    decodeTableWord 32 0x25014824 = some (.shrl ⟨false, 0, false, false⟩ 0 10 ⟨8, false, 0⟩ ⟨9, false, 0⟩) ∧
    decodeTableWord 64 0x0000000426006825 = some (.cmpl ⟨false, 0, false, true⟩ .ltu 3 ⟨8, false, 0⟩ ⟨9, false, 0⟩) := by decide

theorem test_decode_ligature_2 :
    decodeTableWord 64 0x0000002027014801 = some (.negl ⟨false, 0, false, true⟩ 4 10 ⟨8, false, 0⟩) := by decide

theorem test_decode_lane_float_1 :
    decodeTableWord 64 0xA13FC0002A892801 = some (.fadd ⟨true, 1, false, true⟩ .s .rtz 9 ⟨8, false, 0⟩ (.imm .fp32 0x3FC000)) ∧
    decodeTableWord 64 0x000000022C01281D = some (.fsub ⟨false, 0, false, true⟩ .bf .rup 9 ⟨8, false, 0⟩ (.reg ⟨7, false, 0⟩)) ∧
    decodeTableWord 32 0x2E01281C = some (.fmul ⟨false, 0, false, false⟩ .h .rne 9 ⟨8, false, 0⟩ (.reg ⟨7, false, 0⟩)) ∧
    decodeTableWord 64 0x180000033301281D = some (.ffma ⟨false, 0, false, true⟩ .s .rdn 9 ⟨8, false, 0⟩ ⟨7, false, 0⟩ ⟨6, false⟩) ∧
    decodeTableWord 32 0x3501281C = some (.fmin ⟨false, 0, false, false⟩ .s 9 ⟨8, false, 0⟩ (.reg ⟨7, false, 0⟩)) ∧
    decodeTableWord 32 0x3601281C = some (.fmax ⟨false, 0, false, false⟩ .h 9 ⟨8, false, 0⟩ (.reg ⟨7, false, 0⟩)) := by decide

theorem test_decode_lane_float_2 :
    decodeTableWord 64 0x000000043901281D = some (.fcmp ⟨false, 0, false, true⟩ .s .unord 9 ⟨8, false, 0⟩ (.reg ⟨7, false, 0⟩)) ∧
    decodeTableWord 32 0x3A012800 = some (.frcp ⟨false, 0, false, false⟩ 9 ⟨8, false, 0⟩) ∧
    decodeTableWord 32 0x3B012800 = some (.frsq ⟨false, 0, false, false⟩ 9 ⟨8, false, 0⟩) ∧
    decodeTableWord 32 0x3C012800 = some (.fsqrt ⟨false, 0, false, false⟩ 9 ⟨8, false, 0⟩) ∧
    decodeTableWord 32 0x3D012800 = some (.fexp2 ⟨false, 0, false, false⟩ 9 ⟨8, false, 0⟩) ∧
    decodeTableWord 32 0x3E012800 = some (.flog2 ⟨false, 0, false, false⟩ 9 ⟨8, false, 0⟩) := by decide

theorem test_decode_lane_float_3 :
    decodeTableWord 32 0x3F012800 = some (.ftanh ⟨false, 0, false, false⟩ 9 ⟨8, false, 0⟩) ∧
    decodeTableWord 64 0x000000D840008501 = some (.cvt ⟨false, 0, false, true⟩ (.i2f true .i32) false .rne 4 ⟨5, false, 0⟩) ∧
    decodeTableWord 64 0x000000F940004301 = some (.cvt ⟨false, 0, false, true⟩ (.f2i true .i32) false .rtz 2 ⟨3, false, 0⟩) ∧
    decodeTableWord 64 0x0000013840004301 = some (.cvt ⟨false, 0, false, true⟩ (.ff .bf .s) true .rne 2 ⟨3, false, 0⟩) ∧
    decodeTableWord 64 0x1800001A41008501 = some (.cvtef ⟨false, 0, false, true⟩ .f8 false .rup 4 ⟨5, false, 0⟩ 6) := by decide

theorem test_decode_mean_and_cross_lane_1 :
    decodeTableWord 64 0x0000000842014501 = some (.tmacc ⟨false, 0, false, true⟩ true 10 ⟨5, false, 0⟩) ∧
    decodeTableWord 32 0x43014C00 = some (.tmred ⟨false, 0, false, false⟩ 10 ⟨12, false, 0⟩) ∧
    decodeTableWord 32 0x44016C80 = some (.tmfin ⟨false, 0, false, false⟩ 11 ⟨12, true, 0⟩) ∧
    decodeTableWord 64 0x000000104500220D = some (.xget ⟨false, 0, false, true⟩ .w 1 ⟨2, false⟩ ⟨3, false, 0⟩) ∧
    decodeTableWord 32 0x4600228C = some (.xgetu ⟨false, 0, false, false⟩ .b 1 ⟨2, true⟩ ⟨3, false, 0⟩) ∧
    decodeTableWord 64 0x000000304A002201 = some (.red ⟨false, 0, false, true⟩ .d 6 .rne 1 ⟨2, false, 0⟩) := by decide

theorem test_decode_mean_and_cross_lane_2 :
    decodeTableWord 64 0x000000034B002201 = some (.scan ⟨false, 0, false, true⟩ 0 .rdn 1 ⟨2, false, 0⟩) ∧
    decodeTableWord 64 0x800000094C000381 = some (.xsend ⟨false, 0, false, true⟩ 9 ⟨3, true⟩) ∧
    decodeTableWord 64 0x8000000F4D00E001 = some (.xrecv ⟨false, 0, false, true⟩ 15 7) ∧
    decodeTableWord 32 0x4E00EC00 = some (.ballot ⟨false, 0, false, false⟩ 7 12) ∧
    decodeTableWord 64 0x000000404F00220D = some (.plog ⟨false, 0, false, true⟩ 8 1 2 3) := by decide

theorem test_decode_flow_and_memory_1 :
    decodeTableWord 64 0x00FFE00950FC0601 = some (.brp ⟨true, 15, true, true⟩ 6 0xFFE 9) ∧
    decodeTableWord 32 0x51000000 = some (.join) ∧
    decodeTableWord 64 0x1800000054002301 = some (.ld ⟨false, 0, false, true⟩ .w 1 ⟨3, false⟩ ⟨0, 3, 0, 0, 0⟩) ∧
    decodeTableWord 64 0x640FFFF856008301 = some (.ld ⟨false, 0, false, true⟩ .q 4 ⟨3, false⟩ ⟨1, 4, 2, 0, 0xFFFF8⟩) ∧
    decodeTableWord 64 0x8A00000557000317 = some (.st ⟨false, 0, false, true⟩ .b ⟨3, false⟩ ⟨5, true⟩ ⟨2, 1, 1, 0, 5⟩) ∧
    decodeTableWord 64 0xD02000405C00C21D = some (.atom ⟨false, 0, false, true⟩ .w 6 ⟨2, false⟩ ⟨7, false⟩ ⟨3, 2, 0, 2, 0x40⟩) := by decide

theorem test_decode_flow_and_memory_2 :
    decodeTableWord 64 0x060000105F00C21D = some (.cxch ⟨false, 0, false, true⟩ 6 ⟨2, false⟩ ⟨7, false⟩ ⟨0, 0, 3, 0, 16⟩) ∧
    decodeTableWord 64 0x50B000046000C201 = some (.cldr ⟨false, 0, false, true⟩ 6 ⟨2, false⟩ ⟨1, 2, 0, 0xB, 4⟩) ∧
    decodeTableWord 32 0x80000000 = some (.nop ⟨false, 0, false, false⟩) ∧
    decodeTableWord 64 0x00FFFFFB81000001 = some (.br ⟨false, 0, false, true⟩ 0xFFFFFB) ∧
    decodeTableWord 64 0x0300001082000401 = some (.brc ⟨false, 0, false, true⟩ 3 4 16) ∧
    decodeTableWord 64 0x0000000283000501 = some (.brany ⟨false, 0, false, true⟩ 5 2) := by decide

theorem test_decode_flow_and_memory_3 :
    decodeTableWord 64 0x0000000284000501 = some (.brall ⟨false, 0, false, true⟩ 5 2) ∧
    decodeTableWord 32 0x85000900 = some (.jmpr ⟨false, 0, false, false⟩ 9) ∧
    decodeTableWord 64 0x1800006486000001 = some (.call ⟨false, 0, false, true⟩ 6 100) ∧
    decodeTableWord 64 0x0400000087000901 = some (.callr ⟨false, 0, false, true⟩ 1 9) ∧
    decodeTableWord 32 0x88000000 = some (.ret ⟨false, 0, false, false⟩) ∧
    decodeTableWord 64 0x00FFFFF089012001 = some (.loop ⟨false, 0, false, true⟩ 9 0xFFFFF0) := by decide

theorem test_decode_flow_and_memory_4 :
    decodeTableWord 32 0x8A000000 = some (.exit ⟨false, 0, false, false⟩) ∧
    decodeTableWord 64 0x001234568B000001 = some (.trap ⟨false, 0, false, true⟩ 0x123456) ∧
    decodeTableWord 32 0x8C000000 = some (.yield ⟨false, 0, false, false⟩) := by decide

theorem test_decode_uniform_integer_1 :
    decodeTableWord 32 0x8D003454 = some (.uadd ⟨false, 0, false, false⟩ 1 20 (.reg 21)) ∧
    decodeTableWord 32 0x8E005454 = some (.usub ⟨false, 0, false, false⟩ 2 20 (.reg 21)) ∧
    decodeTableWord 32 0x8F007454 = some (.umul ⟨false, 0, false, false⟩ 3 20 (.reg 21)) ∧
    decodeTableWord 32 0x90009454 = some (.uand ⟨false, 0, false, false⟩ 4 20 (.reg 21)) ∧
    decodeTableWord 32 0x9100B454 = some (.uor ⟨false, 0, false, false⟩ 5 20 (.reg 21)) ∧
    decodeTableWord 32 0x9200D454 = some (.uxor ⟨false, 0, false, false⟩ 6 20 (.reg 21)) := by decide

theorem test_decode_uniform_integer_2 :
    decodeTableWord 32 0x9300F454 = some (.ushl ⟨false, 0, false, false⟩ 7 20 (.reg 21)) ∧
    decodeTableWord 32 0x94011454 = some (.ushr ⟨false, 0, false, false⟩ 8 20 (.reg 21)) ∧
    decodeTableWord 32 0x95013454 = some (.usar ⟨false, 0, false, false⟩ 9 20 (.reg 21)) ∧
    decodeTableWord 64 0x08FFFFFF8D006401 = some (.uadd ⟨false, 0, false, true⟩ 3 4 (.imm 0xFFFFFF)) ∧
    decodeTableWord 64 0x0400000096004701 = some (.ucmp ⟨false, 0, false, true⟩ .ltu 2 7 (.reg 0)) ∧
    decodeTableWord 64 0x0800000597012001 = some (.umov ⟨false, 0, false, true⟩ 9 (.imm 5)) := by decide

theorem test_decode_uniform_integer_3 :
    decodeTableWord 32 0x9800220C = some (.umin ⟨false, 0, false, false⟩ 1 2 (.reg 3)) ∧
    decodeTableWord 32 0x9900220C = some (.umax ⟨false, 0, false, false⟩ 1 2 (.reg 3)) ∧
    decodeTableWord 32 0x9A002200 = some (.rdfl ⟨false, 0, false, false⟩ 1 2) ∧
    decodeTableWord 64 0x050000119B00220D = some (.macroOp ⟨false, 0, false, true⟩ 5 1 2 3 17) ∧
    decodeTableWord 64 0x3F0000209C000901 = some (.mdef ⟨false, 0, false, true⟩ 63 32 9) := by decide

theorem test_decode_synchronisation_and_pool_1 :
    decodeTableWord 64 0x0000000F9D000001 = some (.bar ⟨false, 0, false, true⟩ 15) ∧
    decodeTableWord 32 0x9E000400 = some (.monitor ⟨false, 0, false, false⟩ 4) ∧
    decodeTableWord 32 0x9F000400 = some (.mwait ⟨false, 0, false, false⟩ 4) ∧
    decodeTableWord 64 0x00000000A0000001 = some (.fenceAcq ⟨false, 0, false, true⟩ 0) ∧
    decodeTableWord 64 0x01000001A0000001 = some (.fenceRel ⟨false, 0, false, true⟩ 1) ∧
    decodeTableWord 64 0x02000002A0000001 = some (.fenceAr ⟨false, 0, false, true⟩ 2) := by decide

theorem test_decode_synchronisation_and_pool_2 :
    decodeTableWord 64 0x03000003A0000001 = some (.fenceSc ⟨false, 0, false, true⟩ 3) ∧
    decodeTableWord 64 0x04000004A0000001 = some (.fenceEng ⟨false, 0, false, true⟩ 4) ∧
    decodeTableWord 32 0xA1006400 = some (.pset ⟨false, 0, false, false⟩ 3 4) ∧
    decodeTableWord 32 0xA2006400 = some (.pqry ⟨false, 0, false, false⟩ 3 4) ∧
    decodeTableWord 64 0x01004000A3000311 = some (.smap ⟨false, 0, false, true⟩ true 16384 3 4) ∧
    decodeTableWord 32 0xA4000300 = some (.sunmap ⟨false, 0, false, false⟩ 3) := by decide

theorem test_decode_synchronisation_and_pool_3 :
    decodeTableWord 64 0x1A000064A5018311 = some (.hres ⟨false, 0, false, true⟩ false 5 true 12 100 3 4) ∧
    decodeTableWord 32 0xA600E000 = some (.hevict ⟨false, 0, false, false⟩ 7) ∧
    decodeTableWord 32 0xA7010000 = some (.hdemote ⟨false, 0, false, false⟩ 8) ∧
    decodeTableWord 64 0x04000000A8006415 = some (.copy ⟨false, 0, false, true⟩ 2 3 4 5) ∧
    decodeTableWord 64 0x0300000BA8006415 = some (.copyHeld ⟨false, 0, false, true⟩ 1 11 3 4 5) ∧
    decodeTableWord 64 0x04000000A9000901 = some (.publish ⟨false, 0, false, true⟩ 4 9) := by decide

theorem test_decode_synchronisation_and_pool_4 :
    decodeTableWord 64 0x01000D8AAA000311 = some (.bin ⟨false, 0, false, true⟩ true 10 54 3 4) ∧
    decodeTableWord 32 0xAB000900 = some (.release ⟨false, 0, false, false⟩ 9) ∧
    decodeTableWord 64 0x03000000CB000415 = some (.cwb ⟨false, 0, false, true⟩ 3 4 5) ∧
    decodeTableWord 64 0x02000000CC000415 = some (.cinv ⟨false, 0, false, true⟩ 2 4 5) ∧
    decodeTableWord 32 0xCD000414 = some (.attrInv ⟨false, 0, false, false⟩ 4 5) ∧
    decodeTableWord 64 0x01000002CD000415 = some (.attrCc ⟨false, 0, false, true⟩ 2 4 5) := by decide

theorem test_decode_synchronisation_and_pool_5 :
    decodeTableWord 64 0x02000001CD000415 = some (.attrCpol ⟨false, 0, false, true⟩ 1 4 5) ∧
    decodeTableWord 64 0x03000003CD000415 = some (.attrLc ⟨false, 0, false, true⟩ 3 4 5) := by decide

theorem test_decode_matrix_and_collectives_1 :
    decodeTableWord 64 0x4E000000AC002415 = some (.mxres ⟨false, 0, false, true⟩ 1 true 2 9 4 5) ∧
    decodeTableWord 32 0xAD00E000 = some (.mxfree ⟨false, 0, false, false⟩ 7) ∧
    decodeTableWord 64 0x36456123B100220D = some (.mma ⟨false, 0, false, true⟩ .i8 1 2 3 true false true 6 0x123 0x456) ∧
    decodeTableWord 64 0x02000000B2002401 = some (.mxld ⟨false, 0, false, true⟩ 1 2 4) ∧
    decodeTableWord 64 0x0E000017B3002401 = some (.mxst ⟨false, 0, false, true⟩ 1 2 true 1 true 7 4) ∧
    decodeTableWord 32 0xB4004000 = some (.mxzero ⟨false, 0, false, false⟩ 2) := by decide +kernel

theorem test_decode_matrix_and_collectives_2 :
    decodeTableWord 32 0xB500A600 = some (.cgrp ⟨false, 0, false, false⟩ 5 6) ∧
    decodeTableWord 64 0x00FFFFFCB600A61D = some (.cag ⟨false, 0, false, true⟩ 5 6 7 16777212) ∧
    decodeTableWord 64 0x0B000001B700A61D = some (.crs ⟨false, 0, false, true⟩ 5 11 6 7 1) ∧
    decodeTableWord 64 0x00000004B800A61D = some (.ca2a ⟨false, 0, false, true⟩ 5 6 7 4) ∧
    decodeTableWord 32 0xB9006000 = some (.cbar ⟨false, 0, false, false⟩ 3) ∧
    decodeTableWord 32 0xBA012300 = some (.cstat ⟨false, 0, false, false⟩ 9 3) := by decide

theorem test_decode_graph_and_system_1 :
    decodeTableWord 32 0xBB000414 = some (.gspaceBind ⟨false, 0, false, false⟩ 4 5) ∧
    decodeTableWord 64 0x01000000BB000415 = some (.gspaceUnbind ⟨false, 0, false, true⟩ 4 5) ∧
    decodeTableWord 64 0x00002F81BC000415 = some (.gload ⟨false, 0, false, true⟩ 95 1 4 5) ∧
    decodeTableWord 64 0x365F5AA5BD000415 = some (.gset ⟨false, 0, false, true⟩ true 2 6 0xA5 0x5A 95 4 5) ∧
    decodeTableWord 64 0x00ABCDEFBE000415 = some (.gprop ⟨false, 0, false, true⟩ 0xABCDEF 4 5) ∧
    decodeTableWord 64 0x0B0003E8BF000415 = some (.gcoll ⟨false, 0, false, true⟩ true 3 1000 4 5) := by decide

theorem test_decode_graph_and_system_2 :
    decodeTableWord 64 0x0B002211C0000415 = some (.gclr ⟨false, 0, false, true⟩ true 3 0x11 0x22 4 5) ∧
    decodeTableWord 64 0x00000013C1000001 = some (.tmshape ⟨false, 0, false, true⟩ 0x13) ∧
    decodeTableWord 64 0x00000002C2000901 = some (.tmload ⟨false, 0, false, true⟩ 2 9) ∧
    decodeTableWord 64 0x00000040C3000001 = some (.lig ⟨false, 0, false, true⟩ 64) ∧
    decodeTableWord 32 0xC4000000 = some (.unlig ⟨false, 0, false, false⟩) ∧
    decodeTableWord 32 0xC5000900 = some (.spawn ⟨false, 0, false, false⟩ 9) := by decide

theorem test_decode_graph_and_system_3 :
    decodeTableWord 64 0x0000001BC6012001 = some (.rdsr ⟨false, 0, false, true⟩ 0x1B 9) ∧
    decodeTableWord 64 0x00000006C7000901 = some (.wrsrGstat ⟨false, 0, false, true⟩ 9) ∧
    decodeTableWord 64 0x00000009C7000301 = some (.wrsrTmshape ⟨false, 0, false, true⟩ 3) ∧
    decodeTableWord 64 0x00000008C7000901 = some (.wrsrPoolmap ⟨false, 0, false, true⟩ 9) ∧
    decodeTableWord 64 0x00000013C7000901 = some (.wrsrLease ⟨false, 0, false, true⟩ 3 9) ∧
    decodeTableWord 64 0x00000019C7000901 = some (.wrsr ⟨false, 0, false, true⟩ 0x19 9) := by decide

theorem test_decode_graph_and_system_4 :
    decodeTableWord 32 0xC8000000 = some (.eret ⟨false, 0, false, false⟩) ∧
    decodeTableWord 32 0xC9012000 = some (.tick ⟨false, 0, false, false⟩ 9) ∧
    decodeTableWord 64 0x000000FCCA000001 = some (.wspill ⟨false, 0, false, true⟩ 252) ∧
    decodeTableWord 64 0x00000004CE000001 = some (.wfill ⟨false, 0, false, true⟩ 4) := by decide

end Sys2Proof.Tests
end

section
/-! The lane instructions whose effect is one register or one predicate of every active lane: what each of the shared
operand forms leaves where it traps and faults nowhere. -/

namespace Sys2Proof.Machine

section
variable {s : State} {x : Cur}

/-- A lane operation whose result is one register. -/
theorem runLane_sets {op : LaneOp} (F : Form) {d : Reg} {v : Nat → Nat} (hc : cur s = some x) (hp : op.perms = F.perms)
    (hfr : op.frees = F.frees) (hrd : ∀ l, op.reads x.G x.K l = F.reads l) (hr : LaneRuns x op.hd F)
    (he : ∀ l, op.eff x.G x.K (actMask x.G x.K op.hd) l = .reg (rowOf x.K.depth d) (v l)) :
    runLane op s = laneSets s x op.hd F d v :=
  runLane_plain F _ hc hp hfr hrd hr (fun l => by rw [he]; rfl) (fun l => by rw [he]; rfl) fun l L => by rw [he]; rfl

/-- A lane operation whose result is one predicate. -/
theorem runLane_setsP {op : LaneOp} (F : Form) {p : Prd} {v : Nat → Bool} (hc : cur s = some x) (hp : op.perms = F.perms)
    (hfr : op.frees = F.frees) (hrd : ∀ l, op.reads x.G x.K l = F.reads l) (hr : LaneRuns x op.hd F)
    (he : ∀ l, op.eff x.G x.K (actMask x.G x.K op.hd) l = .prd p (v l)) :
    runLane op s = laneSetsP s x op.hd F p v :=
  runLane_plain F _ hc hp hfr hrd hr (fun l => by rw [he]; rfl) (fun l => by rw [he]; rfl) fun l L => by rw [he]; rfl

/-- A lane operation whose result is two registers, the one at row `q` written last. -/
theorem runLane_setsTwo {op : LaneOp} (F : Form) {p q : Nat} {v w : Nat → Nat} (hc : cur s = some x) (hp : op.perms = F.perms)
    (hfr : op.frees = F.frees) (hrd : ∀ l, op.reads x.G x.K l = F.reads l) (hr : LaneRuns x op.hd F)
    (he : ∀ l, op.eff x.G x.K (actMask x.G x.K op.hd) l = ⟨[(p, v l), (q, w l)], [], false, none⟩) :
    runLane op s = laneEnd s x op.hd F false fun l L => (L.set p (v l)).set q (w l) :=
  runLane_plain F _ hc hp hfr hrd hr (fun l => by rw [he]) (fun l => by rw [he]) fun l L => by rw [he]; rfl

/-- R115 with sources a and b. -/
theorem runLane_laneAB {i : Instr} {h : Hd} {w used : Nat} {d : Reg} {a : Src} {b : BOp} (f : Group → Nat → Nat → Nat)
    (hc : cur s = some x) (hr : LaneRuns x h (formAB x a b used)) :
    runLane (laneAB i h w used d a b f) s =
      laneSets s x h (formAB x a b used) d fun l => f x.G (srcV x.G x.K l a) (bsrcV x.G x.K l w b) :=
  runLane_sets (op := laneAB i h w used d a b f) _ hc rfl rfl (fun _ => rfl) hr fun _ => rfl

/-- R115 with sources a, b and c. -/
theorem runLane_laneABC {i : Instr} {h : Hd} {d : Reg} {a b : Src} {c : RL} (f : Group → Nat → Nat → Nat → Nat)
    (hc : cur s = some x) (hr : LaneRuns x h (formABC x a b c)) :
    runLane (laneABC i h d a b c f) s = laneSets s x h (formABC x a b c) d fun l =>
      f x.G (srcV x.G x.K l a) (srcV x.G x.K l b) (ownV x.G x.K l c.r) :=
  runLane_sets (op := laneABC i h d a b c f) _ hc rfl rfl (fun _ => rfl) hr fun _ => rfl

/-- R115 with source a alone. -/
theorem runLane_laneA {i : Instr} {h : Hd} {used : Nat} {d : Reg} {a : Src} (f : Group → Nat → Nat)
    (hc : cur s = some x) (hr : LaneRuns x h (formA x a used)) :
    runLane (laneA i h used d a f) s = laneSets s x h (formA x a used) d fun l => f x.G (srcV x.G x.K l a) :=
  runLane_sets (op := laneA i h used d a f) _ hc rfl rfl (fun _ => rfl) hr fun _ => rfl

end

/-! ### Float instructions and conversions (R98–R100, R131, R132, R134) -/

/-- Settles O4: every one of these instructions is one of the operand forms of R115, but CVTEF, which writes two registers. -/
theorem laneFloatAndConversionResults : Obligations.LaneFloatAndConversionResults := by
  unfold Obligations.LaneFloatAndConversionResults
  refine ⟨fun s x h d a b b' c hc => ⟨fun hr t m => ?sourcesAB, fun hr t m => ?ffma, fun hr => ?special⟩,
    fun s x h d c a nan m hc => ⟨fun k hr => ?cvt, fun dst hr => ?cvtef⟩⟩
  case sourcesAB => and_intros <;> exact congrArg _ (runLane_laneAB _ hc hr)
  case ffma => exact congrArg _ (runLane_laneABC _ hc hr)
  case special => and_intros <;> exact congrArg _ (runLane_laneA _ hc hr)
  case cvt => exact congrArg _ (runLane_laneA _ hc hr)
  case cvtef =>
    exact congrArg _ (runLane_setsTwo (op := laneCvtef h dst nan m d a c) _ hc rfl rfl (fun _ => rfl) hr fun _ => rfl)

end Sys2Proof.Machine
end

section
/-! The transformed mean and the cross-lane instructions (R110, R112, R113, R136–R141) where they trap and fault nowhere. -/

namespace Sys2Proof.Machine

section
variable {s : State} {x : Cur}

/-! ### Transformed mean -/

/-- R136: an instruction of the transformed mean whose pair no TMLOAD is loading runs on the tables in force. -/
theorem runTm_runs {op : Tab → LaneOp} (hc : cur s = some x) (hb : tmBusy s x.G = false) :
    runTm op s = runLane (op (tabOf (s.core x.G.geo.core) x.G.tmshape)) s := by
  simp [runTm, onCur, hc, hb]

/-- A pair after TMACC has added the low element of `v`, and with `both` then the high one, and whether a term met a domain fault. -/
def tmAccs (sh : Nat) (T : Tab) (both : Bool) (p : TX) (v : Nat) : TX × Bool :=
  let r1 := tmAcc sh T p (v % 2 ^ 32)
  let r2 := tmAcc sh T r1.1 (v / 2 ^ 32)
  if both then (r2.1, r1.2 || r2.2) else r1

/-- The pair that a lane holds in registers r and r + 1. -/
def txOwn (x : Cur) (l : Nat) (r : Reg) : TX := txOfRegs (ownV x.G x.K l r) (ownV x.G x.K l (r + 1))

/-- TMACC in one lane (R110, R136). -/
theorem laneTmacc_eff {T : Tab} {h : Hd} {both : Bool} {d : Reg} {a : Src} {act l : Nat} :
    (laneTmacc T h both d a).eff x.G x.K act l =
      let r := tmAccs x.G.tmshape T both (txOwn x l d) (srcV x.G x.K l a)
      let y := tmCanon x.G.tmshape r.1
      if r.2 && tmTrap x.G then .flt 0x0F
      else { LaneRes.pair (rowOf x.K.depth d) (txLo y) (txHi y) with domf := r.2 } := by
  cases both
  case true => rfl
  case false => simp only [laneTmacc, tmAccs, txOwn, Bool.false_eq_true, if_false, Bool.or_false]

/-- The same where no domain fault traps. -/
theorem laneTmacc_eff_noTrap {T : Tab} {h : Hd} {both : Bool} {d : Reg} {a : Src} {act l : Nat}
    (ht : (tmAccs x.G.tmshape T both (txOwn x l d) (srcV x.G x.K l a)).2 = true → tmTrap x.G = false) :
    (laneTmacc T h both d a).eff x.G x.K act l =
      let r := tmAccs x.G.tmshape T both (txOwn x l d) (srcV x.G x.K l a)
      let y := tmCanon x.G.tmshape r.1
      { LaneRes.pair (rowOf x.K.depth d) (txLo y) (txHi y) with domf := r.2 } := by
  have noTrap : ((tmAccs x.G.tmshape T both (txOwn x l d) (srcV x.G x.K l a)).2 && tmTrap x.G) = false := by
    simpa only [Bool.and_eq_false_imp] using ht
  simp only [laneTmacc_eff, noTrap, Bool.false_eq_true, if_false]

/-- R136, R110: TMACC. -/
theorem runLane_laneTmacc {T : Tab} {h : Hd} {both : Bool} {d : Reg} {a : Src} (F : Form) (hc : cur s = some x)
    (hp : F.perms = [a.perm]) (hfr : F.frees = srcFrees a)
    (hrd : ∀ l, F.reads l = (laneTmacc T h both d a).reads x.G x.K l) (hr : LaneRuns x h F)
    (ht : ∀ l, (tmAccs x.G.tmshape T both (txOwn x l d) (srcV x.G x.K l a)).2 = true → tmTrap x.G = false) :
    runLane (laneTmacc T h both d a) s =
      let r (l : Nat) := tmAccs x.G.tmshape T both (txOwn x l d) (srcV x.G x.K l a)
      laneEnd s x h F ((bitsOf (actMask x.G x.K h) 64).any fun l => (r l).2) fun l L =>
        (L.set (rowOf x.K.depth d) (txLo (tmCanon x.G.tmshape (r l).1))).set (rowOf x.K.depth d + 1)
          (txHi (tmCanon x.G.tmshape (r l).1)) := by
  rw [runLane_runs (op := laneTmacc T h both d a) F hc hp.symm hfr.symm (fun l => (hrd l).symm) hr
    fun l => by rw [laneTmacc_eff_noTrap (ht l)]; rfl]
  simp only [laneTmacc_eff_noTrap (ht _)]
  rfl

end

/-- Settles O5: TMACC is the one instruction here with a domain fault; each other one writes a register, a pair or a predicate
whose value its operation states. -/
theorem meanAndCrossLaneResults : Obligations.MeanAndCrossLaneResults := by
  unfold Obligations.MeanAndCrossLaneResults
  refine ⟨fun s x h d a hc hb => ⟨fun both hr ht => ?tmacc, fun hr => ⟨?tmred, ?tmfin⟩⟩,
    fun s x h d hc => ⟨fun a hr => ⟨fun t op m => ?red, fun op m => ?scan⟩, fun t a b hr => ⟨?xget, ?xgetu⟩,
      fun hr p pa pb => ⟨?ballot, fun tt => ?plog⟩⟩⟩
  case tmacc =>
    exact congrArg _ ((runTm_runs hc hb).trans (runLane_laneTmacc _ hc rfl rfl (fun _ => rfl) hr ht))
  case tmred =>
    exact congrArg _ ((runTm_runs hc hb).trans (runLane_setsTwo
      (op := laneTmred (tabOf (s.core x.G.geo.core) x.G.tmshape) h d a) _ hc rfl rfl (fun _ => rfl) hr fun _ => rfl))
  case tmfin =>
    exact congrArg _ ((runTm_runs hc hb).trans (runLane_sets
      (op := laneTmfin (tabOf (s.core x.G.geo.core) x.G.tmshape) h d a) _ hc rfl rfl (fun _ => rfl) hr fun _ => rfl))
  case red =>
    exact congrArg _ (runLane_sets (op := laneRed h t op m d a) _ hc rfl rfl (fun _ => rfl) hr fun _ => rfl)
  case scan =>
    exact congrArg _ (runLane_sets (op := laneScan h op m d a) _ hc rfl rfl (fun _ => rfl) hr fun _ => rfl)
  case xget =>
    exact congrArg _ (runLane_sets (op := laneXget h t d a b) _ hc rfl rfl (fun _ => rfl) hr fun _ => rfl)
  case xgetu =>
    exact congrArg _ (runLane_sets (op := laneXgetu h t d a b) _ hc rfl rfl (fun _ => rfl) hr fun _ => rfl)
  case ballot =>
    exact congrArg _ (runLane_sets (op := laneBallot h d p) _ hc rfl rfl (fun _ => rfl) hr fun _ => rfl)
  case plog =>
    exact congrArg _ (runLane_setsP (op := lanePlog h tt p pa pb) _ hc rfl rfl (fun _ => rfl) hr fun _ => rfl)

end Sys2Proof.Machine
end

section
/-! The matrix instructions as they issue (R274, R279–R285). -/

namespace Sys2Proof.Machine

/-- R76: the opcode of an instruction word. -/
theorem iw_opc {opc d a b : Nat} {h : Hd} {la lb : Bool} (ho : opc < 256) (hd : d < 32) (ha : a < 32) (hb : b < 32) :
    iw opc h d a la b lb / 2 ^ 24 % 256 = opc :=
  congrArg Fields.opc (Laws.ofWords_iw (e := 0) ho hd ha hb (by decide) fun _ => rfl)

section
variable {s : State} {x : Cur}

/-! ### Checks of uniform instructions that need the whole group (R52, R90) -/

/-! `readCur` leaves the gang on its port, with FREEDREAD in its group's GSTAT and nothing else changed. -/

@[simp] theorem readCur_g (rs : List Reg) : (readCur x rs).g = x.g := rfl
@[simp] theorem readCur_K (rs : List Reg) : (readCur x rs).K = x.K := rfl
@[simp] theorem readCur_nil : readCur x [] = x := rfl
@[simp] theorem readCur_geo (rs : List Reg) : (readCur x rs).G.geo = x.G.geo := Group.stickIf_geo _ _ _
@[simp] theorem readCur_lane (rs : List Reg) (l : Nat) : (readCur x rs).G.lane l = x.G.lane l := by
  simp only [readCur, uniRead, Group.lane, Group.stickIf_lanes]
@[simp] theorem readCur_od (rs : List Reg) (k : Nat) : (readCur x rs).G.od k = x.G.od k := by
  simp only [readCur, uniRead]
  cases rs.any (uFreed x) <;> rfl
@[simp] theorem uVal_readCur (rs : List Reg) (r : Reg) : uVal (readCur x rs) r = uVal x r := uVal_read x rs r
@[simp] theorem mxSel_readCur (rs : List Reg) (pe : Bool) (pk : Prd) : mxSel (readCur x rs) pe pk = mxSel x pe pk := by
  simp only [mxSel, readCur_K, readCur_lane]
@[simp] theorem regionOf_readCur (rs : List Reg) : s.regionOf (readCur x rs).G = s.regionOf x.G := by
  simp only [State.regionOf, readCur_geo]

theorem opIll_none {h : Hd} {os : List Reg} {c : Cur → Bool} (hc : c x = false) : opIll h os c x = none := by
  simp [opIll, hc]
theorem opIll_some {h : Hd} {os : List Reg} {c : Cur → Bool} (hg : uniGuard x.G x.K h = true) (ho : uBad x os = none)
    (hc : c x = true) : opIll h os c x = some (0x01, !os.isEmpty) := by
  simp [opIll, hg, ho, hc]
theorem wholePre_none (hw : x.K.slices = x.G.unretired) : wholePre x = none := by
  simp [wholePre, mxSplit, hw]

/-- Where no check fails, the effect is that of the gang as its reads leave it. -/
theorem runU_passes {ll : Bool} {i : Instr} {h : Hd} {pre : Pre} {rs : List Reg} {f : Cur → State} (hw : WholeRuns s x h rs)
    (hp : pre x = none) : runU ll i h pre rs s f = f (readCur x rs) :=
  runU_runs hw.1 hp hw.2.1

/-- A check that fails traps (R90). -/
theorem runU_traps {ll : Bool} {i : Instr} {h : Hd} {pre : Pre} {rs : List Reg} {f : Cur → State} {c : Nat} {rd : Bool}
    (hc : cur s = some x) (hp : pre x = some (c, rd)) :
    runU ll i h pre rs s f = s.trapFreed x (rd && rs.any (uFreed x)) c i.opc := by
  simp [runU, onCur, hc, hp]

/-- An instruction that runs with its whole group, and whose operands are legal, has its effect. -/
theorem runU_whole {ll : Bool} {i : Instr} {h : Hd} {os rs : List Reg} {c : Cur → Bool} {f : Cur → State}
    (hw : WholeRuns s x h rs) (hi : c x = false) :
    runU ll i h (Pre.and (opIll h os c) wholePre) rs s f = f (readCur x rs) :=
  runU_passes hw (by simp only [Pre.and, opIll_none hi, wholePre_none hw.2.2])

/-- One whose operands are illegal traps, before the check of the whole group. -/
theorem runU_illegal {ll : Bool} {i : Instr} {h : Hd} {os rs : List Reg} {c : Cur → Bool} {q : Pre} {f : Cur → State}
    (hw : WholeRuns s x h rs) (ho : uBad x os = none) (hi : c x = true) :
    runU ll i h (Pre.and (opIll h os c) q) rs s f = s.trapFreed x (!os.isEmpty && rs.any (uFreed x)) 0x01 i.opc := by
  obtain ⟨hc, ⟨hg, -⟩, -⟩ := hw
  exact runU_traps hc (by simp only [Pre.and, opIll_some hg ho hi])

/-! ### MXRES (R279, R280) -/

/-- The record that MXRES reads from registers a and c. -/
def mxresRec (x : Cur) (rv : Bool) (rc : BitVec 2) (a c : Reg) : OdRec := ⟨uVal x a, uVal x c, rv, rc.toNat, false⟩
/-- MXRES is ILLEGAL: its record breaks a rule of R279, or its descriptor is in use. -/
def mxresBad (x : Cur) (od : BitVec 3) (rv : Bool) (rc : BitVec 2) (a c : Reg) : Bool :=
  odIllegal (mxresRec x rv rc a c) x.G.geo.w x.G.geo.core || (x.G.od od.toNat).isSome

variable {h : Hd} {od : BitVec 3} {rv : Bool} {rc : BitVec 2} {pk : Prd} {a c : Reg}

theorem opc_mxres : (Instr.mxres h od rv rc pk a c).opc = 0xAC :=
  iw_opc (by decide) (by have := od.isLt; omega) a.isLt c.isLt

theorem exec_mxres_illegal (hw : WholeRuns s x h [a, c]) (hb : mxresBad x od rv rc a c = true) :
    exec (.mxres h od rv rc pk a c) s = .next (s.trapFreed x (uFreed x a || uFreed x c) 0x01 0xAC) := by
  refine congrArg Host.Outcome.next ?_
  simp only [mxresF, runUni]
  rw [runU_illegal hw hw.2.1.2 hb, opc_mxres]
  simp

/-- What a legal MXRES does: a local record that finds no room is refused, and any other one is held by the descriptor, a local
one's MX lines reading zero. -/
theorem exec_mxres_legal (hw : WholeRuns s x h [a, c]) (hb : mxresBad x od rv rc a c = false) :
    exec (.mxres h od rv rc pk a c) s = .next (
      let y := readCur x [a, c]
      let r := mxresRec x rv rc a c
      if !rv && odRefused s y.G r then s.doneP y h (y.G.uPutPred x.K pk false)
      else (if rv then s else s.onCore x.G.geo.core fun k => k.mxZero r.off r.len).doneP y h
        ((y.G.setOd od.toNat (some r)).uPutPred x.K pk true)) := by
  refine congrArg Host.Outcome.next ?_
  simp only [mxresF, runUni]
  rw [runU_passes hw (by rw [Pre.and, opIll_none hb, Pre.read, wholePre_none hw.2.2]; rfl)]
  simp only [mxresRec, uVal_readCur, readCur_geo, readCur_K]
  rfl

/-! ### MXFREE and MXZERO (R281, R282) -/

theorem exec_mxfree_waits (hw : WholeRuns s x h []) (hn : s.mxNamed x.g od.toNat = true) :
    exec (.mxfree h od) s = .next s.popPort := by
  refine congrArg Host.Outcome.next ?_
  simp only [mxfreeF, runUni]
  rw [runU_passes hw (wholePre_none hw.2.2)]
  exact if_pos hn

/-- MXFREE of a bound descriptor that no operation names: a local record's lines read zero. -/
theorem exec_mxfree_bound (hw : WholeRuns s x h []) (hn : s.mxNamed x.g od.toNat = false) {r : OdRec}
    (ho : x.G.od od.toNat = some r) :
    exec (.mxfree h od) s = .next ((if r.rv then s else s.onCore x.G.geo.core fun k => k.mxZero r.off r.len).doneP x h
      (x.G.setOd od.toNat none)) := by
  refine congrArg Host.Outcome.next ?_
  simp only [mxfreeF, runUni]
  rw [runU_passes hw (wholePre_none hw.2.2)]
  simp only [readCur_nil, hn, ho, Bool.false_eq_true, if_false]

theorem exec_mxfree_unbound (hw : WholeRuns s x h []) (hn : s.mxNamed x.g od.toNat = false) (ho : x.G.od od.toNat = none) :
    exec (.mxfree h od) s = .next (s.doneP x h x.G) := by
  refine congrArg Host.Outcome.next ?_
  simp only [mxfreeF, runUni]
  rw [runU_passes hw (wholePre_none hw.2.2)]
  simp only [readCur_nil, hn, ho, Bool.false_eq_true, if_false]

theorem exec_mxzero_unbound (hw : WholeRuns s x h []) (hn : s.mxNamed x.g od.toNat = false) (ho : x.G.od od.toNat = none) :
    exec (.mxzero h od) s = .next (s.doneP x h x.G) := by
  refine congrArg Host.Outcome.next ?_
  simp only [mxzeroF, runUni]
  rw [runU_whole hw (by rw [ho]; rfl)]
  simp only [readCur_nil, hn, ho, Bool.false_eq_true, if_false]

theorem exec_mxzero_remote (hw : WholeRuns s x h []) {r : OdRec} (ho : x.G.od od.toNat = some r) (hv : r.rv = true) :
    exec (.mxzero h od) s = .next (s.trap x 0x01 (Instr.mxzero h od).opc) := by
  refine congrArg Host.Outcome.next ?_
  simp only [mxzeroF, runUni]
  rw [runU_illegal hw rfl (by rw [ho]; exact hv)]
  rfl

theorem exec_mxzero_local (hw : WholeRuns s x h []) (hn : s.mxNamed x.g od.toNat = false) {r : OdRec}
    (ho : x.G.od od.toNat = some r) (hv : r.rv = false) (hm : s.odMoving x.G.geo.core r = false) :
    exec (.mxzero h od) s = .next ((s.onCore x.G.geo.core fun k => k.mxZero r.off r.len).doneP x h
      (x.G.setOd od.toNat (some { r with spoiled := false }))) := by
  refine congrArg Host.Outcome.next ?_
  simp only [mxzeroF, runUni]
  rw [runU_whole hw (by rw [ho]; exact hv)]
  simp only [readCur_nil, hn, ho, hm, Bool.false_eq_true, if_false]

/-! ### The reservation table (R274, R283–R285) -/

/-- The entry that a matrix instruction of the gang on its port posts, with the publishable buffers `ps` that it writes. -/
def mxEntry (s : State) (x : Cur) (rs : List Reg) (i : Instr) (addr sel : Nat) (ps : Eng → List Proof) : Eng :=
  let e := s.mkEng (readCur x rs) (.mx ⟨i, addr, sel, ((s.regionOf x.G).map (·.rcb.prio)).getD 0, none, false⟩) i.opc true
  { e with proofs := ps e }

/-- R274: an instruction that posts waits while the table is full, and otherwise its operation stands issued in the table. -/
theorem exec_posts {i : Instr} {rs : List Reg} {addr sel : Nat} {ps : Eng → List Proof}
    (he : exec i s = .next (s.mxPost (readCur x rs) h i addr sel ps)) :
    (16 ≤ (s.mxTable (x.G.geo.core / 4)).length → exec i s = .next s.popPort) ∧
    (¬16 ≤ (s.mxTable (x.G.geo.core / 4)).length → exec i s =
      .next ((s.startEng (readCur x rs) h (mxEntry s x rs i addr sel ps)).mxAge)) := by
  simp only [he, State.mxPost, readCur_geo, regionOf_readCur]
  exact ⟨fun hf => congrArg _ (if_pos hf), fun hf => congrArg _ (if_neg hf)⟩

/-- R283: MXLD of a local record from an aligned address posts an entry. -/
theorem exec_mxld_posts {hint : BitVec 2} {r : OdRec} (hw : WholeRuns s x h [a]) (ho : x.G.od od.toNat = some r)
    (ha : uVal x a % 128 = 0) (hv : r.rv = false) :
    exec (.mxld h od hint a) s = .next (s.mxPost (readCur x [a]) h (.mxld h od hint a) (uVal x a) 0 fun _ => []) := by
  refine congrArg Host.Outcome.next ?_
  simp only [mxldF, runUniLL]
  rw [runU_whole hw (by simp only [ho, hv])]
  simp [ha]

/-- R284: MXST of a C record to an aligned address posts an entry. -/
theorem exec_mxst_posts {fmt hint : BitVec 2} {nan pe : Bool} {r : OdRec} (hw : WholeRuns s x h [a])
    (ho : x.G.od od.toNat = some r) (ha : uVal x a % 128 = 0) (hr : r.role = 2) (hf : r.fmt ≠ 5 ∨ fmt = 0) :
    exec (.mxst h od fmt nan hint pe pk a) s =
      .next (s.mxPost (readCur x [a]) h (.mxst h od fmt nan hint pe pk a) (uVal x a) (mxSel x pe pk) fun e =>
        ((bitsOf (mxSel x pe pk) x.G.geo.w).flatMap fun l =>
          s.pbOf e true (uVal x a + l * 128 * mxstSize fmt) (128 * mxstSize fmt)).eraseDups) := by
  have legal : (r.role != 2 || (r.fmt == 5 && fmt != 0)) = false := by
    rcases hf with hf | hf <;> simp [hr, hf]
  refine congrArg Host.Outcome.next ?_
  simp only [mxstF, runUniLL]
  rw [runU_whole hw (by simp only [ho, legal])]
  simp [ha]

section
variable {t : MT} {oc oa ob : BitVec 3} {ra rb pe : Bool} {ja jb : BitVec 12}

theorem exec_mma_illegal (hw : WholeRuns s x h [])
    (hb : mmaIllegal t (x.G.od oc.toNat) (x.G.od oa.toNat) (x.G.od ob.toNat) ja.toNat jb.toNat = true) :
    exec (.mma h t oc oa ob ra rb pe pk ja jb) s = .next (s.trap x 0x01 (Instr.mma h t oc oa ob ra rb pe pk ja jb).opc) := by
  refine congrArg Host.Outcome.next ?_
  simp only [mmaF, runUniLL]
  rw [runU_illegal hw rfl hb]
  rfl

/-- R285: a legal MMA posts an entry. -/
theorem exec_mma_posts (hw : WholeRuns s x h [])
    (hb : mmaIllegal t (x.G.od oc.toNat) (x.G.od oa.toNat) (x.G.od ob.toNat) ja.toNat jb.toNat = false) :
    exec (.mma h t oc oa ob ra rb pe pk ja jb) s =
      .next (s.mxPost (readCur x []) h (.mma h t oc oa ob ra rb pe pk ja jb) 0 (mxSel x pe pk) fun _ => []) := by
  refine congrArg Host.Outcome.next ?_
  simp only [mmaF, runUniLL]
  rw [runU_whole hw hb]
  rfl

end
end

end Sys2Proof.Machine
end

section
/-! MX lines, granting and the completion of matrix operations (R101, R272, R275, R279, R283–R286). -/

namespace Sys2Proof.Machine

/-! ### Sparse maps -/

/-- A sorted map reads at a key as before where a filter keeps the key, and nowhere else. -/
theorem SMap.get?_filter {α : Type} (p : Nat → Bool) {m : SMap α} (q : Nat) (h : SMap.sorted m = true) :
    SMap.get? (m.filter fun e => p e.1) q = if p q then SMap.get? m q else none := by
  induction m with
  | nil => simp [SMap.get?]
  | cons e m ih =>
    obtain ⟨k, v⟩ := e
    obtain ⟨hk, hm⟩ := SMap.sorted_cons.1 h
    have hlt (hq : q < k) : SMap.get? m q = none := SMap.get?_above (SMap.above_trans hq hk)
    have hself : SMap.get? m k = none := SMap.get?_above hk
    by_cases hp : p k = true
    · rw [List.filter_cons_of_pos (by simpa using hp)]
      simp only [SMap.get?, ih hm]
      split
      · simp
      · split
        · rename_i e; simp [e, hp]
        · rfl
    · rw [List.filter_cons_of_neg (by simpa using hp), ih hm]
      simp only [SMap.get?]
      by_cases h1 : q < k
      · simp [h1, hlt h1]
      · by_cases h2 : q = k
        · simp [h2, hp]
        · simp [h1, h2]

/-- A run of `n` keys from `off` listed one after another. -/
theorem SMap.getD_foldl_put {α : Type} (off n q : Nat) (f : Nat → α) (m : SMap α) (d : α) :
    SMap.getD ((List.range n).foldl (fun m i => SMap.put m (off + i) (f i)) m) q d =
      if off ≤ q ∧ q < off + n then f (q - off) else SMap.getD m q d := by
  induction n with
  | zero => rw [if_neg (by omega)]; rfl
  | succ n ih =>
    rw [List.range_succ, List.foldl_append, List.foldl_cons, List.foldl_nil]
    by_cases hq : q = off + n
    · subst hq
      rw [SMap.getD_put_self, if_pos (by omega), Nat.add_sub_cancel_left]
    · have same : (off ≤ q ∧ q < off + (n + 1)) ↔ (off ≤ q ∧ q < off + n) := by omega
      simp only [SMap.getD_put_ne _ _ _ hq, ih, same]

/-- Dropped MX lines read zero and the others as before (R279). -/
theorem getD_mxZero (k : Core) (off len q : Nat) (h : SMap.sorted k.mx = true) :
    SMap.getD (k.mxZero off len).mx q 0 = if off ≤ q ∧ q < off + len then 0 else SMap.getD k.mx q 0 := by
  simp only [SMap.getD, Core.mxZero,
    SMap.get?_filter (fun a => !(decide (off ≤ a) && decide (a < off + len))) q h]
  by_cases hq : off ≤ q ∧ q < off + len
  · simp [hq]
  · simp [hq, show q < off ∨ off + len ≤ q by omega]

/-! ### Granting (R275) -/

/-- A fold that keeps the better of two entries ends at the first of the best. -/
theorem foldl_best_split {α : Type} (lv : α → Nat) (e : α) (es : List α) :
    ∃ pre w post, e :: es = pre ++ w :: post ∧ (∀ a ∈ pre, lv a < lv w) ∧ (∀ a ∈ post, lv a ≤ lv w) ∧
      es.foldl (fun a b => if lv a < lv b then b else a) e = w := by
  induction es generalizing e with
  | nil => exact ⟨[], e, [], rfl, nofun, nofun, rfl⟩
  | cons b es ih =>
    by_cases hb : lv e < lv b
    · obtain ⟨pre, w, post, he, hpre, hpost, hw⟩ := ih b
      have hbw : lv b ≤ lv w := by
        have hmem : b ∈ pre ++ w :: post := he ▸ List.mem_cons_self
        rcases List.mem_append.1 hmem with h | h
        · exact Nat.le_of_lt (hpre b h)
        · rcases List.mem_cons.1 h with rfl | h
          · exact Nat.le_refl _
          · exact hpost b h
      refine ⟨e :: pre, w, post, congrArg (e :: ·) he, fun a ha => ?_, hpost, by rw [List.foldl_cons, if_pos hb, hw]⟩
      rcases List.mem_cons.1 ha with rfl | ha
      · exact Nat.lt_of_lt_of_le hb hbw
      · exact hpre a ha
    · obtain ⟨pre, w, post, he, hpre, hpost, hw⟩ := ih e
      have hle : lv b ≤ lv e := Nat.le_of_not_lt hb
      have hfold : (b :: es).foldl (fun a b => if lv a < lv b then b else a) e = w := by
        rw [List.foldl_cons, if_neg hb, hw]
      cases pre with
      | nil =>
        obtain ⟨rfl, rfl⟩ := List.cons.inj he
        refine ⟨[], e, b :: es, rfl, hpre, fun a ha => ?_, hfold⟩
        rcases List.mem_cons.1 ha with rfl | ha
        · exact hle
        · exact hpost a ha
      | cons p pre =>
        obtain ⟨rfl, rfl⟩ := List.cons.inj he
        refine ⟨e :: b :: pre, w, post, rfl, fun a ha => ?_, hpost, hfold⟩
        have hew := hpre e List.mem_cons_self
        rcases List.mem_cons.1 ha with rfl | ha
        · exact hew
        · rcases List.mem_cons.1 ha with rfl | ha
          · exact Nat.lt_of_le_of_lt hle hew
          · exact hpre a (List.mem_cons_of_mem _ ha)

/-- MATRIX_GRANT of a free array or port: of the entries that can be granted, one whose level no other exceeds, and of those the
first. -/
theorem exec_matrixGrant_free {s : State} {cl : Nat} {array : Bool} {tab el : List (Eng × MxJob)}
    (ht : (s.mxTable cl).filter (fun e => mxPort e.2.instr != array) = tab)
    (hel : tab.filter (fun e => s.mxEligible e.1 e.2 && !s.mxHeld e.1 e.2) = el) (hf : ∀ e ∈ tab, e.2.granted = false)
    (hn : el ≠ []) :
    ∃ pre w post, el = pre ++ w :: post ∧ (∀ e ∈ pre, mxLevel s e.2 < mxLevel s w.2) ∧
      (∀ e ∈ post, mxLevel s e.2 ≤ mxLevel s w.2) ∧
      exec (.matrixGrant cl array) s =
        .next (s.setEng { mxCapture s w.1 w.2 with kind := .mx { w.2 with granted := true } }) := by
  have free : tab.any (fun e => e.2.granted) = false := List.any_eq_false.2 fun e he => by simp [hf e he]
  obtain ⟨e, es, rfl⟩ := List.exists_cons_of_ne_nil hn
  obtain ⟨pre, w, post, h1, h2, h3, hw⟩ := foldl_best_split (fun e : Eng × MxJob => mxLevel s e.2) e es
  refine ⟨pre, w, post, h1, h2, h3, congrArg Host.Outcome.next ?_⟩
  have best : es.foldl (mxBetter s) e = w := hw
  simp only [matrixGrantF, ht, free, hel, best, Bool.false_eq_true, if_false]

/-- MATRIX_LEVEL_RISE of an entry that has waited 4,096 ticks. -/
theorem exec_matrixLevelRise_due {s : State} {i t : Nat} {e : Eng} {j : MxJob} (he : s.eng? i = some e) (hk : e.kind = .mx j)
    (hs : j.since = some t) (hg : j.granted = false) (ht : t + 4096 ≤ s.tick) (hl : j.level < 7) :
    exec (.matrixLevelRise i) s =
      .next (s.setEng { e with kind := .mx { j with level := j.level + 1, since := some (t + 4096) } }) := by
  have due : (j.granted || decide (s.tick < t + 4096) || decide (7 ≤ j.level)) = false := by
    simp only [hg, Bool.false_or, Bool.or_eq_false_iff, decide_eq_false_iff_not]; omega
  refine congrArg Host.Outcome.next ?_
  simp only [matrixLevelRiseF, he, hk, hs, due, Bool.false_eq_true, if_false]

/-! ### Rows of C (R272) -/

/-- An element of a register or line put together from elements. -/
theorem elem_elems (w : Nat) (f : Nat → Nat) (n i : Nat) (hi : i < n) : elem w (elems w f n) i = f i % 2 ^ w := by
  have bound : ∀ n, elems w f n < 2 ^ (w * n) := by
    intro n
    induction n with
    | zero => simp [elems]
    | succ n ih =>
      have hd : f n % 2 ^ w * 2 ^ (w * n) + 2 ^ (w * n) ≤ 2 ^ w * 2 ^ (w * n) := by
        rw [← Nat.succ_mul]; exact Nat.mul_le_mul_right _ (Nat.mod_lt _ (Nat.two_pow_pos w))
      rw [elems, Nat.mul_succ, Nat.pow_add, Nat.mul_comm (2 ^ (w * n))]
      omega
  induction n with
  | zero => omega
  | succ n ih =>
    simp only [elem, elems] at ih ⊢
    rcases Nat.lt_succ_iff_lt_or_eq.1 hi with hlt | rfl
    · obtain ⟨k, rfl⟩ : ∃ k, n = i + 1 + k := ⟨n - (i + 1), by omega⟩
      have split : f (i + 1 + k) % 2 ^ w * 2 ^ (w * (i + 1 + k)) =
          2 ^ (w * i) * (2 ^ w * (2 ^ (w * k) * (f (i + 1 + k) % 2 ^ w))) := by
        rw [Nat.mul_add, Nat.mul_succ, Nat.pow_add, Nat.pow_add]
        ac_rfl
      rw [split, Nat.add_mul_div_left _ _ (Nat.two_pow_pos _), Nat.add_mul_mod_self_left, ih hlt]
    · rw [Nat.add_mul_div_right _ _ (Nat.two_pow_pos _), Nat.div_eq_of_lt (bound i), Nat.zero_add, Nat.mod_mod]

/-- One line of a row that `setRow` writes. -/
theorem foldl_row_eq_elems (row : Nat → Nat) (q n : Nat) :
    (List.range n).foldl (fun v i => v + row (32 * q + i) % 2 ^ 32 * 2 ^ (32 * i)) 0 = elems 32 (fun i => row (32 * q + i)) n := by
  induction n with
  | zero => rfl
  | succ n ih => rw [List.range_succ, List.foldl_append, ih]; rfl

/-- The line of the core's MX lines that holds C[l][n] after row `l'` is written. -/
theorem getD_setRow (k : Core) (r : OdRec) (l' p : Nat) (row : Nat → Nat) :
    SMap.getD (k.setRow r l' row).mx p 0 =
      if r.off + 4 * l' ≤ p ∧ p < r.off + 4 * l' + 4 then elems 32 (fun i => row (32 * (p - (r.off + 4 * l')) + i)) 32
      else SMap.getD k.mx p 0 := by
  simp only [Core.setRow, foldl_row_eq_elems]
  exact SMap.getD_foldl_put (r.off + 4 * l') 4 p (fun q => elems 32 (fun i => row (32 * q + i)) 32) k.mx 0

theorem cElem_setRow_self (k : Core) (r : OdRec) (l n : Nat) (row : Nat → Nat) (hn : n < 128) :
    (k.setRow r l row).cElem r l n = row n % 2 ^ 32 := by
  have hp : r.off + 4 * l ≤ r.off + 4 * l + n / 32 ∧ r.off + 4 * l + n / 32 < r.off + 4 * l + 4 := by omega
  have hd : ∀ d, lineRead d (4 * (n % 32)) 4 = elem 32 d (n % 32) := fun d => by
    rw [lineRead, elem, ← Nat.mul_assoc]
  rw [Core.cElem, getD_setRow, if_pos hp, hd, elem_elems _ _ _ _ (Nat.mod_lt _ (by decide)), Nat.add_sub_cancel_left, Nat.div_add_mod]

theorem cElem_setRow_ne (k : Core) (r : OdRec) {l l' : Nat} (n : Nat) (row : Nat → Nat) (hn : n < 128) (h : l ≠ l') :
    (k.setRow r l' row).cElem r l n = k.cElem r l n := by
  rw [Core.cElem, getD_setRow, if_neg (by omega), Core.cElem]

/-- Rows that are rewritten one after another, each from its own elements alone. -/
theorem cElem_foldl_setRow (r : OdRec) (f : Nat → Nat → Nat → Nat) (l n : Nat) (hn : n < 128) (ls : List Nat) (hd : ls.Nodup)
    (k : Core) :
    (ls.foldl (fun k l => k.setRow r l fun n => f l n (k.cElem r l n)) k).cElem r l n =
      if l ∈ ls then f l n (k.cElem r l n) % 2 ^ 32 else k.cElem r l n := by
  induction ls generalizing k with
  | nil => simp
  | cons a ls ih =>
    obtain ⟨ha, hd⟩ := List.nodup_cons.1 hd
    rw [List.foldl_cons, ih hd]
    by_cases h : l = a
    · subst h; simp [ha, cElem_setRow_self _ _ _ _ _ hn]
    · simp [h, cElem_setRow_ne _ _ _ _ hn h]

/-- R101, R285: a pass rewrites the selected rows of C and no other. -/
theorem cElem_pass (k : Core) (t : MT) (w sel : Nat) (c a b : OdRec) (la lb sca scb : List Nat) (ja jb l n : Nat)
    (hl : l < w) (hn : n < 128) :
    (k.pass t w sel c a b la lb sca scb ja jb).cElem c l n =
      if sel.testBit l then mmaElem t (k.cElem c l n) (fragA t la l) (fun i => fragB t lb i n) (scaleOf a sca (ja * w + l))
        (scaleOf b scb jb) % 2 ^ 32
      else k.cElem c l n := by
  have nodup : (bitsOf sel w).Nodup := List.nodup_range.filter _
  rw [Core.pass, cElem_foldl_setRow c (fun l n acc => mmaElem t acc (fragA t la l) (fun i => fragB t lb i n)
    (scaleOf a sca (ja * w + l)) (scaleOf b scb jb)) l n hn _ nodup]
  simp only [mem_bitsOf, hl, true_and]

/-- R101: the exact sum of the products. -/
theorem dotInt_eq_sum (a b : Nat → Nat) (n : Nat) : dotInt a b n = ((List.range n).map fun k => sext 8 (a k) * sext 8 (b k)).sum := by
  induction n with
  | zero => rfl
  | succ n ih => simp [dotInt, ih, List.range_succ]

theorem mmaElem_i8 (acc sa sb : Nat) (a b : Nat → Nat) :
    ((mmaElem .i8 acc a b sa sb : Nat) : Int) =
      ((acc : Int) + ((List.range 128).map fun k => sext 8 (a k) * sext 8 (b k)).sum) % 2 ^ 32 := by
  rw [← dotInt_eq_sum, mmaElem, wrap, Int.toNat_of_nonneg (Int.emod_nonneg _ (by decide))]

end Sys2Proof.Machine
end

section
/-! Matrix operations as they complete (R283–R286). -/

namespace Sys2Proof.Machine

/-! ### What the end of an engine operation leaves alone -/

theorem State.onGroup_some {s : State} {g : Nat} {G : Group} (f : Group → Group) (h : s.group? g = some G) :
    s.onGroup g f = s.putGroup g (f G) := by
  simp only [onGroup, h]

/-- An operation of a group that has not ended leaves the device, and its flag falls. -/
theorem State.endEng_some {s : State} {e : Eng} {G : Group} (h : s.group? e.gid = some G) (hn : G.ended = false) :
    s.endEng e = (s.dropEng e.id).putGroup e.gid { G.flagDown e.flag with engtime := s.tick + 1 } := by
  have h' : (s.dropEng e.id).group? e.gid = some G := h
  rw [endEng, onGroup_some _ h', hn]
  rfl

theorem State.eng?_dropEng (s : State) (i : Nat) : (s.dropEng i).eng? i = none := by
  simp [eng?, dropEng, List.find?_eq_none]

@[simp] theorem State.mxAge_mem (s : State) : s.mxAge.mem = s.mem := rfl
@[simp] theorem State.mxAge_group? (s : State) (g : Nat) : s.mxAge.group? g = s.group? g := rfl
@[simp] theorem State.mxAge_core (s : State) (c : Nat) : s.mxAge.core c = s.core c := rfl

/-- Entries that begin to wait keep their identifiers. -/
theorem State.eng?_mxAge_none {s : State} {i : Nat} (h : s.eng? i = none) : s.mxAge.eng? i = none := by
  simp only [eng?, List.find?_eq_none, mxAge, List.mem_map] at h ⊢
  rintro _ ⟨e, he, rfl⟩
  split
  · split <;> exact h e he
  · exact h e he

/-! ### Descriptors -/

theorem getElem?_setAt {α : Type} (l : List α) (i : Nat) (v : α) (h : i < l.length) : (setAt l i v)[i]? = some v := by
  induction l generalizing i with
  | nil => simp at h
  | cons a l ih =>
    cases i with
    | zero => rfl
    | succ i => exact ih i (by simpa using h)

/-- A bound descriptor reads as it is set. -/
theorem Group.od_setOd {G : Group} {k : Nat} {r : OdRec} (h : G.od k = some r) (r' : Option OdRec) : (G.setOd k r').od k = r' := by
  have hk : k < G.ods.length := Nat.lt_of_not_le fun hk => by
    simp only [od, List.getElem?_eq_none hk, Option.bind_none, reduceCtorEq] at h
  simp [od, setOd, getElem?_setAt _ _ _ hk]

@[simp] theorem Group.od_flagDown (G : Group) (f : Option Nat) (k : Nat) : (G.flagDown f).od k = G.od k := by
  cases f <;> rfl

/-! ### MATRIX_OP_COMPLETE -/

/-- The effect of a granted operation, by its instruction. -/
def mxDone (s : State) (e : Eng) (G : Group) (j : MxJob) : State :=
  match j.instr with
  | .mma _ t oc oa ob _ _ _ _ ja jb => mmaDone s e G t oc.toNat oa.toNat ob.toNat j.sel ja.toNat jb.toNat
  | .mxld _ od _ _ => mxldDone s e G od.toNat j.addr
  | .mxst _ od fmt nan _ _ _ _ => mxstDone s e G od.toNat fmt nan j.addr j.sel
  | _ => s

section
variable {s : State} {i : Nat} {e : Eng} {j : MxJob} {G : Group}

theorem mxDone_mma {h : Hd} {t : MT} {oc oa ob : BitVec 3} {ra rb pe : Bool} {pk : Prd} {ja jb : BitVec 12}
    (hi : j.instr = .mma h t oc oa ob ra rb pe pk ja jb) :
    mxDone s e G j = mmaDone s e G t oc.toNat oa.toNat ob.toNat j.sel ja.toNat jb.toNat := by
  simp only [mxDone, hi]
theorem mxDone_mxld {h : Hd} {od : BitVec 3} {hint : BitVec 2} {a : Reg} (hi : j.instr = .mxld h od hint a) :
    mxDone s e G j = mxldDone s e G od.toNat j.addr := by
  simp only [mxDone, hi]
theorem mxDone_mxst {h : Hd} {od : BitVec 3} {fmt hint : BitVec 2} {nan pe : Bool} {pk : Prd} {a : Reg}
    (hi : j.instr = .mxst h od fmt nan hint pe pk a) :
    mxDone s e G j = mxstDone s e G od.toNat fmt nan j.addr j.sel := by
  simp only [mxDone, hi]

/-- A granted operation has its effect, where its group has not ended. -/
theorem exec_matrixOpComplete_granted (he : s.eng? i = some e) (hk : e.kind = .mx j) (hG : s.group? e.gid = some G)
    (hg : j.granted = true) (hn : G.ended = false) : exec (.matrixOpComplete i) s = .next (mxDone s e G j).mxAge := by
  refine congrArg Host.Outcome.next ?_
  simp only [matrixOpCompleteF, he, hk, hG, hg, hn, Bool.not_true, Bool.false_eq_true, if_false]
  rfl

/-- A pass whose records read and are not spoiled (R285). -/
theorem mmaDone_reads {t : MT} {oc oa ob sel ja jb : Nat} {c a b : OdRec} {la lb sca scb : List Nat}
    (hc : G.od oc = some c) (ha : G.od oa = some a) (hb : G.od ob = some b) (hsa : a.spoiled = false) (hsb : b.spoiled = false)
    (hmc : s.odMoving e.core c = false) (hma : s.odMoving e.core a = false) (hmb : s.odMoving e.core b = false)
    (hla : s.odLines e a (fragLines a G.geo.w ja).2 (fragLines a G.geo.w ja).1 = .ok la)
    (hlb : s.odLines e b (fragLines b G.geo.w jb).2 (fragLines b G.geo.w jb).1 = .ok lb)
    (hca : s.odScales e a (ja * G.geo.w) G.geo.w = .ok sca) (hcb : s.odScales e b jb 1 = .ok scb)
    (hrows : s.odRows e c (bitsOf sel G.geo.w) = .ok ()) :
    mmaDone s e G t oc oa ob sel ja jb =
      (s.onCore e.core fun k => k.pass t G.geo.w sel c a b la lb sca scb ja jb).endEng e := by
  simp only [mmaDone, hc, ha, hb, hsa, hsb, hmc, hma, hmb, hla, hlb, hca, hcb, hrows, Bool.or_self, Bool.false_eq_true, if_false]

/-- A core whose MX lines of a record hold the bytes that MXLD read. -/
def Core.mxLoaded (k : Core) (r : OdRec) (bs : List Nat) : Core :=
  { k with
    mx := (List.range r.len).foldl (fun m q => SMap.put m (r.off + q) (leAt bs (128 * q) 128)) k.mx
    poison := (k.mxZero r.off r.len).poison }

theorem Core.getD_mxLoaded (k : Core) (r : OdRec) (bs : List Nat) (q : Nat) :
    SMap.getD (k.mxLoaded r bs).mx q 0 =
      if r.off ≤ q ∧ q < r.off + r.len then leAt bs (128 * (q - r.off)) 128 else SMap.getD k.mx q 0 :=
  SMap.getD_foldl_put r.off r.len q (fun q => leAt bs (128 * q) 128) k.mx 0

/-- MXLD whose bytes read fills its record, which is no longer spoiled (R283, R286). -/
theorem mxldDone_reads {od addr : Nat} {r : OdRec} {bs : List Nat} (hG : s.group? e.gid = some G) (ho : G.od od = some r)
    (hm : s.odMoving e.core r = false) (hb : s.engRead e addr (128 * r.len) = .ok bs) :
    mxldDone s e G od addr = ((s.onCore e.core fun k => k.mxLoaded r bs).putGroup e.gid
      (G.setOd od (some { r with spoiled := false }))).endEng e := by
  have hG' : (s.onCore e.core fun k => k.mxLoaded r bs).group? e.gid = some G := hG
  simp only [mxldDone, ho, hm, hb, Bool.false_eq_true, if_false]
  exact congrArg (State.endEng · e) (State.onGroup_some _ hG')

/-- What MXLD leaves: its entry is free, its record holds the bytes read and is not spoiled, memory is as it was. -/
theorem mxLoaded_end {od : Nat} {r : OdRec} {bs : List Nat} (hn : G.ended = false) (ho : G.od od = some r) :
    let t := (((s.onCore e.core fun k => k.mxLoaded r bs).putGroup e.gid
      (G.setOd od (some { r with spoiled := false }))).endEng e).mxAge
    t.eng? e.id = none ∧ t.mem = s.mem ∧ t.core e.core = (s.core e.core).mxLoaded r bs ∧
      ∃ H, t.group? e.gid = some H ∧ H.od od = some { r with spoiled := false } := by
  intro t
  have ht : t = ((((s.onCore e.core fun k => k.mxLoaded r bs).putGroup e.gid
      (G.setOd od (some { r with spoiled := false }))).dropEng e.id).putGroup e.gid
      { (G.setOd od (some { r with spoiled := false })).flagDown e.flag with engtime := s.tick + 1 }).mxAge :=
    congrArg State.mxAge (State.endEng_some (State.group?_putGroup _ _ _) hn)
  rw [ht]
  refine ⟨State.eng?_mxAge_none (State.eng?_dropEng _ _), rfl, State.core_setCore _ _ _, _, State.group?_putGroup _ _ _, ?_⟩
  exact (Group.od_flagDown _ _ _).trans (Group.od_setOd ho _)

/-- MXST that stores its selected rows (R284). -/
theorem mxstDone_stores {od addr sel : Nat} {fmt : BitVec 2} {nan : Bool} {r : OdRec} {s1 : State} (ho : G.od od = some r)
    (hs : r.spoiled = false) (hm : s.odMoving e.core r = false)
    (hr : mxstRows s e r fmt nan addr (bitsOf sel G.geo.w) = (.ok (), s1)) :
    mxstDone s e G od fmt nan addr sel = s1.endEng e := by
  simp only [mxstDone, ho, hs, hm, hr, Bool.false_eq_true, if_false]

end

/-! ### The statement -/

/-- Settles O39: each clause is what one instruction does after its checks, or what one event does to the reservation table. -/
theorem matrixIssueAndPasses : Obligations.MatrixIssueAndPasses := by
  unfold Obligations.MatrixIssueAndPasses
  refine ⟨⟨?mxres, ?freeZero, getD_mxZero, ?loadStore, ?mma⟩,
    fun s cl array hf hn => exec_matrixGrant_free rfl rfl hf hn,
    fun s i t e j he hk hs hg ht hl => exec_matrixLevelRise_due he hk hs hg ht hl, ?complete, cElem_pass, mmaElem_i8⟩
  case mxres =>
    intro s x h od rv rc pk a c hw
    refine ⟨fun hb => exec_mxres_illegal hw hb, fun hb hv hr => ?_, fun hb hv hr => ?_, fun hb hv => ?_⟩
    · subst hv; exact (exec_mxres_legal hw hb).trans (congrArg _ (if_pos hr))
    · subst hv; exact (exec_mxres_legal hw hb).trans (congrArg _ (if_neg (Bool.eq_false_iff.1 hr)))
    · subst hv; exact exec_mxres_legal hw hb
  case freeZero =>
    intro s x h od hw
    refine ⟨exec_mxfree_waits hw, fun hn => ⟨fun ho => ⟨exec_mxfree_unbound hw hn ho, exec_mxzero_unbound hw hn ho⟩,
      fun r ho => ⟨fun hv => ⟨?_, exec_mxzero_remote hw ho hv⟩, fun hv => ⟨?_, exec_mxzero_local hw hn ho hv⟩⟩⟩⟩
    · simpa only [hv, if_true] using exec_mxfree_bound hw hn ho
    · simpa only [hv, Bool.false_eq_true, if_false] using exec_mxfree_bound hw hn ho
  case loadStore =>
    intro s x h od a r hw ho ha
    refine ⟨fun hv hint => ?_, fun hr fmt nan pe hint pk hf => ?_⟩
    · have posts := exec_posts (exec_mxld_posts (hint := hint) hw ho ha hv)
      exact posts
    · have posts := exec_posts (exec_mxst_posts (hint := hint) (nan := nan) (pe := pe) (pk := pk) hw ho ha hr hf)
      exact posts
  case mma =>
    intro s x h t oc oa ob ra rb pe pk ja jb hw
    refine ⟨exec_mma_illegal hw, fun hb hfull => ?_, fun hb hroom => ?_⟩
    · exact (exec_posts (exec_mma_posts hw hb)).1 hfull
    · exact (exec_posts (exec_mma_posts hw hb)).2 (Nat.not_le.2 hroom)
  case complete =>
    intro s i e j G he hk hG hg hn
    have done := exec_matrixOpComplete_granted he hk hG hg hn
    refine ⟨?_, ?_, ?_⟩
    · intro h t oc oa ob ra rb pe pk ja jb c a b la lb sca scb hi hc ha hb hsa hsb hmc hma hmb hla hlb hca hcb hrows
      rw [done, mxDone_mma hi, mmaDone_reads hc ha hb hsa hsb hmc hma hmb hla hlb hca hcb hrows]
    · intro h od hint a r bs hi ho hm hb
      obtain rfl : e.id = i := by simpa using List.find?_some he
      obtain ⟨hfree, hmem, hcore, H, hH, hod⟩ := mxLoaded_end (s := s) (e := e) (bs := bs) hn ho
      refine ⟨_, H, ?_, hfree, hmem, hH, hod, fun q => ?_⟩
      · rw [done, mxDone_mxld hi, mxldDone_reads hG ho hm hb]
      · rw [hcore]; exact Core.getD_mxLoaded _ r bs q
    · intro h od fmt nan hint pe pk a r s1 hi ho hs hm hr
      rw [done, mxDone_mxst hi, mxstDone_stores ho hs hm hr]

end Sys2Proof.Machine
end

section
/-! The integer lane instructions, the lane compares and the ligature instructions where they trap and fault nowhere (R121–R129,
R133). -/

namespace Sys2Proof.Machine

section
variable {s : State} {x : Cur}

/-- A lane operation whose result is the predicate of a compare of element 0 of a and b. -/
theorem runLane_laneCmp {i : Instr} {h : Hd} {w : Nat} {pd : Prd} {a : Src} {b : BOp} (f : Group → Nat → Nat → Bool)
    (hc : cur s = some x) (hr : LaneRuns x h (formAB x a b (2 ^ w - 1))) :
    runLane (laneCmp i h w pd a b f) s = laneSetsP s x h (formAB x a b (2 ^ w - 1)) pd fun l =>
      f x.G (srcV x.G x.K l a % 2 ^ w) (bsrcV x.G x.K l w b % 2 ^ w) :=
  runLane_setsP (op := laneCmp i h w pd a b f) _ hc rfl rfl (fun _ => rfl) hr fun _ => rfl

/-- A lane operation whose result is one register and one predicate. -/
theorem runLane_setsBoth {op : LaneOp} (F : Form) {p : Nat} {q : Prd} {v : Nat → Nat} {c : Nat → Bool} (hc : cur s = some x)
    (hp : op.perms = F.perms) (hfr : op.frees = F.frees) (hrd : ∀ l, op.reads x.G x.K l = F.reads l) (hr : LaneRuns x op.hd F)
    (he : ∀ l, op.eff x.G x.K (actMask x.G x.K op.hd) l = ⟨[(p, v l)], [(q.toNat, c l)], false, none⟩) :
    runLane op s = laneEnd s x op.hd F false fun l L => (L.set p (v l)).setPred q.toNat (c l) :=
  runLane_plain F _ hc hp hfr hrd hr (fun l => by rw [he]) (fun l => by rw [he]) fun l L => by rw [he]; rfl

end

/-! ### Element-wise integer instructions (R121–R124) -/

/-- Settles O1: every one of these instructions is the operand form of R115 with sources a and b, and its element function is the
one the statement writes out. -/
theorem laneIntegerResults : Obligations.LaneIntegerResults := by
  unfold Obligations.LaneIntegerResults
  intro s x h d a b hc hr set whole lim t w
  and_intros <;> exact congrArg _ (runLane_laneAB _ hc hr)

/-! ### IMAD, counts, SEL and compares (R122, R125–R127, R133) -/

/-- Settles O2: IMAD, CLZ and POPC are operand forms of R115, SEL writes one register by its own operation, and ICMP and FCMP are
the compare form with the condition's own predicate. -/
theorem laneCountSelectCompareResults : Obligations.LaneCountSelectCompareResults := by
  unfold Obligations.LaneCountSelectCompareResults
  refine ⟨fun s x h d a b c p hc => ⟨fun hr t => ?imad, fun hr => ⟨?clz, ?popc⟩, fun hr => ?sel⟩,
    fun s x h pd a b hc => ⟨fun t hr => ?icmp, fun t hr => ?fcmp⟩⟩
  case imad => exact congrArg _ (runLane_laneABC _ hc hr)
  case clz => exact congrArg _ (runLane_laneA _ hc hr)
  case popc => exact congrArg _ (runLane_laneA _ hc hr)
  case sel => exact congrArg _ (runLane_sets (op := laneSel h p d a b) _ hc rfl rfl (fun _ => rfl) hr fun _ => rfl)
  case icmp => and_intros <;> exact congrArg _ (runLane_laneCmp _ hc hr)
  case fcmp =>
    intro w put
    have runs (c : FCond) : exec (.fcmp h t c pd a b) s = .next (laneSetsP s x h (formAB x a b (2 ^ w - 1)) pd fun l =>
        fCmp (FTfmt t) c (ftzOf x.G) (srcV x.G x.K l a % 2 ^ w) (bsrcV x.G x.K l w b % 2 ^ w)) :=
      congrArg _ (runLane_laneCmp _ hc hr)
    and_intros <;> simp only [runs, fCmp, Bool.not_or, put]

/-! ### Ligatures (R128, R129) -/

section
variable {i : Instr} {h : Hd} {f : LigFn} {pq : Prd} {d : Reg} {a b : Src} {G : Group} {K : Gang} {l : Nat}

/-- Where only limb 0's b is used, limb 0's lane alone reads it (R128). -/
theorem laneLig_reads_limb0 {c : Option RL} : (laneLig i h f pq d a (some b) true c).reads G K l =
    (if l != ligBase G l then [srcRd G K l a allBits] else [srcRd G K l a allBits, srcRd G K l b allBits]) ++
      (c.map fun c => ownRd G K l c.r allBits).toList := by
  cases c <;> simp only [laneLig, Bool.true_and] <;> split <;> rfl

/-- A ligature instruction without a source c frees what its marks on a and b say. -/
theorem laneLig_frees_noC {bOne : Bool} : (laneLig i h f pq d a (some b) bOne none).frees = srcFrees a ++ srcFrees b :=
  List.append_nil _

/-- One with source a alone frees what its mark says. -/
theorem laneLig_frees_onlyA {bOne : Bool} : (laneLig i h f pq d a none bOne none).frees = srcFrees a := by
  simp only [laneLig, List.append_nil]

end

/-- Settles O3: CMPL writes a predicate, and each other ligature instruction the limb of its result and the carry; what differs
from one to the next is only which sources each lane reads. -/
theorem ligatureResults : Obligations.LigatureResults := by
  unfold Obligations.LigatureResults
  intro s x h pq d a b c hc n t A B C b0 end_ first withC
  refine ⟨fun hr => ⟨?addl, ?subl, fun k => ?cmpl⟩, fun hr => ⟨?shll, ?shrl⟩, fun hr => ?macl, fun hr => ?negl⟩
  case addl =>
    exact congrArg _ (runLane_setsBoth (op := laneAddl h pq d a b) (formSS x a b) hc rfl laneLig_frees_noC
      (fun _ => rfl) hr fun _ => rfl)
  case subl =>
    exact congrArg _ (runLane_setsBoth (op := laneSubl h pq d a b) (formSS x a b) hc rfl laneLig_frees_noC
      (fun _ => rfl) hr fun _ => rfl)
  case cmpl => exact congrArg _ (runLane_setsP (op := laneCmpl h k pq a b) _ hc rfl rfl (fun _ => rfl) hr fun _ => rfl)
  case shll =>
    exact congrArg _ (runLane_setsBoth (op := laneShll h pq d a b) (first (formSS x a b)) hc rfl laneLig_frees_noC
      (fun _ => laneLig_reads_limb0.trans (List.append_nil _)) hr fun _ => rfl)
  case shrl =>
    exact congrArg _ (runLane_setsBoth (op := laneShrl h pq d a b) (first (formSS x a b)) hc rfl laneLig_frees_noC
      (fun _ => laneLig_reads_limb0.trans (List.append_nil _)) hr fun _ => rfl)
  case macl =>
    exact congrArg _ (runLane_setsBoth (op := laneMacl h pq d a b c) (withC (first (formSS x a b))) hc rfl rfl
      (fun _ => laneLig_reads_limb0) hr fun _ => rfl)
  case negl =>
    exact congrArg _ (runLane_setsBoth (op := laneNegl h pq d a) (formA x a allBits) hc rfl laneLig_frees_onlyA
      (fun _ => rfl) hr fun _ => rfl)

end Sys2Proof.Machine
end

section
/-! What a word that decodes says about its bits, and the bits of a PLOG word (R76, R79, R141). -/

namespace Sys2Proof

/-- A word that decodes is the one its instruction lays out, and so is the extension word where it has one. -/
theorem decodeWords_ok {w e : Nat} {i : Instr} (hd : decodeWords w e = .ok i) :
    (Fields.ofWords w e).instr = some i ∧ i.wf = true ∧
      ∃ l, i.layout = some l ∧ l.w0 = w % 2 ^ 32 ∧ (l.hd.x = true → l.ext = e % 2 ^ 32) := by
  simp only [decodeWords] at hd
  split at hd
  case isTrue => cases hd
  split at hd
  case h_1 => cases hd
  case h_2 j hj =>
    split at hd
    case h_1 => cases hd
    case h_2 l hl =>
      split at hd
      case isTrue => cases hd
      case isFalse hs =>
        split at hd
        case isFalse => cases hd
        case isTrue hw =>
          cases hd
          exact ⟨hj, hw, l, hl, by simpa using hs⟩

/-- The fields of a PLOG word name it (R87, R141). -/
theorem Fields.instr_plog {f : Fields} (ho : f.opc = 0x4F) :
    f.instr = some (.plog f.h (.ofNat 4 f.spec) f.pd f.pa f.pb) := by
  simp [Fields.instr, Fields.laneRest, ho]

/-- A predicate field reads the low four bits of its register field (R76). -/
theorem ofNat_four_of_five (n : Nat) : BitVec.ofNat 4 (BitVec.ofNat 5 n).toNat = BitVec.ofNat 4 n :=
  Laws.ofNat_eq (by simp only [BitVec.toNat_ofNat]; omega)

theorem Fields.ofWords_pd (w e : Nat) : (Fields.ofWords w e).pd = .ofNat 4 (w / 2 ^ 13) := ofNat_four_of_five _
theorem Fields.ofWords_pa (w e : Nat) : (Fields.ofWords w e).pa = .ofNat 4 (w / 2 ^ 8) := ofNat_four_of_five _
theorem Fields.ofWords_pb (w e : Nat) : (Fields.ofWords w e).pb = .ofNat 4 (w / 2 ^ 2) := ofNat_four_of_five _
theorem Fields.ofWords_x (w e : Nat) : (Fields.ofWords w e).h.x = (w % 2 == 1) := rfl

/-- The truth table that a PLOG word carries: FUNC<6:3>, and 0 with X = 0 (R78, R141). -/
theorem Fields.ofWords_truthTable {w e : Nat} (he : e < 2 ^ 32) :
    BitVec.ofNat 4 (Fields.ofWords w e).spec = .ofNat 4 (if w % 2 = 1 then e / 2 ^ 3 else 0) := by
  refine Laws.ofNat_eq ?_
  by_cases hx : w % 2 = 1 <;> simp only [Fields.spec, Fields.ofWords, hx, if_true, if_false, BitVec.toNat_ofNat] <;> omega

/-- A PLOG word that decodes is laid out from its own fields, and so is the extension word where it has one. -/
theorem decodeWords_plog {w e : Nat} {i : Instr} (ho : w / 2 ^ 24 = 0x4F) (hd : decodeWords w e = .ok i) :
    let f := Fields.ofWords w e
    i = .plog f.h (.ofNat 4 f.spec) f.pd f.pa f.pb ∧
      iw 0x4F f.h f.pd.toNat f.pa.toNat false f.pb.toNat false = w % 2 ^ 32 ∧
        (f.h.x = true → eo 0 false 0 0 (BitVec.ofNat 4 f.spec).toNat 0 = e % 2 ^ 32) := by
  have opc : (Fields.ofWords w e).opc = 0x4F := by simp only [Fields.ofWords]; omega
  obtain ⟨hi, -, l, hl, word, ext⟩ := decodeWords_ok hd
  obtain rfl := Option.some.inj ((Fields.instr_plog opc).symm.trans hi)
  cases hl
  exact ⟨rfl, word, ext⟩

/-- The bits of a laid-out PLOG word that are zero (R76, R141). -/
theorem iw_plog_zero {h : Hd} {pd pa pb : BitVec 4} {w : Nat} (hw : iw 0x4F h pd.toNat pa.toNat false pb.toNat false = w) :
    w / 2 ^ 17 % 2 = 0 ∧ w / 2 ^ 12 % 2 = 0 ∧ w / 2 ^ 6 % 2 = 0 ∧ w / 2 ^ 7 % 2 = 0 ∧ w / 2 % 2 = 0 := by
  have := pd.isLt; have := pa.isLt; have := pb.isLt
  have := Laws.bool_lt h.x
  simp only [iw, Bool.toNat_false] at hw
  omega

/-- The bits of a laid-out PLOG extension word that are zero: FUNC<8:7>, MODE and every field above FUNC (R79, R141). -/
theorem eo_plog_zero {tt : BitVec 4} {e : Nat} (he : eo 0 false 0 0 tt.toNat 0 = e) : e / 2 ^ 7 = 0 ∧ e % 2 ^ 3 = 0 := by
  have := tt.isLt
  simp only [eo, Bool.toNat_false] at he
  omega

end Sys2Proof
end

section
/-! PLOG (R141). -/

namespace Sys2Proof.Machine

/-- Settles O52: the effect is one predicate, the fields name the instruction, and a word that decodes is laid out from them. -/
theorem predicateLogic : Obligations.PredicateLogic := by
  unfold Obligations.PredicateLogic
  refine ⟨fun s x h tt pd pa pb hc hr => ?effect, fun w e i hw he ho hd => ?words, by decide⟩
  case effect => exact congrArg _ (runLane_setsP (op := lanePlog h tt pd pa pb) _ hc rfl rfl (fun _ => rfl) hr fun _ => rfl)
  case words =>
    obtain ⟨rfl, word, ext⟩ := decodeWords_plog ho hd
    rw [Nat.mod_eq_of_lt hw] at word
    rw [Nat.mod_eq_of_lt he, Fields.ofWords_x, beq_iff_eq] at ext
    obtain ⟨d4, a4, b4, la, lb⟩ := iw_plog_zero word
    refine ⟨d4, a4, b4, la, lb, fun hx => eo_plog_zero (ext hx), (Fields.ofWords w e).h, ?_⟩
    rw [Fields.ofWords_truthTable he, Fields.ofWords_pd, Fields.ofWords_pa, Fields.ofWords_pb]

end Sys2Proof.Machine
end

section
/-! RDFL (R157): its effect, and what a word that decodes to it says about its bits (R76, R78). -/

namespace Sys2Proof

/-- The fields of an RDFL word name it (R87, R157). -/
theorem Fields.instr_rdfl {f : Fields} (ho : f.opc = 0x9A) : f.instr = some (.rdfl f.h f.d f.a) := by
  simp [Fields.instr, Fields.uniA, ho]

/-- RDFL has no extension word (R78). -/
theorem rdfl_wf_noExt {h : Hd} {d a : Reg} (hw : (Instr.rdfl h d a).wf = true) : h.x = false := by
  simp only [Instr.wf, Instr.layout, Layout.xOk, Bool.and_eq_true] at hw
  obtain ⟨⟨-, noExt⟩, -⟩ := hw
  simpa using noExt

/-- Field b of a laid-out RDFL word is zero (R157). -/
theorem iw_rdfl_b {h : Hd} {d a : Reg} {w : Nat} (hw : iw 0x9A h d.toNat a.toNat false 0 false = w) : w / 2 ^ 2 % 32 = 0 := by
  have := d.isLt; have := a.isLt
  have := Laws.bool_lt h.x
  simp only [iw, Bool.toNat_false] at hw
  omega

/-- An RDFL word that decodes is laid out from its own fields, and has no extension word. -/
theorem decodeWords_rdfl {w e : Nat} {i : Instr} (ho : w / 2 ^ 24 = 0x9A) (hd : decodeWords w e = .ok i) :
    let f := Fields.ofWords w e
    i = .rdfl f.h f.d f.a ∧ f.h.x = false ∧ iw 0x9A f.h f.d.toNat f.a.toNat false 0 false = w % 2 ^ 32 := by
  have opc : (Fields.ofWords w e).opc = 0x9A := by simp only [Fields.ofWords]; omega
  obtain ⟨hi, wf, l, hl, word, -⟩ := decodeWords_ok hd
  obtain rfl := Option.some.inj ((Fields.instr_rdfl opc).symm.trans hi)
  cases hl
  exact ⟨rfl, rdfl_wf_noExt wf, word⟩

end Sys2Proof

namespace Sys2Proof.Machine

section
variable {s : State} {x : Cur} {h : Hd} {d a : Reg}

/-- A uniform instruction without checks before its guard, which runs: its effect is that of the gang as its reads leave it. -/
theorem runUni_noPre {i : Instr} {rs : List Reg} {f : Cur → State} (hc : cur s = some x) (hr : UniRuns x h rs) :
    runUni i h noPre rs s f = f (readCur x rs) :=
  runU_runs hc rfl hr

/-- RDFL writes the first active lane's value (R157). -/
theorem exec_rdfl_runs (hc : cur s = some x) (hr : UniRuns x h [a]) :
    exec (.rdfl h d a) s = .next (uniSets s x h [a] d (uVal x a)) := by
  rw [exec_rdfl, execRdfl, rdflF, runUni_noPre hc hr, uVal_readCur]
  rfl

/-- UMOV of a register writes its value in the first active lane (R157). -/
theorem exec_umov_runs (hc : cur s = some x) (hr : UniRuns x h [a]) :
    exec (.umov h d (.reg a)) s = .next (uniSets s x h [a] d (uVal x a)) := by
  rw [exec_umov, execUmov, umovF, uopRegs, runUni_noPre hc hr, uopV, uVal_readCur]
  rfl

/-- A word that does not decode raises ILLEGAL (R76–R90). -/
theorem State.issueWords_refused {w e : Nat} {r : DecErr} (hd : decodeWords w e = .error r) :
    s.issueWords x w e = .to (s.trap x 0x01 (w / 2 ^ 24 % 256)) := by
  simp only [issueWords, hd]

end

/-- Settles O53: RDFL is a uniform write of the first active lane's value, and a word that decodes is laid out from its fields. -/
theorem firstLaneRead : Obligations.FirstLaneRead := by
  unfold Obligations.FirstLaneRead
  refine ⟨fun s x h d a hc hr => ⟨exec_rdfl_runs hc hr, (exec_rdfl_runs hc hr).trans (exec_umov_runs hc hr).symm⟩,
    fun w e i hw _ ho hd => ?words, fun s x w e r hd => State.issueWords_refused hd⟩
  case words =>
    obtain ⟨rfl, noExt, word⟩ := decodeWords_rdfl ho hd
    rw [Nat.mod_eq_of_lt hw] at word
    rw [Fields.ofWords_x, beq_eq_false_iff_ne] at noExt
    exact ⟨by omega, iw_rdfl_b word, _, rfl⟩

end Sys2Proof.Machine
end

section
/-! Fences, the wait for WCTMAX and the hold of YIELD (R150, R217, R225, R253–R255, R260). -/

namespace Sys2Proof.Machine

section
variable {s : State} {x : Cur} {h : Hd} {sc : BitVec 3}

/-! ### Fences -/

/-- A fence whose release is not ready waits for WCTMAX (R217). -/
theorem fenceF_waits {i : Instr} {acq : Bool} (hc : cur s = some x) (hr : UniRuns x h [])
    (hn : releaseReady s x.g x.G x.K.slices sc.toNat = false) : fenceF i h sc true acq s = s.waitWct x := by
  rw [fenceF, runUni_noPre hc hr, readCur_nil]
  simp [hn]

/-- A fence that nothing keeps ends: its release is ready, and its reads are done. -/
theorem fenceF_ends {i : Instr} {rel acq : Bool} (hc : cur s = some x) (hr : UniRuns x h [])
    (hrel : rel = true → releaseReady s x.g x.G x.K.slices sc.toNat = true)
    (hacq : acq = true → readsDone x.G x.K.slices = true) :
    fenceF i h sc rel acq s = fenceEnd s x h acq sc.toNat x.K.rtime := by
  have ready : (rel && !releaseReady s x.g x.G x.K.slices sc.toNat) = false := by
    cases rel <;> simp [hrel]
  have read : (acq && !readsDone x.G x.K.slices) = false := by
    cases acq <;> simp [hacq]
  rw [fenceF, runUni_noPre hc hr, readCur_nil]
  simp [ready, read]

/-- FENCE.sc whose release is not ready waits for WCTMAX (R217). -/
theorem fenceScF_waits (hc : cur s = some x) (hr : UniRuns x h [])
    (hn : releaseReady s x.g x.G x.K.slices sc.toNat = false) : fenceScF h sc s = s.waitWct x := by
  rw [fenceScF, runUni_noPre hc hr, readCur_nil]
  simp [hn]

/-- FENCE.sc that nothing keeps takes the next place of the one order, and acquires what came before the fence that preceded it (R255). -/
theorem fenceScF_ends (hc : cur s = some x) (hr : UniRuns x h [])
    (hrel : releaseReady s x.g x.G x.K.slices sc.toNat = true) (hacq : readsDone x.G x.K.slices = true) :
    fenceScF h sc s = fenceEnd { s with eng := { s.eng with scs := s.eng.scs + 1, scTick := s.tick + 1 } } x h true sc.toNat
      (max x.K.rtime s.eng.scTick) := by
  rw [fenceScF, runUni_noPre hc hr, readCur_nil]
  simp [hrel, hacq]

/-- FENCE.eng whose gang's stores are at their homes drops its core's stale copies (R225, R254). -/
theorem fenceEngF_ends (hc : cur s = some x) (hr : UniRuns x h [])
    (hp : performedAt s x.g x.G x.K.slices (max 2 sc.toNat) = true) :
    fenceEngF h sc s = (s.doneP x h x.G).selfInvalidate x.G.geo.core (max 2 sc.toNat) x.G.engtime := by
  rw [fenceEngF, runUni_noPre hc hr, readCur_nil]
  simp [hp]

end

/-! ### Holds that end by themselves -/

section
variable {s : State} {g k : Nat} {G : Group} {K : Gang}

/-- WCTMAX_PASSED at a gang that waits for it: the gang may try again once TICK has reached WCTMAX and the completion times of the
writes that happen before it (R217). -/
theorem exec_wctmaxPassed_held (hG : s.group? g = some G) (hK : G.gang? k = some K) (hh : K.hold = .wct) :
    exec (.wctmaxPassed g k) s =
      .next (if max G.wctmax G.hbw ≤ s.tick then s.putGroup g (G.putGang { K with hold := .none }) else s) := by
  rw [exec_wctmaxPassed, execWctmaxPassed, wctmaxPassedF]
  simp [hG, hK, hh]

/-- YIELD_HOLD_END at a gang that YIELD holds (R150). -/
theorem exec_yieldHoldEnd_held {till : Nat} (hG : s.group? g = some G) (hK : G.gang? k = some K) (hh : K.hold = .yield till) :
    exec (.yieldHoldEnd g k) s =
      .next (if yieldOver s g G K till then s.putGroup g (G.putGang { K with hold := .none }) else s) := by
  rw [exec_yieldHoldEnd, execYieldHoldEnd, yieldHoldEndF]
  simp [hG, hK, hh]

/-- The hold of a YIELD is not over before its 8 cycles have passed (R150). -/
theorem yieldOver_early {till : Nat} (ht : s.tick < till) : yieldOver s g G K till = false := by
  simp [yieldOver, Nat.not_le.2 ht]

end

/-- Settles O31: each fence waits or ends by the tests of its effect, and each hold ends by its own test alone. -/
theorem fences : Obligations.Fences := by
  unfold Obligations.Fences
  refine ⟨?fence, ?wctmax, ?yieldHold⟩
  case fence =>
    intro s x h sc hc hr c rel acq
    refine ⟨fun hq => ?_, fun hl => ?_, fun hl hq => ⟨?_, ?_⟩, fun hp => ?_, fun hn => ⟨?_, ?_, ?_⟩⟩
    · exact congrArg _ (fenceF_ends (rel := false) hc hr nofun fun _ => hq)
    · exact congrArg _ (fenceF_ends (acq := false) hc hr (fun _ => hl) nofun)
    · exact congrArg _ (fenceF_ends hc hr (fun _ => hl) fun _ => hq)
    · exact congrArg _ (fenceScF_ends hc hr hl hq)
    · exact congrArg _ (fenceEngF_ends hc hr hp)
    · exact congrArg _ (fenceF_waits hc hr hn)
    · exact congrArg _ (fenceF_waits hc hr hn)
    · exact congrArg _ (fenceScF_waits hc hr hn)
  case wctmax =>
    intro s g k G K hG hK hh
    rw [exec_wctmaxPassed_held hG hK hh]
    refine ⟨fun hw hb => ?_, fun hn => ?_⟩
    · rw [if_pos (Nat.max_le.2 ⟨hw, hb⟩)]
    · rw [if_neg (by omega)]
  case yieldHold =>
    intro s g k till G K hG hK hh
    rw [exec_yieldHoldEnd_held hG hK hh]
    refine ⟨fun ho => ?_, fun ht => ?_⟩
    · rw [if_pos ho]
    · rw [yieldOver_early ht]
      rfl

end Sys2Proof.Machine
end

section
/-! Taking a fault in the handler, ERET, and leaving the handler (R168, R174–R179, R184). -/

namespace Sys2Proof.Machine

/-! ### HANDLER_ENTRY -/

section
variable {s : State} {g : Nat} {G : Group} {e : FaultEv} {K : Gang}

/-- What HANDLER_ENTRY does with the earliest event of a group that has stopped: within the handler, without one, or with no room in
it, the event passes to the parent (R178, R182); otherwise the handler takes it (R176, R177). -/
theorem exec_handlerEntry_due (hG : s.group? g = some G) (hd : G.entryDue = true) (hr : s.groupRuns G = true)
    (he : earliest G.allEvents = some e) (hK : G.holder e = some K) :
    let hpc := ((s.regionOf G).map (·.rcb.handler)).getD 0
    exec (.handlerEntry g) s = .next (
      if G.handler.isSome then s.passFault g G e 1
      else if hpc = 0 then s.passFault g G e 0
      else if G.bottom + G.geo.cap < K.depth + 24 then s.passFault g G e 1
      else s.fresh.putGroup g (G.enterHandler e K hpc s.nextId s.tick)) := by
  intro hpc
  rw [exec_handlerEntry, execHandlerEntry, handlerEntryF]
  simp only [hG, hd, hr, he, hK, Bool.not_true, Bool.or_self, Bool.false_eq_true, if_false]
  rfl

end

/-! ### ERET -/

section
variable {s : State} {x : Cur} {h : Hd}

theorem opc_eret : (Instr.eret h).opc = 0xC8 := iw_opc (by decide) (by decide) (by decide) (by decide)

/-- ERET outside the handler is ILLEGAL (R168). -/
theorem exec_eret_outside (hc : cur s = some x) (hr : UniRuns x h []) (hn : x.G.handler = none) :
    exec (.eret h) s = .next (s.trap x 0x01 0xC8) := by
  have ill : opIll h [] (fun x => x.G.handler.isNone) x = some (0x01, false) := by
    obtain ⟨guard, good⟩ := hr
    exact opIll_some guard good (by simp [hn])
  rw [exec_eret, execEret, eretF, runUni, runU_traps hc ill, opc_eret]
  rfl

/-- ERET in the handler is ILLEGAL with a divergence open, waits while parked operations cannot be performed again, and otherwise
returns (R168, R177, R179). -/
theorem exec_eret_inside (hc : cur s = some x) (hr : UniRuns x h []) (hh : x.G.handler.isSome = true) :
    exec (.eret h) s = .next (
      if !x.G.closed then s.trap x 0x01 0xC8
      else if x.G.replayWaits s x.g then s.waitWct x
      else s.popPort.resumeGroup x.g x.G.leaveHandler) := by
  have legal : opIll h [] (fun x => x.G.handler.isNone) x = none := opIll_none (by simp [hh])
  rw [exec_eret, execEret, eretF, runUni, runU_runs hc legal hr]
  rfl

end

/-! ### Entering the handler and leaving it (R176, R177, R179) -/

section
variable {evs : List FaultEv} {rep eret eret0 : Nat} {D : Gang}

/-! What a gang's return leaves as it was. -/

@[simp] theorem Gang.resume_id : (Gang.resume evs rep eret eret0 D).id = D.id := by
  simp only [resume]; split <;> rfl
@[simp] theorem Gang.resume_slices : (Gang.resume evs rep eret eret0 D).slices = D.slices := by
  simp only [resume]; split <;> rfl
@[simp] theorem Gang.resume_mask : (Gang.resume evs rep eret eret0 D).mask = D.mask := by
  simp only [resume]; split <;> rfl
@[simp] theorem Gang.resume_depth : (Gang.resume evs rep eret eret0 D).depth = D.depth := by
  simp only [resume]; split <;> rfl

/-- The reported gang returns to ERETPC. -/
theorem Gang.resume_reported (hD : D.id = rep) : (Gang.resume evs rep eret eret0 D).pc = eret := by
  simp only [resume, hD, if_true]

/-- Any other gang returns to its place, and with no event left to report to its state, READY where it was PARKED. -/
theorem Gang.resume_other (hD : D.id ≠ rep) :
    let D' := Gang.resume [] rep eret eret0 D
    D'.pc = D.pc ∧ D'.clause = D.clause ∧ D'.st = if D.st = .parked then .ready else D.st := by
  simp only [resume, hD, if_false, List.any_nil, Bool.false_eq_true, false_and, true_and]
  cases D.st <;> rfl

end

/-- Leaving the handler right after it was entered brings every gang back with the events that are left. -/
theorem Group.gangs_leaveHandler_enterHandler (G : Group) (e : FaultEv) (K : Gang) (pc id tick : Nat) :
    (G.enterHandler e K pc id tick).leaveHandler.gangs = G.gangs.map (Gang.resume (G.evs.erase e) K.id e.eret e.eret) := rfl

/-- Settles O44: HANDLER_ENTRY by where the handler is, ERET by its checks, and the return gang by gang. -/
theorem handlerAndReturn : Obligations.HandlerAndReturn := by
  unfold Obligations.HandlerAndReturn
  refine ⟨?entry, ?eret, ?undo⟩
  case entry =>
    intro s g G e K hG hd hr he hK hpc
    rw [exec_handlerEntry_due hG hd hr he hK]
    refine ⟨fun hn hp room => ?_, fun hh => ?_, fun hn hp => ?_⟩
    · rw [hn, if_neg (by simp), if_neg hp, if_neg (Nat.not_lt.2 room)]
      exact ⟨_, _, _, rfl, State.group?_putGroup _ _ _, rfl, rfl, rfl, rfl, rfl, rfl, rfl, rfl, rfl, rfl, rfl, rfl, rfl, rfl⟩
    · rw [if_pos hh]
    · rw [hn, if_neg (by simp), if_pos hp]
  case eret =>
    intro s x h hc hr
    refine ⟨exec_eret_outside hc hr, fun hh => ?_⟩
    rw [exec_eret_inside hc hr hh]
    refine ⟨fun hopen => ?_, fun hclosed hw => ?_⟩
    · rw [hopen]; rfl
    · rw [hclosed, hw]; rfl
  case undo =>
    intro G e K pc id tick hev L
    have gangs : L.gangs = G.gangs.map (Gang.resume [] K.id e.eret e.eret) :=
      hev ▸ G.gangs_leaveHandler_enterHandler e K pc id tick
    refine ⟨rfl, rfl, rfl, rfl, hev, ?lanes, ?reported, ?others⟩
    case lanes => simp [gangs, Function.comp_def]
    case reported =>
      rw [gangs, List.forall_mem_map]
      exact fun D _ hD => Gang.resume_reported (by simpa using hD)
    case others =>
      intro D hD hne
      exact ⟨_, gangs ▸ List.mem_map_of_mem hD, Gang.resume_id, Gang.resume_other hne⟩

end Sys2Proof.Machine
end

section
/-! A home write leaves the regions as they are (R257, R259). -/

namespace Sys2Proof.Machine

section
variable (s : State)

@[simp] theorem State.evict_regions (line : Nat) : (s.evict line).regions = s.regions := by
  simp only [evict]; split <;> rfl
@[simp] theorem State.llcRoom_regions (line : Nat) : (s.llcRoom line).regions = s.regions := by
  simp only [llcRoom]
  split
  · rfl
  · split
    · rfl
    · exact State.evict_regions _ _
@[simp] theorem State.setHome_regions (line : Nat) (h : HomeLine) : (s.setHome line h).regions = s.regions := by
  simp only [setHome]
  split
  · rfl
  · exact State.llcRoom_regions _ _
@[simp] theorem State.setWt_regions (line w : Nat) : (s.setWt line w).regions = s.regions := by
  simp only [setWt]; split <;> rfl
@[simp] theorem State.wrote_regions (line : Nat) (hc : Bool) : (s.wrote line hc).regions = s.regions := by
  have first : (if hc then s.setHome line ⟨s.lxOf line, s.wctOf line hc, (s.homeLine line).held⟩
      else s.setWt line (s.wctOf line hc)).regions = s.regions := by
    cases hc
    · exact State.setWt_regions _ _ _
    · exact State.setHome_regions _ _ _
  simp only [wrote]
  split <;> exact first
@[simp] theorem State.rekeyLine_regions (a : Nat) : (s.rekeyLine a).regions = s.regions := by
  simp only [rekeyLine]; split <;> rfl
@[simp] theorem State.pokeN_regions (a n v : Nat) : (s.pokeN a n v).regions = s.regions := State.rekeyLine_regions s a
@[simp] theorem State.trigger_regions (line : Nat) : (s.trigger line).regions = s.regions := rfl
@[simp] theorem State.homeWrite_regions (a n v : Nat) (hc : Bool) : (s.homeWrite a n v hc).regions = s.regions := by
  simp only [homeWrite, trigger_regions, pokeN_regions, wrote_regions]
@[simp] theorem State.setRcbState_regions (a code reason : Nat) : (s.setRcbState a code reason).regions = s.regions :=
  State.homeWrite_regions _ _ _ _ _
@[simp] theorem State.complStore_regions (compl v : Nat) : (s.complStore compl v).regions = s.regions := by
  simp only [complStore]
  split
  · rfl
  · split
    · rfl
    · exact State.homeWrite_regions _ _ _ _ _

end

theorem State.onRegion_some {s : State} {r : Nat} {R : Region} (f : Region → Region) (h : s.region? r = some R) :
    s.onRegion r f = s.putRegion r (f R) := by
  simp only [onRegion, h]

end Sys2Proof.Machine
end

section
/-! SPAWN, region acceptance, launch, resume, end and completion (R148, R164, R340, R343–R350, R352). -/

namespace Sys2Proof.Machine

/-! ### Accesses of uniform instructions at issue (R148) -/

section
variable {s s' : State} {x : Cur} {rs : List Reg}

/-- A range that passes its checks is aligned. -/
theorem uniAt_ok_aligned {t u : State} {G : Group} {b : Block} {va n al : Nat} {r w : Bool} {ps : List Piece}
    (h : t.uniAt G b va n al r w = (.ok ps, u)) : va % al = 0 := by
  simp only [State.uniAt] at h
  split at h
  case isTrue => simp at h
  case isFalse =>
    split at h
    case isTrue => simp at h
    case isFalse aligned => simpa using aligned

/-- An access that passes its checks goes on with its pieces. -/
theorem uniIssue_passes {fr : Bool} {opc va n al : Nat} {r w : Bool} {b : Block} {ps : List Piece}
    {f : State → Block → List Piece → State} (ha : UniAccess s x rs va n al r w b ps s') :
    s.uniIssue (readCur x rs) fr opc va n al r w f = f s' b ps := by
  obtain ⟨hb, hw, u, hu, rfl⟩ := ha
  have hb' : s.block? (readCur x rs).G.geo.bid = some b := by rw [readCur_geo]; exact hb
  have hw' : walkWaits (readCur x rs).G = false := hw
  have hu' : s.uniAt (readCur x rs).G b va n al r w = (.ok ps, u) := hu
  simp only [State.uniIssue, hb', hw', hu', Bool.false_eq_true, if_false]

/-- A trap or fault after the reads sets FREEDREAD once. -/
theorem trapAt_readCur (K : Gang) (cause addr eret opc : Nat) (sub : Bool) :
    s.trapAt (readCur x rs) ((readCur x rs).G.stickIf (rs.any (uFreed x)) freedBit) K cause addr eret opc sub =
      s.trapAt x (x.G.stickIf (rs.any (uFreed x)) freedBit) K cause addr eret opc sub := by
  simp only [readCur, uniRead, Group.stickIf_same]
  rfl
theorem uniFault_readCur (cause addr opc : Nat) (sub : Bool) :
    s.uniFault (readCur x rs) (rs.any (uFreed x)) cause addr opc sub = s.uniFault x (rs.any (uFreed x)) cause addr opc sub :=
  trapAt_readCur _ _ _ _ _ _
theorem trapFreed_readCur (cause opc : Nat) :
    s.trapFreed (readCur x rs) (rs.any (uFreed x)) cause opc = s.trapFreed x (rs.any (uFreed x)) cause opc :=
  trapAt_readCur _ _ _ _ _ _
@[simp] theorem uFreed_readCur (r : Reg) : uFreed (readCur x rs) r = uFreed x r := uFreed_read x rs r

end

/-! ### SPAWN (R164) -/

/-- SPAWN with its RCB's address translated: it waits as a system release does, walks the parent links, and hands the RCB over. -/
def spawnWalks (s : State) (x : Cur) (h : Hd) (a : Reg) (pa : Nat) : State :=
  if !releaseReady s x.g x.G (2 ^ 16 - 1) 3 then s.waitWct x
  else
    match s.rcbReach (s.ownRcb x) 16 pa with
    | .flt c v => s.uniFault x (uFreed x a) c v 0xC5
    | .wait => s.heldAtIssue
    | .ok r =>
      if !r && !s.privileged x.G then s.trapFreed x (uFreed x a) 0x11 0xC5
      else State.doneP (State.fresh { s with spawns := s.spawns ++ [⟨s.nextId, pa, x.G.geo.core / 256⟩] }) x h x.G

section
variable {s s' : State} {x : Cur} {h : Hd} {a : Reg}

theorem exec_spawn_walks {b : Block} {p : Piece} {ps : List Piece} (hw : WholeRuns s x h [a]) (hr : uVal x a < 2 ^ 55)
    (hap : inAperture (uVal x a) = false) (ha : UniAccess s x [a] (uVal x a) 1 512 true false b (p :: ps) s') :
    exec (.spawn h a) s = .next (spawnWalks s' (readCur x [a]) h a p.pa) := by
  have aligned : uVal x a % 512 = 0 := by obtain ⟨-, -, u, hu, -⟩ := ha; exact uniAt_ok_aligned hu
  have whole : mxSplit x = false := by obtain ⟨-, -, hs⟩ := hw; simp [mxSplit, hs]
  rw [exec_spawn, execSpawn, spawnF, runUni, runU_passes hw (by simp [whole])]
  simp only [uVal_readCur, Nat.not_le.2 hr, aligned, hap, uniIssue_passes ha, if_false, bne_self_eq_false, Bool.false_eq_true]
  rfl

variable {pa : Nat}

theorem spawnWalks_waits (hl : releaseReady s x.g x.G (2 ^ 16 - 1) 3 = false) : spawnWalks s x h a pa = s.waitWct x := by
  simp only [spawnWalks, hl, Bool.not_false, if_true]

section
variable (hl : releaseReady s x.g x.G (2 ^ 16 - 1) 3 = true)
include hl

theorem spawnWalks_faults {c v : Nat} (ho : s.rcbReach (s.ownRcb x) 16 pa = .flt c v) :
    spawnWalks s x h a pa = s.uniFault x (uFreed x a) c v 0xC5 := by
  simp only [spawnWalks, hl, ho, Bool.not_true, Bool.false_eq_true, if_false]

theorem spawnWalks_outside (ho : s.rcbReach (s.ownRcb x) 16 pa = .ok false) (hp : s.privileged x.G = false) :
    spawnWalks s x h a pa = s.trapFreed x (uFreed x a) 0x11 0xC5 := by
  simp only [spawnWalks, hl, ho, hp, Bool.not_true, Bool.not_false, Bool.and_true, Bool.false_eq_true, if_false, if_true]

theorem spawnWalks_handsOver {r : Bool} (ho : s.rcbReach (s.ownRcb x) 16 pa = .ok r)
    (hp : r = true ∨ s.privileged x.G = true) :
    spawnWalks s x h a pa =
      State.doneP (State.fresh { s with spawns := s.spawns ++ [⟨s.nextId, pa, x.G.geo.core / 256⟩] }) x h x.G := by
  have allowed : (!r && !s.privileged x.G) = false := by
    rcases hp with rfl | hp
    · rfl
    · rw [hp, Bool.not_true, Bool.and_false]
  simp only [spawnWalks, hl, ho, allowed, Bool.not_true, Bool.false_eq_true, if_false]

end

end

/-! ### REGION_ACCEPT (R344–R347) -/

/-- The RCB with its ancestors, itself first (R344). -/
def State.rcbLine (s : State) (a : Nat) : List Nat := a :: (s.rcbChain 16 a).1
/-- Its parent links end at a live region without a parent (log 74). -/
def State.chained (s : State) (a : Nat) : Bool :=
  (s.rcbChain 16 a).2 && (s.regionAt (((s.rcbLine a).getLast?).getD 0)).any fun R => R.chain.isEmpty
/-- The resolved RCB of its parent: the live region's, or as it reads now. -/
def State.parentRcb (s : State) (a : Nat) : Rcb :=
  match s.regionAt (((s.rcbChain 16 a).1[0]?).getD 0) with
  | some P => P.rcb
  | none => s.resolveRcb (s.rcbChain 16 a).1

/-- What becomes of a region whose fields and budgets pass: refused without a bucket or without room for a COOPERATIVE launch, or
launched (R346, R352, R354). -/
def State.acceptPassed (s : State) (sp : Nat) (x : Spawn) : State :=
  let r := s.resolveRcb (s.rcbLine x.addr)
  let s0 := s.dropSpawn sp
  match s.entryOf r with
  | none => s0.refuse x.addr 2
  | some (pc, bounds) =>
    let s1 := (s0.setRcbState x.addr 1 0).launch x.addr (s.rcbChain 16 x.addr).1 r x.die pc bounds
    if r.coop && !s1.coopFits s0.nextId then s0.refuse x.addr 4 else s1.recordSpawn (s.rcbLine x.addr)

section
variable {s : State} {sp : Nat} {x : Spawn}

theorem State.acceptPassed_noBucket (he : s.entryOf (s.resolveRcb (s.rcbLine x.addr)) = none) :
    s.acceptPassed sp x = (s.dropSpawn sp).refuse x.addr 2 := by
  simp only [acceptPassed, he]

theorem State.acceptPassed_launches {e : Nat × List Nat} (he : s.entryOf (s.resolveRcb (s.rcbLine x.addr)) = some e)
    (hc : (s.resolveRcb (s.rcbLine x.addr)).coop = false) :
    s.acceptPassed sp x = ((((s.dropSpawn sp).setRcbState x.addr 1 0).launch x.addr (s.rcbChain 16 x.addr).1
      (s.resolveRcb (s.rcbLine x.addr)) x.die e.1 e.2)).recordSpawn (s.rcbLine x.addr) := by
  simp only [acceptPassed, he, hc, Bool.false_and, Bool.false_eq_true, if_false]

section
variable (hsp : s.spawns.find? (fun y => y.id == sp) = some x)
include hsp

/-- REGION_ACCEPT of a region that finds its RCB idle: refused with the first reason that holds, or taken on (R345–R347). -/
theorem exec_regionAccept_idle (hcode : s.rcbState x.addr % 256 = 0) :
    exec (.regionAccept sp) s = .next (
      if !s.chained x.addr then (s.dropSpawn sp).refuse x.addr 5
      else if s.fieldBad x.addr (s.resolveRcb (s.rcbLine x.addr)) x.die then (s.dropSpawn sp).refuse x.addr 1
      else if overBudget (s.resolveRcb (s.rcbLine x.addr)) (s.parentRcb x.addr) then (s.dropSpawn sp).refuse x.addr 3
      else s.acceptPassed sp x) := by
  -- The two matches of acceptance, on the parent's region and on the bucket entry, are decided first.
  obtain hP | ⟨P, hP⟩ := Option.eq_none_or_eq_some (s.regionAt (((s.rcbChain 16 x.addr).1[0]?).getD 0)) <;>
    obtain he | ⟨e, he⟩ := Option.eq_none_or_eq_some (s.entryOf (s.resolveRcb (x.addr :: (s.rcbChain 16 x.addr).1))) <;>
    simp only [exec_regionAccept, execRegionAccept, regionAcceptF, State.chained, State.parentRcb, State.acceptPassed, State.rcbLine,
      Bool.not_and, hsp, hcode, hP, he, if_true] <;> rfl

section
variable (hcode : s.rcbState x.addr % 256 = 0)
include hcode

theorem exec_regionAccept_unchained (hch : s.chained x.addr = false) :
    exec (.regionAccept sp) s = .next ((s.dropSpawn sp).refuse x.addr 5) := by
  rw [exec_regionAccept_idle hsp hcode, hch, Bool.not_false, if_pos rfl]

variable (hch : s.chained x.addr = true)
include hch

theorem exec_regionAccept_badField (hb : s.fieldBad x.addr (s.resolveRcb (s.rcbLine x.addr)) x.die = true) :
    exec (.regionAccept sp) s = .next ((s.dropSpawn sp).refuse x.addr 1) := by
  rw [exec_regionAccept_idle hsp hcode, hch, Bool.not_true, if_neg Bool.false_ne_true, if_pos hb]

variable (hb : s.fieldBad x.addr (s.resolveRcb (s.rcbLine x.addr)) x.die = false)
include hb

theorem exec_regionAccept_overBudget (ho : overBudget (s.resolveRcb (s.rcbLine x.addr)) (s.parentRcb x.addr) = true) :
    exec (.regionAccept sp) s = .next ((s.dropSpawn sp).refuse x.addr 3) := by
  rw [exec_regionAccept_idle hsp hcode, hch, Bool.not_true, if_neg Bool.false_ne_true, if_neg (Bool.eq_false_iff.1 hb), if_pos ho]

theorem exec_regionAccept_passes (ho : overBudget (s.resolveRcb (s.rcbLine x.addr)) (s.parentRcb x.addr) = false) :
    exec (.regionAccept sp) s = .next (s.acceptPassed sp x) := by
  rw [exec_regionAccept_idle hsp hcode, hch, Bool.not_true, if_neg Bool.false_ne_true, if_neg (Bool.eq_false_iff.1 hb),
    if_neg (Bool.eq_false_iff.1 ho)]

end

variable {R : Region} (hR : s.regionAt x.addr = some R)
include hR

theorem exec_regionResume_live (hcode : s.rcbState x.addr % 256 = 5) :
    let s1 := (s.dropSpawn sp).setRcbState x.addr 1 0
    exec (.regionResume sp) s = .next ((s1.blocksOf R.id).foldl (fun (s : State) b =>
      if b.st == .saved || (s.groupsOf b).all (fun x => x.2.passed.isNone) then s.onBlock b.id fun b => { b with faulted := false }
      else s) s1) := by
  rw [exec_regionResume, execRegionResume, regionResumeF]
  simp [hsp, hR, hcode]

theorem exec_regionEnd_live (hcode : s.rcbState x.addr % 256 = 6) :
    exec (.regionEnd sp) s = .next ((s.dropSpawn sp).endRegion R) := by
  rw [exec_regionEnd, execRegionEnd, regionEndF]
  simp [hsp, hR, hcode]

end

end

/-! ### Launch (R352) -/

section
variable (s : State)

theorem region?_foldl_putBlock (k n : Nat) (f : Nat → Block) (r : Nat) :
    ((List.range n).foldl (fun (t : State) i => t.putBlock (k + i) (f i)) s).region? r = s.region? r := by
  induction n with
  | zero => rfl
  | succ n ih =>
    rw [List.range_succ, List.foldl_append]
    exact ih

/-- Blocks put one after another under consecutive identifiers stand there. -/
theorem block?_foldl_putBlock (k : Nat) {n i : Nat} (f : Nat → Block) (hi : i < n) :
    ((List.range n).foldl (fun (t : State) i => t.putBlock (k + i) (f i)) s).block? (k + i) = some (f i) := by
  induction n with
  | zero => omega
  | succ n ih =>
    rw [List.range_succ, List.foldl_append, List.foldl_cons, List.foldl_nil]
    by_cases hn : i = n
    · subst hn
      exact State.block?_putBlock _ _ _
    · rw [State.block?_putBlock_ne _ _ (by omega)]
      exact ih (by omega)

end

/-! ### COMPLETION_STORE (R340, R349) -/

/-- A quiet region makes its completion store and is live no more. -/
theorem exec_completionStore_quiet {s : State} {r : Nat} {R : Region} (hR : s.region? r = some R) (hl : R.live = true)
    (hq : s.regionQuiet R = true) :
    ∃ t R', exec (.completionStore r) s = .next t ∧ t.region? r = some R' ∧ R'.live = false ∧
      t.mem = ((s.setRcbState R.addr ((R.ending).getD 3) 0).complStore R.rcb.compl R.rcb.complv).mem := by
  have kept : ((s.setRcbState R.addr ((R.ending).getD 3) 0).complStore R.rcb.compl R.rcb.complv).region? r = some R := by
    simpa only [State.region?, State.complStore_regions, State.setRcbState_regions] using hR
  rw [exec_completionStore, execCompletionStore, completionStoreF]
  simp only [hR, hl, hq, Bool.not_true, Bool.or_self, Bool.false_eq_true, if_false, State.onRegion_some _ kept]
  exact ⟨_, _, rfl, State.region?_putRegion _ _ _, rfl, rfl⟩

/-! ### The statement -/

/-- Settles O45: SPAWN by what the walk of the parent links finds, acceptance by the first test that fails, and the blocks of a launch
one by one. -/
theorem regionsLaunchAndEnd : Obligations.RegionsLaunchAndEnd := by
  unfold Obligations.RegionsLaunchAndEnd
  refine ⟨?spawn, ?scheduled, ?launch, fun s r R hR hl hq => exec_completionStore_quiet hR hl hq⟩
  case spawn =>
    intro s s' x h a b p ps hw hr hap ha y ready own
    have walks := exec_spawn_walks hw hr hap ha
    have freed : uFreed y a = ([a].any (uFreed x)) := by simp [y]
    have one : [a].any (uFreed x) = uFreed x a := by simp
    refine ⟨fun hl => ?_, fun c v hl ho => ?_, fun hl ho hp => ?_, fun r hl ho hp => ?_⟩
    · rw [walks, spawnWalks_waits hl]
    · rw [walks, spawnWalks_faults hl ho, freed, uniFault_readCur, one]
    · rw [walks, spawnWalks_outside hl ho hp, freed, trapFreed_readCur, one]
    · rw [walks, spawnWalks_handsOver hl ho hp, readCur_geo]
  case scheduled =>
    intro s sp x hsp s0 code
    refine ⟨fun hcode => ?_, fun R hR => ⟨fun hcode => exec_regionResume_live hsp hR hcode,
      fun hcode => exec_regionEnd_live hsp hR hcode⟩⟩
    intro ch as r chained p run
    refine ⟨fun hch => exec_regionAccept_unchained hsp hcode hch, fun hch hb => exec_regionAccept_badField hsp hcode hch hb,
      fun hch hb ho => exec_regionAccept_overBudget hsp hcode hch hb ho, fun hch hb ho => ?_⟩
    have passes := exec_regionAccept_passes hsp hcode hch hb ho
    exact ⟨fun he => passes.trans (congrArg _ (State.acceptPassed_noBucket he)),
      fun e he hc => passes.trans (congrArg _ (State.acceptPassed_launches he hc))⟩
  case launch =>
    intro s a die entry i chain r bounds hi t
    exact ⟨_, _, block?_foldl_putBlock _ _ _ hi, rfl, rfl, rfl, rfl,
      (region?_foldl_putBlock _ _ _ _ _).trans (State.region?_putRegion _ _ _), rfl, rfl, rfl, rfl⟩

end Sys2Proof.Machine
end

section
/-! LD, ST, ATOM, CXCH and CLDR as they issue, and the address checks of one lane (R172, R189, R214–R221). -/

namespace Sys2Proof.Machine

/-! ### Issue -/

section
variable {s : State} {x : Cur} {i : Instr}

/-- No lane is parked by the reading of its operands. -/
@[simp] theorem parkedB_memLaneOf (G : Group) (K : Gang) (l : Nat) : (memLaneOf i G K l).parkedB = false := by
  cases i <;> rfl

/-- R120, R173: where no active lane reads an uncorrectable word, no lane faults as its operands are read. -/
theorem ligFault_goodReads {G : Group} {act : Nat} {rd : Nat → List Rd}
    (good : ∀ l, act.testBit l = true → ∀ r ∈ rd l, r.bad = none) (l : Nat) :
    ligFault G act (fun l => ((rd l).find? fun r => r.bad.isSome).map fun r => (0x0E, r.bad.getD 0, r.sub)) l = none := by
  refine ligFault_none (fun l hl => ?_) l
  rw [Option.map_eq_none_iff, List.find?_eq_none]
  exact fun r hr => by simp [good l hl r hr]

/-- A lane memory instruction that nothing keeps from issuing advances where no lane is active, and otherwise stands issued with its
accesses made as far as they can be. -/
theorem memF_issues {a : Acc} {ll whole : Bool} {ill : Group → Bool} (hc : cur s = some x) (hill : ill x.G = false)
    (hw : whole = true → x.K.slices = x.G.unretired) (hr : MemRuns s x i a.em) :
    memF i i.hd a ll whole ill s =
      if bitsOf (actMask x.G x.K i.hd) 64 = [] then s.finish x x.G (if ll then x.K.advLL i.hd s.tick else x.K.adv i.hd s.tick)
      else (memIssued s x i ll).resolveOp x.g (memOp s x i ll) := by
  obtain ⟨⟨-, sameGuard, good⟩, release⟩ := hr
  have isWhole : (whole && mxSplit x) = false := by
    cases whole
    · rfl
    · simp [mxSplit, hw rfl]
  have released : (emRel a.em && !releaseReady s x.g x.G x.K.slices
      (scopeOf a.em.scope.toNat ((bitsOf (actMask x.G x.K i.hd) 64).map (memLaneOf i x.G x.K)))) = false := by
    by_cases ho : a.em.ord = 2 ∨ a.em.ord = 3
    · rw [release ho, Bool.not_true, Bool.and_false]
    · have : emRel a.em = false := by simpa [emRel] using ho
      rw [this, Bool.false_and]
  have unparked (ls : List Nat) : (ls.map (memLaneOf i x.G x.K)).any OpLane.parkedB = false := by
    rw [List.any_map, List.any_eq_false]
    exact fun l _ => by simp
  simp only [memF, onCur, hc, hill, isWhole, sameGuard, released, ligFault_goodReads good, List.map_id', unparked, Bool.or_false,
    Bool.false_eq_true, if_false]
  cases active : bitsOf (actMask x.G x.K i.hd) 64 with
  | nil => rfl
  | cons l ls =>
    rw [if_neg (List.cons_ne_nil l ls)]
    simp [memIssued, memOp, readsFreed, active]

/-- The lane memory instructions: each is `memF` with its own checks of R90. -/
theorem exec_laneMemory {em : EM} {ll : Bool}
    (h : (∃ h sz d a, i = .ld h sz d a em ∧ ll = true) ∨ (∃ h sz a b, i = .st h sz a b em ∧ ll = false) ∨
      (∃ h sz d a b, i = .atom h sz d a b em ∧ ll = true) ∨
      (∃ h d a b, i = .cxch h d a b em ∧ ll = true ∧ x.K.slices = x.G.unretired) ∨
      (∃ h d a, i = .cldr h d a em ∧ ll = true ∧ x.K.slices = x.G.unretired ∧ (em.op = 11 → x.G.tmshape < 0x10))) :
    ∃ a whole ill, exec i s = .next (memF i i.hd a ll whole ill s) ∧ a.em = em ∧ ill x.G = false ∧
      (whole = true → x.K.slices = x.G.unretired) := by
  rcases h with ⟨h, sz, d, a, rfl, rfl⟩ | ⟨h, sz, a, b, rfl, rfl⟩ | ⟨h, sz, d, a, b, rfl, rfl⟩ | ⟨h, d, a, b, rfl, rfl, hw⟩ |
    ⟨h, d, a, rfl, rfl, hw, ht⟩
  case inl => exact ⟨_, _, _, rfl, rfl, rfl, nofun⟩
  case inr.inl => exact ⟨_, _, _, rfl, rfl, rfl, nofun⟩
  case inr.inr.inl => exact ⟨_, _, _, rfl, rfl, rfl, nofun⟩
  case inr.inr.inr.inl => exact ⟨_, _, _, rfl, rfl, rfl, fun _ => hw⟩
  case inr.inr.inr.inr => exact ⟨_, _, _, rfl, rfl, by simpa using ht, fun _ => hw⟩

end

/-! ### The address of one lane (R189, R214) -/

section
variable {s : State} {G : Group} {b : Block} {a : Acc} {va : Nat}

theorem adrPlain_beyond (h : 2 ^ 55 ≤ va) : s.adrPlain G b a va = .flt 0x04 va := by
  have : (va / 2 ^ 55 != 0) = true := by rw [bne_iff_ne]; omega
  simp only [State.adrPlain, this, if_true]

section
variable (hlt : va < 2 ^ 55)
include hlt

theorem adrPlain_misaligned (h : va % a.sz ≠ 0) : s.adrPlain G b a va = .flt 0x03 va := by
  have : (va % a.sz != 0) = true := bne_iff_ne.2 h
  simp only [State.adrPlain, Nat.div_eq_of_lt hlt, bne_self_eq_false, this, Bool.false_eq_true, if_false, if_true]

variable (hal : va % a.sz = 0)
include hal

theorem adrPlain_outsideWindow (hap : inAperture va = true) (hw : (s.window b).2 < va % 2 ^ 21 + a.sz) :
    s.adrPlain G b a va = .flt 0x07 (max (va % 2 ^ 21) (s.window b).2) := by
  simp only [State.adrPlain, Nat.div_eq_of_lt hlt, hal, bne_self_eq_false, Bool.false_eq_true, if_false, hap, State.spAt, hw, if_true]

theorem adrPlain_inWindow (hap : inAperture va = true) (hw : va % 2 ^ 21 + a.sz ≤ (s.window b).2)
    (hm : (s.core b.core).mapAt b.id (va % 2 ^ 21) = none) : s.adrPlain G b a va = .sp ((s.window b).1 + va % 2 ^ 21) := by
  simp only [State.adrPlain, Nat.div_eq_of_lt hlt, hal, bne_self_eq_false, Bool.false_eq_true, if_false, hap, State.spAt,
    Nat.not_lt.2 hw, hm, if_true]

theorem adrPlain_peer (hap : inAperture va = false) (hp : inPeer va = true) : s.adrPlain G b a va = .flt 0x04 va := by
  simp only [State.adrPlain, Nat.div_eq_of_lt hlt, hal, bne_self_eq_false, Bool.false_eq_true, if_false, hap, hp, if_true]

theorem adrPlain_memory (hap : inAperture va = false) (hp : inPeer va = false) : s.adrPlain G b a va = s.adrMem G a va := by
  simp only [State.adrPlain, Nat.div_eq_of_lt hlt, hal, bne_self_eq_false, Bool.false_eq_true, if_false, hap, hp]

end

theorem inAperture_iff : inAperture va = true ↔ 0x7FFFFFFFE00000 ≤ va ∧ va < 2 ^ 55 := by
  show (decide (0x7FFFFFFFE00000 ≤ va) && decide (va < 2 ^ 55)) = true ↔ _
  rw [Bool.and_eq_true, decide_eq_true_eq, decide_eq_true_eq]
theorem inPeer_iff : inPeer va = true ↔ 0x7FFFFFFF600000 ≤ va ∧ va < 0x7FFFFFFFE00000 := by
  show (decide (0x7FFFFFFF600000 ≤ va) && decide (va < 0x7FFFFFFFE00000)) = true ↔ _
  rw [Bool.and_eq_true, decide_eq_true_eq, decide_eq_true_eq]
theorem inAperture_eq_false (h : va < 0x7FFFFFFFE00000) : inAperture va = false := by
  rw [← Bool.not_eq_true, inAperture_iff]; omega
theorem inPeer_eq_false (h : va < 0x7FFFFFFF600000) : inPeer va = false := by
  rw [← Bool.not_eq_true, inPeer_iff]; omega

end

/-- Settles O16: each of the five instructions is `memF`, whose checks pass, and an address meets the first of the checks that it
fails. -/
theorem memoryIssueAndChecks : Obligations.MemoryIssueAndChecks := by
  unfold Obligations.MemoryIssueAndChecks
  refine ⟨?issue, ?address⟩
  case issue =>
    intro s x i em ll hc hi hr
    obtain ⟨a, whole, ill, runs, rfl, legal, isWhole⟩ := exec_laneMemory (s := s) hi
    rw [runs, memF_issues hc legal isWhole hr]
    refine ⟨fun ⟨l, hl, active⟩ => ?_, fun none => ?_⟩
    · rw [if_neg (List.ne_nil_of_mem (mem_bitsOf.2 ⟨hl, active⟩))]
    · rw [if_pos (List.eq_nil_iff_forall_not_mem.2 fun l hl => ?_)]
      obtain ⟨hl, active⟩ := mem_bitsOf.1 hl
      exact absurd active (by simp [none l hl])
  case address =>
    intro s G b a va
    refine ⟨adrPlain_beyond, adrPlain_misaligned, fun hlt hal => ⟨fun hap => ?_, fun hp hap => ?_, fun hp => ?_⟩⟩
    · have aperture : inAperture va = true := inAperture_iff.2 ⟨hap, hlt⟩
      exact ⟨adrPlain_outsideWindow hlt hal aperture, adrPlain_inWindow hlt hal aperture⟩
    · exact adrPlain_peer hlt hal (inAperture_eq_false hap) (inPeer_iff.2 ⟨hp, hap⟩)
    · exact adrPlain_memory hlt hal (inAperture_eq_false (by omega)) (inPeer_eq_false hp)

end Sys2Proof.Machine
end

section
/-! What one lane of LD or ST does once its address is known (R185, R189, R201, R213, R216, R257, R262). -/

namespace Sys2Proof.Machine

section
variable {s : State} {g : Nat} {G : Group} {b : Block} {o : Op} {l : OpLane} {h : Hd} {sz : MSz} {d : Reg} {ra rb : RL} {em : EM}
  {off pa pte : Nat}

theorem Op.acc_ld (ho : o.instr = .ld h sz d ra em) : o.acc = ⟨sz.bytes, em, true, false⟩ := by
  rw [Op.acc, ho]; rfl
theorem Op.acc_st (ho : o.instr = .st h sz ra rb em) : o.acc = ⟨sz.bytes, em, false, true⟩ := by
  rw [Op.acc, ho]; rfl

theorem memLane_ld_sp (ho : o.instr = .ld h sz d ra em) : s.memLane g G b o l (.sp off) =
    ({ l with st := .bound ((s.core G.geo.core).spRead off sz.bytes), time := s.spTime b l.va }, s) := by
  simp only [State.memLane, Op.acc_ld ho, if_true, Bool.false_eq_true, if_false]

theorem memLane_st_sp (ho : o.instr = .st h sz ra rb em) : s.memLane g G b o l (.sp off) =
    ({ l with st := .landed }, (s.spStore b l.va sz.bytes l.y).raiseWct g s.tick) := by
  simp only [State.memLane, Op.acc_st ho, Bool.false_eq_true, if_false]

/-! A load of memory: past L1, or by what L1 holds of its bytes (R185, R201, R213). -/

section
variable (ho : o.instr = .ld h sz d ra em)
include ho

theorem memLane_ld_past (hp : pathOf pte pa em.hint.toNat ≠ 0) :
    s.memLane g G b o l (.mem pa pte) = ({ l with pa := pa, pte := pte, st := .vault }, s) := by
  simp only [State.memLane, Op.acc_ld ho, ho, bne_iff_ne.2 hp, if_true]

variable (hp : pathOf pte pa em.hint.toNat = 0)
include hp

theorem memLane_ld_poisoned (hw : (s.core G.geo.core).caPoison pa sz.bytes ≠ none) :
    s.memLane g G b o l (.mem pa pte) =
      ({ l with pa := pa, pte := pte, st := .home }, s.onCore G.geo.core fun k => k.caDrop (lineOf pa)) := by
  obtain ⟨w, hw⟩ := Option.ne_none_iff_exists'.1 hw
  simp only [State.memLane, Op.acc_ld ho, ho, hp, bne_self_eq_false, hw, Bool.false_eq_true, if_false]

variable (hc : (s.core G.geo.core).caPoison pa sz.bytes = none)
include hc

theorem memLane_ld_served {v t : Nat} (hv : (s.core G.geo.core).caLoad s.tick pa sz.bytes = some (v, t)) :
    s.memLane g G b o l (.mem pa pte) =
      ({ l with pa := pa, pte := pte, st := .bound v, time := t },
        s.onCore G.geo.core fun k => k.caTouch (lineOf pa) em.hint.toNat) := by
  simp only [State.memLane, Op.acc_ld ho, ho, hp, bne_self_eq_false, hc, hv, Bool.false_eq_true, if_false]

theorem memLane_ld_missed (hv : (s.core G.geo.core).caLoad s.tick pa sz.bytes = none) :
    s.memLane g G b o l (.mem pa pte) = ({ l with pa := pa, pte := pte, st := .home }, s) := by
  simp only [State.memLane, Op.acc_ld ho, ho, hp, bne_self_eq_false, hc, hv, Bool.false_eq_true, if_false]

end

/-- A store to memory: to the home, or into L1 (R213, R216, R262). -/
theorem memLane_st_mem (ho : o.instr = .st h sz ra rb em) : s.memLane g G b o l (.mem pa pte) =
    if pathOf pte pa em.hint.toNat ≠ 0 ∨ (pteCC pte = 2 ∧ s.ownsCp (ptePA pte) G.geo.core = false) then
      ({ l with pa := pa, pte := pte, st := .vault }, s)
    else ({ l with pa := pa, pte := pte, st := .landed }, s.caStore G.geo.core g pa sz.bytes l.y em.hint.toNat pte) := by
  simp only [State.memLane, Op.acc_st ho, ho, Bool.or_eq_true, Bool.and_eq_true, bne_iff_ne, beq_iff_eq, Bool.not_eq_true']

end

/-- Settles O17: a load by what L1 holds of its bytes, a store by who owns its page. -/
theorem memoryLaneEffects : Obligations.MemoryLaneEffects := by
  unfold Obligations.MemoryLaneEffects
  intro s g G b o l hint h sz d ra rb em off pa pte c n hh
  subst hh
  refine ⟨fun _ _ _ => rfl, fun ho => ⟨memLane_ld_sp ho, memLane_ld_poisoned ho, fun hp clean =>
    ⟨fun _ _ => memLane_ld_served ho hp clean, memLane_ld_missed ho hp clean⟩, memLane_ld_past ho⟩,
    fun ho => ⟨memLane_st_sp ho, ?taken, ?sent⟩⟩
  case taken =>
    intro hp own
    rw [memLane_st_mem ho, if_neg]
    rintro (h | ⟨cp, other⟩)
    · exact h hp
    · rcases own with own | own
      · exact own cp
      · exact absurd (own.symm.trans other) (by simp)
  case sent => intro h; rw [memLane_st_mem ho, if_pos h]

end Sys2Proof.Machine
end

section
/-! What a byte at its home is read from, and what one write performed there leaves (R207, R218, R257–R259, R371). -/

namespace Sys2Proof.Machine

/-! ### States with the same bytes at every home -/

/-- `t` agrees with `s` in all that a byte at its home is read from: the bytes as they stand, the keys under which they stand and those
in force, and the device's own id. -/
structure State.SameBytes (s t : State) : Prop where
  mem : t.mem = s.mem
  keyed : t.ms.keyed = s.ms.keyed
  keys : t.ms.keys = s.ms.keys
  boots : t.ms.boots = s.ms.boots
  encs : t.ms.encs = s.ms.encs
  devid : t.sys.devid = s.sys.devid

namespace State.SameBytes

section
variable {s t u : State}

theorem refl (s : State) : SameBytes s s := ⟨rfl, rfl, rfl, rfl, rfl, rfl⟩
theorem trans (h : SameBytes s t) (k : SameBytes t u) : SameBytes s u :=
  ⟨k.mem.trans h.mem, k.keyed.trans h.keyed, k.keys.trans h.keys, k.boots.trans h.boots, k.encs.trans h.encs,
    k.devid.trans h.devid⟩

theorem isLocal (h : SameBytes s t) (a : Nat) : t.isLocal a = s.isLocal a := by
  simp only [State.isLocal, State.dev, h.devid]
theorem keyOf (h : SameBytes s t) (a : Nat) : t.keyOf a = s.keyOf a := by
  rw [State.keyOf, State.keyOf, State.keySlotOf, State.keySlotOf, h.encs, State.slotKey, State.slotKey, h.keys, h.boots]
theorem homeByte (h : SameBytes s t) (a : Nat) : t.homeByte a = s.homeByte a := by
  rw [State.homeByte, State.homeByte, State.storedKey, State.storedKey, h.isLocal, h.keyOf, h.mem, h.keyed]
theorem homeRead (h : SameBytes s t) (a n : Nat) : t.homeRead a n = s.homeRead a n := by
  induction n generalizing a with
  | zero => rfl
  | succ n ih => rw [State.homeRead, State.homeRead, h.homeByte, ih]
theorem memOk (h : SameBytes s t) (hs : s.MemOk) : t.MemOk := by
  rw [State.MemOk, h.mem]; exact hs

theorem foldl {α : Type} {f : State → α → State} (hf : ∀ s a, SameBytes s (f s a)) (l : List α) (s : State) :
    SameBytes s (l.foldl f s) := by
  induction l generalizing s with
  | nil => exact refl s
  | cons a l ih => exact (hf s a).trans (ih (f s a))

end

/-! Operations that leave every byte at its home as it was. -/

section
variable (s : State)

theorem onCore (c : Nat) (f : Core → Core) : SameBytes s (s.onCore c f) := ⟨rfl, rfl, rfl, rfl, rfl, rfl⟩
theorem onGroup (g : Nat) (f : Group → Group) : SameBytes s (s.onGroup g f) := by
  simp only [State.onGroup]; split <;> exact ⟨rfl, rfl, rfl, rfl, rfl, rfl⟩
theorem onBlock (b : Nat) (f : Block → Block) : SameBytes s (s.onBlock b f) := by
  simp only [State.onBlock]; split <;> exact ⟨rfl, rfl, rfl, rfl, rfl, rfl⟩
theorem raiseWct (g w : Nat) : SameBytes s (s.raiseWct g w) := onGroup s g _
theorem trigger (line : Nat) : SameBytes s (s.trigger line) := ⟨rfl, rfl, rfl, rfl, rfl, rfl⟩
theorem countHit (a : Nat) : SameBytes s (s.countHit a) := ⟨rfl, rfl, rfl, rfl, rfl, rfl⟩
theorem loseWrites (n : Nat) : SameBytes s (s.loseWrites n) := ⟨rfl, rfl, rfl, rfl, rfl, rfl⟩
theorem takeCp (page c : Nat) : SameBytes s (s.takeCp page c) := by
  simp only [State.takeCp]; split <;> exact ⟨rfl, rfl, rfl, rfl, rfl, rfl⟩

/-! What the homes keep of their lines. -/

theorem evict (line : Nat) : SameBytes s (s.evict line) := by
  simp only [State.evict]; split <;> exact ⟨rfl, rfl, rfl, rfl, rfl, rfl⟩
theorem llcRoom (line : Nat) : SameBytes s (s.llcRoom line) := by
  simp only [State.llcRoom]
  split
  · exact refl s
  · split
    · exact refl s
    · exact trans (t := s.open_.2) ⟨rfl, rfl, rfl, rfl, rfl, rfl⟩ (evict _ _)
theorem setHome (line : Nat) (h : HomeLine) : SameBytes s (s.setHome line h) := by
  have room : SameBytes s (if (SMap.get? s.ms.homes line).isSome || !s.isLocal line then s else s.llcRoom line) := by
    split
    · exact refl s
    · exact llcRoom s line
  exact room.trans ⟨rfl, rfl, rfl, rfl, rfl, rfl⟩
theorem setWt (line w : Nat) : SameBytes s (s.setWt line w) := by
  simp only [State.setWt]; split <;> exact ⟨rfl, rfl, rfl, rfl, rfl, rfl⟩
theorem enterLlc (line : Nat) : SameBytes s (s.enterLlc line) := by
  simp only [State.enterLlc]
  split
  · exact refl s
  · exact setHome s line _
theorem wrote (line : Nat) (hc : Bool) : SameBytes s (s.wrote line hc) := by
  have kept : SameBytes s (if hc then s.setHome line ⟨s.lxOf line, s.wctOf line hc, (s.homeLine line).held⟩
      else s.setWt line (s.wctOf line hc)) := by
    cases hc
    · exact setWt s line _
    · exact setHome s line _
  simp only [State.wrote]
  split
  · exact kept
  · exact kept.trans ⟨rfl, rfl, rfl, rfl, rfl, rfl⟩

/-! The end of a lane's access. -/

theorem cldrRecord (bid : Nat) (o : Op) : SameBytes s (s.cldrRecord bid o) := by
  simp only [State.cldrRecord]
  split
  · refine foldl (fun s l => ?_) _ s
    split
    · exact refl s
    · exact onBlock s bid _
  · exact refl s
theorem coreJoin (g : Nat) : SameBytes s (s.coreJoin g) := by
  simp only [State.coreJoin]; split <;> exact ⟨rfl, rfl, rfl, rfl, rfl, rfl⟩
theorem selfInvalidate (c scope time : Nat) : SameBytes s (s.selfInvalidate c scope time) := by
  simp only [State.selfInvalidate]
  split
  · exact refl s
  · split <;> exact ⟨rfl, rfl, rfl, rfl, rfl, rfl⟩
theorem afterLanes (g : Nat) (o : Op) : SameBytes s (s.afterLanes g o) := by
  simp only [State.afterLanes]
  split
  · exact onGroup s g _
  · have done := (cldrRecord s (((s.group? g).map (·.geo.bid)).getD 0) o)
    split
    · refine .trans ?_ (selfInvalidate _ _ _ _)
      split
      · exact done.trans (onGroup _ _ _)
      · exact (done.trans (onGroup _ _ _)).trans (coreJoin _ _)
    · exact done.trans (onGroup _ _ _)
theorem parkHome (g : Nat) (G : Group) (o : Op) (l : OpLane) : SameBytes s (s.parkHome g G o l) := by
  simp only [State.parkHome]
  refine .trans ?_ (afterLanes _ _ _)
  split
  · exact (loseWrites s _).trans (raiseWct _ _ _)
  · exact refl s

end

end State.SameBytes

/-! ### A write performed at the home (R207, R259) -/

/-- A write of `n` bytes within a line stores them and changes no other byte. -/
theorem homeByte_homeWrite (s : State) (a n v b : Nat) (hc : Bool) (hn : a % 128 + n ≤ 128) (hs : s.MemOk) :
    (s.homeWrite a n v hc).homeByte b = if a ≤ b ∧ b < a + n then .ofNat 8 (v / 2 ^ (8 * (b - a))) else s.homeByte b := by
  have kept := State.SameBytes.wrote s (lineOf a) hc
  rw [State.homeWrite, (State.SameBytes.trigger _ _).homeByte, homeByte_pokeN _ _ _ _ _ hn (kept.memOk hs), kept.homeByte]

end Sys2Proof.Machine
end

section
/-! Atomics performed at their homes, and accesses at the vault controllers (R173, R207, R213, R218–R220). -/

namespace Sys2Proof.Machine

/-! ### What an atomic brings to the home -/

section
variable {s : State} {c line : Nat}

/-- A line that the core holds no dirty bytes of has nothing to write back. -/
theorem writeBack_clean (h : ∀ cl, (s.core c).caLine line = some cl → cl.dirty = 0) : s.writeBack c line = s := by
  simp only [State.writeBack]
  split
  · rfl
  · next cl hcl => rw [if_pos (h cl hcl)]

/-- Such a line only leaves the core's L1. -/
theorem sendHome_clean (h : ∀ cl, (s.core c).caLine line = some cl → cl.dirty = 0) :
    s.sendHome c [line] = s.onCore c fun k => k.caDrop line := by
  simp only [State.sendHome, List.foldl_cons, List.foldl_nil, writeBack_clean h]

theorem homeLine_setHome (h : HomeLine) : (s.setHome line h).homeLine line = h := SMap.getD_put_self _ _ _ _

/-- A line that comes into the LLC is there as its home knew it. -/
theorem homeLine_enterLlc : (s.enterLlc line).homeLine line = s.homeLine line := by
  simp only [State.enterLlc]
  split
  · rfl
  · exact homeLine_setHome _

theorem homeLine_takeCp (page : Nat) : (s.takeCp page c).homeLine line = s.homeLine line := by
  simp only [State.takeCp]; split <;> rfl

end

/-- The state in which the atomic of a lane is performed: its line has left the core's L1 and stands in the LLC, and a CP page has its
owner (R202, R218, R262). -/
def State.broughtHome (s : State) (c : Nat) (l : OpLane) : State :=
  let s1 := s.sendHome c [lineOf l.pa]
  (if pteCC l.pte = 2 then s1.takeCp (ptePA l.pte) c else s1).enterLlc (lineOf l.pa)

section
variable {s : State} {g c : Nat} {o : Op} {l : OpLane} {rem : Option Nat}

theorem homeLane_atHome (hh : l.atHome = true) :
    s.homeLane g c o l rem = (s.broughtHome c l).rmwLane g o l (pteCC l.pte == 0) rem := by
  simp only [State.homeLane, hh, if_true]
  rfl

section
variable (h : ∀ cl, (s.core c).caLine (lineOf l.pa) = some cl → cl.dirty = 0)
include h

theorem sameBytes_broughtHome : State.SameBytes s (s.broughtHome c l) := by
  simp only [State.broughtHome, sendHome_clean h]
  refine .trans ?_ (.enterLlc _ _)
  split
  · exact (State.SameBytes.onCore s c _).trans (.takeCp _ _ _)
  · exact .onCore s c _

theorem homeLine_broughtHome : (s.broughtHome c l).homeLine (lineOf l.pa) = s.homeLine (lineOf l.pa) := by
  simp only [State.broughtHome, sendHome_clean h, homeLine_enterLlc]
  split
  · exact homeLine_takeCp _
  · rfl

end

/-- R218: a read-modify-write of this device's memory, as one step. -/
theorem rmwLane_local {hc : Bool} (hl : s.isLocal l.pa = true) :
    s.rmwLane g o l hc rem =
      ((((s.countHit l.pa).homeWrite l.pa o.acc.sz (o.newVal l (s.homeRead l.pa o.acc.sz)) hc).raiseWct g
        (s.wctOf l.pa hc)).afterLanes g
          (o.putLane { l with st := .bound (s.homeRead l.pa o.acc.sz), time := (s.homeLine (lineOf l.pa)).wt })) := by
  simp only [State.rmwLane, hl, if_true]

/-! ### The vault controller (R207, R213) -/

/-- What is homed on this device answers, and is no configuration space (R204, R330). -/
theorem isLocal_addrOk {a : Nat} (hl : s.isLocal a = true) : s.addrOk a = true := by
  obtain ⟨space, dev⟩ := Bool.and_eq_true_iff.1 hl
  simp only [State.addrOk, beq_iff_eq.1 space, dev, Bool.true_or]
theorem isLocal_notConfig {a : Nat} (hl : s.isLocal a = true) : isConfig a = false := by
  obtain ⟨space, -⟩ := Bool.and_eq_true_iff.1 hl
  simp only [isConfig, beq_iff_eq.1 space]
  rfl

theorem OpLane.atHome_of_atVault (hv : l.atVault = true) : l.atHome = false := by
  simp only [atVault] at hv
  simp only [atHome]
  split at hv
  · next st => rw [st]
  · cases hv

section
variable (hv : l.atVault = true) (hl : s.isLocal l.pa = true) (hcp : pteCC l.pte ≠ 2)
  (hp : pathOf l.pte l.pa o.acc.em.hint.toNat = 2)
include hv hl hcp hp

/-- A load there binds the home's bytes. -/
theorem homeLane_vault_reads (hw : o.acc.wr = false) : s.homeLane g c o l rem =
    s.afterLanes g (o.putLane { l with st := .bound (s.homeRead l.pa o.acc.sz), time := (s.homeLine (lineOf l.pa)).wt }) := by
  simp [State.homeLane, OpLane.atHome_of_atVault hv, isLocal_addrOk hl, hp, hcp, hl, hw, State.vaultRead, isLocal_notConfig hl]

/-- A store there is a write at the home. -/
theorem homeLane_vault_writes (hw : o.acc.wr = true) (hr : o.acc.rd = false) : s.homeLane g c o l rem =
    (((s.countHit l.pa).homeWrite l.pa o.acc.sz l.y false).raiseWct g (s.wctOf l.pa false)).afterLanes g
      (o.putLane { l with st := .landed }) := by
  simp [State.homeLane, OpLane.atHome_of_atVault hv, isLocal_addrOk hl, hp, hcp, hw, hr, State.vaultWrite, isLocal_notConfig hl]

end

/-- A write at the home that ends a lane's access: the bytes that it stores, and no other. -/
theorem homeByte_written {s0 : State} {n v w b : Nat} {hc : Bool} {o' : Op} (h : State.SameBytes s0 s) (hs : s0.MemOk)
    (hn : l.pa % 128 + n ≤ 128) :
    ((((s.countHit l.pa).homeWrite l.pa n v hc).raiseWct g w).afterLanes g o').homeByte b =
      if l.pa ≤ b ∧ b < l.pa + n then .ofNat 8 (v / 2 ^ (8 * (b - l.pa))) else s0.homeByte b := by
  have counted := h.trans (.countHit s l.pa)
  rw [(State.SameBytes.afterLanes _ _ _).homeByte, (State.SameBytes.raiseWct _ _ _).homeByte,
    homeByte_homeWrite _ _ _ _ _ _ hn (counted.memOk hs), counted.homeByte]

end

/-! ### The lanes that go to their homes together (R173) -/

section
variable {s : State} {g op lane : Nat} {G : Group} {b : Block} {o : Op} {l : OpLane} {rem : Option Nat}

theorem Group.op?_id (ho : G.op? op = some o) : o.id = op := by
  simpa using List.find?_some ho

theorem Op.first_some {p : OpLane → Bool} (hf : o.first p = some l) : p l = true := List.find?_some hf

/-- A lane that goes to its home alone, and that nothing holds there, is performed. -/
theorem atHomes_alone (hG : s.group? g = some G) (ho : G.op? op = some o) (hw : (l.atHome || l.atVault) = true)
    (alone : o.together G l = [l]) (hv : s.vaultFirst G.geo.core o l = true) (hd : s.drained l.pa = true)
    (hm : pathOf l.pte l.pa o.acc.em.hint.toNat = 2 ∨ s.lineMoves G.geo.core l.pa = false) (hf : s.ligHomeFlt G o l = false) :
    s.atHomes g G b o l rem = s.homeLane g G.geo.core o l (remOf rem 0) := by
  have id := Group.op?_id ho
  have notWaiting : (!l.atHome && !l.atVault) = false := by rw [← Bool.not_or, hw]; rfl
  have free : (pathOf l.pte l.pa o.acc.em.hint.toNat != 2 && s.lineMoves G.geo.core l.pa) = false := by
    rcases hm with hm | hm <;> simp [hm]
  subst id
  simp [State.atHomes, alone, State.heldLimbs, notWaiting, State.homeHeld, hv, hd, free, hf, hG, ho]

/-- R173: where a limb faults at its home, no byte of memory changes. -/
theorem sameBytes_atHomes_faults (hf : s.ligHomeFlt G o l = true) : State.SameBytes s (s.atHomes g G b o l rem) := by
  simp only [State.atHomes, hf, if_true]
  split
  · exact .refl s
  · exact .parkHome s g G o l

/-! ### ATOMIC_AT_HOME and VAULT_ACCESS -/

/-- ATOMIC_AT_HOME of the lowest waiting lane of an ATOM or CXCH. -/
theorem exec_atomicAtHome_due (hG : s.group? g = some G) (ho : G.op? op = some o) (hb : s.block? G.geo.bid = some b)
    (hf : o.first OpLane.atHome = some l) (hl : l.lane = lane)
    (hi : (∃ h sz d a e em, o.instr = .atom h sz d a e em) ∨ ∃ h d a e em, o.instr = .cxch h d a e em) :
    exec (.atomicAtHome g op lane rem) s = .next (s.atHomes g G b o l rem) := by
  rw [exec_atomicAtHome, execAtomicAtHome, atomicAtHomeF]
  rcases hi with ⟨h, sz, d, a, e, em, hi⟩ | ⟨h, d, a, e, em, hi⟩ <;> simp [hG, ho, hb, hf, hl, hi, isLoad]

/-- VAULT_ACCESS of a lane that waits at the vault controller. -/
theorem exec_vaultAccess_due (hG : s.group? g = some G) (ho : G.op? op = some o) (hb : s.block? G.geo.bid = some b)
    (hf : (o.first fun l => l.atVault && l.lane == lane) = some l) :
    exec (.vaultAccess g op lane rem) s = .next (s.atHomes g G b o l rem) := by
  rw [exec_vaultAccess, execVaultAccess, vaultF]
  simp only [hG, ho, hb, hf]

/-- R173: ATOMIC_AT_HOME where a limb of the lowest waiting lane's ligature faults; a CLDR has no such limbs. -/
theorem exec_atomicAtHome_faults (hG : s.group? g = some G) (ho : G.op? op = some o) (hf : o.first OpLane.atHome = some l)
    (hi : ∀ h d a em, o.instr ≠ .cldr h d a em) (hflt : s.ligHomeFlt G o l = true) :
    ∃ t, exec (.atomicAtHome g op lane rem) s = .next t ∧ State.SameBytes s t := by
  refine ⟨_, rfl, ?_⟩
  obtain hb | ⟨b, hb⟩ := Option.eq_none_or_eq_some (s.block? G.geo.bid)
  · simp only [atomicAtHomeF, hG, ho, hb]
    exact .refl s
  · simp only [atomicAtHomeF, hG, ho, hb, hf]
    split
    · exact .refl s
    · exact sameBytes_atHomes_faults hflt

/-- R173: the same at the vault controller. -/
theorem exec_vaultAccess_faults (hG : s.group? g = some G) (ho : G.op? op = some o)
    (hf : (o.first fun l => l.atVault && l.lane == lane) = some l) (hflt : s.ligHomeFlt G o l = true) :
    ∃ t, exec (.vaultAccess g op lane rem) s = .next t ∧ State.SameBytes s t := by
  obtain hb | ⟨b, hb⟩ := Option.eq_none_or_eq_some (s.block? G.geo.bid)
  · refine ⟨s, ?_, .refl s⟩
    rw [exec_vaultAccess, execVaultAccess, vaultF]
    simp only [hG, ho, hb]
  · exact ⟨_, exec_vaultAccess_due hG ho hb hf, sameBytes_atHomes_faults hflt⟩

end

/-- Settles O21: a lane that goes home alone is one read or one write there, and a ligature with a fault is parked whole. -/
theorem atomicsAtHomeAndVault : Obligations.AtomicsAtHomeAndVault := by
  unfold Obligations.AtomicsAtHomeAndVault
  refine ⟨?home, ?vault, ?faults⟩
  case home =>
    intro s g op lane rem G o b l hs hG ho hb hf hl hd hloc hn hm hv hflt alone clean hi
    have atHome : l.atHome = true := Op.first_some hf
    have same := sameBytes_broughtHome clean
    have performed := (atHomes_alone (b := b) (rem := rem) hG ho (by rw [atHome]; rfl) alone hv hd (.inr hm) hflt).trans
      ((homeLane_atHome atHome).trans (rmwLane_local ((same.isLocal l.pa).trans hloc)))
    rw [same.homeRead, homeLine_broughtHome clean] at performed
    exact ⟨_, _, (exec_atomicAtHome_due hG ho hb hf hl hi).trans (congrArg _ performed), rfl,
      fun a => homeByte_written same hs hn⟩
  case vault =>
    intro s g op lane rem G o b l hs hG ho hb hf alone hv hflt hd hloc hcp hp hn
    have atVault : l.atVault = true := (Bool.and_eq_true_iff.1 (Op.first_some hf)).1
    have performed := (exec_vaultAccess_due (rem := rem) hG ho hb hf).trans
      (congrArg _ (atHomes_alone hG ho (by rw [atVault, Bool.or_true]) alone hv hd (.inl hp) hflt))
    exact ⟨fun hw => performed.trans (congrArg _ (homeLane_vault_reads atVault hloc hcp hp hw)),
      fun hw hr => ⟨_, _, performed.trans (congrArg _ (homeLane_vault_writes atVault hloc hcp hp hw hr)), rfl,
        fun a => homeByte_written (.refl s) hs hn⟩⟩
  case faults =>
    intro s g op lane rem G o l hG ho hflt
    refine ⟨fun hf hi => ?_, fun hf => ?_⟩
    · obtain ⟨t, ht, same⟩ := exec_atomicAtHome_faults (lane := lane) (rem := rem) hG ho hf
        (fun h d a em e => by rw [e] at hi; exact hi) hflt
      exact ⟨t, ht, same.homeByte⟩
    · obtain ⟨t, ht, same⟩ := exec_vaultAccess_faults (rem := rem) hG ho hf hflt
      exact ⟨t, ht, same.homeByte⟩

end Sys2Proof.Machine
end

section
/-! What a write at its home depends on and changes beside memory (R180, R205, R223, R259, R359). -/

namespace Sys2Proof.Machine

/-! ### Steps of memory alone -/

/-- `r` with the memory of `s`: its bytes, what the homes keep of their lines, the next open value. -/
def State.withMem (r s : State) : State := { r with mem := s.mem, ms := s.ms, free := s.free }

/-- `f` reads memory, the device's own id and TICK, and changes memory alone. -/
def MemStep (f : State → State) : Prop :=
  ∀ r s : State, r.dev = s.dev → r.tick = s.tick → f (r.withMem s) = r.withMem (f s)

section
variable {f k : State → State}

/-- What such a step leaves is the state that it began in, with another memory. -/
theorem MemStep.frame (hf : MemStep f) (s : State) : f s = s.withMem (f s) := hf s s rfl rfl
theorem MemStep.groups (hf : MemStep f) (s : State) : (f s).groups = s.groups := (congrArg State.groups (hf.frame s)).trans rfl
theorem MemStep.dev (hf : MemStep f) (s : State) : (f s).dev = s.dev := (congrArg State.dev (hf.frame s)).trans rfl
theorem MemStep.tick (hf : MemStep f) (s : State) : (f s).tick = s.tick := (congrArg State.tick (hf.frame s)).trans rfl

theorem MemStep.comp (hk : MemStep k) (hf : MemStep f) : MemStep fun s => k (f s) := fun r s hd ht =>
  (congrArg k (hf r s hd ht)).trans (hk r (f s) (hd.trans (hf.dev s).symm) (ht.trans (hf.tick s).symm))

end

section
variable {r s : State}

theorem sameBytes_withMem (hd : r.dev = s.dev) : State.SameBytes s (r.withMem s) := ⟨rfl, rfl, rfl, rfl, rfl, hd⟩

theorem lxOf_withMem (ht : r.tick = s.tick) (line : Nat) : (r.withMem s).lxOf line = s.lxOf line := by
  have tick : (r.withMem s).tick = s.tick := ht
  rw [State.lxOf, State.lxOf, tick]
  rfl
theorem homeLine_withMem (ht : r.tick = s.tick) (line : Nat) : (r.withMem s).homeLine line = s.homeLine line := by
  rw [State.homeLine, State.homeLine, lxOf_withMem ht]
  rfl
theorem wctOf_withMem (hd : r.dev = s.dev) (ht : r.tick = s.tick) (a : Nat) (hc : Bool) :
    (r.withMem s).wctOf a hc = s.wctOf a hc := by
  have tick : (r.withMem s).tick = s.tick := ht
  rw [State.wctOf, State.wctOf, (sameBytes_withMem hd).isLocal, lxOf_withMem ht, tick]
  rfl

end

section
variable (line : Nat)

theorem memStep_evict : MemStep fun s => s.evict line := fun r s _ _ => by
  have found : SMap.get? (r.withMem s).ms.homes line = SMap.get? s.ms.homes line := rfl
  simp only [State.evict, found]
  cases SMap.get? s.ms.homes line <;> rfl

theorem memStep_llcRoom : MemStep fun s => s.llcRoom line := fun r s hd ht => by
  have isLocal : (r.withMem s).isLocal = s.isLocal := funext (sameBytes_withMem hd).isLocal
  have llcSet : (r.withMem s).llcSet = s.llcSet := rfl
  have homes : (r.withMem s).ms.homes = s.ms.homes := rfl
  have opens : (r.withMem s).open_ = (s.open_.1, r.withMem s.open_.2) := rfl
  simp only [State.llcRoom, isLocal, llcSet, homes, opens]
  split
  · rfl
  · split
    · rfl
    · exact memStep_evict _ r s.open_.2 hd ht

theorem memStep_setHome (h : HomeLine) : MemStep fun s => s.setHome line h := fun r s hd ht => by
  have isLocal := (sameBytes_withMem (r := r) hd).isLocal line
  have homes : (r.withMem s).ms.homes = s.ms.homes := rfl
  have room : (r.withMem s).llcRoom line = r.withMem (s.llcRoom line) := memStep_llcRoom line r s hd ht
  simp only [State.setHome, isLocal, homes, room]
  split <;> rfl

theorem memStep_setWt (w : Nat) : MemStep fun s => s.setWt line w := fun r s _ _ => by
  have found : SMap.get? (r.withMem s).ms.homes line = SMap.get? s.ms.homes line := rfl
  simp only [State.setWt, found]
  cases SMap.get? s.ms.homes line <;> rfl

theorem memStep_wrote (hc : Bool) : MemStep fun s => s.wrote line hc := fun r s hd ht => by
  have isLocal := (sameBytes_withMem (r := r) hd).isLocal line
  have home (h : HomeLine) : (r.withMem s).setHome line h = r.withMem (s.setHome line h) := memStep_setHome line h r s hd ht
  have wt (w : Nat) : (r.withMem s).setWt line w = r.withMem (s.setWt line w) := memStep_setWt line w r s hd ht
  simp only [State.wrote, isLocal, lxOf_withMem ht, wctOf_withMem hd ht, homeLine_withMem ht, home, wt]
  cases hc <;> cases s.isLocal line <;> rfl

theorem memStep_rekeyLine (a : Nat) : MemStep fun s => s.rekeyLine a := fun r s hd _ => by
  have same := sameBytes_withMem (r := r) hd
  have storedKey : (r.withMem s).storedKey a = s.storedKey a := rfl
  simp only [State.rekeyLine, same.isLocal, same.keyOf, same.homeRead, storedKey]
  split <;> rfl

theorem memStep_pokeN (a n v : Nat) : MemStep fun s => s.pokeN a n v := fun r s hd ht => by
  have rekeyed : (r.withMem s).rekeyLine a = r.withMem (s.rekeyLine a) := memStep_rekeyLine a r s hd ht
  simp only [State.pokeN, rekeyed]
  rfl

end

/-! ### Writes at their homes -/

/-- `r` with the memory of `s` and its groups, whose watches a write at its home triggers. -/
def State.withHomes (r s : State) : State := { r with mem := s.mem, ms := s.ms, free := s.free, groups := s.groups }

/-- `f` reads memory, groups, the device's own id and TICK, and changes memory and groups alone. -/
def HomeStep (f : State → State) : Prop :=
  ∀ r s : State, r.dev = s.dev → r.tick = s.tick → f (r.withHomes s) = r.withHomes (f s)

section
variable {f k : State → State}

theorem HomeStep.frame (hf : HomeStep f) (s : State) : f s = s.withHomes (f s) := hf s s rfl rfl

theorem HomeStep.sys (hf : HomeStep f) (s : State) : (f s).sys = s.sys := (congrArg State.sys (hf.frame s)).trans rfl
theorem HomeStep.tr (hf : HomeStep f) (s : State) : (f s).tr = s.tr := (congrArg State.tr (hf.frame s)).trans rfl
theorem HomeStep.dev (hf : HomeStep f) (s : State) : (f s).dev = s.dev := (congrArg State.dev (hf.frame s)).trans rfl
theorem HomeStep.tick (hf : HomeStep f) (s : State) : (f s).tick = s.tick := (congrArg State.tick (hf.frame s)).trans rfl

theorem HomeStep.comp (hk : HomeStep k) (hf : HomeStep f) : HomeStep fun s => k (f s) := fun r s hd ht =>
  (congrArg k (hf r s hd ht)).trans (hk r (f s) (hd.trans (hf.dev s).symm) (ht.trans (hf.tick s).symm))

theorem HomeStep.foldl {α : Type} {f : State → α → State} (hf : ∀ a, HomeStep fun s => f s a) (l : List α) :
    HomeStep fun s => l.foldl f s := by
  induction l with
  | nil => exact fun _ _ _ _ => rfl
  | cons a l ih => exact ih.comp (hf a)

theorem MemStep.homeStep (hf : MemStep f) : HomeStep f := fun r s hd ht => by
  have step : f (r.withHomes s) = ({ r with groups := s.groups } : State).withMem (f s) := hf { r with groups := s.groups } s hd ht
  rw [step, State.withHomes, hf.groups]
  rfl

end

theorem homeStep_trigger (line : Nat) : HomeStep fun s => s.trigger line := fun _ _ _ _ => rfl

theorem homeStep_homeWrite (a n v : Nat) (hc : Bool) : HomeStep fun s => s.homeWrite a n v hc :=
  (homeStep_trigger _).comp ((memStep_pokeN a n v).comp (memStep_wrote (lineOf a) hc)).homeStep

theorem homeStep_homeWriteN (a : Nat) (bs : List Byte) : HomeStep fun s => s.homeWriteN a bs :=
  (HomeStep.foldl (fun l => (homeStep_trigger l).comp (memStep_wrote l true).homeStep) _).comp
    (HomeStep.foldl (fun (e : Byte × Nat) => (memStep_pokeN (a + e.2) 1 e.1.toNat).homeStep) _)

theorem homeRead_withHomes {r s : State} (hd : r.dev = s.dev) (a n : Nat) : (r.withHomes s).homeRead a n = s.homeRead a n :=
  State.SameBytes.homeRead (s := s) (t := r.withHomes s) ⟨rfl, rfl, rfl, rfl, rfl, hd⟩ a n

/-- A record of a fault log (R180). -/
theorem homeStep_logWrite (log rec : Nat) : HomeStep fun s => s.logWrite log rec := fun r s hd ht => by
  simp only [State.logWrite, homeRead_withHomes hd]
  split
  · exact ((homeStep_homeWrite _ _ _ _).comp (homeStep_homeWriteN _ _)) r s hd ht
  · exact homeStep_homeWrite _ _ _ _ r s hd ht

/-! ### Watches (R223) -/

/-- A map whose entries are changed each by itself. -/
theorem SMap.get?_map {α β : Type} (f : α → β) (m : SMap α) (k : Nat) :
    SMap.get? (m.map fun e => (e.1, f e.2)) k = (SMap.get? m k).map f := by
  induction m with
  | nil => rfl
  | cons e m ih =>
    obtain ⟨a, v⟩ := e
    simp only [List.map_cons, SMap.get?, ih]
    split
    · rfl
    · split <;> rfl

/-- What a write at its home does to a group: it triggers the watches on the line. -/
theorem State.group?_homeWrite {s : State} {g : Nat} {G : Group} (hG : s.group? g = some G) (a n v : Nat) (hc : Bool) :
    (s.homeWrite a n v hc).group? g = some (G.seeWrite (lineOf a)) := by
  have kept : ((s.wrote (lineOf a) hc).pokeN a n v).groups = s.groups :=
    ((memStep_pokeN a n v).comp (memStep_wrote (lineOf a) hc)).groups s
  rw [homeWrite, trigger, group?, kept, SMap.get?_map, show SMap.get? s.groups g = some G from hG]
  rfl

end Sys2Proof.Machine
end

section
/-! MONITOR, MWAIT and what wakes a sleeper (R174, R223, R224). -/

namespace Sys2Proof.Machine

section
variable {s s' : State} {x : Cur} {h : Hd} {a : Reg}

/-- MONITOR of an address that its checks let through (R223). -/
theorem exec_monitor_watches {b : Block} {p : Piece} {ps : List Piece} (hc : cur s = some x) (hr : UniRuns x h [a])
    (hv : uVal x a < 0x7FFFFFFF600000) (ha : UniAccess s x [a] (uVal x a) 1 1 true false b (p :: ps) s') :
    exec (.monitor h a) s =
      .next (s'.finish x (uniRead x [a]) { x.K.adv h s'.tick with watch := some ⟨lineOf p.pa, false⟩ }) := by
  rw [exec_monitor, execMonitor, monitorF, runUni_noPre hc hr]
  simp only [uVal_readCur, inAperture_eq_false (Nat.lt_trans hv (by decide)), inPeer_eq_false hv, Bool.or_self, Bool.false_eq_true,
    if_false, uniIssue_passes ha]
  rfl

/-- MONITOR in an aperture (R223). -/
theorem exec_monitor_aperture (hc : cur s = some x) (hr : UniRuns x h [a]) (hv : inAperture (uVal x a) || inPeer (uVal x a)) :
    exec (.monitor h a) s = .next (s.uniFault x (uFreed x a) 0x06 (uVal x a) 0x9E) := by
  have one : [a].any (uFreed x) = uFreed x a := by simp
  rw [exec_monitor, execMonitor, monitorF, runUni_noPre hc hr]
  simp only [uVal_readCur, uFreed_readCur, hv, if_true]
  rw [← one, uniFault_readCur]

/-! MWAIT by the gang's watch (R224). -/

theorem exec_mwait_unwatched (hc : cur s = some x) (hr : UniRuns x h [a]) (hw : x.K.watch = none) :
    exec (.mwait h a) s = .next (s.doneP x h (uniRead x [a])) := by
  rw [exec_mwait, execMwait, mwaitF, runUni_noPre hc hr]
  simp only [readCur_K, hw]
  rfl

theorem exec_mwait_watching {w : Watch} (hc : cur s = some x) (hr : UniRuns x h [a]) (hw : x.K.watch = some w) :
    exec (.mwait h a) s = .next (
      if w.trig then s.finish x (uniRead x [a]) { x.K.adv h s.tick with watch := none }
      else s.finish x (uniRead x [a])
        { x.K.adv h s.tick with st := .sleep, wake := some (if uVal x a = 0 then 0 else s.tick + uVal x a) }) := by
  rw [exec_mwait, execMwait, mwaitF, runUni_noPre hc hr]
  simp only [readCur_K, hw, uVal_readCur]
  rfl

end

section
variable {s : State} {g k t : Nat} {G : Group} {K : Gang}

/-- MWAIT_TIMEOUT at a gang that sleeps (R174, R224). -/
theorem exec_mwaitTimeout_asleep (hG : s.group? g = some G) (hK : G.gang? k = some K) (hw : K.wake = some t) (hs : K.st = .sleep) :
    exec (.mwaitTimeout g k) s = .next (
      if t ≠ 0 ∧ t ≤ s.tick then
        s.putGroup g (G.putGang { K with st := .ready, wake := none, watch := none, stopped := K.stopped || G.pending })
      else s) := by
  rw [exec_mwaitTimeout, execMwaitTimeout, mwaitTimeoutF]
  simp only [hG, hK, hw, hs, true_and]
  rfl

end

/-- A write of the watched line wakes a sleeper, which stays stopped while a fault is pending (R174, R223). -/
theorem Gang.seeWrite_asleep {K : Gang} {w : Watch} {line : Nat} (hw : K.watch = some w) (hl : w.line = line) (hs : K.st = .sleep)
    (hk : K.wake.isSome = true) (pend : Bool) :
    K.seeWrite line pend = { K with st := .ready, wake := none, watch := none, stopped := K.stopped || pend } := by
  simp only [seeWrite, hw, hl, hs, hk, and_self, if_true, wakes]

/-- Settles O30: MONITOR by its address, MWAIT by the watch, and a sleeper by what wakes it. -/
theorem watches : Obligations.Watches := by
  unfold Obligations.Watches
  refine ⟨?monitor, ?aperture, ?mwait, ?timeout, ?write⟩
  case monitor => exact fun s x h a b p ps s' hc hr hv ha => exec_monitor_watches hc hr hv ha
  case aperture =>
    intro s x h a hc hr hlo hhi
    refine exec_monitor_aperture hc hr ?_
    rw [Bool.or_eq_true, inAperture_iff, inPeer_iff]
    omega
  case mwait =>
    intro s x h a hc hr
    refine ⟨exec_mwait_unwatched hc hr, fun w hw => ?_⟩
    rw [exec_mwait_watching hc hr hw]
    exact ⟨fun ht => congrArg _ (if_pos ht), fun ht hv => by simp [ht, Nat.ne_of_gt hv], fun ht hv => by simp [ht, hv]⟩
  case timeout =>
    intro s g k t G K hG hK hw hs
    rw [exec_mwaitTimeout_asleep hG hK hw hs]
    exact ⟨fun hpos hle => congrArg _ (if_pos ⟨Nat.ne_of_gt hpos, hle⟩), fun hn => congrArg _ (if_neg (by omega))⟩
  case write =>
    intro s g a n v hc G K w hG hK hw hl hs hk
    refine ⟨_, State.group?_homeWrite hG a n v hc, ?_⟩
    rw [← Gang.seeWrite_asleep hw hl hs hk]
    exact List.mem_map_of_mem hK

end Sys2Proof.Machine
end

section
/-! The debug stop and blame samples (R361, R365). -/

namespace Sys2Proof.Machine

/-! ### Debug stop (R365) -/

/-- A trace record leaves the part's own system state as it was (R359). -/
theorem State.traceRec_sys (s : State) (kind b9 h10 a b data : Nat) : (s.traceRec kind b9 h10 a b data).sys = s.sys := by
  simp only [traceRec]
  split
  · rfl
  · split
    · exact (homeStep_homeWriteN _ _).sys s
    · rfl

section
variable {s : State}

theorem exec_debugStop_due (ha : s.sys.arm = true) (hl : s.sys.life = 3) (ht : s.tick = s.sys.stopTick)
    (hs : s.sys.stopped = false) :
    exec .debugStop s = .next
      { s.traceRec 2 0 0 0 0 0 with sys := { (s.traceRec 2 0 0 0 0 0).sys with stopped := true, arm := false } } := by
  rw [exec_debugStop, execDebugStop, debugStopF]
  simp [State.stopDue, ha, hl, ht, hs]

theorem exec_debugStop_notDue (h : s.sys.arm = false ∨ s.sys.life ≠ 3 ∨ s.tick ≠ s.sys.stopTick) :
    exec .debugStop s = .next s := by
  have notDue : s.stopDue = false := by
    rcases h with h | h | h <;> simp [State.stopDue, h]
  rw [exec_debugStop, execDebugStop, debugStopF, notDue]
  rfl

/-! ### Blame (R361) -/

variable {c g sl f : Nat} {K : Gang} {G : Group}

/-- A blame sample that is due names the waiter whose slice comes next. -/
theorem exec_blameSample_due (hten : s.ten = true) (hbl : bit s.tr.tctl 2 = true) (hti : s.tick % 2 ^ fld s.tr.tctl 15 8 = 0)
    (hnew : (s.core c).blamed ≠ s.tick + 1) (hw : nextWaiter (s.core c).blame (s.flagWaiters c) = some (g, K, sl))
    (hG : s.group? g = some G) (hf : G.waitsOn K = some f) :
    exec (.blameSample c) s = .next ((s.traceRec 1 f c K.pc (s.producer g G f) 0).onCore c fun k =>
      { k with blame := (sl + 1) % 16, blamed := s.tick + 1 }) := by
  rw [exec_blameSample, execBlameSample, blameF]
  simp [hten, hbl, hti, hnew, hw, hG, hf]

/-- A core gives one sample a tick. -/
theorem exec_blameSample_again (h : (s.core c).blamed = s.tick + 1) : exec (.blameSample c) s = .next s := by
  rw [exec_blameSample, execBlameSample, blameF]
  simp [h]

end

/-- The next waiter is one of those that wait, and none has its slice nearer after slice `n`. -/
theorem nextWaiter_nearest (n : Nat) (ws : List (Nat × Gang × Nat)) (h : ws ≠ []) :
    ∃ w ∈ ws, nextWaiter n ws = some w ∧ ∀ v ∈ ws, (w.2.2 + 16 - n) % 16 ≤ (v.2.2 + 16 - n) % 16 := by
  induction ws with
  | nil => exact absurd rfl h
  | cons a ws ih =>
    by_cases hn : ws = []
    · subst hn
      exact ⟨a, List.mem_cons_self, rfl, by simp⟩
    · obtain ⟨w, hw, next, nearest⟩ := ih hn
      simp only [nextWaiter, next]
      split
      · next nearer =>
        exact ⟨w, List.mem_cons_of_mem a hw, rfl, List.forall_mem_cons.2 ⟨Nat.le_of_lt nearer, nearest⟩⟩
      · next notNearer =>
        exact ⟨a, List.mem_cons_self, rfl, List.forall_mem_cons.2 ⟨Nat.le_refl _, fun v hv =>
          Nat.le_trans (Nat.le_of_not_lt notNearer) (nearest v hv)⟩⟩

end Sys2Proof.Machine
end

section
/-! The replay injector and the scrubber (R180, R185, R364). -/

namespace Sys2Proof.Machine

/-! ### The replay injector (R364) -/

/-- The record that the injector reads next. -/
def State.nextRecord (s : State) : List Nat := s.homeBytes (s.tr.rbase / 64 * 64 + 64 * s.tr.rdone) 64
/-- The write that a record stands for. -/
def recordReq (b : List Nat) : HostReq :=
  ⟨leAt b 0x0A 2, leAt b 0x10 8, leAt b 9 1, leAt b 0x18 8 / 8 % 4, leAt b 0x18 8 % 8, some none,
    leAt b 0x20 32 % 2 ^ (8 * leAt b 9 1), 0⟩
/-- The injector's registers after one more record: RGO is clear after the last. -/
def Trace.recordDone (tr : Trace) : Trace := { tr with rdone := tr.rdone + 1, rgo := decide (tr.rdone + 1 < tr.rcount) }

section
variable {s : State}

/-- The canonical form of an address outside device memory lies outside it too (R206). -/
theorem paSpace_of_canon {a : Nat} (h : paSpace (canon a) = 0) : paSpace a = 0 := by
  by_cases hi : paSpace a = 0 ∧ a / 2 ^ 39 % 2 = 1
  · exact hi.1
  · rwa [canon, if_neg hi] at h

theorem recordData_notCapturing {kind who addr ordsc n data : Nat} (h : s.capturing = false) :
    s.recordData kind who addr ordsc n data = s := by
  simp only [State.recordData, h, Bool.not_false, if_true]

/-- A write of this device's memory that comes from another device is one write at its home (R259, R363). -/
theorem inject_write (r : HostReq) (hop : r.op = some none) (hl : s.isLocal (canon r.addr) = true)
    (hd : s.drained (canon r.addr) = true) (hcap : s.capturing = false) :
    s.inject r = s.homeWriteN (canon r.addr) (natBytes r.size r.data) := by
  have memory : (paSpace r.addr != 5) = true := by
    rw [paSpace_of_canon (beq_iff_eq.1 (Bool.and_eq_true_iff.1 hl).1)]; rfl
  have silent : (s.homeWriteN (canon r.addr) (natBytes r.size r.data)).capturing = false := by
    rw [State.capturing, State.ten, (homeStep_homeWriteN _ _).tr s]; exact hcap
  simp only [State.inject, memory, State.arrive, hl, hd, hop, Bool.not_true, Bool.false_eq_true, if_true, if_false,
    recordData_notCapturing silent]

section
variable (hgo : s.tr.rgo = true)
include hgo

theorem exec_injectRecord_last (h : s.tr.rcount ≤ s.tr.rdone) :
    exec .injectRecord s = .next { s with tr := { s.tr with rgo := false } } := by
  rw [exec_injectRecord, execInjectRecord, injectF]
  simp [hgo, h]

variable (hmore : s.tr.rdone < s.tr.rcount)
include hmore

/-- A record of another KIND is skipped. -/
theorem exec_injectRecord_skips (otherKind : leAt s.nextRecord 8 1 ≠ 7) :
    exec .injectRecord s = .next { s with tr := s.tr.recordDone } := by
  have other' : leAt (s.homeBytes (s.tr.rbase / 64 * 64 + 64 * s.tr.rdone) 64) 8 1 ≠ 7 := otherKind
  rw [exec_injectRecord, execInjectRecord, injectF]
  simp [hgo, Nat.not_le.2 hmore, other', Trace.recordDone]

section
variable (kind : leAt s.nextRecord 8 1 = 7)
include kind

/-- A record of KIND 7 waits while its line moves. -/
theorem exec_injectRecord_waits (moves : s.drained (canon (recordReq s.nextRecord).addr) = false) :
    exec .injectRecord s = .next s := by
  have kind' : leAt (s.homeBytes (s.tr.rbase / 64 * 64 + 64 * s.tr.rdone) 64) 8 1 = 7 := kind
  have moves' : s.drained (canon (leAt (s.homeBytes (s.tr.rbase / 64 * 64 + 64 * s.tr.rdone) 64) 0x10 8)) = false := moves
  rw [exec_injectRecord, execInjectRecord, injectF]
  simp [hgo, Nat.not_le.2 hmore, kind', moves']

/-- Then it is performed. -/
theorem exec_injectRecord_performs (still : s.drained (canon (recordReq s.nextRecord).addr) = true) :
    exec .injectRecord s = .next
      { s.inject (recordReq s.nextRecord) with tr := { (s.inject (recordReq s.nextRecord)).tr with
        rdone := s.tr.rdone + 1, rgo := decide (s.tr.rdone + 1 < s.tr.rcount) } } := by
  have kind' : leAt (s.homeBytes (s.tr.rbase / 64 * 64 + 64 * s.tr.rdone) 64) 8 1 = 7 := kind
  have still' : s.drained (canon (leAt (s.homeBytes (s.tr.rbase / 64 * 64 + 64 * s.tr.rdone) 64) 0x10 8)) = true := still
  rw [exec_injectRecord, execInjectRecord, injectF]
  simp [hgo, Nat.not_le.2 hmore, kind', still', recordReq, State.nextRecord]

end

end

end

/-! ### The scrubber (R185) -/

/-- The log of a live region that has one of its own is that one (R182). -/
theorem logOf_own {s : State} {r : Region} {a : Nat} {as : List Nat} (hr : s.regionAt a = some r) (hf : r.rcb.flog ≠ 0) :
    s.logOf (a :: as) = some r.rcb.flog := by
  simp only [State.logOf, hr, hf, if_false]

/-- A word of SP that cannot be corrected is marked, and a record of it stands in the root supervisor's log. -/
theorem exec_scrub_uncorrectable {s : State} {c pa off : Nat} {bad : W64} {r : Region} (hbad : bad ≠ 0)
    (hroot : s.rootRegion = some r) (hr : s.regionAt r.addr = some r) (hf : r.rcb.flog ≠ 0) :
    exec (.scrub c (.sp off) pa bad) s = .next (
      (s.onCore c fun k => { k with poison := SMap.put k.poison (2 ^ 32 + off / 8) bad }).withHomes
        (s.logWrite r.rcb.flog (faultRec s.tick r.addr 0 ((s.core c).qAt 0 * 4096 + off / 8) 0 0x0E (s.dev * 1024 + c) 0 0 3
          0 0 0 0 0))) := by
  have found : (s.onCore c fun k => { k with poison := SMap.put k.poison (2 ^ 32 + off / 8) bad }).logOf [r.addr] =
      some r.rcb.flog := logOf_own hr hf
  have logged := homeStep_logWrite r.rcb.flog (faultRec s.tick r.addr 0 ((s.core c).qAt 0 * 4096 + off / 8) 0 0x0E
    (s.dev * 1024 + c) 0 0 3 0 0 0 0 0) (s.onCore c fun k => { k with poison := SMap.put k.poison (2 ^ 32 + off / 8) bad }) s rfl rfl
  rw [exec_scrub, execScrub, scrubF, if_neg hbad]
  simp only [State.poisonWord, memWord, hroot, Option.map_some, Option.getD_some, found, State.poolAddr, Bool.false_eq_true, if_false]
  exact congrArg _ logged

/-! ### The statement -/

/-- Settles O50: each event of observation by what makes it due. -/
theorem observation : Obligations.Observation := by
  unfold Obligations.Observation
  refine ⟨?stop, ?blame, fun s c => exec_blameSample_again, fun ws n => nextWaiter_nearest n ws, ?injector, fun s c pa w => rfl,
    ?scrubber⟩
  case stop =>
    refine fun s => ⟨fun ha hl ht hs => ⟨_, exec_debugStop_due ha hl ht hs, ?_, rfl⟩, exec_debugStop_notDue, rfl⟩
    rw [State.traceRec_sys]
  case blame => exact fun s c g sl f K G => exec_blameSample_due
  case injector =>
    intro s hgo
    refine ⟨exec_injectRecord_last hgo, fun hmore => ?_⟩
    intro b go
    refine ⟨exec_injectRecord_skips hgo hmore, exec_injectRecord_waits hgo hmore, fun kind still hcap hl => ?_⟩
    have performed := exec_injectRecord_performs hgo hmore kind still
    rw [inject_write (recordReq s.nextRecord) rfl hl still hcap, (homeStep_homeWriteN _ _).tr s] at performed
    exact ⟨_, performed, rfl, rfl⟩
  case scrubber =>
    intro s c pa off bad r hbad hroot hr hf
    refine ⟨_, exec_scrub_uncorrectable hbad hroot hr hf, ?_, rfl⟩
    have marked : ∀ t : State, ((s.onCore c fun k => { k with poison := SMap.put k.poison (2 ^ 32 + off / 8) bad }).withHomes t).core c =
        { s.core c with poison := SMap.put (s.core c).poison (2 ^ 32 + off / 8) bad } := fun _ => State.core_setCore s c _
    rw [marked, SMap.get?_put_self]

end Sys2Proof.Machine
end

section
/-! Lines of L1 and of stash mappings as they are filled, written home and leased (R186, R197, R213, R217, R257–R259). -/

namespace Sys2Proof.Machine

/-! ### Fills (R258) -/

/-- The home of a line of this device has counted a fill and granted a lease on the line, which LX covers. -/
def State.grantLease (s : State) (line lc : Nat) : State :=
  (s.countHit line).setHome line ⟨max (s.lxOf line) (s.leaseEnd lc), (s.homeLine line).wt, (s.homeLine line).held⟩

/-- The copy of an HC line that a fill at its home brings into L1. -/
def State.leasedCopy (s : State) (line pte bank : Nat) : CaLine :=
  { data := s.homeRead line 128, valid := allBytes, dirty := 0, fill := s.tick, expiry := s.leaseEnd (pteLC pte),
    time := (s.homeLine line).wt, bank := bank, cc := pteCC pte, lc := pteLC pte, page := ptePA pte, writers := [], hb := [],
    stores := 0 }

section
variable {s : State} {c line hint : Nat} {l : CaLine}

theorem lxOf_setHome (h : HomeLine) : (s.setHome line h).lxOf line = h.lx := by
  have found : SMap.get? (s.setHome line h).ms.homes line = some h := SMap.get?_put_self _ _ _
  rw [State.lxOf, found]

theorem lxOf_grantLease (lc : Nat) : (s.grantLease line lc).lxOf line = max (s.lxOf line) (s.leaseEnd lc) := lxOf_setHome _

/-- A grant changes memory alone. -/
theorem grantLease_frame (lc : Nat) : s.grantLease line lc = s.withMem (s.grantLease line lc) :=
  (memStep_setHome line _).frame (s.countHit line)
theorem core_grantLease (lc : Nat) : (s.grantLease line lc).core c = s.core c := by
  rw [grantLease_frame]; rfl
theorem tick_grantLease (lc : Nat) : (s.grantLease line lc).tick = s.tick := by
  rw [grantLease_frame]; rfl

/-- What a fill of an HC line of this device takes from its home, and what it leaves there. -/
theorem serveFill_local (hl : s.isLocal line = true) (lc : Nat) (rem : Option Nat) : s.serveFill line lc true rem =
    ((s.homeRead line 128, s.leaseEnd lc, (s.homeLine line).wt), s.grantLease line lc) := by
  have isLocal : (s.countHit line).isLocal line = true := hl
  simp only [State.serveFill, isLocal, (State.SameBytes.countHit s line).homeRead, if_true]
  rfl

/-- No line leaves a set that has a way free. -/
theorem caRoom_free (hw : (SMap.getD (s.core c).vord (caSet line) []).length < (s.core c).ways) : s.caRoom c line = s := by
  simp only [State.caRoom, hw, if_true]

/-- A line that comes into such a set stands in L1, and nothing changes but its core. -/
theorem caInsert_free (hw : (SMap.getD (s.core c).vord (caSet line) []).length < (s.core c).ways) :
    ∃ f, s.caInsert c line hint l = s.onCore c f ∧
      ((s.onCore c f).core c).caLine line = some { l with bank := (s.core c).caBank line } := by
  rw [State.caInsert, caRoom_free hw]
  exact ⟨_, rfl, by rw [State.onCore, State.core_setCore]; exact SMap.get?_put_self _ _ _⟩

end

section
variable {s : State} {c line : Nat} {o : Op} {l : OpLane} {rem : Option Nat}

section
variable (hl : s.isLocal line = true) (hcc : pteCC l.pte = 0) (hca : (s.core c).caLine line = none) (hint : Nat)
include hl hcc hca

/-- A fill of an HC line of this device that L1 does not hold. -/
theorem caFill_absent : s.caFill c line hint l.pte rem =
    (s.grantLease line (pteLC l.pte)).caInsert c line hint (s.leasedCopy line l.pte 0) := by
  simp [State.caFill, hcc, serveFill_local hl, core_grantLease, hca, tick_grantLease, State.leasedCopy]

/-- Its copy stands in L1, and LX covers the lease. -/
theorem caFill_leased (hw : (SMap.getD (s.core c).vord (caSet line) []).length < (s.core c).ways) :
    ∃ bank, ((s.caFill c line hint l.pte rem).core c).caLine line = some (s.leasedCopy line l.pte bank) ∧
      (s.caFill c line hint l.pte rem).lxOf line = max (s.lxOf line) (s.leaseEnd (pteLC l.pte)) := by
  obtain ⟨f, inserted, stands⟩ := caInsert_free (s := s.grantLease line (pteLC l.pte)) (c := c) (line := line) (hint := hint)
    (l := s.leasedCopy line l.pte 0) (by rw [core_grantLease]; exact hw)
  rw [caFill_absent hl hcc hca, inserted]
  exact ⟨_, stands, lxOf_grantLease _⟩

end

/-- The loads that wait for a line bind its bytes once they may go to its home and the line has come in. -/
theorem exec_fillAtHome_due {cl : CaLine} (hf : s.fillWaiter c line = some (o, l)) (ha : s.addrOk line = true)
    (hcp : s.cpOther l.pte c = false) (hd : s.drained line = true) (hm : s.lineMoves c line = false)
    (hv : s.fillFirst c line = true) (hr : s.roomHeld c o.id line = false)
    (hcl : ((s.caFill c line o.acc.em.hint.toNat l.pte rem).core c).caLine line = some cl) :
    exec (.fillAtHome c line rem) s = .next
      ((s.caFill c line o.acc.em.hint.toNat l.pte rem).onWaiters c line fun _ _ o => o.bindFrom line cl) := by
  rw [exec_fillAtHome, execFillAtHome, fillF]
  simp [hf, ha, hcp, hd, hm, hv, hr, hcl]

theorem roomHeld_free (id : Nat) (hw : (SMap.getD (s.core c).vord (caSet line) []).length < (s.core c).ways) :
    s.roomHeld c id line = false := by
  simp [State.roomHeld, Nat.not_le.2 hw]

theorem lineMoves_still (a : Nat) (hm : (s.core c).move = none) : s.lineMoves c a = false := by
  simp [State.lineMoves, hm]

theorem cpOther_notCp {pte : Nat} (h : pteCC pte ≠ 2) : s.cpOther pte c = false := by
  simp [State.cpOther, h]

end

/-! ### Stash lines (R186, R197, R213) -/

section
variable {s : State} {c mid line : Nat} {m : Mapping} {b : Block}

/-- A translation changes nothing but what the core has cached. -/
theorem addrOk_translate (root va a : Nat) : (s.translate c root va).2.addrOk a = s.addrOk a := by
  simp only [State.translate]; split <;> rfl

theorem addrOk_globalPA (root va a : Nat) : (s.globalPA c root va).2.addrOk a = s.addrOk a := by
  have cached : (s.globalPA c root va).2 = (s.translate c root va).2 := by
    simp only [State.globalPA]; split <;> next h => rw [h]
  rw [cached, addrOk_translate]

theorem fillStash_unmapped (h : (s.globalPA b.core (s.blockRoot b) (m.base + 128 * line)).1 = none) :
    (s.fillStash b m line).1 = .flt 0x04 := by
  rw [State.fillStash]
  split
  · rfl
  · next found => rw [found] at h; cases h

theorem fillStash_graphSpace {pa pte : Nat} (h : (s.globalPA b.core (s.blockRoot b) (m.base + 128 * line)).1 = some (pa, pte))
    (ha : s.addrOk pa = true) (hg : pteGS pte = true) : (s.fillStash b m line).1 = .flt 0x06 := by
  have answers := addrOk_globalPA (s := s) (c := b.core) (s.blockRoot b) (m.base + 128 * line) pa
  rw [State.fillStash]
  split
  · next found => rw [found] at h; cases h
  · next found =>
    rw [found] at h answers
    cases h
    simp [answers, ha, hg]

section
variable (hm : ((s.core c).maps.find? fun m => m.id == mid) = some m) (hb : s.block? m.bid = some b) (hc : m.copyIn = false)
  (hw : s.stashWaiters c mid line ≠ []) (hs : ∀ w ∈ s.stashWaiters c mid line, w.1.storesDone w.2.id = true)
include hm hb hc hw hs

/-- STASH_LINE_FILLED comes down to how the fill ends, once some waiting access sees the earlier stores of its group. -/
theorem exec_stashLineFilled_due :
    (∀ u, s.fillStash b m line = (.filled, u) → exec (.stashLineFilled c mid line) s = .next (u.unpark c mid line)) ∧
      ∀ cause u, s.fillStash b m line = (.flt cause, u) →
        exec (.stashLineFilled c mid line) s = .next (u.stashXlate c mid line cause) := by
  obtain ⟨w, waits⟩ := List.exists_mem_of_ne_nil _ hw
  have ready : ((s.stashWaiters c mid line).any fun w => w.1.storesDone w.2.id) = true :=
    List.any_eq_true.2 ⟨w, waits, hs w waits⟩
  rw [exec_stashLineFilled, execStashLineFilled, stashFillF]
  simp only [hm, hb, hc, ready, Bool.not_true, Bool.or_self, Bool.false_eq_true, if_false]
  exact ⟨fun u ends => by rw [ends], fun cause u ends => by rw [ends]⟩

end

end

/-! ### Write-backs (R217, R257, R259) -/

theorem State.SameBytes.lineWct (s : State) (l : CaLine) (w : Nat) : SameBytes s (s.lineWct l w) :=
  (foldl (fun s g => raiseWct s g w) l.writers s).trans (foldl (fun s g => onGroup s g _) l.hb _)

/-- Writes those of the first `n` bytes of a line that a mask marks. -/
def State.pokeFirst (s : State) (line data mask n : Nat) : State :=
  (List.range n).foldl (fun s i => if mask.testBit i then s.pokeN (line + i) 1 (lineByte data i) else s) s

theorem State.pokeMask_eq_pokeFirst (s : State) (line data mask : Nat) :
    s.pokeMask line data mask = s.pokeFirst line data mask 128 := rfl

theorem State.pokeFirst_succ (s : State) (line data mask n : Nat) : s.pokeFirst line data mask (n + 1) =
    if mask.testBit n then (s.pokeFirst line data mask n).pokeN (line + n) 1 (lineByte data n)
      else s.pokeFirst line data mask n := by
  simp only [pokeFirst, List.range_succ, List.foldl_append, List.foldl_cons, List.foldl_nil]

section
variable {s : State} (hs : s.MemOk) (line data mask a : Nat)
include hs

theorem homeByte_pokeByte (p v b : Nat) : (s.pokeN p 1 v).homeByte b = if b = p then .ofNat 8 v else s.homeByte b := by
  have one : (p ≤ b ∧ b < p + 1) ↔ b = p := by omega
  rw [homeByte_pokeN _ _ _ _ _ (by omega) hs]
  simp only [one]
  split
  · next h => rw [h, Nat.sub_self, Nat.mul_zero, Nat.pow_zero, Nat.div_one]
  · rfl

theorem memOk_pokeFirst (n : Nat) : (s.pokeFirst line data mask n).MemOk := by
  induction n with
  | zero => exact hs
  | succ n ih =>
    rw [State.pokeFirst_succ]
    split
    · exact pokeN_mem_wf _ _ _ _ ih
    · exact ih

theorem homeByte_pokeFirst (n : Nat) :
    (s.pokeFirst line data mask n).homeByte a = if (line ≤ a ∧ a < line + n) ∧ mask.testBit (a - line) = true
      then .ofNat 8 (lineByte data (a - line)) else s.homeByte a := by
  induction n with
  | zero => rw [if_neg (by omega)]; rfl
  | succ n ih =>
    have poked := homeByte_pokeByte (memOk_pokeFirst hs line data mask n)
    rw [State.pokeFirst_succ]
    by_cases here : a = line + n
    · subst here
      split <;> next h => simp [poked, ih, h]
    · have range : (line ≤ a ∧ a < line + (n + 1)) ↔ line ≤ a ∧ a < line + n := by omega
      split <;> simp [poked, ih, here, range]

/-- A merge at the home of an aligned line: the marked bytes of the line, and no other. -/
theorem homeByte_homeMerge (hc : Bool) (aligned : line % 128 = 0) : (s.homeMerge line data mask hc).homeByte a =
    if lineOf a = line ∧ mask.testBit (a % 128) = true then .ofNat 8 (lineByte data (a % 128)) else s.homeByte a := by
  have arrives := (State.SameBytes.wrote s line hc).trans (.enterLlc _ line)
  have leaves (t : State) := (State.SameBytes.trigger t line).trans (.countHit _ line)
  have inLine : (line ≤ a ∧ a < line + 128) ↔ lineOf a = line := by simp only [lineOf]; omega
  rw [State.homeMerge, (leaves _).homeByte, State.pokeMask_eq_pokeFirst, homeByte_pokeFirst (arrives.memOk hs), arrives.homeByte]
  simp only [inLine]
  by_cases h : lineOf a = line
  · have place : a - line = a % 128 := by simp only [lineOf] at h; omega
    rw [place]
  · simp only [h, false_and, if_false]

end

section
variable {s : State} {c line : Nat} {l : CaLine} (hl : (s.core c).caLine line = some l)
include hl

/-- A dirty line that its home answers for is written there, and stays in L1 with nothing dirty. -/
theorem writeBack_dirty (ha : s.addrOk line = true) (hd : l.dirty ≠ 0) :
    ((s.writeBack c line).core c).caLine line = some l.clean ∧
      State.SameBytes (s.homeMerge line l.data l.dirty (l.cc == 0)) (s.writeBack c line) := by
  simp only [State.writeBack, hl, hd, ha, if_false, Bool.not_true, Bool.false_eq_true]
  refine ⟨?_, .trans ?_ (.onCore _ _ _)⟩
  · rw [State.onCore, State.core_setCore]
    exact SMap.get?_put_self _ _ _
  · split
    · exact (State.SameBytes.lineWct _ _ _).trans (.takeCp _ _ _)
    · exact .lineWct _ _ _

end

/-- WRITE_AT_HOME of a line that no stash line stands for, where nothing holds it. -/
theorem exec_writeAtHome_due {s : State} {c line : Nat} (hd : s.drained line = true) (hb : s.homeBusy c s.nextId line = false)
    (hm : s.lineMoves c line = false) (hst : s.stashOf c line = []) :
    exec (.writeAtHome c line) s = .next (s.writeBack c line) := by
  rw [exec_writeAtHome, execWriteAtHome, writeAtHomeF]
  simp [State.wbReady, hd, hb, hm, hst]

/-! ### Leases (R258) -/

section
variable {s : State} {c line : Nat} {l : CaLine} (hl : (s.core c).caLine line = some l)
include hl

/-- LEASE_EXPIRE once the lease of an HC copy with clean bytes has ended: only dirty bytes stay. -/
theorem exec_leaseExpire_ended (hcc : l.cc = 0) (he : l.expiry ≤ s.tick) (hv : l.valid ≠ l.dirty) :
    exec (.leaseExpire c line) s = .next (if l.dirty = 0 then s.onCore c fun k => k.caDrop line
      else s.onCore c fun k => k.setCa line { l with valid := l.dirty }) := by
  rw [exec_leaseExpire, execLeaseExpire, leaseExpireF]
  simp [hl, hcc, Nat.not_lt.2 he, hv]

theorem exec_leaseExpire_runs (he : s.tick < l.expiry) : exec (.leaseExpire c line) s = .next s := by
  rw [exec_leaseExpire, execLeaseExpire, leaseExpireF]
  simp [hl, he]

end

/-! ### The statement -/

/-- Settles O24: a fill by the copy that its home gives, a stash line by how its fill ends, a write-back byte by byte. -/
theorem linesComeAndGo : Obligations.LinesComeAndGo := by
  unfold Obligations.LinesComeAndGo
  refine ⟨?fill, ?stash, ?back⟩
  case fill =>
    intro s c line rem o l hf hl hd hv hm hcc hca hw
    obtain ⟨bank, stands, lx⟩ := caFill_leased (rem := rem) hl hcc hca o.acc.em.hint.toNat hw
    have filled := exec_fillAtHome_due hf (isLocal_addrOk hl) (cpOther_notCp (by simp [hcc])) hd (lineMoves_still line hm) hv
      (roomHeld_free o.id hw) stands
    exact ⟨_, _, stands, rfl, rfl, rfl, rfl, rfl, rfl, lx, filled⟩
  case stash =>
    intro s c mid line m b hm hb hc hw hs
    obtain ⟨goesOn, faults⟩ := exec_stashLineFilled_due hm hb hc hw hs
    refine ⟨goesOn, faults, ?gone, ?graphSpace⟩
    case gone => rintro h rfl; exact fillStash_unmapped h
    case graphSpace => rintro pa pte h rfl ha hg; exact fillStash_graphSpace h ha hg
  case back =>
    intro s c line l hl
    refine ⟨fun hs hd hb hm hst ha hne aligned => ?written, fun hcc he hv => ?ended, exec_leaseExpire_runs hl⟩
    case written =>
      obtain ⟨stays, same⟩ := writeBack_dirty hl ha hne
      exact ⟨_, _, exec_writeAtHome_due hd hb hm hst, stays, rfl, rfl,
        fun a => (same.homeByte a).trans (homeByte_homeMerge hs _ _ _ _ _ aligned)⟩
    case ended =>
      have ended := exec_leaseExpire_ended hl hcc he hv
      exact ⟨fun h => by rw [ended, if_pos h], fun h => by rw [ended, if_neg h]⟩

end Sys2Proof.Machine
end
section
/-! What the end of an engine operation leaves: its proofs are spoiled, a record may be written, its flag falls, and a slot of its
block may record the outcome (R183, R232, R241, R265). -/

namespace Sys2Proof.Machine

/-! ### Blocks and cores beside writes at their homes -/

theorem HomeStep.blocks {f : State → State} (hf : HomeStep f) (s : State) : (f s).blocks = s.blocks :=
  (congrArg State.blocks (hf.frame s)).trans rfl
theorem HomeStep.core {f : State → State} (hf : HomeStep f) (s : State) (c : Nat) : (f s).core c = s.core c :=
  (congrArg (State.core · c) (hf.frame s)).trans rfl

theorem State.traceRec_blocks (s : State) (kind b9 h10 a b data : Nat) :
    (s.traceRec kind b9 h10 a b data).blocks = s.blocks := by
  simp only [traceRec]
  split
  · rfl
  · split
    · exact (homeStep_homeWriteN _ _).blocks s
    · rfl

theorem State.engineRec_blocks (s : State) (e : Eng) (engine status under addr : Nat) :
    (s.engineRec e engine status under addr).blocks = s.blocks := by
  simp only [engineRec]
  split
  · rfl
  · split
    · exact (homeStep_logWrite _ _).blocks s
    · exact State.traceRec_blocks _ _ _ _ _ _ _

/-! ### Proofs that are spoiled (R232, R265) -/

/-- Bit 1 of the STATE word of a proof's descriptor is set. -/
def State.Spoiled (s : State) (p : Proof) : Prop := (s.homeByte (p.desc + 16)).getLsbD 1 = true

theorem homeStep_spoil (p : Proof) : HomeStep fun s => s.spoil p := fun r s hd ht => by
  simp only [State.spoil, homeRead_withHomes hd]
  exact homeStep_homeWrite _ _ _ _ r s hd ht
theorem homeStep_spoilAll (ps : List Proof) : HomeStep fun s => s.spoilAll ps := HomeStep.foldl homeStep_spoil ps

theorem memOk_homeWrite {s : State} (hs : s.MemOk) (a n v : Nat) (hc : Bool) : (s.homeWrite a n v hc).MemOk :=
  pokeN_mem_wf _ _ _ _ ((State.SameBytes.wrote s (lineOf a) hc).memOk hs)

section
variable {s : State} {p q : Proof} (hs : s.MemOk) (hp : p.desc % 32 = 0)
include hs hp

theorem homeByte_spoil (b : Nat) : (s.spoil p).homeByte b = if p.desc + 16 ≤ b ∧ b < p.desc + 16 + 8 then
    .ofNat 8 ((s.homeRead (p.desc + 16) 8 ||| 2) / 2 ^ (8 * (b - (p.desc + 16)))) else s.homeByte b :=
  homeByte_homeWrite _ _ _ _ _ _ (by omega) hs

theorem spoil_spoiled : (s.spoil p).Spoiled p := by
  rw [State.Spoiled, homeByte_spoil hs hp, if_pos (by omega), Nat.sub_self, BitVec.getLsbD_ofNat]
  simp [Nat.testBit_or, show Nat.testBit 2 1 = true by decide]

/-- The STATE words of aligned descriptors are one and the same or lie apart. -/
theorem State.Spoiled.spoil (hq : q.desc % 32 = 0) (h : s.Spoiled q) : (s.spoil p).Spoiled q := by
  by_cases same : q.desc = p.desc
  · have marked := spoil_spoiled hs hp
    rwa [Spoiled, ← same] at marked
  · rwa [Spoiled, homeByte_spoil hs hp, if_neg (by omega)]

end

section
variable {s : State} {ps : List Proof} (hs : s.MemOk) (ha : ∀ p ∈ ps, p.desc % 32 = 0)
include hs ha

theorem State.Spoiled.spoilAll {q : Proof} (hq : q.desc % 32 = 0) (h : s.Spoiled q) : (s.spoilAll ps).Spoiled q := by
  induction ps generalizing s with
  | nil => exact h
  | cons p ps ih =>
    obtain ⟨hp, hps⟩ := List.forall_mem_cons.1 ha
    exact ih (memOk_homeWrite hs _ _ _ _) hps (h.spoil hs hp hq)

theorem spoilAll_spoiled : ∀ q ∈ ps, (s.spoilAll ps).Spoiled q := by
  induction ps generalizing s with
  | nil => exact fun q hq => absurd hq List.not_mem_nil
  | cons p ps ih =>
    obtain ⟨hp, hps⟩ := List.forall_mem_cons.1 ha
    have kept := memOk_homeWrite hs (p.desc + 16) 8 (s.homeRead (p.desc + 16) 8 ||| 2) true
    exact List.forall_mem_cons.2 ⟨(spoil_spoiled hs hp).spoilAll kept hps hp, ih kept hps⟩

/-- Bytes beside the STATE words stay as they are. -/
theorem homeByte_spoilAll {a : Nat} (h : ∀ p ∈ ps, a < p.desc + 16 ∨ p.desc + 24 ≤ a) :
    (s.spoilAll ps).homeByte a = s.homeByte a := by
  induction ps generalizing s with
  | nil => rfl
  | cons p ps ih =>
    obtain ⟨hp, hps⟩ := List.forall_mem_cons.1 ha
    obtain ⟨beside, hrest⟩ := List.forall_mem_cons.1 h
    have first : (s.spoil p).homeByte a = s.homeByte a := by rw [homeByte_spoil hs hp, if_neg (by omega)]
    exact (ih (memOk_homeWrite hs _ _ _ _) hps hrest).trans first

end

/-! ### The end of an operation, and its slot -/

section
variable (s : State)

@[simp] theorem State.onGroup_blocks (g : Nat) (f : Group → Group) : (s.onGroup g f).blocks = s.blocks := by
  simp only [onGroup]; split <;> rfl
@[simp] theorem State.onGroup_eng (g : Nat) (f : Group → Group) : (s.onGroup g f).eng = s.eng := by
  simp only [onGroup]; split <;> rfl
@[simp] theorem State.onGroup_sys (g : Nat) (f : Group → Group) : (s.onGroup g f).sys = s.sys := by
  simp only [onGroup]; split <;> rfl
@[simp] theorem State.onGroup_fab (g : Nat) (f : Group → Group) : (s.onGroup g f).fab = s.fab := by
  simp only [onGroup]; split <;> rfl
@[simp] theorem State.onGroup_mem (g : Nat) (f : Group → Group) : (s.onGroup g f).mem = s.mem := (SameBytes.onGroup s g f).mem
@[simp] theorem State.block?_endEng (e : Eng) (b : Nat) : (s.endEng e).block? b = s.block? b := by
  rw [block?, endEng, onGroup_blocks]
  rfl

theorem State.eng?_endEng (e : Eng) : (s.endEng e).eng? e.id = none := by
  rw [eng?, endEng, onGroup_eng]
  exact State.eng?_dropEng s e.id

end

theorem State.eng?_id {s : State} {i : Nat} {e : Eng} (h : s.eng? i = some e) : e.id = i := by
  simpa using List.find?_some h

theorem State.block?_onBlock {s : State} {k : Nat} {b : Block} (f : Block → Block) (h : s.block? k = some b) :
    (s.onBlock k f).block? k = some (f b) := by
  simp only [onBlock, h, block?_putBlock]

@[simp] theorem Block.slot_setSlot {b : Block} {k : Nat} (c : CSlot) (h : k < b.slots.length) : (b.setSlot k c).slot k = c := by
  simp only [slot, setSlot, getElem?_setAt _ _ _ h, Option.getD_some]

/-- The block whose slot has recorded an outcome. -/
theorem State.block?_slotDone {s : State} {bid : Nat} {b : Block} (h : s.block? bid = some b) (k st am : Nat) (more : Bool) :
    (s.slotDone bid k st am more).block? bid =
      some (b.setSlot k { b.slot k with status := st, amask := am, amore := more }) :=
  block?_onBlock _ h
@[simp] theorem State.slotDone_core (s : State) (bid k st am : Nat) (more : Bool) (c : Nat) :
    (s.slotDone bid k st am more).core c = s.core c := by
  simp only [slotDone, onBlock]; split <;> rfl

end Sys2Proof.Machine
end

section
/-! The collective instructions as they issue, and CGRP's end (R239–R244, R335). -/

namespace Sys2Proof.Machine

theorem wholePre_passes {s : State} {x : Cur} {h : Hd} {rs : List Reg} (hw : WholeRuns s x h rs) : wholePre x = none := by
  obtain ⟨-, -, whole⟩ := hw
  exact wholePre_none whole

/-! ### CGRP and CSTAT (R239, R240, R244) -/

section
variable {s : State} {x : Cur} {h : Hd} {k : BitVec 3} {a : Reg} {b : Block}

theorem exec_cgrp_waits (hw : WholeRuns s x h [a]) (hb : s.block? x.G.geo.bid = some b) (hs : s.slotBusy b k.toNat = true) :
    exec (.cgrp h k a) s = .next s.popPort := by
  rw [exec_cgrp, execCgrp, cgrpF, runUniLL, runU_passes hw (wholePre_passes hw), readCur_geo, hb]
  exact congrArg Host.Outcome.next (if_pos hs)

theorem exec_cgrp_starts {s' : State} {ps : List Piece} (hw : WholeRuns s x h [a]) (hb : s.block? x.G.geo.bid = some b)
    (hs : s.slotBusy b k.toNat = false) (ha : UniAccess s x [a] (uVal x a) 32 32 true false b ps s') :
    exec (.cgrp h k a) s = .next (s'.startEng (readCur x [a]) h (s'.mkEng (readCur x [a])
      (.cgrp k.toNat (leAt (s'.uniBytes x.G.geo.core ps) 0 32)) 0xB5 true)) := by
  have idle : ¬((s.block? x.G.geo.bid).map fun b => s.slotBusy b k.toNat).getD false = true := by simp [hb, hs]
  rw [exec_cgrp, execCgrp, cgrpF, runUniLL, runU_passes hw (wholePre_passes hw)]
  simp only [readCur_geo, uVal_readCur, if_neg idle, uniIssue_passes ha]

theorem exec_cstat_reads {d : Reg} (hw : WholeRuns s x h []) (hb : s.block? x.G.geo.bid = some b) :
    exec (.cstat h d k) s = .next (uniSets s x h [] d (b.slot k.toNat).word) := by
  have reads (f : Block → Nat) : ((s.block? x.G.geo.bid).map f).getD 4 = f b := by rw [hb]; rfl
  rw [exec_cstat, execCstat, cstatF, runUni, runU_passes hw (wholePre_passes hw)]
  exact congrArg (fun v => Host.Outcome.next (s.doneP x h (x.G.uPut x.K d v))) (reads fun b => (b.slot k.toNat).word)

end

theorem exists_findIdx {α : Type} {p : α → Bool} {l : List α} (h : l.any p = true) :
    ∃ i a, findIdx p l = some i ∧ l[i]? = some a ∧ p a = true := by
  obtain ⟨a, ha, hp⟩ := List.any_eq_true.1 h
  obtain ⟨i, hi⟩ := List.mem_iff_getElem?.1 ha
  have found : (l.zipIdx.find? fun e => p e.1).isSome = true :=
    List.find?_isSome.2 ⟨(a, i), List.mem_zipIdx_iff_getElem?.2 hi, hp⟩
  obtain ⟨e, he⟩ := Option.isSome_iff_exists.1 found
  have passes : p e.1 = true := List.find?_some (p := fun e : α × Nat => p e.1) he
  exact ⟨e.2, e.1, by rw [findIdx, he]; rfl, List.mem_zipIdx_iff_getElem?.1 (List.mem_of_find?_eq_some he), passes⟩

/-- The tag of a descriptor is free on core `c` for slot `k` of block `bid` (R240). -/
def State.tagFree (s : State) (c bid k tag : Nat) : Bool :=
  (s.blocksOn c).all fun x => x.slots.zipIdx.all fun (z : CSlot × Nat) =>
    !z.1.live || z.1.tag != tag || (x.id == bid && z.2 == k)

/-- A slot whose CGRP was refused. -/
def groupBad : CSlot := ⟨false, 4, 0, 0, false, 0, 0, 0, [], [], 0, 0⟩

theorem groupBad_word : groupBad.word % 8 = 4 := by decide

section
variable {s : State} {e : Eng} {k d : Nat}

theorem eng?_cgrpEnd : (s.cgrpEnd e k d).eng? e.id = none := by
  simp only [State.cgrpEnd]
  split <;> exact State.eng?_endEng _ _

theorem not_tagTaken : (!(s.blocksOn e.core).any fun b => b.slots.zipIdx.any fun (x : CSlot × Nat) =>
    x.1.live && x.1.tag == (descSlot d).tag && !(b.id == e.bid && x.2 == k)) = s.tagFree e.core e.bid k (descSlot d).tag := by
  simp only [State.tagFree, List.not_any_eq_all_not, Bool.not_and, Bool.not_or, Bool.not_not, bne]

variable {b : Block} (hb : s.block? e.bid = some b)
include hb

/-- An acceptable descriptor with a free tag declares the slot, at a place where the group lists the issuing core. -/
theorem cgrpEnd_declares (hd : descOk d (s.dev * 1024 + e.core) (descSlot d) = true)
    (hf : s.tagFree e.core e.bid k (descSlot d).tag = true) : ∃ r n,
      (collMembers (descSlot d).base (descSlot d).strides (descSlot d).counts)[r]? = some (s.dev * 1024 + e.core) ∧
      (s.cgrpEnd e k d).block? e.bid = some (b.setSlot k { descSlot d with decl := n, rank := r }) := by
  have member : (collMembers (descSlot d).base (descSlot d).strides (descSlot d).counts).any
      (· == s.dev * 1024 + e.core) = true := by
    simp only [descOk, Bool.and_eq_true] at hd
    obtain ⟨-, listed⟩ := hd
    exact List.any_eq_true.2 ⟨_, List.contains_iff_mem.1 listed, beq_self_eq_true _⟩
  obtain ⟨r, m, found, listed, same⟩ := exists_findIdx member
  obtain rfl : m = s.dev * 1024 + e.core := by simpa using same
  refine ⟨r, (SMap.getD s.eng.decls (e.core * 2 ^ 16 + (descSlot d).tag) 0 + 1) % 2 ^ 16, listed, ?_⟩
  rw [State.cgrpEnd, not_tagTaken, hd, hf, Bool.and_self, if_pos rfl, found, State.block?_endEng]
  exact State.block?_onBlock _ hb

theorem cgrpEnd_refuses (h : ¬(descOk d (s.dev * 1024 + e.core) (descSlot d) = true ∧
    s.tagFree e.core e.bid k (descSlot d).tag = true)) :
    (s.cgrpEnd e k d).block? e.bid = some (b.setSlot k groupBad) := by
  rw [← Bool.and_eq_true] at h
  rw [State.cgrpEnd, not_tagTaken, if_neg h, State.block?_endEng]
  exact State.block?_onBlock _ hb

end

/-! ### CAG, CRS, CA2A and CBAR (R241–R243, R336) -/

@[simp] theorem State.collJoin_mem (s : State) (d : CSlot) (i : Instr) (tm : Nat) : (s.collJoin d i tm).2.mem = s.mem := by
  simp only [collJoin]; split <;> rfl
@[simp] theorem State.collJoin_blocks (s : State) (d : CSlot) (i : Instr) (tm : Nat) :
    (s.collJoin d i tm).2.blocks = s.blocks := by
  simp only [collJoin]; split <;> rfl

/-! A member's engine operation as it is posted, where outcomes that no member needs are dropped. -/

section
variable (s : State) (x : Cur) (h : Hd) (e : Eng) (d : CSlot)

theorem State.mem_ops_posted : e ∈ ((s.startEng x h e).collPrune d).eng.ops :=
  List.mem_append_right _ (List.mem_singleton.2 rfl)
theorem State.block?_posted (b : Nat) : ((s.startEng x h e).collPrune d).block? b = s.block? b := rfl
theorem State.mem_posted : ((s.startEng x h e).collPrune d).mem = s.mem := rfl

end

/-- The operation number that a member gives its operation is spent. -/
def State.countOp (s : State) (bid k : Nat) (d : CSlot) : State :=
  s.onBlock bid fun b => b.setSlot k { b.slot k with nops := d.nops + 1 }

/-- The operation of the group that a member joins with slot `d` of its block, and the state that keeps it. -/
def State.joined (s : State) (y : Cur) (d : CSlot) (i : Instr) (k tm : Nat) : CollRec × State :=
  (s.countOp y.G.geo.bid k d).collJoin d i tm

/-- The member's engine operation as it is issued. -/
def collEntry (s : State) (y : Cur) (d : CSlot) (i : Instr) (k src dst tm : Nat) : Eng :=
  let q := s.joined y d i k tm
  let e := q.2.mkEng y (.coll ⟨q.1.id, k, d.rank, i, src, dst, tm, s.tick⟩) i.opc true
  { e with
    proofs := s.pbOf e true dst (collBytes i (collSize d.counts)).2
    srcs := s.pbOf e false src (collBytes i (collSize d.counts)).1 }

section
variable {s : State} {y : Cur} {d : CSlot} {i : Instr} {k tm : Nat}

theorem State.joined_mem : (s.joined y d i k tm).2.mem = s.mem :=
  (collJoin_mem _ _ _ _).trans (SameBytes.onBlock s _ _).mem

theorem State.joined_block? {b : Block} (hb : s.block? y.G.geo.bid = some b) :
    (s.joined y d i k tm).2.block? y.G.geo.bid = some (b.setSlot k { b.slot k with nops := d.nops + 1 }) := by
  rw [block?, joined, collJoin_blocks]
  exact block?_onBlock _ hb

end

section
variable {s : State} {y : Cur} {h : Hd} {i : Instr} {k src dst tm : Nat} {b : Block} (hb : s.block? y.G.geo.bid = some b)
include hb

theorem collIssue_undeclared (hl : (b.slot k).live = false) : s.collIssue y h i k src dst tm = s.doneLL y h y.G := by
  simp only [State.collIssue, hb, hl, Bool.not_false, if_true]

section
variable (hl : (b.slot k).live = true) (hs : s.collStale (b.slot k) = false)
include hl hs

/-- With a declared slot that is not stale the member joins the group's operation, and its own stands issued. -/
theorem collIssue_joins : s.collIssue y h i k src dst tm =
    ((s.joined y (b.slot k) i k tm).2.startEng y h (collEntry s y (b.slot k) i k src dst tm)).collPrune (b.slot k) := by
  simp only [State.collIssue, hb, hl, hs, Bool.not_true, Bool.and_false, Bool.false_eq_true, if_false]
  rfl

theorem collIssue_stands (hk : k < b.slots.length) : ∃ r e B,
    e.kind = .coll ⟨r, k, (b.slot k).rank, i, src, dst, tm, s.tick⟩ ∧
      e ∈ (s.collIssue y h i k src dst tm).eng.ops ∧ e.flag = y.K.llFlag ∧
      (s.collIssue y h i k src dst tm).block? y.G.geo.bid = some B ∧ (B.slot k).nops = (b.slot k).nops + 1 ∧
      (s.collIssue y h i k src dst tm).mem = s.mem := by
  rw [collIssue_joins hb hl hs]
  refine ⟨_, collEntry s y (b.slot k) i k src dst tm, _, rfl, State.mem_ops_posted _ _ _ _ _, rfl,
    (State.block?_posted _ _ _ _ _ _).trans (State.joined_block? hb), ?nops,
    (State.mem_posted _ _ _ _ _).trans State.joined_mem⟩
  case nops => rw [Block.slot_setSlot _ hk]

end

end

/-- An instruction that issues a member's operation on a declared slot that is not stale leaves it issued. -/
theorem exec_issues {s : State} {x : Cur} {h : Hd} {rs : List Reg} {i : Instr} {k src dst tm : Nat} {b : Block}
    (he : exec i s = .next (s.collIssue (readCur x rs) h i k src dst tm)) (hb : s.block? x.G.geo.bid = some b)
    (hk : k < b.slots.length) (hl : (b.slot k).live = true) (hs : s.collStale (b.slot k) = false) : ∃ t r n e B,
      exec i s = .next t ∧ e.kind = .coll ⟨r, k, (b.slot k).rank, i, src, dst, n, s.tick⟩ ∧ e ∈ t.eng.ops ∧
        e.flag = x.K.llFlag ∧ t.block? x.G.geo.bid = some B ∧ (B.slot k).nops = (b.slot k).nops + 1 ∧ t.mem = s.mem := by
  rw [← readCur_geo rs] at hb ⊢
  obtain ⟨r, e, B, stands⟩ := collIssue_stands hb hl hs hk
  exact ⟨_, r, tm, e, B, he, stands⟩

section
variable {s : State} {x : Cur} {h : Hd} {k : BitVec 3} {a c : Reg} {len : BitVec 24}

theorem exec_cag_runs (hw : WholeRuns s x h [a, c]) : exec (.cag h k a c len) s =
    .next (s.collIssue (readCur x [a, c]) h (.cag h k a c len) k.toNat (uVal x a) (uVal x c) 0) := by
  rw [exec_cag, execCag, cagF, runUniLL, runU_passes hw (wholePre_passes hw)]
  simp only [uVal_readCur]
theorem exec_ca2a_runs (hw : WholeRuns s x h [a, c]) : exec (.ca2a h k a c len) s =
    .next (s.collIssue (readCur x [a, c]) h (.ca2a h k a c len) k.toNat (uVal x a) (uVal x c) 0) := by
  rw [exec_ca2a, execCa2a, ca2aF, runUniLL, runU_passes hw (wholePre_passes hw)]
  simp only [uVal_readCur]

variable {op : BitVec 4}

/-- CRS of an operation that needs no loadable pair. -/
theorem exec_crs_runs (hw : WholeRuns s x h [a, c]) (ht : op ≠ 11 ∨ x.G.tmshape < 0x10) : exec (.crs h k op a c len) s =
    .next (s.collIssue (readCur x [a, c]) h (.crs h k op a c len) k.toNat (uVal x a) (uVal x c)
      (if op = 11 then (readCur x [a, c]).G.tmshape else 0)) := by
  have legal : (op == 11 && decide (0x10 ≤ x.G.tmshape)) = false := by
    rcases ht with ht | ht
    · rw [beq_eq_false_iff_ne.2 ht, Bool.false_and]
    · rw [decide_eq_false (Nat.not_le.2 ht), Bool.and_false]
  rw [exec_crs, execCrs, crsF, runUniLL, runU_whole hw legal]
  simp only [uVal_readCur]

theorem exec_crs_illegal (hw : WholeRuns s x h [a, c]) (ho : op = 11) (ht : 0x10 ≤ x.G.tmshape) :
    exec (.crs h k op a c len) s = .next (s.trap x 0x01 (Instr.crs h k op a c len).opc) := by
  have illegal : (op == 11 && decide (0x10 ≤ x.G.tmshape)) = true := by simp [ho, ht]
  rw [exec_crs, execCrs, crsF, runUniLL, runU_illegal hw rfl illegal]
  rfl

/-- CBAR of a slot that is not declared, or once its release is over (R243). -/
theorem exec_cbar_runs {b : Block} (hw : WholeRuns s x h []) (hb : s.block? x.G.geo.bid = some b)
    (hr : (b.slot k.toNat).live = true → releaseReady s x.g x.G (2 ^ 16 - 1)
      (if oneDevice (collMembers (b.slot k.toNat).base (b.slot k.toNat).strides (b.slot k.toNat).counts) then 3 else 4) = true) :
    exec (.cbar h k) s = .next (s.collIssue x h (.cbar h k) k.toNat 0 0 0) := by
  rw [exec_cbar, execCbar, cbarF, runUniLL, runU_passes hw (wholePre_passes hw)]
  simp only [readCur_nil, hb, Option.map_some, Option.getD_some]
  rw [if_neg]
  simpa using hr

end

end Sys2Proof.Machine
end

section
/-! Contributions, timeouts and outcomes of collective operations (R241–R244, R335, R336). -/

namespace Sys2Proof.Machine

/-! ### The anchor's decision (R335) -/

/-- What an anchor of this device decides while no member's device is DOWN. -/
def CollRec.verdict (c : CollRec) : Option (Nat × Nat × Bool) :=
  if c.fault then some (3, 0, false) else if c.expired then some (2, 0, false)
  else if c.bad then some (4, 0, false) else if c.full then some (0, 0, false) else none

theorem State.coll?_id {s : State} {r : Nat} {c : CollRec} (h : s.coll? r = some c) : c.id = r := by
  simpa using List.find?_some h

theorem State.coll?_setColl {s : State} {r : Nat} {c c' : CollRec} (hc : s.coll? r = some c) (hid : c'.id = c.id) :
    (s.setColl c').coll? r = some c' := by
  have hr : c'.id = r := hid.trans (State.coll?_id hc)
  have same : ((fun x : CollRec => x.id == r) ∘ fun x => if x.id = c'.id then c' else x) = fun x => x.id == r := by
    funext x
    by_cases hx : x.id = c'.id
    · simp only [Function.comp_apply, hx, if_true]
    · simp only [Function.comp_apply, hx, if_false]
  have found : s.eng.colls.find? (fun x => x.id == r) = some c := hc
  simp only [State.coll?, State.setColl, List.find?_map, same, found, Option.map_some, Option.some.injEq]
  exact if_pos hid.symm

theorem State.collDecide_mem (s : State) (r : Nat) : (s.collDecide r).mem = s.mem := by
  simp only [collDecide]
  repeat' split
  all_goals rfl

theorem State.absent_eq {s t : State} (hs : t.sys = s.sys) (hf : t.fab = s.fab) (ms : List Nat) : t.absent ms = s.absent ms := by
  simp only [State.absent, State.devUp, State.dev, hs, hf]

theorem State.coll?_collDecide {s : State} {r : Nat} {c : CollRec} (hc : s.coll? r = some c) (ho : c.outcome = none)
    (ha : c.anchorDev = s.dev) (hab : s.absent c.members = (0, false)) :
    (s.collDecide r).coll? r = some { c with outcome := c.verdict } := by
  have undecided : c = { c with outcome := none } := by rw [← ho]
  simp only [State.collDecide, hc, ho, ha, hab, CollRec.verdict, Option.isSome_none, bne_self_eq_false, Bool.or_self,
    Bool.false_eq_true, if_false]
  iterate 4
    split
    · exact State.coll?_setColl hc rfl
  rw [hc, ← undecided]

/-- A record of this device that changes, as the anchor then decides. -/
theorem State.coll?_decided {s t : State} {r : Nat} {c c' : CollRec} (hc : t.coll? r = some c) (hsys : t.sys = s.sys)
    (hfab : t.fab = s.fab) (hid : c'.id = c.id) (ho : c'.outcome = none) (ha : c'.anchorDev = s.dev)
    (hab : s.absent c'.members = (0, false)) :
    ((t.setColl c').collDecide r).coll? r = some { c' with outcome := c'.verdict } :=
  State.coll?_collDecide (State.coll?_setColl hc hid) ho (ha.trans (congrArg Sys.devid hsys).symm)
    ((State.absent_eq (s := s) hsys hfab _).trans hab)

/-! ### Contributions (R242, R335) -/

section
variable {s : State} {r m : Nat} {term : List Nat} {c : CollRec} {e : Eng} {j : CollJob} (hc : s.coll? r = some c)
include hc

theorem exec_collectiveTimeout_early {t : Nat} (hm : SMap.get? c.since m = some t) (ht : s.tick < t + c.timeout) :
    exec (.collectiveTimeout r m) s = .next s := by
  rw [exec_collectiveTimeout, execCollectiveTimeout, collTimeoutF]
  simp only [hc, hm, Nat.not_le.2 ht, decide_false, Bool.false_and, Bool.false_eq_true, if_false]

variable (ho : c.outcome = none)
include ho

section
variable (hm : SMap.get? c.terms m = none) (he : s.collEng r m = some (e, j))
include hm he

theorem exec_collectiveContribution_reads {bs : List Nat} (hr : s.collTerm e j (collSize c.counts) = .ok bs) :
    exec (.collectiveContribution r m term) s = .next ((s.onGroup e.gid fun G =>
      if G.ended then G else G.stickIf (collTermDom j.instr j.tm bs) domBit).collTake c m bs) := by
  rw [exec_collectiveContribution, execCollectiveContribution, collContribF.eq_def, hc]
  simp only [hm, he, ho, hr, Option.isSome_none, Bool.false_and, Bool.or_self, Bool.false_eq_true, if_false]

theorem exec_collectiveContribution_faults {cs a : Nat} (hr : s.collTerm e j (collSize c.counts) = .flt cs a) :
    exec (.collectiveContribution r m term) s =
      .next (((s.setEng (e.failed cs a)).setColl { c with fault := true }).collDecide r) := by
  rw [exec_collectiveContribution, execCollectiveContribution, collContribF.eq_def, hc]
  simp only [hm, he, ho, hr, Option.isSome_none, Bool.false_and, Bool.or_self, Bool.false_eq_true, if_false]

end

theorem exec_collectiveTimeout_due {t : Nat} (hm : SMap.get? c.since m = some t) (ht : t + c.timeout ≤ s.tick) :
    exec (.collectiveTimeout r m) s = .next ((s.setColl { c with expired := true }).collDecide r) := by
  rw [exec_collectiveTimeout, execCollectiveTimeout, collTimeoutF]
  simp only [hc, hm, ho, ht, decide_true, Option.isNone_none, Bool.and_self, if_true]

variable (ha : c.anchorDev = s.dev) (hab : s.absent c.members = (0, false))
include ha hab

/-- The first term of a member, as its operation takes it. -/
theorem collTake_decides (g : Nat) (f : Group → Group) (bs : List Nat) (hm : SMap.get? c.terms m = none) :
    let c' : CollRec := { c with terms := SMap.put c.terms m bs }
    ((s.onGroup g f).collTake c m bs).mem = s.mem ∧
      ((s.onGroup g f).collTake c m bs).coll? r = some { c' with outcome := c'.verdict } := by
  have first : SMap.getD c.terms m [] ++ bs = bs := by rw [SMap.getD, hm]; rfl
  have here : (s.onGroup g f).coll? r = some c := by rw [State.coll?, State.onGroup_eng]; exact hc
  obtain rfl := State.coll?_id hc
  rw [State.collTake, first]
  exact ⟨(State.collDecide_mem _ _).trans (State.onGroup_mem _ _ _),
    State.coll?_decided here (State.onGroup_sys _ _ _) (State.onGroup_fab _ _ _) rfl ho ha hab⟩

end

/-! ### Outcomes (R183, R335) -/

section
variable {s : State} {i : Nat} {e : Eng} (he : s.eng? i = some e)
include he

theorem exec_collectiveOutcome_cgrp {k d : Nat} (hk : e.kind = .cgrp k d) :
    exec (.collectiveOutcome i) s = .next (s.cgrpEnd e k d) := by
  rw [exec_collectiveOutcome, execCollectiveOutcome, collOutcomeF]
  simp only [he, hk]

theorem exec_collectiveOutcome_coll {j : CollJob} {c : CollRec} {o : Nat × Nat × Bool} (hk : e.kind = .coll j)
    (hc : s.coll? j.anchor = some c) (ho : c.outcome = some o) :
    exec (.collectiveOutcome i) s = .next (s.collDeliver e j c o) := by
  rw [exec_collectiveOutcome, execCollectiveOutcome, collOutcomeF]
  simp only [he, hk, hc, ho]

end

/-- What a failed operation leaves before its record and its end: it counts in LATE where its member has contributed nothing, its
slot has the outcome and its proofs are spoiled. -/
def State.collSpoiled (s : State) (e : Eng) (j : CollJob) (c : CollRec) (st am : Nat) (more : Bool) : State :=
  ((if (SMap.get? c.terms j.rank).isNone && e.fail.isNone then s.lateUp else s).slotDone e.bid j.slot st am more).spoilAll e.proofs

section
variable {s : State} {e : Eng} {j : CollJob} {c : CollRec} {st am : Nat} {more : Bool}

theorem collDeliver_writes {s1 : State} (hi : ∀ h k, j.instr ≠ .cbar h k)
    (hw : s.engWrite e j.dst (c.result j.instr j.rank) = .ok s1) :
    s.collDeliver e j c (0, am, more) = (s1.slotDone e.bid j.slot 0 am more).endEng e := by
  simp only [State.collDeliver, bne_self_eq_false, Bool.false_and, Bool.false_eq_true, if_false, if_true, hw]

theorem collDeliver_unwritable {cs a : Nat} (hw : s.engWrite e j.dst (c.result j.instr j.rank) = .flt cs a) :
    s.collDeliver e j c (0, am, more) =
      (((s.slotDone e.bid j.slot 3 am more).spoilAll e.proofs).engineRec e 4 3 cs a).endEng e := by
  simp only [State.collDeliver, bne_self_eq_false, Bool.false_and, Bool.false_eq_true, if_false, if_true, hw]
  rfl

theorem collDeliver_fails (hst : st ≠ 0) : s.collDeliver e j c (st, am, more) =
    (if st = 2 ∨ st = 3 then (s.collSpoiled e j c st am more).engineRec e 4 st ((e.fail.map (·.1)).getD 0)
      ((e.fail.map (·.2)).getD 0) else s.collSpoiled e j c st am more).endEng e := by
  simp only [State.collDeliver, bne_iff_ne.2 hst, Bool.true_and, if_neg hst, State.collSpoiled]

theorem collSpoiled_arrives (s : State) (c : CollRec) (e : Eng) (j : CollJob) (st am : Nat) (more : Bool) : State.SameBytes s
    ((if (SMap.get? c.terms j.rank).isNone && e.fail.isNone then s.lateUp else s).slotDone e.bid j.slot st am more) := by
  refine .trans ?_ (State.SameBytes.onBlock _ _ _)
  split
  · exact ⟨rfl, rfl, rfl, rfl, rfl, rfl⟩
  · exact .refl s

theorem core_collSpoiled (q : Nat) : (s.collSpoiled e j c st am more).core q = s.core q := by
  rw [State.collSpoiled, (homeStep_spoilAll e.proofs).core, State.slotDone_core]
  split <;> rfl

theorem block?_collSpoiled {b : Block} (hb : s.block? e.bid = some b) : (s.collSpoiled e j c st am more).block? e.bid =
    some (b.setSlot j.slot { b.slot j.slot with status := st, amask := am, amore := more }) := by
  rw [State.block?, State.collSpoiled, (homeStep_spoilAll e.proofs).blocks]
  refine State.block?_slotDone ?_ _ _ _ _
  split <;> exact hb

/-- The slot of a failed operation has the outcome, and the operation is gone. -/
theorem collDeliver_fails_slot {b : Block} (hst : st ≠ 0) (hb : s.block? e.bid = some b) :
    (s.collDeliver e j c (st, am, more)).eng? e.id = none ∧ (s.collDeliver e j c (st, am, more)).block? e.bid =
      some (b.setSlot j.slot { b.slot j.slot with status := st, amask := am, amore := more }) := by
  rw [collDeliver_fails hst]
  refine ⟨State.eng?_endEng _ _, ?_⟩
  rw [State.block?_endEng, ← block?_collSpoiled hb]
  split
  · exact congrArg (SMap.get? · e.bid) (State.engineRec_blocks _ _ _ _ _ _)
  · rfl

/-- A failed operation changes memory in the STATE words of its proofs, which are spoiled. -/
theorem collSpoiled_memory (hs : s.MemOk) (ha : ∀ p ∈ e.proofs, p.desc % 32 = 0) :
    (∀ a, (∀ p ∈ e.proofs, a < p.desc + 16 ∨ p.desc + 24 ≤ a) →
      (s.collSpoiled e j c st am more).homeByte a = s.homeByte a) ∧
      ∀ p ∈ e.proofs, (s.collSpoiled e j c st am more).Spoiled p := by
  have arrives := collSpoiled_arrives s c e j st am more
  exact ⟨fun a beside => (homeByte_spoilAll (arrives.memOk hs) ha beside).trans (arrives.homeByte a),
    spoilAll_spoiled (arrives.memOk hs) ha⟩

end

/-! ### Results (R242) -/

/-- Parts of one length, joined: element `q` of part `j`. -/
theorem getElem?_flatMap_range {α : Type} {f : Nat → List α} {n l : Nat} (hf : ∀ m, m < n → (f m).length = l) {j q : Nat}
    (hj : j < n) (hq : q < l) : ((List.range n).flatMap f)[j * l + q]? = (f j)[q]? := by
  induction n generalizing f j with
  | zero => omega
  | succ n ih =>
    have head : (f 0).length = l := hf 0 (by omega)
    rw [List.range_succ_eq_map, List.flatMap_cons, List.flatMap_map]
    cases j with
    | zero => rw [Nat.zero_mul, Nat.zero_add, List.getElem?_append_left (head ▸ hq)]
    | succ j =>
      have past : (j + 1) * l + q = (f 0).length + (j * l + q) := by
        rw [head, Nat.add_mul, Nat.one_mul]; omega
      rw [past, List.getElem?_append_right (Nat.le_add_right _ _), Nat.add_sub_cancel_left]
      exact ih (f := fun m => f (m + 1)) (fun m hm => hf (m + 1) (by omega)) (by omega)

section
variable {c : CollRec} {h : Hd} {k : BitVec 3} {a b : Reg} {len : BitVec 24}

/-- CA2A: part `j` of member `i`'s result is part `i` of member `j`'s term. -/
theorem ca2a_result_part {i j q : Nat} (hi : i < c.members.length) (hj : j < c.members.length) (hq : q < len.toNat)
    (hl : ∀ m, m < c.members.length → (SMap.getD c.terms m []).length = c.members.length * len.toNat) :
    (c.result (.ca2a h k a b len) i)[j * len.toNat + q]? = (SMap.getD c.terms j [])[i * len.toNat + q]? := by
  have fits : (i + 1) * len.toNat ≤ c.members.length * len.toNat := Nat.mul_le_mul_right _ hi
  have parts : ∀ m, m < c.members.length →
      (((SMap.getD c.terms m []).drop (i * len.toNat)).take len.toNat).length = len.toNat := fun m hm => by
    rw [List.length_take, List.length_drop, hl m hm]
    rw [Nat.add_mul, Nat.one_mul] at fits
    omega
  refine (getElem?_flatMap_range parts hj hq).trans ?_
  rw [List.getElem?_take_of_lt hq, List.getElem?_drop]

end

end Sys2Proof.Machine
end

section
/-! The statement on collectives. -/

namespace Sys2Proof.Machine

/-- Settles O40: each instruction as its gang runs it, then each event by what the anchor has decided. -/
theorem collectivesIssueAndEnd : Obligations.CollectivesIssueAndEnd := by
  unfold Obligations.CollectivesIssueAndEnd
  refine ⟨⟨?cgrp, ?declared, ?cstat, ?issue, ?cbar⟩, ?contribution, ?timeout, ?outcome, ?result⟩
  case cgrp =>
    intro s s' x h k a b ps hw hb
    exact ⟨exec_cgrp_waits hw hb, exec_cgrp_starts hw hb⟩
  case declared =>
    intro s i k d e b he hk hb hslot
    obtain rfl := State.eng?_id he
    by_cases accepted : descOk d (s.dev * 1024 + e.core) (descSlot d) = true ∧
        s.tagFree e.core e.bid k (descSlot d).tag = true
    · have ⟨hd, hf⟩ := accepted
      obtain ⟨r, n, listed, declares⟩ := cgrpEnd_declares hb hd hf
      have slot := Block.slot_setSlot (b := b) { descSlot d with decl := n, rank := r } hslot
      exact ⟨_, _, exec_collectiveOutcome_cgrp he hk, eng?_cgrpEnd, declares, fun _ _ => ⟨r, n, listed, slot, by rw [slot]; rfl⟩,
        fun refused => absurd accepted refused⟩
    · have slot := Block.slot_setSlot (b := b) groupBad hslot
      exact ⟨_, _, exec_collectiveOutcome_cgrp he hk, eng?_cgrpEnd, cgrpEnd_refuses hb accepted,
        fun hd hf => absurd ⟨hd, hf⟩ accepted, fun _ => by rw [slot]; exact ⟨rfl, groupBad_word⟩⟩
  case cstat => exact fun s x h d k b hw hb => exec_cstat_reads hw hb
  case issue =>
    intro s x h k op a c len b hb hslot hw
    have hb' : s.block? (readCur x [a, c]).G.geo.bid = some b := by rw [readCur_geo]; exact hb
    refine ⟨fun hl => ⟨?_, ?_, fun ht => ?_⟩, exec_crs_illegal hw, fun hl hs =>
      ⟨exec_issues (exec_cag_runs hw) hb hslot hl hs, exec_issues (exec_ca2a_runs hw) hb hslot hl hs,
        fun ht => exec_issues (exec_crs_runs hw ht) hb hslot hl hs⟩⟩
    · rw [exec_cag_runs hw, collIssue_undeclared hb' hl]
    · rw [exec_ca2a_runs hw, collIssue_undeclared hb' hl]
    · rw [exec_crs_runs hw ht, collIssue_undeclared hb' hl]
  case cbar =>
    intro s x h k b hb hslot hw
    refine ⟨fun hl => ?_, fun hl hs hr => ?_⟩
    · rw [exec_cbar_runs hw hb fun live => absurd live (by rw [hl]; decide), collIssue_undeclared hb hl]
    · obtain ⟨r, e, B, kind, posted, -⟩ := collIssue_stands (h := h) (i := .cbar h k) (src := 0) (dst := 0) (tm := 0) hb hl hs hslot
      exact ⟨_, r, e, exec_cbar_runs hw hb fun _ => hr, kind, posted⟩
  case contribution =>
    intro s r m term c e j hc ho hm he hf hx ha hab
    refine ⟨fun bs hr => ?_, fun cs a hr => ?_⟩
    · obtain ⟨mem, decides⟩ := collTake_decides hc ho ha hab e.gid
        (fun G => if G.ended then G else G.stickIf (collTermDom j.instr j.tm bs) domBit) bs hm
      refine ⟨_, _, exec_collectiveContribution_reads hc ho hm he hr, mem, decides, SMap.get?_put_self _ _ _, ?_⟩
      simp only [CollRec.verdict, hf, hx, Bool.false_eq_true, if_false]
    · exact ⟨_, _, exec_collectiveContribution_faults hc ho hm he hr,
        State.coll?_decided (s := s) (t := s.setEng (e.failed cs a)) hc rfl rfl rfl ho ha hab, rfl⟩
  case timeout =>
    intro s r m t c hc ho hf ha hab hm
    refine ⟨fun ht => ⟨_, _, exec_collectiveTimeout_due hc ho hm ht, State.coll?_decided hc rfl rfl rfl ho ha hab, ?_⟩,
      exec_collectiveTimeout_early hc hm⟩
    simp only [CollRec.verdict, hf, Bool.false_eq_true, if_false, if_true]
  case outcome =>
    intro s i st am more e j c b he hk hc ho hb hslot
    obtain rfl := State.eng?_id he
    have delivers := exec_collectiveOutcome_coll he hk hc ho
    refine ⟨?writes, ?unwritable, fun hst => ⟨?fails, ?slot, ?memory⟩⟩
    case writes =>
      rintro rfl hi s1 hw
      rw [delivers, collDeliver_writes hi hw]
    case unwritable =>
      rintro rfl - cs a hw
      rw [delivers, collDeliver_unwritable hw]
    case fails => exact delivers.trans (congrArg _ (collDeliver_fails hst))
    case slot =>
      obtain ⟨gone, slot⟩ := collDeliver_fails_slot (j := j) (c := c) (am := am) (more := more) hst hb
      refine ⟨_, _, delivers, gone, slot, ?_⟩
      rw [Block.slot_setSlot _ hslot]
      exact ⟨rfl, rfl, rfl⟩
    case memory =>
      intro hs ha
      obtain ⟨beside, spoiled⟩ := collSpoiled_memory (j := j) (c := c) (st := st) (am := am) (more := more) hs ha
      exact ⟨beside, core_collSpoiled, spoiled⟩
  case result => exact fun c h k a b len i j q hi hj hq hl => ⟨ca2a_result_part hi hj hq hl, rfl⟩

end Sys2Proof.Machine
end

section
/-! Flits that a port takes and the accesses that they complete (R258, R259, R326–R332, R338, R364). -/

namespace Sys2Proof.Machine

/-! ### Flits (R327, R328, R332) -/

/-- A flit has come in on a port: the time of the last one from the device across it is now (R331). -/
def State.heard (s : State) (p : Nat) : State :=
  match s.neighbour p with
  | some d => { s with fab := { s.fab with lastFlit := SMap.put s.fab.lastFlit d s.tick } }
  | none => s
/-- A port at a flit in sequence: one that closes a gap is the replay of the flit that was dropped. -/
def Port.inSequence (q : Port) (seq : Nat) : Port :=
  { q with seq := seq, gap := none, replays := (q.replays + q.gap.isSome.toNat) % 2 ^ 32 }
/-- The port has taken a flit, and has the credits that it returns. -/
def State.tookFlit (s : State) (p : Nat) (f : Flit) : State :=
  (s.heard p).setPort p { (s.port p).inSequence (f.hdr % 2 ^ 16) with credits := (s.port p).credits + f.hdr / 2 ^ 16 % 2 ^ 9 }

section
variable {s : State} {p : Nat} {f : Flit}

theorem State.heard_tr : (s.heard p).tr = s.tr := by rw [State.heard]; split <;> rfl
theorem State.heard_sys : (s.heard p).sys = s.sys := by rw [State.heard]; split <;> rfl

theorem exec_flitReceive_dead (h : 8 ≤ p ∨ (s.port p).lanes = 0 ∨ s.portUnused p = true) :
    exec (.flitReceive p f) s = .next s := by
  have dead : (decide (8 ≤ p) || (s.port p).lanes == 0 || s.portUnused p) = true := by simpa [or_assoc] using h
  rw [exec_flitReceive, execFlitReceive, flitF]
  simp only [dead, if_true]

theorem flitWaits_edge {r : HostReq} (hf : f.arrive = some r) (hp : 6 ≤ p) : s.flitWaits p f = s.hostWaits r := by
  rw [State.flitWaits, hf]
  exact if_pos hp
theorem flitWaits_torus {r : HostReq} (hf : f.arrive = some r) (hp : p < 6) :
    s.flitWaits p f = (s.sys.phase == 6 && !s.tr.rgo && !s.drained (canon r.addr)) := by
  rw [State.flitWaits, hf]
  exact if_neg (by omega)

theorem flit_inSequence (hg : (s.port p).gap = none ∨ (s.port p).gap = some (f.hdr % 2 ^ 16)) :
    (s.port p).gap.any (fun n => n != f.hdr % 2 ^ 16) = false := by
  rcases hg with h | h <;> simp [h]

section
variable (hp : p < 8) (hl : (s.port p).lanes ≠ 0) (hu : s.portUnused p = false)
include hp hl hu

theorem port_live : (decide (8 ≤ p) || (s.port p).lanes == 0 || s.portUnused p) = false := by
  rw [decide_eq_false (Nat.not_le.2 hp), beq_false_of_ne hl, hu]
  rfl

theorem exec_flitReceive_badCrc (hc : f.crcOk = false) : exec (.flitReceive p f) s =
    .next ((s.heard p).setPort p { s.port p with
      drops := ((s.port p).drops + 1) % 2 ^ 32, gap := some (((s.port p).gap).getD (((s.port p).seq + 1) % 2 ^ 16)) }) := by
  rw [exec_flitReceive, execFlitReceive, flitF]
  simp only [port_live hp hl hu, hc, Bool.not_false, Bool.false_eq_true, if_true, if_false]
  rfl

variable (hc : f.crcOk = true)
include hc

/-- Before the replay of the flit that was dropped no flit is taken. -/
theorem exec_flitReceive_early {n : Nat} (hg : (s.port p).gap = some n) (hn : n ≠ f.hdr % 2 ^ 16) :
    exec (.flitReceive p f) s = .next (s.heard p) := by
  have early : (s.port p).gap.any (fun n => n != f.hdr % 2 ^ 16) = true := by rw [hg]; exact bne_iff_ne.2 hn
  rw [exec_flitReceive, execFlitReceive, flitF]
  simp only [port_live hp hl hu, hc, early, Bool.not_true, Bool.false_eq_true, if_true, if_false]
  rfl

variable (hg : (s.port p).gap = none ∨ (s.port p).gap = some (f.hdr % 2 ^ 16))
include hg

theorem exec_flitReceive_unusedType (ht : 6 ≤ f.hdr / 2 ^ 28 % 16) : exec (.flitReceive p f) s =
    .next ((s.heard p).setPort p
      { (s.port p).inSequence (f.hdr % 2 ^ 16) with drops := ((s.port p).drops + 1) % 2 ^ 32 }) := by
  rw [exec_flitReceive, execFlitReceive, flitF]
  simp only [port_live hp hl hu, hc, flit_inSequence hg, ht, Bool.not_true, Bool.false_eq_true, if_true, if_false]
  rfl

/-- A flit of a used type whose access, if it completes one, can be served: it is taken, and the access delivered. -/
theorem exec_flitReceive_taken (ht : f.hdr / 2 ^ 28 % 16 < 6) (hw : s.flitWaits p f = false) : exec (.flitReceive p f) s =
    .next (f.arrive.elim (s.tookFlit p f) ((s.tookFlit p f).deliver p)) := by
  rw [exec_flitReceive, execFlitReceive, flitF]
  simp only [port_live hp hl hu, hc, flit_inSequence hg, Nat.not_le.2 ht, hw, Bool.not_true, Bool.false_eq_true, if_false]
  cases f.arrive <;> rfl

end

end

/-! ### Accesses that arrive (R258, R259, R363, R364, R366) -/

section
variable {s : State} {p : Nat} {r : HostReq}

theorem deliver_edge (hp : 6 ≤ p) : .next (s.deliver p r) = exec (.hostAccess r) s := by
  rw [exec_hostAccess, execHostAccess, State.deliver, if_pos hp]
theorem deliver_discarded (hp : p < 6) (hgo : s.tr.rgo = true) : s.deliver p r = s := by
  rw [State.deliver, if_neg (by omega), if_pos hgo]
theorem deliver_torus (hp : p < 6) (hgo : s.tr.rgo = false) (hph : s.sys.phase = 6) : s.deliver p r = s.arrive r := by
  rw [State.deliver, if_neg (by omega), if_neg (by rw [hgo]; decide), if_neg (by rw [hph]; decide)]

variable (hl : s.isLocal (canon r.addr) = true) (hd : s.drained (canon r.addr) = true)
include hl hd

theorem arrive_load (hop : r.op = none) (hn : r.size ≠ 128) : s.arrive r = s.answer 0 r.host (s.homeRead (canon r.addr) r.size) := by
  simp only [State.arrive, hl, hd, hop, hn, Bool.not_true, Bool.false_eq_true, if_false]

theorem arrive_store (hop : r.op = some none) (hc : s.capturing = false) :
    s.arrive r = s.homeWriteN (canon r.addr) (natBytes r.size r.data) := by
  have memory : (paSpace r.addr != 5) = true := by
    rw [paSpace_of_canon (beq_iff_eq.1 (Bool.and_eq_true_iff.1 hl).1)]; rfl
  rw [← inject_write r hop hl hd hc, State.inject, if_pos memory]

end

end Sys2Proof.Machine
end

section
/-! Links, liveness and the accesses of hosts (R259, R327, R331, R338, R366). -/

namespace Sys2Proof.Machine

/-! ### Liveness (R331) -/

/-- What no step of a fold changes, the fold does not change. -/
theorem foldl_kept {α β : Type} (π : State → β) {f : State → α → State} (hf : ∀ s a, π (f s a) = π s) (l : List α)
    (s : State) : π (l.foldl f s) = π s := by
  induction l generalizing s with
  | nil => rfl
  | cons a l ih => exact (ih _).trans (hf s a)

theorem testBit_set (l d : Nat) (up : Bool) : (if l.testBit d = up then l else l ^^^ (1 <<< d)).testBit d = up := by
  split
  · assumption
  · rename_i other
    rw [Nat.testBit_xor, Nat.one_shiftLeft, Nat.testBit_two_pow_self, Bool.xor_true]
    exact (Bool.eq_not_of_ne (Ne.symm other)).symm

section
variable (s : State)

/-- An anchor's decision changes the engines alone. -/
theorem State.collDecide_frame (r : Nat) : s.collDecide r = { s with eng := (s.collDecide r).eng } := by
  simp only [collDecide]
  repeat' split
  all_goals rfl
theorem State.collDecide_fab (r : Nat) : (s.collDecide r).fab = s.fab :=
  (congrArg fab (s.collDecide_frame r)).trans rfl
theorem State.collDecide_sys (r : Nat) : (s.collDecide r).sys = s.sys :=
  (congrArg sys (s.collDecide_frame r)).trans rfl

theorem State.collsDecide_mem : s.collsDecide.mem = s.mem := foldl_kept State.mem (fun s (c : CollRec) => collDecide_mem s c.id) _ s
theorem State.collsDecide_fab : s.collsDecide.fab = s.fab := foldl_kept State.fab (fun s (c : CollRec) => collDecide_fab s c.id) _ s
theorem State.collsDecide_sys : s.collsDecide.sys = s.sys := foldl_kept State.sys (fun s (c : CollRec) => collDecide_sys s c.id) _ s

theorem State.setLive_mem (d : Nat) (up : Bool) : (s.setLive d up).mem = s.mem := collsDecide_mem _

/-- The liveness bit of another device is as it is set. -/
theorem State.devUp_setLive {d : Nat} (hd : d ≠ s.dev) (up : Bool) : (s.setLive d up).devUp d = up := by
  have other : (d == (s.setLive d up).dev) = false := by rw [dev, setLive, collsDecide_sys]; exact beq_false_of_ne hd
  rw [devUp, other, setLive, collsDecide_fab]
  exact testBit_set _ _ _

end

section
variable {s : State} {d : Nat} (hd : d < 512) (hne : d ≠ s.dev)
include hd hne

theorem exec_livenessUpdate_other (up : Bool) : exec (.livenessUpdate d up) s = .next (s.setLive d up) := by
  rw [exec_livenessUpdate, execLivenessUpdate, livenessUpdateF]
  simp [hd, hne]

variable (hup : s.fab.live.testBit d = true) (hn : ∃ p, p < 6 ∧ s.neighbour p = some d)
include hup hn

/-- A link partner that is UP is DOWN once it has been silent for 65,536 ticks. -/
theorem exec_livenessTimeout_partner : exec (.livenessTimeout d) s =
    .next (if SMap.getD s.fab.lastFlit d 0 + 65536 ≤ s.tick then s.setLive d false else s) := by
  have partner : (List.range 6).any (fun p => s.neighbour p == some d) = true := by simpa [List.any_eq_true] using hn
  rw [exec_livenessTimeout, execLivenessTimeout, livenessTimeoutF]
  simp [hd, hne, hup, partner]

end

/-! ### Hosts (R338, R366) -/

theorem State.SameBytes.symm {s t : State} (h : SameBytes s t) : SameBytes t s :=
  ⟨h.mem.symm, h.keyed.symm, h.keys.symm, h.boots.symm, h.encs.symm, h.devid.symm⟩

/-- The bytes that a write at a home leaves depend on nothing but the bytes before it. -/
theorem State.SameBytes.homeWrite_mem {s t : State} (h : SameBytes s t) (a n v : Nat) (hc : Bool) :
    (t.homeWrite a n v hc).mem = (s.homeWrite a n v hc).mem := by
  have same : SameBytes (s.wrote (lineOf a) hc) (t.wrote (lineOf a) hc) :=
    ((SameBytes.wrote s _ hc).symm.trans h).trans (SameBytes.wrote t _ hc)
  have stored : (t.wrote (lineOf a) hc).storedKey a = (s.wrote (lineOf a) hc).storedKey a := by
    rw [storedKey, storedKey, same.keyed]
  have rekeyed : ((t.wrote (lineOf a) hc).rekeyLine a).mem = ((s.wrote (lineOf a) hc).rekeyLine a).mem := by
    simp only [rekeyLine, same.isLocal, same.keyOf, same.homeRead, same.mem, stored]
    split
    · exact same.mem
    · rfl
  exact congrArg (Memory.writeN · a n v) rekeyed

theorem HomeStep.fab {f : State → State} (hf : HomeStep f) (s : State) : (f s).fab = s.fab :=
  (congrArg State.fab (hf.frame s)).trans rfl

/-- A host's store has been performed, and waits for its acknowledgement. -/
def State.hostStored (s : State) (r : HostReq) : State :=
  let w := (s.countHit (canon r.addr)).homeWrite (canon r.addr) r.size (r.data % 2 ^ (8 * r.size)) true
  { w.fresh with fab := { w.fab with hosts := w.fab.hosts ++ [⟨s.nextId, r.host, s.wctOf (canon r.addr) true, 0⟩] } }

section
variable {s : State} {r : HostReq}

theorem hostStored_mem :
    (s.hostStored r).mem = (s.homeWrite (canon r.addr) r.size (r.data % 2 ^ (8 * r.size)) true).mem :=
  (State.SameBytes.countHit s (canon r.addr)).homeWrite_mem _ _ _ _
theorem hostStored_hosts :
    (s.hostStored r).fab.hosts = s.fab.hosts ++ [⟨s.nextId, r.host, s.wctOf (canon r.addr) true, 0⟩] := by
  simp only [State.hostStored, (homeStep_homeWrite _ _ _ _).fab]
  rfl
theorem hostStored_capturing : (s.hostStored r).capturing = s.capturing :=
  congrArg (fun tr : Trace => bit tr.tctl 0 && bit tr.tctl 3)
    ((homeStep_homeWrite _ r.size (r.data % 2 ^ (8 * r.size)) true).tr (s.countHit (canon r.addr)))

/-- An access that is no release, or of a host with no write on its way, waits for nothing but its line's move. -/
theorem hostWaits_false (hd : s.drained (canon r.addr) = true)
    (ho : r.ord < 2 ∨ (s.fab.hosts.any fun h => h.host == r.host) = false) : s.hostWaits r = false := by
  have free : (decide (2 ≤ r.ord) && r.op.isSome && s.fab.hosts.any fun h => h.host == r.host) = false := by
    rcases ho with h | h
    · rw [decide_eq_false (Nat.not_le.2 h), Bool.false_and, Bool.false_and]
    · rw [h, Bool.and_false]
  rw [State.hostWaits, free, hd, Bool.not_true, Bool.or_false, Bool.and_false]

/-- Before READY a host's access of memory is refused. -/
theorem exec_hostAccess_refused (hc : paSpace r.addr ≠ 4) (hph : s.sys.phase ≠ 6) :
    exec (.hostAccess r) s = .next (s.answer 2 r.host 0) := by
  rw [exec_hostAccess, execHostAccess, hostAccessF]
  simp [hc, hph]

section
variable (hm : paSpace (canon r.addr) = 0) (hq : reqOk r = true) (hph : s.sys.phase = 6)
  (ha : s.addrOk (canon r.addr) = true) (hw : s.hostWaits r = false)
include hm hq hph ha hw

theorem exec_hostAccess_load (hc : paSpace r.addr ≠ 4) (hop : r.op = none) :
    exec (.hostAccess r) s = .next ((s.countHit (canon r.addr)).answer 0 r.host
      (if s.isLocal (canon r.addr) = true then s.homeRead (canon r.addr) r.size else r.data / 2 ^ 128 % 2 ^ (8 * r.size))) := by
  rw [exec_hostAccess, execHostAccess, hostAccessF]
  simp [State.performReq, hop, hm, hc, hq, hph, ha, hw]

theorem exec_hostAccess_store (hop : r.op = some none) (hcap : s.capturing = false) :
    exec (.hostAccess r) s = .next (s.hostStored r) := by
  have silent := recordData_notCapturing (s := s.hostStored r) (kind := 6) (who := r.host) (addr := canon r.addr)
    (ordsc := ordScope r.ord 4) (n := r.size) (data := r.data % 2 ^ (8 * r.size)) (hostStored_capturing.trans hcap)
  rw [exec_hostAccess, execHostAccess, hostAccessF]
  simp only [State.performReq, reqNew, hop, hm, hq, hph, ha, hw, Option.isNone_some, Option.isSome_none, bne_self_eq_false,
    Bool.and_false, Bool.false_and, Bool.not_true, Bool.or_false, Bool.false_eq_true, if_false]
  split
  · exact congrArg _ silent
  · rfl

end

end

/-! ### The statement -/

/-- Settles O48: a flit by what its port does with it, and an access by where it comes from. -/
theorem fabricAndHosts : Obligations.FabricAndHosts := by
  unfold Obligations.FabricAndHosts
  refine ⟨?flit, ?arrives, ?training, ?liveness, ?host, ?ack⟩
  case flit =>
    intro s p f
    refine ⟨exec_flitReceive_dead, fun hp hl hu => ⟨exec_flitReceive_badCrc hp hl hu, fun n hc hg hn =>
      exec_flitReceive_early hp hl hu hc hg hn, fun hc hg => ⟨exec_flitReceive_unusedType hp hl hu hc hg, fun ht => ?_⟩⟩⟩
    have taken := exec_flitReceive_taken hp hl hu hc hg ht
    refine ⟨fun hf => ?_, fun r hf => ⟨fun torus hgo => ?_, fun torus hgo hph hd => ?_, fun edge hw => ?_⟩⟩
    · rw [taken (by rw [State.flitWaits, hf]; rfl), hf]
      rfl
    · have goes : (s.tookFlit p f).tr.rgo = true := (congrArg Trace.rgo State.heard_tr).trans hgo
      rw [taken (by rw [flitWaits_torus hf torus, hgo, Bool.not_true, Bool.and_false, Bool.false_and]), hf, Option.elim_some, deliver_discarded torus goes]
      rfl
    · have stands : (s.tookFlit p f).tr.rgo = false := (congrArg Trace.rgo State.heard_tr).trans hgo
      have ready : (s.tookFlit p f).sys.phase = 6 := (congrArg Sys.phase State.heard_sys).trans hph
      rw [taken (by rw [flitWaits_torus hf torus, hd, Bool.not_true, Bool.and_false]), hf, Option.elim_some, deliver_torus torus stands ready]
      rfl
    · rw [taken ((flitWaits_edge hf edge).trans hw), hf, Option.elim_some, deliver_edge edge]
      rfl
  case arrives => exact fun s r hl hd => ⟨arrive_load hl hd, arrive_store hl hd⟩
  case training => exact fun s p n => rfl
  case liveness =>
    intro s d hd hne
    refine ⟨fun hup hn => ⟨fun silent => ⟨_, ?_, s.devUp_setLive hne false, s.setLive_mem d false⟩, fun heard => ?_⟩,
      fun up => ⟨_, exec_livenessUpdate_other hd hne up, s.devUp_setLive hne up, s.setLive_mem d up⟩⟩
    · rw [exec_livenessTimeout_partner hd hne hup hn, if_pos silent]
    · rw [exec_livenessTimeout_partner hd hne hup hn, if_neg (Nat.not_le.2 heard)]
  case host =>
    intro s r hm hc hq
    refine ⟨exec_hostAccess_refused hc, fun hph ha hd ho => ?_⟩
    have serves := hostWaits_false hd ho
    exact ⟨exec_hostAccess_load hm hq hph ha serves hc, fun hop hcap =>
      ⟨_, exec_hostAccess_store hm hq hph ha serves hop hcap, hostStored_mem, hostStored_hosts⟩⟩
  case ack =>
    intro s i h hf
    refine ⟨fun ht => ?_, fun ht => ?_⟩
    · rw [exec_hostWriteAck, execHostWriteAck, hostWriteAckF, hf]
      exact congrArg _ (if_pos ht)
    · rw [exec_hostWriteAck, execHostWriteAck, hostWriteAckF, hf]
      exact congrArg _ (if_neg (Nat.not_lt.2 ht))

end Sys2Proof.Machine
end

section
/-! How a broadcast starts, and how the messages and folds of a wave's hops go (R265, R293–R301, R303, R309–R313). -/

namespace Sys2Proof.Machine

/-! ### When an event of a wave is due (R295–R301) -/

section
variable {b : Bcast} (hd : b.ended = none)
include hd

theorem hopStart_due (hs : b.started = true) (hw : b.isWave = true) (ht : b.todo = []) :
    (!b.isWave || !b.started || b.ended.isSome || !b.todo.isEmpty) = false := by
  rw [hw, hs, hd, ht]
  rfl
theorem message_due {m : Nat} (hin : b.inHop = true) (hg : m ∉ b.got) :
    (!b.inHop || b.ended.isSome || b.got.contains m) = false := by
  rw [hin, hd, List.contains_eq_mem, decide_eq_false hg]
  rfl
theorem hopEnd_due (hin : b.inHop = true) (hu : b.unsent = []) (hg : b.got.length = b.sending.length) :
    (!b.inHop || b.ended.isSome || !b.unsent.isEmpty || b.got.length != b.sending.length) = false := by
  rw [hin, hd, hu, hg, bne_self_eq_false]
  rfl

end

/-! ### What a wave does at them -/

/-- A wave as it begins a hop. -/
def Bcast.nextHop (b : Bcast) : Bcast :=
  { b with hop := b.hop + 1, inHop := true, sending := [], got := [], lost := [], spilled := [], lows := none }
/-- Message m has come to no node (R293). -/
def Bcast.dropped (b : Bcast) (m : Nat) : Bcast :=
  { b with got := b.got ++ [m], lost := b.lost ++ [m], msgs := b.msgs + 1, drops := b.drops + 1 }
/-- With every message received: the end of the hop goes to the units that have not got it, the units that have it fold in turn, and
with the last fold the hop is applied (R297, R301). -/
def State.hopGoesOn (s : State) (e : Eng) (b : Bcast) (p : Space) : State :=
  match b.fin with
  | none => s.hopEndCast e b p p.units []
  | some f =>
    match f.due, f.units with
    | u :: due, _ => s.foldUnit e b p f u due
    | [], [] => s.hopApply e b p f.folds
    | [], us => s.hopEndCast e b p us f.folds

section
variable {s : State} {e : Eng} {b : Bcast} {p : Space}

/-- A unit whose buffer has room takes the message. -/
theorem msgTake_buffers {m pl : Nat} (hn : s.buffered (p.unitOf pl) < 256) : ∃ b', s.msgTake e b p m pl = s.setBcast e b' ∧
    b'.got = b.got ++ [m] ∧ b'.lost = b.lost ∧ b'.msgs = b.msgs + 1 ∧ b'.drops = b.drops := by
  rw [State.msgTake, if_pos hn]
  exact ⟨_, rfl, rfl, rfl, rfl, rfl⟩

theorem foldUnit_lows {f : HopFin} {u : Nat} {us : List Nat} (hl : b.lows = none) : s.foldUnit e b p f u us =
    s.setBcast e { b with lows := some (s.slotLows p ((b.unitNodes p u).map (·.1)) b.foldSlots) } := by
  simp only [State.foldUnit, hl]

/-- Where memory has no uncorrectable word nothing that a unit reads for its folds meets one. -/
theorem memBad_none (hb : s.ms.bad = []) (a n : Nat) : s.memBad a n = false := by rw [State.memBad, hb]; rfl

theorem foldUnit_folds {f : HopFin} {u : Nat} {us : List Nat} {lo : SMap Nat} {gs : List NodeFold} (hl : b.lows = some lo)
    (hb : s.ms.bad = []) (hm : (b.unitNodes p u).mapM (s.nodeFold p b lo) = some gs) : s.foldUnit e b p f u us =
    s.setBcast e { b with lows := none, fin := some { f with due := us, folds := f.folds ++ gs } } := by
  have good (ms : List Nat) (pl : Nat) : s.nodeBad p ms pl = false := by simp [State.nodeBad, memBad_none hb]
  simp [State.foldUnit, hl, hm, good, memBad_none hb]

/-- The nodes of the next frontier. -/
def nextFrontier (w : Nat) (fs : List NodeFold) : List Nat := (fs.filter fun x => !wChanged w || x.old != x.pat).map (·.place)

theorem hopApply_stands (hd : b.ended = none) {fs : List NodeFold} : ∃ b', s.hopApply e b p fs = s.setBcast e b' ∧
    b'.todo = (fs.flatMap fun x =>
      slotPuts (s.slotAddr p x.place (wMd b.word)) (waveBits b.word / 8) x.pat ++ [s.markSet p x.place (wMd b.word)]) ∧
    b'.frontier = nextFrontier b.word fs ∧ b'.inHop = false ∧ b'.hop = b.hop ∧
    (b'.ended = if nextFrontier b.word fs = [] then some (1, 0)
      else if b.hop = wHops b.word ∨ (wHops b.word = 0 ∧ b.hop = 65535) then some (0, 0) else none) := by
  have outcome (st : Nat) : b.ended.getD (st, 0) = (st, 0) := by rw [hd]; rfl
  by_cases empty : nextFrontier b.word fs = []
  · refine ⟨_, congrArg (s.setBcast e) (if_pos (List.isEmpty_iff.2 empty)), rfl, rfl, rfl, rfl, ?_⟩
    rw [if_pos empty]
    exact congrArg some (outcome 1)
  · rw [if_neg empty]
    have more : ¬(nextFrontier b.word fs).isEmpty = true := fun h => empty (List.isEmpty_iff.1 h)
    by_cases last : b.hop = wHops b.word ∨ (wHops b.word = 0 ∧ b.hop = 65535)
    · refine ⟨_, congrArg (s.setBcast e) ((if_neg more).trans (if_pos last)), rfl, rfl, rfl, rfl, ?_⟩
      rw [if_pos last]
      exact congrArg some (outcome 0)
    · refine ⟨_, congrArg (s.setBcast e) ((if_neg more).trans (if_neg last)), rfl, rfl, rfl, rfl, ?_⟩
      rw [if_neg last]
      exact hd

end

/-! ### A command that queues (R301) -/

/-- A unit's queue that has room takes a new command. -/
theorem queueCmd_one {s : State} {u i m : Nat} (hl : (SMap.getD s.eng.catchup u []).length < 64)
    (hn : (i, m) ∉ SMap.getD s.eng.catchup u []) :
    SMap.getD (s.queueCmd [u] i m).eng.catchup u [] = SMap.getD s.eng.catchup u [] ++ [(i, m)] := by
  have room : ((SMap.getD s.eng.catchup u []).contains (i, m) || decide (64 ≤ (SMap.getD s.eng.catchup u []).length)) = false := by
    simp [hn, hl]
  simp only [State.queueCmd, List.foldl_cons, List.foldl_nil, room, Bool.false_eq_true, if_false]
  exact SMap.getD_put_self _ _ _ _

section
variable {s : State} {i : Nat} {e : Eng} {b : Bcast} {p : Space} (he : s.eng? i = some e) (hk : e.kind = .bcast b)
  (hp : s.spaceOf b.space = some p)
include he hk hp

/-! ### BROADCAST_START (R265, R303, R309–R313) -/

theorem exec_broadcastStart_lows (hs : b.started = false) (hh : s.bcastHeld e b = false) (hr : b.readsSlots = true)
    (hl : b.lows = none) : exec (.broadcastStart i) s = .next (s.setBcast e { b with lows := some (s.startLows p b) }) := by
  rw [exec_broadcastStart, execBroadcastStart, broadcastStartF, he]
  simp only [hk, hp, hs, hh, hr, hl, Option.isNone_none, Bool.and_self, Bool.or_self, Bool.false_eq_true, if_true, if_false]

/-! ### HOP_START (R295, R303, R319) -/

section
variable (hs : b.started = true) (hw : b.isWave = true) (hd : b.ended = none) (hin : b.inHop = false) (ht : b.todo = [])
include hs hw hd hin ht

theorem exec_hopStart_lows (hl : b.lows = none) : exec (.hopStart i) s =
    .next (s.setBcast e { b with lows := some (s.slotLows p b.frontier b.nextHop.sendSlots) }) := by
  rw [exec_hopStart, execHopStart, hopStartF, he]
  simp only [hk, hp, hopStart_due hd hs hw ht, hin, hl, Bool.false_eq_true, if_false]
  rfl

theorem exec_hopStart_sends {lo : SMap Nat} {ms : List (Nat × List Msg)} (hl : b.lows = some lo)
    (hm : s.sendAll p b.nextHop lo b.frontier = .inl ms) : exec (.hopStart i) s =
    .next ((s.queueCmd (p.units.filter s.queues) i cmdStart).setBcast e { b.nextHop with
      sending := (ms.filter fun x => !s.queues (p.unitOf x.1)).flatMap (·.2), unsent := ms.filter fun x => s.queues (p.unitOf x.1) }) := by
  obtain rfl := State.eng?_id he
  rw [Bcast.nextHop] at hm
  rw [exec_hopStart, execHopStart, hopStartF, he]
  simp only [hk, hp, hopStart_due hd hs hw ht, hin, hl, hm, Bcast.sends, Bool.not_not, List.nil_append, Bool.false_eq_true, if_false]
  rfl

end

/-! ### MESSAGE_RECEIVE (R293, R300, R301) -/

section
variable {m : Nat} {g : Msg} (hin : b.inHop = true) (hd : b.ended = none) (hm : b.sending[m]? = some g) (hg : m ∉ b.got)
include hin hd hm hg

theorem exec_messageReceive_nowhere (hl : s.locate e p g.dst = .ok none) :
    exec (.messageReceive i m) s = .next (s.setBcast e (b.dropped m)) := by
  rw [exec_messageReceive, execMessageReceive, messageReceiveF, State.msgArrive, he]
  simp only [hk, hp, hm, message_due hd hin hg, hl, Bool.false_eq_true, if_false]
  rfl

variable {pl : Nat} (hl : s.locate e p g.dst = .ok (some pl))
include hl

theorem exec_messageReceive_queues (hq : s.queues (p.unitOf pl) = true) :
    exec (.messageReceive i m) s = .next (s.queueCmd [p.unitOf pl] i m) := by
  obtain rfl := State.eng?_id he
  rw [exec_messageReceive, execMessageReceive, messageReceiveF, State.msgArrive, he]
  simp only [hk, hp, hm, message_due hd hin hg, hl, hq, Bool.not_false, Bool.and_self, Bool.false_eq_true, if_true, if_false]

variable (hq : s.queues (p.unitOf pl) = false) (hb : s.memBad (s.recAddr p pl) 32 = false)
include hq hb

/-- At a unit that has its commands now, where the record can be read. -/
theorem exec_messageReceive_reads : exec (.messageReceive i m) s =
    .next (if s.nodeIs p pl g.dst then s.msgTake e b p m pl else s.setBcast e (b.dropped m)) := by
  rw [exec_messageReceive, execMessageReceive, messageReceiveF, State.msgArrive, he]
  simp only [hk, hp, hm, message_due hd hin hg, hl, hq, hb, Bool.and_false, Bool.false_eq_true, if_false]
  rfl

end

/-! ### HOP_END (R297–R299, R301, R303) -/

section
variable (hd : b.ended = none) (hin : b.inHop = true) (ht : b.todo = []) (hu : b.unsent = [])
  (hg : b.got.length = b.sending.length)
include hd hin ht hu hg

theorem exec_hopEnd_due : exec (.hopEnd i) s = .next (s.hopGoesOn e b p) := by
  rw [exec_hopEnd, execHopEnd, hopEndF, he]
  simp only [hk, hp, ht, hopEnd_due hd hin hu hg, Bool.false_eq_true, if_false]
  rfl

end

end

end Sys2Proof.Machine
end

section
/-! The writes that follow a hop, the end of a broadcast, and the statement (R301–R304, R309). -/

namespace Sys2Proof.Machine

/-! ### Writes of the graph engine and TICK -/

section
variable (s : State) (e : Eng)

@[simp] theorem State.onGroup_tick (g : Nat) (f : Group → Group) : (s.onGroup g f).tick = s.tick := by
  simp only [onGroup]; split <;> rfl

theorem State.raiseWct_tick (g w : Nat) : (s.raiseWct g w).tick = s.tick := onGroup_tick s g _
theorem State.homeWrite_tick (pa n v : Nat) (hc : Bool) : (s.homeWrite pa n v hc).tick = s.tick :=
  (homeStep_homeWrite pa n v hc).tick s
theorem State.gWrite_tick (pa n v : Nat) : (s.gWrite e pa n v).tick = s.tick := by
  rw [gWrite, raiseWct_tick, homeWrite_tick]

/-- Stated for any length and value, so that no check of it has to run a write. -/
theorem foldl_gWrite_tick (pa : State → Nat → Nat) (n v : Nat) (l : List Nat) :
    (l.foldl (fun s r => s.gWrite e (pa s r) n v) s).tick = s.tick :=
  foldl_kept State.tick (fun s r => s.gWrite_tick e (pa s r) n v) l s
theorem State.clearWave_tick (p : Space) (w : Nat) : (s.clearWave e p w).tick = s.tick :=
  foldl_kept State.tick (fun s i => foldl_gWrite_tick s e (fun s r => s.recAddr p (place i r) + 0x20 + 8 * w) 8 0 _) _ s

end

/-! ### Spaces (R308, R309) -/

section
variable {s : State} {desc : Nat} {p q : Space}

theorem State.spaceOf_desc (hp : s.spaceOf desc = some p) : p.desc = desc := by
  simpa using List.find?_some hp

theorem State.spaceOf_setSpace (hp : s.spaceOf desc = some p) (hq : q.desc = p.desc) :
    (s.setSpace q).spaceOf desc = some q := by
  have hd := spaceOf_desc hp
  have same : ((fun x : Space => x.desc == desc) ∘ fun x => if x.desc = q.desc then q else x) = fun x => x.desc == desc := by
    funext x
    by_cases hx : x.desc = q.desc
    · simp only [Function.comp_apply, hx, if_true]
    · simp only [Function.comp_apply, hx, if_false]
  have found : s.eng.spaces.find? (fun x => x.desc == desc) = some p := hp
  simp only [spaceOf, setSpace, List.find?_map, same, found, Option.map_some, Option.some.injEq]
  exact if_pos hq.symm

/-- The first entry that passes a test stays so where others are dropped. -/
theorem find?_filter_kept {α : Type} {test keep : α → Bool} {l : List α} {a : α} (h : l.find? test = some a) (hk : keep a = true) :
    (l.filter keep).find? test = some a := by
  obtain ⟨passes, as, bs, rfl, before⟩ := List.find?_eq_some_iff_append.1 h
  refine List.find?_eq_some_iff_append.2 ⟨passes, as.filter keep, bs.filter keep, ?_, fun x hx => before x (List.mem_filter.1 hx).1⟩
  rw [List.filter_append, List.filter_cons_of_pos hk]

/-- A binding that is not closing stays. -/
theorem State.spaceOf_sweepSpaces (hp : s.spaceOf desc = some p) (hc : p.closing = false) :
    s.sweepSpaces.spaceOf desc = some p := find?_filter_kept hp (by rw [hc]; rfl)

end

/-- Words that a load lists in the program store, one after another. -/
theorem getD_store_words (base n k : Nat) (f : Nat → Nat) (m : SMap Nat) :
    SMap.getD (((List.range n).map f).zipIdx.foldl (fun (m : SMap Nat) x => SMap.put m (base + x.2) x.1) m) k 0 =
      if base ≤ k ∧ k < base + n then f (k - base) else SMap.getD m k 0 := by
  have run : ((List.range n).map f).zipIdx.foldl (fun (m : SMap Nat) x => SMap.put m (base + x.2) x.1) m =
      (List.range n).foldl (fun m i => SMap.put m (base + i) (f i)) m := by
    induction n with
    | zero => rfl
    | succ n ih => simp [List.range_succ, List.zipIdx_append, ih]
  rw [run, SMap.getD_foldl_put]

/-! ### The end of a broadcast (R302, R304, R305, R323) -/

section
variable {s : State} {e : Eng} {b : Bcast} {p : Space} {st c : Nat}

theorem eng?_bcastFin : (s.bcastFin e b p st c).eng? e.id = none := State.eng?_endEng _ e

/-- A wave that has not failed ends with zero in its state words, and its status record after them. -/
theorem bcastFin_wave_mem {h : Hd} {arg : BitVec 24} {a r : Reg} (hi : b.instr = .gprop h arg a r) (ht : b.todo = []) (hst : st < 2) :
    (s.bcastFin e b p st c).mem =
      ((s.clearWave e p (wWave b.word)).gDesc e (p.desc + 0x40 + 32 * wWave b.word) 32 (b.status st 0 s.tick)).mem := by
  have good : decide (2 ≤ st) = false := decide_eq_false (Nat.not_le.2 hst)
  have cause : (if st = 3 then c else 0) = 0 := if_neg (by omega)
  simp only [State.bcastFin, hi, ht, good, cause, List.foldl_nil, State.clearWave_tick, Bool.false_eq_true, if_false]
  exact State.onGroup_mem _ _ _

/-- A load leaves the bindings as it finds them, but those that close. -/
theorem spaceOf_bcastFin_gload {h : Hd} {base n : BitVec 7} {a r : Reg} (hi : b.instr = .gload h base n a r) {desc : Nat} {q : Space}
    (hq : s.spaceOf desc = some q) (hc : q.closing = false) : (s.bcastFin e b p 0 0).spaceOf desc = some q := by
  have kept : (s.endEng e).spaceOf desc = some q := by rw [State.spaceOf, State.endEng, State.onGroup_eng]; exact hq
  have swept := State.spaceOf_sweepSpaces kept hc
  simp only [State.bcastFin, hi]
  exact swept

end

/-! ### BROADCAST_END and the writes before it (R303, R309) -/

section
variable {s : State} {i : Nat} {e : Eng} {b : Bcast} {p : Space} (he : s.eng? i = some e) (hk : e.kind = .bcast b)
  (hp : s.spaceOf b.space = some p) (hs : b.started = true)
include he hk hp hs

theorem exec_end_writes {w : GWrite} {ws : List GWrite} (ht : b.todo = w :: ws) :
    exec (if b.isWave then .hopEnd i else .broadcastEnd i) s = .next ((s.gDo e w).setBcast e { b with todo := ws }) := by
  by_cases hw : b.isWave = true
  · rw [if_pos hw, exec_hopEnd, execHopEnd, hopEndF, he]
    simp only [hk, hp, ht, hw, if_true]
  · rw [if_neg hw, exec_broadcastEnd, execBroadcastEnd, broadcastEndF, he]
    simp only [hk, hp, hs, ht, hw, Bool.not_true, Bool.false_eq_true, if_false]

variable (ht : b.todo = [])
include ht

theorem exec_broadcastEnd_ended {st c : Nat} (hd : b.ended = some (st, c)) :
    exec (.broadcastEnd i) s = .next (s.bcastFin e b p st c) := by
  rw [exec_broadcastEnd, execBroadcastEnd, broadcastEndF, he]
  simp only [hk, hp, hs, ht, hd, Bool.not_true, Bool.false_eq_true, if_false]

/-- A space whose program store holds the words of a load (R309). -/
def Space.loaded (p : Space) (base n : Nat) (bs : List Nat) : Space :=
  { p with store := ((List.range n).map fun i => leAt bs (4 * i) 4).zipIdx.foldl (fun (m : SMap Nat) x =>
    SMap.put m (base + x.2) x.1) p.store }

theorem exec_broadcastEnd_gload {h : Hd} {base n : BitVec 7} {a r : Reg} {bs : List Nat} (hd : b.ended = none)
    (hi : b.instr = .gload h base n a r) (hr : s.engRead e b.addr (4 * n.toNat) = .ok bs)
    (hn : npScan 0 ((List.range n.toNat).map fun i => leAt bs (4 * i) 4) = true) :
    exec (.broadcastEnd i) s = .next ((s.setSpace (p.loaded base.toNat n.toNat bs)).bcastFin e b p 0 0) := by
  rw [exec_broadcastEnd, execBroadcastEnd, broadcastEndF, he]
  simp only [hk, hp, hs, ht, hd, hi, hr, hn, Bool.not_true, Bool.false_eq_true, if_false, if_true]
  rfl

end

/-! ### Refresh (R301) -/

theorem exec_refreshStart_new {s : State} {v u : Nat} (hu : u < 16) (hv : v < 1024)
    (hn : s.eng.refresh.contains (v * 16 + u) = false) :
    exec (.refreshStart v u) s = .next { s with eng := { s.eng with refresh := s.eng.refresh ++ [v * 16 + u] } } := by
  have due : ¬(16 ≤ u ∨ 1024 ≤ v ∨ s.eng.refresh.contains (v * 16 + u) = true) := by
    simp only [hn, Bool.false_eq_true, or_false]; omega
  rw [exec_refreshStart, execRefreshStart, refreshStartF, if_neg due]

/-! ### The statement -/

/-- Settles O42: each event by what makes it due, a message by where its node stands, and the end of a hop by what it has reached. -/
theorem graphProceeds : Obligations.GraphProceeds := by
  unfold Obligations.GraphProceeds
  refine ⟨fun s i e b p he hk hp => ⟨?lows, ?start, ?wave, fun w ws hs => exec_end_writes he hk hp hs, ?ends, ?loads⟩, ?refresh⟩
  case lows => exact fun hs hh hr hl => exec_broadcastStart_lows he hk hp hs hh hr hl
  case start =>
    intro hs hh read whole
    have due : (b.started || s.bcastHeld e b) = false := by rw [hs, hh, Bool.or_self]
    have lows : (b.readsSlots && b.lows.isNone) = false :=
      Bool.and_eq_false_imp.2 fun hr => by rw [← Option.not_isSome, read hr, Bool.not_true]
    have recs : (({ b with started := true } : Bcast).readsRecs && s.recsBad p) = false := Bool.and_eq_false_imp.2 whole
    rw [exec_broadcastStart, execBroadcastStart, broadcastStartF, he]
    simp only [hk, hp, due, lows, recs, Bool.false_eq_true, if_false]
    refine ⟨?_, ?_, ?_, ?_, ?_⟩
    · intro h base n a c hi; rw [hi]
    · intro h arg a c hi; rw [hi]
    · intro h prog ksel m tmsk tval pent a c hi; rw [hi]
    · intro h fill m tmsk tval a c hi; rw [hi]
    · intro h clr m cap a c hi; rw [hi]
  case wave =>
    intro hs hw hd
    refine ⟨?hopStart, ?message, ?hopEnd, ?fold⟩
    case hopStart =>
      exact fun hin ht => ⟨exec_hopStart_lows he hk hp hs hw hd hin ht, fun lo ms => exec_hopStart_sends he hk hp hs hw hd hin ht⟩
    case message =>
      intro hin m g hm hg
      refine ⟨exec_messageReceive_nowhere he hk hp hin hd hm hg, fun pl hl => ⟨fun hq hb hno => ?_, fun hq hb his hn => ?_,
        fun hq hroom hnew => ?_⟩⟩
      · rw [exec_messageReceive_reads he hk hp hin hd hm hg hl hq hb, if_neg (by rw [hno]; decide)]
        rfl
      · obtain ⟨b', takes, taken⟩ := msgTake_buffers (s := s) (e := e) (b := b) (p := p) (m := m) hn
        exact ⟨b', by rw [exec_messageReceive_reads he hk hp hin hd hm hg hl hq hb, if_pos his, takes], taken⟩
      · exact ⟨_, exec_messageReceive_queues he hk hp hin hd hm hg hl hq, rfl, queueCmd_one hroom hnew⟩
    case hopEnd =>
      intro hin ht hu hg
      obtain rfl := State.eng?_id he
      have goesOn := exec_hopEnd_due he hk hp hd hin ht hu hg
      rw [State.hopGoesOn] at goesOn
      refine ⟨fun hf => ?_, fun v us fs hf => ?_, fun us u due fs hf => ⟨fun hl => ?_, fun lo gs hl hb hm => ?_⟩, fun fs hf => ?_⟩
      all_goals rw [hf] at goesOn
      · exact goesOn
      · exact goesOn
      · exact goesOn.trans (congrArg _ (foldUnit_lows hl))
      · exact goesOn.trans (congrArg _ (foldUnit_folds hl hb hm))
      · obtain ⟨b', applies, stands⟩ := hopApply_stands (s := s) (e := e) (p := p) (fs := fs) hd
        exact ⟨b', goesOn.trans (congrArg _ applies), stands⟩
    case fold =>
      intro lo pl ms f hf
      obtain ⟨g, folded, rfl⟩ := Option.map_eq_some_iff.1 hf
      exact ⟨rfl, rfl, g, folded, rfl, rfl, rfl⟩
  case ends =>
    intro h arg a c st cause hs ht hd hi hst
    obtain rfl := State.eng?_id he
    exact ⟨_, exec_broadcastEnd_ended he hk hp hs ht hd, eng?_bcastFin, bcastFin_wave_mem hi ht hst⟩
  case loads =>
    intro h base n a c bs hs ht hd hi hr hn
    obtain rfl := State.eng?_id he
    refine ⟨_, p.loaded base.toNat n.toNat bs, exec_broadcastEnd_gload he hk hp hs ht hd hi hr hn, eng?_bcastFin, fun hc =>
      ⟨spaceOf_bcastFin_gload hi (State.spaceOf_setSpace hp rfl) hc, fun k => getD_store_words _ _ _ _ _⟩⟩
  case refresh =>
    intro s v u hu hv
    refine ⟨exec_refreshStart_new hu hv, fun hr => ?_⟩
    rw [exec_refreshEnd, execRefreshEnd, refreshEndF]
    exact congrArg _ (if_pos hr)

end Sys2Proof.Machine
end
